-- ==== Sys2Proof/Word.lean ====
section
/-! DEFINITION. The word types of the block (R21: little-endian fields, bit 0 least significant) and the sparse table type that every
large store of the block is held in. -/

namespace Sys2Proof

abbrev Byte := BitVec 8
abbrev W16 := BitVec 16
abbrev W32 := BitVec 32
abbrev W64 := BitVec 64

/-- A sparse store: rising keys, each with a value other than the store's default (the canonical form of `Tab.wf`). -/
abbrev Tab (α : Type) := List (Nat × α)

namespace Machine

/-- An exact value of the numeric contract (R36 to R60): NaN, an infinity, or ± m × 2^e with signed zeros. -/
inductive Fl where
  | nan
  | inf (neg : Bool)
  | fin (neg : Bool) (m : Nat) (e : Int)
deriving DecidableEq, Repr

end Machine

end Sys2Proof
end

