-- ==== Sys2Proof/Machine/Tab.lean ====
section
/-! DEFINITION. Sparse tables in one canonical form, and byte stores over them (little-endian, R21). -/

namespace Sys2Proof

/-- What key `i` of `t` holds; `d` where it is not listed. -/
def Tab.get {α : Type} (d : α) (t : Tab α) (i : Nat) : α :=
  match t with
  | [] => d
  | (k, v) :: t => if i = k then v else Tab.get d t i

/-- `t` without key `i`. -/
def Tab.erase {α : Type} (t : Tab α) (i : Nat) : Tab α := t.filter (fun x => x.1 != i)

/-- `t` with an entry for key `i` at its place among rising keys. -/
def Tab.insert {α : Type} (t : Tab α) (i : Nat) (v : α) : Tab α :=
  match t with
  | [] => [(i, v)]
  | (k, w) :: t => if i < k then (i, v) :: (k, w) :: t else (k, w) :: Tab.insert t i v

/-- `t` with key `i` holding `v`; an entry equal to the default is not listed. -/
def Tab.set {α : Type} [DecidableEq α] (d : α) (t : Tab α) (i : Nat) (v : α) : Tab α :=
  if v = d then t.erase i else (t.erase i).insert i v

/-- The canonical form: keys rise strictly and no entry equals the default. -/
abbrev Tab.wf {α : Type} (d : α) (t : Tab α) : Prop :=
  t.Pairwise (fun a b => a.1 < b.1) ∧ ∀ x ∈ t, x.2 ≠ d

/-- `t` with `f` applied to every entry; an entry equal to the default is not listed. -/
def Tab.mapAll {α : Type} [DecidableEq α] (d : α) (f : α → α) (t : Tab α) : Tab α :=
  (t.map Prod.fst).foldl (fun u k => Tab.set d u k (f (Tab.get d t k))) t

/-- The keys from `lo` to `hi` − 1 take the default. -/
def Tab.clearRange {α : Type} (t : Tab α) (lo hi : Nat) : Tab α :=
  t.filter (fun x => decide (x.1 < lo ∨ hi ≤ x.1))

namespace Machine

/-- The byte at address `a`. -/
def byteAt (m : Tab Byte) (a : Nat) : Byte := Tab.get 0 m a

/-- `n` bytes from `a`, lowest address first. -/
def readBytes (m : Tab Byte) (a n : Nat) : List Byte := (List.range n).map (fun i => byteAt m (a + i))

/-- The bytes `bs` written from `a` upward. -/
def writeBytes (m : Tab Byte) (a : Nat) (bs : List Byte) : Tab Byte :=
  match bs with
  | [] => m
  | b :: bs => writeBytes (Tab.set 0 m a b) (a + 1) bs

/-- The number that little-endian bytes spell (R21). -/
def leNat (bs : List Byte) : Nat :=
  match bs with
  | [] => 0
  | b :: bs => b.toNat + 256 * leNat bs

/-- The `n` little-endian bytes of `v` modulo 2^(8n). -/
def leBytes (n v : Nat) : List Byte :=
  match n with
  | 0 => []
  | n + 1 => BitVec.ofNat 8 v :: leBytes n (v / 256)

/-- The `n`-byte little-endian number at `a`. -/
def readLe (m : Tab Byte) (a n : Nat) : Nat := leNat (readBytes m a n)

/-- `v` written as `n` little-endian bytes at `a`. -/
def writeLe (m : Tab Byte) (a n v : Nat) : Tab Byte := writeBytes m a (leBytes n v)

/-- Bits `lo + len − 1 : lo` of `w` as a number. -/
def bits {n : Nat} (w : BitVec n) (lo len : Nat) : Nat := (w.extractLsb' lo len).toNat

/-- Bit `i` of `w`. -/
def bit {n : Nat} (w : BitVec n) (i : Nat) : Bool := w.getLsbD i

/-- `w` with bits `lo + len − 1 : lo` replaced by `v` modulo 2^len. -/
def setBits {n : Nat} (w : BitVec n) (lo len v : Nat) : BitVec n :=
  let mask : BitVec n := (BitVec.ofNat n (2 ^ len - 1)) <<< lo
  (w &&& ~~~mask) ||| ((BitVec.ofNat n (v % 2 ^ len)) <<< lo)

/-- The word whose only set bit is `i`. -/
def oneHot (n i : Nat) : BitVec n := (1#n) <<< i

/-- The set bits of `w`, lowest first. -/
def setList {n : Nat} (w : BitVec n) : List Nat := (List.range n).filter (fun i => w.getLsbD i)

/-- The number of set bits of `w`. -/
def popcount {n : Nat} (w : BitVec n) : Nat := (setList w).length

/-- `x` rounded up to a multiple of `k`. -/
def padTo (k x : Nat) : Nat := (x + k - 1) / k * k

/-- The first of a list at or after `from`, in turn. -/
def nextTurn (start : Nat) (xs : List Nat) : Option Nat := (xs.find? (fun x => start ≤ x)) <|> xs.head?

/-- The division rounded up. -/
def ceilDiv (a b : Nat) : Nat := (a + b - 1) / b

/-- ceil(log2 n), with 0 for n at most 1 (R146). -/
def clog2 (n : Nat) : Nat := if n ≤ 1 then 0 else Nat.log2 (n - 1) + 1

end Machine
end Sys2Proof
end

