-- ==== Sys2Proof/Syntax.lean ====
section
/-! DEFINITION. The commands of the block: ONE constructor for each row of spec/opcode_table.json, with the operands its rule names,
and the small data types those operands are made of. No row of the table gives bits. -/

namespace Sys2Proof

/-- A ring command as it stands in its ring: the ring, the free-running index (R283) and its 64 bytes, byte 0 lowest (R288). -/
structure Cmd where
  ring : Nat
  idx : W32
  w : BitVec 512
deriving DecidableEq, Repr

/-- What stage S1 finds (R447, R449): the self-tests and the record device's answer. -/
structure BringUp where
  mgmtOk : Bool
  tablesOk : Bool
  romOk : Bool
  sfdpOk : Bool
deriving DecidableEq, Repr

/-- The engines of a cluster queue (R220). -/
inductive Engine where
  | array | vector | stream | control
deriving DecidableEq, Repr

/-- A checker lane (R100): the array and the lane, 0 to 63 a checksum-row cell, 64 the checksum column. -/
structure LaneFault where
  array : Fin 4
  lane : Fin 65
deriving DecidableEq, Repr

/-- What goes wrong in the cells while a tile or its rerun passes through them (R95 to R100): chunk sum `k` of vector `v` and output column
`c` leaves slice pass `p` (0 outside P2 and P3) as `x`, or the checksum cells of a lane yield `x` as C_chk. The block computes every other
value itself, and judges the checks. -/
inductive ArrayFault where
  | chunk (v c k p : Nat) (x : W32)
  | lane (l : LaneFault) (x : W32)
deriving DecidableEq, Repr

/-- One row of a partial (R143): running maximum, running sum, unnormalised output. -/
structure PRow where
  m : W32
  l : W32
  o : List W32
deriving DecidableEq, Repr

/-- A partial tile on its way to Confluence (R153). -/
structure PTile where
  opid : W32
  sqid : BitVec 14
  layer : Byte
  level : Nat
  training : Bool
  node : Nat
  rowBase : Nat
  dim : Nat
  rows : List PRow
deriving DecidableEq, Repr

/-- A fabric flit with its sideband (R358). -/
structure Flit where
  port : Fin 8
  data : BitVec 1024
  kind : BitVec 2
  sot : Bool
  eot : Bool
  part : Fin 16
  sqid : BitVec 14
  layer : Byte
  epoch : W16
  bytes : BitVec 7
deriving DecidableEq, Repr

/-- The header of a peer message, but for its TYPE (R363). -/
structure PeerHdr where
  reason : Byte
  srcId : BitVec 12
  dstId : BitVec 12
  window : W16
  slot : BitVec 4
  part : BitVec 4
  epoch : W16
  opid : W32
  bytes : W32
deriving DecidableEq, Repr

/-- What starts a wake of the PLLs besides a buffered host write and a flit (R373). -/
inductive WakeCause where
  | message (w : W32)
  | read
  | timeout
deriving DecidableEq, Repr

/-- How a frame or group copy ends (R357, R263, R265). -/
inductive CopyResult where
  | ok
  | readError (stat : BitVec 2)
  | writeError (stat : BitVec 2)
deriving DecidableEq, Repr

/-- Where an SRAM word stands, for the scrubber and for reads (R412, R413). -/
inductive SramUnit where
  | scratchpad (n : Fin 32) (bank : Fin 64) (row : Nat)
  | clusterOther (n : Fin 32)
  | pairCode (sp : Fin 8) (bank : Bool)
  | pairData (sp : Fin 8)
  | tlb (k : Fin 16)
  | cacheTag (n : Fin 32)
  | context (p : Fin 16) (sqid : BitVec 14)
  | duplicated (bothCopies : Bool)
  | other
deriving DecidableEq, Repr

/-- What a scrub read finds (R413). -/
inductive SramFinding where
  | clean
  | single (u : SramUnit) (addr : W32)
  | double (u : SramUnit) (addr : W32)
deriving DecidableEq, Repr

/-- A meter link event (R392). -/
structure LinkEv where
  seq : W16
  part : BitVec 4
  q : BitVec 4
  inc : BitVec 48
  crc : W32
deriving DecidableEq, Repr

/-- What every Lefiza instruction carries: the pair that issues it and its guard (R204). -/
structure Issue where
  sp : Fin 8
  pg : Fin 16
  pn : Bool
deriving DecidableEq, Repr

/-- The second operand of classes 0x0, 0x1 and 0x2: a register or the sign-extended immediate (R205, R206). -/
inductive SrcB where
  | reg (b : Fin 64)
  | imm (i : W32)
deriving DecidableEq, Repr

/-- The fields of class 0x6 (R214). `lt` is the d register of the loop-table reference when bit 5 of `LT` is set. -/
structure MxF where
  ds : Fin 32
  db : Fin 32
  dout : Fin 32
  lt : Option (Fin 32)
  gang : BitVec 2
  pm : BitVec 2
  acc : BitVec 2
  rlb : Bool
  rls : Bool
  cmask : BitVec 4
deriving DecidableEq, Repr

/-- The fields of class 0x7 (R216). -/
structure VxF where
  chain : BitVec 14
  ia : Fin 32
  ib : Fin 32
  ic : Fin 32
  io : Fin 32
  ben : Bool
  cen : Bool
  rla : Bool
  lt : Option (Fin 32)
  cmask : BitVec 4
deriving DecidableEq, Repr

/-- The commands. -/
inductive Instr where
  -- resets and bring-up
  | coldReset
  | blockReset
  | resetRelease (r : BringUp)
  | s1End
  | s2WaveEnd (fail : BitVec 8)
  | s3End (fail : BitVec 32)
  | rstCtlBlock (v : W64)
  | partitionReset (v : W64)
  | partitionResetDone (p : Fin 16)
  | ptKill (p : Fin 16) (v : W64)
  | smuPor
  -- host register writes
  | regWrite (off : BitVec 24) (v : W64)
  | configWrite (off : BitVec 24) (v : W64)
  | axPartLock (v : W64)
  | rasPstop (v : W64)
  | ringEnable (v : W64)
  | ringDisable (v : W64)
  | doorbell (r : BitVec 14) (v : W64)
  -- Headwater
  | commandFetch
  | backlogRetry (p : Fin 16)
  | admitSeq (c : Cmd)
  | release (c : Cmd)
  | fork (c : Cmd)
  | appendKv (c : Cmd)
  | attend (c : Cmd)
  | attendBwd (c : Cmd)
  | prefill (c : Cmd)
  | prefillChunk (opid : W32)
  | specCommit (c : Cmd)
  | specAbort (c : Cmd)
  | evict (c : Cmd)
  | restore (c : Cmd)
  | exportGroups (c : Cmd)
  | importGroups (c : Cmd)
  | swap (c : Cmd)
  | swapSwitchPoint
  | clusterClearDone (n : Fin 32)
  | runProgram (c : Cmd)
  | imageLoadDone (opid : W32)
  | shareGrant
  | fire (ring : BitVec 14) (idx : W32)
  | prewakeTimeout (n : Fin 32)
  -- clusters and Confluence
  | entryStart (n : Fin 32) (e : Engine)
  | tileVerdict (n : Fin 32) (fs : List ArrayFault)
  | abftRerunDone (n : Fin 32) (data sums column : List ArrayFault)
  | entryComplete (n : Fin 32) (e : Engine)
  | segmentDone (opid : W32) (seg : Nat)
  | partialTile (n : Fin 32) (epoch : W16) (t : PTile)
  | merge (opid : W32) (level node : Nat)
  | peerTmo (opid : W32)
  | streamIssue (n : Fin 32)
  -- memory ports and translation
  | memoryRequestIssue (k : Fin 16)
  | readCommandCredit (k : Fin 16)
  | writeCommandCredit (k : Fin 16)
  | writeDataCredit (k : Fin 16)
  | readReturn (k : Fin 16) (tag : BitVec 10) (stat : BitVec 2)
  | writeCompletion (k : Fin 16) (tag : BitVec 9) (stat : BitVec 2)
  | walkDone (p : Fin 17)
  | heldTimeout (ring : BitVec 14) (idx : W32)
  | unmap (v : W64)
  | hold (v : W64)
  | resolve (v : W64)
  | invalidationDone
  | holdTimeout (opid : W32)
  | stallTimeout (n : Fin 32) (e : Engine)
  | budgetExpiry (opid : W32)
  | ptResumeResume (p : Fin 16) (v : W64)
  | ptResumeRelease (p : Fin 16) (v : W64)
  | ptSigSelect (p : Fin 16) (v : W64)
  | ptSigRaise (p : Fin 16) (v : W64)
  | ptSigClear (p : Fin 16) (v : W64)
  | signalTimeout (sp : Fin 8)
  -- power and clocks
  | lend (sp : Fin 8)
  | recallExpiry (sp : Fin 8)
  | grant (w : W32)
  | returnShares (w : W32)
  | freq (w : W32)
  | freqSwitchDone
  | wake (c : WakeCause)
  | pllAwake
  | noStop (w : W32)
  | pllStop
  | power
  | clusterClockStop (n : Fin 32)
  | clusterClockStart (n : Fin 32)
  | pllLockLoss
  | refClkAbsent
  | clockUnitSelfCheckFail
  | resetTagQuarantineEnd
  -- fabric and peers
  | flit (f : Flit)
  | fabricCredit (port : Fin 8) (cnt : BitVec 4)
  | credit (h : PeerHdr)
  | write (h : PeerHdr) (t : PTile)
  | ack (h : PeerHdr)
  | nack (h : PeerHdr)
  | stale (h : PeerHdr) (t : PTile)
  | withdraw (h : PeerHdr)
  | withdrawAck (h : PeerHdr)
  | withdrawTimeout (window : W16)
  -- page groups
  | evictCopyDone (p : Fin 16) (g : Nat) (r : CopyResult)
  | restoreCopyDone (p : Fin 16) (g : Nat) (r : CopyResult)
  | cowCopyDone (p : Fin 16) (g : Nat) (r : CopyResult)
  | crcComputeDone (p : Fin 16) (g : Nat)
  | groupCopyDone (opid : W32) (r : CopyResult)
  | scrubGroup (p : Fin 16) (g : Nat)
  -- RAS, recorder, trace
  | sramScrub (f : SramFinding)
  | comparatorSelfTest (u : Option (Fin 8)) (pass : Bool)
  | lockstepMismatch (sp : Fin 8)
  | mgmtPairMismatch
  | clMapout (n : Fin 32) (reason : Byte)
  | time
  | recUtcAdvance
  | residencySample
  | recordProgramDone
  | trcMark (v : W64)
  | flush (v : W64)
  -- the meter
  | mevHold (b : Bool)
  | sealReport (b : BitVec 224)
  | lockReport (b : BitVec 224)
  | linkEvent (e : LinkEv)
  | restart (e : LinkEv)
  | reportAck (e : LinkEv)
  | sealReportResend
  | glitchTrip
  | meterPersist
  | meterRead (addr : W16)
  | meterWrite (addr : W16) (v : W32)
  | smuSeal (v : W32)
  | sealBurnDone
  | smuRoCtl (v : W32)
  | readoutDone
  -- test access
  | bypass
  | idcode
  | samplePreload
  | extest
  | ijtagAccess
  | testInstrument (k : Fin 5)
  -- Lefiza
  | add (i : Issue) (d a : Fin 64) (b : SrcB)
  | sub (i : Issue) (d a : Fin 64) (b : SrcB)
  | mul (i : Issue) (d a : Fin 64) (b : SrcB)
  | mulhu (i : Issue) (d a : Fin 64) (b : SrcB)
  | divu (i : Issue) (d a : Fin 64) (b : SrcB)
  | remu (i : Issue) (d a : Fin 64) (b : SrcB)
  | and (i : Issue) (d a : Fin 64) (b : SrcB)
  | or (i : Issue) (d a : Fin 64) (b : SrcB)
  | xor (i : Issue) (d a : Fin 64) (b : SrcB)
  | shl (i : Issue) (d a : Fin 64) (b : SrcB)
  | shr (i : Issue) (d a : Fin 64) (b : SrcB)
  | sar (i : Issue) (d a : Fin 64) (b : SrcB)
  | min (i : Issue) (d a : Fin 64) (b : SrcB)
  | max (i : Issue) (d a : Fin 64) (b : SrcB)
  | minu (i : Issue) (d a : Fin 64) (b : SrcB)
  | maxu (i : Issue) (d a : Fin 64) (b : SrcB)
  | clz (i : Issue) (d a : Fin 64) (b : SrcB)
  | popc (i : Issue) (d a : Fin 64) (b : SrcB)
  | movi (i : Issue) (d : Fin 64) (imm : W32)
  | movhi (i : Issue) (d : Fin 64) (imm : W32)
  | eq (i : Issue) (pd : Fin 16) (a : Fin 64) (b : SrcB)
  | ne (i : Issue) (pd : Fin 16) (a : Fin 64) (b : SrcB)
  | lt (i : Issue) (pd : Fin 16) (a : Fin 64) (b : SrcB)
  | le (i : Issue) (pd : Fin 16) (a : Fin 64) (b : SrcB)
  | ltu (i : Issue) (pd : Fin 16) (a : Fin 64) (b : SrcB)
  | leu (i : Issue) (pd : Fin 16) (a : Fin 64) (b : SrcB)
  | pand (i : Issue) (pd : Fin 16) (a b : Fin 16)
  | por (i : Issue) (pd : Fin 16) (a b : Fin 16)
  | pxor (i : Issue) (pd : Fin 16) (a b : Fin 16)
  | pfromg (i : Issue) (pd : Fin 16) (a : Fin 64)
  | ptog (i : Issue) (b : Fin 64) (a : Fin 16)
  | ld8 (i : Issue) (d a : Fin 64) (imm : W32)
  | ld16 (i : Issue) (d a : Fin 64) (imm : W32)
  | ld32 (i : Issue) (d a : Fin 64) (imm : W32)
  | ld64 (i : Issue) (d a : Fin 64) (imm : W32)
  | lds8 (i : Issue) (d a : Fin 64) (imm : W32)
  | lds16 (i : Issue) (d a : Fin 64) (imm : W32)
  | lds32 (i : Issue) (d a : Fin 64) (imm : W32)
  | st8 (i : Issue) (d a : Fin 64) (imm : W32)
  | st16 (i : Issue) (d a : Fin 64) (imm : W32)
  | st32 (i : Issue) (d a : Fin 64) (imm : W32)
  | st64 (i : Issue) (d a : Fin 64) (imm : W32)
  | b (i : Issue) (tgt : BitVec 14)
  | bl (i : Issue) (d : Fin 64) (tgt : BitVec 14)
  | bi (i : Issue) (a : Fin 64)
  | dldt (i : Issue) (dd : Fin 32) (a : Fin 64) (imm : W32)
  | dlds (i : Issue) (dd : Fin 32) (a : Fin 64) (imm : W32)
  | dldl (i : Issue) (dd : Fin 32) (a : Fin 64)
  | dst (i : Issue) (dd : Fin 32) (a : Fin 64) (imm : W32)
  | dsetw (i : Issue) (dd : Fin 32) (a : Fin 64) (imm : W32)
  | dgetw (i : Issue) (dd : Fin 32) (a : Fin 64) (imm : W32)
  | dadda (i : Issue) (dd : Fin 32) (a : Fin 64)
  | dclr (i : Issue) (dd : Fin 32)
  | mxrun (i : Issue) (f : MxF)
  | mxew (i : Issue) (f : MxF)
  | vrun (i : Issue) (f : VxF)
  | sxq (i : Issue) (dd : Fin 32) (cmask : BitVec 4)
  | hset (i : Issue) (h : Byte) (a : Fin 64) (cmask : BitVec 4)
  | hclr (i : Issue) (h : Byte) (cmask : BitVec 4)
  | ltw (i : Issue) (dd : Fin 32) (a : Fin 64) (cmask : BitVec 4)
  | rclr (i : Issue) (h : Byte) (cmask : BitVec 4)
  | swait (i : Issue) (pd : Fin 16) (a b d : Fin 64)
  | sraise (i : Issue) (a : Fin 64)
  | spoll (i : Issue) (pd : Fin 16) (a : Fin 64)
  | tfence (i : Issue) (cmask : BitVec 4)
  | tmovd (i : Issue) (d a b : Fin 64)
  | tmovm (i : Issue) (d a b : Fin 64)
  | tmovDone (sp : Fin 8)
  | ifenceSwap (i : Issue) (tgt : BitVec 14)
  | csrr (i : Issue) (d : Fin 64) (csr : BitVec 12)
  | endProg (i : Issue) (a : Fin 64)
  | trap (i : Issue) (tgt : BitVec 14)
  | nop (i : Issue)
  | meterIslandUnpowered
  | delayRegisterParityError (sp : Fin 8)
  | frameCrcOrOpcodeBad
  | illegalInstruction (sp : Fin 8) (w : W64)
deriving DecidableEq, Repr

end Sys2Proof
end

