-- ==== Sys2Proof/Decode.lean ====
section
/-! DEFINITION. Reading a command from the bits of spec/opcode_table.json: no row of the table gives bits, so no word of it spells a
command. Reading a Lefiza instruction from its 64-bit word (R204 to R241), which the words of a steering pair's instruction memory are. -/

namespace Sys2Proof

/-- No row of the table has bits: no word of any length is a command. -/
def decodeTableWord (nbits w : Nat) : Option Instr :=
  let _ := nbits
  let _ := w
  none

namespace Machine

/-- R205: the bits of 47:0 that a class's fields use, as (lowest bit, length). -/
def classFields (cls : Nat) : List (Nat × Nat) :=
  match cls with
  | 0x0 => [(30, 18)]
  | 0x1 => [(36, 12), (0, 32)]
  | 0x2 => [(44, 4), (30, 12), (0, 32)]
  | 0x3 => [(36, 12), (0, 32)]
  | 0x4 => [(36, 12), (0, 14)]
  | 0x5 => [(43, 5), (36, 6), (0, 32)]
  | 0x6 => [(15, 33)]
  | 0x7 => [(1, 47)]
  | 0x8 => [(39, 9)]
  | 0x9 => [(43, 5), (28, 14), (15, 4)]
  | 0xA => [(44, 4), (24, 18), (15, 4)]
  | 0xB => [(30, 18), (16, 12), (0, 14)]
  | _ => []

/-- R206 to R241: the `OP` values that a class gives a meaning. -/
def opListed (cls op : Nat) : Bool :=
  match cls with
  | 0x0 => op ≤ 0x11
  | 0x1 => op ≤ 0x11 || op = 0x20 || op = 0x21
  | 0x2 => op % 64 ≤ 0x05 || (0x10 ≤ op % 64 && op % 64 ≤ 0x14)
  | 0x3 => op ≤ 0x06 || (0x08 ≤ op && op ≤ 0x0B)
  | 0x4 => op ≤ 0x02
  | 0x5 => op ≤ 0x07
  | 0x6 => op = 1 || op = 2
  | 0x7 => op = 1
  | 0x8 => op = 1
  | 0x9 => 1 ≤ op && op ≤ 4
  | 0xA => 1 ≤ op && op ≤ 4
  | 0xB => 1 ≤ op && op ≤ 7
  | _ => false

/-- R231: the word has a reserved class, `OP` or field bit. -/
def illegalWord (w : W64) : Bool :=
  let cls := bits w 60 4
  let used := (classFields cls).foldl (fun (m : W64) f => m ||| (BitVec.ofNat 64 (2 ^ f.2 - 1) <<< f.1)) 0
  !opListed cls (bits w 48 7) || (w &&& ~~~used &&& BitVec.ofNat 64 (2 ^ 48 - 1)) != 0

/-! The fields of a word (R204, R205) -/

/-- A register or predicate number: `len` bits of the word from bit `lo`. -/
def fieldFin (n : Nat) [NeZero n] (w : W64) (lo len : Nat) : Fin n := Fin.ofNat n (bits w lo len)

/-- `IMM`, bits 31:0. -/
def fieldImm (w : W64) : W32 := w.extractLsb' 0 32

/-- `TGT`, bits 13:0. -/
def fieldTgt (w : W64) : BitVec 14 := w.extractLsb' 0 14

/-- The common fields: guard and its inversion (R204). -/
def issueOf (sp : Fin 8) (w : W64) : Issue := ⟨sp, fieldFin 16 w 56 4, bit w 55⟩

/-- `LT`: a six-bit field whose bit 5 says that bits 4:0 name a d register (R214). -/
def fieldLt (w : W64) (lo : Nat) : Option (Fin 32) := if bit w (lo + 5) then some (fieldFin 32 w lo 5) else none

/-- R214: the fields of class 0x6. -/
def mxFields (w : W64) : MxF :=
  { ds := fieldFin 32 w 43 5, db := fieldFin 32 w 38 5, dout := fieldFin 32 w 33 5, lt := fieldLt w 27, gang := w.extractLsb' 25 2,
    pm := w.extractLsb' 23 2, acc := w.extractLsb' 21 2, rlb := bit w 20, rls := bit w 19, cmask := w.extractLsb' 15 4 }

/-- R216: the fields of class 0x7. -/
def vxFields (w : W64) : VxF :=
  { chain := w.extractLsb' 34 14, ia := fieldFin 32 w 29 5, ib := fieldFin 32 w 24 5, ic := fieldFin 32 w 19 5, io := fieldFin 32 w 14 5,
    ben := bit w 13, cen := bit w 12, rla := bit w 11, lt := fieldLt w 5, cmask := w.extractLsb' 1 4 }

/-- R206: classes 0x0 and 0x1, but for MOVI and MOVHI. -/
def aluInstr (i : Issue) (op : Nat) (d a : Fin 64) (b : SrcB) : Option Instr :=
  match op with
  | 0x00 => some (.add i d a b) | 0x01 => some (.sub i d a b) | 0x02 => some (.mul i d a b) | 0x03 => some (.mulhu i d a b)
  | 0x04 => some (.divu i d a b) | 0x05 => some (.remu i d a b) | 0x06 => some (.and i d a b) | 0x07 => some (.or i d a b)
  | 0x08 => some (.xor i d a b) | 0x09 => some (.shl i d a b) | 0x0A => some (.shr i d a b) | 0x0B => some (.sar i d a b)
  | 0x0C => some (.min i d a b) | 0x0D => some (.max i d a b) | 0x0E => some (.minu i d a b) | 0x0F => some (.maxu i d a b)
  | 0x10 => some (.clz i d a b) | 0x11 => some (.popc i d a b) | _ => none

/-- R207: class 0x2; bit 6 of `OP` puts `IMM` in place of g[`B`]. -/
def cmpInstr (i : Issue) (op : Nat) (w : W64) : Option Instr :=
  let pd := fieldFin 16 w 44 4
  let a := fieldFin 64 w 36 6
  let b : SrcB := if 64 ≤ op then .imm (fieldImm w) else .reg (fieldFin 64 w 30 6)
  let pa := fieldFin 16 w 36 4
  let pb := fieldFin 16 w 30 4
  match op % 64 with
  | 0x00 => some (.eq i pd a b) | 0x01 => some (.ne i pd a b) | 0x02 => some (.lt i pd a b) | 0x03 => some (.le i pd a b)
  | 0x04 => some (.ltu i pd a b) | 0x05 => some (.leu i pd a b) | 0x10 => some (.pand i pd pa pb) | 0x11 => some (.por i pd pa pb)
  | 0x12 => some (.pxor i pd pa pb) | 0x13 => some (.pfromg i pd a) | 0x14 => some (.ptog i (fieldFin 64 w 30 6) pa) | _ => none

/-- R208: class 0x3. -/
def memInstr (i : Issue) (op : Nat) (d a : Fin 64) (imm : W32) : Option Instr :=
  match op with
  | 0x00 => some (.ld8 i d a imm) | 0x01 => some (.ld16 i d a imm) | 0x02 => some (.ld32 i d a imm) | 0x03 => some (.ld64 i d a imm)
  | 0x04 => some (.lds8 i d a imm) | 0x05 => some (.lds16 i d a imm) | 0x06 => some (.lds32 i d a imm)
  | 0x08 => some (.st8 i d a imm) | 0x09 => some (.st16 i d a imm) | 0x0A => some (.st32 i d a imm) | 0x0B => some (.st64 i d a imm)
  | _ => none

/-- R210: class 0x5. -/
def descInstr (i : Issue) (op : Nat) (dd : Fin 32) (a : Fin 64) (imm : W32) : Option Instr :=
  match op with
  | 0x00 => some (.dldt i dd a imm) | 0x01 => some (.dlds i dd a imm) | 0x02 => some (.dldl i dd a) | 0x03 => some (.dst i dd a imm)
  | 0x04 => some (.dsetw i dd a imm) | 0x05 => some (.dgetw i dd a imm) | 0x06 => some (.dadda i dd a) | 0x07 => some (.dclr i dd)
  | _ => none

/-- R218, R222: classes 0x9 and 0xA. -/
def controlInstr (i : Issue) (sync : Bool) (op : Nat) (w : W64) : Option Instr :=
  let a := fieldFin 64 w 36 6
  let cm : BitVec 4 := w.extractLsb' 15 4
  let h : Byte := w.extractLsb' 28 8
  let pd := fieldFin 16 w 44 4
  match sync, op with
  | false, 0x01 => some (.hset i h a cm) | false, 0x02 => some (.hclr i h cm) | false, 0x03 => some (.ltw i (fieldFin 32 w 43 5) a cm)
  | false, 0x04 => some (.rclr i h cm)
  | true, 0x01 => some (.swait i pd a (fieldFin 64 w 30 6) (fieldFin 64 w 24 6)) | true, 0x02 => some (.sraise i a)
  | true, 0x03 => some (.spoll i pd a) | true, 0x04 => some (.tfence i cm)
  | _, _ => none

/-- R226, R228, R231, R240, R241: class 0xB. -/
def sysInstr (i : Issue) (op : Nat) (w : W64) : Option Instr :=
  let d := fieldFin 64 w 42 6
  let a := fieldFin 64 w 36 6
  let b := fieldFin 64 w 30 6
  match op with
  | 0x01 => some (.tmovd i d a b) | 0x02 => some (.tmovm i d a b) | 0x03 => some (.ifenceSwap i (fieldTgt w))
  | 0x04 => some (.csrr i d (w.extractLsb' 16 12)) | 0x05 => some (.endProg i a) | 0x06 => some (.trap i (fieldTgt w)) | 0x07 => some (.nop i)
  | _ => none

/-- R205: the instruction that class, `OP` and fields of a word name. -/
def fieldsInstr (sp : Fin 8) (w : W64) : Option Instr :=
  let i := issueOf sp w
  let op := bits w 48 7
  let d := fieldFin 64 w 42 6
  let a := fieldFin 64 w 36 6
  let dd := fieldFin 32 w 43 5
  match bits w 60 4 with
  | 0x0 => aluInstr i op d a (.reg (fieldFin 64 w 30 6))
  | 0x1 => if op = 0x20 then some (.movi i d (fieldImm w)) else if op = 0x21 then some (.movhi i d (fieldImm w)) else aluInstr i op d a (.imm (fieldImm w))
  | 0x2 => cmpInstr i op w
  | 0x3 => memInstr i op d a (fieldImm w)
  | 0x4 => match op with
    | 0 => some (.b i (fieldTgt w))
    | 1 => some (.bl i d (fieldTgt w))
    | 2 => some (.bi i a)
    | _ => none
  | 0x5 => descInstr i op dd a (fieldImm w)
  | 0x6 => if op = 1 then some (.mxrun i (mxFields w)) else if op = 2 then some (.mxew i (mxFields w)) else none
  | 0x7 => if op = 1 then some (.vrun i (vxFields w)) else none
  | 0x8 => if op = 1 then some (.sxq i dd (w.extractLsb' 39 4)) else none
  | 0x9 => controlInstr i false op w
  | 0xA => controlInstr i true op w
  | 0xB => sysInstr i op w
  | _ => none

/-- R204, R205, R231: the command that pair `sp` carries out for a word of its instruction memory. -/
def lefizaOf (sp : Fin 8) (w : W64) : Instr :=
  if illegalWord w then .illegalInstruction sp w else (fieldsInstr sp w).getD (.illegalInstruction sp w)

end Machine

end Sys2Proof
end

