-- ==== Sys2Proof/Machine/Numbers.lean ====
section
/-! DEFINITION. Number formats, rounding and conversions (R36 to R55, R66). A value is exact (`Fl`); a rounding step says where it is
rounded and to which format. -/

namespace Sys2Proof.Machine

/-- A magnitude shifted right by `sh` places, to nearest with ties to even (R52). -/
def rneShift (m sh : Nat) : Nat :=
  if sh = 0 then m
  else if Nat.log2 m + 2 ≤ sh then 0
  else
    let q := m >>> sh
    let r := m % 2 ^ sh
    let half := 2 ^ (sh - 1)
    if half < r ∨ (r = half ∧ q % 2 = 1) then q + 1 else q

/-- A magnitude shifted right by `sh` places, rounded up (R49). -/
def ceilShift (m sh : Nat) : Nat :=
  if m % 2 ^ sh = 0 then m >>> sh else (m >>> sh) + 1

/-- A floating format: `p` significand bits with the leading one, exponent of the last place of the smallest value, bias, and the
first power of two outside its range. -/
structure FFmt where
  p : Nat
  emin : Int
  bias : Nat
  top : Int
deriving DecidableEq, Repr

def fmtW32 : FFmt := ⟨24, -149, 127, 128⟩
def fmtCF16 : FFmt := ⟨10, -39, 31, 32⟩
def fmtCF8 : FFmt := ⟨4, -8, 6, 10⟩
/-- The wide format of R58 and R125: 38 bits, no range limit in use. -/
def fmtWide : FFmt := ⟨38, -1000000, 511, 1000000⟩

def zero (neg : Bool := false) : Fl := .fin neg 0 0
def flOne : Fl := .fin false 1 0
/-- ± 2^k. -/
def pow2 (k : Int) (neg : Bool := false) : Fl := .fin neg 1 k
/-- −2^120, the masked score (R139). -/
def maskedScore : Fl := pow2 120 true

def Fl.isNan : Fl → Bool | .nan => true | _ => false
def Fl.isInf : Fl → Bool | .inf _ => true | _ => false
def Fl.isFinite : Fl → Bool | .fin .. => true | _ => false
def Fl.isZero : Fl → Bool | .fin _ m _ => m == 0 | _ => false
def Fl.sign : Fl → Bool | .nan => false | .inf s => s | .fin s .. => s
def Fl.neg : Fl → Fl | .nan => .nan | .inf s => .inf (!s) | .fin s m e => .fin (!s) m e
def Fl.abs : Fl → Fl | .nan => .nan | .inf _ => .inf false | .fin _ m e => .fin false m e

/-- The signed mantissa of a finite value at exponent `e0`, which is at most its own. -/
def scaled (neg : Bool) (m : Nat) (e e0 : Int) : Int :=
  let v : Int := (m <<< (e - e0).toNat : Nat)
  if neg then -v else v

/-- Exact product (IEEE 754 for NaN, infinity and zero). -/
def Fl.mul (a b : Fl) : Fl :=
  match a, b with
  | .nan, _ => .nan
  | _, .nan => .nan
  | .inf s, .inf t => .inf (s != t)
  | .inf s, .fin t m _ => if m = 0 then .nan else .inf (s != t)
  | .fin s m _, .inf t => if m = 0 then .nan else .inf (s != t)
  | .fin s m e, .fin t n f => if m * n = 0 then zero (s != t) else .fin (s != t) (m * n) (e + f)

/-- Exact sum (IEEE 754: a sum of opposite values is +0, −0 + −0 is −0). -/
def Fl.add (a b : Fl) : Fl :=
  match a, b with
  | .nan, _ => .nan
  | _, .nan => .nan
  | .inf s, .inf t => if s = t then .inf s else .nan
  | .inf s, .fin .. => .inf s
  | .fin .., .inf t => .inf t
  | .fin s m e, .fin t n f =>
    if m = 0 ∧ n = 0 then zero (s && t)
    else
      let e0 := Min.min e f
      let v := scaled s m e e0 + scaled t n f e0
      if v = 0 then zero else .fin (decide (v < 0)) v.natAbs e0

def Fl.sub (a b : Fl) : Fl := Fl.add a (Fl.neg b)

/-- Exact sum of a list, in which an exact zero sum of non-zero terms is +0. -/
def flSum (xs : List Fl) : Fl :=
  match xs with
  | [] => zero
  | x :: xs => xs.foldl Fl.add x

/-- Order of two values that are not NaN: `a < b`. -/
def Fl.lt (a b : Fl) : Bool :=
  match a, b with
  | .nan, _ => false
  | _, .nan => false
  | .inf s, .inf t => s && !t
  | .inf s, .fin .. => s
  | .fin .., .inf t => !t
  | .fin s m e, .fin t n f =>
    let e0 := Min.min e f
    decide (scaled s m e e0 < scaled t n f e0)

/-- Equality of values, with +0 equal to −0. -/
def Fl.eqv (a b : Fl) : Bool :=
  match a, b with
  | .nan, _ => false
  | _, .nan => false
  | a, b => !(Fl.lt a b) && !(Fl.lt b a)

/-- A finite magnitude is at least 2^k. -/
def magGe (m : Nat) (e : Int) (k : Int) : Bool := m != 0 && decide (k ≤ e + Nat.log2 m)

/-- floor(log2 |x|) of a non-zero finite value. -/
def floorLog2 : Fl → Int
  | .fin _ m e => e + Nat.log2 m
  | _ => 0

/-- The exponent of the last place `x` has in format `f`, and the shift that takes it there. -/
def cutAt (f : FFmt) (m : Nat) (e : Int) : Int := Max.max (e + (Nat.log2 m : Nat) + 1 - f.p) f.emin

/-- One rounding to nearest even in `f`, without its upper limit. -/
def Fl.rneOpen (f : FFmt) : Fl → Fl
  | .fin s m e =>
    if m = 0 then zero s
    else
      let q := cutAt f m e
      if q ≤ e then .fin s m e
      else
        let r := rneShift m (q - e).toNat
        if r = 0 then zero s else .fin s r q
  | x => x

/-- One rounding to nearest even in `f`; overflow gives an infinity (R54). -/
def Fl.rne (f : FFmt) (x : Fl) : Fl :=
  match Fl.rneOpen f x with
  | .fin s m e => if magGe m e f.top then .inf s else .fin s m e
  | y => y

/-- RNE to W32 (R53). -/
def rw (x : Fl) : Fl := Fl.rne fmtW32 x
/-- RNE38 (R125). -/
def r38 (x : Fl) : Fl := Fl.rneOpen fmtWide x

/-- The quotient n / d with a sticky last bit: at least 79 bits, so that a later rounding of at most 78 bits is exact. -/
def quotSticky (n d : Nat) : Nat × Int :=
  let k := 80 + Nat.log2 d
  let q := (n <<< k) / d
  let r := (n <<< k) % d
  (2 * q + (if r = 0 then 0 else 1), -((k : Int) + 1))

/-- The quotient of two values, exact but for a sticky bit (IEEE 754 for NaN, infinity and zero). -/
def Fl.quot (a b : Fl) : Fl :=
  match a, b with
  | .nan, _ => .nan
  | _, .nan => .nan
  | .inf _, .inf _ => .nan
  | .inf s, .fin t .. => .inf (s != t)
  | .fin s .., .inf t => zero (s != t)
  | .fin s m e, .fin t n f =>
    if n = 0 then (if m = 0 then .nan else .inf (s != t))
    else if m = 0 then zero (s != t)
    else
      let (q, x) := quotSticky m n
      .fin (s != t) q (x + e - f)

/-- The code of a value that is representable in a floating format with `eb` exponent bits (sign, exponent, fraction). -/
def encodeFin (f : FFmt) (eb : Nat) (s : Bool) (m : Nat) (e : Int) : Nat :=
  let sg := if s then 2 ^ (eb + f.p - 1) else 0
  if m = 0 then sg
  else
    let len := Nat.log2 m + 1
    let lead := e + (len : Int) - 1
    if lead < f.emin + f.p - 1 then sg + (m <<< (e - f.emin).toNat) >>> (f.emin - e).toNat
    else
      let frac := if len ≤ f.p then m <<< (f.p - len) else m >>> (len - f.p)
      sg + (lead + f.bias).toNat * 2 ^ (f.p - 1) + (frac - 2 ^ (f.p - 1))

/-- The value of a floating code with `eb` exponent bits, for exponents that are not special (R37, R40, R42). -/
def decodeFin (f : FFmt) (eb : Nat) (c : Nat) : Fl :=
  let s := decide (c / 2 ^ (eb + f.p - 1) % 2 = 1)
  let e := c / 2 ^ (f.p - 1) % 2 ^ eb
  let frac := c % 2 ^ (f.p - 1)
  if e = 0 then (if frac = 0 then zero s else .fin s frac f.emin)
  else .fin s (frac + 2 ^ (f.p - 1)) ((e : Int) - f.bias - (f.p - 1))

/-- R42: the value of a W32 code. -/
def ofW32 (w : W32) : Fl :=
  let c := w.toNat
  if c / 2 ^ 23 % 256 = 255 then (if c % 2 ^ 23 = 0 then .inf (decide (c / 2 ^ 31 = 1)) else .nan)
  else decodeFin fmtW32 8 c

/-- R42: the W32 code of a value, rounded once; NaN is 0x7FC0_0000. -/
def toW32 (x : Fl) : W32 :=
  match rw x with
  | .nan => 0x7FC00000
  | .inf s => if s then 0xFF800000 else 0x7F800000
  | .fin s m e => BitVec.ofNat 32 (encodeFin fmtW32 8 s m e)

/-- R40: the value of a CF16 code. -/
def ofCF16 (w : W16) : Fl :=
  let c := w.toNat
  if c / 512 % 64 = 63 then (if c % 512 = 0 then .inf (decide (c / 2 ^ 15 = 1)) else .nan)
  else decodeFin fmtCF16 6 c

/-- R41, R54: the CF16 code of a value. -/
def toCF16 (x : Fl) : W16 :=
  match Fl.rne fmtCF16 x with
  | .nan => 0x7F00
  | .inf s => if s then 0xFE00 else 0x7E00
  | .fin s m e => BitVec.ofNat 16 (encodeFin fmtCF16 6 s m e)

/-- R37, R38: the value of a CF8 code. -/
def ofCF8 (b : Byte) : Fl :=
  let c := b.toNat
  if c % 128 = 127 then .nan else decodeFin fmtCF8 4 c

/-- A conversion of one element: its code, whether it counts as saturated and whether as flushed (R68, R69). -/
structure Conv where
  code : Nat
  sat : Bool
  flush : Bool
deriving DecidableEq, Repr

/-- R39, R55: conversion into CF8. -/
def toCF8 (training : Bool) (x : Fl) : Conv :=
  match x with
  | .nan => ⟨0x7F, false, false⟩
  | .inf s => if training then ⟨0x7F, false, false⟩ else ⟨if s then 0xFE else 0x7E, true, false⟩
  | .fin s m _ =>
    match Fl.rneOpen fmtCF8 x with
    | .fin s' m' e' =>
      if Fl.lt (.fin false 896 0) (.fin false m' e') then ⟨if s then 0xFE else 0x7E, true, false⟩
      else ⟨encodeFin fmtCF8 4 s' m' e', false, m != 0 && m' == 0⟩
    | _ => ⟨0x7F, false, false⟩

/-- The integer nearest to a finite value, ties to even. -/
def nearestInt : Fl → Int
  | .fin s m e =>
    let v : Nat := if 0 ≤ e then m <<< e.toNat else rneShift m (-e).toNat
    if s then -(v : Int) else (v : Int)
  | _ => 0

/-- R54: conversion into a two's complement format of `n` bits. -/
def toInt (n : Nat) (x : Fl) : Conv :=
  let lo : Int := -(2 ^ (n - 1) : Nat)
  let hi : Int := (2 ^ (n - 1) : Nat) - 1
  let enc (v : Int) : Nat := (v % (2 ^ n : Nat)).toNat
  match x with
  | .nan => ⟨0, true, false⟩
  | .inf s => ⟨enc (if s then lo else hi), true, false⟩
  | .fin _ m _ =>
    let v := nearestInt x
    if v < lo then ⟨enc lo, true, false⟩
    else if hi < v then ⟨enc hi, true, false⟩
    else ⟨enc v, false, m != 0 && v == 0⟩

/-- The value of an `n`-bit two's complement code (R44). -/
def ofInt (n c : Nat) : Fl :=
  let v := c % 2 ^ n
  if v < 2 ^ (n - 1) then (if v = 0 then zero else .fin false v 0) else .fin true (2 ^ n - v) 0

/-- The element formats, with the codes of `OUTFMT` (R108). -/
inductive Fmt where
  | w32 | cf16 | cf8 | i32 | i8 | i4 | k2 | b1
deriving DecidableEq, Repr

def Fmt.ofCode (c : Nat) : Option Fmt :=
  match c with
  | 0 => some .w32 | 1 => some .cf16 | 2 => some .cf8 | 3 => some .i32
  | 4 => some .i8 | 5 => some .i4 | 6 => some .k2 | 7 => some .b1
  | _ => none

/-- R36: bits of an element. -/
def Fmt.width : Fmt → Nat
  | .w32 => 32 | .cf16 => 16 | .cf8 => 8 | .i32 => 32 | .i8 => 8 | .i4 => 4 | .k2 => 2 | .b1 => 1

def Fmt.isSub : Fmt → Bool
  | .k2 => true | .b1 => true | _ => false

/-- The integer formats of R59. -/
def Fmt.isInt : Fmt → Bool
  | .i8 => true | .i4 => true | .k2 => true | .b1 => true | _ => false

/-- The value of an element's code, without a block scale (R37 to R44). -/
def ofCode (f : Fmt) (c : Nat) : Fl :=
  match f with
  | .w32 => ofW32 (BitVec.ofNat 32 c)
  | .cf16 => ofCF16 (BitVec.ofNat 16 c)
  | .cf8 => ofCF8 (BitVec.ofNat 8 c)
  | .i32 => ofInt 32 c
  | .i8 => ofInt 8 c
  | .i4 => ofInt 4 c
  | .k2 => ofInt 2 c
  | .b1 => if c % 2 = 0 then flOne else .fin true 1 0

/-- A finite non-zero value whose rounding is a zero (R68). -/
def flushedBy (x y : Fl) : Bool := x.isFinite && !x.isZero && y.isZero

/-- R54, R55: conversion of a W32 value into a format without a block scale. K2 and B1 have none (R54) and give 0. -/
def convert (training : Bool) (f : Fmt) (x : Fl) : Conv :=
  match f with
  | .w32 => ⟨(toW32 x).toNat, false, flushedBy x (rw x)⟩
  | .cf16 => ⟨(toCF16 x).toNat, false, flushedBy x (Fl.rne fmtCF16 x)⟩
  | .cf8 => toCF8 training x
  | .i32 => toInt 32 x
  | .i8 => toInt 8 x
  | .i4 => toInt 4 x
  | .k2 => ⟨0, false, false⟩
  | .b1 => ⟨0, false, false⟩

/-- R66: max(a, b), with `a` the first operand. -/
def flMax (training : Bool) (a b : Fl) : Fl :=
  match a, b with
  | .nan, .nan => .nan
  | .nan, b => if training then .nan else b
  | a, .nan => if training then .nan else a
  | a, b => if Fl.lt a b then b else if Fl.lt b a then a
            else if training && a.isZero && b.isZero then zero (a.sign && b.sign) else a

/-- R66: min(a, b), with `a` the first operand. -/
def flMin (training : Bool) (a b : Fl) : Fl :=
  match a, b with
  | .nan, .nan => .nan
  | .nan, b => if training then .nan else b
  | a, .nan => if training then .nan else a
  | a, b => if Fl.lt b a then b else if Fl.lt a b then a
            else if training && a.isZero && b.isZero then zero (a.sign || b.sign) else a

/-- Scale kinds, with the codes of `SCALE` (R211). -/
inductive ScaleKind where
  | none | e8s | cf16
deriving DecidableEq, Repr

def ScaleKind.ofCode (c : Nat) : Option ScaleKind :=
  match c with
  | 0 => some .none | 1 => some .e8s | 2 => some .cf16 | _ => Option.none

/-- Bytes of one scale (R246). -/
def ScaleKind.bytes : ScaleKind → Nat
  | .none => 0 | .e8s => 1 | .cf16 => 2

/-- The value of a scale code; NaN marks a NaN block (R46, R47). -/
def scaleVal (k : ScaleKind) (c : Nat) : Fl :=
  match k with
  | .none => flOne
  | .e8s => if c % 256 = 255 then .nan else pow2 ((c % 256 : Nat) - 127)
  | .cf16 => match ofCF16 (BitVec.ofNat 16 c) with
    | .inf _ => .nan
    | x => x

/-- The exact value of a block-scaled element (R46, R47): NaN in a NaN block, +0 under a scale of zero. -/
def scaledElem (k : ScaleKind) (sc : Fl) (q : Fl) : Fl :=
  match k with
  | .none => q
  | _ => if sc.isNan then .nan else if sc.isZero then zero else Fl.mul q sc

/-- The divisor of R49 for each element format: 127, 7, 1, 896. -/
def scaleDiv : Fmt → Nat
  | .i8 => 127 | .i4 => 7 | .cf8 => 896 | _ => 1

/-- The least e from `lo` on, of `n` candidates, with A ≤ c × 2^e. -/
def leastExp (a : Fl) (c : Nat) (lo : Int) (n : Nat) : Int :=
  match n with
  | 0 => lo
  | n + 1 => if Fl.lt (.fin false c lo) a then leastExp a c (lo + 1) n else lo

/-- R49: ceil(log2(A / c)) of a non-zero finite A. -/
def ceilLog2Div (a : Fl) (c : Nat) : Int := leastExp a c (floorLog2 a - Nat.log2 c - 2) 6

def clampExp (e : Int) : Int := Max.max (-127) (Min.min 127 e)

/-- R49, B1: the exponent whose power of two lies nearest to μ, a tie taking the larger. No power of two is nearest to a μ whose W32 sum
has overflowed: every larger one is nearer, and the clamp of R49 decides. -/
def nearestExp (mu : Fl) : Int :=
  if mu.isInf then 128
  else
    let e := floorLog2 mu
    -- 2^e ≤ μ < 2^(e+1); the midpoint is 1.5 × 2^e
    if Fl.lt mu (.fin false 3 (e - 1)) then e else e + 1

/-- A / c rounded toward +infinity to CF16, clamped to 0x7DFF (R49). -/
def cf16Up (a : Fl) (c : Nat) : Nat :=
  match Fl.quot a (.fin false c 0) with
  | .fin _ m e =>
    if m = 0 then 0
    else
      let q := cutAt fmtCF16 m e
      let (m', e') := if q ≤ e then (m, e) else (ceilShift m (q - e).toNat, q)
      if magGe m' e' 32 then 0x7DFF else encodeFin fmtCF16 6 false m' e'
  | _ => 0

/-- The largest magnitude of the finite elements (R49). -/
def maxAbs (xs : List Fl) : Fl :=
  xs.foldl (fun a x => if x.isFinite && Fl.lt a x.abs then x.abs else a) zero

/-- μ of R49: the mean magnitude of the finite elements, each step rounded to W32. -/
def meanAbs (xs : List Fl) : Fl :=
  let ys := xs.filter Fl.isFinite
  let s := ys.foldl (fun a x => rw (Fl.add a x.abs)) zero
  if ys.length = 0 then zero else rw (Fl.quot s (.fin false ys.length 0))

/-- R49: the scale code of a block. -/
def chooseScale (f : Fmt) (k : ScaleKind) (xs : List Fl) : Nat :=
  let a := maxAbs xs
  match k with
  | .none => 0
  | .e8s =>
    if a.isZero then 0
    else
      let mu := meanAbs xs
      let e := if f = .b1 then (if mu.isZero then -127 else nearestExp mu) else ceilLog2Div a (scaleDiv f)
      (clampExp e + 127).toNat
  | .cf16 =>
    if a.isZero then 0
    else if f = .b1 then
      let c := (toCF16 (meanAbs xs)).toNat
      if c = 0x7E00 then 0x7DFF else c
    else cf16Up a (scaleDiv f)

/-- The extreme code of a sign (R51). -/
def extremeCode (f : Fmt) (neg : Bool) : Nat :=
  match f with
  | .i8 => if neg then 0x81 else 0x7F
  | .i4 => if neg then 0x9 else 0x7
  | .k2 => if neg then 3 else 1
  | .cf8 => if neg then 0xFE else 0x7E
  | .b1 => if neg then 1 else 0
  | _ => 0

/-- R50, R51: the K2 code of a value: −1, 0 or +1, and never −2. A value that rounds beyond them is clamped and counts as saturated. -/
def toK2 (v : Fl) : Conv :=
  match v with
  | .nan => ⟨0, true, false⟩
  | .inf s => ⟨extremeCode .k2 s, true, false⟩
  | .fin s m _ =>
    let q := nearestInt v
    if q.natAbs ≤ 1 then ⟨(q % 4).toNat, false, m != 0 && q == 0⟩ else ⟨extremeCode .k2 s, true, false⟩

/-- R50: one finite element under scale value `sc`. DESIGN CHOICE (log entry 117): R49 gives no scale to a block-scaled output whose format is
W32, CF16 or I32; its element codes are 0. -/
def scaledCode (training : Bool) (f : Fmt) (sc x : Fl) : Conv :=
  let v := if sc.isZero then (if x.isZero then zero x.sign else .inf x.sign) else Fl.quot x sc
  match f with
  | .i8 => toInt 8 v
  | .i4 => toInt 4 v
  | .k2 => toK2 v
  | .cf8 =>
    if !v.isZero && Fl.lt v.abs (pow2 (-8)) then ⟨if x.sign then 0x80 else 0, false, true⟩ else toCF8 training v
  | .b1 => ⟨if x.sign && !x.isZero then 1 else 0, false, false⟩
  | _ => ⟨0, false, false⟩

/-- A converted block: scale code, element codes, saturated and flushed elements, and a NaN met (R70). -/
structure Block where
  scale : Nat
  codes : List Nat
  sat : Nat
  flush : Nat
  nan : Bool
deriving DecidableEq, Repr

/-- R49 to R51: conversion of one block. DESIGN CHOICE (log entry 116): where a NaN makes the whole block a NaN block, an infinite element of
the same block, which R51 would count as saturated in the serving class, counts nothing. -/
def quantBlock (training : Bool) (f : Fmt) (k : ScaleKind) (xs : List Fl) : Block :=
  if xs.any Fl.isNan || (training && xs.any Fl.isInf) then
    ⟨(match k with | .e8s => 0xFF | .cf16 => 0x7F00 | .none => 0), xs.map (fun _ => 0), 0, 0, true⟩
  else
    let sc := chooseScale f k xs
    let v := scaleVal k sc
    let cs := xs.map (fun x => match x with
      | .inf s => (⟨extremeCode f s, true, false⟩ : Conv)
      | x => scaledCode training f v x)
    ⟨sc, cs.map Conv.code, cs.countP Conv.sat, cs.countP (fun c => c.flush && !c.sat), xs.any Fl.isInf⟩

/-- Codes of `w` bits packed from bit 0 of byte 0 (R44), `n` bytes in all. -/
def packCodes (w : Nat) (cs : List Nat) : List Byte :=
  let v := cs.foldr (fun c acc => c % 2 ^ w + acc * 2 ^ w) 0
  leBytes (ceilDiv (cs.length * w) 8) v

/-- Element `i` of a packed vector of `w`-bit codes at address `a` of `m` (R44). -/
def codeAt (m : Tab Byte) (a w i : Nat) : Nat :=
  if 8 ≤ w then readLe m (a + i * (w / 8)) (w / 8)
  else (byteAt m (a + i * w / 8)).toNat / 2 ^ (i * w % 8) % 2 ^ w

/-- `v` written as element `i` of a packed vector (R44). -/
def putCode (m : Tab Byte) (a w i v : Nat) : Tab Byte :=
  if 8 ≤ w then writeLe m (a + i * (w / 8)) (w / 8) v
  else
    let at' := a + i * w / 8
    Tab.set 0 m at' (setBits (byteAt m at') (i * w % 8) w v)

end Sys2Proof.Machine
end

