-- ==== Sys2Proof/Machine/Dot.lean ====
section
/-! DEFINITION. Dot products (R56 to R64): the chunk window, the wide accumulator, the integer path, and split precision. -/

namespace Sys2Proof.Machine

/-- `xs` cut into runs of `n` (R56), with as many runs as `fuel` allows. -/
def chunksOf {α : Type} (n : Nat) (fuel : Nat) (xs : List α) : List (List α) :=
  match fuel with
  | 0 => []
  | fuel + 1 => if xs.isEmpty then [] else xs.take n :: chunksOf n fuel (xs.drop n)

/-- The magnitude of a finite value as a multiple of 2^q, truncated. -/
def truncTo (q : Int) : Fl → Int
  | .fin s m e =>
    let v : Nat := if q ≤ e then m <<< (e - q).toNat else m >>> (q - e).toNat
    if s then -(v : Int) else (v : Int)
  | _ => 0

/-- The sum of a chunk whose products are all zero (R57, R63): −0 when every product is −0. -/
def zeroSum (ps : List Fl) : Fl := zero (!ps.isEmpty && ps.all (fun p => p.sign && p.isZero))

/-- R57: the chunk sum of finite products. -/
def chunkSum (ps : List Fl) : Fl :=
  let nz := ps.filter (fun p => !p.isZero)
  match nz with
  | [] => zeroSum ps
  | p :: rest =>
    let e := rest.foldl (fun a x => Max.max a (floorLog2 x)) (floorLog2 p)
    let q := e - 32
    let v := ps.foldl (fun (a : Int) x => a + truncTo q x) 0
    if v = 0 then zero else .fin (decide (v < 0)) v.natAbs q

/-- R60: NaN and infinity of a dot product, decided apart from the window. -/
def specialDot (ps : List Fl) : Option Fl :=
  if ps.any Fl.isNan then some .nan
  else
    let pos := ps.any (fun p => p.isInf && !p.sign)
    let neg := ps.any (fun p => p.isInf && p.sign)
    if pos && neg then some .nan
    else if pos then some (.inf false)
    else if neg then some (.inf true)
    else none

/-- R58: chunk sums rounded into the wide accumulator in ascending order. -/
def accumulate (acc : Option Fl) (sums : List Fl) : Option Fl :=
  match sums with
  | [] => acc
  | c :: cs => accumulate (some (match acc with
    | none => r38 c
    | some a => r38 (Fl.add a c))) cs

/-- Product modes (R62). -/
inductive PMode where
  | native | p2 | p3
deriving DecidableEq, Repr

def PMode.ofCode (c : Nat) : Option PMode :=
  match c with
  | 0 => some .native | 1 => some .p2 | 2 => some .p3 | _ => none

/-- Bits sliced in each mode (R62). -/
def PMode.n : PMode → Nat
  | .native => 0 | .p2 => 14 | .p3 => 21

/-- Eb of R62 of an operand's chunk; 0 where no finite element is non-zero. -/
def sliceExp (xs : List Fl) : Int :=
  let nz := xs.filter (fun x => x.isFinite && !x.isZero)
  match nz with
  | [] => 0
  | x :: rest => rest.foldl (fun a y => Max.max a (floorLog2 y)) (floorLog2 x)

/-- The signed 7-bit groups of a sliced element, most significant first (R62); an element that is not finite takes no part (R64). -/
def slices (n : Nat) (eb : Int) (x : Fl) : List Int :=
  match x with
  | .fin s _ _ =>
    let m := (truncTo (eb + 1 - n) x).natAbs
    let sg (v : Nat) : Int := if s then -(v : Int) else (v : Int)
    if n = 14 then [sg (m / 128 % 128), sg (m % 128)]
    else [sg (m / 16384 % 128), sg (m / 128 % 128), sg (m % 128)]
  | _ => if n = 14 then [0, 0] else [0, 0, 0]

/-- The slices of an integer operand without a block scale: one exact slice of its I8 value (R64). -/
def intSlices (n : Nat) (x : Fl) : List Int :=
  let v := nearestInt x
  if n = 14 then [v, 0] else [v, 0, 0]

/-- The passes of R63: slice of a, slice of b, weight exponent. -/
def passes : PMode → List (Nat × Nat × Nat)
  | .native => []
  | .p2 => [(0, 0, 14), (0, 1, 7), (1, 0, 7)]
  | .p3 => [(0, 0, 28), (0, 1, 21), (1, 0, 21), (0, 2, 14), (1, 1, 14), (2, 0, 14)]

/-- An operand of a dot product: its decoded elements and whether it is an integer format without a block scale. -/
structure Operand where
  xs : List Fl
  int : Bool
deriving DecidableEq, Repr

/-- R62, R63: the contribution of one chunk in P2 or P3. -/
def splitChunk (pm : PMode) (aInt bInt : Bool) (as bs : List Fl) : Fl :=
  let n := pm.n
  let ea : Int := if aInt then 6 else sliceExp as
  let eb : Int := if bInt then 6 else sliceExp bs
  let sa := as.map (fun x => if aInt then intSlices n x else slices n ea x)
  let sb := bs.map (fun x => if bInt then intSlices n x else slices n eb x)
  let c := (passes pm).foldl (fun (acc : Int) p =>
    acc + ((sa.zip sb).foldl (fun (t : Int) ab => t + ab.1.getD p.1 0 * ab.2.getD p.2.1 0) 0) * (2 ^ p.2.2 : Nat)) 0
  if c = 0 then zeroSum (List.zipWith Fl.mul as bs)
  else .fin (decide (c < 0)) c.natAbs ((ea - n + 1) + (eb - n + 1))

/-- The result of a dot product: its value before rounding to W32 (an exact integer on the integer path), and saturations (R59). -/
structure DotRes where
  v : Fl
  sat : Nat
deriving DecidableEq, Repr

/-- R59: the integer path, clamped to I32. -/
def dotInt (as bs : List Fl) : DotRes :=
  let s := (as.zip bs).foldl (fun (t : Int) ab => t + nearestInt ab.1 * nearestInt ab.2) 0
  let r := toInt 32 (if s = 0 then zero else .fin (decide (s < 0)) s.natAbs 0)
  ⟨ofInt 32 r.code, if r.sat then 1 else 0⟩

/-- Chunk contributions of a range of the reduction (R57, R63). -/
def chunkSums (pm : PMode) (a b : Operand) : List Fl :=
  let ca := chunksOf 64 (a.xs.length + 1) a.xs
  let cb := chunksOf 64 (b.xs.length + 1) b.xs
  List.zipWith (fun x y => match pm with
    | .native => chunkSum (List.zipWith Fl.mul x y)
    | _ => splitChunk pm a.int b.int x y) ca cb

/-- A dot product under R56 to R64, with the accumulator carried in from earlier tiles (R81). -/
def dotAcc (pm : PMode) (acc : Option Fl) (a b : Operand) : Fl :=
  let ps := List.zipWith Fl.mul a.xs b.xs
  let special := match acc with
    | some .nan => some Fl.nan
    | some (.inf s) => match specialDot ps with
      | some (.inf t) => if s = t then some (.inf s) else some .nan
      | some x => some x
      | none => some (.inf s)
    | _ => specialDot ps
  match special with
  | some x => x
  | none => (accumulate acc (chunkSums pm a b)).getD zero

/-- A whole dot product. -/
def dot (pm : PMode) (a b : Operand) : DotRes :=
  if a.int && b.int then dotInt a.xs b.xs else ⟨dotAcc pm none a b, 0⟩

/-- The W32 value that leaves the array (R53), or the I32 value brought to W32 (R54). -/
def dotW (pm : PMode) (a b : Operand) : Fl × Nat :=
  let r := dot pm a b
  (rw r.v, r.sat)

end Sys2Proof.Machine
end

