-- ==== Sys2Proof/Machine/SfuTables.lean ====
section
/-! DEFINITION. The coefficients of the special functions (R125 to R127): each the wide-format value nearest to the exact number the spec
defines. -/

namespace Sys2Proof.Machine

/-- R127: e_k = (ln 2)^k / k!, k from 0. -/
def expCoef : List Fl :=
  [.fin false 137438953472 (-37),
   .fin false 190530846196 (-38),
   .fin false 264131837702 (-40),
   .fin false 244109651465 (-42),
   .fin false 169203916661 (-44),
   .fin false 187653148437 (-47),
   .fin false 173428334350 (-50),
   .fin false 274768825105 (-54),
   .fin false 190455236428 (-57),
   .fin false 234690684716 (-61)]

/-- R127: l_k = 2 / ((2k + 1) ln 2), k from 0. -/
def logCoef : List Fl :=
  [.fin false 198282496599 (-36),
   .fin false 264376662132 (-38),
   .fin false 158625997279 (-38),
   .fin false 226608567542 (-39),
   .fin false 176251108088 (-39),
   .fin false 144205452072 (-39),
   .fin false 244039995814 (-40),
   .fin false 211501329706 (-40),
   .fin false 186618820328 (-40)]

/-- R126: log2 e. -/
def log2e : Fl := .fin false 198282496599 (-37)

/-- R126: ln 2. -/
def ln2 : Fl := .fin false 190530846196 (-38)

/-- R126: k1 = √(2/π). -/
def geluK1 : Fl := .fin false 219320838056 (-38)

/-- R126: k2 = 0.044715. -/
def geluK2 : Fl := .fin false 196658649744 (-42)

/-- R126, TANH below 2^−4. -/
def tanhCoef : List Fl :=
  [.fin false 137438953472 (-37),
   .fin true 183251937963 (-39),
   .fin false 146601550370 (-40),
   .fin true 237354891075 (-42),
   .fin false 192366055512 (-43)]

/-- R126, SOFTPLUS: 2 / (2k + 1). -/
def softCoef : List Fl :=
  [.fin false 137438953472 (-36),
   .fin false 183251937963 (-38),
   .fin false 219902325555 (-39),
   .fin false 157073089682 (-39),
   .fin false 244335917284 (-40),
   .fin false 199911205050 (-40),
   .fin false 169155635042 (-40),
   .fin false 146601550370 (-40),
   .fin false 258708618300 (-41),
   .fin false 231476132163 (-41),
   .fin false 209430786243 (-41),
   .fin false 191219413526 (-41),
   .fin false 175921860444 (-41)]

/-- R126, ERF below 2^−4. -/
def erfSmall : List Fl :=
  [.fin false 155083251845 (-37),
   .fin true 206777669127 (-39),
   .fin false 248133202952 (-41),
   .fin true 236317336145 (-43),
   .fin false 183802372557 (-45)]

/-- R126: (−1)^i / (2i + 1)!. -/
def sinCoef : List Fl :=
  [.fin false 137438953472 (-37),
   .fin true 183251937963 (-40),
   .fin false 146601550370 (-44),
   .fin true 223392838659 (-50),
   .fin false 198571412142 (-56),
   .fin true 231064915947 (-63),
   .fin false 189591725905 (-70)]

/-- R126: (−1)^i / (2i)!. -/
def cosCoef : List Fl :=
  [.fin false 137438953472 (-37),
   .fin true 137438953472 (-38),
   .fin false 183251937963 (-42),
   .fin true 195468733827 (-47),
   .fin false 223392838659 (-53),
   .fin true 158857129713 (-59),
   .fin false 154043277298 (-66),
   .fin true 216676258177 (-74)]

/-- R126, ERF segments 0 to 3. -/
def erfTab0 : List (List Fl) :=
  [[ .fin false 154881556946 (-41),
     .fin false 154478639545 (-37),
     .fin true 154478639545 (-41),
     .fin true 204362366898 (-39),
     .fin false 154076351421 (-42),
     .fin false 243308885885 (-41),
     .fin true 204899589163 (-44),
     .fin true 229893287844 (-43),
     .fin false 204364880263 (-46),
     .fin false 177386689988 (-45)],
   [ .fin false 229927317500 (-40),
     .fin false 149725831464 (-37),
     .fin true 224588747195 (-40),
     .fin true 185597645252 (-39),
     .fin false 219324948433 (-41),
     .fin false 206267803170 (-41),
     .fin true 142756781227 (-42),
     .fin true 181150157411 (-43),
     .fin false 139345782595 (-44),
     .fin false 258564836651 (-46)],
   [ .fin false 187724366528 (-39),
     .fin false 140654401918 (-37),
     .fin true 175818002397 (-39),
     .fin true 150910452057 (-39),
     .fin false 164371517866 (-40),
     .fin false 139999663002 (-41),
     .fin true 204496215516 (-42),
     .fin true 193631662082 (-44),
     .fin false 190409944042 (-44),
     .fin false 195421505438 (-47)],
   [ .fin false 255030697180 (-39),
     .fin false 256134580639 (-38),
     .fin true 224117758059 (-39),
     .fin true 210777415318 (-40),
     .fin false 195519398307 (-40),
     .fin false 232138639133 (-43),
     .fin true 225480800631 (-42),
     .fin false 140684237095 (-50),
     .fin false 193028830521 (-44),
     .fin true 153552943390 (-47)]]

/-- R126, ERF segments 4 to 7. -/
def erfTab1 : List (List Fl) :=
  [[ .fin false 157690433902 (-38),
     .fin false 226037974059 (-38),
     .fin true 254292720816 (-39),
     .fin true 221328849599 (-41),
     .fin false 200652850019 (-40),
     .fin true 191161021030 (-44),
     .fin true 205069033826 (-42),
     .fin false 177344621991 (-44),
     .fin false 150834370098 (-44),
     .fin true 213351891042 (-46)],
   [ .fin false 183916591702 (-38),
     .fin false 193340524905 (-38),
     .fin true 265843221745 (-39),
     .fin true 225563945723 (-44),
     .fin false 182074914893 (-40),
     .fin true 183365110453 (-42),
     .fin true 152192071407 (-42),
     .fin false 147106461602 (-43),
     .fin false 159765001489 (-45),
     .fin true 138824678696 (-45)],
   [ .fin false 206011102683 (-38),
     .fin false 160284924871 (-38),
     .fin true 260463002915 (-39),
     .fin false 273820079988 (-42),
     .fin false 145832150070 (-40),
     .fin true 271727819087 (-42),
     .fin true 163922684810 (-43),
     .fin false 167447679967 (-43),
     .fin false 142525389917 (-50),
     .fin true 262082528273 (-46)],
   [ .fin false 224053641941 (-38),
     .fin false 257585110711 (-39),
     .fin true 241486041292 (-39),
     .fin false 260268288948 (-41),
     .fin false 199980627945 (-41),
     .fin true 153073222164 (-41),
     .fin true 175769136826 (-46),
     .fin false 151669148457 (-43),
     .fin true 246714838324 (-46),
     .fin true 184530861839 (-46)]]

/-- R126, ERF segments 8 to 11. -/
def erfTab2 : List (List Fl) :=
  [[ .fin false 238335162301 (-38),
     .fin false 200607485930 (-39),
     .fin true 213145453800 (-39),
     .fin false 168217735597 (-40),
     .fin false 210925188656 (-42),
     .fin true 145752243948 (-41),
     .fin false 187977823285 (-44),
     .fin false 220558625451 (-44),
     .fin true 197733694036 (-45),
     .fin true 156342706334 (-47)],
   [ .fin false 249292744096 (-38),
     .fin false 151426474835 (-39),
     .fin true 179818938867 (-39),
     .fin false 183762336649 (-40),
     .fin false 172326483081 (-44),
     .fin true 240978573845 (-42),
     .fin false 167797839883 (-43),
     .fin false 231281167482 (-45),
     .fin true 212488316496 (-45),
     .fin false 177631481927 (-49)],
   [ .fin false 257442009526 (-38),
     .fin false 221571951251 (-40),
     .fin true 145406593009 (-39),
     .fin false 180604220681 (-40),
     .fin true 172670329198 (-43),
     .fin true 171399103403 (-42),
     .fin false 196019636597 (-43),
     .fin false 259560222216 (-48),
     .fin true 178662856108 (-45),
     .fin false 183204977189 (-47)],
   [ .fin false 263316708769 (-38),
     .fin false 157118040487 (-40),
     .fin true 225857183200 (-40),
     .fin false 164073787071 (-40),
     .fin true 170569226896 (-42),
     .fin true 197622478040 (-43),
     .fin false 185664358406 (-43),
     .fin true 233616267065 (-46),
     .fin true 234325911290 (-46),
     .fin false 240558991627 (-47)]]

/-- R126, ERF segments 12 to 15. -/
def erfTab3 : List (List Fl) :=
  [[ .fin false 267421737566 (-38),
     .fin false 215971089463 (-41),
     .fin true 168727413643 (-40),
     .fin false 139762540967 (-40),
     .fin true 211788055666 (-42),
     .fin true 141390057478 (-44),
     .fin false 149773957157 (-43),
     .fin true 200124896124 (-45),
     .fin true 200815560059 (-47),
     .fin false 225380322006 (-47)],
   [ .fin false 270202155847 (-38),
     .fin false 143867761342 (-41),
     .fin true 242776847265 (-41),
     .fin false 225168032726 (-41),
     .fin true 218119823715 (-42),
     .fin false 194080981951 (-46),
     .fin false 205368507209 (-44),
     .fin true 221138796469 (-45),
     .fin false 168891367759 (-50),
     .fin false 164080058835 (-47)],
   [ .fin false 272027595066 (-38),
     .fin false 185776016222 (-42),
     .fin true 168359514701 (-41),
     .fin false 172471744227 (-41),
     .fin true 200365359944 (-42),
     .fin false 167127357693 (-44),
     .fin false 225500544002 (-45),
     .fin true 196361523474 (-45),
     .fin false 162619080723 (-47),
     .fin false 174452554821 (-48)],
   [ .fin false 273189278744 (-38),
     .fin false 232511320640 (-43),
     .fin true 225245341870 (-42),
     .fin false 252190013142 (-42),
     .fin true 169227294608 (-42),
     .fin false 221976597514 (-44),
     .fin false 148596913415 (-46),
     .fin true 146832644494 (-45),
     .fin false 220803857243 (-47),
     .fin false 153078724124 (-50)]]

/-- R126, ERF segments 16 to 19. -/
def erfTab4 : List (List Fl) :=
  [[ .fin false 273905870186 (-38),
     .fin false 141025244698 (-43),
     .fin true 145432283595 (-42),
     .fin false 176465182494 (-42),
     .fin true 267004583163 (-43),
     .fin false 228799343227 (-44),
     .fin true 238353665835 (-48),
     .fin true 182789533850 (-46),
     .fin false 214039599551 (-47),
     .fin true 216133315264 (-50)],
   [ .fin false 274334338306 (-38),
     .fin false 165808929006 (-44),
     .fin true 181353516100 (-43),
     .fin false 236839056145 (-43),
     .fin true 198591545625 (-43),
     .fin false 205431771157 (-44),
     .fin true 175514035208 (-46),
     .fin true 171906067718 (-47),
     .fin false 169231431587 (-47),
     .fin true 195356397638 (-49)],
   [ .fin false 274582667926 (-38),
     .fin false 188950159869 (-45),
     .fin true 218473622348 (-44),
     .fin false 152660903905 (-43),
     .fin true 140101899748 (-43),
     .fin false 167591972191 (-44),
     .fin true 217857861461 (-46),
     .fin true 250713612236 (-50),
     .fin false 222971261592 (-48),
     .fin true 204789973224 (-49)],
   [ .fin false 274722176720 (-38),
     .fin false 208696377493 (-46),
     .fin true 254348710069 (-45),
     .fin false 189266962140 (-44),
     .fin true 188277658430 (-44),
     .fin false 253581256655 (-45),
     .fin true 211240039738 (-46),
     .fin false 210884957953 (-49),
     .fin false 233617761156 (-49),
     .fin true 167548362450 (-49)]]

/-- R126, ERF segments 20 to 23. -/
def erfTab5 : List (List Fl) :=
  [[ .fin false 274798145935 (-38),
     .fin false 223414242287 (-47),
     .fin true 143124748965 (-45),
     .fin false 225886925958 (-45),
     .fin true 241709374229 (-45),
     .fin false 179986030797 (-45),
     .fin true 178564469690 (-46),
     .fin false 180108269240 (-48),
     .fin false 150693599010 (-50),
     .fin true 225895842178 (-50)],
   [ .fin false 274838245218 (-38),
     .fin false 231811564016 (-48),
     .fin true 155748394573 (-46),
     .fin false 259731576609 (-46),
     .fin true 148549087272 (-45),
     .fin false 241461064652 (-46),
     .fin true 274165381079 (-47),
     .fin false 191076773654 (-48),
     .fin true 174084132242 (-52),
     .fin true 245247080640 (-51)],
   [ .fin false 274858761490 (-38),
     .fin false 233124349053 (-49),
     .fin true 163915557928 (-47),
     .fin false 143957321013 (-46),
     .fin true 175120723020 (-46),
     .fin false 153823617094 (-46),
     .fin true 195021563107 (-47),
     .fin false 166928829189 (-48),
     .fin true 270329304967 (-51),
     .fin true 181422504047 (-52)],
   [ .fin false 274868936225 (-38),
     .fin false 227231467525 (-50),
     .fin true 166873108964 (-48),
     .fin false 153928608047 (-47),
     .fin true 198270458241 (-47),
     .fin false 186789206019 (-47),
     .fin true 260051284059 (-48),
     .fin false 258620173462 (-49),
     .fin true 156947279150 (-50),
     .fin false 240279578878 (-57)]]

/-- R126, ERF segments 24 to 27. -/
def erfTab6 : List (List Fl) :=
  [[ .fin false 274873827368 (-38),
     .fin false 214673089978 (-51),
     .fin true 164359084514 (-49),
     .fin false 158838520026 (-48),
     .fin true 215828303037 (-48),
     .fin false 216738115213 (-48),
     .fin true 163699278470 (-48),
     .fin false 183265111031 (-49),
     .fin true 140311034006 (-50),
     .fin false 193757506380 (-53)],
   [ .fin false 274876106452 (-38),
     .fin false 196569004933 (-52),
     .fin true 156640925806 (-50),
     .fin false 158240608463 (-49),
     .fin true 226089148771 (-49),
     .fin false 240791482144 (-49),
     .fin true 195550510105 (-49),
     .fin false 241518675719 (-50),
     .fin true 217305666480 (-51),
     .fin false 240003670574 (-53)],
   [ .fin false 274877135826 (-38),
     .fin false 174453934369 (-53),
     .fin true 144469664399 (-51),
     .fin false 152249673842 (-50),
     .fin true 228085244901 (-50),
     .fin false 256538047341 (-50),
     .fin true 222438028632 (-50),
     .fin false 149441218208 (-50),
     .fin true 152181433957 (-51),
     .fin false 215625660550 (-53)],
   [ .fin false 274877586484 (-38),
     .fin false 150063404421 (-54),
     .fin true 257921476349 (-53),
     .fin false 141514870641 (-51),
     .fin true 221735227551 (-51),
     .fin false 262431476691 (-51),
     .fin true 241573339694 (-51),
     .fin false 174775845131 (-51),
     .fin true 196864552521 (-52),
     .fin false 164828520138 (-53)]]

/-- R126, ERF segments 28 to 31. -/
def erfTab7 : List (List Fl) :=
  [[ .fin false 274877777727 (-38),
     .fin false 250222935387 (-56),
     .fin true 222854801829 (-54),
     .fin false 254214121531 (-53),
     .fin true 207838218503 (-52),
     .fin false 258037343137 (-52),
     .fin true 250995820041 (-52),
     .fin false 194040425604 (-52),
     .fin true 238064870947 (-53),
     .fin false 226015714641 (-54)],
   [ .fin false 274877856393 (-38),
     .fin false 202198409909 (-57),
     .fin true 186401659135 (-55),
     .fin false 220693772274 (-54),
     .fin true 187918599721 (-53),
     .fin false 244075868747 (-53),
     .fin true 249898295409 (-53),
     .fin false 205172402009 (-53),
     .fin true 271187346743 (-54),
     .fin false 142433697244 (-54)],
   [ .fin false 274877887758 (-38),
     .fin false 158364070051 (-58),
     .fin true 150940754268 (-56),
     .fin false 185222038963 (-55),
     .fin true 163961359698 (-54),
     .fin false 222257767694 (-54),
     .fin true 238729550526 (-54),
     .fin false 207126172848 (-54),
     .fin true 146260801240 (-54),
     .fin false 167281734882 (-55)],
   [ .fin false 274877899880 (-38),
     .fin false 240432884551 (-60),
     .fin true 236676120730 (-58),
     .fin false 150309685801 (-56),
     .fin true 138099591930 (-55),
     .fin false 194960404420 (-55),
     .fin true 219058972953 (-55),
     .fin false 200022200662 (-55),
     .fin true 149955645287 (-55),
     .fin false 184635967884 (-56)]]

/-- R126, ERF: the 32 segments of ten coefficients. -/
def erfTab : List (List Fl) :=
  erfTab0 ++ erfTab1 ++ erfTab2 ++ erfTab3 ++ erfTab4 ++ erfTab5 ++ erfTab6 ++ erfTab7

/-- π × 2^700, rounded down: the argument reduction of SIN and COS (R126) needs no more bits for any W32 argument. -/
def piBits : Nat := 16525204305188294122575967610974940178026148430521517253674428844222689879174614411560235390899801560652737794125520858649187813498260676587492720299944119139547246105762461028318293173887444219654040121887534587

end Sys2Proof.Machine
end

