-- ==== Sys2Proof/Machine/Sfu.lean ====
section
/-! DEFINITION. The special-function unit (R122 to R127). Every division, product and sum is one RNE38 step; the final value is rounded
once to W32. -/

namespace Sys2Proof.Machine

def wMul (a b : Fl) : Fl := r38 (Fl.mul a b)
def wAdd (a b : Fl) : Fl := r38 (Fl.add a b)
def wSub (a b : Fl) : Fl := r38 (Fl.sub a b)
def wDiv (a b : Fl) : Fl := r38 (Fl.quot a b)

/-- R125: Horner's rule; coefficients from degree 0 upward. -/
def horner (cs : List Fl) (t : Fl) : Fl :=
  match cs with
  | [] => zero
  | [c] => c
  | c :: cs => wAdd (wMul (horner cs t) t) c

/-- `x` × 2^k, exactly. -/
def scale2 (k : Int) : Fl → Fl
  | .fin s m e => if m = 0 then zero s else .fin s m (e + k)
  | x => x

def flOfInt (v : Int) : Fl := if v = 0 then zero else .fin (decide (v < 0)) v.natAbs 0

/-- |x| ≥ 2^k for a finite x. -/
def absGe (x : Fl) (k : Int) : Bool :=
  match x with
  | .fin _ m e => magGe m e k
  | _ => true

/-- The EXP2 path (R126), for finite arguments; beyond ± 1,024 the result is an overflow or a zero of every later rounding. -/
def exp2Path (x : Fl) : Fl :=
  if absGe x 10 then (if x.sign then .fin false 1 (-2000) else .fin false 1 2000)
  else
    let n := nearestInt x
    let f := Fl.sub x (flOfInt n)
    scale2 n (horner expCoef f)

/-- The EXP path (R126). -/
def expPath (x : Fl) : Fl := exp2Path (wMul x log2e)

/-- R126, LOG2: q and m with x = 2^q × m, m in [2^−½, 2^½). -/
def logSplit (x : Fl) : Int × Fl :=
  match x with
  | .fin _ m e =>
    let l := Nat.log2 m
    -- m / 2^l lies in [1, 2); it is at least √2 when m² ≥ 2 × 4^l
    if 2 * 4 ^ l ≤ m * m then (e + l + 1, .fin false m (-(l : Int) - 1)) else (e + l, .fin false m (-(l : Int)))
  | _ => (0, flOne)

/-- The LOG2 path (R126), for positive finite arguments. -/
def log2Path (x : Fl) : Fl :=
  let (q, m) := logSplit x
  let s := wDiv (wSub m flOne) (wAdd m flOne)
  wAdd (flOfInt q) (wMul s (horner logCoef (wMul s s)))

/-- The SIGMOID path (R126). -/
def sigmoidPath (x : Fl) : Fl :=
  let t := expPath (Fl.neg x.abs)
  if x.sign && !x.isZero then wDiv t (wAdd flOne t) else wDiv flOne (wAdd flOne t)

def withSign (s : Bool) (x : Fl) : Fl := if s then Fl.neg x else x

/-- The TANH path (R126). -/
def tanhPath (x : Fl) : Fl :=
  if x.isZero then x
  else if !absGe x (-4) then wMul x (horner tanhCoef (wMul x x))
  else if Fl.lt x.abs (.fin false 19 (-1)) then
    let t := expPath (scale2 1 (Fl.neg x.abs))
    withSign x.sign (wDiv (wSub flOne t) (wAdd flOne t))
  else withSign x.sign flOne

/-- The ERF path (R126). -/
def erfPath (x : Fl) : Fl :=
  if x.isZero then x
  else if !absGe x (-4) then wMul x (horner erfSmall (wMul x x))
  else if !absGe x 2 then
    let j := (truncTo8 x.abs)
    let c := Fl.fin false (2 * j + 1) (-4)
    withSign x.sign (horner (erfTab.getD j []) (Fl.sub x.abs c))
  else withSign x.sign flOne
where
  /-- floor(8 × |x|) -/
  truncTo8 : Fl → Nat
    | .fin _ m e => if 0 ≤ e + 3 then m <<< (e + 3).toNat else m >>> (-(e + 3)).toNat
    | _ => 0

/-- R126, SIN and COS: k and r = RNE38(x − kπ/2). -/
def piReduce (x : Fl) : Int × Fl :=
  match x with
  | .fin s m e =>
    if m = 0 then (0, x)
    else
      -- k is the nearest integer to m × 2^e × 2 / π = m × 2^(e + 701) / piBits
      let num := if 0 ≤ e + 701 then m <<< (e + 701).toNat else m >>> (-(e + 701)).toNat
      let k := (2 * num + piBits) / (2 * piBits)
      let e0 : Int := Min.min e (-701)
      let v : Int := ((m <<< (e - e0).toNat : Nat) : Int) - ((k * piBits) <<< (-701 - e0).toNat : Nat)
      let r := if v = 0 then zero else Fl.fin (decide (v < 0)) v.natAbs e0
      if s then (-(k : Int), r38 (Fl.neg r)) else ((k : Int), r38 r)
  | _ => (0, .nan)

def sinPoly (r : Fl) : Fl := wMul r (horner sinCoef (wMul r r))
def cosPoly (r : Fl) : Fl := horner cosCoef (wMul r r)

/-- R126: SIN of a finite argument. -/
def sinPath (x : Fl) : Fl :=
  let (k, r) := piReduce x
  match (k % 4).toNat with
  | 0 => sinPoly r | 1 => cosPoly r | 2 => Fl.neg (sinPoly r) | _ => Fl.neg (cosPoly r)

/-- R126: COS of a finite argument. -/
def cosPath (x : Fl) : Fl :=
  let (k, r) := piReduce x
  match (k % 4).toNat with
  | 0 => cosPoly r | 1 => Fl.neg (sinPoly r) | 2 => Fl.neg (cosPoly r) | _ => sinPoly r

/-- The square root of a positive finite value, with a sticky last bit. -/
def sqrtSticky (m : Nat) (e : Int) : Fl :=
  -- make the exponent even and keep at least 60 bits of root
  let k : Nat := 128 + (e % 2).toNat
  let v := m <<< k
  let r := Nat.sqrt v
  .fin false (2 * r + (if r * r = v then 0 else 1)) ((e - k) / 2 - 1)

/-- The reciprocal square root of a positive finite value, with a sticky last bit. -/
def rsqrtSticky (m : Nat) (e : Int) : Fl :=
  let k : Nat := 200 + 2 * Nat.log2 m + (e % 2).toNat
  let num := 2 ^ k
  let r := Nat.sqrt (num / m)
  .fin false (2 * r + (if r * r * m = num then 0 else 1)) (-(e + k) / 2 - 1)

/-- The functions of the special-function unit (R122). SINCOS is SIN or COS by lane. -/
inductive SFn where
  | exp | exp2 | log2 | ln | rcp | rsqrt | sqrt | sigmoid | tanh | silu | gelu | softplus | erf | sin | cos | sincos
deriving DecidableEq, Repr

def SFn.ofCode (c : Nat) : SFn :=
  match c with
  | 0 => .exp | 1 => .exp2 | 2 => .log2 | 3 => .ln | 4 => .rcp | 5 => .rsqrt | 6 => .sqrt | 7 => .sigmoid
  | 8 => .tanh | 9 => .silu | 10 => .gelu | 11 => .softplus | 12 => .erf | 13 => .sin | 14 => .cos | _ => .sincos

/-- R124: the result for a special argument. -/
def sfnSpecial (f : SFn) (x : Fl) : Option Fl :=
  match f, x with
  | _, .nan => some .nan
  | .exp, .inf s => some (if s then zero else .inf false)
  | .exp2, .inf s => some (if s then zero else .inf false)
  | .log2, .inf s => some (if s then .nan else .inf false)
  | .ln, .inf s => some (if s then .nan else .inf false)
  | .rcp, .inf s => some (zero s)
  | .rsqrt, .inf s => some (if s then .nan else zero)
  | .sqrt, .inf s => some (if s then .nan else .inf false)
  | .sigmoid, .inf s => some (if s then zero else flOne)
  | .tanh, .inf s => some (withSign s flOne)
  | .erf, .inf s => some (withSign s flOne)
  | .silu, .inf s => some (if s then zero true else .inf false)
  | .gelu, .inf s => some (if s then zero true else .inf false)
  | .softplus, .inf s => some (if s then zero else .inf false)
  | .sin, .inf _ => some .nan
  | .cos, .inf _ => some .nan
  | .sincos, .inf _ => some .nan
  | f, .fin s m e =>
    if m = 0 then
      match f with
      | .exp => some flOne | .exp2 => some flOne
      | .log2 => some (.inf true) | .ln => some (.inf true)
      | .rcp => some (.inf s) | .rsqrt => some (.inf s) | .sqrt => some (zero s)
      | .sigmoid => some (pow2 (-1))
      | .tanh => some (zero s) | .erf => some (zero s) | .silu => some (zero s) | .gelu => some (zero s)
      | .softplus => some ln2
      | .sin => some (zero s) | .cos => some flOne | .sincos => some (zero s)
    else if s then
      match f with
      | .log2 => some .nan | .ln => some .nan | .rsqrt => some .nan | .sqrt => some .nan
      | _ => none
    else if Fl.eqv (.fin s m e) flOne then
      match f with
      | .log2 => some zero | .ln => some zero
      | _ => none
    else none

/-- R126: the wide result for a finite argument that is not special. -/
def sfnWide (f : SFn) (x : Fl) : Fl :=
  match f with
  | .exp => expPath x
  | .exp2 => exp2Path x
  | .log2 => log2Path x
  | .ln => wMul (log2Path x) ln2
  | .rcp => Fl.quot flOne x
  | .rsqrt => match x with | .fin _ m e => rsqrtSticky m e | _ => .nan
  | .sqrt => match x with | .fin _ m e => sqrtSticky m e | _ => .nan
  | .sigmoid => sigmoidPath x
  | .tanh => tanhPath x
  | .silu => wMul x (sigmoidPath x)
  | .gelu =>
    let x3 := wMul (wMul x x) x
    let u := wMul geluK1 (wAdd x (wMul geluK2 x3))
    wMul x (sigmoidPath (scale2 1 u))
  | .softplus =>
    let t := expPath (Fl.neg x.abs)
    let s := wDiv t (wAdd (.fin false 2 0) t)
    wAdd (if x.sign then zero else x) (wMul s (horner softCoef (wMul s s)))
  | .erf => erfPath x
  | .sin => sinPath x
  | .cos => cosPath x
  | .sincos => sinPath x

/-- A special function of a W32 value, rounded once to W32 (R123, R125). -/
def sfn (f : SFn) (x : Fl) : Fl :=
  match sfnSpecial f x with
  | some y => rw y
  | none => rw (sfnWide f x)

end Sys2Proof.Machine
end

