-- ==== Sys2Proof/Machine/Vector.lean ====
section
/-! DEFINITION. The vector engine's arithmetic: chain descriptors (R108 to R112), a beat through the eight stages (R111, R116), RSTAT
(R128), rotation (R111). -/

namespace Sys2Proof.Machine

/-- RSTAT's three values (R128). -/
structure RStat where
  n : Fl
  mu : Fl
  m2 : Fl
deriving DecidableEq, Repr

/-- R128: the stored μ takes part only when n is above 0. A row register may hold any n (RSET writes it), so n below 0 leaves μ out too, and
the last term of M2' is then +0 as it is for n = 0. -/
def RStat.fresh (s : RStat) : Bool := !Fl.lt zero s.n

/-- R128: μ' and M2' when every value concerned is finite, each rounded once from its exact value. -/
def rstatFinite (s : RStat) (xs : List Fl) : RStat :=
  let b : Fl := .fin false xs.length 0
  let sx := flSum xs
  let n' := Fl.add s.n b
  let mu' := rw (Fl.quot (if s.fresh then sx else Fl.add (Fl.mul s.n s.mu) sx) n')
  -- numerator over the common denominator b² n'
  let dev := flSum (xs.map (fun x => let t := Fl.sub (Fl.mul b x) sx; Fl.mul t t))
  let t := Fl.sub sx (Fl.mul b s.mu)
  let last := if s.fresh then zero else Fl.mul (Fl.mul s.n b) (Fl.mul t t)
  let den := Fl.mul (Fl.mul b b) n'
  let num := Fl.add (Fl.add (Fl.mul s.m2 den) (Fl.mul n' dev)) last
  ⟨rw n', mu', rw (Fl.quot num den)⟩

/-- R128: the update of one beat with active values `xs` (not empty). -/
def rstat (s : RStat) (xs : List Fl) : RStat :=
  let b : Fl := .fin false xs.length 0
  let n' := rw (Fl.add s.n b)
  let mus := if s.fresh then xs else s.mu :: xs
  let xInf := xs.any Fl.isInf
  if (s.m2 :: mus).any Fl.isNan then ⟨n', .nan, .nan⟩
  else if mus.all Fl.isFinite && s.m2.isFinite then rstatFinite s xs
  else
    let pos := mus.any (fun x => x.isInf && !x.sign)
    let neg := mus.any (fun x => x.isInf && x.sign)
    let mu' := if pos && neg then .nan else if pos then .inf false else if neg then .inf true
      else (rstatFinite { s with m2 := zero } xs).mu
    let muInf := !s.fresh && s.mu.isInf
    let m2' : Fl :=
      if xInf then .nan
      else if s.m2 = .inf true then (if muInf then .nan else .inf true)
      else .inf false
    ⟨n', mu', m2'⟩

/-- R111, ROT: a pair of lanes with (cos θ, sin θ). -/
def rotPair (a0 a1 c s : Fl) : Fl × Fl :=
  (rw (Fl.sub (Fl.mul a0 c) (Fl.mul a1 s)), rw (Fl.add (Fl.mul a0 s) (Fl.mul a1 c)))

/-- ROT over the lanes of a beat. DESIGN CHOICE (log entry 118): where `LANES` masks one lane of a pair, R111 needs a value of a lane that R114
says reads nothing; the pair takes the element stored there. -/
def rotBeat (as bs : List Fl) : List Fl :=
  match as, bs with
  | a0 :: a1 :: as, b0 :: b1 :: bs => (rotPair a0 a1 b0 b1).1 :: (rotPair a0 a1 b0 b1).2 :: rotBeat as bs
  | as, _ => as

/-- FN SINCOS over the lanes of a beat (R122). DESIGN CHOICE (log entry 118): an odd lane whose even lane is masked takes the SIN of the
element stored there. -/
def sincosBeat (as : List Fl) : List Fl :=
  match as with
  | a0 :: _ :: as => sfn .cos a0 :: sfn .sin a0 :: sincosBeat as
  | [a0] => [sfn .cos a0]
  | [] => []

/-- A stage word (R109). -/
structure Stage where
  op : Nat
  srca : Nat
  srcb : Nat
  fn : Nat
  greg : Nat
  rsa : Nat
  rsd : Nat
  nega : Bool
  absa : Bool
  mode : Nat
deriving DecidableEq, Repr

def Stage.ofWord (w : W32) : Stage :=
  ⟨bits w 26 6, bits w 23 3, bits w 20 3, bits w 16 4, bits w 10 6, bits w 7 3, bits w 4 3, bit w 3, bit w 2, bits w 0 2⟩

/-- A chain descriptor (R108). -/
structure Chain where
  outfmt : Nat
  couple : Bool
  tbuf : Nat
  stages : List Stage
deriving DecidableEq, Repr

def Chain.ofBits (w : BitVec 320) : Chain :=
  ⟨bits w 0 4, bit w 8, bits w 9 3, (List.range 8).map (fun k => Stage.ofWord (w.extractLsb' (64 + 32 * k) 32))⟩

def Stage.isRow (s : Stage) : Bool := 0x09 ≤ s.op && s.op ≤ 0x0D

/-- Operations that combine with a row register and so have a restart mode (R109). -/
def Stage.hasMode (s : Stage) : Bool := s.isRow

/-- R112: a stage that no chain may hold, IN_B and IN_C supplied as `ben`, `cen`; a source field names its operand whether or not the operation
reads it. DESIGN CHOICE (log entry 119): RFN with the code of SINCOS, which R122 keeps to FN without naming an outcome, makes the chain invalid. -/
def Stage.invalid (ben cen : Bool) (s : Stage) : Bool :=
  s.op ≥ 0x10 || s.srca ≥ 6 || s.srcb ≥ 6 || (s.hasMode && s.mode ≥ 2) || (!s.hasMode && s.mode != 0)
    || (s.op != 0x08 && s.op != 0x09 && s.fn != 0) || (s.op = 0x09 && s.fn = 15)
    || (!ben && (s.srca = 2 || s.srcb = 2)) || (!cen && (s.srca = 3 || s.srcb = 3))
    || (s.op = 0x0C && s.rsd > 5)

/-- R112: the chain is invalid; `tileOut`: the output is a tile buffer; `oddCols`: rows have an odd number of columns. -/
def Chain.invalid (w : BitVec 320) (ben cen tileOut oddCols : Bool) : Bool :=
  let c := Chain.ofBits w
  let fns := c.stages.countP (fun s => s.op = 0x08)
  let rfns := c.stages.countP (fun s => s.op = 0x09)
  c.outfmt ≥ 8 || bits w 4 4 != 0 || bits w 12 4 != 0 || bits w 16 48 != 0 || c.tbuf ≥ 6
    || c.stages.any (Stage.invalid ben cen) || fns > 1 || fns + rfns > 2
    || (tileOut && c.outfmt != 0)
    || (oddCols && c.stages.any (fun s => s.op = 0x0E || (s.op = 0x08 && s.fn = 15)))

/-- What a beat sees: IN_A, IN_B, IN_C, the g values, its row's entry, whether it is its row's first, which lanes are active. -/
structure Beat where
  a : List Fl
  b : List Fl
  c : List Fl
  g : List W64
  entry : Nat
  first : Bool
  active : List Bool
deriving DecidableEq, Repr

/-- Row registers and counts as a beat passes. -/
structure VRun where
  rr : Tab W32
  prev : List Fl
  nansc : Nat
deriving DecidableEq, Repr

def rowReg (rr : Tab W32) (r e : Nat) : Fl := ofW32 (Tab.get 0 rr (r * 128 + e))
def setRowReg (rr : Tab W32) (r e : Nat) (x : Fl) : Tab W32 := Tab.set 0 rr (r * 128 + e) (toW32 x)

/-- R110: the lanes of a source. -/
def Beat.src (bt : Beat) (v : VRun) (s : Stage) (code : Nat) : List Fl :=
  match code with
  | 0 => v.prev
  | 1 => bt.a
  | 2 => bt.b
  | 3 => bt.c
  | 4 => bt.a.map (fun _ => ofW32 ((bt.g.getD s.greg 0).setWidth 32))
  | _ => bt.a.map (fun _ => rowReg v.rr s.rsa bt.entry)

/-- The values of the active lanes. -/
def activeOf (act : List Bool) (xs : List Fl) : List Fl :=
  ((act.zip xs).filter (fun p => p.1)).map (fun p => p.2)

/-- R111: the exact lanes of an element operation, which the stage then rounds once to W32 (ROT and the functions round their own). -/
def elemOp (training : Bool) (s : Stage) (g : W64) (as bs : List Fl) : List Fl :=
  let gLo := ofW32 (g.setWidth 32)
  let gHi := ofW32 (g.extractLsb' 32 32)
  match s.op with
  | 0x01 => List.zipWith Fl.add as bs
  | 0x02 => List.zipWith Fl.sub as bs
  | 0x03 => List.zipWith Fl.mul as bs
  | 0x04 => List.zipWith (fun a b => Fl.add (Fl.mul a b) gLo) as bs
  | 0x05 => List.zipWith (flMax training) as bs
  | 0x06 => List.zipWith (flMin training) as bs
  | 0x07 => as.map (fun a => flMin training (flMax training a gLo) gHi)
  | 0x08 => if s.fn = 15 then sincosBeat as else as.map (sfn (SFn.ofCode s.fn))
  | 0x0E => rotBeat as bs
  | 0x0F => as.map (fun a => if a.isNan && !training then maskedScore else a)
  | _ => as

/-- R111: the effect of a row operation on the row registers; `xs` are operand A's active lanes, not empty. -/
def rowOp (training : Bool) (s : Stage) (bt : Beat) (rr : Tab W32) (xs : List Fl) : Tab W32 :=
  let restart := s.mode = 1 && bt.first
  let old := rowReg rr s.rsd bt.entry
  match s.op with
  | 0x09 => setRowReg rr s.rsd bt.entry (sfn (SFn.ofCode s.fn) (rowReg rr s.rsa bt.entry))
  | 0x0A =>
    let v := match restart, xs with
      | true, x :: xs => xs.foldl (flMax training) x
      | _, xs => xs.foldl (flMax training) old
    setRowReg rr s.rsd bt.entry v
  | 0x0B => setRowReg rr s.rsd bt.entry (rw (if restart then flSum xs else Fl.add old (flSum xs)))
  | 0x0C =>
    let n := if restart then zero else old
    let r := rstat ⟨n, rowReg rr (s.rsd + 1) bt.entry, if restart then zero else rowReg rr (s.rsd + 2) bt.entry⟩ xs
    setRowReg (setRowReg (setRowReg rr s.rsd bt.entry r.n) (s.rsd + 1) bt.entry r.mu) (s.rsd + 2) bt.entry r.m2
  | 0x0D => setRowReg rr s.rsd bt.entry (xs.getD 0 zero)
  | _ => rr

/-- One stage of one beat (R53, R104, R111): an element result is rounded once to W32. -/
def runStage (training : Bool) (bt : Beat) (v : VRun) (s : Stage) : VRun :=
  let adj (x : Fl) : Fl :=
    let x := if s.absa then x.abs else x
    if s.nega then x.neg else x
  let as := (bt.src v s s.srca).map adj
  let bs := bt.src v s s.srcb
  let xs := activeOf bt.active as
  if xs.isEmpty then v
  else if s.isRow then { v with rr := rowOp training s bt v.rr xs }
  else
    let n := if s.op = 0x0F && !training then xs.countP Fl.isNan else 0
    { v with prev := (elemOp training s (bt.g.getD s.greg 0) as bs).map rw, nansc := v.nansc + n }

/-- One beat through S0 to S7 (R104): PREV of S0 is IN_A. -/
def runBeat (training : Bool) (c : Chain) (bt : Beat) (rr : Tab W32) : VRun :=
  c.stages.foldl (runStage training bt) ⟨rr, bt.a, 0⟩

end Sys2Proof.Machine
end

