-- ==== Sys2Proof/Machine/Attention.lean ====
section
/-! DEFINITION. Streaming attention (R131 to R162, R459): masks, segment partials, the merge tree, the epilogue, the backward pass, and
the key epilogue of R134. Values only: where they are read from and written to stands in Machine/Operands.lean and the families. -/

namespace Sys2Proof.Machine

/-- The command fields that enter a score (R136 to R143). -/
structure AttnPar where
  training : Bool
  pm : PMode
  sscale : Fl
  qpos : Nat
  nq : Nat
  causal : Bool
  win : Option Nat
  /-- bitmask page: MASK_BASE, BM_MODE, BM_OUT and its 8,192 bytes -/
  bm : Option (Nat × Bool × Bool × List Byte)
  /-- the query operand and the key and value operands are integers without a block scale (R59) -/
  qInt : Bool
  kInt : Bool
  vInt : Bool
deriving DecidableEq, Repr

/-- A key with its value, at its token position. -/
structure KeyRow where
  j : Nat
  k : List Fl
  v : List Fl
deriving DecidableEq, Repr

/-- R137: the sliding window masks key `j` for the token at `pos`. -/
def winMasks (w : Option Nat) (pos j : Nat) : Bool :=
  match w with
  | none => false
  | some w => decide (j + w ≤ pos)

/-- R137: the causal mask. -/
def causalMasks (c : Bool) (pos j : Nat) : Bool := c && decide (pos < j)

/-- R138: the bitmask page masks key `j` for query token `t`. -/
def bmMasks (bm : Option (Nat × Bool × Bool × List Byte)) (t j : Nat) : Bool :=
  match bm with
  | none => false
  | some (base, mode, outside, bytes) =>
    if j < base ∨ base + 1024 ≤ j then outside
    else
      let u := if mode then t else 0
      let i := j - base
      (bytes.getD (u * 128 + i / 8) 0).getLsbD (i % 8)

/-- R137: key `j` is masked for query token `t`. -/
def masked (p : AttnPar) (t j : Nat) : Bool :=
  causalMasks p.causal (p.qpos + t) j || winMasks p.win (p.qpos + t) j || bmMasks p.bm t j

/-- R140: the segment of keys `lo` to `hi` − 1 is skipped for the query tokens `t0` to `t1` − 1: each key of it is masked for each token
by the causal mask or the window. A token's causal mask leaves keys up to its position, its window the last W of those. -/
def segSkipped (p : AttnPar) (t0 t1 lo hi : Nat) : Bool :=
  (List.range (t1 - t0)).all (fun i =>
    let pos := p.qpos + t0 + i
    let top := if p.causal then Nat.min hi (pos + 1) else hi
    let bot := match p.win with
      | none => lo
      | some w => Nat.max lo (pos + 1 - w)
    decide (top ≤ bot))

/-- A score with what it counts (R139, R143, R67). -/
structure Score where
  y : Fl
  nan : Bool
  sat : Nat
deriving DecidableEq, Repr

/-- R143: the score of query elements `q` of token `t` against a key. -/
def score (p : AttnPar) (t : Nat) (q : List Fl) (k : KeyRow) : Score :=
  let (x, ds) := dotW p.pm ⟨q, p.qInt⟩ ⟨k.k, p.kInt⟩
  let y := rw (Fl.mul x p.sscale)
  if masked p t k.j then ⟨maskedScore, false, ds⟩
  else if p.training then ⟨y, false, ds⟩
  else if y.isNan then ⟨maskedScore, true, ds⟩
  else if Fl.lt y maskedScore then ⟨maskedScore, false, ds + 1⟩
  else if Fl.lt (pow2 120) y then ⟨pow2 120, false, ds + 1⟩
  else ⟨y, false, ds⟩

/-- Numeric counts of R68. -/
structure Counts where
  sat : Nat
  flush : Nat
  nansc : Nat
deriving DecidableEq, Repr

def Counts.zero : Counts := ⟨0, 0, 0⟩
def Counts.add (a b : Counts) : Counts := ⟨a.sat + b.sat, a.flush + b.flush, a.nansc + b.nansc⟩

/-- A probability or gradient operand as it enters the array (R135), with its counts. -/
def arrayOperand (p : AttnPar) (x : Fl) : Fl × Counts :=
  match p.pm with
  | .native =>
    let c := toCF8 p.training x
    (ofCF8 (BitVec.ofNat 8 c.code), ⟨if c.sat then 1 else 0, if c.flush then 1 else 0, 0⟩)
  | _ => (x, Counts.zero)

/-- The running state of a row (R143). -/
structure RowAcc where
  m : Fl
  l : Fl
  o : List Fl
  c : Counts
deriving DecidableEq, Repr

/-- R145: the probability of a score under the running maximum. -/
def probOf (mb y : Fl) : Fl := if Fl.eqv y maskedScore then zero else sfn .exp (rw (Fl.sub y mb))

/-- Column `d` of the values of a block. -/
def valueCol (ks : List KeyRow) (d : Nat) : List Fl := ks.map (fun k => k.v.getD d zero)

/-- R143: one block of keys folded into a row. -/
def foldBlock (p : AttnPar) (t : Nat) (q : List Fl) (r : RowAcc) (ks : List KeyRow) : RowAcc :=
  let ss := ks.map (score p t q)
  let mb := (ss.map Score.y).foldl (flMax p.training) r.m
  let c := sfn .exp (rw (Fl.sub r.m mb))
  let ps := ss.map (fun s => probOf mb s.y)
  let l := rw (Fl.add (rw (Fl.mul r.l c)) (flSum ps))
  let pa := ps.map (arrayOperand p)
  let ys := (List.range r.o.length).map (fun d => dotW p.pm ⟨pa.map Prod.fst, false⟩ ⟨valueCol ks d, p.vInt⟩)
  let o := List.zipWith (fun o y => rw (Fl.add (rw (Fl.mul o c)) y.1)) r.o ys
  let cs := (pa.map Prod.snd).foldl Counts.add
    ⟨(ss.map Score.sat).sum + (ys.map Prod.snd).sum, 0, ss.countP Score.nan⟩
  ⟨mb, l, o, r.c.add cs⟩

/-- A row as it travels (R153). -/
def RowAcc.row (r : RowAcc) : PRow := ⟨toW32 r.m, toW32 r.l, r.o.map toW32⟩

/-- R143: the partial of one row over the keys of a segment. -/
def segmentRow (p : AttnPar) (t : Nat) (q : List Fl) (ks : List KeyRow) : RowAcc :=
  (chunksOf 128 (ks.length + 1) ks).foldl (foldBlock p t q) ⟨maskedScore, zero, List.replicate q.length zero, Counts.zero⟩

/-- R147: the merge of two rows, `a` the lower-numbered child. -/
def mergeRow (training : Bool) (a b : PRow) : PRow :=
  let am := ofW32 a.m
  let bm := ofW32 b.m
  let m := flMax training am bm
  let alpha := sfn .exp (rw (Fl.sub am m))
  let beta := sfn .exp (rw (Fl.sub bm m))
  let mix (x y : W32) : W32 := toW32 (Fl.add (rw (Fl.mul (ofW32 x) alpha)) (rw (Fl.mul (ofW32 y) beta)))
  ⟨toW32 m, mix a.l b.l, List.zipWith mix a.o b.o⟩

/-- One level of a fixed tree: neighbours joined, an absent child passing its sibling up (R146). -/
def pairUp {α : Type} (f : α → α → α) (xs : List (Option α)) : List (Option α) :=
  match xs with
  | a :: b :: xs => (match a, b with
    | none, b => b
    | a, none => a
    | some a, some b => some (f a b)) :: pairUp f xs
  | xs => xs

/-- The root of the fixed tree over the leaves (R146, R161), `fuel` at least the number of levels. -/
def treeFold {α : Type} (f : α → α → α) (fuel : Nat) (xs : List (Option α)) : Option α :=
  match fuel with
  | 0 => xs.getD 0 none
  | fuel + 1 => treeFold f fuel (pairUp f xs)

/-- The output of a root row before conversion, and its log-sum-exp (R149). -/
structure RowOut where
  z : List Fl
  lse : W32
  fullyMasked : Bool
deriving DecidableEq, Repr

/-- R149: the epilogue of one row of dimension `d`; `none`: the root is absent. DESIGN CHOICE: no command or configuration field gives the scale, bias
and activation of R129 for it, so none is applied (log entry 132). -/
def rowEpilogue (d : Nat) (r : Option PRow) : RowOut :=
  match r with
  | none => ⟨List.replicate d zero, 0xFB800000, true⟩
  | some r =>
    let l := ofW32 r.l
    if l.isZero && !l.sign then ⟨List.replicate d zero, 0xFB800000, true⟩
    else
      let rc := sfn .rcp l
      ⟨r.o.map (fun o => rw (Fl.mul (ofW32 o) rc)), toW32 (Fl.add (ofW32 r.m) (sfn .ln l)), false⟩

/-- The first NaN or infinity of rows of output values: tile, row, column (R70, R459), rows numbered from `base`. -/
def firstNanInf (base : Nat) (rows : List (List Fl)) : Option (Nat × Nat × Nat) :=
  match rows with
  | [] => none
  | r :: rows =>
    match r.findIdx? (fun x => !x.isFinite) with
    | some d => some (base / 64, base % 64, d)
    | none => firstNanInf (base + 1) rows

/-- An output tensor as bytes, with its counts. -/
structure OutBytes where
  data : List Byte
  c : Counts
deriving DecidableEq, Repr

/-- R462: rows converted to a format without a block scale, in row order. -/
def plainOut (training : Bool) (f : Fmt) (rows : List (List Fl)) : OutBytes :=
  let cs := rows.flatten.map (convert training f)
  ⟨packCodes f.width (cs.map Conv.code), ⟨cs.countP Conv.sat, cs.countP (fun c => c.flush && !c.sat), 0⟩⟩

/-- R462: rows converted in block-scaled form, codes first, scales at the next multiple of 64. -/
def scaledOut (training : Bool) (f : Fmt) (k : ScaleKind) (b : Nat) (rows : List (List Fl)) : OutBytes :=
  let blks := rows.flatMap (fun r => (chunksOf b (r.length + 1) r).map (quantBlock training f k))
  let data := packCodes f.width (blks.flatMap Block.codes)
  let pad := List.replicate (padTo 64 data.length - data.length) (0 : Byte)
  let sc := blks.flatMap (fun x => leBytes k.bytes x.scale)
  ⟨data ++ pad ++ sc, ⟨(blks.map Block.sat).sum, (blks.map Block.flush).sum, 0⟩⟩

/-- R462: an output tensor; `vs`, `vb` are the scale kind and block size of the pool descriptor. -/
def outBytes (training : Bool) (f : Fmt) (vs : ScaleKind) (vb : Nat) (rows : List (List Fl)) : OutBytes :=
  if f.isSub then scaledOut training f (if vs = .none then .e8s else vs) vb rows else plainOut training f rows

/-- A normalisation table for one kind of head: γ, β and ε (R134). -/
structure NormTab where
  gamma : List Fl
  beta : List Fl
  eps : Fl
deriving DecidableEq, Repr

/-- R134 step 1 over one head row. -/
def normalise (nt : NormTab) (xs : List Fl) : List Fl :=
  let s := (chunksOf 128 (xs.length + 1) xs).foldl rstat ⟨zero, zero, zero⟩
  let var := rw (Fl.mul s.m2 (sfn .rcp s.n))
  let inv := sfn .rsqrt (rw (Fl.add var nt.eps))
  xs.mapIdx (fun d x =>
    let y := rw (Fl.mul (rw (Fl.sub x s.mu)) inv)
    rw (Fl.add (rw (Fl.mul y (nt.gamma.getD d flOne))) (nt.beta.getD d zero)))

/-- R134 step 2 over one head row at position `pos`; pair `i` uses entry 2i of the frequency vector. -/
def rotate (pos : Nat) (freq : List Fl) (xs : List Fl) : List Fl :=
  match xs with
  | a :: b :: xs =>
    let th := rw (Fl.mul (.fin false pos 0) (freq.getD 0 zero))
    let r := rotPair a b (sfn .cos th) (sfn .sin th)
    r.1 :: r.2 :: rotate pos (freq.drop 2) xs
  | xs => xs

/-- R134: the epilogue of a key or query row before conversion. -/
def headEpilogue (norm : Option NormTab) (freq : Option (List Fl)) (pos : Nat) (xs : List Fl) : List Fl :=
  let xs := match norm with
    | some nt => normalise nt xs
    | none => xs
  match freq with
  | some f => rotate pos f xs
  | none => xs

/-- A query row of the backward pass: token, query elements, dO elements, delta, log-sum-exp (R159). -/
structure BRow where
  t : Nat
  q : List Fl
  dO : List Fl
  delta : Fl
  lse : Fl
deriving DecidableEq, Repr

/-- R159: delta of a row. -/
def rowDelta (dO o : List Fl) : Fl :=
  (chunksOf 128 (dO.length + 1) (List.zipWith (fun a b => rw (Fl.mul a b)) dO o)).foldl
    (fun d xs => rw (Fl.add d (flSum xs))) zero

/-- P and dS of one row and key, as W32 values (R159). -/
structure PdS where
  p : Fl
  ds : Fl
  c : Counts
deriving DecidableEq, Repr

/-- R159: the probability and its gradient, both +0 in a row whose stored log-sum-exp is −2^120 (R162); `doInt` says the dO operand is an
integer without a block scale. -/
def bwdElem (a : AttnPar) (doInt : Bool) (r : BRow) (k : KeyRow) : PdS :=
  let s := score a r.t r.q k
  let dead := Fl.eqv r.lse maskedScore
  let p := if dead || Fl.eqv s.y maskedScore then zero else sfn .exp (rw (Fl.sub s.y r.lse))
  let (dp, sd) := dotW a.pm ⟨r.dO, doInt⟩ ⟨k.v, a.vInt⟩
  let ds := if dead then zero else rw (Fl.mul p (rw (Fl.sub dp r.delta)))
  let pa := arrayOperand a p
  let da := arrayOperand a ds
  ⟨pa.1, da.1, (⟨s.sat + sd, 0, if s.nan then 1 else 0⟩ : Counts).add (pa.2.add da.2)⟩

/-- The three partials of a tile (R159): dV and dK by key, dQ by row. -/
structure BTile where
  dV : List (List Fl)
  dK : List (List Fl)
  dQ : List (List Fl)
  c : Counts
deriving DecidableEq, Repr

/-- R159, R160: the tile of rows `rs` (one key/value head of one query segment) and keys `ks` (one segment), dimension `d`. -/
def bwdTile (a : AttnPar) (doInt : Bool) (d : Nat) (rs : List BRow) (ks : List KeyRow) : BTile :=
  let m := rs.map (fun r => ks.map (bwdElem a doInt r))
  let col (f : PdS → Fl) (j : Nat) : List Fl := m.map (fun row => (row[j]?).elim zero f)
  let comp (f : BRow → List Fl) (i : Nat) : List Fl := rs.map (fun r => (f r).getD i zero)
  let dotT (x : List Fl) (y : List Fl) (yInt : Bool) : Fl × Nat := dotW a.pm ⟨x, false⟩ ⟨y, yInt⟩
  let dV := ks.mapIdx (fun j _ => (List.range d).map (fun i => dotT (col PdS.p j) (comp BRow.dO i) doInt))
  let dK := ks.mapIdx (fun j _ => (List.range d).map (fun i => dotT (col PdS.ds j) (comp BRow.q i) a.qInt))
  let dQ := m.map (fun row => (List.range d).map (fun i =>
    dotT (row.map PdS.ds) (ks.map (fun k => k.k.getD i zero)) a.kInt))
  let vals (t : List (List (Fl × Nat))) : List (List Fl) := t.map (fun r => r.map Prod.fst)
  let sats (t : List (List (Fl × Nat))) : Nat := (t.map (fun r => (r.map Prod.snd).sum)).sum
  ⟨vals dV, vals dK, vals dQ,
   ((m.flatten.map PdS.c).foldl Counts.add Counts.zero).add ⟨sats dV + sats dK + sats dQ, 0, 0⟩⟩

/-- Sum node of R161. -/
def sumRows (a b : List (List Fl)) : List (List Fl) :=
  List.zipWith (List.zipWith (fun x y => rw (Fl.add x y))) a b

/-- R161: the sum of partials, its root through `f`; +0 with no present leaf, for `n` rows of `d` elements. -/
def sumTree (n d : Nat) (f : List (List Fl) → List (List Fl)) (xs : List (Option (List (List Fl)))) : List (List Fl) :=
  ((treeFold sumRows (clog2 xs.length) xs).map f).getD (List.replicate n (List.replicate d zero))

def scaleRows (s : Fl) (xs : List (List Fl)) : List (List Fl) := xs.map (fun r => r.map (fun x => rw (Fl.mul x s)))

/-- The gradients of one key/value head before conversion. -/
structure BHead where
  dQ : List (List Fl)
  dK : List (List Fl)
  dV : List (List Fl)
  c : Counts
deriving DecidableEq, Repr

/-- The parts of a list of rows by query segment: tokens 1,024u to 1,024u + 1,023. -/
def querySegs (nq : Nat) (rs : List BRow) : List (List BRow) :=
  (List.range (ceilDiv nq 1024)).map (fun u => rs.filter (fun r => r.t / 1024 = u))

/-- R159 to R161 for one key/value head: rows in the order of R132, keys ascending. -/
def bwdHead (a : AttnPar) (doInt : Bool) (d : Nat) (rs : List BRow) (ks : List KeyRow) : BHead :=
  let us := querySegs a.nq rs
  let ss := chunksOf 1024 (ks.length + 1) ks
  let tiles := us.mapIdx (fun u r => ss.mapIdx (fun s k =>
    if segSkipped a (1024 * u) (Nat.min a.nq (1024 * u + 1024)) (1024 * s) (1024 * s + k.length) then none
    else some (bwdTile a doInt d r k)))
  let dQ := (List.zipWith (fun r row => sumTree r.length d (scaleRows a.sscale) (row.map (fun t => t.map BTile.dQ))) us tiles).flatten
  let colOf (f : BTile → List (List Fl)) (s : Nat) : List (Option (List (List Fl))) :=
    tiles.map (fun row => (row.getD s none).map f)
  let dK := (ss.mapIdx (fun s k => sumTree k.length d (scaleRows a.sscale) (colOf BTile.dK s))).flatten
  let dV := (ss.mapIdx (fun s k => sumTree k.length d id (colOf BTile.dV s))).flatten
  ⟨dQ, dK, dV, (tiles.flatten.filterMap id).foldl (fun c t => c.add t.c) Counts.zero⟩

/-- Rows of several heads interleaved so that row j × H + h is row j of head h (R132, R459). -/
def interleave (n : Nat) (hs : List (List (List Fl))) : List (List Fl) :=
  (List.range n).flatMap (fun j => hs.map (fun h => h.getD j []))

end Sys2Proof.Machine
end

