-- ==== Sys2Proof/Config.lean ====
section
/-! DEFINITION. The limits the spec fixes for every part, and the free values: constants without a body, so that no proof can see
what they are. A free value is drawn with the counter `State.freeCtr`, which every draw advances (log entry 14). -/

namespace Sys2Proof.Config

/-- R1, R278: resident sequence contexts. -/
abbrev contexts : Nat := 16384
/-- R1: partitions. -/
abbrev partitions : Nat := 16
/-- R286: fetched and not admitted commands of one partition. -/
abbrev stagedMax : Nat := 256
/-- R299: admission backlog entries of one partition. -/
abbrev backlogMax : Nat := 4096
/-- R219: entries of a cluster's tensor queue. -/
abbrev queueMax : Nat := 256
/-- R173, R175: scoreboard entries of a cluster. -/
abbrev scoreboardMax : Nat := 64
/-- R337: held operations of one partition. -/
abbrev heldMax : Nat := 64
/-- R353: credits a memory port holds on one channel. -/
abbrev portCreditMax : Nat := 255
/-- R359: credits an out-port holds. -/
abbrev outCreditMax : Nat := 4096
/-- R437: trouble-log entries kept. -/
abbrev tlogMax : Nat := 8192
/-- R441: trace buffer slots. -/
abbrev traceMax : Nat := 32768
/-- R393: link events the block buffers. -/
abbrev linkMax : Nat := 4096
/-- R336: invalidation requests queued. -/
abbrev invMax : Nat := 8
/-- R352: buffered host writes. -/
abbrev hostBufMax : Nat := 64

/-- FREE VALUE (R251): which of the free frames, page-group IDs or cold slots an allocation takes. -/
opaque freePick : Nat → Nat
/-- FREE VALUE (R376): the mean power a POWER message reports. -/
opaque freePower : Nat → W16
/-- FREE VALUE (R396): the block's energy over an interval, in microjoules. -/
opaque freeEnergy : Nat → BitVec 48
/-- FREE VALUE (R357): a byte of the range of a write that met an error response. -/
opaque freeByte : Nat → Byte
/-- FREE VALUE (R280): the working bytes of a context record. -/
opaque freeWork : Nat → BitVec 1024
/-- FREE VALUE (R210): the 64 bytes of a descriptor register that holds a loop-table reference. -/
opaque freeRef : Nat → BitVec 512
/-- FREE VALUE (R290, R364): the peer block that a window is bound to; the peer list has no stated layout. -/
opaque freePeer : Nat → BitVec 12

/-- FREE VALUE (R396 q 7): bytes of the requests that a built-in program makes over one segment or chunk; the spec states the results, not the requests. -/
opaque freeReads : Nat → BitVec 48
/-- R154: segment `g` of an attention command that names a peer list is computed on a peer block (log entry 129). -/
opaque freeRemote : Nat → Nat → Bool
/-- R154: the command that names a peer list computes its segments for a peer block, and sends it their partials (log entry 129). -/
opaque freeSide : Nat → Bool

/-- FREE VALUE (R438): `ARG0` of the trouble-log entry of SAMPLE/PRELOAD or EXTEST; the spec numbers the five instruments of R386 only. -/
opaque freeArg : Nat → W32

/-- FREE VALUE (R249): the fields of a written record that its state gives no value: those of a FREE record, the hash and parent of a group
that is not full, `NEXT` out of a chain, `CRC` before `CRC_OK`. -/
opaque freeRecord : Nat → BitVec 256

/-- FREE VALUE (R249): `LAST_USE` of a group that no operation has pinned. -/
opaque freeUse : Nat → W16

end Sys2Proof.Config
end

