-- ==== Sys2Proof/Machine/State.lean ====
section
/-! DEFINITION. The state of the block as plain data: every register, queue, buffer, table and pin the spec names, one structure for each
unit, the queue of waiting commands, and the reset state. Tables are sparse (`Tab`); what an unlisted key reads as stands beside its
accessor in Machine/Ops.lean. -/

namespace Sys2Proof.Machine

/-- The part as built (R2, R3, R20): variant, fitted options, fuses and straps. No command changes it. -/
structure Part where
  s32 : Bool
  optD : Bool
  optM : Bool
  optP : Bool
  optS : Bool
  step : BitVec 4
  romver : Byte
  mfr : BitVec 11
  /-- spares used at manufacturing test, by cluster × 64 + bank (R182) -/
  fusedSpares : Tab Nat
deriving DecidableEq, Repr

/-- Which reset is in progress (R379, RST_STS.LAST codes of R387). -/
inductive ResetKind where
  | cold | blkPin | rstCtl
deriving DecidableEq, Repr

/-- Clocks, power state and resets (R352, R370 to R373, R387). -/
structure Clk where
  tick : W64
  fc : BitVec 48
  opTime : BitVec 48
  freq : BitVec 5
  freqNew : Option (BitVec 5)
  activeB : Bool
  pllABad : Bool
  pllBBad : Bool
  awake : Bool
  waking : Bool
  noStop : Bool
  clkOn : BitVec 32
  /-- clusters whose clock start is requested (R372) -/
  startReq : BitVec 32
  idle : Nat
  wbuf : List (BitVec 24 × W64)
  last : BitVec 2
  blockResets : W16
  clIdle : W16
  pllIdle : W32
  stoppedAt : W64
  /-- tick at which each cluster clock stopped, for CLK_START (R442) -/
  clStoppedAt : Tab W64
deriving DecidableEq, Repr

/-- Bring-up (R447 to R452, R457) and the fatal state (R422). -/
structure Boot where
  inReset : Bool
  kind : ResetKind
  s1Started : Bool
  stage : Nat
  wave : Nat
  wavesDone : Nat
  svc : BitVec 32
  reduced : Bool
  bootFail : Bool
  fatal : Bool
  fcause : BitVec 3
  norec : Bool
  meterOut : Bool
  quarantine : Bool
  releaseTick : W64
deriving DecidableEq, Repr

/-- A configuration set (R317): its registers by offset; PT_CFG1 reads 0x00C8 where unlisted (LEND_THR); with it, the frequency vectors
and normalisation tables that SWAP copied for it (R321 step 1), as W32 codes by partition. -/
structure CfgSet where
  words : Tab W64
  freqVec : Tab (List W32)
  normTab : Tab (List W32)
deriving DecidableEq, Repr

/-- A SWAP that has been judged and not yet completed (R320, R321). -/
structure SwapInProgress where
  cmd : Cmd
  opid : W32
  moving : BitVec 32
  switched : Bool
deriving DecidableEq, Repr

/-- The configuration sets and partition control (R317, R318, R323, R328). -/
structure Cfg where
  active : CfgSet
  shadow : CfgSet
  view : Bool
  busy : Bool
  shadowLost : Bool
  epoch : W64
  keepWarm : W16
  resetting : W16
  partLock : W16
  lockViolP : W16
  lockViol : Byte
  /-- the root in use of each partition (R321) -/
  rootInUse : Tab W64
  swapping : Option SwapInProgress
deriving DecidableEq, Repr

/-- Global registers of R388. -/
structure Glob where
  irqAddr : W64
  irqVec0 : W64
  irqVec1 : W64
  irqPend : W64
  peerEnable : Bool
  peerId : BitVec 12
  peerIdSet : Bool
  foMask : Byte
  nackSent : W32
  nackRcvd : W32
  fabLost : W16
  fabBad : W16
deriving DecidableEq, Repr

/-- A command ring (R283, R284, R287). -/
structure Ring where
  base : W64
  cbase : W64
  enable : Bool
  draining : Bool
  mgmt : Bool
  irqEn : Bool
  part : BitVec 4
  log2n : BitVec 5
  irqVec : W16
  done : W32
  fetched : W32
  badBell : Bool
  offBell : Bool
  start : W32
  tail : W32
  /-- indices at or beyond `done` whose completion records are written -/
  written : List Nat
  /-- the ring waits for a page of its own (R333, outcome Waits) -/
  waits : Bool
  /-- completion records whose page is held (R333): index, record, signal to raise, interrupt wanted -/
  unwritten : List (W32 × BitVec 256 × Option Nat × Bool)
deriving DecidableEq, Repr

/-- Where a fetched command stands (R296). -/
inductive StageSt where
  /-- the front-end checks passed; it waits at R297, FENCE, WAIT_SIG, firing or Weir -/
  | ready
  /-- an operand page is held (R333) or the miss queue was full (R334) -/
  | heldPage
  /-- in the admission backlog (R299) -/
  | backlog
  /-- a page of it is to be walked, at the first time (R333, R334) or again (R336) -/
  | rewalk
  /-- it waits for cold groups that it needs (R265) -/
  | restoring
deriving DecidableEq, Repr

/-- A fetched and not admitted command (R286). -/
structure Staged where
  part : Nat
  cmd : Cmd
  st : StageSt
  /-- the faulting page address while it is held -/
  va : Nat
  /-- pages that were walked for it and have no entry in a TLB (R334) -/
  walked : List Nat
  /-- WAIT_SIG has been taken (R342) -/
  sigTaken : Bool
  /-- the firing rule of R361 has been met -/
  fired : Bool
  /-- the fast-cycle count and the tick of its firing (R34) -/
  firedFc : BitVec 48
  firedTick : W64
  /-- it left the backlog as its head and is not yet admitted: the tick at which it had joined (R299) -/
  retried : Option W64
  /-- fabric tiles it has taken, in order (R360) -/
  input : List Byte
deriving DecidableEq, Repr

/-- Sequence states of R279. -/
inductive SeqSt where
  | free | idle | active | killed | releasing | spilled
deriving DecidableEq, Repr

/-- A sequence: its directory entry, context record (R280) and map (R252). -/
structure Seq where
  st : SeqSt
  /-- the slot of the context table that a resident sequence holds (R278, R279) -/
  slot : Option Nat
  paused : Bool
  prio : BitVec 4
  btLog2 : Nat
  epoch : W16
  map : Nat
  promptLen : W32
  reused : W32
  inflight : Nat
  backlogged : Nat
  lastUse : W32
  progress : W64
  admitTick : W64
  lastOpid : W32
  lastRing : Nat
  work : BitVec 1024
  len : Tab Nat
  tlen : Tab Nat
  /-- valid block-table entries: page-group ID by block -/
  table : Tab (Option Nat)
deriving DecidableEq, Repr

/-- A partial of a merge node (R143, R146), held as its rows in the order of R132. -/
structure Node where
  rows : List PRow
  home : Nat
deriving DecidableEq, Repr

/-- How far an admitted operation is (R296, R337). -/
inductive OpSt where
  | running | held | restoring
deriving DecidableEq, Repr

/-- An operation in flight (R156, R296, R303, R310, R322, R337). -/
structure Op where
  opid : W32
  part : Nat
  cmd : Cmd
  st : OpSt
  training : Bool
  epochFound : W16
  /-- the key range: keys 0 to `keys` − 1 (R136) -/
  keys : Nat
  /-- page groups pinned (R156) -/
  pins : List Nat
  /-- configuration words it was admitted under (R322) -/
  set : CfgSet
  /-- cluster of each present segment (R151) -/
  place : List (Nat × Nat)
  /-- complete merge nodes, keyed by `nodeKey` (R146) -/
  nodes : Tab (Option Node)
  clusters : BitVec 32
  shares : BitVec 32
  lent : BitVec 32
  sat : Nat
  flush : Nat
  nansc : Nat
  masked : Nat
  naninf : Option (Nat × Nat × Nat)
  status : Byte
  detail : Byte
  result : BitVec 96
  deadline : Nat
  late : Bool
  unverified : Bool
  /-- tokens, groups or segments done (R310) -/
  pos : Nat
  /-- its progress word (R310) -/
  progress : W64
  faultVa : Nat
  /-- pairs whose part in it has ended (R238, R240) -/
  ended : BitVec 8
  loaded : Bool
  weirOrder : Nat
  /-- fabric tiles taken and not yet used (R360) -/
  input : List Byte
  /-- resumed after a DMA fault: its final record goes to the resume ring (R337) -/
  resumed : Bool
  /-- its effect has begun; false for a command that halted before it was admitted (R333, R337) -/
  begun : Bool
  /-- its first multiply-accumulate has been traced (R442) -/
  mac : Bool
  /-- output flits sent (R442) -/
  flits : Nat
  /-- rows of partials that have arrived tile by tile, by node: row and its values (R153, R154) -/
  parts : Tab (List (Nat × PRow))
  /-- output tiles that wait for credits (R361), the scales that follow the last of them (R462), and whether every output is produced -/
  outq : List (List Byte)
  outs : List Byte
  fin : Bool
  /-- the pages at which HOLD paused it (R336) -/
  hold : List Nat
  /-- segments that peer blocks compute, and whether it computes its own for a peer block (R154) -/
  remote : List Nat
  sends : Bool
  /-- partial tiles for a peer's windows that wait for credits, and the slots not yet acknowledged: window and slot (R154, R364) -/
  sendq : List PTile
  unacked : List (W16 × Nat)
deriving DecidableEq, Repr

/-- A backlog entry (R299). -/
structure Blog where
  ring : Nat
  idx : W32
  tick : W64
deriving DecidableEq, Repr

/-- The classes of light-weight requests (R197). -/
inductive LightCls where
  | fetch | table | record | other
deriving DecidableEq, Repr

/-- What an error response of a light-weight request falls on (R415). -/
inductive Aim where
  /-- the partition whose structure was accessed: R411 -/
  | partition (p : Nat)
  /-- the command whose operand block was read -/
  | command (ring : Nat) (idx : W32)
  /-- read `k` of the walk for page `page` -/
  | walk (page : Nat) (k : Nat)
  /-- the sequence whose context record was read -/
  | context (p : Nat) (q : Nat)
  | nothing
deriving DecidableEq, Repr

/-- What a memory request serves. -/
inductive ReqUse where
  /-- part `dst` of stream `tag` of cluster `n` -/
  | stream (n : Nat) (tag : Nat) (dst : Nat)
  /-- segment `seg` of a built-in program on cluster `n`; of a page, its group and its block of the sequence -/
  | builtin (n : Nat) (opid : W32) (seg : Nat) (page : Option (Nat × Nat))
  /-- the copy of group `g`, or the next copy of an EXPORT or IMPORT -/
  | groupCopy (g : Nat)
  | opCopy (opid : W32)
  /-- a light-weight request (R197) -/
  | light (cls : LightCls) (aim : Aim)
  /-- abandoned by a block reset; its response is ignored (R381) -/
  | abandoned
deriving DecidableEq, Repr

/-- A memory request (R353). -/
structure Req where
  wr : Bool
  part : Nat
  va : Nat
  pa : Nat
  len : Nat
  use : ReqUse
  /-- the read is cacheable (R180) -/
  cache : Bool
  data : List Byte
deriving DecidableEq, Repr

/-- Headwater (R278 to R311). -/
structure Hw where
  ringSel : BitVec 14
  seqSel : BitVec 18
  rings : Tab Ring
  turnPart : Nat
  turnRing : Tab Nat
  staged : List Staged
  oxbow : Option W64
  backlogBase : Option W64
  seqs : Tab Seq
  backlogs : Tab (List Blog)
  deferred : Tab Nat
  nextOpid : W32
  ops : List Op
  /-- light-weight requests not yet sent, in the order of their arrival, and whether each holds a light-weight tag (R197) -/
  light : List (Bool × Req)
deriving DecidableEq, Repr

/-- Lent shares of partition `part` whose operation has gone; their RECALL was sent for pair `sp` (R347). -/
structure Loan where
  sp : Nat
  part : Nat
  decode : Bool
  count : Nat
deriving DecidableEq, Repr

/-- Weir (R303, R304, R347, R348). -/
structure Weir where
  /-- G; none until the first GRANT, when it is the number of clusters in service (R377) -/
  grant : Option Nat
  floorOver : Bool
  demand : Nat
  pfWait : Tab Nat
  lent : Tab Nat
  lends : Tab Nat
  /-- pairs that have sent RECALL and wait (R347) -/
  recalls : List Nat
  /-- recalled shares whose operation has gone, until they come back (R347) -/
  loans : List Loan
  /-- weighted round robin of prefill work over partitions (R303): whose turn it is, and shares granted in this turn -/
  rr : Nat
  pfCount : Nat
  prewoken : BitVec 32
  order : Nat
deriving DecidableEq, Repr

/-- Page-group states of R249. -/
inductive PgSt where
  | free | opened | full | cached | evicting | cold | restoring | corrupt
deriving DecidableEq, Repr

/-- A page-group record (R249) with Headwater's working state: the copy's target and the waiters of a copy. -/
structure PgRec where
  st : PgSt
  hashed : Bool
  crcOk : Bool
  fill : Nat
  refcnt : Nat
  loc : Nat
  hash : W64
  parent : Nat
  next : Nat
  crc : W32
  pins : Nat
  lastUse : W16
  copyTo : Option Nat
  /-- the operation whose EVICT, RESTORE or admission counts the copy -/
  forCmd : Option W32
  /-- CORRUPT: it still holds frame `loc` (R250) -/
  held : Bool
deriving DecidableEq, Repr

/-- A CRC read of a newly full group in progress (R259): the group, and the sequence and block that filled it. -/
structure CrcJob where
  g : Nat
  sqid : Nat
  block : Nat
deriving DecidableEq, Repr

/-- An EVICT or RESTORE whose copies are in progress (R263, R265). -/
structure CopyJob where
  opid : W32
  cmd : Cmd
  left : Nat
  done : Nat
  other : Nat
deriving DecidableEq, Repr

/-- Famine states of R269. -/
inductive Famine where
  | normal | low | floor
deriving DecidableEq, Repr

/-- A partition's pool (R243 to R277) and its scrub registers (R440). -/
structure Pool where
  taken : Bool
  recs : Tab PgRec
  buckets : Tab Nat
  pendFree : List (Nat × Nat)
  fstate : Famine
  floorSeen : Bool
  hashHits : Nat
  cow : Nat
  tailReclaim : Nat
  evicted : Nat
  restored : Nat
  corrupt : Nat
  crcJobs : List CrcJob
  copyJobs : List CopyJob
  scrubEn : Bool
  scrubPeriod : W32
  scrubPos : Nat
deriving DecidableEq, Repr

/-- What waits on a signal (R344). -/
inductive Waiter where
  | pair (sp : Nat)
  | command (ring : Nat) (idx : W32)
  | stream (n : Nat) (tag : Nat)
deriving DecidableEq, Repr

/-- The signal pool (R340 to R346). -/
structure Sig where
  raised : Tab Bool
  waiters : List (Nat × Waiter)
  ptNum : Tab W16
  ptOp : Tab Nat
deriving DecidableEq, Repr

/-- Per-partition operation registers (R348, R388) and R396's activity counters. -/
structure Pt where
  resume : W64
  rring : W64
  rringHead : W32
  rringTail : W32
  /-- resume records that wait while the ring is full, with the signal to raise after each (R337) -/
  rringWait : List (BitVec 256 × Option Nat)
  killGo : Bool
  killSqid : BitVec 14
  active : Nat
deriving DecidableEq, Repr

/-- An invalidation request (R336): kind, space (16: global), first page and count. -/
structure InvReq where
  kind : BitVec 2
  space : Nat
  page : Nat
  npg : Nat
deriving DecidableEq, Repr

/-- A TLB entry (R334): space (16: global), 32 MiB page, the leaf's physical page and rights. -/
structure TlbEnt where
  space : Nat
  page : Nat
  pa : Nat
  w : Bool
  pin : Bool
  acc : Bool
deriving DecidableEq, Repr

/-- A queued miss (R334): the page and the staged command that waits for it. -/
structure Miss where
  page : Nat
  ring : Nat
  idx : W32
  /-- the tick at which it was queued (R339) -/
  tick : W64
deriving DecidableEq, Repr

/-- A walker at work (R334): the space and the misses of one page that its walk serves, and whether a read of it met an error (R415). -/
structure Walker where
  space : Nat
  misses : List Miss
  bad : Bool
deriving DecidableEq, Repr

/-- The translation unit (R330 to R339). TLB entries stand most recently used first. -/
structure Tr where
  groot : Option W64
  invQ : List InvReq
  invDone : BitVec 24
  invIssued : BitVec 24
  invOvf : Bool
  invWord : W64
  acc : W64
  accHead : W32
  accTail : W32
  walks : W32
  hotLost : W16
  walkMax : W16
  tlbs : Tab (List TlbEnt)
  misses : Tab (List Miss)
  /-- the 16 walkers at work, earliest first (R334) -/
  walkers : List Walker
  /-- the space after the last one served (R335) -/
  walkTurn : Nat
  /-- access counters, most recently used first: space, page, requests (R338) -/
  counters : List (Nat × Nat × Nat)
deriving DecidableEq, Repr

/-- A memory port (R353 to R357, R388). -/
structure Port where
  rc : Nat
  wc : Nat
  wd : Nat
  waiting : List Req
  reads : Tab (Option Req)
  writes : Tab (Option Req)
  errs : W16
  tagfull : W16
  /-- fc of the current unit of `TAGFULL` -/
  fullFc : Nat
  /-- deficit round robin over partitions (R307): the turn and each partition's deficit in bytes -/
  rr : Nat
  deficit : Tab Nat
deriving DecidableEq, Repr

/-- A fabric tile (R360). -/
structure FTile where
  part : Nat
  sqid : BitVec 14
  layer : Byte
  data : List Byte
deriving DecidableEq, Repr

/-- Fabric ports (R358 to R362). -/
structure Fab where
  /-- credits each in-port has given its sender and not had used -/
  inCred : Tab Nat
  /-- the tile each in-port is receiving, with its flit count and whether it is being discarded -/
  partialT : Tab (Option (FTile × Nat × Bool))
  /-- complete tiles in staging, oldest first, with their flits -/
  stagedT : Tab (List (FTile × Nat))
  outCred : Tab Nat
  /-- flits whose credit has not come back (R343), by out-port, oldest first: cluster and tag of a stream, or 33 and an operation, and their number -/
  outWait : Tab (List (Nat × Nat × Nat))
  /-- flits sent, by out-port, oldest first (the block's output) -/
  sent : Tab (List Flit)
deriving DecidableEq, Repr

/-- A remote window as the receiver sees it (R364, R365), with the operation that opened it and slots that have landed out of turn. -/
structure Win where
  window : W16
  sender : BitVec 12
  part : Nat
  opid : W32
  landed : List Nat
  /-- slots whose credit the sender holds -/
  credited : List Nat
  slotBytes : Nat
  withdrawing : Bool
deriving DecidableEq, Repr

/-- A credit as its CREDIT message stated it (R363, R364); `bytes` is the slot's size. -/
structure PeerCredit where
  window : W16
  slot : Nat
  bytes : Nat
  peer : BitVec 12
  epoch : W16
  opid : W32
deriving DecidableEq, Repr

/-- Peer messages and credits (R363 to R366). -/
structure Peer where
  windows : List Win
  /-- credits this block holds as a sender -/
  held : List PeerCredit
  /-- messages sent: TYPE, header and payload (the block's output) -/
  sent : List (Nat × PeerHdr × List Byte)
  /-- partials sent again by Confluence after a STALE return (R325): cluster and tile -/
  resent : List (Nat × PTile)
deriving DecidableEq, Repr

/-- The work of a queue entry with its captured operands (R212). -/
inductive QWork where
  | mx (ew : Bool) (ds db dout : BitVec 512) (lt : Option Nat) (gang pm acc : Nat) (rlb rls : Bool)
  | vx (chain : BitVec 320) (ia io : BitVec 512) (ib ic : Option (BitVec 512)) (lt : Option Nat) (rla : Bool) (g : List W64) (tile : Nat)
  | sx (d : BitVec 512)
  | ltw (table : Nat) (data : BitVec 1024)
  | hset (h : Nat) (w : W64)
  | hclr (h : Nat)
  | rclr (h : Nat)
deriving DecidableEq, Repr

/-- How far a queue entry is. -/
inductive QSt where
  | queued | started | checking | doneWork
deriving DecidableEq, Repr

/-- A part of a stream that is being filled: its number, its ring slot, the reads not yet returned, and whether one of them met an error, so
that its data does not land (R176, R185, R357). -/
structure Fill where
  part : Nat
  slot : Nat
  left : Nat
  err : Bool
deriving DecidableEq, Repr

/-- An entry of a cluster's tensor queue (R219). -/
structure QEnt where
  tag : Nat
  opid : W32
  sp : Nat
  part : Nat
  eng : Engine
  st : QSt
  work : QWork
  issueTick : W64
  /-- stream: requests, flits or slots not yet returned or acknowledged -/
  left : Nat
  /-- stream: the next part to issue; array and vector entry: the iterations done -/
  pos : Nat
  fills : List Fill
  /-- stream from the fabric: bytes taken and not yet used (R360) -/
  inp : List Byte
  /-- stream: its WAIT_SIG has been taken (R344) -/
  sigTaken : Bool
  /-- the status with which the entry ends its operation, where it has met a fault (R233) -/
  bad : Option Byte
  /-- stream: the pages at which HOLD paused it (R336) -/
  hold : List Nat
  /-- stream: the translations of its descriptor's addresses, from the time it entered the queue (R217) -/
  xl : List TlbEnt
  /-- stream: the tick at which its last element so far landed (R199) -/
  landed : W64
deriving DecidableEq, Repr

/-- A scoreboard entry (R173). -/
structure SbEnt where
  wr : Bool
  eng : Nat
  first : Nat
  last : Nat
  tag : Nat
deriving DecidableEq, Repr

/-- One of the two stationary register sets of an array (R76): the slice that it holds (R92; 0 for a whole value) and the values in its cells,
physical row by row. -/
structure StatSet where
  slice : Nat
  rows : List (List Fl)
deriving DecidableEq, Repr

/-- The stationary registers of an array (R76). -/
structure StatRegs where
  active : StatSet
  shadow : StatSet
deriving DecidableEq, Repr

/-- What a tile computes with, kept until its checks have settled (R99). -/
structure TileOpds where
  /-- element-wise mode (R93) -/
  ew : Bool
  gang : Nat
  pm : Nat
  /-- output columns that one cell holds: 2 with K2 stationary, 4 with B1 (R91) -/
  pack : Nat
  /-- the broadcast vectors -/
  rows : List (List Fl)
  /-- the stationary columns; in WIDE the rows of the thin operand -/
  cols : List (List Fl)
  rInt : Bool
  cInt : Bool
  /-- wide accumulators of the tiles before (R81), result by result; none where the tile begins its reduction -/
  carry : Option (List Fl)
  /-- it yields results; else it hands its accumulators on (R81) -/
  yields : Bool
deriving DecidableEq, Repr

/-- A slot of the array's queue or a tile under check (R99, R118). -/
structure TileSlot where
  rows : Nat
  cols : Nat
  vals : List W32
  released : Bool
  tag : Nat
  /-- tile buffer (shared mode) the verdict adds it to, with accumulation restart, and the place of its first result (R119) -/
  tbuf : Option Nat
  restart : Bool
  base : Nat
  /-- the arrays that computed it (R79, R214) -/
  arrays : List Nat
  opds : TileOpds
  /-- the accumulators that it hands on, where it yields no results (R81) -/
  accs : List Fl
  /-- a cell that could not be corrected among its operands (R414) -/
  poison : Option Nat
  /-- it is being rerun (R100), for these failed lanes -/
  rerun : Bool
  failed : List (Nat × Nat)
deriving DecidableEq, Repr

/-- A reduction whose next tile is still to come (R81): its gang mode and its wide accumulators. -/
structure Reduction where
  gang : Nat
  accs : List Fl
deriving DecidableEq, Repr

/-- A charge against an array (R100, R101): tile number, data fault or not, lane. -/
structure Charge where
  array : Nat
  tile : Nat
  data : Bool
  lane : Nat
deriving DecidableEq, Repr

/-- A cluster. -/
structure Cluster where
  spm : Tab Byte
  poisoned : List Nat
  handles : Tab W64
  sb : List SbEnt
  loops : Tab (BitVec 1024)
  cache : List (Nat × Nat)
  cacheMib : BitVec 2
  cacheNext : BitVec 2
  rowRegs : Tab W32
  tileBufs : Tab W32
  tiles : List TileSlot
  queue : List QEnt
  /-- reductions that wait for their next tile (R81), the one that has waited longest first -/
  accs : List Reduction
  /-- stationary registers of each array (R76) -/
  stationary : Tab StatRegs
  gang : Nat
  tilesChecked : Tab Nat
  charges : List Charge
  checkFailed : Nat
  colOut : BitVec 4
  rowOut : BitVec 4
  dataFaults : Nat
  checkerFaults : Nat
  lanesOut : List (Nat × Nat)
  hazardFc : Nat
  qemptyFc : Nat
  bankConfl : Nat
  colStall : Nat
  sbStall : Nat
  ringStall : Nat
  hits : Nat
  misses : Nat
  fieldRep : Nat
  /-- spares used in the field, by bank -/
  spares : Tab Nat
  /-- corrections of a bank row since cold reset, by bank × 1536 + row -/
  corrected : Tab Nat
  /-- rows repaired to a spare (bank, row, spare) -/
  repairs : List (Nat × Nat × Nat)
  stale : W32
  roleEpoch : W16
  clearing : Bool
  nextTag : Nat
  /-- a tile of a built-in operation under rerun, with what went wrong in its first run (R100) -/
  builtin : Option (W32 × List ArrayFault)
deriving DecidableEq, Repr

/-- A descriptor register (R200): kind 0 empty, 1 tensor, 2 stream, 3 loop-table reference to table `tab`. -/
structure DReg where
  kind : BitVec 2
  v : BitVec 512
  tab : Nat
deriving DecidableEq, Repr

/-- STATE of SP_STATUS (R242). -/
inductive PairSt where
  | idle | running | waitSig | waitRecall | heldDma | stopped | loading
deriving DecidableEq, Repr

/-- A SWAIT in progress (R223). -/
structure SwaitSt where
  sig : Nat
  d : Fin 64
  pd : Fin 16
  timeout : W64
  since : W64
  lent : Bool
deriving DecidableEq, Repr

/-- A TMOV that has not finished writing (R226). -/
structure TmovSt where
  bank : Bool
  idx : Nat
  words : List W64
deriving DecidableEq, Repr

/-- An unverified-list entry (R417). -/
structure Served where
  part : Nat
  ring : Nat
  idx : W32
  opid : W32
deriving DecidableEq, Repr

/-- A steering pair (R200 to R242). -/
structure Pair where
  g : Tab W64
  p : Tab Bool
  d : Tab DReg
  pc : BitVec 14
  bank : Bool
  ib0 : Tab W64
  ib1 : Tab W64
  dmem : Tab Byte
  st : PairSt
  lsFail : Bool
  /-- a mismatch has stopped it until its comparator self-test passes (R416) -/
  testDue : Bool
  exc : W64
  retired : W32
  qfullFc : W32
  instret : W64
  tag0 : W32
  tag1 : W32
  op : Option W32
  part : Nat
  lastPart : Option Nat
  codeLen : Nat
  /-- code length of the image in each bank, and whether TMOV has written the bank (R209) -/
  tmovBank0 : Bool
  tmovBank1 : Bool
  claimed : Bool
  /-- VRUN instructions issued in the operation (R459) -/
  vruns : Nat
  tmovs : List TmovSt
  swait : Option SwaitSt
  lent : Bool
  recalled : Bool
  served : List Served
  sinceTest : Nat
  lastTest : W64
  /-- numbers of the last operations at which a mismatch occurred, and operations served in all -/
  mismatches : List Nat
  servedTotal : Nat
deriving DecidableEq, Repr

/-- A trouble-log entry (R437). -/
structure Tlog where
  tick : W64
  kind : W16
  part : Option Nat
  host : Bool
  cls : BitVec 3
  unit : Byte
  opid : W32
  arg0 : W32
  arg1 : W64
deriving DecidableEq, Repr

/-- RAS registers and the trouble log (R437, R445). -/
structure Ras where
  pstop : W16
  ce : Nat
  l : Nat
  p : Nat
  b : Nat
  clOut : BitVec 32
  pairOut : Byte
  total : W32
  /-- entries by number mod 8,192 -/
  log : Tab (Option Tlog)
  tlogSel : W32
  mgmtFails : Nat
deriving DecidableEq, Repr

/-- An event record before it is numbered (R430): type, class, partition, DATA, operation; the kind and value of its time stamp (R432);
the trouble-log entry made last before it (R439). -/
structure Rec where
  type : W16
  cls : BitVec 3
  part : Option Nat
  data : BitVec 256
  opid : W32
  calendar : Bool
  utcSet : Bool
  time : BitVec 48
  entry : Nat
deriving DecidableEq, Repr

/-- The event recorder and its device (R428 to R436). A slot holds its 64 bytes. -/
structure Recorder where
  nodev : Bool
  repairFull : Bool
  lost : W16
  queue : List Rec
  /-- SEAL records stand outside the queue (R434): slot and record -/
  seals : List (Nat × Rec × W16)
  rseq : W32
  pcycle : W16
  cal : Bool
  utc : W64
  utcSet : Bool
  lockRecs : Nat
  testInUse : Bool
  header : BitVec 128
  permanent : Tab (BitVec 512)
  repair : Tab (BitVec 512)
  circulating : Tab (BitVec 512)
  nextPerm : Nat
  nextRepair : Nat
  nextCirc : Nat
deriving DecidableEq, Repr

/-- The trace unit (R441 to R446). Records are 32 bytes. -/
structure Trc where
  enable : Bool
  mode : BitVec 2
  flush : Bool
  types : W16
  parts : W16
  wraps : W32
  tail : Nat
  stream : W64
  sHead : W32
  sTail : W32
  lost : W32
  mark : W32
  sel : BitVec 15
  buffer : Tab (BitVec 256)
  staging : List (BitVec 256)
  /-- records written to the buffer and not yet streamed, oldest first -/
  unstreamed : List (BitVec 256)
  dropped : Nat
deriving DecidableEq, Repr

/-- The block's side of the meter event link (R391 to R394). -/
structure Link where
  buffer : List LinkEv
  seq : W16
  /-- accumulators by part × 16 + q (R393) -/
  accum : Tab Nat
  hold : Bool
  powered : Bool
  /-- events sent and not yet received by the meter, oldest first -/
  wire : List LinkEv
deriving DecidableEq, Repr

/-- A seal slot (R398). -/
structure SealSlot where
  key : BitVec 256
  ident : W32
  logged : Bool
deriving DecidableEq, Repr

/-- A stored copy of the meter (R408). -/
structure MeterCopy where
  pseq : W32
  tamper : W32
  time : W64
  gaps : W32
  roSeq : W32
  seq : W16
  counts : Tab W64
  /-- false: torn; its CRC fails -/
  valid : Bool
deriving DecidableEq, Repr

/-- A meter report on MEV_SEAL (R403). -/
structure MReport where
  kind : Byte
  slot : BitVec 3
  rnum : W16
  waddr : W16
  value : W32
  stime : W64
deriving DecidableEq, Repr

/-- The sealed metering unit (R389 to R409). -/
structure Smu where
  serial : W64
  transportKey : BitVec 256
  seals : List SealSlot
  counts : Tab W64
  residue : Tab Nat
  frameErr : Byte
  sealBusy : Bool
  sealErr : BitVec 3
  nocopy : Bool
  roBusy : Bool
  sealWritten : Bool
  sealGo : Bool
  sealSlot : BitVec 3
  tamper : W32
  gaps : W32
  time : W64
  nonce : W64
  roPart : BitVec 4
  staging : Tab W32
  buffer : BitVec 1152
  roSeq : W32
  gapFlags : W16
  copyA : Option MeterCopy
  copyB : Option MeterCopy
  nextB : Bool
  pseq : W32
  lastSeq : Option W16
  reports : List MReport
  rnum : W16
  latch : W32
  lastRead : Option Nat
  burning : Option (BitVec 256 × W32)
deriving DecidableEq, Repr

/-- The TAP (R384 to R386). -/
structure Tap where
  ir : Byte
  instrument : Option Nat
deriving DecidableEq, Repr

/-- What the block has sent, oldest first: power messages (R376), interrupt messages as their 8 bytes (R367), meter-port responses
(status, data: R404), reports on MEV_SEAL (R403), host-port errors (R350). -/
structure Out where
  pm : List W32
  irq : List W64
  meter : List (Byte × W32)
  mevSeal : List MReport
  hcErr : Nat
deriving DecidableEq, Repr

/-- The state of the block, the host memory its ports reach, and the queue of waiting commands. -/
structure State where
  part : Part
  clk : Clk
  boot : Boot
  cfg : Cfg
  glob : Glob
  hw : Hw
  weir : Weir
  pools : Tab Pool
  sig : Sig
  pt : Tab Pt
  tr : Tr
  ports : Tab Port
  fab : Fab
  peer : Peer
  clusters : Tab Cluster
  pairs : Tab Pair
  ras : Ras
  recorder : Recorder
  trc : Trc
  link : Link
  smu : Smu
  tap : Tap
  mem : List Host.Cell
  out : Out
  freeCtr : Nat
  pending : List Instr
deriving DecidableEq, Repr

/-- Named stops. No meaning of this model raises one today: every row has an effect in the spec. -/
inductive Fault where
  /-- Raised by nobody: kept for a step outside the spec's own states; safe. -/
  | unreachable
deriving DecidableEq, Repr

/-- Named refusals. -/
inductive Refusal where
  /-- Raised by `exec`'s arm of a row that has no meaning yet; safe. -/
  | notModelled (mnemonic : String)
deriving DecidableEq, Repr

/-- What a step of the block answers. -/
abbrev Res := Host.Outcome State Fault Refusal

def Part.reset : Part :=
  ⟨true, true, true, true, true, 0, 0, 0, []⟩

def Clk.reset : Clk :=
  { tick := 0, fc := 0, opTime := 0, freq := 16, freqNew := none, activeB := false, pllABad := false, pllBBad := false,
    awake := false, waking := false, noStop := false, clkOn := 0, startReq := 0, idle := 0, wbuf := [], last := 0, blockResets := 0,
    clIdle := 0x03E8, pllIdle := 0x000F4240, stoppedAt := 0, clStoppedAt := [] }

def Boot.reset : Boot :=
  { inReset := false, kind := .cold, s1Started := false, stage := 1, wave := 0, wavesDone := 0, svc := 0, reduced := false,
    bootFail := false, fatal := false, fcause := 0, norec := false, meterOut := false, quarantine := true, releaseTick := 0 }

def CfgSet.reset : CfgSet := ⟨[], [], []⟩

def Cfg.reset : Cfg :=
  { active := CfgSet.reset, shadow := CfgSet.reset, view := false, busy := false, shadowLost := false, epoch := 0,
    keepWarm := 0, resetting := 0, partLock := 0, lockViolP := 0, lockViol := 0, rootInUse := [], swapping := none }

def Glob.reset : Glob :=
  { irqAddr := 0, irqVec0 := 0, irqVec1 := 0, irqPend := 0, peerEnable := false, peerId := 0, peerIdSet := false, foMask := 0,
    nackSent := 0, nackRcvd := 0, fabLost := 0, fabBad := 0 }

def Ring.reset : Ring :=
  { base := 0, cbase := 0, enable := false, draining := false, mgmt := false, irqEn := false, part := 0, log2n := 0,
    irqVec := 0, done := 0, fetched := 0, badBell := false, offBell := false, start := 0, tail := 0, written := [],
    waits := false, unwritten := [] }

/-- A FREE sequence (R279). -/
def Seq.free : Seq :=
  { st := .free, slot := none, paused := false, prio := 0, btLog2 := 0, epoch := 0, map := 0, promptLen := 0, reused := 0, inflight := 0,
    backlogged := 0, lastUse := 0, progress := 0, admitTick := 0, lastOpid := 0, lastRing := 0, work := 0, len := [],
    tlen := [], table := [] }

def Hw.reset : Hw :=
  { ringSel := 0, seqSel := 0, rings := [], turnPart := 0, turnRing := [], staged := [], oxbow := none, backlogBase := none,
    seqs := [], backlogs := [], deferred := [], nextOpid := 1, ops := [], light := [] }

def Weir.reset : Weir :=
  { grant := none, floorOver := false, demand := 0, pfWait := [], lent := [], lends := [], recalls := [], loans := [], rr := 0, pfCount := 0,
    prewoken := 0, order := 0 }

/-- A FREE record (R249): all bits 0. -/
def PgRec.free : PgRec :=
  { st := .free, hashed := false, crcOk := false, fill := 0, refcnt := 0, loc := 0, hash := 0, parent := 0, next := 0,
    crc := 0, pins := 0, lastUse := 0, copyTo := none, forCmd := none, held := false }

def Pool.reset : Pool :=
  { taken := false, recs := [], buckets := [], pendFree := [], fstate := .normal, floorSeen := false, hashHits := 0, cow := 0,
    tailReclaim := 0, evicted := 0, restored := 0, corrupt := 0, crcJobs := [], copyJobs := [], scrubEn := false,
    scrubPeriod := 0, scrubPos := 0 }

def Sig.reset : Sig := { raised := [], waiters := [], ptNum := [], ptOp := [] }

def Pt.reset : Pt :=
  { resume := 0, rring := 0, rringHead := 0, rringTail := 0, rringWait := [], killGo := false, killSqid := 0, active := 0 }

def Tr.reset : Tr :=
  { groot := none, invQ := [], invDone := 0, invIssued := 0, invOvf := false, invWord := 0, acc := 0, accHead := 0,
    accTail := 0, walks := 0, hotLost := 0, walkMax := 0, tlbs := [], misses := [], walkers := [], walkTurn := 0, counters := [] }

def Port.reset : Port :=
  { rc := 0, wc := 0, wd := 0, waiting := [], reads := [], writes := [], errs := 0, tagfull := 0, fullFc := 0, rr := 0, deficit := [] }

def Fab.reset : Fab :=
  { inCred := (List.range 8).map (fun k => (k, 512)), partialT := [], stagedT := [], outCred := [], outWait := [], sent := [] }

def Peer.reset : Peer := { windows := [], held := [], sent := [], resent := [] }

/-- Stationary registers that nothing has loaded hold no value: their cells compute nothing (log entry 120). -/
def StatRegs.reset : StatRegs := ⟨⟨0, []⟩, ⟨0, []⟩⟩

def Cluster.reset : Cluster :=
  { spm := [], poisoned := [], handles := [], sb := [], loops := [], cache := [], cacheMib := 0, cacheNext := 0,
    rowRegs := [], tileBufs := [], tiles := [], queue := [], accs := [], stationary := [], gang := 0, tilesChecked := [],
    charges := [], checkFailed := 0, colOut := 0, rowOut := 0, dataFaults := 0, checkerFaults := 0, lanesOut := [],
    hazardFc := 0, qemptyFc := 0, bankConfl := 0, colStall := 0, sbStall := 0, ringStall := 0, hits := 0, misses := 0,
    fieldRep := 0, spares := [], corrected := [], repairs := [], stale := 0, roleEpoch := 0, clearing := false,
    nextTag := 0, builtin := none }

def DReg.empty : DReg := ⟨0, 0, 0⟩

def Pair.reset : Pair :=
  { g := [], p := [], d := [], pc := 0, bank := false, ib0 := [], ib1 := [], dmem := [], st := .idle, lsFail := false, testDue := false,
    exc := 0, retired := 0, qfullFc := 0, instret := 0, tag0 := 0, tag1 := 0, op := none, part := 0, lastPart := none,
    codeLen := 16384, tmovBank0 := false, tmovBank1 := false, claimed := false, vruns := 0, tmovs := [], swait := none, lent := false,
    recalled := false, served := [], sinceTest := 0, lastTest := 0, mismatches := [], servedTotal := 0 }

def Ras.reset : Ras :=
  { pstop := 0, ce := 0, l := 0, p := 0, b := 0, clOut := 0, pairOut := 0, total := 0, log := [], tlogSel := 0,
    mgmtFails := 0 }

def Recorder.reset : Recorder :=
  { nodev := false, repairFull := false, lost := 0, queue := [], seals := [], rseq := 0, pcycle := 0, cal := false, utc := 0,
    utcSet := false, lockRecs := 0, testInUse := false, header := BitVec.allOnes 128, permanent := [], repair := [], circulating := [],
    nextPerm := 0, nextRepair := 0, nextCirc := 0 }

def Trc.reset : Trc :=
  { enable := false, mode := 0, flush := false, types := 0, parts := 0, wraps := 0, tail := 0, stream := 0, sHead := 0,
    sTail := 0, lost := 0, mark := 0, sel := 0, buffer := [], staging := [], unstreamed := [], dropped := 0 }

def Link.reset : Link := { buffer := [], seq := 0, accum := [], hold := false, powered := true, wire := [] }

def Smu.reset : Smu :=
  { serial := 0, transportKey := 0, seals := [], counts := [], residue := [], frameErr := 0, sealBusy := false, sealErr := 0,
    nocopy := false, roBusy := false, sealWritten := false, sealGo := false, sealSlot := 0, tamper := 0, gaps := 0, time := 0, nonce := 0,
    roPart := 0, staging := [], buffer := 0, roSeq := 0, gapFlags := 0, copyA := none, copyB := none, nextB := false,
    pseq := 0, lastSeq := none, reports := [], rnum := 0, latch := 0, lastRead := none, burning := none }

def Tap.reset : Tap := ⟨0x01, none⟩

def Out.reset : Out := { pm := [], irq := [], meter := [], mevSeal := [], hcErr := 0 }

/-- The machine at the release of a cold reset (R20, R447, R457): every field at the reset value of its table; what no table states
is named in the assumption log. -/
def State.reset : State :=
  { part := Part.reset, clk := Clk.reset, boot := Boot.reset, cfg := Cfg.reset, glob := Glob.reset, hw := Hw.reset,
    weir := Weir.reset, pools := [], sig := Sig.reset, pt := [], tr := Tr.reset, ports := [], fab := Fab.reset,
    peer := Peer.reset, clusters := [], pairs := [], ras := Ras.reset, recorder := Recorder.reset, trc := Trc.reset,
    link := Link.reset, smu := Smu.reset, tap := Tap.reset, mem := [], out := Out.reset, freeCtr := 0, pending := [] }

end Sys2Proof.Machine
end

