-- ==== Sys2Proof/Machine/Operands.lean ====
section
/-! DEFINITION. Operand forms: the fields of ring commands (R288 to R290), malformed commands (R291), absent units (R13), work classes
(R302), the registers of a configuration set (R317), pool descriptors and page layout (R243 to R248), Lefiza's second operand. -/

namespace Sys2Proof.Machine

/-! Ring commands -/

/-- Bits `lo + len − 1 : lo` of the field at byte `off` (R288). -/
def fld (c : Cmd) (off lo len : Nat) : Nat := bits c.w (8 * off + lo) len

def flag (c : Cmd) (off lo : Nat) : Bool := bit c.w (8 * off + lo)

def opcodeOf (c : Cmd) : Nat := fld c 0 0 8
def fence (c : Cmd) : Bool := flag c 1 0
def waitEn (c : Cmd) : Bool := flag c 1 1
def raiseEn (c : Cmd) : Bool := flag c 1 2
def irqBit (c : Cmd) : Bool := flag c 1 3
def specBit (c : Cmd) : Bool := flag c 1 4
def fiEn (c : Cmd) : Bool := flag c 1 5
def foEn (c : Cmd) : Bool := flag c 1 6
def sqidOf (c : Cmd) : Nat := fld c 2 0 14
def waitSig (c : Cmd) : Nat := fld c 4 0 16
def raiseSig (c : Cmd) : Nat := fld c 6 0 16
def layerOf (c : Cmd) : Nat := fld c 8 0 8
def fiOf (c : Cmd) : Nat := fld c 9 0 3
def foOf (c : Cmd) : Nat := fld c 9 3 3
def specEpochOf (c : Cmd) : Nat := fld c 10 0 16
/-- R288, R239: the time budget in ticks; 0 means 2^24. -/
def budgetOf (c : Cmd) : Nat := let b := fld c 12 0 32; if b = 0 then 2 ^ 24 else b
def argsOf (c : Cmd) : Nat := fld c 56 0 52

def mapOf (c : Cmd) : Nat := if opcodeOf c = 0x01 then fld c 16 0 52 else fld c 24 0 52
def promptLenOf (c : Cmd) : Nat := fld c 24 0 32
/-- ADMIT holds PRIO and BT_LOG2 at byte 28, FORK and IMPORT at byte 32. -/
def prioOf (c : Cmd) : Nat := if opcodeOf c = 0x01 then fld c 28 0 4 else fld c 32 0 4
def btLog2Of (c : Cmd) : Nat := if opcodeOf c = 0x01 then fld c 28 4 5 else fld c 32 4 5
def childOf (c : Cmd) : Nat := fld c 16 0 14
def countOf (c : Cmd) : Nat := fld c 16 0 16
def tokid0Of (c : Cmd) : Nat := fld c 20 0 32
def qposOf (c : Cmd) : Nat := fld c 16 0 32
def nqOf (c : Cmd) : Nat := fld c 20 0 32
def sscaleOf (c : Cmd) : W32 := BitVec.ofNat 32 (fld c 24 0 32)
def winM1Of (c : Cmd) : Nat := fld c 28 0 24
def hkvM1Of (c : Cmd) : Nat := fld c 31 0 6
def maskBaseOf (c : Cmd) : Nat := fld c 32 0 32
def peerTmoOf (c : Cmd) : Nat := fld c 36 0 16
def gOf (c : Cmd) : Nat := fld c 38 0 4 + 1
def causalOf (c : Cmd) : Bool := flag c 38 4
def winOf (c : Cmd) : Bool := flag c 38 5
def bmOf (c : Cmd) : Bool := flag c 38 6
def bmModeOf (c : Cmd) : Bool := flag c 38 7
def bmOutOf (c : Cmd) : Bool := flag c 39 0
def denseOf (c : Cmd) : Bool := flag c 39 1
def pmOf (c : Cmd) : Nat := fld c 39 2 2
def outfmtOf (c : Cmd) : Nat := fld c 39 4 4
def dkeysOf (c : Cmd) : Nat := fld c 40 0 32
/-- Keys and values come from dense tensors; a PREFILL reads its own sequence (R306, log entry 29). -/
def denseUse (c : Cmd) : Bool := denseOf c && opcodeOf c != 0x07
def cdim16Of (c : Cmd) : Nat := fld c 44 0 5
/-- R289: tokens of a PREFILL chunk. -/
def chunkOf (c : Cmd) : Nat := let k := fld c 48 0 10; if k = 0 then 512 else k
def ncommitOf (c : Cmd) : Nat := fld c 16 0 7
def firstOf (c : Cmd) : Nat := fld c 16 0 32
def nentOf (c : Cmd) : Nat := fld c 20 0 32
def ngrpOf (c : Cmd) : Nat := fld c 16 0 32
def expectEpochOf (c : Cmd) : Nat := fld c 16 0 32
def imageOf (c : Cmd) : Nat := fld c 16 0 6
def argLenOf (c : Cmd) : Nat := fld c 20 0 12
def cmaskOf (c : Cmd) : BitVec 32 := BitVec.ofNat 32 (fld c 24 0 32)

/-- R460: the opcode names of the commands that work on attention operands. -/
def isAttn (c : Cmd) : Bool := [0x05, 0x06, 0x07].contains (opcodeOf c)

/-- The named fields of a command (R288, R289) as (byte, bit, length). -/
def namedFields (op : Nat) : List (Nat × Nat × Nat) :=
  let head := [(0, 0, 8), (1, 0, 4), (1, 5, 2), (2, 0, 14), (4, 0, 16), (6, 0, 16), (8, 0, 8), (9, 0, 6), (10, 0, 16), (12, 0, 32)]
  let spec := [(1, 4, 1)]
  let args := [(56, 0, 52)]
  let attn := [(16, 0, 32), (20, 0, 32), (24, 0, 32), (28, 0, 24), (31, 0, 6), (32, 0, 32), (36, 0, 16), (38, 0, 8), (39, 0, 8),
    (40, 0, 32), (44, 0, 5)] ++ args
  head ++ match op with
    | 0x01 => [(16, 0, 52), (24, 0, 32), (28, 0, 9)] ++ args
    | 0x03 => [(16, 0, 14), (24, 0, 52), (32, 0, 9)]
    | 0x04 => spec ++ [(16, 0, 16), (20, 0, 32)] ++ args
    | 0x05 => spec ++ attn
    | 0x06 => attn
    | 0x07 => attn ++ [(48, 0, 10)]
    | 0x08 => [(16, 0, 7)]
    | 0x0A => [(16, 0, 32), (20, 0, 32)]
    | 0x0B => [(16, 0, 32), (20, 0, 32)]
    | 0x0C => [(16, 0, 32), (20, 0, 32)] ++ args
    | 0x0D => [(16, 0, 32), (24, 0, 52), (32, 0, 9)] ++ args
    | 0x0E => [(16, 0, 32)]
    | 0x0F => [(16, 0, 6), (20, 0, 12), (24, 0, 32)] ++ args
    | _ => []

/-- R291: a reserved bit of the command is 1. -/
def reservedSet (c : Cmd) : Bool :=
  let mask := (namedFields (opcodeOf c)).foldl
    (fun (m : BitVec 512) f => m ||| ((BitVec.ofNat 512 (2 ^ f.2.2 - 1)) <<< (8 * f.1 + f.2.1))) 0
  (c.w &&& ~~~mask) != 0

/-- An operand block (R290): address and format code of each entry. -/
abbrev OpBlock := List (Nat × Nat)

def entryAddr (b : OpBlock) (i : Nat) : Nat := (b.getD i (0, 0)).1
def entryFmt (b : OpBlock) (i : Nat) : Nat := (b.getD i (0, 0)).2

/-- The operand block in 128 bytes of memory (R290). -/
def OpBlock.ofBytes (bs : List Byte) : OpBlock :=
  (List.range 16).map (fun i =>
    let w := BitVec.ofNat 64 (leNat ((bs.drop (8 * i)).take 8))
    (bits w 0 52, bits w 60 4))

/-- R290: ARGS is needed. -/
def needsArgs (c : Cmd) : Bool :=
  match opcodeOf c with
  | 0x01 => promptLenOf c != 0
  | 0x0F => argLenOf c != 0
  | op => [0x04, 0x05, 0x06, 0x07, 0x0C, 0x0D].contains op

/-- The command has an operand block (R290). -/
def hasBlock (c : Cmd) : Bool := [0x04, 0x05, 0x06, 0x07].contains (opcodeOf c)

/-- R290: the entries that the command needs. -/
def neededEntries (c : Cmd) : List Nat :=
  let fi := fiEn c
  let fo := foEn c
  match opcodeOf c with
  | 0x04 => (if countOf c > 1 then [10] else []) ++ (if fi then [] else [11])
  | 0x05 => (if fi then [] else [0]) ++ (if fo then [] else [1]) ++ (if bmOf c then [3] else []) ++ (if denseOf c then [4, 5] else [])
  | 0x06 => (if fi then [] else [0]) ++ [1, 2, 6, 8, 9] ++ (if fo then [] else [7]) ++ (if bmOf c then [3] else [])
      ++ (if denseOf c then [4, 5] else [])
  | 0x07 => (if fi then [] else [0, 11]) ++ (if fo then [] else [1]) ++ [10]
  | _ => []

/-- R289, R291, R131: a field of the command outside its limits. `hkv` is the number of key/value heads of the pool. -/
def limitBroken (c : Cmd) (layersM1 hkv : Nat) : Bool :=
  let op := opcodeOf c
  layersM1 < layerOf c
    || (([0x01, 0x03, 0x0D].contains op) && (btLog2Of c < 6 || 16 < btLog2Of c || mapOf c % 4096 != 0))
    || (op = 0x01 && 8388608 < promptLenOf c)
    || (op = 0x04 && (countOf c = 0 || 512 < countOf c))
    || (isAttn c && (nqOf c = 0 || (if op = 0x05 then 512 else 8388608) < nqOf c || pmOf c = 3 || 7 < outfmtOf c
        || (winOf c && 8388607 < winM1Of c)
        || (denseUse c && (cdim16Of c < 2 || 16 < cdim16Of c))
        || 512 < gOf c * (if denseUse c then hkvM1Of c + 1 else hkv)))
    || (op = 0x07 && (512 < fld c 48 0 10 || bmOf c))
    || (op = 0x08 && 64 < ncommitOf c)
    || (op = 0x0F && 3840 < argLenOf c)
    || (argsOf c % 64 != 0 && (needsArgs c || op = 0x01 || op = 0x0F))
    || (needsArgs c && argsOf c = 0)

/-- R291, R294: why a command is malformed; `blk` is its operand block where it could be read. -/
def malformed (c : Cmd) (layersM1 hkv : Nat) (blk : Option OpBlock) : Option Byte :=
  let op := opcodeOf c
  if op = 0 || 0x0F < op || reservedSet c || limitBroken c layersM1 hkv then some 0x01
  else
    let absent := match blk with
      | some b => (neededEntries c).any (fun i => entryAddr b i = 0) || (List.range 13).any (fun i => 7 < entryFmt b i)
      | none => false
    if absent then some 0x01
    else if op = 0x07 && qposOf c != 0 then some 0x0B
    else none

/-- R13: the command names K2 or B1; `kf`, `vf` are the formats of its partition's pool. -/
def namesSub (c : Cmd) (kf vf : Nat) (blk : Option OpBlock) : Bool :=
  let sub (f : Nat) : Bool := f = 6 || f = 7
  let stored := [0x01, 0x04, 0x05, 0x06, 0x07, 0x0D].contains (opcodeOf c)
  (stored && (sub kf || sub vf)) || (isAttn c && sub (outfmtOf c))
    || (match blk with
      | some b => (List.range 16).any (fun i => sub (entryFmt b i))
      | none => false)

/-- R13: the command names a peer block. -/
def namesPeer (blk : Option OpBlock) : Bool :=
  match blk with
  | some b => entryAddr b 12 != 0
  | none => false

/-- R13: the command needs a unit that `part` lacks. -/
def needsAbsent (part : Part) (c : Cmd) (kf vf : Nat) (blk : Option OpBlock) : Bool :=
  let op := opcodeOf c
  (!part.optS && ((op = 0x04 && specBit c) || op = 0x08 || op = 0x09))
    || (!part.optD && namesSub c kf vf blk)
    || (!part.optP && namesPeer blk)

/-- Work classes of R302. -/
inductive WorkClass where
  | decode | prefill | movement | control
deriving DecidableEq, Repr

/-- R302. -/
def workClass (c : Cmd) : WorkClass :=
  match opcodeOf c with
  | 0x04 => if countOf c ≤ 64 then .decode else .prefill
  | 0x05 => if nqOf c ≤ 64 then .decode else .prefill
  | 0x06 => .prefill
  | 0x07 => .prefill
  | 0x08 => .decode
  | 0x09 => .decode
  | 0x0A => .movement
  | 0x0B => .movement
  | 0x0C => .movement
  | 0x0D => .movement
  | 0x0F => .prefill
  | _ => .control

/-- R297: the layers at which a command writes the map: none, one, or every layer. -/
inductive MapUse where
  | no | one (l : Nat) | all
deriving DecidableEq, Repr

def mapWrites (c : Cmd) : MapUse :=
  match opcodeOf c with
  | 0x04 => .one (layerOf c)
  | 0x07 => .one (layerOf c)
  | op => if [0x01, 0x02, 0x03, 0x08, 0x09, 0x0A, 0x0B, 0x0D].contains op then .all else .no

def mapReads (c : Cmd) : MapUse :=
  match opcodeOf c with
  | 0x05 => .one (layerOf c)
  | 0x06 => .one (layerOf c)
  | 0x0C => .all
  | _ => mapWrites c

def MapUse.meets : MapUse → MapUse → Bool
  | .no, _ => false
  | _, .no => false
  | .all, _ => true
  | _, .all => true
  | .one a, .one b => a = b

/-! Configuration sets (R317) -/

def CfgSet.word (cs : CfgSet) (off : Nat) : W64 := Tab.get 0 cs.words off

/-- The default of a configuration register: PT_CFG1 resets to LEND_THR 0x00C8 (R317). -/
def cfgDefault (off : Nat) : W64 := if 0x100000 ≤ off ∧ off % 0x40000 = 0x8 then 0xC8 else 0

/-- A configuration register as held: the table holds it XORed with its default, so that an unlisted register reads its reset value. -/
def CfgSet.read (cs : CfgSet) (off : Nat) : W64 := cs.word off ^^^ cfgDefault off
def CfgSet.write (cs : CfgSet) (off : Nat) (v : W64) : CfgSet := { cs with words := Tab.set 0 cs.words off (v ^^^ cfgDefault off) }

/-- A register of partition `p`'s window. -/
def CfgSet.pt (cs : CfgSet) (p off : Nat) : W64 := cs.read (0x100000 + p * 0x40000 + off)

def CfgSet.enabled (cs : CfgSet) (p : Nat) : Bool := bit (cs.pt p 0) 63
def CfgSet.training (cs : CfgSet) (p : Nat) : Bool := bit (cs.pt p 0) 62
def CfgSet.normEn (cs : CfgSet) (p : Nat) : Bool := bit (cs.pt p 0) 61
def CfgSet.ropeEn (cs : CfgSet) (p : Nat) : Bool := bit (cs.pt p 0) 60
def CfgSet.cacheMib (cs : CfgSet) (p : Nat) : Nat := bits (cs.pt p 0) 58 2
def CfgSet.autoResume (cs : CfgSet) (p : Nat) : Bool := bit (cs.pt p 0) 57
def CfgSet.ctxMin (cs : CfgSet) (p : Nat) : Nat := bits (cs.pt p 0) 41 15
def CfgSet.decFloor (cs : CfgSet) (p : Nat) : Nat := bits (cs.pt p 0) 35 6
def CfgSet.pfWeight (cs : CfgSet) (p : Nat) : Nat := bits (cs.pt p 0) 27 8
def CfgSet.bwMin (cs : CfgSet) (p : Nat) : Nat := bits (cs.pt p 0) 20 7
def CfgSet.sigShrTo (cs : CfgSet) (p : Nat) : Nat := bits (cs.pt p 8) 32 16
def CfgSet.lendThr (cs : CfgSet) (p : Nat) : Nat := bits (cs.pt p 8) 0 16
def CfgSet.trRoot (cs : CfgSet) (p : Nat) : W64 := cs.pt p 0x10
def CfgSet.sigShr (cs : CfgSet) (p : Nat) : Nat := bits (cs.pt p 0x18) 33 17
def CfgSet.sigCnt (cs : CfgSet) (p : Nat) : Nat := bits (cs.pt p 0x18) 16 17
def CfgSet.sigBase (cs : CfgSet) (p : Nat) : Nat := bits (cs.pt p 0x18) 0 16
/-- Partition of AC(k) (R317). -/
def CfgSet.clPart (cs : CfgSet) (k : Nat) : Nat :=
  if k < 16 then bits (cs.read 0x200) (4 * k) 4 else bits (cs.read 0x208) (4 * (k - 16)) 4
def CfgSet.assigned (cs : CfgSet) (k : Nat) : Bool := bit (cs.read 0x210) k

/-! Pool descriptors (R243) -/

/-- Bits of the descriptor of partition `p`: the field of `len` bits at byte `off`, bit `lo`. -/
def CfgSet.desc (cs : CfgSet) (p off lo len : Nat) : Nat :=
  bits (cs.pt p (0x80 + off / 8 * 8)) (8 * (off % 8) + lo) len

/-- The layout of a pool (R243), decoded. -/
structure PoolDesc where
  base : Nat
  frames : Nat
  pgIds : Nat
  metaBase : Nat
  hash : Nat
  cold : Nat
  coldSlots : Nat
  groupStride : Nat
  layerStride : Nat
  layersM1 : Nat
  tok : Nat
  hkv : Nat
  dim : Nat
  kfmt : Nat
  vfmt : Nat
  kscale : Nat
  vscale : Nat
  kblk : Nat
  vblk : Nat
  hashLog2 : Nat
  cachePol : Nat
  lowWm : Nat
  highWm : Nat
  floorWm : Nat
  seed : W64
deriving DecidableEq, Repr

def CfgSet.pool (cs : CfgSet) (p : Nat) : PoolDesc :=
  let d := cs.desc p
  { base := d 0 0 52, frames := d 8 0 24, pgIds := d 12 0 24, metaBase := d 16 0 52, hash := d 24 0 52, cold := d 32 0 52,
    coldSlots := d 40 0 32, groupStride := d 44 0 32 * 4096, layerStride := d 48 0 16 * 512, layersM1 := d 50 0 8,
    tok := 16 * 2 ^ d 51 0 2, hkv := d 52 0 6 + 1, dim := 16 * d 53 0 5, kfmt := d 54 0 4, vfmt := d 54 4 4, kscale := d 55 0 2,
    vscale := d 55 2 2, kblk := 8 * 2 ^ d 56 0 3, vblk := 8 * 2 ^ d 56 3 3, hashLog2 := d 57 0 5, cachePol := d 58 0 2,
    lowWm := d 60 0 24, highWm := d 64 0 24, floorWm := d 68 0 24, seed := BitVec.ofNat 64 (d 72 0 64) }

/-- A pool descriptor is active when it names frames (R243: FRAMES is at least 1). -/
def PoolDesc.active (d : PoolDesc) : Bool := d.frames != 0

def PoolDesc.kf (d : PoolDesc) : Fmt := (Fmt.ofCode d.kfmt).getD .cf8
def PoolDesc.vf (d : PoolDesc) : Fmt := (Fmt.ofCode d.vfmt).getD .cf8
def PoolDesc.ks (d : PoolDesc) : ScaleKind := (ScaleKind.ofCode d.kscale).getD .none
def PoolDesc.vs (d : PoolDesc) : ScaleKind := (ScaleKind.ofCode d.vscale).getD .none

/-- R246: the regions of a page. -/
def PoolDesc.kd (d : PoolDesc) : Nat := padTo 64 (ceilDiv (d.tok * d.hkv * d.dim * d.kf.width) 8)
def PoolDesc.vd (d : PoolDesc) : Nat := padTo 64 (ceilDiv (d.tok * d.hkv * d.dim * d.vf.width) 8)
def PoolDesc.ksz (d : PoolDesc) : Nat := padTo 64 (d.tok * d.hkv * ceilDiv d.dim d.kblk * d.ks.bytes)
def PoolDesc.vsz (d : PoolDesc) : Nat := padTo 64 (d.tok * d.hkv * ceilDiv d.dim d.vblk * d.vs.bytes)
def PoolDesc.pageSize (d : PoolDesc) : Nat := d.kd + d.vd + d.ksz + d.vsz
/-- R248: where the trailer starts in a frame. -/
def PoolDesc.trailer (d : PoolDesc) : Nat := (d.layersM1 + 1) * d.layerStride

/-- R243, R244: formats, scale kinds, block sizes and sizes that a descriptor may hold. -/
def PoolDesc.fieldsOk (d : PoolDesc) : Bool :=
  let fmtOk (f : Nat) : Bool := [2, 4, 5, 6, 7].contains f
  1 ≤ d.frames && d.frames ≤ d.pgIds && d.base % 4096 = 0 && d.metaBase % 64 = 0 && d.hash % 64 = 0 && d.cold % 4096 = 0
    && 32 ≤ d.dim && d.dim ≤ 256 && fmtOk d.kfmt && fmtOk d.vfmt && d.kscale ≤ 2 && d.vscale ≤ 2 && d.kblk ≤ 128 && d.vblk ≤ 128
    && 10 ≤ d.hashLog2 && d.hashLog2 ≤ 24 && d.cachePol ≤ 2

/-- R244: the descriptor is valid. -/
def PoolDesc.valid (d : PoolDesc) : Bool :=
  d.fieldsOk && d.floorWm < d.lowWm && d.lowWm ≤ d.highWm && d.highWm ≤ d.frames && d.pageSize ≤ d.layerStride
    && d.trailer + 1024 ≤ d.groupStride && !(d.kf.isSub && d.ks = .none) && !(d.vf.isSub && d.vs = .none)

/-- The reserved bits of the descriptor's 16 words (R243). -/
def descReserved : List (Nat × Nat × Nat) :=
  [(0, 52, 12), (1, 24, 8), (1, 56, 8), (2, 52, 12), (3, 52, 12), (4, 52, 12), (6, 26, 6), (6, 38, 2), (6, 45, 3), (6, 60, 4),
   (7, 6, 2), (7, 13, 3), (7, 18, 14), (7, 56, 8), (8, 24, 8), (8, 56, 8)] ++ (List.range 6).map (fun i => (10 + i, 0, 64))

/-- R243, R319: a reserved bit of partition `p`'s descriptor is set. -/
def CfgSet.descReservedSet (cs : CfgSet) (p : Nat) : Bool :=
  descReserved.any (fun r => bits (cs.pt p (0x80 + 8 * r.1)) r.2.1 r.2.2 != 0)

/-- R244: two descriptors differ in a field that a live pool freezes. -/
def PoolDesc.frozenDiffer (a b : PoolDesc) : Bool :=
  ({ a with cachePol := 0, lowWm := 0, highWm := 0, floorWm := 0 } : PoolDesc)
    != { b with cachePol := 0, lowWm := 0, highWm := 0, floorWm := 0 }

/-- R247: the index of element (t, h, e) in its region. -/
def elemIndex (d : PoolDesc) (key : Bool) (t h e : Nat) : Nat :=
  if key && d.kf.isSub then (h * d.dim + e) * d.tok + t else (t * d.hkv + h) * d.dim + e

/-- R247: the index of a scale. -/
def scaleIndex (d : PoolDesc) (blk t h e : Nat) : Nat := (t * d.hkv + h) * ceilDiv d.dim blk + e / blk

/-! Lefiza operands (R204 to R206) -/

/-- The 64-bit value of an immediate (R205). -/
def immVal (i : W32) : W64 := i.signExtend 64

end Sys2Proof.Machine
end

