-- ==== Sys2Proof/Machine/Flags.lean ====
section
/-! DEFINITION. The results of Lefiza's scalar classes (R206, R207): the arithmetic of classes 0x0 and 0x1, the comparisons and
predicates of class 0x2, and guards (R204). -/

namespace Sys2Proof.Machine

/-- R206: DIVU; all ones when B is 0. -/
def divU (a b : W64) : W64 := if b = 0 then BitVec.allOnes 64 else a.udiv b
/-- R206: REMU; A when B is 0. -/
def remU (a b : W64) : W64 := if b = 0 then a else a.umod b
/-- R206: the high 64 bits of the unsigned product. -/
def mulHu (a b : W64) : W64 := BitVec.ofNat 64 (a.toNat * b.toNat / 2 ^ 64)
def shlB (a b : W64) : W64 := a <<< (b.toNat % 64)
def shrB (a b : W64) : W64 := a >>> (b.toNat % 64)
def sarB (a b : W64) : W64 := a.sshiftRight (b.toNat % 64)
def minS (a b : W64) : W64 := if a.toInt ≤ b.toInt then a else b
def maxS (a b : W64) : W64 := if a.toInt ≤ b.toInt then b else a
def minU (a b : W64) : W64 := if a.toNat ≤ b.toNat then a else b
def maxU (a b : W64) : W64 := if a.toNat ≤ b.toNat then b else a
/-- R206: leading zeros of A. -/
def clzOf (a : W64) : W64 := BitVec.ofNat 64 (if a = 0 then 64 else 63 - Nat.log2 a.toNat)
/-- R206: set bits of A. -/
def popOf (a : W64) : W64 := BitVec.ofNat 64 (popcount a)
/-- R206: MOVHI. -/
def movHi (g : W64) (imm : W32) : W64 := imm ++ g.extractLsb' 0 32

/-- R207: signed and unsigned comparisons. -/
def ltS (a b : W64) : Bool := decide (a.toInt < b.toInt)
def leS (a b : W64) : Bool := decide (a.toInt ≤ b.toInt)
def ltUns (a b : W64) : Bool := decide (a.toNat < b.toNat)
def leUns (a b : W64) : Bool := decide (a.toNat ≤ b.toNat)
/-- A truth value as 0 or 1 (R207, PTOG). -/
def boolW (b : Bool) : W64 := if b then 1 else 0

/-- R208: a loaded value of `n` bytes, zero-extended, or sign-extended. -/
def loadExt (signed : Bool) (n v : Nat) : W64 :=
  if signed && v / 2 ^ (8 * n - 1) % 2 = 1 then BitVec.ofNat 64 (2 ^ 64 - 2 ^ (8 * n) + v) else BitVec.ofNat 64 v

/-- R204: the guard predicate, inverted by `PN`. -/
def guardOf (p pn : Bool) : Bool := xor p pn

end Sys2Proof.Machine
end

