-- ==== Sys2Proof/Machine/Codes.lean ====
section
/-! DEFINITION. Check codes and hashes: CRC-32C (R249, R392, R403, R408, R430), CRC-32 (R237), CRC-8 (R404), the prefix hash (R258),
SHA-256 and HMAC (R400, R407). The bit order of the CRCs is that of their standards (PRESUMED, log entry 17). -/

namespace Sys2Proof.Machine

/-- `n` shifts of a reflected CRC-32 register with polynomial `poly`. -/
def crcShift (poly : Nat) (n c : Nat) : Nat :=
  match n with
  | 0 => c
  | n + 1 => crcShift poly n (if c % 2 = 1 then (c / 2) ^^^ poly else c / 2)

/-- A reflected CRC-32 over bytes, from a register of ones, complemented at the end. -/
def crcReflected (poly : Nat) (bs : List Byte) : W32 :=
  ~~~(BitVec.ofNat 32 (bs.foldl (fun c b => crcShift poly 8 (c ^^^ b.toNat)) 0xFFFFFFFF))

/-- CRC-32C: the Castagnoli polynomial 0x1EDC_6F41 (R249), reflected. -/
def crc32c (bs : List Byte) : W32 := crcReflected 0x82F63B78 bs

/-- CRC-32 of IEEE 802.3 (R237), reflected. -/
def crc32 (bs : List Byte) : W32 := crcReflected 0xEDB88320 bs

/-- `n` shifts of the CRC-8 register of R404. -/
def crc8Shift (n c : Nat) : Nat :=
  match n with
  | 0 => c
  | n + 1 => crc8Shift n (if 128 ≤ c % 256 then (c * 2 % 256) ^^^ 7 else c * 2 % 256)

/-- R404: x^8 + x^2 + x + 1, most significant bit first, from 0. -/
def crc8 (bs : List Byte) : Byte := BitVec.ofNat 8 (bs.foldl (fun c b => crc8Shift 8 (c ^^^ b.toNat)) 0)

/-- R258: one token of the prefix hash. -/
def hashTok (h : W64) (t : Nat) : W64 :=
  let h := (h ^^^ BitVec.ofNat 64 t) * 0x5D29B6E10A4F73C3
  h ^^^ (h >>> 31)

/-- R258: the prefix hash of a group of `toks` after `prev`. -/
def groupHash (prev : W64) (toks : List Nat) : W64 :=
  let h := toks.foldl hashTok (prev ^^^ (BitVec.ofNat 64 toks.length * 0x8F3A61D5C74B2E97))
  let h := h ^^^ (h >>> 29)
  let h := h * 0x8F3A61D5C74B2E97
  h ^^^ (h >>> 32)

/-- The first `n` primes, the last found first. Between a prime and its double lies another, so a search as long as the candidate finds it. -/
def primes (n : Nat) : List Nat :=
  match n with
  | 0 => []
  | n + 1 =>
    let ps := primes n
    let from' := ps.headD 1 + 1
    (((List.range from').map (· + from')).find? (fun c => ps.all (fun p => c % p != 0))).getD from' :: ps

/-- The largest `r` below 2^`n` + `r0` with r^`k` at most `v`, found bit by bit from the top; `r0` is a multiple of 2^`n`. -/
def rootBits (k v n r0 : Nat) : Nat :=
  match n with
  | 0 => r0
  | n + 1 => rootBits k v n (if (r0 + 2 ^ n) ^ k ≤ v then r0 + 2 ^ n else r0)

/-- The first 32 bits of the fractional part of the `k`-th root of `p`. -/
def rootFrac (k p : Nat) : W32 := BitVec.ofNat 32 (rootBits k (p * 2 ^ (32 * k)) 40 0)

/-- The round constants of SHA-256 (R400, R407): the fractional parts of the cube roots of the first 64 primes. -/
def shaK : List W32 := ((primes 64).reverse).map (rootFrac 3)

/-- The initial hash value of SHA-256: the fractional parts of the square roots of the first 8 primes. -/
def shaInit : List W32 := ((primes 8).reverse).map (rootFrac 2)

/-- A big-endian word of four bytes. -/
def beWord (bs : List Byte) : W32 := BitVec.ofNat 32 (bs.foldl (fun a b => a * 256 + b.toNat) 0)

/-- The `n` big-endian bytes of `v`. -/
def beBytes (n v : Nat) : List Byte := (leBytes n v).reverse

/-- The message schedule of SHA-256, extended word by word; the words stand last first. -/
def shaExtend (n : Nat) (ws : List W32) : List W32 :=
  match n with
  | 0 => ws
  | n + 1 =>
    let a := ws.getD 14 0
    let b := ws.getD 1 0
    let s0 := a.rotateRight 7 ^^^ a.rotateRight 18 ^^^ (a >>> 3)
    let s1 := b.rotateRight 17 ^^^ b.rotateRight 19 ^^^ (b >>> 10)
    shaExtend n ((ws.getD 15 0 + s0 + ws.getD 6 0 + s1) :: ws)

/-- One round of SHA-256 over the eight working words. -/
def shaRound (s : List W32) (kw : W32 × W32) : List W32 :=
  match s with
  | [a, b, c, d, e, f, g, h] =>
    let s1 := e.rotateRight 6 ^^^ e.rotateRight 11 ^^^ e.rotateRight 25
    let ch := (e &&& f) ^^^ (~~~e &&& g)
    let t1 := h + s1 + ch + kw.1 + kw.2
    let s0 := a.rotateRight 2 ^^^ a.rotateRight 13 ^^^ a.rotateRight 22
    let mj := (a &&& b) ^^^ (a &&& c) ^^^ (b &&& c)
    [t1 + (s0 + mj), a, b, c, d + t1, e, f, g]
  | s => s

/-- The runs of `n` bytes of a list, `fuel` of them. -/
def runsOf (n fuel : Nat) (bs : List Byte) : List (List Byte) :=
  match fuel with
  | 0 => []
  | fuel + 1 => bs.take n :: runsOf n fuel (bs.drop n)

/-- The compression of one 64-byte block. -/
def shaBlock (h : List W32) (blk : List Byte) : List W32 :=
  let ws := (shaExtend 48 ((runsOf 4 16 blk).map beWord).reverse).reverse
  List.zipWith (· + ·) h ((shaK.zip ws).foldl shaRound h)

/-- SHA-256 of a message of bytes. -/
def sha256 (msg : List Byte) : List Byte :=
  let n := msg.length
  let z := (119 - n % 64) % 64
  let p := msg ++ [0x80] ++ List.replicate z 0 ++ beBytes 8 (8 * n)
  ((runsOf 64 (p.length / 64) p).foldl shaBlock shaInit).flatMap (fun w => beBytes 4 w.toNat)

/-- HMAC-SHA-256 (RFC 2104) under a 32-byte key. -/
def hmac (key msg : List Byte) : List Byte :=
  let k := key ++ List.replicate (64 - key.length) 0
  sha256 (k.map (· ^^^ 0x5C) ++ sha256 (k.map (· ^^^ 0x36) ++ msg))

end Sys2Proof.Machine
end

