-- ==== Sys2Proof/Machine/Ops.lean ====
section
/-! DEFINITION. The named operations over the state: accessors, the trouble log, trace, event records, interrupt and power messages,
translation and host memory, completion records, signals, the meter link, the fatal state. -/

namespace Sys2Proof.Machine

/-! Accessors: one home for every table's default -/

def State.cluster (s : State) (n : Nat) : Cluster := Tab.get Cluster.reset s.clusters n
def State.setCluster (s : State) (n : Nat) (c : Cluster) : State := { s with clusters := Tab.set Cluster.reset s.clusters n c }
def State.modCluster (s : State) (n : Nat) (f : Cluster → Cluster) : State := s.setCluster n (f (s.cluster n))

def State.pair (s : State) (n : Nat) : Pair := Tab.get Pair.reset s.pairs n
def State.setPair (s : State) (n : Nat) (c : Pair) : State := { s with pairs := Tab.set Pair.reset s.pairs n c }
def State.modPair (s : State) (n : Nat) (f : Pair → Pair) : State := s.setPair n (f (s.pair n))

def State.pool (s : State) (p : Nat) : Pool := Tab.get Pool.reset s.pools p
def State.setPool (s : State) (p : Nat) (c : Pool) : State := { s with pools := Tab.set Pool.reset s.pools p c }
def State.modPool (s : State) (p : Nat) (f : Pool → Pool) : State := s.setPool p (f (s.pool p))

def State.ptReg (s : State) (p : Nat) : Pt := Tab.get Pt.reset s.pt p
def State.setPt (s : State) (p : Nat) (c : Pt) : State := { s with pt := Tab.set Pt.reset s.pt p c }
def State.modPt (s : State) (p : Nat) (f : Pt → Pt) : State := s.setPt p (f (s.ptReg p))

def State.port (s : State) (k : Nat) : Port := Tab.get Port.reset s.ports k
def State.setPort (s : State) (k : Nat) (c : Port) : State := { s with ports := Tab.set Port.reset s.ports k c }
def State.modPort (s : State) (k : Nat) (f : Port → Port) : State := s.setPort k (f (s.port k))

def State.ring (s : State) (r : Nat) : Ring := Tab.get Ring.reset s.hw.rings r
def State.setRing (s : State) (r : Nat) (c : Ring) : State := { s with hw := { s.hw with rings := Tab.set Ring.reset s.hw.rings r c } }
def State.modRing (s : State) (r : Nat) (f : Ring → Ring) : State := s.setRing r (f (s.ring r))

/-- The key of (partition, SQID) (R278). -/
def seqKey (p q : Nat) : Nat := p * 16384 + q
def State.seq (s : State) (p q : Nat) : Seq := Tab.get Seq.free s.hw.seqs (seqKey p q)
def State.putSeq (s : State) (p q : Nat) (c : Seq) : State :=
  { s with hw := { s.hw with seqs := Tab.set Seq.free s.hw.seqs (seqKey p q) c } }

def State.modHw (s : State) (f : Hw → Hw) : State := { s with hw := f s.hw }
def State.modClk (s : State) (f : Clk → Clk) : State := { s with clk := f s.clk }
def State.modBoot (s : State) (f : Boot → Boot) : State := { s with boot := f s.boot }
def State.modCfg (s : State) (f : Cfg → Cfg) : State := { s with cfg := f s.cfg }
def State.modWeir (s : State) (f : Weir → Weir) : State := { s with weir := f s.weir }
def State.modRas (s : State) (f : Ras → Ras) : State := { s with ras := f s.ras }
def State.modSmu (s : State) (f : Smu → Smu) : State := { s with smu := f s.smu }
def State.modTrc (s : State) (f : Trc → Trc) : State := { s with trc := f s.trc }
def State.modTr (s : State) (f : Tr → Tr) : State := { s with tr := f s.tr }
def State.modSig (s : State) (f : Sig → Sig) : State := { s with sig := f s.sig }
def State.modRecorder (s : State) (f : Recorder → Recorder) : State := { s with recorder := f s.recorder }
def State.modLink (s : State) (f : Link → Link) : State := { s with link := f s.link }
def State.modOut (s : State) (f : Out → Out) : State := { s with out := f s.out }
def State.modFab (s : State) (f : Fab → Fab) : State := { s with fab := f s.fab }
def State.modPeer (s : State) (f : Peer → Peer) : State := { s with peer := f s.peer }
def State.modGlob (s : State) (f : Glob → Glob) : State := { s with glob := f s.glob }

/-- A counter that stops at its maximum. -/
def bump {n : Nat} (w : BitVec n) (k : Nat := 1) : BitVec n := BitVec.ofNat n (Nat.min (2 ^ n - 1) (w.toNat + k))
/-- A number that stops at `max`. -/
def bumpTo (max x : Nat) (k : Nat := 1) : Nat := Nat.min max (x + k)
/-- `w` with bit `i` set to `b`. -/
def putBit {n : Nat} (w : BitVec n) (i : Nat) (b : Bool) : BitVec n := if b then w ||| oneHot n i else w &&& ~~~(oneHot n i)

/-- Clusters built (R1, R6). -/
def State.nClusters (s : State) : Nat := if s.part.s32 then 32 else 16
/-- Steering pairs built. -/
def State.nPairs (s : State) : Nat := if s.part.s32 then 8 else 4

/-- The block's fast domain runs (R373, R422). -/
def State.fast (s : State) : Bool := s.clk.awake && !s.boot.fatal && !s.boot.inReset

/-- The always-on domain runs: no reset and no loss of the block. -/
def State.on (s : State) : Bool := !s.boot.inReset

/-- Cluster `n` is in service (R457). -/
def State.inService (s : State) (n : Nat) : Bool := bit s.boot.svc n

/-- R321: admission pauses from the admission of a SWAP to its switch point. -/
def State.swapPause (s : State) : Bool := s.cfg.swapping.any (fun x => !x.switched)

/-- In-service clusters assigned to `p` in a configuration set, ascending (R151). -/
def State.clustersOf (s : State) (cs : CfgSet) (p : Nat) : List Nat :=
  (List.range s.nClusters).filter (fun n => cs.assigned n && cs.clPart n = p && s.inService n)

/-- The pairs that drive an operation's clusters. -/
def pairsOf (clusters : BitVec 32) : List Nat := (List.range 8).filter (fun k => (clusters.toNat / 2 ^ (4 * k)) % 16 != 0)

/-- R234, R337: the clusters of the pairs that held operations keep. -/
def State.heldClusters (s : State) : BitVec 32 :=
  ((s.hw.ops.filter (fun o => o.st = .held)).flatMap (fun o => pairsOf o.clusters)).foldl (fun w k => w ||| BitVec.ofNat 32 (15 * 2 ^ (4 * k))) 0

/-- R234: of the clusters of `p`, those on which Headwater may place work. -/
def State.freeClusters (s : State) (cs : CfgSet) (p : Nat) : List Nat :=
  (s.clustersOf cs p).filter (fun n => !bit s.heldClusters n)

/-- The partition of a cluster in the active set (R327). -/
def State.clPart (s : State) (n : Nat) : Nat := s.cfg.active.clPart n

/-- The key/value pool of `p` under the active set. -/
def State.desc (s : State) (p : Nat) : PoolDesc := s.cfg.active.pool p

/-- R420, R450: the floor in effect. -/
def State.floorOf (s : State) (p : Nat) : Nat :=
  if s.cfg.active.enabled p then Nat.min (s.cfg.active.decFloor p) (s.clustersOf s.cfg.active p).length else 0

def State.floorSum (s : State) : Nat := ((List.range 16).map s.floorOf).sum

/-- R377: G; the clusters in service until the first GRANT. -/
def State.g (s : State) : Nat := s.weir.grant.getD (popcount s.boot.svc)

/-! Free values (log entry 14) -/

/-- A free value drawn with the counter, which the draw advances. -/
def State.draw (s : State) : Nat × State := (s.freeCtr, { s with freeCtr := s.freeCtr + 1 })

/-- R251: one of the candidates; which one the spec leaves open. -/
def State.pick (s : State) (xs : List Nat) : Option Nat × State :=
  match xs with
  | [] => (none, s)
  | [x] => (some x, s)
  | xs =>
    let (i, s) := s.draw
    (xs[Config.freePick i % xs.length]?, s)

/-! Trouble log (R437) -/

def State.log (s : State) (e : Tlog) : State :=
  s.modRas (fun r => { r with log := Tab.set none r.log (r.total.toNat % Config.tlogMax) (some e), total := r.total + 1 })

/-- A trouble-log entry: kind, partition, host, class, unit (0xFF: none), operation, ARG0, ARG1. -/
def State.note (s : State) (kind : W16) (part : Option Nat) (host : Bool) (cls : BitVec 3) (unit : Byte) (opid : W32) (a0 a1 : Nat) :
    State :=
  s.log ⟨s.clk.tick, kind, part, host, cls, unit, opid, BitVec.ofNat 32 a0, BitVec.ofNat 64 a1⟩

/-- The number the next entry gets (R439). -/
def State.entryNo (s : State) : Nat := s.ras.total.toNat

/-! Trace (R441 to R444) -/

/-- R441: a trace record. -/
def traceRecord (fc : BitVec 48) (type : Byte) (part : Nat) (tick : W64) (unit : Byte) (opid : W32) (a0 : W32) (a1 : W64) : BitVec 256 :=
  BitVec.ofNat 256 (leNat (leBytes 6 fc.toNat ++ [type, BitVec.ofNat 8 (part % 16)] ++ leBytes 6 tick.toNat ++ [unit, 0]
    ++ leBytes 4 opid.toNat ++ leBytes 4 a0.toNat ++ leBytes 8 a1.toNat))

/-- R443, R446: types 0x06 to 0x09 and 0x0D are always captured. -/
def alwaysTraced (type : Nat) : Bool := (6 ≤ type && type ≤ 9) || type = 0x0D

/-- R444: capture has ended in stop mode once the buffer is full. -/
def Trc.ended (t : Trc) : Bool := t.mode = 1 && t.wraps != 0

/-- R443: a record stamped `fc` and `tick` reaches the staging queue, or is dropped where the queue is full. -/
def State.traceAt (s : State) (fc : BitVec 48) (tick : W64) (type : Nat) (part : Nat) (unit : Byte) (opid : W32) (a0 a1 : Nat) : State :=
  let t := s.trc
  let wanted := alwaysTraced type || (bit t.types type && bit t.parts part)
  if !t.enable || t.ended || !wanted then s
  else
    let r := traceRecord fc (BitVec.ofNat 8 type) part tick unit opid (BitVec.ofNat 32 a0) (BitVec.ofNat 64 a1)
    if t.staging.length < 64 || (6 ≤ type && type ≤ 9) then { s with trc := { t with staging := t.staging ++ [r] } }
    else { s with trc := { t with lost := bump t.lost, dropped := t.dropped + 1 } }

/-- A record of this moment. -/
def State.trace (s : State) (type : Nat) (part : Nat) (unit : Byte) (opid : W32) (a0 a1 : Nat) : State :=
  s.traceAt s.clk.fc s.clk.tick type part unit opid a0 a1

/-- One staged record written to the buffer (R443, R444). -/
def Trc.store (t : Trc) (r : BitVec 256) : Trc :=
  if t.ended then t
  else
    let tail := (t.tail + 1) % Config.traceMax
    { t with buffer := Tab.set 0 t.buffer t.tail r, tail := tail, wraps := if tail = 0 then bump t.wraps else t.wraps,
             unstreamed := if t.mode = 2 then t.unstreamed ++ [r] else t.unstreamed }

/-- R443: one tick's writes to the buffer: up to 4 records, then a LOST record once there is room. -/
def State.drainTrace (s : State) : State :=
  let t := s.trc
  if t.mode = 2 && Config.traceMax ≤ t.unstreamed.length then s
  else
    let t := { (t.staging.take 4).foldl Trc.store t with staging := t.staging.drop 4 }
    if t.dropped != 0 && t.staging.length < 64 then
      let r := traceRecord s.clk.fc 0x0D 0 s.clk.tick 0xFF 0 (BitVec.ofNat 32 t.dropped) 0
      { s with trc := { t with staging := t.staging ++ [r], dropped := 0 } }
    else { s with trc := t }

/-! Translation (R330 to R335) -/

/-- What a translation finds. -/
inductive Xl where
  | ok (e : TlbEnt)
  | held
  | hard
deriving DecidableEq, Repr

/-- Bits `lo + len − 1 : lo` of a number. -/
def nbits (v lo len : Nat) : Nat := v / 2 ^ lo % 2 ^ len

/-- R330: an entry with a reserved bit set, or a level-2 entry that is no leaf. -/
def badEntry (lvl2 : Bool) (e : Nat) : Bool :=
  nbits e 52 12 != 0 || (if lvl2 then nbits e 1 1 = 0 || nbits e 6 19 != 0
    else if nbits e 1 1 = 1 then nbits e 6 24 != 0 else nbits e 6 2 != 0)

/-- A leaf as a TLB entry for the 32 MiB piece at `va` (R334). -/
def leafEntry (space va : Nat) (lvl2 : Bool) (e : Nat) : TlbEnt :=
  let pa := if lvl2 then nbits e 25 27 * 2 ^ 25 else nbits e 30 22 * 2 ^ 30 + nbits va 25 5 * 2 ^ 25
  ⟨space, va / 2 ^ 25, pa, nbits e 2 1 = 1, nbits e 3 1 = 1, nbits e 5 1 = 1⟩

/-- An entry without `V`: held or hard (R333). -/
def absentEntry (e : Nat) : Xl := if nbits e 4 1 = 1 then .held else .hard

/-- R330: a walk from `root` (VALID 63, BASE 51:12, L1_LOG2 4:0) over memory. -/
def walk (mem : List Host.Cell) (root : W64) (space va : Nat) : Xl :=
  if !bit root 63 || 2 ^ (30 + bits root 0 5) ≤ va then .hard
  else
    let e1 := readLe mem (bits root 12 40 * 4096 + va / 2 ^ 30 * 8) 8
    if badEntry false e1 then .hard
    else if nbits e1 0 1 = 0 then absentEntry e1
    else if nbits e1 1 1 = 1 then .ok (leafEntry space va false e1)
    else
      let e2 := readLe mem (nbits e1 8 44 * 256 + nbits va 25 5 * 8) 8
      if badEntry true e2 then .hard
      else if nbits e2 0 1 = 0 then absentEntry e2
      else .ok (leafEntry space va true e2)

/-- R330: the physical addresses of the entries that a walk reads, in order: the second where the first points to a level-2 table. -/
def walkReads (mem : List Host.Cell) (root : W64) (va : Nat) : List Nat :=
  if !bit root 63 || 2 ^ (30 + bits root 0 5) ≤ va then []
  else
    let a1 := bits root 12 40 * 4096 + va / 2 ^ 30 * 8
    let e1 := readLe mem a1 8
    if badEntry false e1 || nbits e1 0 1 = 0 || nbits e1 1 1 = 1 then [a1] else [a1, nbits e1 8 44 * 256 + nbits va 25 5 * 8]

/-- The root of a space: partition 0 to 15, or 16 for the global space (R321, R330). -/
def State.rootOf (s : State) (space : Nat) : W64 :=
  if space = 16 then s.tr.groot.getD 0 else Tab.get 0 s.cfg.rootInUse space

/-- The TLB that holds a page (R334). -/
def State.tlb (s : State) (page : Nat) : List TlbEnt := Tab.get [] s.tr.tlbs (page % 16)

/-- Translation of `va`: the TLB's entry, else a walk. -/
def State.xlate (s : State) (space va : Nat) : Xl :=
  match (s.tlb (va / 2 ^ 25)).find? (fun e => e.space = space && e.page = va / 2 ^ 25) with
  | some e => .ok e
  | none => walk s.mem (s.rootOf space) space va

/-- A TLB holds the page of `va` (R334). -/
def State.tlbHas (s : State) (space va : Nat) : Bool := (s.tlb (va / 2 ^ 25)).any (fun e => e.space = space && e.page = va / 2 ^ 25)

/-- R334: a translation's entry becomes the most recently used of its TLB; a walk is counted. -/
def State.tlbTouch (s : State) (space va : Nat) : State :=
  let page := va / 2 ^ 25
  let l := s.tlb page
  match s.xlate space va with
  | .ok e =>
    let hit := l.any (fun x => x.space = space && x.page = page)
    let l' := (e :: l.filter (fun x => !(x.space = space && x.page = page))).take 512
    s.modTr (fun t => { t with tlbs := Tab.set [] t.tlbs (page % 16) l', walks := if hit then t.walks else bump t.walks })
  | _ => s.modTr (fun t => { t with walks := bump t.walks })

/-- The kinds of operand of R332. -/
inductive OpdKind where
  | compute | other | struct
deriving DecidableEq, Repr

/-- Outcomes of R333, worst last. -/
inductive Verdict where
  | ok | held | hard
deriving DecidableEq, Repr

/-- R333: an entry judged for an access. -/
def judge (k : OpdKind) (write : Bool) : Xl → Verdict
  | .ok e => if write && !e.w then .hard else if !e.pin && k != .other then .hard else .ok
  | .held => .held
  | .hard => .hard

def Verdict.worst : Verdict → Verdict → Verdict
  | .hard, _ => .hard
  | _, .hard => .hard
  | .held, _ => .held
  | _, .held => .held
  | _, _ => .ok

/-- An address range with how it is used. -/
structure Opd where
  space : Nat
  kind : OpdKind
  write : Bool
  va : Nat
  len : Nat
deriving DecidableEq, Repr

/-- The 32 MiB pages of a range. -/
def Opd.pages (o : Opd) : List Nat :=
  if o.len = 0 then [] else
    let a := o.va / 2 ^ 25
    (List.range ((o.va + o.len - 1) / 2 ^ 25 - a + 1)).map (fun i => a + i)

/-- An address of page `pg` in the range: the first byte used of it. -/
def Opd.at (o : Opd) (pg : Nat) : Nat := Nat.max o.va (pg * 2 ^ 25)

/-- R333: the worst outcome of the pages of a range, with the first address that has it. -/
def State.judgeOpd (s : State) (o : Opd) : Verdict × Nat :=
  o.pages.foldl (fun acc pg =>
    let v := judge o.kind o.write (s.xlate o.space (o.at pg))
    if Verdict.worst acc.1 v = acc.1 then acc else (v, o.at pg)) (.ok, o.va)

/-- The pages of a range that the TLBs hold become the most recently used. -/
def State.touchOpd (s : State) (o : Opd) : State :=
  o.pages.foldl (fun s pg => if s.tlbHas o.space (o.at pg) then s.tlbTouch o.space (o.at pg) else s) s

/-- Whether a block structure of `space` may be accessed now (R333). -/
def State.judgeStruct (s : State) (space : Nat) (write : Bool) (va len : Nat) : Verdict :=
  (s.judgeOpd ⟨space, .struct, write, va, len⟩).1

/-! Host memory -/

/-- A range cut at 32 MiB pages. -/
def pieces (fuel va n : Nat) : List (Nat × Nat) :=
  match fuel with
  | 0 => []
  | fuel + 1 =>
    if n = 0 then [] else
      let k := Nat.min n (2 ^ 25 - va % 2 ^ 25)
      (va, k) :: pieces fuel (va + k) (n - k)

/-- The physical address of `va` where it translates. -/
def State.paOf (s : State) (space va : Nat) : Option Nat :=
  match s.xlate space va with
  | .ok e => some (e.pa + va % 2 ^ 25)
  | _ => none

/-- `n` bytes of a space at `va`; 0 where a page does not translate. -/
def State.vaRead (s : State) (space va n : Nat) : List Byte :=
  (pieces (n / 2 ^ 25 + 2) va n).flatMap (fun p => match s.paOf space p.1 with
    | some pa => readBytes s.mem pa p.2
    | none => List.replicate p.2 0)

/-- A little-endian number of a space. -/
def State.vaNat (s : State) (space va n : Nat) : Nat := leNat (s.vaRead space va n)

/-- Bytes written to a space at `va`, where each page translates. -/
def State.vaWrite (s : State) (space va : Nat) (bs : List Byte) : State :=
  ((pieces (bs.length / 2 ^ 25 + 2) va bs.length).foldl (fun (a : State × List Byte) p =>
    ((match a.1.paOf space p.1 with
      | some pa => { a.1 with mem := writeBytes a.1.mem pa (a.2.take p.2) }
      | none => a.1), a.2.drop p.2)) (s, bs)).1

/-! Requests to memory (R189, R197, R353 to R355) -/

/-- R354: the port of a physical address. -/
def portOf (pa : Nat) : Nat := nbits pa 9 4 ^^^ nbits pa 13 4 ^^^ nbits pa 17 4 ^^^ nbits pa 21 4

/-- A byte range cut at multiples of `size`. -/
def cutRange (size fuel va n : Nat) : List (Nat × Nat) :=
  match fuel with
  | 0 => []
  | fuel + 1 =>
    if n = 0 then [] else
      let k := Nat.min n (size - va % size)
      (va, k) :: cutRange size fuel (va + k) (n - k)

/-- R189: a byte range cut at 512-byte addresses. -/
def requestsOf (fuel va n : Nat) : List (Nat × Nat) := cutRange 512 fuel va n

/-- A request joins the port that its physical address selects (R354, R355). -/
def State.pushReq (s : State) (r : Req) : State := s.modPort (portOf r.pa) (fun p => { p with waiting := p.waiting ++ [r] })

/-- Requests of this block, waiting or under way, that fulfil `f`. -/
def Port.flying (p : Port) (f : Req → Bool) : Bool := p.waiting.any f || p.reads.any (fun e => e.2.any f) || p.writes.any (fun e => e.2.any f)
def State.flying (s : State) (f : Req → Bool) : Bool := s.hw.light.any (fun x => f x.2) || s.ports.any (fun e => e.2.flying f)

/-- R197: the class of a light-weight request. -/
def ReqUse.cls : ReqUse → Option LightCls
  | .light k _ => some k
  | _ => none

/-- R197: light-weight tags that class `k` holds. -/
def State.lightHeld (s : State) (k : LightCls) : Nat :=
  let is (r : Req) : Bool := r.use.cls = some k
  let sent (t : Tab (Option Req)) : Nat := t.countP (fun e => e.2.any is)
  s.hw.light.countP (fun x => x.1 && is x.2) + (s.ports.map (fun e => sent e.2.reads + sent e.2.writes)).sum

/-- R197: shared tags in use where a class holds `n` tags: those beyond its 16. -/
def lightShared (n : LightCls → Nat) : Nat := (n .fetch - 16) + (n .table - 16) + (n .record - 16) + (n .other - 16)

/-- R197: requests without a tag take one in the order of their arrival: one of the 16 of their class, or one of the 192 shared; `n` are the
tags that each class holds. -/
def lightTags (n : LightCls → Nat) : List (Bool × Req) → List (Bool × Req)
  | [] => []
  | (true, r) :: xs => (true, r) :: lightTags n xs
  | (false, r) :: xs =>
    match r.use.cls with
    | none => (true, r) :: lightTags n xs
    | some k =>
      if n k < 16 || lightShared n < 192 then (true, r) :: lightTags (fun j => if j = k then n k + 1 else n j) xs
      else (false, r) :: lightTags n xs

/-- R197: free light-weight tags go to the requests that wait for one. -/
def State.tagLight (s : State) : State := s.modHw (fun h => { h with light := lightTags s.lightHeld h.light })

/-- R197: transfers over the light-weight path, of at most 64 bytes each, in one block of 64; those of pages that do not translate are not
made. What they carry takes effect in the step that makes them (log entry 65). -/
def State.light (s : State) (k : LightCls) (aim : Aim) (wr : Bool) (space va n : Nat) : State :=
  let rs := (cutRange 64 (n / 64 + 2) va n).filterMap (fun q => (s.paOf space q.1).map (fun pa =>
    ((false, ⟨wr, space, q.1, pa, q.2, .light k aim, false, []⟩) : Bool × Req)))
  (s.modHw (fun h => { h with light := h.light ++ rs })).tagLight

/-- A small write of Headwater (R197). -/
def State.lightWrite (s : State) (k : LightCls) (aim : Aim) (space va : Nat) (bs : List Byte) : State :=
  (s.vaWrite space va bs).light k aim true space va bs.length

/-! Sequence maps in host memory (R252) -/

/-- R252: the 4 bytes of block-table entry `k`. -/
def mapEntry (e : Option Nat) : List Byte :=
  match e with
  | some g => leBytes 4 (g % 2 ^ 24 + 2 ^ 31)
  | none => leBytes 4 0

/-- R252: the writes that bring a map in memory from `old` to `new`: address and bytes; a new map is written whole. -/
def mapWritesOf (old new : Seq) : List (Nat × List Byte) :=
  if old.st = .free then
    [(new.map, (List.range 256).flatMap (fun l => leBytes 4 (Tab.get 0 new.len l))),
     (new.map + 1024, (List.range 256).flatMap (fun l => leBytes 1 (Tab.get 0 new.tlen l)) ++ List.replicate 768 0),
     (new.map + 2048, (List.range (2 ^ new.btLog2)).flatMap (fun k => mapEntry (Tab.get none new.table k)))]
  else
    let ls := (old.len ++ new.len).map Prod.fst
    let ts := (old.tlen ++ new.tlen).map Prod.fst
    let ks := (old.table ++ new.table).map Prod.fst
    (ls.filter (fun l => Tab.get 0 old.len l != Tab.get 0 new.len l)).map (fun l => (new.map + 4 * l, leBytes 4 (Tab.get 0 new.len l)))
      ++ (ts.filter (fun l => Tab.get 0 old.tlen l != Tab.get 0 new.tlen l)).map (fun l => (new.map + 1024 + l, leBytes 1 (Tab.get 0 new.tlen l)))
      ++ (ks.filter (fun k => Tab.get none old.table k != Tab.get none new.table k)).map (fun k =>
        (new.map + 2048 + 4 * k, mapEntry (Tab.get none new.table k)))

/-- A context changes; its map in memory follows (log entry 28). -/
def State.setSeq (s : State) (p q : Nat) (c : Seq) : State :=
  let ws := if c.st = .free then [] else mapWritesOf (s.seq p q) c
  ws.foldl (fun s w => s.vaWrite p w.1 w.2) (s.putSeq p q c)

def State.modSeq (s : State) (p q : Nat) (f : Seq → Seq) : State := s.setSeq p q (f (s.seq p q))

/-! Event records, RAS events (R411, R430, R434, R439) and interrupt messages (R367 to R369) -/

/-- R367: an interrupt message. -/
def irqWord (vec cause part info : Nat) : W64 :=
  BitVec.ofNat 64 (leNat (leBytes 2 vec ++ leBytes 1 cause ++ leBytes 1 (part % 16) ++ leBytes 4 info))

/-- R367: an interrupt message is sent, or lost where its address does not translate. -/
def State.sendIrq (s : State) (vec cause part info : Nat) : State :=
  if !bit s.glob.irqAddr 63 then s
  else
    let a := bits s.glob.irqAddr 3 49 * 8
    let w := irqWord vec cause part info
    if s.judgeStruct 16 true a 8 = .ok then
      { s.lightWrite .other .nothing 16 a (leBytes 8 w.toNat) with out := { s.out with irq := s.out.irq ++ [w] } }
    else s.note 0x19 none false 1 0xFF 0 cause a

/-- R369: a cause with a pending bit sends a message when the bit passes from 0 to 1. -/
def State.irqPending (s : State) (b vec cause part info : Nat) : State :=
  if bit s.glob.irqPend b then s
  else ({ s with glob := { s.glob with irqPend := s.glob.irqPend ||| oneHot 64 b } }).sendIrq vec cause part info

/-- R439: the RAS interrupt for trouble-log entry `n` of class `cls`. -/
def State.rasIrq (s : State) (cls n : Nat) : State :=
  s.irqPending 1 (bits s.glob.irqVec1 0 16) 0x06 0 (cls * 2 ^ 28 + n % 2 ^ 28)

/-- R432: records carry calendar time. -/
def State.calendar (s : State) : Bool := s.boot.inReset || decide (s.boot.stage < 4) || s.recorder.testInUse || s.recorder.cal

/-- R430, R432: a record with its time stamp. -/
def State.stamped (s : State) (type : W16) (cls : BitVec 3) (part : Option Nat) (opid : W32) (data : BitVec 256) : Rec :=
  ⟨type, cls, part, data, opid, s.calendar, s.recorder.utcSet, if s.calendar then s.recorder.utc.setWidth 48 else s.clk.opTime,
   s.ras.total.toNat - 1⟩

/-- R434: a record joins the recorder's queue, or is lost where the queue is full. -/
def State.evRecord (s : State) (r : Rec) : State :=
  if s.recorder.nodev then s
  else if s.recorder.queue.length < 64 then s.modRecorder (fun x => { x with queue := x.queue ++ [r] })
  else
    let n := s.entryNo
    ((s.modRecorder (fun x => { x with lost := bump x.lost })).note 0x17 none false 0 0xFF 0 r.type.toNat 0).rasIrq 0 n

/-- DATA of an event record from fields (byte offset from 16, length, value). -/
def recData (fs : List (Nat × Nat × Nat)) : BitVec 256 :=
  fs.foldl (fun w f => setBits w (8 * f.1) (8 * f.2.1) f.2.2) 0

def State.event (s : State) (type : W16) (cls : BitVec 3) (part : Option Nat) (opid : W32) (fs : List (Nat × Nat × Nat)) : State :=
  s.evRecord (s.stamped type cls part opid (recData fs))

/-- A class L event is counted (R445). -/
def State.countL (s : State) : State := s.modRas (fun r => { r with l := bumpTo 0xFFFF r.l })

/-- R411: RAS_PSTOP of `p` is set, the event counted, its record written and the RAS interrupt sent for entry `n`. -/
def State.classPMark (s : State) (p kind addr n : Nat) : State :=
  let s := s.modRas (fun r => { r with pstop := r.pstop ||| oneHot 16 p, p := bumpTo 0xFF r.p })
  (s.event 0x11 3 (some p) 0 [(0, 2, kind), (8, 7, addr % 2 ^ 52)]).rasIrq 3 n

/-- R333, R411, R415: a class P fault of a structure that serves `p`; `cause` is the trouble kind behind it. -/
def State.classP (s : State) (p cause addr : Nat) : State :=
  let n := s.entryNo
  (s.note 0x15 (some p) false 3 0xFF 0 cause addr).classPMark p 0x15 addr n

/-- R315: a locked host write: bit `unit` of LOCK_VIOL, or of LOCK_VIOL_P for a partition window. -/
def State.lockedWrite (s : State) (off : Nat) (v : W64) : State :=
  let s := if 0x100000 ≤ off && off < 0x500000 then
      s.modCfg (fun c => { c with lockViolP := c.lockViolP ||| oneHot 16 ((off - 0x100000) / 0x40000) })
    else
      let b := match off / 0x10000 with
        | 0 => 0 | 1 => 1 | 2 => 2 | 3 => 3 | 4 => 4 | n => if n < 0x10 then 5 else if n < 0x90 then 6 else 7
      s.modCfg (fun c => { c with lockViol := c.lockViol ||| oneHot 8 b })
  let s := s.note 0x01 none true 0 0xFF 0 off v.toNat
  if s.recorder.lockRecs < 16 then
    (s.modRecorder (fun r => { r with lockRecs := r.lockRecs + 1 })).event 0x20 0 none 0 [(0, 4, off), (4, 1, 0x10)]
  else s

/-! Power messages (R376) -/

def pmWord (type part count arg : Nat) : W32 :=
  BitVec.ofNat 32 (type * 2 ^ 28 + part % 16 * 2 ^ 24 + count % 256 * 2 ^ 16 + arg % 65536)

def State.pmOut (s : State) (type part count arg : Nat) : State :=
  s.modOut (fun o => { o with pm := o.pm ++ [pmWord type part count arg] })

/-! The fatal state (R422) -/

/-- R381, R422: the memory ports and the fabric fall silent; a port holds no credit. -/
def State.silencePorts (s : State) : State :=
  { s with ports := s.ports.map (fun p => (p.1, { p.2 with rc := 0, wc := 0, wd := 0, waiting := [] })) }

/-- The class B causes of R422. -/
def State.enterFatal (s : State) (cause : Nat) : State :=
  if s.boot.fatal then s
  else
    let s := (s.pmOut 0xC 0 0 0).event 0x10 4 none 0 [(0, 1, cause)]
    let s := s.modRas (fun r => { r with b := bumpTo 0xFF r.b })
    let s := s.modBoot (fun b => { b with fatal := true, fcause := BitVec.ofNat 3 cause })
    (s.modClk (fun c => { c with awake := false, waking := false, clkOn := 0, startReq := 0 })).silencePorts

/-! The meter link (R391 to R396) -/

/-- R392: the CRC of a link event. -/
def linkCrc (seq : W16) (part q : BitVec 4) (inc : BitVec 48) : W32 :=
  crc32c (leBytes 2 seq.toNat ++ [BitVec.ofNat 8 (part.toNat + 16 * q.toNat), 0] ++ leBytes 6 inc.toNat ++ [0, 0])

/-- The link pauses: events wait in the buffer (R393). -/
def Link.blocked (l : Link) : Bool := l.hold || !l.powered

/-- R393: the buffer holds 4,096 events. -/
def State.linkFull (s : State) : Bool := s.part.optM && Config.linkMax ≤ s.link.buffer.length

/-- R393, rule 1: Weir admits no command that has work. -/
def State.linkHigh (s : State) : Bool := s.part.optM && 3072 ≤ s.link.buffer.length

/-- An event numbered and sent, or buffered while the link is blocked or older events wait. -/
def Link.push (l : Link) (part q inc : Nat) : Link :=
  let p := BitVec.ofNat 4 part
  let k := BitVec.ofNat 4 q
  let i := BitVec.ofNat 48 inc
  let e : LinkEv := ⟨l.seq, p, k, i, linkCrc l.seq p k i⟩
  if l.blocked || !l.buffer.isEmpty then { l with seq := l.seq + 1, buffer := l.buffer ++ [e] }
  else { l with seq := l.seq + 1, wire := l.wire ++ [e] }

/-- R393, R396: an increment of quantity `q` of partition `p`: an event, or the accumulator where the buffer is full. -/
def State.meterEvent (s : State) (p q inc : Nat) : State :=
  if !s.part.optM then s
  else if s.linkFull then
    s.modLink (fun l => { l with accum := Tab.set 0 l.accum (p * 16 + q) ((Tab.get 0 l.accum (p * 16 + q) + inc) % 2 ^ 48) })
  else s.modLink (fun l => l.push p q inc)

/-- R393, rule 2: accumulators leave as events while the buffer has room. -/
def Link.flushAccum (l : Link) : Link :=
  l.accum.foldl (fun l a => if Config.linkMax ≤ l.buffer.length then l
    else { l.push (a.1 / 16) (a.1 % 16) a.2 with accum := Tab.set 0 l.accum a.1 0 }) l

/-- The link resumes: buffered events go out in order, then the accumulators (R393). -/
def Link.resume (l : Link) : Link :=
  if l.blocked then l else { l with wire := l.wire ++ l.buffer, buffer := [] }.flushAccum

/-! Completion records (R287, R292 to R295) -/

/-- What a completion record reports. -/
structure Compl where
  status : Nat
  detail : Nat
  opid : W32
  epoch : Nat
  sat : Nat
  flush : Nat
  nansc : Nat
  masked : Nat
  naninf : Bool
  result : BitVec 96
deriving DecidableEq, Repr

/-- A completion with nothing to report but its status. -/
def Compl.plain (status detail : Nat) : Compl := ⟨status, detail, 0, 0, 0, 0, 0, 0, false, 0⟩

/-- R292: the 32 bytes, PHASE left 0. -/
def recordOf (op sqid : Nat) (c : Compl) : BitVec 256 :=
  BitVec.ofNat 256 (leNat (leBytes 1 c.status ++ leBytes 1 op ++ [if c.naninf then 2 else 0] ++ leBytes 1 c.detail
    ++ leBytes 4 c.opid.toNat ++ leBytes 2 (sqid % 16384) ++ leBytes 2 c.epoch ++ leBytes 2 c.sat ++ leBytes 2 c.flush
    ++ leBytes 2 c.nansc ++ leBytes 2 c.masked ++ leBytes 12 c.result.toNat))

/-- R287: PHASE of index `i` in a ring of `n` slots. -/
def phaseOf (i n : Nat) : Bool := i / n % 2 = 0

/-- R284: the space a ring's addresses lie in: global for a management ring (R454). -/
def Ring.space (r : Ring) : Nat := if r.mgmt then 16 else r.part.toNat

def Ring.n (r : Ring) : Nat := 2 ^ r.log2n.toNat

/-- R284, R287: DONE advances over consecutive written records; `fuel` bounds the run. -/
def Ring.advance (fuel : Nat) (r : Ring) : Ring :=
  match fuel with
  | 0 => r
  | fuel + 1 =>
    if r.written.contains r.done.toNat then
      Ring.advance fuel { r with done := r.done + 1, written := r.written.filter (· != r.done.toNat) }
    else r

/-- R284: a ring that was told to stop reads ENABLE 0 once every fetched command has completed. -/
def Ring.settle (r : Ring) : Ring :=
  if r.draining && r.done = r.fetched then { r with enable := false, draining := false } else r

/-! Signals (R340 to R345) -/

def State.isRaised (s : State) (n : Nat) : Bool := Tab.get false s.sig.raised n
def State.setRaised (s : State) (n : Nat) (b : Bool) : State := s.modSig (fun g => { g with raised := Tab.set false g.raised n b })

/-- R341: `n` lies in the range of partition `p` of an enabled set. -/
def CfgSet.owns (cs : CfgSet) (p n : Nat) : Bool :=
  cs.enabled p && cs.sigBase p ≤ n && n < cs.sigBase p + cs.sigCnt p

/-- R340: the owner of a signal. -/
def CfgSet.owner (cs : CfgSet) (n : Nat) : Option Nat := (List.range 16).find? (fun p => cs.owns p n)

/-- R341: partition `p` may wait on and poll signal `n`. -/
def CfgSet.mayWait (cs : CfgSet) (p n : Nat) : Bool :=
  cs.owns p n || (List.range 16).any (fun q => cs.owns q n && cs.sigBase q + cs.sigCnt q ≤ n + cs.sigShr q
    && cs.sigShrTo q / 2 ^ p % 2 = 1)

/-- A g register; g0 reads 0 (R200). -/
def Pair.readG (x : Pair) (i : Nat) : W64 := if i = 0 then 0 else Tab.get 0 x.g i
/-- A write of a g register; g0 ignores it (R200). -/
def Pair.writeG (x : Pair) (i : Nat) (v : W64) : Pair := if i = 0 then x else { x with g := Tab.set 0 x.g i v }
/-- A p register; p0 reads 1 (R200). -/
def Pair.readP (x : Pair) (i : Nat) : Bool := if i = 0 then true else Tab.get false x.p i
def Pair.writeP (x : Pair) (i : Nat) (v : Bool) : Pair := if i = 0 then x else { x with p := Tab.set false x.p i v }

/-- Operations. -/
def State.op (s : State) (opid : W32) : Option Op := s.hw.ops.find? (fun o => o.opid = opid)
def State.setOp (s : State) (o : Op) : State :=
  s.modHw (fun h => { h with ops := h.ops.map (fun x => if x.opid = o.opid then o else x) })
def State.dropOp (s : State) (opid : W32) : State := s.modHw (fun h => { h with ops := h.ops.filter (fun x => x.opid != opid) })

/-- R223, R347: SWAIT returns with outcome 0 raised, 1 time-out, 2 owner reset; a pair whose shares are lent recalls them. -/
def State.endSwait (s : State) (sp : Nat) (outcome : Nat) : State :=
  let x := s.pair sp
  match x.swait with
  | none => s
  | some w =>
    let y := (x.writeG w.d.val (BitVec.ofNat 64 outcome)).writeP w.pd.val (outcome = 0)
    let y := { y with swait := none, st := if x.st = .waitSig then (if x.op.isNone then .idle else .running) else x.st }
    let cnt := match x.op.bind s.op with
      | some o => popcount (o.lent &&& BitVec.ofNat 32 (15 * 2 ^ (4 * sp)))
      | none => 0
    if w.lent && cnt != 0 then
      let s := s.setPair sp { y with recalled := true }
      let s := s.pmOut 0xA x.part cnt 0
      let s := s.trace 0x0B x.part (BitVec.ofNat 8 (0x40 + sp)) (x.op.getD 0) 1 cnt
      s.modWeir (fun v => { v with recalls := v.recalls ++ [sp] })
    else s.setPair sp y

/-- A stream entry of cluster `n` that took its signal, or lost its owner (R344, R345). -/
def Cluster.takeSig (c : Cluster) (tag : Nat) (bad : Option Byte) : Cluster :=
  { c with queue := c.queue.map (fun e => if e.tag = tag then { e with sigTaken := true, bad := if bad.isSome then bad else e.bad } else e) }

/-- R342: a waiter released with success. -/
def State.releaseWaiter (s : State) (w : Waiter) : State :=
  match w with
  | .pair sp => s.endSwait sp 0
  | .command r i =>
    s.modHw (fun h => { h with staged := h.staged.map (fun x =>
      if x.cmd.ring = r && x.cmd.idx = i then { x with sigTaken := true } else x) })
  | .stream n tag => s.modCluster n (fun c => c.takeSig tag none)

/-- R342: a raise. -/
def State.raise (s : State) (n : Nat) : State :=
  let ws := (s.sig.waiters.filter (fun w => w.1 = n)).map Prod.snd
  match ws with
  | [] => s.setRaised n true
  | _ => ws.foldl State.releaseWaiter (s.modSig (fun g => { g with waiters := g.waiters.filter (fun w => w.1 != n) }))

/-- R342: a wait that finds the signal raised clears it and returns at once; else the waiter is enrolled. -/
def State.await (s : State) (n : Nat) (w : Waiter) : Bool × State :=
  if s.isRaised n then (true, s.setRaised n false)
  else (false, s.modSig (fun g => { g with waiters := g.waiters ++ [(n, w)] }))

/-- A waiter that no longer waits. -/
def State.unwait (s : State) (w : Waiter) : State := s.modSig (fun g => { g with waiters := g.waiters.filter (fun x => x.2 != w) })

/-! Writing a completion record -/

/-- The record of index `idx` is in memory: DONE may advance, RAISE_SIG is raised, the interrupt goes out (R287, R295, R368). -/
def State.recordWritten (s : State) (ring : Nat) (idx : W32) (raise : Option Nat) (irq : Bool) : State :=
  let r := s.ring ring
  let r := { r with written := r.written ++ [idx.toNat] }
  let s := s.setRing ring (Ring.advance (r.written.length + 1) r).settle
  let s := match raise with
    | some n => s.raise n
    | none => s
  if irq && r.irqEn then s.sendIrq r.irqVec.toNat 0x01 0 ring else s

/-- R287, R333: a completion record goes to its slot; it waits where the page is held, and a hard page is a class P fault. -/
def State.writeRecord (s : State) (ring : Nat) (idx : W32) (w : BitVec 256) (raise : Option Nat) (irq : Bool) : State :=
  let r := s.ring ring
  let a := r.cbase.toNat + 32 * (idx.toNat % r.n)
  match s.judgeStruct r.space true a 32 with
  | .ok =>
    let w := putBit w 16 (phaseOf idx.toNat r.n)
    (s.lightWrite .record (.partition r.part.toNat) r.space a (leBytes 32 w.toNat)).recordWritten ring idx raise irq
  | .held => s.modRing ring (fun r => { r with unwritten := r.unwritten ++ [(idx, w, raise, irq)] })
  | .hard => s.classP r.part.toNat 0x15 a

/-- R412: statuses that are class L events. -/
def isClassL (status detail : Nat) : Bool :=
  [0x30, 0x31, 0x50, 0xF0].contains status || (status = 0x22 && (detail = 0x08 || detail = 0x0C || 0x80 ≤ detail))

/-- A command completes under the set `set`: trace record, count, completion record, RAISE_SIG, interrupt (R292, R295). A command whose signal
lies outside its partition's quota never gets here with RAISE_EN honoured (R295). -/
def State.completeUnder (s : State) (set : CfgSet) (part : Nat) (c : Cmd) (x : Compl) : State :=
  let s := if isClassL x.status x.detail then s.countL else s
  let s := s.trace 0x04 part 0x80 x.opid x.status x.detail
  s.writeRecord c.ring c.idx (recordOf (opcodeOf c) (sqidOf c) x) (if raiseEn c && set.owns part (raiseSig c) then some (raiseSig c) else none)
    (irqBit c)

/-- A command that is no operation completes under the active set; an operation completes under the set of its admission (R322). -/
def State.completeCmd (s : State) (part : Nat) (c : Cmd) (x : Compl) : State := s.completeUnder s.cfg.active part c x

/-- R333: records that waited for a page are tried again. -/
def State.retryRecords (s : State) (ring : Nat) : State :=
  let l := (s.ring ring).unwritten
  l.foldl (fun s e => s.writeRecord ring e.1 e.2.1 e.2.2.1 e.2.2.2) (s.modRing ring (fun r => { r with unwritten := [] }))

end Sys2Proof.Machine
end

