-- ==== Sys2Proof/Machine/Kv.lean ====
section
/-! DEFINITION. The paged key/value cache (R243 to R277): page-group records, chains, allocation, references, pins, famine, sequence maps,
and the pages themselves. -/

namespace Sys2Proof.Machine

/-! Records and frames -/

def State.pg (s : State) (p g : Nat) : PgRec := Tab.get PgRec.free (s.pool p).recs g

/-- R250: the state's code. -/
def PgSt.code : PgSt → Nat
  | .free => 0 | .opened => 1 | .full => 2 | .cached => 3 | .evicting => 4 | .cold => 5 | .restoring => 6 | .corrupt => 7

/-- R249: the 32 bytes of a record; `w` gives the fields that the record's state leaves without a value. -/
def pgBytes (w : BitVec 256) (r : PgRec) : List Byte :=
  let used := r.st != .free
  let full := used && r.st != .opened && (r.st != .corrupt || r.crcOk)
  let pick (has : Bool) (lo n v : Nat) : List Byte := leBytes n (if has then v else bits w lo (8 * n))
  leBytes 1 (r.st.code + (if r.hashed then 8 else 0) + (if r.crcOk then 16 else 0)) ++ leBytes 1 r.fill ++ leBytes 2 r.refcnt
    ++ pick used 32 4 r.loc ++ pick full 64 8 r.hash.toNat ++ pick full 128 3 r.parent ++ [0] ++ pick r.hashed 160 3 r.next ++ [0]
    ++ pick r.crcOk 192 4 r.crc.toNat ++ leBytes 2 r.pins ++ pick used 240 2 r.lastUse.toNat

/-- A record changes, in Headwater and in the record table of host memory (R249). -/
def State.setPg (s : State) (p g : Nat) (r : PgRec) : State :=
  let (k, s) := s.draw
  (s.modPool p (fun x => { x with recs := Tab.set PgRec.free x.recs g r })).vaWrite p ((s.desc p).metaBase + 32 * g)
    (pgBytes (Config.freeRecord k) r)
def State.modPg (s : State) (p g : Nat) (f : PgRec → PgRec) : State := s.setPg p g (f (s.pg p g))

/-- R250: the record holds frame `loc`. -/
def PgRec.resident (r : PgRec) : Bool :=
  match r.st with
  | .opened => true | .full => true | .cached => true | .evicting => true
  | .corrupt => r.held
  | _ => false

/-- The frame a record holds or is being restored to. -/
def PgRec.frame (r : PgRec) : Option Nat :=
  if r.resident then some r.loc else if r.st = .restoring then r.copyTo else none

/-- The cold slot a record holds or is being copied to. -/
def PgRec.slot (r : PgRec) : Option Nat :=
  match r.st with
  | .cold => some r.loc
  | .restoring => some r.loc
  | .evicting => r.copyTo
  | _ => none

def Pool.framesUsed (x : Pool) : List Nat := x.recs.filterMap (fun r => r.2.frame) ++ x.pendFree.map Prod.snd
def Pool.slotsUsed (x : Pool) : List Nat := x.recs.filterMap (fun r => r.2.slot)

/-- R251: the free frames. -/
def State.freeFrames (s : State) (p : Nat) : List Nat :=
  let u := (s.pool p).framesUsed
  (List.range (s.desc p).frames).filter (fun f => !u.contains f)

def State.freeSlots (s : State) (p : Nat) : List Nat :=
  let u := (s.pool p).slotsUsed
  (List.range (s.desc p).coldSlots).filter (fun f => !u.contains f)

/-- R251: the free page-group IDs; an ID whose released frame is still pinned is not free. -/
def State.freeIds (s : State) (p : Nat) : List Nat :=
  let u := ((s.pool p).recs.filter (fun r => r.2.st != .free || r.2.pins != 0)).map Prod.fst
  (List.range (s.desc p).pgIds).filter (fun g => g != 0xFFFFFF && !u.contains g)

def Pool.count (x : Pool) (st : PgSt) : Nat := x.recs.countP (fun r => r.2.st = st)

/-- R251: AVAIL. -/
def State.avail (s : State) (p : Nat) : Nat := (s.freeFrames p).length + (s.pool p).count .cached

/-- R244: the pool holds an allocated ID. -/
def Pool.live (x : Pool) : Bool := x.recs.any (fun r => r.2.st != .free)

/-- Bits 35:20 of the tick count (R249). -/
def State.useNow (s : State) : Nat := bits s.clk.tick 20 16

/-- R251: the age of a group. -/
def State.age (s : State) (r : PgRec) : Nat := (s.useNow + 65536 - r.lastUse.toNat) % 65536

/-- The oldest record of `p` that `f` accepts; a tie goes to the lower ID. -/
def State.oldest (s : State) (p : Nat) (f : PgRec → Bool) : Option Nat :=
  ((s.pool p).recs.foldl (fun (best : Option (Nat × Nat)) r =>
    if !f r.2 then best
    else match best with
      | none => some (r.1, s.age r.2)
      | some b => if b.2 < s.age r.2 then some (r.1, s.age r.2) else best) none).map Prod.fst

/-! Hash chains (R245, R259, R260) -/

def noGroup : Nat := 0xFFFFFF

def State.bucket (s : State) (p : Nat) (h : W64) : Nat := h.toNat % 2 ^ (s.desc p).hashLog2
def Pool.first (x : Pool) (b : Nat) : Nat := Tab.get noGroup x.buckets b

/-- A bucket names another first record, in Headwater and in host memory (R245). -/
def State.setBucket (s : State) (p b g : Nat) : State :=
  (s.modPool p (fun x => { x with buckets := Tab.set noGroup x.buckets b g })).vaWrite p ((s.desc p).hash + 4 * b) (leBytes 4 g)

/-- The group leaves its chain. -/
def State.unhash (s : State) (p g : Nat) : State :=
  let r := s.pg p g
  if !r.hashed then s
  else
    let b := s.bucket p r.hash
    let s := if (s.pool p).first b = g then s.setBucket p b r.next
      else match (s.pool p).recs.find? (fun x => x.2.hashed && x.2.next = g) with
        | some q => s.modPg p q.1 (fun x => { x with next := r.next })
        | none => s
    s.modPg p g (fun x => { x with hashed := false, next := noGroup })

/-- The first `n` records of a chain from `g`. -/
def State.chain (s : State) (p n g : Nat) : List Nat :=
  match n with
  | 0 => []
  | n + 1 => if g = noGroup then [] else g :: s.chain p n (s.pg p g).next

/-- Where a group's frame or cold slot lies (R245). -/
def State.groupVa (s : State) (p : Nat) (r : PgRec) : Nat :=
  let d := s.desc p
  if r.st = .cold || r.st = .restoring then d.cold + r.loc * d.groupStride else d.base + r.loc * d.groupStride

/-- R248: the token IDs of a group's trailer. -/
def State.trailerToks (s : State) (p g : Nat) : List Nat :=
  let d := s.desc p
  let bs := s.vaRead p (s.groupVa p (s.pg p g) + d.trailer) (4 * d.tok)
  (List.range d.tok).map (fun t => leNat ((bs.drop (4 * t)).take 4))

/-- R260: record `g` matches. -/
def State.matches (s : State) (p g : Nat) (h : W64) (parent : Nat) (toks : List Nat) : Bool :=
  let r := s.pg p g
  r.hash = h && r.parent = parent && [PgSt.full, .cached, .evicting, .cold, .restoring].contains r.st && r.refcnt < 65535
    && s.trailerToks p g == toks

/-- R260: a lookup of at most 8 records. -/
def State.lookup (s : State) (p : Nat) (h : W64) (parent : Nat) (toks : List Nat) : Option Nat :=
  (s.chain p 8 ((s.pool p).first (s.bucket p h))).find? (fun g => s.matches p g h parent toks)

/-- R259: the record is inserted at the head of its chain. -/
def State.hashIn (s : State) (p g : Nat) : State :=
  let r := s.pg p g
  if r.hashed || (s.lookup p r.hash r.parent (s.trailerToks p g)).isSome then s
  else
    let b := s.bucket p r.hash
    let s := s.modPg p g (fun x => { x with hashed := true, next := (s.pool p).first b })
    s.setBucket p b g

/-! References, frames and famine -/

/-- R251: a group's frame is released; it stays held while the group is pinned. -/
def State.freeGroup (s : State) (p g : Nat) : State :=
  let s := s.unhash p g
  let r := s.pg p g
  let s := match r.resident, r.pins with
    | true, n + 1 => let _ := n; s.modPool p (fun x => { x with pendFree := x.pendFree ++ [(g, r.loc)] })
    | _, _ => s
  s.setPg p g { PgRec.free with pins := r.pins }

/-- R269: FSTATE after a change of AVAIL, three transitions at most. -/
def famineStep (n avail : Nat) (d : PoolDesc) (f : Famine) : Famine :=
  match n with
  | 0 => f
  | n + 1 =>
    let f' := match f with
      | .normal => if avail < d.lowWm then .low else .normal
      | .low => if d.highWm ≤ avail then .normal else if avail < d.floorWm then .floor else .low
      | .floor => if d.lowWm ≤ avail then .low else .floor
    famineStep n avail d f'

/-- Every paused mark of a partition is cleared (R270). -/
def State.clearPaused (s : State) (p : Nat) : State :=
  s.modHw (fun h => { h with seqs := h.seqs.map (fun e => if e.1 / 16384 = p then (e.1, { e.2 with paused := false }) else e) })

/-- R269, R270: FSTATE is judged again; on the return to NORMAL the marks are cleared and the famine message goes out. -/
def State.judgeFamine (s : State) (p : Nat) : State :=
  let d := s.desc p
  if !d.active || !(s.pool p).taken then s
  else
    let old := (s.pool p).fstate
    let f := famineStep 3 (s.avail p) d old
    let s := s.modPool p (fun x => { x with fstate := f, floorSeen := x.floorSeen || f = .floor })
    if f = .normal && old != .normal then
      (s.clearPaused p).irqPending (32 + p) (bits s.glob.irqVec0 0 16) 0x02 p 0
    else s

/-- R257: a group that reached REFCNT 0 changes state according to where it is. -/
def State.unreferenced (s : State) (p g : Nat) : State :=
  let r := s.pg p g
  match r.st with
  | .evicting => s
  | .restoring => s
  | .cold => if r.hashed then s else s.setPg p g PgRec.free
  | .corrupt => s.freeGroup p g
  | .free => s
  | _ => if r.hashed then s.modPg p g (fun x => { x with st := .cached }) else s.freeGroup p g

/-- One block-table entry stops naming the group (R257). -/
def State.dropRef (s : State) (p g : Nat) : State :=
  let s := s.modPg p g (fun r => { r with refcnt := r.refcnt - 1 })
  (if (s.pg p g).refcnt = 0 then s.unreferenced p g else s).judgeFamine p

/-- R251: a CACHED group is reclaimed: it leaves its chain, its frame and ID become free. -/
def State.reclaim (s : State) (p g : Nat) : State := s.freeGroup p g

/-- R251: an ID for a new group. -/
def State.allocId (s : State) (p : Nat) : Option Nat × State :=
  match s.freeIds p with
  | x :: xs => s.pick (x :: xs)
  | [] =>
    match s.oldest p (fun r => r.st = .cold && r.refcnt = 0) with
    | some g => let s := s.unhash p g; (some g, s.setPg p g PgRec.free)
    | none =>
      match s.oldest p (fun r => r.st = .cached && r.pins = 0) with
      | some g => (some g, s.reclaim p g)
      | none => (none, s)

/-- R251: a frame: a free one, else that of the oldest CACHED group. -/
def State.allocFrame (s : State) (p : Nat) : Option Nat × State :=
  match s.freeFrames p with
  | x :: xs => s.pick (x :: xs)
  | [] =>
    match s.oldest p (fun r => r.st = .cached && r.pins = 0) with
    | some g => let f := (s.pg p g).loc; (some f, s.reclaim p g)
    | none => (none, s)

/-- R251, R263: a cold slot: a free one, else that of the oldest COLD group with REFCNT 0. -/
def State.allocSlot (s : State) (p : Nat) : Option Nat × State :=
  match s.freeSlots p with
  | x :: xs => s.pick (x :: xs)
  | [] =>
    match s.oldest p (fun r => r.st = .cold && r.refcnt = 0) with
    | some g => let f := (s.pg p g).loc; let s := s.unhash p g; (some f, s.setPg p g PgRec.free)
    | none => (none, s)

def Seq.lenOf (q : Seq) (l : Nat) : Nat := Tab.get 0 q.len l
def Seq.tlenOf (q : Seq) (l : Nat) : Nat := Tab.get 0 q.tlen l
def Seq.entry (q : Seq) (k : Nat) : Option Nat := Tab.get none q.table k
def Seq.btCap (q : Seq) : Nat := 2 ^ q.btLog2

/-- R296: the staged command has passed FENCE and WAIT_SIG, and so has its place in the order of admission (R297). -/
def State.inOrder (s : State) (y : Staged) : Bool :=
  y.st = .ready && (!waitEn y.cmd || y.sigTaken) && (!fence y.cmd || (s.ring y.cmd.ring).done = y.cmd.idx)

/-- R272: the key range of an attention command. -/
def State.keyCount (s : State) (p : Nat) (c : Cmd) : Nat :=
  if denseUse c then dkeysOf c
  else
    let x := s.seq p (sqidOf c)
    x.lenOf (layerOf c) + (if opcodeOf c = 0x05 && specBit c && x.epoch.toNat = specEpochOf c then x.tlenOf (layerOf c) else 0)

/-- R269: `n` tokens at layer `l` of sequence (p, q) from `start` need a frame: a block without a group, or one that others share. -/
def State.writeNeedsFrame (s : State) (p q start n : Nat) : Bool :=
  let t := (s.desc p).tok
  (List.range ((start + n - 1) / t - start / t + 1)).any (fun i => match (s.seq p q).entry (start / t + i) with
    | some g => 1 < (s.pg p g).refcnt
    | none => true)

/-- R269: the command needs a frame. -/
def State.needsFrame (s : State) (p : Nat) (c : Cmd) : Bool :=
  let x := s.seq p (sqidOf c)
  let cold (lo hi : Nat) : Bool := x.table.any (fun e => decide (lo ≤ e.1 ∧ e.1 < hi) && e.2.any (fun g => (s.pg p g).st = .cold))
  match opcodeOf c with
  | 0x04 => s.writeNeedsFrame p (sqidOf c) (x.lenOf (layerOf c) + (if specBit c then x.tlenOf (layerOf c) else 0)) (countOf c)
  | 0x05 => !denseUse c && cold 0 (ceilDiv (s.keyCount p c) (s.desc p).tok)
  | 0x06 => !denseUse c && cold 0 (ceilDiv (s.keyCount p c) (s.desc p).tok)
  | 0x0B => cold (firstOf c) (firstOf c + nentOf c)
  | 0x0C => cold (firstOf c) (firstOf c + nentOf c)
  | 0x0D => ngrpOf c != 0
  | _ => false

/-- R270: the sequences of `p` that wait for a frame, oldest first, with their priorities: chunks of a PREFILL that holds a share, then staged
commands in the order of admission. -/
def State.askers (s : State) (p : Nat) : List (Nat × Nat) :=
  let prio (q : Nat) : Nat := (s.seq p q).prio.toNat
  let chunk (o : Op) : Bool := o.part = p && opcodeOf o.cmd = 0x07 && o.st = .running && o.shares != 0 && o.pos < nqOf o.cmd
    && s.writeNeedsFrame p (sqidOf o.cmd) ((s.seq p (sqidOf o.cmd)).lenOf (layerOf o.cmd)) (Nat.min (chunkOf o.cmd) (nqOf o.cmd - o.pos))
  (s.hw.ops.filter chunk).map (fun o => (sqidOf o.cmd, prio (sqidOf o.cmd)))
    ++ (s.hw.staged.filter (fun x => x.part = p && s.inOrder x && s.needsFrame p x.cmd && !(s.seq p (sqidOf x.cmd)).paused)).map
      (fun x => (sqidOf x.cmd, if opcodeOf x.cmd = 0x0D then prioOf x.cmd else prio (sqidOf x.cmd)))

/-- R270: another sequence of `p` goes before `q`: one of higher priority waits, or an older waiter of the same priority. -/
def State.outranked (s : State) (p q : Nat) : Bool :=
  let mine := (s.seq p q).prio.toNat
  let l := s.askers p
  l.any (fun a => a.1 != q && mine < a.2) || (l.takeWhile (fun a => a.1 != q)).any (fun a => a.2 = mine)

/-- R269, R270: a command of sequence (p, q) may have a frame: AVAIL is above 0, its sequence is not marked paused, and in FLOOR no other
sequence goes before it. -/
def State.mayFrame (s : State) (p q : Nat) : Bool :=
  !(s.seq p q).paused && s.avail p != 0 && !((s.pool p).fstate = .floor && s.outranked p q)

/-- R270: the command receives no frame, and its sequence is marked paused. -/
def State.pause (s : State) (p q : Nat) : State :=
  if (s.seq p q).st = .free then s else s.modSeq p q (fun x => { x with paused := true })

/-- An allocation's outcome. -/
inductive Alloc where
  | got (g : Nat)
  | noId
  | famine
deriving DecidableEq, Repr

/-- R248: the reserved bytes of a group's trailer are 0. -/
def State.blankTrailer (s : State) (p g : Nat) : State :=
  let d := s.desc p
  let a := s.groupVa p (s.pg p g) + d.trailer
  (s.vaWrite p (a + 4 * d.tok) (List.replicate (512 - 4 * d.tok) 0)).vaWrite p (a + 532) (List.replicate 492 0)

/-- R251, R254: a new group, OPEN with REFCNT 1 and FILL 0. -/
def State.newGroup (s : State) (p q : Nat) : Alloc × State :=
  if !s.mayFrame p q then (.famine, s)
  else
    match s.allocId p with
    | (none, _) => (.noId, s)
    | (some g, s1) =>
      match s1.allocFrame p with
      | (none, _) => (.famine, s)
      | (some f, s2) =>
        let (i, s2) := s2.draw
        let r : PgRec := { PgRec.free with st := .opened, refcnt := 1, loc := f, next := noGroup, parent := noGroup, lastUse := Config.freeUse i }
        (.got g, ((s2.setPg p g r).blankTrailer p g).judgeFamine p)

/-! Pins (R156, R264) -/

/-- A copy of `g` no longer counts for the command that started it. -/
def Pool.jobDone (x : Pool) (opid : W32) (done other : Nat) : Pool :=
  { x with copyJobs := x.copyJobs.map (fun j => if j.opid = opid then
      { j with left := j.left - 1, done := j.done + done, other := j.other + other } else j) }

/-- R264: an operation admitted for an EVICTING group cancels its eviction. -/
def State.cancelEvict (s : State) (p g : Nat) : State :=
  let r := s.pg p g
  if r.st != .evicting then s
  else
    let s := s.setPg p g { r with st := .full, copyTo := none, forCmd := none }
    match r.forCmd with
    | some o => s.modPool p (fun x => x.jobDone o 0 1)
    | none => s

def State.pin (s : State) (p g : Nat) : State :=
  (s.cancelEvict p g).modPg p g (fun r => { r with pins := r.pins + 1, lastUse := BitVec.ofNat 16 s.useNow })

/-- R251: a pin goes; a released frame becomes free with the last one. -/
def State.unpin (s : State) (p g : Nat) : State :=
  let s := s.modPg p g (fun r => { r with pins := r.pins - 1 })
  if (s.pg p g).pins = 0 then
    (s.modPool p (fun x => { x with pendFree := x.pendFree.filter (fun f => f.1 != g) })).judgeFamine p
  else s

/-! Sequence maps (R252, R253) -/

def minOf (xs : List Nat) : Nat := match xs with | [] => 0 | x :: xs => xs.foldl Nat.min x
def maxOf (xs : List Nat) : Nat := xs.foldl Nat.max 0

/-- R253: N, the least LEN over `layers` layers. -/
def Seq.n (q : Seq) (layers : Nat) : Nat := minOf ((List.range layers).map q.lenOf)
def Seq.maxLen (q : Seq) (layers : Nat) : Nat := maxOf ((List.range layers).map q.lenOf)
def Seq.minTlen (q : Seq) (layers : Nat) : Nat := minOf ((List.range layers).map q.tlenOf)
def Seq.hasTail (q : Seq) (layers : Nat) : Bool := (List.range layers).any (fun l => q.tlenOf l != 0)

def setAll (v layers : Nat) : Tab Nat := if v = 0 then [] else (List.range layers).map (fun l => (l, v))

/-- R253: the entry is valid exactly when its block starts below the largest LEN + TLEN; entries from block `k` on are cleared, and each
group so named loses a reference (R257). -/
def State.clearFrom (s : State) (p q k : Nat) : State :=
  let gs := (s.seq p q).table.filter (fun e => k ≤ e.1)
  let s := s.modSeq p q (fun x => { x with table := x.table.filter (fun e => e.1 < k) })
  gs.foldl (fun s e => match e.2 with
    | some g => s.dropRef p g
    | none => s) s

/-- R254, R259: what a group of a sequence becomes when N has grown. -/
def State.fillBlock (s : State) (p q n k g : Nat) : State :=
  let d := s.desc p
  let r := s.pg p g
  if r.st != .opened then s
  else if n < (k + 1) * d.tok then s.setPg p g { r with fill := Nat.max r.fill (n - k * d.tok) }
  else
    let prev := match k with
      | 0 => d.seed
      | k' + 1 => (((s.seq p q).entry k').map (fun h => (s.pg p h).hash)).getD 0
    let parent := match k with
      | 0 => noGroup
      | k' + 1 => ((s.seq p q).entry k').getD noGroup
    let s := s.setPg p g { r with st := .full, fill := d.tok, hash := groupHash prev (s.trailerToks p g), parent := parent }
    s.modPool p (fun x => { x with crcJobs := x.crcJobs ++ [⟨g, q, k⟩] })

/-- R254: FILL and FULL of the sequence's groups after its lengths have changed. -/
def State.refill (s : State) (p q : Nat) : State :=
  let x := s.seq p q
  let n := x.n ((s.desc p).layersM1 + 1)
  x.table.foldl (fun s e => match e.2 with
    | some g => if e.1 * (s.desc p).tok < n then s.fillBlock p q n e.1 g else s
    | none => s) s

/-- R274, R275: the tail is discarded: `n` of its tokens commit, every TLEN is 0, the epoch rises, entries beyond are cleared. -/
def State.endTail (s : State) (p q n : Nat) : State :=
  let d := s.desc p
  let layers := d.layersM1 + 1
  let s := s.modSeq p q (fun x => { x with
    len := (List.range layers).foldl (fun t l => Tab.set 0 t l (x.lenOf l + n)) x.len, tlen := [], epoch := x.epoch + 1 })
  let top := (s.seq p q).maxLen layers
  (s.clearFrom p q (ceilDiv top d.tok)).refill p q

/-- R267: a command needs the CORRUPT group at block `k` of sequence `q`. -/
def State.corruptHit (s : State) (p q k : Nat) : State :=
  let d := s.desc p
  let layers := d.layersM1 + 1
  let s := s.modSeq p q (fun x => { x with
    len := (List.range layers).foldl (fun t l => Tab.set 0 t l (Nat.min (x.lenOf l) (k * d.tok))) x.len,
    tlen := [], epoch := x.epoch + 1 })
  s.clearFrom p q k

/-- R267: the group becomes CORRUPT and leaves its chain; `pos` is the restart position its log entry names. -/
def State.corrupt (s : State) (p g pos : Nat) (keepFrame : Bool) : State :=
  let s := (s.unhash p g).modPg p g (fun r => { r with st := .corrupt, held := keepFrame, copyTo := none, forCmd := none })
  let s := s.modPool p (fun x => { x with corrupt := bumpTo 0xFFFF x.corrupt })
  (s.note 0x16 (some p) false 2 0x80 0 g pos).countL

/-! Famine measures (R270) -/

/-- R263: a group may be evicted. -/
def PgRec.evictable (r : PgRec) : Bool := r.st = .full && r.pins = 0 && r.crcOk

/-- Bytes of a group that a copy carries: its pages and its trailer (R248). -/
def PoolDesc.groupBytes (d : PoolDesc) : Nat := d.trailer + 1024

/-- R245: where frame `f` and cold slot `c` lie. -/
def PoolDesc.frameVa (d : PoolDesc) (f : Nat) : Nat := d.base + f * d.groupStride
def PoolDesc.slotVa (d : PoolDesc) (c : Nat) : Nat := d.cold + c * d.groupStride

/-- R266, R307: the requests of a copy of `n` bytes within the space of partition `p`, reads and writes (log entry 65). -/
def State.askCopy (s : State) (p : Nat) (u : ReqUse) (src dst n : Nat) : State :=
  let ask (wr : Bool) (va : Nat) (s : State) : State := (requestsOf (n / 512 + 2) va n).foldl (fun s q =>
    match s.paOf p q.1 with
    | some pa => s.pushReq ⟨wr, p, q.1, pa, q.2, u, false, []⟩
    | none => s) s
  ask true dst (ask false src s)

/-- A request of the copy of group `g` of partition `p` is not answered. -/
def State.copyOut (s : State) (p g : Nat) : Bool := s.flying (fun r => r.part = p && r.use = .groupCopy g)

/-- R263: the eviction of `g` starts, where a cold slot is found. -/
def State.startEvict (s : State) (p g : Nat) (forCmd : Option W32) : Bool × State :=
  match s.allocSlot p with
  | (none, _) => (false, s)
  | (some c, s1) =>
    let d := s.desc p
    (true, (s1.modPg p g (fun r => { r with st := .evicting, copyTo := some c, forCmd := forCmd })).askCopy p (.groupCopy g)
      (d.frameVa (s.pg p g).loc) (d.slotVa c) d.groupBytes)

/-- R270, step 3: groups start their eviction, oldest first, until AVAIL would reach HIGH_WM. -/
def State.famineEvict (fuel : Nat) (s : State) (p : Nat) : State :=
  match fuel with
  | 0 => s
  | fuel + 1 =>
    if (s.desc p).highWm ≤ s.avail p + (s.pool p).count .evicting then s
    else
      match s.oldest p PgRec.evictable with
      | none => s
      | some g =>
        match s.startEvict p g none with
        | (true, s1) => State.famineEvict fuel s1 p
        | (false, _) => s

/-- R270, step 2: the sequence's tail holds a frame with no committed slot in any layer. -/
def Seq.tailFrame (q : Seq) (d : PoolDesc) : Bool :=
  let top := q.maxLen (d.layersM1 + 1)
  q.hasTail (d.layersM1 + 1) && q.table.any (fun e => e.2.isSome && top ≤ e.1 * d.tok)

/-- R270, R297: a reclaim acts as a SPEC_ABORT, which waits for the sequence's writers in flight. -/
def State.writerInFlight (s : State) (p q : Nat) : Bool :=
  s.hw.ops.any (fun o => o.part = p && sqidOf o.cmd = q && !([0x0E, 0x0F].contains (opcodeOf o.cmd)) && mapWrites o.cmd != .no)

/-- R270, step 2: the next sequence whose tail is reclaimed: lowest priority, then least recently used. -/
def State.tailVictim (s : State) (p : Nat) : Option Nat :=
  let d := s.desc p
  let now := bits s.clk.tick 4 32
  let key (x : Seq) : Nat × Nat := (x.prio.toNat, 2 ^ 32 - (now + 2 ^ 32 - x.lastUse.toNat) % 2 ^ 32)
  ((s.hw.seqs.filter (fun e => e.1 / 16384 = p && e.2.tailFrame d && !s.writerInFlight p (e.1 % 16384))).foldl (fun (best : Option (Nat × Nat × Nat)) e =>
    let k := key e.2
    match best with
    | none => some (e.1 % 16384, k)
    | some b => if k.1 < b.2.1 || (k.1 = b.2.1 && k.2 < b.2.2) then some (e.1 % 16384, k) else best) none).map Prod.fst

def State.famineTails (fuel : Nat) (s : State) (p : Nat) : State :=
  match fuel with
  | 0 => s
  | fuel + 1 =>
    if (s.desc p).highWm ≤ s.avail p then s
    else match s.tailVictim p with
      | none => s
      | some q => State.famineTails fuel ((s.endTail p q 0).modPool p (fun x => { x with tailReclaim := bumpTo 0xFFFF x.tailReclaim })) p

/-- R270: in LOW and FLOOR Headwater reclaims tails, then evicts. -/
def State.famineAct (s : State) (p : Nat) : State :=
  if (s.pool p).fstate = .normal then s
  else State.famineEvict ((s.pool p).recs.length + 1) (State.famineTails (s.hw.seqs.length + 1) s p) p

/-! Pages (R246, R247) -/

/-- Bits `lo + len − 1 : lo` of `x` replaced by `v`. -/
def putBitsNat (x lo len v : Nat) : Nat := x - (x / 2 ^ lo % 2 ^ len) * 2 ^ lo + (v % 2 ^ len) * 2 ^ lo

/-- The page of layer `l` of group `g`, as a little-endian number. -/
def State.page (s : State) (p g l : Nat) : Nat :=
  let d := s.desc p
  s.vaNat p (s.groupVa p (s.pg p g) + l * d.layerStride) d.pageSize

/-- R247: the elements of token slot `t` and head `h`; `key` selects the key or the value region. -/
def pageRow (d : PoolDesc) (page : Nat) (key : Bool) (t h : Nat) : List Fl :=
  let f := if key then d.kf else d.vf
  let k := if key then d.ks else d.vs
  let b := if key then d.kblk else d.vblk
  let off := if key then 0 else d.kd
  let soff := d.kd + d.vd + (if key then 0 else d.ksz)
  (List.range d.dim).map (fun e =>
    let c := page / 2 ^ (8 * off + f.width * elemIndex d key t h e) % 2 ^ f.width
    let sc := page / 2 ^ (8 * (soff + k.bytes * scaleIndex d b t h e)) % 2 ^ (8 * k.bytes)
    scaledElem k (scaleVal k sc) (ofCode f c))

/-- One head row of a token quantised into a page (R247, R49 to R51), with its counts. -/
def pageWriteRow (training : Bool) (d : PoolDesc) (key : Bool) (t h : Nat) (xs : List Fl) (page : Nat) : Nat × Counts :=
  let f := if key then d.kf else d.vf
  let k := if key then d.ks else d.vs
  let b := if key then d.kblk else d.vblk
  let off := if key then 0 else d.kd
  let soff := d.kd + d.vd + (if key then 0 else d.ksz)
  let put (page e c : Nat) : Nat := putBitsNat page (8 * off + f.width * elemIndex d key t h e) f.width c
  if k = .none then
    let cs := xs.map (convert training f)
    ((cs.zipIdx).foldl (fun page c => put page c.2 c.1.code) page,
     ⟨cs.countP Conv.sat, cs.countP (fun c => c.flush && !c.sat), 0⟩)
  else
    let bs := (chunksOf b (xs.length + 1) xs).map (quantBlock training f k)
    let page := (bs.zipIdx).foldl (fun page x =>
      putBitsNat page (8 * (soff + k.bytes * scaleIndex d b t h (x.2 * b))) (8 * k.bytes) x.1.scale) page
    (((bs.flatMap Block.codes).zipIdx).foldl (fun page c => put page c.2 c.1) page,
     ⟨(bs.map Block.sat).sum, (bs.map Block.flush).sum, 0⟩)

/-- R246: the padding of each region is written as 0. -/
def padPage (d : PoolDesc) (page : Nat) : Nat :=
  let z (page lo hi : Nat) : Nat := putBitsNat page (8 * lo) (8 * (hi - lo)) 0
  let page := z page (ceilDiv (d.tok * d.hkv * d.dim * d.kf.width) 8) d.kd
  let page := z page (d.kd + ceilDiv (d.tok * d.hkv * d.dim * d.vf.width) 8) (d.kd + d.vd)
  let page := z page (d.kd + d.vd + d.tok * d.hkv * ceilDiv d.dim d.kblk * d.ks.bytes) (d.kd + d.vd + d.ksz)
  z page (d.kd + d.vd + d.ksz + d.tok * d.hkv * ceilDiv d.dim d.vblk * d.vs.bytes) d.pageSize

/-- R247: where token slot `t` lies in a page: bit offset and width of each of its elements and scales. -/
def slotBits (d : PoolDesc) (t : Nat) : List (Nat × Nat) :=
  let part (key : Bool) (h : Nat) : List (Nat × Nat) :=
    let f := if key then d.kf else d.vf
    let k := if key then d.ks else d.vs
    let b := if key then d.kblk else d.vblk
    let off := if key then 0 else d.kd
    let soff := d.kd + d.vd + (if key then 0 else d.ksz)
    (List.range d.dim).map (fun e => (8 * off + f.width * elemIndex d key t h e, f.width))
      ++ (List.range d.dim).map (fun e => (8 * (soff + k.bytes * scaleIndex d b t h e), 8 * k.bytes))
  (List.range d.hkv).flatMap (fun h => part true h ++ part false h)

/-- A page whose token slots from `fill` on are those of page `other`. -/
def pageSplice (d : PoolDesc) (fill other page : Nat) : Nat :=
  (((List.range d.tok).drop fill).flatMap (slotBits d)).foldl (fun x b => putBitsNat x b.1 b.2 (other / 2 ^ b.1)) page

/-- R268, R272: of the group image at `va`, the slots from `fill` on hold no committed token: their bytes are free values (log entry 115). -/
def State.hideSlots (s : State) (p va fill : Nat) : State :=
  let d := s.desc p
  let n := d.pageSize
  let c := s.freeCtr
  let free (i k : Nat) : List Byte := (List.range k).map (fun j => Config.freeByte (c + i + j))
  let s := { s with freeCtr := c + (d.layersM1 + 1) * n + 4 * d.tok }
  let s := (List.range (d.layersM1 + 1)).foldl (fun s l =>
    let a := va + l * d.layerStride
    s.vaWrite p a (leBytes n (pageSplice d fill (leNat (free (l * n) n)) (s.vaNat p a n)))) s
  s.vaWrite p (va + d.trailer + 4 * fill) (free ((d.layersM1 + 1) * n) (4 * (d.tok - fill)))

/-- Key or value rows of one token, head by head, put into a page; NaN and infinity positions are the caller's. -/
def pageWriteToken (training : Bool) (d : PoolDesc) (t : Nat) (ks vs : List (List Fl)) (page : Nat) : Nat × Counts :=
  let go (key : Bool) (acc : Nat × Counts) (r : List Fl × Nat) : Nat × Counts :=
    let x := pageWriteRow training d key t r.2 r.1 acc.1
    (x.1, acc.2.add x.2)
  let a := (ks.zipIdx).foldl (go true) (page, Counts.zero)
  (vs.zipIdx).foldl (go false) a

/-- R249: the CRC of a group over its pages and the token IDs of its trailer, at address `va`. -/
def State.groupCrc (s : State) (p va : Nat) : W32 :=
  let d := s.desc p
  crc32c (((List.range (d.layersM1 + 1)).flatMap (fun l => s.vaRead p (va + l * d.layerStride) d.pageSize))
    ++ s.vaRead p (va + d.trailer) (4 * d.tok))

/-- R248: the trailer's copies of CRC, PGID, HASH and PARENT. -/
def State.writeTrailer (s : State) (p g : Nat) : State :=
  let d := s.desc p
  let r := s.pg p g
  s.vaWrite p (s.groupVa p r + d.trailer + 512)
    (leBytes 4 r.crc.toNat ++ leBytes 4 g ++ leBytes 8 r.hash.toNat ++ leBytes 4 r.parent)

/-! Taking up a pool (R245) -/

/-- R249: a record's 32 bytes decoded. -/
def pgOfBytes (bs : List Byte) : PgRec :=
  let w := BitVec.ofNat 256 (leNat bs)
  let st : PgSt := match bits w 0 3 with
    | 0 => .free | 1 => .opened | 2 => .full | 3 => .cached | 4 => .full | 5 => .cold | 6 => .cold | _ => .corrupt
  { st := st, hashed := bit w 3, crcOk := bit w 4, fill := bits w 8 8, refcnt := bits w 16 16, loc := bits w 32 32,
    hash := BitVec.ofNat 64 (bits w 64 64), parent := bits w 128 24, next := bits w 160 24, crc := BitVec.ofNat 32 (bits w 192 32),
    pins := 0, lastUse := BitVec.ofNat 16 (bits w 240 16), copyTo := none, forCmd := none, held := false }

/-- R245: a record that names no frame or slot of its own is taken as CORRUPT. -/
def takeRecord (d : PoolDesc) (used : List Nat × List Nat) (r : PgRec) : PgRec × (List Nat × List Nat) :=
  if r.st = .cold then
    if r.loc < d.coldSlots && !used.2.contains r.loc then (r, (used.1, r.loc :: used.2)) else ({ r with st := .corrupt }, used)
  else if r.resident then
    if r.loc < d.frames && !used.1.contains r.loc then (r, (r.loc :: used.1, used.2)) else ({ r with st := .corrupt }, used)
  else (r, used)

/-- R245: Headwater takes up the record table and the buckets as it finds them; a record taken in another state is written so. -/
def State.takeUpPool (s : State) (p : Nat) : State :=
  let d := s.desc p
  if (s.pool p).taken || !d.active then s
  else
    let rs := (List.range d.pgIds).foldl (fun (acc : Tab PgRec × (List Nat × List Nat)) g =>
      let x := takeRecord d acc.2 (pgOfBytes (s.vaRead p (d.metaBase + 32 * g) 32))
      (if x.1 = PgRec.free then acc.1 else acc.1 ++ [(g, x.1)], x.2)) ([], ([], []))
    let bs := (List.range (2 ^ d.hashLog2)).filterMap (fun b =>
      let g := s.vaNat p (d.hash + 4 * b) 4 % 2 ^ 24
      if g = noGroup then none else some (b, g))
    let s := (s.modPool p (fun x => { x with taken := true, recs := rs.1, buckets := bs })).judgeFamine p
    rs.1.foldl (fun s e => if e.2.st.code = s.vaNat p (d.metaBase + 32 * e.1) 1 % 8 then s else s.setPg p e.1 e.2) s

end Sys2Proof.Machine
end

