-- ==== Sys2Proof/Machine/Hw.lean ====
section
/-! DEFINITION. Headwater's shared operations: service, residency and Oxbow (R282, R298), the backlog (R299), front-end checks and
translation of a command (R296, R333), admission (R297, R303), the end of commands and operations (R292, R300). -/

namespace Sys2Proof.Machine

/-! Service -/

/-- R451: reduced service is open, full service is reached, or bring-up stopped and control commands still run (R449). -/
def State.serving (s : State) : Bool := s.fast && (s.boot.reduced || s.boot.stage = 4 || s.boot.bootFail)

/-- A partition's commands may be fetched from a ring (R314, R411, R454, R329). -/
def State.ringOpen (s : State) (r : Ring) : Bool :=
  r.enable && !r.draining && !r.waits && !bit s.ras.pstop r.part.toNat && !bit s.cfg.resetting r.part.toNat
    && (r.mgmt || s.cfg.active.enabled r.part.toNat)

/-- R286: commands of `p` fetched and not admitted; those of the backlog stand in their ring slots and are not counted (R299, log entry
126). -/
def State.stagedCount (s : State) (p : Nat) : Nat := s.hw.staged.countP (fun x => x.part = p && x.st != .backlog)

def State.stagedFor (s : State) (c : Cmd) : Option Staged := s.hw.staged.find? (fun x => x.cmd = c)

def State.unstage (s : State) (c : Cmd) : State :=
  (s.modHw (fun h => { h with staged := h.staged.filter (fun x => x.cmd != c) })).unwait (.command c.ring c.idx)

def State.modStaged (s : State) (c : Cmd) (f : Staged → Staged) : State :=
  s.modHw (fun h => { h with staged := h.staged.map (fun x => if x.cmd = c then f x else x) })

/-! Completing commands that are not operations -/

/-- A result that is one 32-bit number at byte 20 (R293). -/
def res20 (v : Nat) : BitVec 96 := BitVec.ofNat 96 (v % 2 ^ 32)
/-- A result that is an address at byte 20 (R293). -/
def resVa (va : Nat) : BitVec 96 := BitVec.ofNat 96 (va % 2 ^ 52)
/-- Two 32-bit numbers at bytes 20 and 24. -/
def res2 (a b : Nat) : BitVec 96 := BitVec.ofNat 96 (a % 2 ^ 32 + b % 2 ^ 32 * 2 ^ 32)

/-- The command leaves staging and completes. -/
def State.finish (s : State) (p : Nat) (c : Cmd) (x : Compl) : State := (s.unstage c).completeCmd p c x

/-- R293, RESOURCE_OVERFLOW with zero loop-index fields; DETAIL 0xFF: no loop table was driving. -/
def overflowC : Compl := Compl.plain 0x13 0xFF

/-- PAUSED_FAMINE: AVAIL at refusal (R293). -/
def famineC (avail : Nat) : Compl := { Compl.plain 0x11 0 with result := res20 (avail % 2 ^ 24) }

/-- The next operation tag (log entry 7). -/
def State.takeOpid (s : State) : W32 × State := (s.hw.nextOpid, s.modHw (fun h => { h with nextOpid := h.nextOpid + 1 }))

/-! Shares (R303) -/

/-- R376: S_use, the shares held, lent shares apart. -/
def State.sharesUsed (s : State) : Nat := (s.hw.ops.map (fun o => popcount o.shares)).sum

/-- The shares held; a lent share stays reserved to its partition (R347), and so does one whose operation has gone. -/
def State.sharesHeld (s : State) : Nat := (s.hw.ops.map (fun o => popcount (o.shares ||| o.lent))).sum + (s.weir.loans.map Loan.count).sum

def State.heldBy (s : State) (p : Nat) (cls : WorkClass) : Nat :=
  ((s.hw.ops.filter (fun o => o.part = p && workClass o.cmd = cls)).map (fun o => popcount (o.shares ||| o.lent))).sum
    + ((s.weir.loans.filter (fun e => e.part = p && (if e.decode then WorkClass.decode else .prefill) = cls)).map Loan.count).sum

/-- Decode shares of the other partitions' floors that stand unused, and so are reserved (R303). -/
def State.reservedFloors (s : State) (p : Nat) : Nat :=
  ((List.range 16).map (fun q => if q = p then 0 else s.floorOf q - s.heldBy q .decode)).sum

/-- R303: shares that work of class `cls` of partition `p` may take now. Decode takes free shares up to its floor, then the pool; where G is below
the sum of the floors it takes its floor whatever G is (R304). Prefill takes the pool or its own partition's idle floor. -/
def State.sharesFree (s : State) (p : Nat) (cls : WorkClass) : Nat :=
  let free := s.g - s.sharesHeld
  let pool := free - s.reservedFloors p
  let floor := s.floorOf p - s.heldBy p .decode
  match cls with
  | .decode => Nat.max (if s.g < s.floorSum then floor else Nat.min floor free) pool
  | _ => pool

/-- Tensor entries of cluster `n`: its engines hold work (R372). -/
def Cluster.idle (c : Cluster) : Bool := c.queue.isEmpty

/-- R372: a start of cluster `n`'s clock is requested. -/
def State.requestClock (s : State) (n : Nat) : State :=
  if bit s.clk.clkOn n then s else s.modClk (fun c => { c with startReq := c.startReq ||| oneHot 32 n })

/-- R372, R442: the clock of cluster `n` starts; its CLK_START record gives the stopped time. -/
def State.startClock (s : State) (n : Nat) : State :=
  if bit s.clk.clkOn n then s
  else
    let since := Tab.get 0 s.clk.clStoppedAt n
    let s := s.modClk (fun c => { c with clkOn := c.clkOn ||| oneHot 32 n, startReq := putBit c.startReq n false, clStoppedAt := Tab.set 0 c.clStoppedAt n 0 })
    s.trace 0x07 (s.clPart n) (BitVec.ofNat 8 n) 0 0 (s.clk.tick - since).toNat

/-- R372, R443: the clock of cluster `n` stops. -/
def State.stopClock (s : State) (n : Nat) : State :=
  if !bit s.clk.clkOn n then s.modClk (fun c => { c with startReq := putBit c.startReq n false })
  else
    let s := s.modClk (fun c => { c with clkOn := putBit c.clkOn n false, startReq := putBit c.startReq n false, clStoppedAt := Tab.set 0 c.clStoppedAt n c.tick })
    s.trace 0x06 (s.clPart n) (BitVec.ofNat 8 n) 0 0 0

/-- R303: operation `o` receives up to `k` shares on clusters of its own that hold none, lowest first; their clocks are asked to start. -/
def State.grantShares (s : State) (o : Op) (k : Nat) : State :=
  let want := (setList (o.clusters &&& ~~~o.shares &&& ~~~o.lent)).filter s.inService
  let take := want.take k
  let o' := { o with shares := take.foldl (fun w n => w ||| oneHot 32 n) o.shares }
  (take.foldl State.requestClock (s.setOp o')).modWeir (fun w => { w with prewoken := w.prewoken &&& ~~~o'.shares })

/-! Residency and Oxbow (R278, R282, R298) -/

def SeqSt.resident : SeqSt → Bool
  | .free => false | .spilled => false | _ => true

def State.residentOf (s : State) (p : Nat) : Nat := s.hw.seqs.countP (fun e => e.1 / 16384 = p && e.2.st.resident)
def State.resident (s : State) : Nat := s.hw.seqs.countP (fun e => e.2.st.resident)

/-- R278: the lowest slot of the context table that no resident sequence holds. -/
def State.freeSlot (s : State) : Option Nat :=
  let used := s.hw.seqs.filterMap (fun e => e.2.slot)
  (List.range (Nat.min Config.contexts (used.length + 1))).find? (fun k => !used.contains k)

/-- R279: the state's code. -/
def SeqSt.code : SeqSt → Nat
  | .free => 0 | .idle => 1 | .active => 2 | .killed => 3 | .releasing => 4 | .spilled => 5

/-- R280: the 256 bytes of a context record. -/
def seqRecord (p q : Nat) (x : Seq) : List Byte :=
  [BitVec.ofNat 8 (x.st.code + (if x.paused then 8 else 0) + 16 * p), 0] ++ leBytes 2 q ++ [BitVec.ofNat 8 x.prio.toNat]
    ++ leBytes 1 x.btLog2 ++ leBytes 2 x.epoch.toNat ++ leBytes 8 x.map ++ leBytes 4 x.promptLen.toNat ++ leBytes 4 x.reused.toNat
    ++ leBytes 2 x.inflight ++ leBytes 2 x.backlogged ++ leBytes 4 x.lastUse.toNat ++ leBytes 8 x.progress.toNat
    ++ leBytes 8 x.admitTick.toNat ++ leBytes 4 x.lastOpid.toNat ++ leBytes 2 x.lastRing ++ List.replicate 74 0
    ++ leBytes 128 x.work.toNat

/-- R282: where a record lies in Oxbow. -/
def State.oxbowVa (s : State) (p q : Nat) : Nat := bits (s.hw.oxbow.getD 0) 26 26 * 2 ^ 26 + seqKey p q * 256

/-- R282, R333: an access to the record of (p, q) in Oxbow: whether it proceeds, and the state after, in which a hard fault is a class P
fault of `p`. An unset base is a hard fault (log entry 112). -/
def State.oxbowAccess (s : State) (p q : Nat) (write : Bool) : Bool × State :=
  let a := s.oxbowVa p q
  if !s.hw.oxbow.isSome then (false, s.classP p 0x15 a)
  else
    match s.judgeStruct 16 write a 256 with
    | .ok => (true, s)
    | .held => (false, s)
    | .hard => (false, s.classP p 0x15 a)

/-- R282: the record of (p, q) is in the block, or is read from Oxbow. -/
def State.recordAccess (s : State) (p q : Nat) : Bool × State :=
  if (s.seq p q).st = .spilled then
    match s.oxbowAccess p q false with
    | (true, s) => (true, s.light .other (.context p q) false 16 (s.oxbowVa p q) 256)
    | (false, s) => (false, s)
  else (true, s)

/-- R282: a context is spilled to Oxbow. -/
def State.spill (s : State) (p q : Nat) : State :=
  let x := s.seq p q
  (s.lightWrite .other (.partition p) 16 (s.oxbowVa p q) (seqRecord p q x)).setSeq p q { x with st := .spilled, slot := none }

/-- R298: the age of a context. -/
def State.ctxAge (s : State) (x : Seq) : Nat := (bits s.clk.tick 4 32 + 2 ^ 32 - x.lastUse.toNat) % 2 ^ 32

/-- R298: the victim of a partition: its IDLE context of greatest age, the lower SQID on a tie; the context `keep`, which the command itself
needs, is none. -/
def State.ctxVictim (s : State) (p keep : Nat) : Option Nat :=
  ((s.hw.seqs.filter (fun e => e.1 / 16384 = p && e.1 != keep && e.2.st = .idle && e.2.backlogged = 0)).foldl
    (fun (best : Option (Nat × Nat)) e => match best with
      | none => some (e.1 % 16384, s.ctxAge e.2)
      | some b => if b.2 < s.ctxAge e.2 then some (e.1 % 16384, s.ctxAge e.2) else best) none).map Prod.fst

/-- R298: the partition whose context is spilled for `p`: `p` itself above its CTX_MIN, else the one with most residents above its own
(log entry 112). -/
def State.victimPart (s : State) (p : Nat) : Option Nat :=
  let above (q : Nat) : Nat := s.residentOf q - s.cfg.active.ctxMin q
  if 0 < above p then some p
  else ((List.range 16).foldl (fun (best : Option (Nat × Nat)) q =>
    if above q = 0 then best
    else match best with
      | none => some (q, above q)
      | some b => if b.2 < above q then some (q, above q) else best) none).map Prod.fst

/-- R298: a free slot for `p`, spilling a victim other than the context `keep` where none is free; false where no victim is eligible or its
record cannot be written. -/
def State.obtainSlot (s : State) (p keep : Nat) : Bool × State :=
  if s.resident < Config.contexts then (true, s)
  else
    match s.victimPart p with
    | none => (false, s)
    | some vp =>
      match s.ctxVictim vp keep with
      | none => (false, s)
      | some q =>
        match s.oxbowAccess vp q true with
        | (true, s) => (true, s.spill vp q)
        | (false, s) => (false, s)

/-- R282: a spilled context returns to a slot. -/
def State.unspill (s : State) (p q : Nat) : State := s.modSeq p q (fun x => { x with st := .idle, slot := s.freeSlot })

/-! The backlog (R299, R300) -/

def State.backlog (s : State) (p : Nat) : List Blog := Tab.get [] s.hw.backlogs p

/-- R299: the entries in host memory follow the backlog, the head at the partition's first slot (log entry 23). Entries whose page is held
wait in the block, and a RESOLVE of the page writes them (R333). -/
def State.setBacklog (s : State) (p : Nat) (l : List Blog) : State :=
  let s := s.modHw (fun h => { h with backlogs := Tab.set [] h.backlogs p l })
  match s.hw.backlogBase with
  | none => s
  | some b =>
    let a := bits b 20 32 * 2 ^ 20 + p * 0x10000
    if l.isEmpty then s
    else
      match s.judgeStruct 16 true a (16 * l.length) with
      | .hard => s.classP p 0x15 a
      | .held => s
      | .ok => (l.zipIdx).foldl (fun s e => s.lightWrite .other (.partition p) 16 (a + 16 * e.2) (leBytes 4 e.1.ring ++ leBytes 4 e.1.idx.toNat ++ leBytes 8 e.1.tick.toNat)) s

/-- The command names sequence `q`: its own, or the child of a FORK. -/
def namesSeq (c : Cmd) (q : Nat) : Bool :=
  !([0x0E, 0x0F].contains (opcodeOf c)) && (sqidOf c = q || (opcodeOf c = 0x03 && childOf c = q))

/-- R280, R299: backlog entries that name the sequence. -/
def State.backlogCount (s : State) (p q : Nat) : Nat := s.hw.staged.countP (fun x => x.part = p && x.st = .backlog && namesSeq x.cmd q)

/-- R299: the command names a sequence that the backlog already names. -/
def State.backlogHolds (s : State) (p : Nat) (c : Cmd) : Bool :=
  (namesSeq c (sqidOf c) && s.backlogCount p (sqidOf c) != 0) || (opcodeOf c = 0x03 && s.backlogCount p (childOf c) != 0)

/-- R280: BACKLOGGED of sequence `q` after the backlog changed; a resident sequence without work is IDLE where no backlog entry names it,
ACTIVE where one does (R279, log entry 126). -/
def State.recount (s : State) (p q : Nat) : State :=
  let x := s.seq p q
  let n := s.backlogCount p q
  if x.st = .free || x.backlogged = n then s
  else s.setSeq p q { x with backlogged := n, st := if x.st = .active && x.inflight = 0 && n = 0 then .idle
    else if x.st = .idle && n != 0 then .active else x.st }

/-- `BACKLOGGED` of the sequences a command names. -/
def State.recountFor (s : State) (p : Nat) (c : Cmd) : State :=
  let s := s.recount p (sqidOf c)
  if opcodeOf c = 0x03 then s.recount p (childOf c) else s

/-- The command that left the backlog of `p` as its head and is not yet admitted (R299). -/
def State.retriedHead (s : State) (p : Nat) : Option Staged := s.hw.staged.find? (fun x => x.part = p && x.retried.isSome)

/-- R299, R300: the command joins the backlog, or completes DEFERRED where it is full; one that was the backlog's head is its head again. -/
def State.defer (s : State) (p : Nat) (c : Cmd) : State :=
  match (s.stagedFor c).bind Staged.retried with
  | some t =>
    let s := s.setBacklog p (⟨c.ring, c.idx, t⟩ :: s.backlog p)
    (s.modStaged c (fun x => { x with st := .backlog, retried := none })).recountFor p c
  | none =>
    if Config.backlogMax ≤ (s.backlog p).length + (if (s.retriedHead p).isSome then 1 else 0) then
      let s := s.modHw (fun h => { h with deferred := Tab.set 0 h.deferred p (bumpTo 0xFFFF (Tab.get 0 h.deferred p)) })
      s.finish p c { Compl.plain 0x10 0 with result := res20 4096 }
    else
      let s := s.setBacklog p (s.backlog p ++ [⟨c.ring, c.idx, s.clk.tick⟩])
      (s.modStaged c (fun x => { x with st := .backlog })).recountFor p c

/-! Killing a sequence (R301, R380) and ending operations -/

/-- Bytes 20 to 31 of a record with NANINF: tile, row, column (R293). -/
def resNan (x : Nat × Nat × Nat) : BitVec 96 :=
  BitVec.ofNat 96 (x.1 % 2 ^ 32 + x.2.1 % 2 ^ 16 * 2 ^ 32 + x.2.2 % 2 ^ 16 * 2 ^ 48)

/-- R233: the status of an operation's end: 0x10 and above as they stand; DONE_UNVERIFIED over DONE_LATE over DONE. -/
def finalStatus (o : Op) (status : Nat) : Nat :=
  let st := Nat.max status (if 0x10 ≤ o.status.toNat then o.status.toNat else 0)
  if 0x10 ≤ st then st else if o.unverified then 0x01 else if o.late then 0x02 else st

/-- R293: a row above that of `NANINF` gives the contents of RESULT. -/
def resultTaken (status detail : Nat) : Bool :=
  [0x13, 0xF0, 0x50, 0x31, 0x30, 0x11, 0x10].contains status || (status = 0x22 && (detail = 0x0D || detail = 0x40 || 0x80 ≤ detail))

/-- The completion of an operation (R292, R293). -/
def opCompl (o : Op) (status detail : Nat) (result : BitVec 96) : Compl :=
  let st := finalStatus o status
  let own := status = st
  let det := if own then detail else o.detail.toNat
  let base := if own then result else o.result
  { status := st, detail := det, opid := o.opid, epoch := o.epochFound.toNat,
    sat := Nat.min o.sat 0xFFFF, flush := Nat.min o.flush 0xFFFF, nansc := Nat.min o.nansc 0xFFFF, masked := Nat.min o.masked 0xFFFF,
    naninf := o.naninf.isSome,
    result := match o.naninf with
      | some x => if resultTaken st det then base else resNan x
      | none => base }

/-- R417: the pairs of an operation enter it on their lists and count it. -/
def State.servedBy (s : State) (o : Op) : State :=
  let e : Served := ⟨o.part, o.cmd.ring, o.cmd.idx, o.opid⟩
  let f (x : Pair) : Pair := { x with served := x.served ++ [e], sinceTest := x.sinceTest + 1, servedTotal := x.servedTotal + 1 }
  (pairsOf o.clusters).foldl (fun s k => s.modPair k f) s

/-- A pair freed by an operation of partition `p` (R202). -/
def Pair.freed (x : Pair) (p : Nat) : Pair :=
  { x with op := none, st := if x.lsFail || x.testDue then .stopped else .idle, lastPart := some p, swait := none, tmovs := [], lent := false,
           recalled := false }

/-- R347: operation `o` gives up what it has lent on the clusters `m`: a pair that has not recalled it sends RECALL, and the shares come
back without the operation. -/
def State.leaveLoans (s : State) (o : Op) (m : BitVec 32) : State :=
  (List.range 8).foldl (fun s sp =>
    let n := popcount (o.lent &&& m &&& BitVec.ofNat 32 (15 * 2 ^ (4 * sp)))
    if n = 0 then s
    else
      let s := if s.weir.recalls.contains sp then s
        else (s.pmOut 0xA o.part n 0).trace 0x0B o.part (BitVec.ofNat 8 (0x40 + sp)) o.opid 1 n
      s.modWeir (fun v => { v with recalls := v.recalls.filter (· != sp), loans := v.loans ++ [⟨sp, o.part, workClass o.cmd = .decode, n⟩] })) s

/-- The pairs of an operation become free; its partition is that of their last operation (R202). -/
def State.freePairs (s : State) (o : Op) : State :=
  (List.range 8).foldl (fun s k =>
    let x := s.pair k
    if x.op = some o.opid then
      (s.setPair k (x.freed o.part)).unwait (.pair k)
    else if (pairsOf o.clusters).contains k then s.setPair k { x with lastPart := some o.part }
    else s) s

/-- The sequence of a finished command: one fewer in flight; IDLE again when none is left (R279). -/
def State.seqDone (s : State) (p q : Nat) : State :=
  let x := s.seq p q
  if x.st = .free then s
  else
    let n := x.inflight - 1
    s.setSeq p q { x with inflight := n, st := if x.st = .active && n = 0 && x.backlogged = 0 then .idle else x.st }

/-- A record for the partition's resume ring (R337): it waits while the ring is full; its signal is raised once it is written. -/
def State.resumeRecord (s : State) (p : Nat) (w : BitVec 256) (sig : Option Nat) : State :=
  let t := s.ptReg p
  if 64 ≤ (t.rringTail - t.rringHead).toNat || !t.rringWait.isEmpty then s.setPt p { t with rringWait := t.rringWait ++ [(w, sig)] }
  else
    let a := bits t.rring 11 41 * 2048 + 32 * (t.rringTail.toNat % 64)
    match s.judgeStruct p true a 32 with
    | .ok =>
      let w := putBit w 16 (phaseOf t.rringTail.toNat 64)
      let s := ((s.lightWrite .record (.partition p) p a (leBytes 32 w.toNat)).setPt p { t with rringTail := t.rringTail + 1 }).irqPending (48 + p)
        (bits s.glob.irqVec0 48 16) 0x05 p (bits w 32 32)
      match sig with
      | some n => s.raise n
      | none => s
    | .held => s.setPt p { t with rringWait := t.rringWait ++ [(w, sig)] }
    | .hard => s.classP p 0x15 a

/-- R337: records that waited for room in the resume ring go out. -/
def State.retryResume (s : State) (p : Nat) : State :=
  let l := (s.ptReg p).rringWait
  l.foldl (fun s w => s.resumeRecord p w.1 w.2) (s.modPt p (fun t => { t with rringWait := [] }))

/-- A RELEASE that waits for its sequence's operations, when the last has gone (R156, R257): its groups go and the SQID is FREE. -/
def State.releaseNow (s : State) (p q : Nat) : State :=
  (s.clearFrom p q 0).setSeq p q Seq.free

/-- R310: the operations that report a progress word. -/
def isLong (c : Cmd) : Bool := [0x06, 0x07, 0x0C, 0x0D].contains (opcodeOf c)

/-- R310: the context record shows the word of the sequence's oldest long operation in flight; with none it keeps the last word. -/
def State.showProgress (s : State) (p q : Nat) : State :=
  match s.hw.ops.find? (fun o => o.part = p && sqidOf o.cmd = q && isLong o.cmd) with
  | some o => if (s.seq p q).st = .free then s else s.modSeq p q (fun x => { x with progress := o.progress })
  | none => s

/-- Groups that were to be copies for operation `o`, whose copies have not ended, go with it (R256). -/
def State.dropCopies (s : State) (o : Op) : State :=
  let mine := (s.pool o.part).recs.filter (fun r => r.2.st = .opened && r.2.copyTo.isSome && r.2.forCmd = some o.opid)
  mine.foldl (fun s r => (s.modPg o.part r.1 (fun x => { x with copyTo := none, forCmd := none })).dropRef o.part r.1) s

/-- A command that halted before it created its sequence: no sequence counts it. -/
def Op.unborn (o : Op) : Bool := !o.begun && [0x01, 0x0D].contains (opcodeOf o.cmd)

/-- What an ended operation held goes: pins, copies, shares, pairs, in-flight count, PT_KILL.GO. -/
def State.freeOp (s : State) (o : Op) : State :=
  let s := o.pins.foldl (fun s g => s.unpin o.part g) s
  let s := (((s.dropCopies o).leaveLoans o o.lent).freePairs o).dropOp o.opid
  let s := if opcodeOf o.cmd = 0x0F || o.unborn then s else (s.seqDone o.part (sqidOf o.cmd)).showProgress o.part (sqidOf o.cmd)
  let live := s.hw.ops.any (fun x => x.part = o.part && sqidOf x.cmd = (s.ptReg o.part).killSqid.toNat && !([0x02, 0x0F].contains (opcodeOf x.cmd)))
  if live then s else s.modPt o.part (fun t => { t with killGo := false })

/-- An operation completes: its record goes to its ring, or to the resume ring once it has been held; a command that joined its work
loses its late partials (R155). -/
def State.endOp (s : State) (opid : W32) (status detail : Nat) (result : BitVec 96) : State :=
  match s.op opid with
  | none => s
  | some o =>
    let x := opCompl o status detail result
    let s := (s.servedBy o).freeOp o
    if o.resumed || o.st = .held then
      let s := if isClassL x.status x.detail then s.countL else s
      let s := s.trace 0x04 o.part 0x80 o.opid x.status x.detail
      s.resumeRecord o.part (recordOf (opcodeOf o.cmd) (sqidOf o.cmd) x)
        (if raiseEn o.cmd && o.set.owns o.part (raiseSig o.cmd) then some (raiseSig o.cmd) else none)
    else s.completeUnder o.set o.part o.cmd x

/-- R337: a partition holds as many held operations as it may. -/
def State.heldFull (s : State) (p : Nat) : Bool := Config.heldMax ≤ s.hw.ops.countP (fun x => x.part = p && x.st = .held)

/-- R337: an operation halts at `va`: its record is HALTED_DMA_FAULT, its shares go back, it keeps clusters, pairs and state. While the
partition's held operations are as many as it may hold, it does not fault but stalls. -/
def State.haltOp (s : State) (opid : W32) (va : Nat) : State :=
  match s.op opid with
  | none => s
  | some o =>
    if o.st = .held || s.heldFull o.part then s
    else
      let x := { opCompl o 0x31 0 0 with status := 0x31, detail := 0, result := BitVec.ofNat 96 (va % 2 ^ 52 + bits o.progress 0 32 * 2 ^ 64) }
      let s := (s.leaveLoans o o.lent).setOp { o with st := .held, shares := 0, lent := 0, faultVa := va, resumed := true }
      let s := (List.range 8).foldl (fun s k => if (s.pair k).op = some opid then s.modPair k (fun y => { y with st := .heldDma, lent := false, recalled := false }) else s) s
      s.completeUnder o.set o.part o.cmd x

/-- A staged command of sequence (p, q) other than RELEASE that the front end has passed on. -/
def laterOf (p q : Nat) (x : Staged) : Bool :=
  x.part = p && sqidOf x.cmd = q && !([0x02, 0x0E, 0x0F].contains (opcodeOf x.cmd)) && (x.st = .ready || x.st = .heldPage)

/-- R301, R380: the sequence becomes KILLED, its operations complete KILLED_TRANSLATION with `va`, and its commands that wait to be admitted
complete so at once. -/
def State.kill (s : State) (p q va : Nat) : State :=
  let s := if (s.seq p q).st = .free then s else s.modSeq p q (fun x => { x with st := .killed })
  let s := (s.hw.ops.filter (fun o => o.part = p && sqidOf o.cmd = q && !([0x02, 0x0F].contains (opcodeOf o.cmd)))).foldl
    (fun s o => s.endOp o.opid 0x30 0 (resVa va)) s
  (s.hw.staged.filter (laterOf p q)).foldl (fun s x => s.finish p x.cmd (Compl.plain 0x30 0)) s

/-! The front end (R296) -/

/-- Element bytes of an operand of `n` elements in format code `f`. -/
def opdBytes (n f : Nat) : Nat := ceilDiv (n * ((Fmt.ofCode f).getD .w32).width) 8

/-- The shape of an attention command (R131). -/
structure Shape where
  hkv : Nat
  g : Nat
  d : Nat
  nq : Nat
deriving DecidableEq, Repr

def shapeOf (d : PoolDesc) (c : Cmd) : Shape :=
  if denseUse c then ⟨hkvM1Of c + 1, gOf c, 16 * cdim16Of c, nqOf c⟩ else ⟨d.hkv, gOf c, d.dim, nqOf c⟩

def Shape.hq (x : Shape) : Nat := x.hkv * x.g
/-- Elements of a query-shaped operand. -/
def Shape.qElems (x : Shape) : Nat := x.nq * x.hq * x.d

/-- R462: bytes of an output of `rows` rows of `d` elements. -/
def outLen (pd : PoolDesc) (f rows d : Nat) : Nat :=
  let data := opdBytes (rows * d) f
  if 6 ≤ f then padTo 64 data + rows * ceilDiv d pd.vblk * (if pd.vs = .none then 1 else pd.vs.bytes) else data

/-- The format code in which fabric tiles of queries, keys and values arrive: CF16, since R290 ignores their entries (log entry 127). -/
def feedFmt : Nat := 1
/-- The format code of a query operand that came over the fabric: I8, and CF16 as it came where the product mode is P2 or P3 (R134, log entry 127). -/
def fedFmt (c : Cmd) : Nat := if (PMode.ofCode (pmOf c)).getD .native = .native then 4 else feedFmt

/-- The format of the query operand as it stands after ingest. -/
def queryFmt (c : Cmd) (b : OpBlock) : Nat := if fiEn c then fedFmt c else entryFmt b 0

/-- R360: bytes of fabric input that a built-in command takes in all. -/
def inputBytes (pd : PoolDesc) (c : Cmd) : Nat :=
  let kv (n : Nat) : Nat := opdBytes (n * 2 * pd.hkv * pd.dim) feedFmt
  let x := shapeOf pd c
  if !fiEn c then 0
  else match opcodeOf c with
    | 0x04 => kv (countOf c)
    | 0x05 => opdBytes x.qElems feedFmt
    | 0x06 => opdBytes x.qElems feedFmt
    | 0x07 =>
      let n := ceilDiv x.nq (chunkOf c)
      ((List.range n).map (fun i =>
        let k := Nat.min (chunkOf c) (x.nq - i * chunkOf c)
        kv k + opdBytes (k * x.hq * x.d) feedFmt)).sum
    | _ => 0

/-- R361: flits of the first output tile of a fabric-bound command; a RUN_PROGRAM's is not known before it runs (log entry 30). -/
def firstFlits (pd : PoolDesc) (c : Cmd) : Nat :=
  let x := shapeOf pd c
  let bytes (n : Nat) : Nat := Nat.max 1 (ceilDiv (Nat.min 65536 (outLen pd (outfmtOf c) n x.d)) 128)
  if !foEn c then 0
  else match opcodeOf c with
    | 0x05 => bytes (x.nq * x.hq)
    | 0x06 => bytes (x.nq * x.hq)
    | 0x07 => bytes (Nat.min (chunkOf c) x.nq * x.hq)
    | 0x0F => 1
    | _ => 0

/-- The address ranges a command's fields and operand block name (R289, R290), with how R332 classes them; `keys` is the key range of an
attention command. Of a peer list, whose length the spec does not give, the first entry of 8 bytes is judged (log entry 128). -/
def namedOpds (p : Nat) (pd : PoolDesc) (c : Cmd) (b : OpBlock) (keys : Nat) : List Opd :=
  let op := opcodeOf c
  let rd (i len : Nat) : List Opd := if entryAddr b i = 0 then [] else [⟨p, .compute, false, entryAddr b i, len⟩]
  let wr (i len : Nat) : List Opd := if entryAddr b i = 0 then [] else [⟨p, .compute, true, entryAddr b i, len⟩]
  let map (va lg : Nat) : Opd := ⟨p, .compute, true, va, 2048 + 4 * 2 ^ lg⟩
  let grp := pd.trailer + 1024
  let x := shapeOf pd c
  let qb := opdBytes x.qElems (entryFmt b 0)
  let kb (i : Nat) : Nat := opdBytes (keys * x.hkv * x.d) (entryFmt b i)
  let grad := outLen pd (outfmtOf c) (keys * x.hkv) x.d
  match op with
  | 0x01 => [map (mapOf c) (btLog2Of c)] ++ (if promptLenOf c = 0 then [] else [⟨p, .other, false, argsOf c, 4 * promptLenOf c⟩])
  | 0x03 => [map (mapOf c) (btLog2Of c)]
  | 0x04 => [⟨p, .compute, false, argsOf c, 128⟩] ++ (if fiEn c then [] else rd 11 (opdBytes (countOf c * 2 * pd.hkv * pd.dim) (entryFmt b 11)))
      ++ (if countOf c ≤ 1 then [] else rd 10 (4 * (countOf c - 1))) ++ rd 12 8
  | 0x05 => [⟨p, .compute, false, argsOf c, 128⟩] ++ (if fiEn c then [] else rd 0 qb)
      ++ (if foEn c then [] else wr 1 (outLen pd (outfmtOf c) (x.nq * x.hq) x.d)) ++ wr 2 (4 * x.nq * x.hq)
      ++ (if bmOf c then rd 3 8192 else []) ++ (if denseUse c then rd 4 (kb 4) ++ rd 5 (kb 5) else []) ++ rd 12 8
  | 0x06 => [⟨p, .compute, false, argsOf c, 128⟩] ++ (if fiEn c then [] else rd 0 qb) ++ rd 1 (outLen pd (entryFmt b 1) (x.nq * x.hq) x.d)
      ++ rd 2 (4 * x.nq * x.hq) ++ (if bmOf c then rd 3 8192 else []) ++ (if denseUse c then rd 4 (kb 4) ++ rd 5 (kb 5) else [])
      ++ rd 6 (opdBytes x.qElems (entryFmt b 6)) ++ (if foEn c then [] else wr 7 (outLen pd (outfmtOf c) (x.nq * x.hq) x.d))
      ++ wr 8 grad ++ wr 9 grad ++ rd 12 8
  | 0x07 => [⟨p, .compute, false, argsOf c, 128⟩] ++ (if fiEn c then [] else rd 0 qb
      ++ rd 11 (opdBytes (x.nq * 2 * pd.hkv * pd.dim) (entryFmt b 11)))
      ++ (if foEn c then [] else wr 1 (outLen pd (outfmtOf c) (x.nq * x.hq) x.d)) ++ wr 2 (4 * x.nq * x.hq) ++ rd 10 (4 * x.nq) ++ rd 12 8
  | 0x0C => [⟨p, .other, true, argsOf c, nentOf c * grp⟩]
  | 0x0D => [map (mapOf c) (btLog2Of c), ⟨p, .other, false, argsOf c, ngrpOf c * grp⟩]
  | 0x0F => if argLenOf c = 0 then [] else [⟨p, .compute, false, argsOf c, argLenOf c⟩]
  | _ => []

/-- The map of an existing sequence that a command uses, and the tables of its pool (R332): the record table always, the hash buckets where
groups may become full or go. -/
def State.mapOpds (s : State) (p : Nat) (c : Cmd) : List Opd :=
  let op := opcodeOf c
  if !([0x03, 0x04, 0x05, 0x06, 0x07, 0x08, 0x09].contains op) || denseUse c then []
  else
    let d := s.desc p
    let x := s.seq p (sqidOf c)
    (if x.st = .free then [] else [⟨p, .compute, [0x04, 0x07, 0x08, 0x09].contains op, x.map, 2048 + 4 * 2 ^ x.btLog2⟩])
      ++ [⟨p, .compute, true, d.metaBase, 32 * d.pgIds⟩]
      ++ (if [0x04, 0x07, 0x08, 0x09].contains op then [⟨p, .compute, true, d.hash, 4 * 2 ^ d.hashLog2⟩] else [])

/-- The pages of resident groups that a command of sequence (p, q) reads or writes (R332: the pool). -/
def State.poolOpds (s : State) (p : Nat) (c : Cmd) : List Opd :=
  let op := opcodeOf c
  if !([0x04, 0x05, 0x06, 0x07].contains op) || denseUse c then []
  else
    let d := s.desc p
    (s.seq p (sqidOf c)).table.filterMap (fun e => match e.2 with
      | some g =>
        let r := s.pg p g
        if r.resident then some ⟨p, .compute, op = 0x04 || op = 0x07, s.groupVa p r + layerOf c * d.layerStride, d.pageSize⟩ else none
      | none => none)

/-- The operand block of a command where it can be read (R290). -/
def State.blockOf (s : State) (p : Nat) (c : Cmd) : Option OpBlock :=
  if hasBlock c && argsOf c % 64 = 0 && argsOf c != 0 && (s.judgeOpd ⟨p, .compute, false, argsOf c, 128⟩).1 = .ok then
    some (OpBlock.ofBytes (s.vaRead p (argsOf c) 128))
  else none

/-- R333: the outcome of a command's translation: hard for a compute operand before hard for another, hard before held. -/
inductive TransRes where
  | ok
  /-- the page of this address has still to be walked (R334) -/
  | miss (va : Nat)
  | held (va : Nat)
  | hardCompute (va : Nat)
  | hardOther (va : Nat)
deriving DecidableEq, Repr

/-- Every address range that a command uses (R289, R332). -/
def State.cmdOpds (s : State) (p : Nat) (c : Cmd) : List Opd :=
  namedOpds p (s.desc p) c ((s.blockOf p c).getD []) (s.keyCount p c) ++ s.mapOpds p c ++ s.poolOpds p c

/-- R334: the first page of the ranges `os` that no TLB holds and no walk has looked for. -/
def State.firstMiss (s : State) (walked : List Nat) (os : List Opd) : Option Nat :=
  os.findSome? (fun o => (o.pages.find? (fun pg => !walked.contains pg && !s.tlbHas o.space (o.at pg))).map o.at)

/-- R333, R334: a staged command is translated, once every page of it has been found in a TLB or walked. -/
def State.translate (s : State) (p : Nat) (c : Cmd) : TransRes × State :=
  let os := s.cmdOpds p c
  let vs := os.map (fun o => (o.kind, s.judgeOpd o))
  let s' := os.foldl State.touchOpd s
  match s.firstMiss (((s.stagedFor c).map Staged.walked).getD []) os with
  | some va => (.miss va, s')
  | none =>
  (match vs.find? (fun v => v.1 = .compute && v.2.1 = .hard) with
    | some v => .hardCompute v.2.2
    | none =>
      match vs.find? (fun v => v.2.1 = .hard) with
      | some v => .hardOther v.2.2
      | none =>
        match vs.find? (fun v => v.2.1 = .held) with
        | some v => .held v.2.2
        | none => .ok, s')

/-! Misses and walkers (R334, R335) -/

/-- R334: a miss joins the walk of its page, or its partition's queue: beside a miss to the same page, or while fewer than 64 pages are queued. -/
def State.queueMiss (s : State) (p : Nat) (m : Miss) : State :=
  let l := Tab.get [] s.tr.misses p
  let same (w : Walker) : Bool := w.space = p && w.misses.any (fun x => x.page = m.page)
  if s.tr.walkers.any same then
    s.modTr (fun t => { t with walkers := t.walkers.map (fun w => if same w then { w with misses := w.misses ++ [m] } else w) })
  else if l.any (fun x => x.page = m.page) || (l.map Miss.page).eraseDups.length < 64 then
    s.modTr (fun t => { t with misses := Tab.set [] t.misses p (l ++ [m]) })
  else s

/-- R335: the partition whose head miss a free walker takes: in turn, one that holds no walker first. -/
def State.nextWalk (s : State) : Option Nat :=
  let waiting := (List.range 17).filter (fun p => !(Tab.get [] s.tr.misses p).isEmpty)
  let bare := waiting.filter (fun p => !s.tr.walkers.any (fun w => w.space = p))
  nextTurn s.tr.walkTurn (if bare.isEmpty then waiting else bare)

/-- R197, R330: read `k` of the walk for page `page` of `space` is made, where the walk has one. -/
def State.walkRead (s : State) (space page k : Nat) : State :=
  match (walkReads s.mem (s.rootOf space) (page * 2 ^ 25))[k]? with
  | some pa => (s.modHw (fun h => { h with light := h.light ++ [(false, ⟨false, space, page * 2 ^ 25, pa, 8, .light .table (.walk page k), false, []⟩)] })).tagLight
  | none => s

/-- The request is a read of the walk for page `page` of `space`. -/
def Req.ofWalk (r : Req) (space page : Nat) : Bool :=
  match r.use with
  | .light _ (.walk pg _) => r.part = space && pg = page
  | _ => false

/-- R334, R335: free walkers take misses; every queued miss of the same page goes with the head. -/
def State.startWalks (fuel : Nat) (s : State) : State :=
  match fuel with
  | 0 => s
  | fuel + 1 =>
    match s.nextWalk, decide (s.tr.walkers.length < 16) with
    | some p, true =>
      let l := Tab.get [] s.tr.misses p
      let page := ((l.head?).map Miss.page).getD 0
      State.startWalks fuel ((s.modTr (fun t => { t with
        misses := Tab.set [] t.misses p (l.filter (fun m => m.page != page)),
        walkers := t.walkers ++ [⟨p, l.filter (fun m => m.page = page), false⟩], walkTurn := (p + 1) % 17 })).walkRead p page 0)
    | _, _ => s

/-- A miss of the command is queued or being walked. -/
def State.missing (s : State) (p : Nat) (c : Cmd) : Bool :=
  let hit (m : Miss) : Bool := m.ring = c.ring && m.idx = c.idx
  (Tab.get [] s.tr.misses p).any hit || s.tr.walkers.any (fun w => w.space = p && w.misses.any hit)

/-- R334: the command waits for the walk of the page of `va`; where its partition's queue is full it waits aside until there is room. -/
def State.awaitWalk (s : State) (p : Nat) (c : Cmd) (va : Nat) : State :=
  let s := s.modStaged c (fun x => { x with st := .rewalk, va := va })
  if s.missing p c then s else (s.queueMiss p ⟨va / 2 ^ 25, c.ring, c.idx, s.clk.tick⟩).startWalks 16

/-- R279, R294, R301: what a command finds of its sequence: a completion, or nothing to object. -/
def State.seqCheck (s : State) (p : Nat) (c : Cmd) : Option Compl :=
  let op := opcodeOf c
  let x := s.seq p (sqidOf c)
  if op = 0x0E || op = 0x0F then none
  else if op = 0x01 || op = 0x0D then (if x.st = .free then none else some (Compl.plain 0x22 0x02))
  else if x.st = .free || x.st = .releasing then some (Compl.plain 0x22 0x03)
  else if x.st = .killed && op != 0x02 then some (Compl.plain 0x30 0)
  else if op = 0x03 && (s.seq p (childOf c)).st != .free then some (Compl.plain 0x22 0x02)
  else none

/-- R238, R12 to R14, R291, R295: the checks made before a command takes any resource. -/
def State.earlyCheck (s : State) (p : Nat) (c : Cmd) : Option Compl :=
  let on := s.cfg.active.enabled p
  let d := s.desc p
  let blk := s.blockOf p c
  match malformed c (if on then d.layersM1 else 255) (if on then d.hkv else 1) blk with
  | some det => some (Compl.plain 0x22 det.toNat)
  | none =>
    if needsAbsent s.part c (if on then d.kfmt else 0) (if on then d.vfmt else 0) blk then some (Compl.plain 0x12 0)
    else if opcodeOf c = 0x0E && !(s.ring c.ring).mgmt then some (Compl.plain 0x22 0x09)
    else if (waitEn c && !s.cfg.active.mayWait p (waitSig c)) || (raiseEn c && !s.cfg.active.owns p (raiseSig c)) then
      some (Compl.plain 0x22 0x8C)
    else if (opcodeOf c = 0x05 || opcodeOf c = 0x06) && bmOf c && bmModeOf c && 64 < nqOf c then some overflowC
    else none

/-- A blank operation record for an admitted command. -/
def newOp (opid : W32) (p : Nat) (c : Cmd) (set : CfgSet) (epoch : W16) (tick : Nat) (order : Nat) : Op :=
  { opid := opid, part := p, cmd := c, st := .running, training := set.training p, epochFound := epoch, keys := 0, pins := [], set := set,
    place := [], nodes := [], clusters := 0, shares := 0, lent := 0, sat := 0, flush := 0, nansc := 0, masked := 0, naninf := none,
    status := 0, detail := 0, result := 0, deadline := tick + budgetOf c, late := false, unverified := false, pos := 0, faultVa := 0,
    progress := 0, ended := 0, loaded := false, weirOrder := order, input := [], resumed := false, begun := true, mac := false, flits := 0,
    parts := [], outq := [], outs := [], fin := false, hold := [], remote := [], sends := false, sendq := [], unacked := [] }

/-- R279, R280: the sequence of an operation counts it in flight. -/
def State.countIn (s : State) (o : Op) : State :=
  s.modSeq o.part (sqidOf o.cmd) (fun x => if x.st = .free then x else
    { x with inflight := x.inflight + 1, st := if x.st = .idle then .active else x.st, lastUse := BitVec.ofNat 32 (bits s.clk.tick 4 32),
             lastOpid := o.opid, lastRing := o.cmd.ring })

/-- An operation enters the list of operations in flight; the sequence counts it (R280, R296). Its FIRE record carries the counts `fc` and
`tick` of its firing (R34). -/
def State.startOpAt (s : State) (o : Op) (fc : BitVec 48) (tick : W64) : State :=
  let s := s.modHw (fun h => { h with ops := h.ops ++ [o] })
  let s := s.modWeir (fun w => { w with order := w.order + 1 })
  let s := s.traceAt fc tick 0x01 o.part 0x80 o.opid (opcodeOf o.cmd + sqidOf o.cmd * 2 ^ 8) (layerOf o.cmd)
  if opcodeOf o.cmd = 0x0F || o.unborn then s else s.countIn o

/-- An operation that fires as it is admitted. -/
def State.startOp (s : State) (o : Op) : State := s.startOpAt o s.clk.fc s.clk.tick

/-- R333: a hard fault of an operand that is not a compute operand: HALTED_DMA_FAULT with no effect, held with no cluster. While the
partition's held operations are as many as it may hold, the command stalls in staging (R337). -/
def State.haltCmd (s : State) (p : Nat) (c : Cmd) (va : Nat) : State :=
  if s.heldFull p then s.modStaged c (fun x => { x with st := .heldPage, va := va })
  else
    let (opid, s) := s.takeOpid
    let o := { newOp opid p c s.cfg.active (s.seq p (sqidOf c)).epoch s.clk.tick.toNat s.weir.order with begun := false }
    ((s.unstage c).startOp o).haltOp opid va

/-- R301: a hard fault of a compute operand. -/
def State.killCmd (s : State) (p : Nat) (c : Cmd) (va : Nat) : State :=
  let op := opcodeOf c
  let s := s.finish p c { Compl.plain 0x30 0 with result := resVa va }
  if op = 0x0F || op = 0x01 || op = 0x0D then s else s.kill p (sqidOf c) va

/-- R298, R299: a slot for the command's context: a SPILLED sequence is brought back, a new one needs room. -/
def State.residency (s : State) (p : Nat) (c : Cmd) : Bool × State :=
  let op := opcodeOf c
  if op = 0x02 || op = 0x0E || op = 0x0F then (true, s)
  else if op = 0x01 && (s.pool p).fstate != .normal then (false, s)
  else
    let x := s.seq p (sqidOf c)
    if x.st.resident && op != 0x03 then (true, s)
    else
      match s.obtainSlot p (seqKey p (sqidOf c)) with
      | (false, s) => (false, s)
      | (true, s) =>
        match s.recordAccess p (sqidOf c) with
        | (false, s) => (false, s)
        | (true, s) => (true, if x.st = .spilled then s.unspill p (sqidOf c) else s)

/-- R279, R298, R301: a hard fault of a compute operand kills a resident sequence; a SPILLED one first needs a slot. -/
def State.killFaulting (s : State) (p : Nat) (c : Cmd) (va : Nat) : State :=
  if (s.seq p (sqidOf c)).st = .spilled && opcodeOf c != 0x01 then
    match s.residency p c with
    | (false, s) => s.defer p c
    | (true, s) => s.killCmd p c va
  else s.killCmd p c va

/-- R296: the front end's work on a staged command, from its checks to the point where it waits to be admitted. -/
def State.frontEnd (s : State) (p : Nat) (c : Cmd) : State :=
  match s.earlyCheck p c with
  | some x => s.finish p c x
  | none =>
    match s.translate p c with
    | (.miss va, s) => s.awaitWalk p c va
    | (.hardCompute va, s) => s.killFaulting p c va
    | (.hardOther va, s) => s.haltCmd p c va
    | (.held va, s) => s.modStaged c (fun x => { x with st := .heldPage, va := va })
    | (.ok, s) =>
      if ((s.stagedFor c).bind Staged.retried).isNone && s.backlogHolds p c then s.defer p c
      else
        match s.seqCheck p c with
        | some x => s.finish p c x
        | none =>
          match s.residency p c with
          | (false, s) => s.defer p c
          | (true, s) => s.modStaged c (fun x => { x with st := .ready })

/-- The command enters staging as fetched (R286) and the front end works on it. -/
def State.stage (s : State) (p : Nat) (c : Cmd) : State :=
  (s.modHw (fun h => { h with staged := h.staged ++ [⟨p, c, .ready, 0, [], false, false, 0, 0, none, []⟩] })).frontEnd p c

/-- A ring command that is presented: staged already, or the next command of its open ring (log entry 18). -/
def State.present (s : State) (c : Cmd) : State :=
  if (s.stagedFor c).isSome then s
  else
    let r := s.ring c.ring
    let p := r.part.toNat
    if s.ringOpen r && c.idx = r.fetched && r.fetched != r.tail && s.stagedCount p < Config.stagedMax then
      (s.setRing c.ring { r with fetched := r.fetched + 1 }).stage p c
    else s

/-! Admission -/

/-- R297: command `c` names a sequence of the earlier command `d`. -/
def sameSeq (c d : Cmd) : Bool := namesSeq d (sqidOf c) || (opcodeOf c = 0x03 && namesSeq d (childOf c))

/-- R297: an operation in flight that the command must wait for. -/
def orderedAfter (p : Nat) (c : Cmd) (o : Op) : Bool := o.part = p && sameSeq c o.cmd && (mapReads c).meets (mapWrites o.cmd)

/-- R257, R297: a staged command in order that `c` must wait for: a writer, or any command of the sequence where `c` is a RELEASE. -/
def stagedBefore (p : Nat) (c : Cmd) (y : Staged) : Bool :=
  y.part = p && !([0x0E, 0x0F].contains (opcodeOf c)) && sameSeq c y.cmd && (opcodeOf c = 0x02 || (mapReads c).meets (mapWrites y.cmd))

/-- R297: no command that must complete first is in flight or stands before `x` in the order of admission. -/
def State.isNext (s : State) (x : Staged) : Bool :=
  (opcodeOf x.cmd = 0x02 || !(s.hw.ops.any (orderedAfter x.part x.cmd)))
    && !((s.hw.staged.takeWhile (fun y => y.cmd != x.cmd)).any (fun y => s.inOrder y && stagedBefore x.part x.cmd y))

/-- R451: the command runs in reduced service. -/
def reducedOk (d : PoolDesc) (c : Cmd) : Bool :=
  match opcodeOf c with
  | 0x08 => true
  | 0x09 => true
  | _ =>
    match workClass c with
    | .control => true
    | .decode => !d.kf.isSub && !d.vf.isSub && !specBit c && (!isAttn c || pmOf c = 0)
    | _ => false

/-- Commands with work on clusters (R302, R303). -/
def usesClusters (c : Cmd) : Bool := [0x04, 0x05, 0x06, 0x07, 0x0F].contains (opcodeOf c)

/-- R303: Weir admits the command: a share for its work, and prefill weight above 0 for prefill-class work. -/
def State.weirOk (s : State) (p : Nat) (c : Cmd) : Bool :=
  let cls := workClass c
  let work := usesClusters c || cls = .movement
  (!work || !s.linkHigh) && (!usesClusters c || (1 ≤ s.sharesFree p cls && !(s.freeClusters s.cfg.active p).isEmpty
    && (cls = .decode || s.cfg.active.pfWeight p != 0)))

/-- R296: the waits between the front end and the Weir step: enabled partition, bring-up, FENCE, WAIT_SIG, order; the state after, in which
the command may have been enrolled on its signal. -/
def State.upToWeir (s : State) (x : Staged) : Bool × State :=
  let c := x.cmd
  let p := x.part
  if x.st != .ready || (opcodeOf c != 0x0E && !s.cfg.active.enabled p) || bit s.cfg.resetting p then (false, s)
  else if fence c && (s.ring c.ring).done != c.idx then (false, s)
  else
    let go := s.isNext x
    if waitEn c && !x.sigTaken then
      if s.sig.waiters.any (fun w => w.2 = .command c.ring c.idx) then (false, s)
      else
        match s.await (waitSig c) (.command c.ring c.idx) with
        | (true, s) => (go, s.modStaged c (fun x => { x with sigTaken := true }))
        | (false, s) => (false, s)
    else (go, s)

/-- R296, R321, R361, R451: the command may be dispatched: no SWAP pauses it, reduced service runs it, it has fired, Weir admits it. -/
def State.admissible (s : State) (x : Staged) : Bool × State :=
  match s.upToWeir x with
  | (false, s) => (false, s)
  | (true, s) =>
    let c := x.cmd
    (!s.swapPause && (s.boot.stage = 4 || reducedOk (s.desc x.part) c) && (!(fiEn c || foEn c) || x.fired) && s.weirOk x.part c, s)

/-- A ring-command row: the command is presented and, once admissible, takes effect; otherwise it waits in staging. -/
def State.ringRow (s : State) (op : Nat) (c : Cmd) (effect : State → Nat → Cmd → State) : State :=
  if !s.serving || opcodeOf c != op then s
  else
    let s := s.present c
    match s.stagedFor c with
    | none => s
    | some x =>
      match s.admissible x with
      | (false, s) => s
      | (true, s) =>
        match s.seqCheck x.part c with
        | some y => s.finish x.part c y
        | none =>
          match s.residency x.part c with
          | (false, s) => s.defer x.part c
          | (true, s) => effect s x.part c

/-- LAST_USE and the tag of a command that takes effect at once (R280, R296). -/
def State.touchSeq (s : State) (p q : Nat) (opid : W32) (ring : Nat) : State :=
  if (s.seq p q).st = .free then s
  else s.modSeq p q (fun x => { x with lastUse := BitVec.ofNat 32 (bits s.clk.tick 4 32), lastOpid := opid, lastRing := ring })

/-- A command that completes in the step of its admission: OPID, epoch found, record. -/
def State.finishNow (s : State) (p : Nat) (c : Cmd) (epoch : W16) (x : Compl) : State :=
  let (opid, s) := s.takeOpid
  let s := s.touchSeq p (sqidOf c) opid c.ring
  s.finish p c { x with opid := opid, epoch := epoch.toNat }

end Sys2Proof.Machine
end

