-- ==== Sys2Proof/Machine/Issue.lean ====
section
/-! DEFINITION. Issue on a steering pair: guards, retirement, exceptions (R231, R232), the end of a program (R233, R238, R240). -/

namespace Sys2Proof.Machine

/-- The pair's part in its operation has ended (R232, R240). -/
def State.pairEnded (s : State) (sp : Nat) : Bool :=
  match (s.pair sp).op.bind s.op with
  | some o => bit o.ended sp
  | none => false

/-- Pair `sp` issues its next instruction: it is built, its clock runs, and it is idle or running (log entry 24). -/
def State.canIssue (s : State) (sp : Nat) : Bool :=
  s.fast && decide (sp < s.nPairs) && ((s.pair sp).st = .idle || (s.pair sp).st = .running) && !(s.pair sp).lsFail && !s.pairEnded sp

/-- What the guard of an instruction says (R204). -/
def Pair.guards (x : Pair) (i : Issue) : Bool := guardOf (x.readP i.pg.val) i.pn

/-- An instruction retires and the pair continues at `pc` (R241, R242). -/
def Pair.retire (x : Pair) (pc : BitVec 14) : Pair := { x with pc := pc, retired := bump x.retired, instret := x.instret + 1 }

/-- What an instruction does at issue. -/
inductive Lz where
  /-- it takes effect, and the next instruction follows -/
  | done (s : State)
  /-- it takes effect, and the pair continues at a target -/
  | jump (s : State) (pc : BitVec 14)
  /-- it raises the exception of this code and has no effect -/
  | exc (code : Nat)
  /-- it waits at issue -/
  | wait (s : State)

/-- R233: a status of code 0x10 or above is kept where it is the highest so far. -/
def Op.fault (o : Op) (status detail : Nat) (result : BitVec 96) : Op :=
  if o.status.toNat < status then { o with status := BitVec.ofNat 8 status, detail := BitVec.ofNat 8 detail, result := result } else o

/-- Entries of the operation that stand in cluster queues. -/
def State.opQueued (s : State) (opid : W32) : Bool := s.clusters.any (fun c => c.2.queue.any (fun e => e.opid = opid))

/-- R238: a RUN_PROGRAM completes when every pair has ended its part and no entry is queued. -/
def State.progCheck (s : State) (opid : W32) : State :=
  match s.op opid with
  | none => s
  | some o =>
    if opcodeOf o.cmd = 0x0F && o.st = .running && o.loaded && (pairsOf o.clusters).all (fun k => bit o.ended k)
      && !s.opQueued opid then s.endOp opid 0 0 0
    else s

/-- R232, R233: every pair of the operation stops issuing; the operation ends with the status once its entries have completed. -/
def State.stopOp (s : State) (opid : W32) (status detail : Nat) (result : BitVec 96) : State :=
  match s.op opid with
  | none => s
  | some o => (s.setOp { o.fault status detail result with ended := 0xFF }).progCheck opid

/-- The bank's number, 0 or 1. -/
def Pair.bankNo (x : Pair) : Nat := if x.bank then 1 else 0

/-- R242: `SP_EXC`. -/
def excWord (code bank pc opid : Nat) : W64 :=
  BitVec.ofNat 64 (2 ^ 63 + code % 256 * 2 ^ 48 + bank % 2 * 2 ^ 47 + pc % 2 ^ 14 * 2 ^ 32 + opid % 2 ^ 32)

/-- R231, R232: pair `sp` shows exception `code` at instruction index `pc`, and the trouble log has it. -/
def State.markExc (s : State) (sp code pc : Nat) : State :=
  let x := s.pair sp
  let opid := x.op.getD 0
  let s := if bit x.exc 63 then s else s.setPair sp { x with exc := excWord code x.bankNo pc opid.toNat }
  s.note 0x03 (some x.part) false 2 (BitVec.ofNat 8 (0x40 + sp)) opid (code + 2 ^ 8 * x.bankNo + 2 ^ 9 * pc) 0

/-- R293: the result of an operation that pair `sp` ends by an exception. -/
def excResult (x : Pair) (sp pc : Nat) : BitVec 96 := BitVec.ofNat 96 (pc + 2 ^ 14 * x.bankNo + 2 ^ 16 * sp)

/-- R231, R232: pair `sp` raises exception `code` at its next instruction. -/
def State.raiseExc (s : State) (sp code : Nat) : State :=
  let x := s.pair sp
  let s := s.markExc sp code x.pc.toNat
  match x.op.bind s.op with
  | none => s.countL
  | some o => s.stopOp o.opid (if opcodeOf o.cmd = 0x0F then 0x22 else 0xF0) (0x80 + code) (excResult x sp x.pc.toNat)

/-- An instruction of pair `i.sp` (R204): a false guard retires it with no effect; else `f` says what it does. -/
def State.issue (s : State) (i : Issue) (f : State → Nat → Pair → Lz) : State :=
  let sp := i.sp.val
  let x := s.pair sp
  if !s.canIssue sp then s
  else if !x.guards i then s.setPair sp (x.retire (x.pc + 1))
  else
    match f s sp x with
    | .done s' => s'.modPair sp (fun y => y.retire (x.pc + 1))
    | .jump s' pc => s'.modPair sp (fun y => y.retire pc)
    | .exc c => s.raiseExc sp c
    | .wait s' => s'

/-- The second operand of classes 0x0 to 0x2 (R205, R206). -/
def Pair.srcB (x : Pair) (b : SrcB) : W64 :=
  match b with
  | .reg r => x.readG r.val
  | .imm i => immVal i

/-- Classes 0x0 and 0x1 (R206). -/
def State.alu (s : State) (i : Issue) (d a : Fin 64) (b : SrcB) (f : W64 → W64 → W64) : State :=
  s.issue i (fun s sp x => .done (s.setPair sp (x.writeG d.val (f (x.readG a.val) (x.srcB b)))))

/-- Comparisons of class 0x2 (R207). -/
def State.compare (s : State) (i : Issue) (pd : Fin 16) (a : Fin 64) (b : SrcB) (f : W64 → W64 → Bool) : State :=
  s.issue i (fun s sp x => .done (s.setPair sp (x.writeP pd.val (f (x.readG a.val) (x.srcB b)))))

/-- Predicate operations of class 0x2 (R207). -/
def State.predOp (s : State) (i : Issue) (pd a b : Fin 16) (f : Bool → Bool → Bool) : State :=
  s.issue i (fun s sp x => .done (s.setPair sp (x.writeP pd.val (f (x.readP a.val) (x.readP b.val)))))

/-- R322: the configuration set of the operation that a pair serves. -/
def State.setOf (s : State) (x : Pair) : CfgSet := ((x.op.bind s.op).map Op.set).getD s.cfg.active

/-- R208: the size of a pair's data memory. -/
abbrev dmemSize : Nat := 0x20000

/-- R208, R210: address g[A] + IMM for `n` bytes, or nothing where it raises the data-address exception. -/
def Pair.dataAddr (x : Pair) (a : Fin 64) (imm : W32) (align n : Nat) : Option Nat :=
  let v := (x.readG a.val + immVal imm).toNat
  if v % align = 0 ∧ v + n ≤ dmemSize then some v else none

/-- R201: the data memory as a program reads it: the range reserved to built-in programs reads 0. -/
def Pair.data (x : Pair) : Tab Byte := x.dmem.filter (fun e => !(decide (0x40 ≤ e.1 ∧ e.1 < 0x100)))

/-- R208: loads. -/
def State.load (s : State) (i : Issue) (d a : Fin 64) (imm : W32) (n : Nat) (signed : Bool) : State :=
  s.issue i (fun s sp x =>
    match x.dataAddr a imm n n with
    | some v => .done (s.setPair sp (x.writeG d.val (loadExt signed n (readLe x.data v n))))
    | none => .exc 0x02)

/-- R208: stores. -/
def State.store (s : State) (i : Issue) (d a : Fin 64) (imm : W32) (n : Nat) : State :=
  s.issue i (fun s sp x =>
    match x.dataAddr a imm n n with
    | some v => .done (s.setPair sp { x with dmem := writeLe x.dmem v n (x.readG d.val).toNat })
    | none => .exc 0x02)

/-- R209: a branch to `tgt`, past the running image's `CODE_LEN` an exception. -/
def Pair.target (x : Pair) (s : State) (tgt : BitVec 14) : Lz := if tgt.toNat < x.codeLen then .jump s tgt else .exc 0x03

/-- A descriptor register; unlisted ones are empty (R202). -/
def Pair.readD (x : Pair) (i : Nat) : DReg := Tab.get DReg.empty x.d i
def Pair.writeD (x : Pair) (i : Nat) (v : DReg) : Pair := { x with d := Tab.set DReg.empty x.d i v }

end Sys2Proof.Machine
end

