-- ==== Sys2Proof/Machine/Lefiza.lean ====
section
/-! DEFINITION. Lefiza: the scalar, branch, descriptor, synchronisation and system classes (R206 to R210, R222 to R230, R240, R241). -/

namespace Sys2Proof.Machine

/-! Classes 0x0 to 0x4 -/

/-- R206: A + B. -/
def execAdd (i : Issue) (d a : Fin 64) (b : SrcB) (s : State) : Res := .next (s.alu i d a b (· + ·))

/-- R206: A − B. -/
def execSub (i : Issue) (d a : Fin 64) (b : SrcB) (s : State) : Res := .next (s.alu i d a b (· - ·))

/-- R206: the low 64 bits of A × B. -/
def execMul (i : Issue) (d a : Fin 64) (b : SrcB) (s : State) : Res := .next (s.alu i d a b (· * ·))

/-- R206: the high 64 bits of the unsigned product. -/
def execMulhu (i : Issue) (d a : Fin 64) (b : SrcB) (s : State) : Res := .next (s.alu i d a b mulHu)

/-- R206: floor(A / B), all ones when B is 0. -/
def execDivu (i : Issue) (d a : Fin 64) (b : SrcB) (s : State) : Res := .next (s.alu i d a b divU)

/-- R206: A mod B, A when B is 0. -/
def execRemu (i : Issue) (d a : Fin 64) (b : SrcB) (s : State) : Res := .next (s.alu i d a b remU)

/-- R206: bitwise and. -/
def execAnd (i : Issue) (d a : Fin 64) (b : SrcB) (s : State) : Res := .next (s.alu i d a b (· &&& ·))

/-- R206: bitwise or. -/
def execOr (i : Issue) (d a : Fin 64) (b : SrcB) (s : State) : Res := .next (s.alu i d a b (· ||| ·))

/-- R206: bitwise exclusive or. -/
def execXor (i : Issue) (d a : Fin 64) (b : SrcB) (s : State) : Res := .next (s.alu i d a b (· ^^^ ·))

/-- R206: A shifted left by B mod 64. -/
def execShl (i : Issue) (d a : Fin 64) (b : SrcB) (s : State) : Res := .next (s.alu i d a b shlB)

/-- R206: A shifted right by B mod 64. -/
def execShr (i : Issue) (d a : Fin 64) (b : SrcB) (s : State) : Res := .next (s.alu i d a b shrB)

/-- R206: A shifted right by B mod 64, sign kept. -/
def execSar (i : Issue) (d a : Fin 64) (b : SrcB) (s : State) : Res := .next (s.alu i d a b sarB)

/-- R206: the signed minimum. -/
def execMin (i : Issue) (d a : Fin 64) (b : SrcB) (s : State) : Res := .next (s.alu i d a b minS)

/-- R206: the signed maximum. -/
def execMax (i : Issue) (d a : Fin 64) (b : SrcB) (s : State) : Res := .next (s.alu i d a b maxS)

/-- R206: the unsigned minimum. -/
def execMinu (i : Issue) (d a : Fin 64) (b : SrcB) (s : State) : Res := .next (s.alu i d a b minU)

/-- R206: the unsigned maximum. -/
def execMaxu (i : Issue) (d a : Fin 64) (b : SrcB) (s : State) : Res := .next (s.alu i d a b maxU)

/-- R206: leading zeros of A. -/
def execClz (i : Issue) (d a : Fin 64) (b : SrcB) (s : State) : Res := .next (s.alu i d a b (fun a _ => clzOf a))

/-- R206: set bits of A. -/
def execPopc (i : Issue) (d a : Fin 64) (b : SrcB) (s : State) : Res := .next (s.alu i d a b (fun a _ => popOf a))

/-- R206: g[`D`] ← `IMM`, sign-extended. -/
def execMovi (i : Issue) (d : Fin 64) (imm : W32) (s : State) : Res := .next (s.alu i d 0 (.imm imm) (fun _ b => b))

/-- R206: bits 63:32 of g[`D`] ← `IMM`; bits 31:0 unchanged. -/
def execMovhi (i : Issue) (d : Fin 64) (imm : W32) (s : State) : Res := .next (s.alu i d d (.imm imm) (fun g _ => movHi g imm))

/-- R207: EQ. -/
def execEq (i : Issue) (pd : Fin 16) (a : Fin 64) (b : SrcB) (s : State) : Res := .next (s.compare i pd a b (fun a b => a == b))

/-- R207: NE. -/
def execNe (i : Issue) (pd : Fin 16) (a : Fin 64) (b : SrcB) (s : State) : Res := .next (s.compare i pd a b (fun a b => a != b))

/-- R207: LT. -/
def execLt (i : Issue) (pd : Fin 16) (a : Fin 64) (b : SrcB) (s : State) : Res := .next (s.compare i pd a b ltS)

/-- R207: LE. -/
def execLe (i : Issue) (pd : Fin 16) (a : Fin 64) (b : SrcB) (s : State) : Res := .next (s.compare i pd a b leS)

/-- R207: LTU. -/
def execLtu (i : Issue) (pd : Fin 16) (a : Fin 64) (b : SrcB) (s : State) : Res := .next (s.compare i pd a b ltUns)

/-- R207: LEU. -/
def execLeu (i : Issue) (pd : Fin 16) (a : Fin 64) (b : SrcB) (s : State) : Res := .next (s.compare i pd a b leUns)

/-- R207: PAND. -/
def execPand (i : Issue) (pd : Fin 16) (a b : Fin 16) (s : State) : Res := .next (s.predOp i pd a b and)

/-- R207: POR. -/
def execPor (i : Issue) (pd : Fin 16) (a b : Fin 16) (s : State) : Res := .next (s.predOp i pd a b or)

/-- R207: PXOR. -/
def execPxor (i : Issue) (pd : Fin 16) (a b : Fin 16) (s : State) : Res := .next (s.predOp i pd a b xor)

/-- R207: p[`PD`] ← (g[`A`] ≠ 0). -/
def execPfromg (i : Issue) (pd : Fin 16) (a : Fin 64) (s : State) : Res :=
  .next (s.issue i (fun s sp x => .done (s.setPair sp (x.writeP pd.val (x.readG a.val != 0)))))

/-- R207: g[`B`] ← p[A]. -/
def execPtog (i : Issue) (b : Fin 64) (a : Fin 16) (s : State) : Res :=
  .next (s.issue i (fun s sp x => .done (s.setPair sp (x.writeG b.val (boolW (x.readP a.val))))))

/-- R208: LD8. -/
def execLd8 (i : Issue) (d a : Fin 64) (imm : W32) (s : State) : Res := .next (s.load i d a imm 1 false)

/-- R208: LD16. -/
def execLd16 (i : Issue) (d a : Fin 64) (imm : W32) (s : State) : Res := .next (s.load i d a imm 2 false)

/-- R208: LD32. -/
def execLd32 (i : Issue) (d a : Fin 64) (imm : W32) (s : State) : Res := .next (s.load i d a imm 4 false)

/-- R208: LD64. -/
def execLd64 (i : Issue) (d a : Fin 64) (imm : W32) (s : State) : Res := .next (s.load i d a imm 8 false)

/-- R208: LDS8. -/
def execLds8 (i : Issue) (d a : Fin 64) (imm : W32) (s : State) : Res := .next (s.load i d a imm 1 true)

/-- R208: LDS16. -/
def execLds16 (i : Issue) (d a : Fin 64) (imm : W32) (s : State) : Res := .next (s.load i d a imm 2 true)

/-- R208: LDS32. -/
def execLds32 (i : Issue) (d a : Fin 64) (imm : W32) (s : State) : Res := .next (s.load i d a imm 4 true)

/-- R208: ST8. -/
def execSt8 (i : Issue) (d a : Fin 64) (imm : W32) (s : State) : Res := .next (s.store i d a imm 1)

/-- R208: ST16. -/
def execSt16 (i : Issue) (d a : Fin 64) (imm : W32) (s : State) : Res := .next (s.store i d a imm 2)

/-- R208: ST32. -/
def execSt32 (i : Issue) (d a : Fin 64) (imm : W32) (s : State) : Res := .next (s.store i d a imm 4)

/-- R208: ST64. -/
def execSt64 (i : Issue) (d a : Fin 64) (imm : W32) (s : State) : Res := .next (s.store i d a imm 8)

/-- R209: PC ← `TGT`. -/
def execB (i : Issue) (tgt : BitVec 14) (s : State) : Res := .next (s.issue i (fun s _ x => x.target s tgt))

/-- R209: g[`D`] ← index of the next instruction; PC ← `TGT`. -/
def execBl (i : Issue) (d : Fin 64) (tgt : BitVec 14) (s : State) : Res :=
  .next (s.issue i (fun s sp x => x.target (s.setPair sp (x.writeG d.val ((x.pc + 1).zeroExtend 64))) tgt))

/-- R209: PC ← bits 13:0 of g[`A`]. -/
def execBi (i : Issue) (a : Fin 64) (s : State) : Res :=
  .next (s.issue i (fun s _ x => x.target s ((x.readG a.val).extractLsb' 0 14)))

/-! Class 0x5: descriptors (R210) -/

/-- DLDT and DLDS: 64 bytes of data memory, aligned to 64, into d[`DD`] with a kind. -/
def State.loadD (s : State) (i : Issue) (dd : Fin 32) (a : Fin 64) (imm : W32) (kind : BitVec 2) : State :=
  s.issue i (fun s sp x =>
    match x.dataAddr a imm 64 64 with
    | some v => .done (s.setPair sp (x.writeD dd.val ⟨kind, BitVec.ofNat 512 (readLe x.data v 64), 0⟩))
    | none => .exc 0x02)

/-- R210: kind tensor. -/
def execDldt (i : Issue) (dd : Fin 32) (a : Fin 64) (imm : W32) (s : State) : Res := .next (s.loadD i dd a imm 1)

/-- R210: kind stream. -/
def execDlds (i : Issue) (dd : Fin 32) (a : Fin 64) (imm : W32) (s : State) : Res := .next (s.loadD i dd a imm 2)

/-- R210: a reference to loop table L(bits 5:0 of g[`A`]); what the 64 bytes of a reference hold the spec leaves open: a free value. -/
def execDldl (i : Issue) (dd : Fin 32) (a : Fin 64) (s : State) : Res :=
  .next (s.issue i (fun s sp x =>
    let (k, s) := s.draw
    .done (s.setPair sp (x.writeD dd.val ⟨3, Config.freeRef k, bits (x.readG a.val) 0 6⟩))))

/-- R210: 64 bytes at g[`A`] + `IMM` ← d[`DD`]. -/
def execDst (i : Issue) (dd : Fin 32) (a : Fin 64) (imm : W32) (s : State) : Res :=
  .next (s.issue i (fun s sp x =>
    match x.dataAddr a imm 1 64 with
    | some v => .done (s.setPair sp { x with dmem := writeLe x.dmem v 64 (x.readD dd.val).v.toNat })
    | none => .exc 0x02))

/-- R210: word k of d[`DD`] ← bits 31:0 of g[`A`]; k is bits 3:0 of `IMM`. -/
def execDsetw (i : Issue) (dd : Fin 32) (a : Fin 64) (imm : W32) (s : State) : Res :=
  .next (s.issue i (fun s sp x =>
    let r := x.readD dd.val
    .done (s.setPair sp (x.writeD dd.val { r with v := setBits r.v (32 * bits imm 0 4) 32 (bits (x.readG a.val) 0 32) }))))

/-- R210: g[`A`] ← word k, zero-extended. -/
def execDgetw (i : Issue) (dd : Fin 32) (a : Fin 64) (imm : W32) (s : State) : Res :=
  .next (s.issue i (fun s sp x =>
    .done (s.setPair sp (x.writeG a.val (BitVec.ofNat 64 (bits (x.readD dd.val).v (32 * bits imm 0 4) 32))))))

/-- R210: the address field plus g[`A`]: `OFFSET` of a tensor (R211), `SRC` of a stream (R184). -/
def DReg.addAddr (r : DReg) (g : W64) : Option DReg :=
  if r.kind = 1 then some { r with v := setBits r.v 8 23 (bits r.v 8 23 + g.toNat) }
  else if r.kind = 2 then some { r with v := setBits r.v 0 64 (bits r.v 0 64 + g.toNat) }
  else none

/-- R210: DADDA; another kind raises the descriptor-kind exception. -/
def execDadda (i : Issue) (dd : Fin 32) (a : Fin 64) (s : State) : Res :=
  .next (s.issue i (fun s sp x =>
    match (x.readD dd.val).addAddr (x.readG a.val) with
    | some r => .done (s.setPair sp (x.writeD dd.val r))
    | none => .exc 0x05))

/-- R210: d[`DD`] ← empty. -/
def execDclr (i : Issue) (dd : Fin 32) (s : State) : Res :=
  .next (s.issue i (fun s sp x => .done (s.setPair sp (x.writeD dd.val DReg.empty))))

/-! Class 0xA: signals and fences (R222 to R224) -/

/-- The signal that g[`A`] names, where it lies in the pool (R340). -/
def signalOf (w : W64) : Option Nat := if w.toNat < 65536 then some w.toNat else none

/-- SWAIT has begun to wait: the pair's record of it (R223). -/
def Pair.startSwait (x : Pair) (n : Nat) (d : Fin 64) (pd : Fin 16) (timeout : W64) (now : W64) : Pair :=
  { x with st := .waitSig, swait := some ⟨n, d, pd, timeout, now, false⟩, lent := false }

/-- R222, R223: waits on signal g[`A`] with a time-out of g[`B`] ticks. -/
def execSwait (i : Issue) (pd : Fin 16) (a b d : Fin 64) (s : State) : Res :=
  .next (s.issue i (fun s sp x =>
    match signalOf (x.readG a.val) with
    | none => .exc 0x0C
    | some n =>
      if !(s.setOf x).mayWait x.part n then .exc 0x0C
      else
        match s.await n (.pair sp) with
        | (true, s) => .done (s.setPair sp ((x.writeG d.val 0).writeP pd.val true))
        | (false, s) => .done (s.setPair sp (x.startSwait n d pd (x.readG b.val) s.clk.tick))))

/-- R222: raises signal g[`A`]. -/
def execSraise (i : Issue) (a : Fin 64) (s : State) : Res :=
  .next (s.issue i (fun s _ x =>
    match signalOf (x.readG a.val) with
    | none => .exc 0x0C
    | some n => if (s.setOf x).owns x.part n then .done (s.raise n) else .exc 0x0C))

/-- R222: p[`PD`] ← 1 when signal g[`A`] stands raised, else 0. -/
def execSpoll (i : Issue) (pd : Fin 16) (a : Fin 64) (s : State) : Res :=
  .next (s.issue i (fun s sp x =>
    match signalOf (x.readG a.val) with
    | none => .exc 0x0C
    | some n =>
      if (s.setOf x).mayWait x.part n then .done (s.setPair sp (x.writeP pd.val (s.isRaised n))) else .exc 0x0C))

/-- The clusters that `CMASK` names (R205). -/
def maskClusters (sp : Nat) (cmask : BitVec 4) : List Nat := (setList cmask).map (fun k => 4 * sp + k)

/-- R222: waits until every entry that the pair issued earlier to the clusters of `CMASK` has completed. -/
def execTfence (i : Issue) (cmask : BitVec 4) (s : State) : Res :=
  .next (s.issue i (fun s sp _ =>
    if (maskClusters sp cmask).any (fun n => (s.cluster n).queue.any (fun e => e.sp = sp)) then .wait s else .done s))

/-! Class 0xB: instruction memory, CSRs, the end of a program (R226 to R230, R240, R241) -/

/-- The destination of a TMOV (R226): bank and first index. -/
def tmovDst (g : W64) : Bool × Nat := (bit g 14, bits g 0 14)

/-- R226, R227: why a TMOV of `n` bytes from `src`, which must be aligned to `align`, does not issue. -/
def tmovBad (x : Pair) (dst : W64) (src n align : Nat) : Option Nat :=
  let t := tmovDst dst
  if t.1 = x.bank || 16384 < t.2 + ceilDiv n 8 then some 0x04
  else if n = 0 || n % 8 != 0 || src % align != 0 then some 0x02
  else none

/-- R230: the first TMOV of a program claims the inactive bank and clears its image tag; the write itself is in progress (R226). -/
def Pair.startTmov (x : Pair) (dst : W64) (bs : List Byte) : Pair :=
  let t := tmovDst dst
  let ws := (List.range (bs.length / 8)).map (fun k => BitVec.ofNat 64 (leNat ((bs.drop (8 * k)).take 8)))
  let x := { x with tmovs := x.tmovs ++ [⟨t.1, t.2, ws⟩] }
  if x.claimed then x
  else { x with claimed := true, tag0 := if t.1 then x.tag0 else 0, tag1 := if t.1 then 0 else x.tag1 }

/-- R226: g[`B`] bytes of data memory from g[`A`]. -/
def execTmovd (i : Issue) (d a b : Fin 64) (s : State) : Res :=
  .next (s.issue i (fun s sp x =>
    let src := (x.readG a.val).toNat
    let n := (x.readG b.val).toNat
    match tmovBad x (x.readG d.val) src n 8 with
    | some c => .exc c
    | none =>
      if dmemSize < src + n then .exc 0x02
      else .done (s.setPair sp (x.startTmov (x.readG d.val) (readBytes x.data src n)))))

/-- R226, R227: g[`B`] bytes of host memory from g[`A`]; an address that does not translate is a DMA fault. -/
def execTmovm (i : Issue) (d a b : Fin 64) (s : State) : Res :=
  .next (s.issue i (fun s sp x =>
    let src := (x.readG a.val).toNat
    let n := (x.readG b.val).toNat
    match tmovBad x (x.readG d.val) src n 64 with
    | some c => .exc c
    | none =>
      let o : Opd := ⟨x.part, .other, false, src, n⟩
      match s.judgeOpd o with
      | (.ok, _) => .done ((s.touchOpd o).setPair sp (x.startTmov (x.readG d.val) (s.vaRead x.part src n)))
      | (.held, _) => .wait s
      | (.hard, va) =>
        match x.op with
        | some opid => .wait (s.haltOp opid va)
        | none => .wait s))

/-- One TMOV's words written to its bank (R226); the bank counts as 16,384 instructions long (R209). -/
def Pair.finishTmov (x : Pair) (t : TmovSt) : Pair :=
  let put (m : Tab W64) : Tab W64 := (t.words.zipIdx).foldl (fun m w => Tab.set 0 m (t.idx + w.2) w.1) m
  if t.bank then { x with ib1 := put x.ib1, tmovBank1 := true } else { x with ib0 := put x.ib0, tmovBank0 := true }

/-- R226, R228: the oldest TMOV of the pair finishes writing. -/
def execTmovDone (sp : Fin 8) (s : State) : Res :=
  .next (if !s.fast then s else
    match (s.pair sp.val).tmovs with
    | [] => s
    | t :: ts => s.modPair sp.val (fun x => { x.finishTmov t with tmovs := ts }))

/-- R228, R230: the inactive bank becomes the executing one, unclaimed after the swap. -/
def execIfenceSwap (i : Issue) (tgt : BitVec 14) (s : State) : Res :=
  .next (s.issue i (fun s sp x =>
    if !x.claimed then .exc 0x03
    else if !x.tmovs.isEmpty then .wait s
    else .jump (s.setPair sp { x with bank := !x.bank, claimed := false, codeLen := 16384 }) tgt))

/-- The operation that the pair serves. -/
def State.pairOp (s : State) (sp : Nat) : Option Op := (s.pair sp).op.bind s.op

/-- R241: `CMASK_OP`: clusters of pair `sp` that the operation holds and that are in service. -/
def State.cmaskOp (s : State) (sp : Nat) : Nat :=
  match s.pairOp sp with
  | some o => (o.clusters &&& s.boot.svc).toNat / 2 ^ (4 * sp) % 16
  | none => 0

/-- R241: the value of a CSR; none where the number is not listed. -/
def State.csr (s : State) (sp : Nat) (csr : BitVec 12) : Option W64 :=
  let x := s.pair sp
  let o := s.pairOp sp
  let ps := (o.map (fun o => pairsOf o.clusters)).getD []
  let n (v : Nat) : Option W64 := some (BitVec.ofNat 64 v)
  match csr.toNat with
  | 0x000 => n s.clk.fc.toNat
  | 0x001 => some s.clk.tick
  | 0x002 => some x.instret
  | 0x010 => n sp
  | 0x011 => n (s.cmaskOp sp)
  | 0x012 => n ((x.op.map BitVec.toNat).getD 0)
  | 0x013 => n x.part
  | 0x014 => n (if (o.map Op.training).getD (s.cfg.active.training x.part) then 1 else 0)
  | 0x015 => n (ps.filter (· < sp)).length
  | 0x016 => n ps.length
  | 0x020 => n ((o.map (fun o => o.deadline - s.clk.tick.toNat)).getD 0)
  | 0x030 => n x.bankNo
  | _ => none

/-- R241: g[`D`] ← CSR[`CSR`]. -/
def execCsrr (i : Issue) (d : Fin 64) (csr : BitVec 12) (s : State) : Res :=
  .next (s.issue i (fun s sp x =>
    match s.csr sp csr with
    | some v => .done (s.setPair sp (x.writeG d.val v))
    | none => .exc 0x01))

/-- The operation's record that pair `sp` has ended its part (R240). -/
def Op.endPair (o : Op) (sp : Nat) (code : Nat) : Op :=
  let o := { o with ended := putBit o.ended sp true }
  if code % 256 = 0 then o else o.fault 0x22 0x40 (BitVec.ofNat 96 (code % 65536 * 2 ^ 32))

/-- R240: the pair's part in the operation ends, with the code in g[`A`]. -/
def execEndProg (i : Issue) (a : Fin 64) (s : State) : Res :=
  .next (
    let t := s.issue i (fun s sp x =>
      match s.pairOp sp with
      | some o => .done (s.setOp (o.endPair sp (x.readG a.val).toNat))
      | none => .done s)
    if !s.canIssue i.sp.val || !(s.pair i.sp.val).guards i then t
    else
      match (s.pair i.sp.val).op with
      | some opid => t.progCheck opid
      | none => t)

/-- R231: TRAP. -/
def execTrap (i : Issue) (tgt : BitVec 14) (s : State) : Res :=
  let _ := tgt
  .next (s.issue i (fun _ _ _ => .exc 0x0E))

/-- R241: NOP retires and does nothing else. -/
def execNop (i : Issue) (s : State) : Res := .next (s.issue i (fun s _ _ => .done s))

/-- R204: the guard of an instruction word. -/
def Pair.guardsWord (x : Pair) (w : W64) : Bool := guardOf (x.readP (bits w 56 4)) (bit w 55)

/-- The word at the pair's `PC` in its executing bank (R200, R204). -/
def Pair.wordAt (x : Pair) : W64 := Tab.get 0 (if x.bank then x.ib1 else x.ib0) x.pc.toNat

/-- The command that the instruction at pair `sp`'s `PC` is (R204 to R241). -/
def State.nextInstr (s : State) (sp : Fin 8) : Instr := lefizaOf sp (s.pair sp.val).wordAt

/-- R231: an illegal word whose guard holds raises the illegal-instruction exception; with a false guard it retires (R204). -/
def execIllegalInstruction (sp : Fin 8) (w : W64) (s : State) : Res :=
  .next (if !s.canIssue sp.val || !illegalWord w then s
    else if (s.pair sp.val).guardsWord w then s.raiseExc sp.val 0x01
    else s.modPair sp.val (fun x => x.retire (x.pc + 1)))

end Sys2Proof.Machine
end

