-- ==== Sys2Proof/Machine/Tensor.lean ====
section
/-! DEFINITION. Tensor instructions at issue (R211 to R219): tensor descriptors, handles (R170 to R172), loop tables (R190, R191), the
checks of MXRUN, MXEW, VRUN, SXQ and class 0x9, and the cluster queues. -/

namespace Sys2Proof.Machine

/-! Tensor descriptors and handles -/

/-- R211: a tensor descriptor; `rows` and `cols` are the counts themselves. -/
structure TDesc where
  handle : Nat
  offset : Nat
  fmt : Nat
  scale : Nat
  blk : Nat
  dir : Bool
  loc : Nat
  rows : Nat
  cols : Nat
  soff : Nat
  lanes : BitVec 128
deriving DecidableEq, Repr

def TDesc.ofBits (v : BitVec 512) : TDesc :=
  { handle := bits v 0 8, offset := bits v 8 23, fmt := bits v 32 4, scale := bits v 36 2, blk := bits v 40 3, dir := bit v 43,
    loc := bits v 44 4, rows := bits v 48 16 + 1, cols := bits v 64 16 + 1, soff := bits v 96 32, lanes := v.extractLsb' 128 128 }

/-- R211: a reserved code or bit is set. -/
def tdescBad (v : BitVec 512) : Bool :=
  let d := TDesc.ofBits v
  8 ≤ d.fmt || d.scale = 3 || 5 ≤ d.blk || 8 ≤ d.loc || bit v 31 || bits v 38 2 != 0 || bits v 80 16 != 0 || bits v 256 256 != 0

def TDesc.f (d : TDesc) : Fmt := (Fmt.ofCode d.fmt).getD .w32
def TDesc.k (d : TDesc) : ScaleKind := (ScaleKind.ofCode d.scale).getD .none
def TDesc.b (d : TDesc) : Nat := 8 * 2 ^ d.blk
/-- R59: an integer format without a block scale. -/
def TDesc.int (d : TDesc) : Bool := d.f.isInt && d.k = .none

/-- Fields of a handle (R170). -/
def hValid (w : W64) : Bool := bit w 63
def hKind (w : W64) : Nat := bits w 60 3
def hPitch (w : W64) : Nat := 64 * 2 ^ bits w 56 4
def hSlots (w : W64) : Nat := bits w 52 4 + 1
def hSlotBytes (w : W64) : Nat := bits w 44 8 * 4096
def hBytes (w : W64) : Nat := (bits w 33 11 + 1) * 4096
def hStart (w : W64) : Nat := bits w 22 11 * 4096
def hHead (w : W64) : Nat := bits w 18 4
def hTail (w : W64) : Nat := bits w 14 4
def hBusy (w : W64) : Nat := bits w 9 5
def hFull (w : W64) : Nat := bits w 4 5
def hRing (w : W64) : Bool := hValid w && (hKind w = 1 || hKind w = 2)

def Cluster.handle (c : Cluster) (h : Nat) : W64 := Tab.get 0 c.handles h
def Cluster.setHandle (c : Cluster) (h : Nat) (w : W64) : Cluster := { c with handles := Tab.set 0 c.handles h w }

/-- R176: the ring's counters with new values; HEAD and TAIL turn in the ring's slots. -/
def ringSet (w : W64) (head tail busy full : Nat) : W64 :=
  setBits (setBits (setBits (setBits w 18 4 (head % hSlots w)) 14 4 (tail % hSlots w)) 9 5 busy) 4 5 full

/-- R176: the state of slot `i`. -/
inductive SlotSt where
  | empty | filling | readable
deriving DecidableEq, Repr

def slotState (w : W64) (i : Nat) : SlotSt :=
  let k := (i + hSlots w - hTail w) % hSlots w
  if k < hFull w then .readable else if k < hBusy w then .filling else .empty

/-- R114: column `c` is masked by the descriptor's lane mask. -/
def TDesc.maskedCol (d : TDesc) (c : Nat) : Bool := d.lanes.getLsbD (c % 128)

/-- The columns that a lane mask leaves active (R114). -/
def activeCols (m : BitVec 128) (cols : Nat) : List Nat := (List.range cols).filter (fun c => !m.getLsbD (c % 128))

/-- The bytes, relative to its handle, that an access to `rows` rows of the columns `cs` reaches: its data from the first byte to the last,
and the scales of those elements from the first to the last (R211). -/
def TDesc.span (d : TDesc) (w : W64) (delta : Int) (rows : Nat) (cs : List Nat) : List (Int × Int) :=
  match cs.head?, cs.getLast? with
  | some f, some l =>
    let base : Int := (d.offset : Int) + delta
    let data := (base + (f * d.f.width / 8 : Nat), base + ((rows - 1) * hPitch w + ceilDiv ((l + 1) * d.f.width) 8 : Nat))
    let i0 := if d.dir then f else f / d.b
    let i1 := if d.dir then (rows - 1) / d.b * d.cols + l else (rows - 1) * ceilDiv d.cols d.b + l / d.b
    if d.k = .none then [data] else [data, (((d.soff + i0 * d.k.bytes : Nat) : Int), ((d.soff + (i1 + 1) * d.k.bytes : Nat) : Int))]
  | _, _ => []

/-- R172: an access to `rows` rows of the columns `cs` runs out of the extent of handle `w`, or of a tile buffer. -/
def TDesc.overflow (d : TDesc) (w : W64) (delta : Int) (rows : Nat) (cs : List Nat) : Bool :=
  if d.loc = 7 then false
  else if d.loc != 0 then cs.getLast?.any (fun l => decide (16384 ≤ (rows - 1) * d.cols + l))
  else !hValid w || (d.span w delta rows cs).any (fun r => decide (r.1 < 0 ∨ (hBytes w : Int) < r.2))

/-- One element of an operand (R44, R49, R211); `vals` are the values of the queue's head tile (R118). -/
def TDesc.elem (d : TDesc) (c : Cluster) (vals : List W32) (delta : Int) (r col : Nat) : Fl :=
  if d.loc = 7 then ofW32 (vals.getD (r * d.cols + col) 0)
  else if d.loc != 0 then ofW32 (Tab.get 0 c.tileBufs ((d.loc - 1) * 16384 + r * d.cols + col))
  else
    let w := c.handle d.handle
    let base := ((hStart w + d.offset + r * hPitch w : Nat) + delta).toNat
    let i := if d.dir then r / d.b * d.cols + col else r * ceilDiv d.cols d.b + col / d.b
    scaledElem d.k (scaleVal d.k (readLe c.spm (hStart w + d.soff + i * d.k.bytes) d.k.bytes)) (ofCode d.f (codeAt c.spm base d.f.width col))

/-- A row of an operand. -/
def TDesc.row (d : TDesc) (c : Cluster) (vals : List W32) (delta : Int) (r : Nat) : List Fl :=
  (List.range d.cols).map (d.elem c vals delta r)

/-- A column of an operand over `n` rows. -/
def TDesc.col (d : TDesc) (c : Cluster) (vals : List W32) (delta : Int) (n col : Nat) : List Fl :=
  (List.range n).map (fun r => d.elem c vals delta r col)

/-! Loop tables (R190, R191) -/

/-- Level `v`: iterations and the four strides. -/
structure LoopLevel where
  cnt : Nat
  strs : List Int
deriving DecidableEq, Repr

def loopLevel (w : BitVec 1024) (v : Nat) : LoopLevel :=
  ⟨bits w (8 * (8 + 20 * v)) 16 + 1, (List.range 4).map (fun k => (w.extractLsb' (8 * (12 + 20 * v + 4 * k)) 32).toInt)⟩

def loopLevels (w : BitVec 1024) : Nat := bits w 0 3
def loopOrder (w : BitVec 1024) (k : Nat) : Nat := bits w (8 + 3 * k) 3

/-- R190: a reserved bit is set, or `LEVELS` or `ORDER` breaks its rules. -/
def loopBad (w : BitVec 1024) : Bool :=
  let n := loopLevels w
  let used := (List.range n).map (loopOrder w)
  n = 0 || n = 7 || bits w 3 5 != 0 || bits w 26 38 != 0 || (List.range 6).any (fun v => bits w (8 * (10 + 20 * v)) 16 != 0)
    || !decide used.Nodup || used.any (fun v => n ≤ v) || ((List.range 6).drop n).any (fun k => loopOrder w k != 0)

/-- Index tuples of the depths in iteration order, the innermost fastest (R191). -/
def loopTuples (ns : List Nat) : List (List Nat) :=
  match ns with
  | [] => [[]]
  | n :: ns => (List.range n).flatMap (fun i => (loopTuples ns).map (fun t => i :: t))

/-- One iteration: the indices by depth and the address offsets of the four operands. -/
structure Iter where
  idx : List Nat
  offs : List Int
deriving DecidableEq, Repr

/-- R191: the iterations that a table runs; a single one with no table. -/
def itersOf (t : Option (BitVec 1024)) : List Iter :=
  match t with
  | none => [⟨[], [0, 0, 0, 0]⟩]
  | some w =>
    let levels := (List.range (loopLevels w)).map (fun k => loopLevel w (loopOrder w k))
    (loopTuples (levels.map LoopLevel.cnt)).map (fun t =>
      ⟨t, (List.range 4).map (fun o => ((t.zip levels).map (fun p => (p.1 : Int) * p.2.strs.getD o 0)).sum)⟩)

/-- Where an operand stands among a table's four strides (R190): A, B, C and the output. -/
def Iter.off (i : Iter) (o : Nat) : Int := i.offs.getD o 0

/-- R193, R194 of completion records: six 16-bit indices, depth 0 first (R293). -/
def resIdx (xs : List Nat) : BitVec 96 :=
  BitVec.ofNat 96 (leNat ((List.range 6).flatMap (fun k => leBytes 2 (xs.getD k 0))))

/-! What queue entries name -/

/-- Handles that a descriptor in the scratchpad names. -/
def tHandle (v : BitVec 512) : List Nat := let d := TDesc.ofBits v; if d.loc = 0 then [d.handle] else []

/-- R184: fields of a stream descriptor. -/
structure SDesc where
  src : W64
  kind : Nat
  dims : Nat
  cache : Bool
  rt : Bool
  fin : Nat
  fout : Nat
  dst : Nat
  list : Nat
  dstAddr : Nat
  cnts : List Nat
  valid0 : Nat
  pad : Nat
  strides : List Int
  valid1 : Nat
  waitSig : Nat
  raiseSig : Nat
  waitEn : Bool
  raiseEn : Bool
  gather : Bool
  deadline : Nat
  dstHi : Nat
deriving DecidableEq, Repr

def SDesc.ofBits (v : BitVec 512) : SDesc :=
  { src := v.extractLsb' 0 64, kind := bits v 64 3, dims := bits v 67 3, cache := bit v 70, rt := bit v 71, fin := bits v 72 4,
    fout := bits v 76 4, dst := bits v 80 8, list := bits v 88 8, dstAddr := bits v 96 32,
    cnts := (List.range 5).map (fun k => bits v (128 + 16 * k) 16 + 1), valid0 := bits v 208 16, pad := bits v 224 32,
    strides := (List.range 4).map (fun k => (v.extractLsb' (256 + 32 * k) 32).toInt), valid1 := bits v 384 16,
    waitSig := bits v 400 16, raiseSig := bits v 416 16, waitEn := bit v 432, raiseEn := bit v 433, gather := bit v 434,
    deadline := bits v 448 32, dstHi := bits v 480 20 }

/-- The handle of a scratchpad source (R184). -/
def SDesc.srcHandle (d : SDesc) : Nat := bits d.src 0 8
def SDesc.fromSpm (d : SDesc) : Bool := [1, 3, 4, 5].contains d.kind
def SDesc.toSpm (d : SDesc) : Bool := [0, 2, 4].contains d.kind

def handlesOf (w : QWork) : List Nat :=
  match w with
  | .mx _ ds db _ _ _ _ _ _ _ => tHandle ds ++ tHandle db
  | .vx _ ia io ib ic _ _ _ _ => tHandle ia ++ tHandle io ++ (ib.map tHandle).getD [] ++ (ic.map tHandle).getD []
  | .hset h _ => [h]
  | .hclr h => [h]
  | .rclr h => [h]
  | .sx v =>
    let d := SDesc.ofBits v
    (if d.fromSpm then [d.srcHandle] else []) ++ (if d.toSpm then [d.dst] else []) ++ (if d.gather then [d.list] else [])
  | .ltw _ _ => []

def tableOf (w : QWork) : Option Nat :=
  match w with
  | .mx _ _ _ _ lt _ _ _ _ _ => lt
  | .vx _ _ _ _ _ lt _ _ _ => lt
  | .ltw t _ => some t
  | _ => none

/-- Rings whose slot an entry releases at completion (R176, R177). -/
def releasesOf (w : QWork) : List Nat :=
  match w with
  | .mx _ ds db _ _ _ _ _ rlb rls => (if rlb then tHandle db else []) ++ (if rls then tHandle ds else [])
  | .vx _ ia _ _ _ _ rla _ _ => if rla then tHandle ia else []
  | _ => []

/-- R171: a queued or running instruction names handle `h`. -/
def Cluster.names (c : Cluster) (h : Nat) : Bool := c.queue.any (fun e => (handlesOf e.work).contains h)

/-- The contents that an instruction issued now sees of loop table `t`: those of the last LTW still queued, or the table (R218). -/
def Cluster.loopSeen (c : Cluster) (t : Nat) : BitVec 1024 :=
  c.queue.foldl (fun w e => match e.work with
    | .ltw t' v => if t' = t then v else w
    | _ => w) (Tab.get 0 c.loops t)

/-- R218: what an entry of the scratchpad control makes of the handle table. -/
def QWork.onHandles (c : Cluster) : QWork → Cluster
  | .hset h w => c.setHandle h w
  | .hclr h => c.setHandle h (putBit (c.handle h) 63 false)
  | .rclr h => c.setHandle h (setBits (c.handle h) 4 18 0)
  | _ => c

/-- The cluster as an instruction issued now sees its handle table: with the writes that are still queued (R218, R220). -/
def Cluster.seen (c : Cluster) : Cluster := c.queue.foldl (fun c e => e.work.onHandles c) c

/-- R177: the release flag on operand `d` is misplaced: it does not read the slot that will be TAIL. -/
def Cluster.releaseBad (c : Cluster) (d : TDesc) : Bool :=
  let w := c.handle d.handle
  if d.loc != 0 || !hRing w then true
  else
    let pend := (c.queue.map (fun e => (releasesOf e.work).count d.handle)).sum
    (hTail w + pend) % hSlots w != d.offset / hSlotBytes w

/-! The cluster queues (R219) -/

/-- A new queue entry. -/
def newEnt (tag : Nat) (opid : W32) (sp part : Nat) (eng : Engine) (work : QWork) (tick : W64) (xl : List TlbEnt := []) : QEnt :=
  { tag := tag, opid := opid, sp := sp, part := part, eng := eng, st := .queued, work := work, issueTick := tick, left := 0, pos := 0,
    fills := [], inp := [], sigTaken := false, bad := none, hold := [], xl := xl, landed := tick }

/-- R213: the cluster exception. -/
def State.clusterBad (s : State) (sp : Nat) (cmask : BitVec 4) : Bool :=
  cmask = 0 || (maskClusters sp cmask).any (fun n => !(match s.pairOp sp with
    | some o => bit o.clusters n && s.inService n
    | none => false))

/-- R212, R219: the entry joins the queue of every cluster of `CMASK`. DESIGN CHOICE (log entry 121): each cluster numbers its issue tags
from 0 and wraps at 65,536; R173 gives the tag 16 bits and no numbering. -/
def State.enqueue (s : State) (sp : Nat) (x : Pair) (cmask : BitVec 4) (eng : Engine) (work : QWork) (xl : List TlbEnt := []) : State :=
  (maskClusters sp cmask).foldl (fun s n => s.modCluster n (fun c =>
    { c with queue := c.queue ++ [newEnt c.nextTag (x.op.getD 0) sp x.part eng work s.clk.tick xl], nextTag := (c.nextTag + 1) % 65536 })) s

/-- R219: a queue named in `CMASK` is full. -/
def State.queueFull (s : State) (sp : Nat) (cmask : BitVec 4) : Bool :=
  (maskClusters sp cmask).any (fun n => Config.queueMax ≤ (s.cluster n).queue.length)

/-- R225: the instruction names a cluster whose share the pair's operation has lent. -/
def State.namesLent (s : State) (sp : Nat) (cmask : BitVec 4) : Bool :=
  (maskClusters sp cmask).any (fun n => (s.pairOp sp).any (fun o => bit o.lent n))

/-- R225, R347: the pair's shares are lent, and the tensor instruction waits for the recall. -/
def Pair.toRecall (x : Pair) : Pair := { x with st := if x.st = .running then .waitRecall else x.st }

/-- A tensor instruction whose own checks have passed (R213, R219, R225); none issues while the link buffer is full (R393); `f` is what happens to the pair. -/
def State.issueTensor (s : State) (sp : Nat) (x : Pair) (cmask : BitVec 4) (eng : Engine) (work : QWork) (xl : List TlbEnt := []) : Lz :=
  if s.clusterBad sp cmask then .exc 0x0B
  else if x.recalled && s.namesLent sp cmask then .wait (s.setPair sp x.toRecall)
  else if s.queueFull sp cmask || s.linkFull then .wait s
  else .done (s.enqueue sp x cmask eng work xl)

/-- The loop table that `LT` names (R214): the d register must be of kind loop table. -/
def Pair.loopRef (x : Pair) (lt : Option (Fin 32)) : Option (Option Nat) :=
  match lt with
  | none => some none
  | some k => if (x.readD k.val).kind = 3 then some (some (x.readD k.val).tab) else none

/-- R190: a named loop table is bad in one of the clusters. -/
def State.loopBadIn (s : State) (ns : List Nat) (lt : Option Nat) : Bool :=
  match lt with
  | none => false
  | some t => ns.any (fun n => loopBad ((s.cluster n).loopSeen t))

/-! Class 0x6 (R214, R215) -/

/-- Output columns that a cell holds: 2 codes of K2 stationary, 4 of B1 (R91). -/
def Fmt.pack : Fmt → Nat
  | .k2 => 2 | .b1 => 4 | _ => 1

/-- R79, R91: the output columns that a gang mode's logical array has, each cell holding `pack` codes. -/
def gangCols (gang pack : Nat) : Nat := (if gang = 0 then 64 else 128) * pack

/-- R94: operand formats that element-wise mode accepts, CF16 in P2 only. -/
def mxewFmt (pm : BitVec 2) (f : Fmt) : Bool := [.cf8, .i8, .i4].contains f || (f = .cf16 && pm = 1)

/-- The elements of a reduction (R75, R83, R214): the broadcast operand's columns, as far as the stationary operand goes
(DESIGN CHOICE, log entry 122). -/
def redLen (ew wide : Bool) (s b : TDesc) : Nat := if ew then b.cols else Nat.min b.cols (if wide then s.cols else s.rows)

/-- The rows and columns of the stationary and of the broadcast operand that a tile reads. -/
def mxReach (ew wide : Bool) (s b : TDesc) : (Nat × Nat) × (Nat × Nat) :=
  let n := redLen ew wide s b
  (if ew then (b.rows, b.cols) else if wide then (s.rows, n) else (n, s.cols), (b.rows, n))

/-- R215: why an array instruction does not issue, apart from clusters and handles. R79's columns, R91's modes and R94's formats name no
exception of their own: DESIGN CHOICE (log entry 122), they raise the invalid-tensor exception. -/
def mxBad (part : Part) (ew : Bool) (f : MxF) (ds db dO : DReg) (lt : Option Nat) : Option Nat :=
  let s := TDesc.ofBits ds.v
  let b := TDesc.ofBits db.v
  let o := TDesc.ofBits dO.v
  let wide := f.gang = 3
  let cols := if ew then b.cols else if wide then s.rows else s.cols
  if ds.kind != 1 || db.kind != 1 || dO.kind != 1 || tdescBad ds.v || tdescBad db.v || tdescBad dO.v || f.pm = 3 then some 0x06
  else if s.f.isSub && !part.optD then some 0x0A
  else if (lt.isNone && 512 < b.rows) || (!ew && wide && (8 < s.rows || 2048 < b.cols)) || s.loc = 7 || b.loc = 7
    || (s.f.isSub && f.pm != 0) || o.loc = 0 || o.fmt != 0 || (ew && f.gang != 0) || 16384 < Nat.min 512 b.rows * cols
    || (ew && (f.pm = 2 || !mxewFmt f.pm s.f || !mxewFmt f.pm b.f)) || (!ew && wide && s.f.isSub)
    || (!ew && !wide && gangCols f.gang.toNat s.f.pack < s.cols) then some 0x06
  else none

/-- R172, R177: the handle exception of an array instruction in cluster `c`. -/
def mxHandleBad (c : Cluster) (ew : Bool) (f : MxF) (s b : TDesc) (loop : Bool) : Bool :=
  let bad (d : TDesc) (x : Nat × Nat) : Bool :=
    if loop then d.loc = 0 && !hValid (c.handle d.handle) else d.overflow (c.handle d.handle) 0 x.1 (List.range x.2)
  let r := mxReach ew (f.gang = 3) s b
  bad s r.1 || bad b r.2 || (f.rlb && c.releaseBad b) || (f.rls && c.releaseBad s)

/-- MXRUN and MXEW. -/
def State.mx (s : State) (i : Issue) (f : MxF) (ew : Bool) : State :=
  s.issue i (fun s sp x =>
    let ds := x.readD f.ds.val
    let db := x.readD f.db.val
    let dO := x.readD f.dout.val
    let ns := maskClusters sp f.cmask
    match x.loopRef f.lt with
    | none => .exc 0x06
    | some lt =>
      match mxBad s.part ew f ds db dO lt with
      | some c => .exc c
      | none =>
        if s.loopBadIn ns lt then .exc 0x08
        else if s.clusterBad sp f.cmask then .exc 0x0B
        else if ns.any (fun n => mxHandleBad (s.cluster n).seen ew f (TDesc.ofBits ds.v) (TDesc.ofBits db.v) lt.isSome) then .exc 0x09
        else s.issueTensor sp x f.cmask .array (.mx ew ds.v db.v dO.v lt f.gang.toNat f.pm.toNat f.acc.toNat f.rlb f.rls))

/-- R214: MXRUN queues array tiles. -/
def execMxrun (i : Issue) (f : MxF) (s : State) : Res := .next (s.mx i f false)

/-- R93, R214: MXEW queues element-wise products. -/
def execMxew (i : Issue) (f : MxF) (s : State) : Res := .next (s.mx i f true)

/-! Class 0x7 (R216) -/

/-- R112, R216: why VRUN does not issue, apart from clusters and handles. -/
def vxBad (part : Part) (f : VxF) (chain : BitVec 320) (ia io ib ic : DReg) : Option Nat :=
  let a := TDesc.ofBits ia.v
  let o := TDesc.ofBits io.v
  let c := Chain.ofBits chain
  let kinds := [ia, io] ++ (if f.ben then [ib] else []) ++ (if f.cen then [ic] else [])
  if kinds.any (fun d => d.kind != 1) then some 0x05
  else if kinds.any (fun d => tdescBad d.v) || Chain.invalid chain f.ben f.cen (o.loc != 0) (a.cols % 2 = 1) || o.loc = 7
    || (if c.couple then a.loc != 1 + c.tbuf else a.loc != 7) then some 0x07
  else if (c.outfmt = 6 || c.outfmt = 7) && !part.optD then some 0x0A
  else none

/-- The operands of a vector entry; the output has IN_A's shape (R114) and the format of `OUTFMT`. -/
structure VxOpds where
  chain : Chain
  a : TDesc
  o : TDesc
  b : Option TDesc
  ic : Option TDesc
  g : List W64
  tile : Nat
deriving DecidableEq, Repr

def VxOpds.of (chain : BitVec 320) (ia io : BitVec 512) (ib ic : Option (BitVec 512)) (g : List W64) (tile : Nat) : VxOpds :=
  let ch := Chain.ofBits chain
  let a := TDesc.ofBits ia
  ⟨ch, a, { TDesc.ofBits io with rows := a.rows, cols := a.cols, fmt := ch.outfmt }, ib.map TDesc.ofBits, ic.map TDesc.ofBits, g, tile⟩

/-- An operand as a vector instruction reaches it: whether it writes, which of the four strides of a loop table drives it (R190), and the rows. -/
structure VxReach where
  d : TDesc
  wr : Bool
  stride : Nat
  rows : Nat
deriving DecidableEq, Repr

/-- The operands that a vector instruction reaches; IN_C gives one row to all (R113). -/
def VxOpds.reach (v : VxOpds) : List VxReach :=
  [⟨v.a, false, 0, v.a.rows⟩] ++ ((v.b.map (fun d => ⟨d, false, 1, v.a.rows⟩)).toList) ++ ((v.ic.map (fun d => ⟨d, false, 2, 1⟩)).toList)
    ++ [⟨v.o, true, 3, v.a.rows⟩]

/-- The columns that a vector instruction reaches in every operand: those that IN_A's mask leaves active (R114). -/
def VxOpds.cols (v : VxOpds) : List Nat := activeCols v.a.lanes v.a.cols

/-- R172, R177: the handle exception of a vector instruction in cluster `c`. -/
def vxHandleBad (c : Cluster) (rla : Bool) (loop : Bool) (v : VxOpds) : Bool :=
  v.reach.any (fun x => if loop then x.d.loc = 0 && !hValid (c.handle x.d.handle) else x.d.overflow (c.handle x.d.handle) 0 x.rows v.cols)
    || (rla && c.releaseBad v.a)

/-- The g registers that a chain names, latched by index (R115). -/
def Pair.latchG (x : Pair) : List W64 := (List.range 64).map x.readG

/-- R216: VRUN queues one vector chain. -/
def execVrun (i : Issue) (f : VxF) (s : State) : Res :=
  .next (s.issue i (fun s sp x =>
    let va := 8 * f.chain.toNat
    let ia := x.readD f.ia.val
    let io := x.readD f.io.val
    let ib := x.readD f.ib.val
    let ic := x.readD f.ic.val
    let ns := maskClusters sp f.cmask
    if dmemSize < va + 40 then .exc 0x02
    else
      let chain := BitVec.ofNat 320 (readLe x.data va 40)
      match x.loopRef f.lt with
      | none => .exc 0x05
      | some lt =>
        match vxBad s.part f chain ia io ib ic with
        | some c => .exc c
        | none =>
          let vb := if f.ben then some ib.v else none
          let vc := if f.cen then some ic.v else none
          let work : QWork := .vx chain ia.v io.v vb vc lt f.rla x.latchG
            ((s.csr sp 0x015).getD 0 |>.toNat |> (fun r => r % 256 * 2 ^ 24 + x.vruns % 2 ^ 24))
          if s.loopBadIn ns lt then .exc 0x08
          else if s.clusterBad sp f.cmask then .exc 0x0B
          else if ns.any (fun n => vxHandleBad (s.cluster n).seen f.rla lt.isSome (VxOpds.of chain ia.v io.v vb vc x.latchG 0)) then .exc 0x09
          else
            match s.issueTensor sp x f.cmask .vector work with
            | .done s' => .done (s'.modPair sp (fun y => { y with vruns := y.vruns + 1 }))
            | r => r))

/-! Class 0x8 (R217) -/

/-- R54, R188: conversions a stream may make, by format code; 0xF moves raw bytes. -/
def streamConv (a b : Nat) : Bool :=
  (a = 0xF && b = 0xF) || (a < 8 && a = b)
    || [(2, 1), (2, 0), (1, 0), (0, 1), (0, 2), (1, 2), (5, 4), (4, 0), (5, 0), (6, 0), (7, 0), (3, 0), (0, 4), (0, 5), (0, 3)].contains (a, b)

/-- R184: a reserved code or bit, or a field that the kind wants at 0. -/
def sdescBad (v : BitVec 512) : Bool :=
  let d := SDesc.ofBits v
  let srcBad := match d.kind with
    | 0 => bits d.src 52 12 != 0
    | 2 => bits d.src 3 61 != 0
    | _ => bits d.src 31 33 != 0
  6 ≤ d.kind || d.dims = 0 || 5 < d.dims || (8 ≤ d.fin && d.fin != 0xF) || (8 ≤ d.fout && d.fout != 0xF) || (srcBad && !d.gather)
    || ((d.kind = 1 || d.kind = 3) && d.dst != 0) || (!d.gather && d.list != 0) || bits v 435 5 != 0 || bits v 440 8 != 0
    || (d.kind != 1 && d.dstHi != 0) || bits v 500 12 != 0 || !streamConv d.fin d.fout

/-- R184, R188, R341: why SXQ does not issue. -/
def State.sxBad (s : State) (set : CfgSet) (p : Nat) (v : BitVec 512) : Option Nat :=
  let d := SDesc.ofBits v
  if sdescBad v then some 0x08
  else if d.kind = 5 && !s.part.optP then some 0x0A
  else if ([6, 7].contains d.fin || [6, 7].contains d.fout) && !s.part.optD then some 0x0A
  else if (d.waitEn && !set.mayWait p d.waitSig) || (d.raiseEn && !set.owns p d.raiseSig) then some 0x08
  else none

/-- Bits of an element in a stream's format code. -/
def streamWidth (f : Nat) : Nat := if f = 0xF then 8 else ((Fmt.ofCode f).getD .w32).width

/-- The counts of the dimensions in use. -/
def SDesc.ns (d : SDesc) : List Nat := d.cnts.take d.dims

/-- Elements of the dimensions below the outermost (R185). -/
def SDesc.inner (d : SDesc) : Nat := (d.ns.take (d.dims - 1)).foldl (· * ·) 1
def SDesc.total (d : SDesc) : Nat := d.ns.foldl (· * ·) 1

/-- The indices (e0, …, e4) of element `i` in order, e0 fastest (R185). -/
def SDesc.indices (d : SDesc) (i : Nat) : List Nat :=
  ((d.ns.foldl (fun (a : List Nat × Nat) n => (a.1 ++ [a.2 % n], a.2 / n)) ([], i))).1

/-- R187: an element outside `VALID0` or `VALID1`. -/
def SDesc.padded (d : SDesc) (e : List Nat) : Bool :=
  (d.valid0 != 0 && decide (d.valid0 ≤ e.getD 0 0)) || (d.valid1 != 0 && decide (d.valid1 ≤ e.getD 1 0))

/-- R186: the base address of dimension-1 index `e1` from the address list. -/
def Cluster.listBase (c : Cluster) (h e1 : Nat) : Nat := readLe c.spm (hStart (c.handle h) + 8 * e1) 8 % 2 ^ 52

/-- R185, R186: the source bit address of an element: a byte base and the element's offset in bits within dimension 0. -/
def SDesc.srcAddr (d : SDesc) (c : Cluster) (e : List Nat) : Int :=
  let outer := ((List.range 3).map (fun k => (e.getD (k + 2) 0 : Int) * d.strides.getD (k + 1) 0)).sum
  if d.gather then (c.listBase d.list (e.getD 1 0) : Int) + d.strides.getD 0 0 + outer
  else
    let base : Nat := if d.kind = 0 then bits d.src 0 52 else bits d.src 8 23
    (base : Int) + (e.getD 1 0 : Int) * d.strides.getD 0 0 + outer

/-- R186: the address list's handle serves: KIND 3, valid. -/
def Cluster.listOk (c : Cluster) (d : SDesc) : Bool := !d.gather || (hValid (c.handle d.list) && hKind (c.handle d.list) = 3)

/-- The device addresses that a stream uses in cluster `c`, run by run of dimension 0 (R185, R217). -/
def SDesc.memRuns (d : SDesc) (c : Cluster) (part : Nat) : List Opd :=
  if d.kind = 0 then
    let n0 := d.cnts.getD 0 1
    let live := if d.valid0 = 0 then n0 else Nat.min n0 d.valid0
    (List.range (d.total / n0)).filterMap (fun r =>
      let e := d.indices (r * n0)
      let a := d.srcAddr c e
      if live = 0 || d.padded e || a < 0 then none else some ⟨part, .compute, false, a.toNat, ceilDiv (live * streamWidth d.fin) 8⟩)
  else if d.kind = 1 then [⟨part, .compute, true, d.dstAddr + d.dstHi * 2 ^ 32, ceilDiv (d.total * streamWidth d.fout) 8⟩]
  else []

/-- R217, R333: the worst outcome of a stream's pages over its clusters. -/
def State.judgeStream (s : State) (ns : List Nat) (part : Nat) (d : SDesc) : Verdict × Nat :=
  (ns.flatMap (fun n => d.memRuns (s.cluster n) part)).foldl (fun acc o =>
    let v := s.judgeOpd o
    if Verdict.worst acc.1 v.1 = acc.1 then acc else v) (.ok, 0)

/-- The translations of a stream's own addresses (R217); the bases of a GATHER come from its address list when they are used (R186). -/
def State.streamXl (s : State) (c : Cluster) (part : Nat) (d : SDesc) : List TlbEnt :=
  if d.gather then []
  else ((d.memRuns c part).flatMap Opd.pages).eraseDups.filterMap (fun pg => match s.xlate part (pg * 2 ^ 25) with
    | .ok e => some e
    | _ => none)

/-- R217: SXQ translates and queues a stream; a hard page kills the operation (R333), a held one makes the pair wait. -/
def execSxq (i : Issue) (dd : Fin 32) (cmask : BitVec 4) (s : State) : Res :=
  .next (s.issue i (fun s sp x =>
    let r := x.readD dd.val
    let d := SDesc.ofBits r.v
    let ns := maskClusters sp cmask
    if r.kind != 2 then .exc 0x05
    else
      match s.sxBad (s.setOf x) x.part r.v with
      | some c => .exc c
      | none =>
        if s.clusterBad sp cmask then .exc 0x0B
        else if ns.any (fun n => !(s.cluster n).seen.listOk d) then .exc 0x09
        else
          match if d.gather then (.ok, 0) else s.judgeStream ns x.part d with
          | (.ok, _) =>
            let c := s.cluster (ns.headD 0)
            let xl := s.streamXl c x.part d
            let s := if d.gather then s else (d.memRuns c x.part).foldl State.touchOpd s
            s.issueTensor sp x cmask .stream (.sx r.v) xl
          | (.held, _) => .wait s
          | (.hard, va) =>
            match x.op with
            | some opid => .wait (s.stopOp opid 0x30 0 (resVa va))
            | none => .wait s))

/-! Class 0x9 (R218) -/

/-- R178, R179: lines left to handles under the cache size in effect. -/
def Cluster.linesLeft (c : Cluster) : Nat := 1536 - 256 * c.cacheMib.toNat

/-- R171: why a handle-table write is refused. -/
def handleBad (c : Cluster) (h : Nat) (w : W64) : Bool :=
  let kind := hKind w
  let ring := kind = 1 || kind = 2
  4 ≤ kind || 11 ≤ bits w 56 4 || bits w 0 4 != 0 || c.linesLeft ≤ bits w 22 11 + bits w 33 11
    || (if ring then bits w 52 4 < 2 || bits w 44 8 = 0 || bits w 33 11 + 1 != (bits w 52 4 + 1) * bits w 44 8
        else bits w 52 4 != 0 || bits w 44 8 != 0)
    || c.names h

/-- R218: the entry as written, HEAD, TAIL, BUSY and FULL at 0. -/
def handleWord (w : W64) : W64 := setBits w 4 18 0

/-- The tag by which a ring's own scoreboard entry is known. -/
def ringTag (h : Nat) : Nat := 65536 + h

/-- R178: the ring's scoreboard entry, ENG 6, for as long as its handle is valid. DESIGN CHOICE (log entry 121): its `WR` is 1 and its `ITAG`
the handle's number; no rule gives either. -/
def Cluster.ringEntry (c : Cluster) (h : Nat) : Cluster :=
  let sb := c.sb.filter (fun e => e.tag != ringTag h)
  let w := c.handle h
  { c with sb := if hRing w then sb ++ [⟨true, 6, hStart w / 64, (hStart w + hBytes w) / 64 - 1, ringTag h⟩] else sb }

/-- R196, R364: window number of handle `h` of cluster `n`. -/
def windowOf (n h : Nat) : W16 := BitVec.ofNat 16 (n * 256 + h)

/-- R363: a header this block sends about a window. -/
def State.peerHdr (s : State) (reason : Nat) (dst : BitVec 12) (window : W16) (slot part : Nat) (bytes : Nat) : PeerHdr :=
  { reason := BitVec.ofNat 8 reason, srcId := s.glob.peerId, dstId := dst, window := window, slot := BitVec.ofNat 4 slot,
    part := BitVec.ofNat 4 part, epoch := (s.cluster (window.toNat / 256 % 32)).roleEpoch, opid := 0, bytes := BitVec.ofNat 32 bytes }

def State.peerSend (s : State) (type : Nat) (h : PeerHdr) (data : List Byte := []) : State :=
  s.modPeer (fun p => { p with sent := p.sent ++ [(type, h, data)] })

/-- R196, R364: CREDIT goes out for slot `slot` of an open window. -/
def State.giveCredit (s : State) (w : W16) (slot : Nat) : State :=
  match s.peer.windows.find? (fun x => x.window = w && !x.withdrawing) with
  | none => s
  | some x =>
    let s := s.modPeer (fun p => { p with windows := p.windows.map (fun y =>
      if y.window = w && !y.credited.contains slot then { y with credited := y.credited ++ [slot] } else y) })
    let h : PeerHdr := { s.peerHdr 0 x.sender w slot x.part x.slotBytes with opid := x.opid }
    s.peerSend 1 h

/-- R364: a window opens. Which block is bound to it the spec leaves open (the peer list of R290 has no stated form): a free value. -/
def State.openWindow (s : State) (n h part : Nat) (opid : W32) : State :=
  let w := (s.cluster n).handle h
  if !(hValid w && hKind w = 2) then s
  else
    let (k, s) := s.draw
    let x : Win := ⟨windowOf n h, Config.freePeer k, part, opid, [], [], hSlotBytes w, false⟩
    let s := s.modPeer (fun p => { p with windows := p.windows.filter (fun y => y.window != x.window) ++ [x] })
    (List.range (hSlots w)).foldl (fun s i => s.giveCredit x.window i) s

/-- A window that is no longer one. -/
def State.closeWindow (s : State) (n h : Nat) : State :=
  s.modPeer (fun p => { p with windows := p.windows.filter (fun y => y.window != windowOf n h) })

/-- R218: handle `h` of cluster `n` becomes `w`; a window that it was closes, and one that it becomes opens. -/
def State.putHandle (s : State) (n h part : Nat) (opid : W32) (w : W64) : State :=
  ((s.closeWindow n h).modCluster n (fun c => (c.setHandle h w).ringEntry h)).openWindow n h part opid

/-- R196, R218: every slot of ring `h` becomes Empty; a window's sender gets a credit for each that was not. -/
def State.clearRing (s : State) (n h : Nat) : State :=
  let w := (s.cluster n).handle h
  let s := s.modCluster n (fun c => c.setHandle h (setBits w 4 18 0))
  if hKind w != 2 then s
  else
    let s := s.modPeer (fun p => { p with windows := p.windows.map (fun x => if x.window = windowOf n h then { x with landed := [] } else x) })
    ((List.range (hSlots w)).filter (fun i => slotState w i != .empty)).foldl (fun s i => s.giveCredit (windowOf n h) i) s

/-- R218: handle `H` ← g[`A`]. It is judged at issue and queued (R219). -/
def execHset (i : Issue) (h : Byte) (a : Fin 64) (cmask : BitVec 4) (s : State) : Res :=
  .next (s.issue i (fun s sp x =>
    let w := x.readG a.val
    if s.clusterBad sp cmask then .exc 0x0B
    else if hKind w = 2 && !s.part.optP then .exc 0x0A
    else if (maskClusters sp cmask).any (fun n => handleBad (s.cluster n) h.toNat (handleWord w ||| (w &&& 15))) then .exc 0x09
    else s.issueTensor sp x cmask .control (.hset h.toNat (handleWord w))))

/-- R218: handle `H` ← not valid. -/
def execHclr (i : Issue) (h : Byte) (cmask : BitVec 4) (s : State) : Res :=
  .next (s.issue i (fun s sp x =>
    if s.clusterBad sp cmask then .exc 0x0B
    else if (maskClusters sp cmask).any (fun n => (s.cluster n).names h.toNat) then .exc 0x09
    else s.issueTensor sp x cmask .control (.hclr h.toNat)))

/-- R218: every slot of ring `H` ← Empty; `HEAD` ← `TAIL` ← 0. -/
def execRclr (i : Issue) (h : Byte) (cmask : BitVec 4) (s : State) : Res :=
  .next (s.issue i (fun s sp x =>
    if s.clusterBad sp cmask then .exc 0x0B
    else if (maskClusters sp cmask).any (fun n => (s.cluster n).names h.toNat || !hRing ((s.cluster n).handle h.toNat)) then .exc 0x09
    else s.issueTensor sp x cmask .control (.rclr h.toNat)))

/-- R218: LTW queues the write of 128 bytes of data memory to the loop table that d[`DD`] references. -/
def execLtw (i : Issue) (dd : Fin 32) (a : Fin 64) (cmask : BitVec 4) (s : State) : Res :=
  .next (s.issue i (fun s sp x =>
    let r := x.readD dd.val
    match x.dataAddr a 0 128 128 with
    | none => .exc 0x02
    | some v =>
      if r.kind != 3 then .exc 0x05
      else s.issueTensor sp x cmask .control (.ltw r.tab (BitVec.ofNat 1024 (readLe x.data v 128)))))

end Sys2Proof.Machine
end

