-- ==== Sys2Proof/Machine/MapOut.lean ====
section
/-! DEFINITION. Taking clusters and pairs out of service (R420), clearing a cluster (R181), withdrawing windows (R365), placing segments
again (R322). -/

namespace Sys2Proof.Machine

/-- R181: the cluster's banks and state are cleared; row repairs, counters, map-outs and the role epoch are kept. -/
def Cluster.cleared (c : Cluster) : Cluster :=
  { c with spm := [], poisoned := [], handles := [], sb := [], loops := [], cache := [], cacheMib := c.cacheNext, rowRegs := [],
           tileBufs := [], tiles := [], queue := [], accs := [], stationary := [], gang := 0, clearing := false, builtin := none }

/-- The cluster of a window (R363). -/
def windowCluster (w : W16) : Nat := w.toNat / 256 % 32

/-- R365: WITHDRAW goes out for every window of cluster `n`. -/
def State.withdraw (s : State) (n : Nat) : State :=
  let ws := s.peer.windows.filter (fun w => windowCluster w.window = n && !w.withdrawing)
  let s := s.modPeer (fun p => { p with windows := p.windows.map (fun w =>
    if windowCluster w.window = n then { w with withdrawing := true } else w) })
  ws.foldl (fun s w => s.peerSend 6 (s.peerHdr 0 w.sender w.window 0 w.part 0)) s

/-- Windows of cluster `n` whose withdrawal is not complete. -/
def State.withdrawing (s : State) (n : Nat) : Bool := s.peer.windows.any (fun w => windowCluster w.window = n && w.withdrawing)

/-- Node (k, j) of an operation's tree (R146). -/
def nodeKey (k j : Nat) : Nat := k * 2 ^ 32 + j
def Op.node (o : Op) (k j : Nat) : Option Node := Tab.get none o.nodes (nodeKey k j)
def Op.setNode (o : Op) (k j : Nat) (x : Node) : Op := { o with nodes := Tab.set none o.nodes (nodeKey k j) (some x) }

/-- The place of a segment that waits for a cluster (R322): no cluster has this number. -/
def noCluster : Nat := 32

/-- Segments of an operation that this block computes and whose partials are not complete. -/
def Op.open (o : Op) : List (Nat × Nat) := o.place.filter (fun p => !o.remote.contains p.1 && (o.node 0 p.1).isNone)

def maskOf (ns : List Nat) : BitVec 32 := ns.foldl (fun w n => if n < 32 then w ||| oneHot 32 n else w) 0

/-- Where the page of layer `l` of group `g` lies; a group that was released while pinned keeps its frame (R251). -/
def State.pinnedVa (s : State) (p g l : Nat) : Nat :=
  let d := s.desc p
  let r := s.pg p g
  let va := match (s.pool p).pendFree.find? (fun x => x.1 = g) with
    | some x => if r.st = .free then d.base + x.2 * d.groupStride else s.groupVa p r
    | none => s.groupVa p r
  va + l * d.layerStride

/-! The cluster cache (R179, R180) -/

/-- Sets of the cache in effect. -/
def Cluster.cacheSets (c : Cluster) : Nat := 128 * c.cacheMib.toNat

/-- The block becomes the most recently used of its set, which keeps 16. -/
def Cluster.cacheIn (c : Cluster) (part block : Nat) : Cluster :=
  let n := c.cacheSets
  if n = 0 then c
  else
    let rest := c.cache.filter (fun x => x != (part, block))
    let others := rest.filter (fun x => x.2 % n = block % n)
    { c with cache := (part, block) :: (if others.length < 16 then rest else rest.filter (fun x => x != others.getLastD (part, block))) }

/-- A cacheable block: a hit is counted and refreshed; a miss is counted. -/
def Cluster.cacheLook (c : Cluster) (part block : Nat) : Bool × Cluster :=
  if c.cacheSets = 0 then (false, c)
  else if c.cache.contains (part, block) then (true, { c.cacheIn part block with hits := bumpTo 0xFFFFFFFF c.hits })
  else (false, { c with misses := bumpTo 0xFFFFFFFF c.misses })

/-! Reads of built-in programs (R262, R338, R415; log entry 65) -/

/-- R262: the blocks of a sequence's two highest valid entries. -/
def Seq.topBlocks (q : Seq) : List Nat := ((q.table.filter (fun e => e.2.isSome)).map Prod.fst).reverse.take 2

/-- R244, R262: the built-in program reads a page, of a group and at a block of its sequence, or a dense tensor, with `CACHE` set: under the
policy as it now stands. -/
def State.cacheable (s : State) (o : Op) (page : Option (Nat × Nat)) : Bool :=
  match (s.desc o.part).cachePol with
  | 0 => false
  | 1 => page.any (fun x => decide (2 ≤ (s.pg o.part x.1).refcnt) || (s.seq o.part (sqidOf o.cmd)).topBlocks.contains x.2)
  | _ => true

/-- Cluster `n` requests the `len` bytes at `va` for segment `seg` of operation `o`, but for blocks that its cache holds. -/
def State.askRun (s : State) (o : Op) (n seg : Nat) (page : Option (Nat × Nat)) (va len : Nat) : State :=
  let cache := s.cacheable o page
  (requestsOf (len / 512 + 2) va len).foldl (fun s q =>
    match s.paOf o.part q.1 with
    | none => s
    | some pa =>
      let r : Req := ⟨false, o.part, q.1, pa, q.2, .builtin n o.opid seg page, cache, []⟩
      if cache then
        let x := (s.cluster n).cacheLook o.part (q.1 / 512)
        if x.1 then s.setCluster n x.2 else (s.setCluster n x.2).pushReq r
      else s.pushReq r) s

/-- The key/value runs of keys `lo` to `hi` − 1: the pages of the groups `gs`, or rows of the dense tensors (R133, R247). -/
def State.keyRuns (s : State) (o : Op) (gs : List Nat) (lo hi : Nat) : List (Option (Nat × Nat) × Nat × Nat) :=
  let d := o.set.pool o.part
  if hi ≤ lo then []
  else if denseUse o.cmd then
    let x := shapeOf d o.cmd
    let b := (s.blockOf o.part o.cmd).getD []
    [4, 5].map (fun i =>
      let row := x.hkv * x.d * ((Fmt.ofCode (entryFmt b i)).getD .w32).width
      (none, entryAddr b i + lo * row / 8, ceilDiv (hi * row) 8 - lo * row / 8))
  else
    (List.range ((hi - 1) / d.tok - lo / d.tok + 1)).map (fun i =>
      let k := lo / d.tok + i
      let g := gs.getD k noGroup
      (some (g, k), s.pinnedVa o.part g (layerOf o.cmd), d.pageSize))

/-- The keys of a segment, or of a chunk, are requested on cluster `n`. -/
def State.askKeys (s : State) (o : Op) (n seg : Nat) (gs : List Nat) (lo hi : Nat) : State :=
  (s.keyRuns o gs lo hi).foldl (fun s r => s.askRun o n seg r.1 r.2.1 r.2.2) s

/-- R143: the keys of placed segments are requested. -/
def State.askSegs (s : State) (o : Op) (ps : List (Nat × Nat)) : State :=
  (ps.filter (fun p => p.2 < 32)).foldl (fun s p => s.askKeys o p.2 p.1 o.pins (1024 * p.1) (Nat.min o.keys (1024 * p.1 + 1024))) s

/-- A read for operation `opid`, of any segment, has not returned. -/
def State.reading (s : State) (opid : W32) : Bool := s.flying (fun r => match r.use with
  | .builtin _ i _ _ => i = opid
  | _ => false)

/-- A read for segment `seg` of operation `opid` on cluster `n` has not returned. -/
def State.readingSeg (s : State) (opid : W32) (seg n : Nat) : Bool := s.flying (fun r => match r.use with
  | .builtin m i g _ => i = opid && g = seg && m = n
  | _ => false)

/-- R321, R322, R420: an operation of a partition that now holds `cs` and keeps those of them that `keep` admits: partials on other clusters move
to the lowest that it keeps, segments not yet computed there wait for a cluster, and work without segments takes all of `cs` where it has none
left. A partition that keeps none of its clusters has its partials on the lowest that it holds (log entry 134). -/
def Op.replaced (o : Op) (keep : Nat → Bool) (cs : List Nat) : Op :=
  if opcodeOf o.cmd = 0x0F then o
  else
    let kept := cs.filter keep
    let home := (kept <|> cs).headD 0
    let nodes := o.nodes.map (fun e => (e.1, e.2.map (fun x => if kept.contains x.home || cs.isEmpty then x else { x with home := home })))
    let place := o.place.map (fun p => if kept.contains p.2 || (o.node 0 p.1).isSome then p else (p.1, noCluster))
    let left := maskOf (place.map Prod.snd) ||| maskOf (nodes.filterMap (fun e => e.2.map Node.home)) ||| (o.clusters &&& maskOf kept)
    { o with nodes := nodes, place := place, clusters := if o.place.isEmpty && left = 0 then maskOf cs else left, shares := o.shares &&& maskOf kept }

/-- R322: the lowest segments of an operation that wait, with the clusters `free` that they go to, in ascending order. -/
def Op.newPlaces (o : Op) (free : List Nat) : List (Nat × Nat) := ((o.open.filter (fun p => p.2 = noCluster)).map Prod.fst).zip free

def Op.placed (o : Op) (free : List Nat) : Op :=
  let new := o.newPlaces free
  { o with place := o.place.map (fun p => (p.1, ((new.find? (fun x => x.1 = p.1)).map Prod.snd).getD p.2)), clusters := o.clusters ||| maskOf (new.map Prod.snd) }

/-- R322: segments of partition `p` that wait take its clusters as they become free: those on which no segment of an operation stands open. -/
def State.placeWaiting (s : State) (p : Nat) : State :=
  ((s.hw.ops.filter (fun o => o.part = p && o.open.any (fun x => x.2 = noCluster))).map Op.opid).foldl (fun s i =>
    match s.op i with
    | none => s
    | some o =>
      let busy := (s.hw.ops.flatMap Op.open).map Prod.snd
      let free := (s.clustersOf s.cfg.active p).filter (fun n => !busy.contains n)
      (s.setOp (o.placed free)).askSegs o (o.newPlaces free)) s

/-- Every built-in operation of partition `p` moves to the clusters that `p` now holds; those of `m` are not clusters that it kept. -/
def State.replaceAll (s : State) (m : BitVec 32) (p : Nat) : State :=
  let cs := s.clustersOf s.cfg.active p
  (s.modHw (fun h => { h with ops := h.ops.map (fun o => if o.part = p then o.replaced (fun n => !bit m n) cs else o) })).placeWaiting p

/-- R439: a map-out's trouble-log entry (R438), its record (R433) and the RAS interrupt. -/
def State.mapOutNote (s : State) (type : W16) (unit reason : Nat) (data : List (Nat × Nat × Nat)) : State :=
  let n := s.entryNo
  ((s.note 0x07 none false 1 (BitVec.ofNat 8 unit) 0 (type.toNat + reason * 2 ^ 16) 0).event type 1 none 0 data).rasIrq 1 n

/-- R420: cluster `n` is mapped out. -/
def State.mapOutCluster (s : State) (n reason : Nat) : State :=
  if bit s.ras.clOut n then s
  else
    let s := s.modRas (fun r => { r with clOut := r.clOut ||| oneHot 32 n })
    let s := s.modBoot (fun b => { b with svc := putBit b.svc n false })
    let s := s.withdraw n
    let s := s.modCluster n (fun c => { c.cleared with roleEpoch := c.roleEpoch + 1 })
    let s := s.stopClock n
    let programs := s.hw.ops.filter (fun o => opcodeOf o.cmd = 0x0F && bit o.clusters n)
    let s := programs.foldl (fun s o => s.stopOp o.opid 0x22 0x0D (BitVec.ofNat 96 n)) s
    let s := (List.range 16).foldl (fun s p => s.replaceAll 0 p) s
    s.mapOutNote 0x12 n reason [(0, 1, n), (1, 1, reason)]

/-- R420: pair `sp` is mapped out with its four clusters. -/
def State.mapOutPair (s : State) (sp reason : Nat) : State :=
  if bit s.ras.pairOut sp then s
  else
    let s := s.modRas (fun r => { r with pairOut := r.pairOut ||| oneHot 8 sp })
    let s := s.mapOutNote 0x13 (0x40 + sp) reason [(0, 1, sp), (1, 1, reason)]
    (List.range 4).foldl (fun s k => s.mapOutCluster (4 * sp + k) 5) s

end Sys2Proof.Machine
end

