-- ==== Sys2Proof/Machine/Arrays.lean ====
section
/-! DEFINITION. The matrix arrays: what a tile computes from its operands (R75 to R83, R91 to R94), where its chunks and stationary values lie
in the cells (R76, R79, R80, R82, R92), its checks (R95 to R98) and where a rerun places it (R100). -/

namespace Sys2Proof.Machine

/-! Values of a tile -/

/-- R59, R81: one dot product carried over tiles; the integer path keeps its exact sum. -/
def carryDot (pm : PMode) (acc : Option Fl) (a b : Operand) : Fl :=
  if a.int && b.int then Fl.add (acc.getD zero) (flSum (List.zipWith Fl.mul a.xs b.xs)) else dotAcc pm acc a b

/-- R53, R59: the W32 result of an accumulator, and whether it saturates. -/
def accResult (int : Bool) (x : Fl) : W32 × Nat :=
  if int then let r := toInt 32 x; (toW32 (ofInt 32 r.code), if r.sat then 1 else 0) else (toW32 x, 0)

def TileOpds.pmode (t : TileOpds) : PMode := (PMode.ofCode t.pm).getD .native

/-- Both operands run on the integer path (R59). -/
def TileOpds.int (t : TileOpds) : Bool := t.rInt && t.cInt

/-- Its checks compare exactly (R98): the integer path, and every slice pass of P2 and P3. -/
def TileOpds.exact (t : TileOpds) : Bool := t.int || t.pmode != .native

/-- Result columns. -/
def TileOpds.width (t : TileOpds) : Nat := if t.ew then (t.rows.headD []).length else t.cols.length

/-- Chunk `k` of a reduction (R56). -/
def chunkAt (xs : List Fl) (k : Nat) : List Fl := (xs.drop (64 * k)).take 64

/-- The chunks of the reduction. -/
def TileOpds.chunks (t : TileOpds) : Nat := ceilDiv (t.rows.headD []).length 64

/-- The slice passes: the broadcast and the stationary slice of each; a single whole pass outside P2 and P3 (R63). -/
def TileOpds.runs (t : TileOpds) : List (Nat × Nat × Nat) := if t.pmode = .native || t.ew then [(0, 0, 0)] else passes t.pmode

/-- An exact integer. -/
def intFl (v : Int) : Fl := if v = 0 then zero else .fin (decide (v < 0)) v.natAbs 0

/-- The values that a chunk of an operand puts into the cells in a pass: its elements, or its slices `i` (R62). -/
def TileOpds.terms (t : TileOpds) (int : Bool) (ch : List Fl) (i : Nat) : List Fl :=
  if t.pmode = .native || t.ew then ch
  else
    let n := t.pmode.n
    let eb := sliceExp ch
    ch.map (fun x => intFl ((if int then intSlices n x else slices n eb x).getD i 0))

/-- The broadcast terms of chunk `k` of vector `v` in a pass. -/
def TileOpds.rowTerms (t : TileOpds) (v k : Nat) (p : Nat × Nat × Nat) : List Fl := t.terms t.rInt (chunkAt (t.rows.getD v []) k) p.1

/-- The stationary terms of chunk `k` of column `c` in a pass. -/
def TileOpds.colTerms (t : TileOpds) (c k : Nat) (p : Nat × Nat × Nat) : List Fl := t.terms t.cInt (chunkAt (t.cols.getD c []) k) p.2.1

/-- The sum of a chunk's products as the cells form it: exact on the integer path and in slice passes, else under R57 and R60. -/
def TileOpds.cellSum (t : TileOpds) (ps : List Fl) : Fl := if t.exact then flSum ps else (specialDot ps).getD (chunkSum ps)

/-- What a fault makes of chunk sum `k` of vector `v` and column `c` in pass `p`. -/
def faultAt (fs : List ArrayFault) (v c k p : Nat) : Option W32 :=
  fs.findSome? (fun f => match f with
    | .chunk v' c' k' p' x => if v' = v && c' = c && k' = k && p' = p then some x else none
    | .lane _ _ => none)

/-- Chunk sum `k` of vector `v` and column `c` in pass number `p` of `t.runs`, as it leaves the cells. -/
def TileOpds.sumAt (t : TileOpds) (fs : List ArrayFault) (v c k p : Nat) : Fl :=
  match faultAt fs v c k p with
  | some x => ofW32 x
  | none =>
    let q := t.runs.getD p (0, 0, 0)
    t.cellSum (List.zipWith Fl.mul (t.rowTerms v k q) (t.colTerms c k q))

/-- The contribution of chunk `k` (R57, R63): in P2 and P3 its passes weighted and summed, at the chunks' exponents. -/
def TileOpds.contribution (t : TileOpds) (fs : List ArrayFault) (v c k : Nat) : Fl :=
  if t.pmode = .native then t.sumAt fs v c k 0
  else
    let n := t.pmode.n
    let a := chunkAt (t.rows.getD v []) k
    let b := chunkAt (t.cols.getD c []) k
    let ea : Int := if t.rInt then 6 else sliceExp a
    let eb : Int := if t.cInt then 6 else sliceExp b
    let x := (t.runs.zipIdx).foldl (fun (acc : Int) q => acc + nearestInt (t.sumAt fs v c k q.2) * (2 ^ q.1.2.2 : Nat)) 0
    if x = 0 then zeroSum (List.zipWith Fl.mul a b) else .fin (decide (x < 0)) x.natAbs ((ea - n + 1) + (eb - n + 1))

/-- The accumulator of vector `v` and column `c` after the tile (R58 to R60, R81, R94). -/
def TileOpds.result (t : TileOpds) (fs : List ArrayFault) (v c : Nat) : Fl :=
  let a := t.rows.getD v []
  let carry := t.carry.bind (fun l => l[v * t.width + c]?)
  if t.ew then
    match faultAt fs v c 0 0 with
    | some x => ofW32 x
    | none => Fl.mul ((t.cols.getD v []).getD c zero) (a.getD c zero)
  else if !(List.range t.chunks).any (fun k => (List.range t.runs.length).any (fun p => (faultAt fs v c k p).isSome)) then
    carryDot t.pmode carry ⟨a, t.rInt⟩ ⟨t.cols.getD c [], t.cInt⟩
  else
    let xs := (List.range t.chunks).map (t.contribution fs v c)
    if t.int then Fl.add (carry.getD zero) (flSum xs) else (accumulate carry xs).getD zero

/-- The accumulators of the tile, vector by vector. -/
def TileOpds.results (t : TileOpds) (fs : List ArrayFault) : List Fl :=
  (List.range t.rows.length).flatMap (fun v => (List.range t.width).map (t.result fs v))

/-- R53, R77, R81: the results that a tile yields, and how many saturate. -/
def TileOpds.yield (t : TileOpds) (fs : List ArrayFault) : List W32 × Nat :=
  if t.yields then
    let rs := (t.results fs).map (accResult (t.int && !t.ew))
    (rs.map Prod.fst, (rs.map Prod.snd).sum)
  else ([], 0)

/-- The operands of the tile of vectors `r0` to `r0 + n − 1`, as they stand (R75, R83, R93). -/
def tileOpds (c : Cluster) (ew : Bool) (gang pm : Nat) (s b : TDesc) (ds db : Int) (r0 n : Nat) (carry : Option (List Fl)) (yields : Bool) : TileOpds :=
  let k := redLen ew (gang = 3) s b
  { ew := ew, gang := gang, pm := pm, pack := s.f.pack,
    rows := (List.range n).map (fun r => (List.range k).map (b.elem c [] db (r0 + r))),
    cols := if ew then (List.range n).map (fun r => (List.range k).map (s.elem c [] ds (r0 + r)))
      else if gang = 3 then (List.range s.rows).map (fun j => (List.range k).map (s.elem c [] ds j))
      else (List.range s.cols).map (fun j => s.col c [] ds k j),
    rInt := b.int, cInt := s.int, carry := carry, yields := yields }

/-! Places in the cells -/

/-- Chunks that one stationary load of a gang mode takes side by side along the reduction (R79, R80). -/
def chunksPerLoad (gang : Nat) : Nat := if gang = 2 then 2 else 1

/-- The half of the logical columns that the array of role `a` holds (R79). -/
def roleHalf (gang a : Nat) : Nat := if gang = 1 then a else if gang = 2 then a / 2 else 0

/-- Result columns of role `a`, ascending: those of its half (R79, R91). -/
def TileOpds.roleCols (t : TileOpds) (a : Nat) : List Nat :=
  (List.range t.width).filter (fun c => c / (64 * t.pack) = roleHalf t.gang a)

/-- The chunk that role `a` computes in load `l` (R80, R81). -/
def TileOpds.roleChunk (t : TileOpds) (a l : Nat) : Nat := chunksPerLoad t.gang * l + (if t.gang = 2 then a % 2 else 0)

/-- Stationary loads of a tile: its reduction over the mode's rows (R81); one in WIDE; 64 vectors each in element-wise mode. -/
def TileOpds.loads (t : TileOpds) : Nat :=
  if t.ew then ceilDiv t.rows.length 64 else if t.gang = 3 then 1 else ceilDiv t.chunks (chunksPerLoad t.gang)

/-- R82: columns of a chunk's span in WIDE. -/
def TileOpds.spanOf (t : TileOpds) (k : Nat) : Nat := padTo 16 (chunkAt (t.rows.headD []) k).length

/-- R82: columns that one placed dot product takes. -/
def TileOpds.placed (t : TileOpds) : Nat := ((List.range t.chunks).map t.spanOf).sum

/-- R82: dot products placed side by side. -/
def TileOpds.places (t : TileOpds) : Nat := if t.placed = 0 then 1 else Nat.max 1 (2048 / t.placed)

/-- R82: the first column of chunk `k` of place `j`. -/
def TileOpds.spanStart (t : TileOpds) (j k : Nat) : Nat := j * t.placed + ((List.range k).map t.spanOf).sum

/-- R82: the element of a dot product at column `x` of its place, where one lies there. -/
def TileOpds.elemAt (t : TileOpds) (x : Nat) : Option Nat :=
  ((List.range t.chunks).find? (fun k => t.spanStart 0 k ≤ x && x < t.spanStart 0 k + (chunkAt (t.rows.headD []) k).length)).map
    (fun k => 64 * k + (x - t.spanStart 0 k))

/-- R75, R79, R82: the values in the cells of role `a` for load `l` in a pass, physical row by row; an unused cell holds +0. -/
def TileOpds.statSet (t : TileOpds) (a l : Nat) (p : Nat × Nat × Nat) : StatSet :=
  let rows :=
    if t.ew then (List.range 64).map (fun r => (t.cols.getD (64 * l + r) []).take 64)
    else if t.gang = 3 then
      (List.range 64).map (fun r => (List.range 64).map (fun x =>
        let col := 64 * (8 * a + r / 8) + x
        if col / t.placed < t.places then
          match t.elemAt (col % t.placed) with
          | some i => (t.colTerms (r % 8) (i / 64) p).getD (i % 64) zero
          | none => zero
        else zero))
    else
      let cs := t.roleCols a
      (List.range 64).map (fun r => cs.map (fun c => (t.colTerms c (t.roleChunk a l) p).getD r zero))
  ⟨p.2.1, rows⟩

/-- The stationary sets that role `a` needs, in order: load by load, pass by pass (R81, R92). -/
def TileOpds.statSets (t : TileOpds) (a : Nat) : List StatSet :=
  (List.range t.loads).flatMap (fun l => t.runs.map (t.statSet a l))

/-- R76, R92: the registers while a set computes: it is selected where one of them holds it, else it has been loaded into the idle one. -/
def StatRegs.select (r : StatRegs) (x : StatSet) : StatRegs := if r.active = x then r else ⟨x, r.active⟩

/-- R76, R92: the next set is loaded into the shadow registers while the active ones compute. -/
def StatRegs.load (r : StatRegs) (x : StatSet) : StatRegs := if r.active = x || r.shadow = x then r else { r with shadow := x }

def Cluster.modStat (c : Cluster) (array : Nat) (f : StatRegs → StatRegs) : Cluster :=
  { c with stationary := Tab.set StatRegs.reset c.stationary array (f (Tab.get StatRegs.reset c.stationary array)) }

/-- R76, R92: the tile's stationary sets pass through the registers of its arrays. -/
def Cluster.selectStat (c : Cluster) (arrays : List Nat) (t : TileOpds) : Cluster :=
  (arrays.zipIdx).foldl (fun c x => c.modStat x.1 (fun r => (t.statSets x.2).foldl StatRegs.select r)) c

/-- R76: the first set of the tile that comes next is loaded into the shadow registers. -/
def Cluster.loadStat (c : Cluster) (arrays : List Nat) (t : TileOpds) : Cluster :=
  (arrays.zipIdx).foldl (fun c x => c.modStat x.1 (fun r => match t.statSets x.2 with
    | [] => r
    | st :: _ => r.load st)) c

/-! Checks (R95 to R98) -/

/-- One check: its lane, both sides, and S of R98. -/
structure Check where
  array : Nat
  lane : Nat
  chk : Fl
  ref : Fl
  s : Fl
deriving DecidableEq, Repr

/-- R98: n_k × 2^(E_k + 1) of a chunk; 0 where every product is zero. -/
def chunkBound (ps : List Fl) : Fl :=
  match ps.filter (fun p => p.isFinite && !p.isZero) with
  | [] => zero
  | p :: rest => Fl.mul (intFl ps.length) (pow2 (rest.foldl (fun a x => Max.max a (floorLog2 x)) (floorLog2 p) + 1))

/-- A W32 sum in order, each step rounded (R95, R96, R98). -/
def sumW (xs : List Fl) : Fl := xs.foldl (fun a x => rw (Fl.add a x)) zero

/-- R95, R96: a reference sum: exact integers where the check compares exactly, else W32. -/
def TileOpds.refSum (t : TileOpds) (xs : List Fl) : Fl := if t.exact then flSum xs else sumW xs

/-- The products of chunk `k` of vector `v` and column `c` in a pass. -/
def TileOpds.products (t : TileOpds) (v c k : Nat) (p : Nat × Nat × Nat) : List Fl := List.zipWith Fl.mul (t.rowTerms v k p) (t.colTerms c k p)

/-- R95: the checksum column's products: each row's broadcast term with the exact sum of the row's stationary terms. -/
def TileOpds.checkColumn (t : TileOpds) (v k : Nat) (cs : List Nat) (p : Nat × Nat × Nat) : List Fl :=
  ((t.rowTerms v k p).zipIdx).map (fun x => Fl.mul x.1 (flSum (cs.map (fun c => (t.colTerms c k p).getD x.2 zero))))

/-- R95: the column checks of role `a`: for every load, vector and pass. -/
def TileOpds.columnChecks (t : TileOpds) (fs : List ArrayFault) (array a : Nat) : List Check :=
  let cs := t.roleCols a
  (List.range t.loads).flatMap (fun l =>
    let k := t.roleChunk a l
    if t.chunks ≤ k || cs.isEmpty then []
    else (List.range t.rows.length).flatMap (fun v => (t.runs.zipIdx).map (fun p =>
      let ps := t.checkColumn v k cs p.1
      ⟨array, 64, (if t.exact then flSum ps else rw (flSum ps)), t.refSum (cs.map (fun c => t.sumAt fs v c k p.2)),
        sumW (cs.map (fun c => chunkBound (t.products v c k p.1)) ++ [chunkBound ps])⟩)))

/-- R96: the check vector of chunk `k` over the vectors `vs`: the exact sum of their broadcast terms. -/
def TileOpds.checkVector (t : TileOpds) (vs : List Nat) (k : Nat) (p : Nat × Nat × Nat) : List Fl :=
  let rows := vs.map (fun v => t.rowTerms v k p)
  (List.range (rows.headD []).length).map (fun r => flSum (rows.map (fun x => x.getD r zero)))

/-- R96: slice `i` of three of the check vector, at its weight, as R62 cuts it with n = 21. -/
def checkSlice (cv : List Fl) (i : Nat) : List Fl :=
  let eb := sliceExp cv
  cv.map (fun x => match intFl ((slices 21 eb x).getD i 0) with
    | .fin s m e => .fin s m (e + (14 - 7 * (i : Int)) + (eb - 20))
    | y => y)

/-- R96, R97: the row check of chunk `k` of column `c` over the vectors `vs` in a pass. -/
def TileOpds.rowCheck (t : TileOpds) (fs : List ArrayFault) (array lane : Nat) (vs : List Nat) (c k : Nat) (p : (Nat × Nat × Nat) × Nat) : Check :=
  let cv := t.checkVector vs k p.1
  let parts := (List.range 3).map (fun i => List.zipWith Fl.mul (checkSlice cv i) (t.colTerms c k p.1))
  let chk := if cv.all Fl.isFinite then t.refSum (parts.map t.cellSum) else .nan
  ⟨array, lane, chk, t.refSum (vs.map (fun v => t.sumAt fs v c k p.2)),
    sumW (vs.map (fun v => chunkBound (t.products v c k p.1)) ++ parts.map chunkBound)⟩

/-- R96: the row checks of role `a`: for every load, active column and pass. -/
def TileOpds.rowChecks (t : TileOpds) (fs : List ArrayFault) (array a : Nat) : List Check :=
  (List.range t.loads).flatMap (fun l =>
    let k := t.roleChunk a l
    if t.chunks ≤ k then []
    else (t.roleCols a).flatMap (fun c => (t.runs.zipIdx).map (t.rowCheck fs array (c / t.pack % 64) (List.range t.rows.length) c k)))

/-- R97: the row checks of WIDE: for every logical row and placed chunk, over the vectors that its place takes. DESIGN CHOICE (log entry 123):
the checksum cell of a chunk is that of its logical row in the group where its span begins. -/
def TileOpds.wideChecks (t : TileOpds) (fs : List ArrayFault) (arrays : List Nat) : List Check :=
  (List.range t.width).flatMap (fun h => (List.range (Nat.min t.places t.rows.length)).flatMap (fun j => (List.range t.chunks).flatMap (fun k =>
    let g := t.spanStart j k / 64 % 32
    let vs := (List.range t.rows.length).filter (fun v => v % t.places = j)
    (t.runs.zipIdx).map (t.rowCheck fs (arrays.getD (g / 8) 0) (8 * (g % 8) + h % 8) vs h k))))

/-- R95 in element-wise mode: for every vector and run of 64 columns, the sum of the products. DESIGN CHOICE (log entry 123): a row check is
not made, since the stationary values change with each vector. -/
def TileOpds.ewChecks (t : TileOpds) (fs : List ArrayFault) (array : Nat) : List Check :=
  (List.range t.rows.length).flatMap (fun v => (List.range (ceilDiv t.width 64)).map (fun k =>
    let cs := (List.range t.width).filter (fun c => c / 64 = k)
    let ps := cs.map (fun c => Fl.mul ((t.cols.getD v []).getD c zero) ((t.rows.getD v []).getD c zero))
    ⟨array, 64, (if t.exact then flSum ps else rw (flSum ps)), t.refSum (cs.map (t.result fs v)), sumW (ps.map (fun p => chunkBound [p]) ++ [chunkBound ps])⟩))

/-- R95 to R97: the checks of a tile on its arrays. -/
def TileOpds.checks (t : TileOpds) (fs : List ArrayFault) (arrays : List Nat) : List Check :=
  if t.ew then t.ewChecks fs (arrays.headD 0)
  else if t.gang = 3 then t.wideChecks fs arrays
  else (arrays.zipIdx).flatMap (fun x => t.columnChecks fs x.1 x.2 ++ t.rowChecks fs x.1 x.2)

/-- What faults make of the checksum cells of a lane. -/
def Check.faulted (fs : List ArrayFault) (x : Check) : Check :=
  match fs.findSome? (fun f => match f with
    | .lane l y => if l.array.val = x.array && l.lane.val = x.lane then some y else none
    | .chunk .. => none) with
  | some y => { x with chk := ofW32 y }
  | none => x

/-- R98: the check passes, or is not made. -/
def Check.passes (exact : Bool) (x : Check) : Bool :=
  if !x.chk.isFinite || !x.ref.isFinite then true
  else if exact then (Fl.sub x.chk x.ref).isZero
  else !Fl.lt (rw (Fl.mul (pow2 (-10)) x.s)) (rw (Fl.sub x.chk x.ref)).abs

/-- R98, R101: the lanes that fail a check of the tile, each once; a lane that is mapped out makes none. -/
def TileOpds.failing (t : TileOpds) (fs : List ArrayFault) (arrays : List Nat) (out : List (Nat × Nat)) : List (Nat × Nat) :=
  (((t.checks fs arrays).map (Check.faulted fs)).filter (fun x => !out.contains (x.array, x.lane) && !x.passes t.exact)).map
    (fun x => (x.array, x.lane)) |>.eraseDups

/-! Rerun placement (R100) -/

/-- R100: the array that takes the role of array `a` in a rerun: in SPLIT, GANG4 and WIDE the one before it, in GANG2 that of the other pair. -/
def rerunArray (gang a : Nat) : Nat := if gang = 1 then (a + 2) % 4 else (a + 3) % 4

end Sys2Proof.Machine
end

