-- ==== Sys2Proof/Machine/Engines.lean ====
section
/-! DEFINITION. The engines of a cluster: the scoreboard (R173, R174), rings (R177, R178), array tiles and their checks (R98 to R101, R118,
R119), vector instructions (R113 to R117), and the end of queue entries (R221, R233). -/

namespace Sys2Proof.Machine

/-! Ranges and rings -/

/-- A cell range of an access: write or read, port, first and last cell, and the handle it goes through. -/
structure Rng where
  wr : Bool
  eng : Nat
  first : Nat
  last : Nat
  handle : Nat
deriving DecidableEq, Repr

/-- Cell runs with overlapping and adjoining neighbours joined. -/
def joinRuns (xs : List (Nat × Nat)) : List (Nat × Nat) :=
  xs.foldl (fun a x => match a.getLast? with
    | some l => if x.1 ≤ l.2 + 1 && l.1 ≤ x.2 + 1 then a.dropLast ++ [(Nat.min l.1 x.1, Nat.max l.2 x.2)] else if a.contains x then a else a ++ [x]
    | none => [x]) []

/-- Cell runs as the ranges that enter the scoreboard. DESIGN CHOICE (log entry 124): an operand of more than 8 runs enters one range that
covers them, since the scoreboard has 64 entries in all. -/
def rangesOf (wr : Bool) (eng handle : Nat) (runs : List (Nat × Nat)) : List Rng :=
  match joinRuns runs with
  | [] => []
  | r :: rs =>
    if 8 ≤ rs.length then [⟨wr, eng, rs.foldl (fun a x => Nat.min a x.1) r.1, rs.foldl (fun a x => Nat.max a x.2) r.2, handle⟩]
    else (r :: rs).map (fun x => ⟨wr, eng, x.1, x.2, handle⟩)

/-- R174: the cells that an operand covers: for each iteration its data from the first row to the last, and its scales. -/
def tRanges (c : Cluster) (d : TDesc) (wr : Bool) (eng : Nat) (deltas : List Int) (rows : Nat) (cs : List Nat) : List Rng :=
  if d.loc != 0 then []
  else
    let w := c.handle d.handle
    let cells (x : Int × Int) : Nat × Nat := ((hStart w + x.1.toNat) / 64, (hStart w + (x.2 - 1).toNat) / 64)
    let spans := deltas.map (fun x => if d.overflow w x rows cs then [] else d.span w x rows cs)
    rangesOf wr eng d.handle ((spans.flatMap (fun l => l.head?.toList)).map cells ++ ((spans.flatMap List.tail).eraseDups).map cells)

/-- Two accesses of which one writes share cells. -/
def Rng.meets (r : Rng) (wr : Bool) (first last : Nat) : Bool := decide (first ≤ r.last ∧ r.first ≤ last) && (r.wr || wr)

/-- R174: the live entry of another engine that the range conflicts with. -/
def Cluster.conflict (c : Cluster) (r : Rng) : Option SbEnt := c.sb.find? (fun e => e.eng != r.eng && e.eng != 6 && r.meets e.wr e.first e.last)

/-- The slots of ring `w` that cells `first` to `last` touch. -/
def ringSlots (w : W64) (first last : Nat) : List Nat :=
  let s0 := hStart w / 64
  let per := hSlotBytes w / 64
  if per = 0 then [] else
    (List.range (hSlots w)).filter (fun i => decide (s0 + i * per ≤ last ∧ first < s0 + (i + 1) * per))

/-- R177: a write through the ring's own handle fills slots: those from `HEAD` on, and only while they are Empty. -/
def fillsNext (w : W64) (slots : List Nat) : Bool :=
  slots.all (fun i => slotState w i = .empty && decide ((i + hSlots w - hHead w) % hSlots w < slots.length)) && decide (hBusy w + slots.length ≤ hSlots w)

/-- R177, R178: ring `h`, of entry `w`, holds the access back by the state of a slot that it touches. -/
def Rng.heldBy (r : Rng) (h : Nat) (w : W64) : Bool :=
  let slots := if hRing w then ringSlots w r.first r.last else []
  let sts := slots.map (slotState w)
  if h = r.handle then (if r.wr then !fillsNext w slots else sts.any (fun s => s != .readable))
  else if r.wr then sts.any (fun s => s != .empty)
  else sts.any (fun s => s = .filling)

/-- R177, R178: the state of a ring slot holds the access back. -/
def Cluster.ringHolds (c : Cluster) (r : Rng) : Bool := c.handles.any (fun h => r.heldBy h.1 h.2)

/-- R174, R175: the accesses may enter the scoreboard. -/
def Cluster.mayAccess (c : Cluster) (rs : List Rng) : Bool :=
  !rs.any (fun r => (c.conflict r).isSome || c.ringHolds r) && c.sb.length + rs.length ≤ Config.scoreboardMax

/-- R173, R174: the ranges enter the scoreboard. DESIGN CHOICE (log entry 121): they take the entries after those now live, and when an entry is
freed the later ones move down; no rule says which of the 64 an access takes. -/
def Cluster.enter (c : Cluster) (tag : Nat) (rs : List Rng) : Cluster :=
  { c with sb := c.sb ++ rs.map (fun r => ⟨r.wr, r.eng, r.first, r.last, tag⟩) }

/-- R174: the reads of an entry have returned their data, or its writes have landed. -/
def Cluster.leave (c : Cluster) (tag : Nat) (wr : Bool) : Cluster := { c with sb := c.sb.filter (fun e => e.tag != tag || e.wr != wr) }

/-- The cells of a range that are poisoned (R182). -/
def Cluster.poison (c : Cluster) (rs : List Rng) : Option Nat :=
  c.poisoned.find? (fun x => rs.any (fun r => !r.wr && decide (r.first ≤ x ∧ x ≤ r.last)))

/-- R182: cells that bytes `r.1` to `r.2 − 1` cover whole are written anew, and hold no error any more (log entry 64). -/
def Cluster.cleanse (c : Cluster) (runs : List (Nat × Nat)) : Cluster :=
  { c with poisoned := c.poisoned.filter (fun x => !runs.any (fun r => r.1 ≤ 64 * x && 64 * x + 64 ≤ r.2)) }

/-! Tile buffers (R117) -/

/-- Tile buffers that an entry reads, and those it writes. -/
def tbufUse (w : QWork) : List Nat × List Nat :=
  let t (v : BitVec 512) : List Nat := let d := TDesc.ofBits v; if 1 ≤ d.loc && d.loc ≤ 6 then [d.loc - 1] else []
  match w with
  | .mx _ ds db dO _ _ _ _ _ _ => (t ds ++ t db, t dO)
  | .vx _ ia io ib ic _ _ _ _ => (t ia ++ (ib.map t).getD [] ++ (ic.map t).getD [], t io)
  | _ => ([], [])

/-- The entries of the queue before `e`. -/
def Cluster.ahead (c : Cluster) (e : QEnt) : List QEnt := c.queue.takeWhile (fun x => x.tag != e.tag)

/-- R117, R119: an earlier entry holds a tile buffer that this one needs; array tiles that write one buffer follow one another by their verdicts. -/
def Cluster.tbufHolds (c : Cluster) (e : QEnt) : Bool :=
  let (r, w) := tbufUse e.work
  (c.ahead e).any (fun x =>
    let (r', w') := tbufUse x.work
    w'.any (fun t => r.contains t || (w.contains t && !(e.eng = .array && x.eng = .array))) || r'.any (fun t => w.contains t))

/-! Queue entries -/

def Cluster.modEnt (c : Cluster) (tag : Nat) (f : QEnt → QEnt) : Cluster :=
  { c with queue := c.queue.map (fun e => if e.tag = tag then f e else e) }

/-- R233: the operation's entries after `e` that have not started are discarded. -/
def Cluster.cutAfter (c : Cluster) (e : QEnt) : Cluster :=
  { c with queue := c.ahead e ++ (c.queue.dropWhile (fun x => x.tag != e.tag)).filter (fun x => !(x.opid = e.opid && x.st = .queued && x.tag != e.tag)) }

/-- R233: entry `e` of cluster `n` ends its operation with a status; later queued entries of the operation are discarded. -/
def State.entryFault (s : State) (n : Nat) (e : QEnt) (status detail : Nat) (result : BitVec 96) : State :=
  let s := s.modCluster n (fun c => (c.cutAfter e).modEnt e.tag (fun x => { x with bad := some (BitVec.ofNat 8 status) }))
  s.stopOp e.opid status detail result

/-- R414: uncorrectable data at cell `x` of cluster `n`. -/
def State.uncorrectable (s : State) (n x : Nat) (e : QEnt) : State :=
  (s.note 0x09 (some e.part) false 2 (BitVec.ofNat 8 n) e.opid (x * 64) 0).entryFault n e 0x50 0x12
    (BitVec.ofNat 96 (n + x * 64 * 2 ^ 32))

/-- The first entry of an engine in a state. -/
def Cluster.firstOf (c : Cluster) (eng : Engine) (p : QEnt → Bool) : Option QEnt := c.queue.find? (fun e => e.eng = eng && p e)

/-- R220: the entry that engine `eng` starts next. -/
def Cluster.nextOf (c : Cluster) (eng : Engine) : Option QEnt := c.firstOf eng (fun e => e.st = .queued)

/-- R303: cluster `n` may work for the operation: clock, service, share. -/
def State.mayWork (s : State) (n : Nat) (opid : W32) : Bool :=
  s.fast && bit s.clk.clkOn n && s.inService n && !(s.cluster n).clearing && (match s.op opid with
    | some o => bit o.shares n && o.st = .running && o.hold.isEmpty
    | none => false)

/-- R190, R218, R220: an earlier entry has still to write the loop table that this one names, or a handle that it names. -/
def Cluster.awaitsControl (c : Cluster) (e : QEnt) : Bool :=
  (c.ahead e).any (fun x => x.st = .queued && (match x.work with
    | .ltw t _ => tableOf e.work = some t
    | .hset h _ => (handlesOf e.work).contains h
    | .hclr h => (handlesOf e.work).contains h
    | .rclr h => (handlesOf e.work).contains h
    | _ => false))

/-- R192: the first iteration that overflows, with those before it. -/
def goodIters (bad : Iter → Bool) (its : List Iter) : List Iter × Option Iter :=
  (its.takeWhile (fun i => !bad i), its.find? bad)

/-- R192, R293: the operation ends RESOURCE_OVERFLOW at iteration `i` under loop table `t`. -/
def State.overflow (s : State) (n : Nat) (e : QEnt) (t : Nat) (i : Iter) : State := s.entryFault n e 0x13 t (resIdx i.idx)

/-! Streams: elements and ranges -/

/-- A part's elements: position within the part, and indices (R185). -/
def SDesc.elems (d : SDesc) (ring : Bool) (k : Nat) : List (Nat × List Nat) :=
  let n := if ring then d.inner else d.total
  (List.range n).map (fun i => (i, d.indices ((if ring then k * n else 0) + i)))

/-- Bytes of an element at its source, relative to the handle or as device addresses (R185). -/
def SDesc.srcBytes (d : SDesc) (c : Cluster) (e : List Nat) : Int × Int :=
  let w := streamWidth d.fin
  let e0 := e.getD 0 0
  let a := d.srcAddr c e
  (a + (e0 * w / 8 : Nat), a + (ceilDiv ((e0 + 1) * w) 8 : Nat))

/-- R172, R186, R192: an element overflows at its source, at its entry of the address list, or at its destination; `slot` is the slot size of
a ring or window destination. A padded element has no address and cannot. -/
def SDesc.overflows (d : SDesc) (c : Cluster) (slot : Option Nat) (x : Nat × List Nat) : Bool :=
  let b := d.srcBytes c x.2
  let src := if d.fromSpm then !hValid (c.handle d.srcHandle) || decide (b.1 < 0 ∨ (hBytes (c.handle d.srcHandle) : Int) < b.2)
    else d.kind = 0 && decide (b.1 < 0 ∨ 2 ^ 52 < b.2)
  let lst := d.gather && decide (hBytes (c.handle d.list) < 8 * (x.2.getD 1 0 + 1))
  let top := ceilDiv ((x.1 + 1) * streamWidth d.fout) 8
  let dst := if d.toSpm && !hValid (c.handle d.dst) then true
    else match slot with
      | some n => decide (n < top)
      | none => if d.toSpm then decide (hBytes (c.handle d.dst) < d.dstAddr + top)
        else d.kind = 1 && decide (2 ^ 52 < d.dstAddr + d.dstHi * 2 ^ 32 + top)
  !d.padded x.2 && (src || lst || dst)

/-- The elements before the first that overflows, and that one (R192). -/
def SDesc.goodElems (d : SDesc) (c : Cluster) (slot : Option Nat) (xs : List (Nat × List Nat)) : List (Nat × List Nat) × Option (List Nat) :=
  (xs.takeWhile (fun x => !d.overflows c slot x), (xs.find? (d.overflows c slot)).map Prod.snd)

/-- R174: the cell ranges that a stream reads, and those it writes densely; a ring slot is entered with its part. -/
def streamRanges (c : Cluster) (d : SDesc) : List Rng :=
  let src := if d.fromSpm then
      let st := hStart (c.handle d.srcHandle)
      rangesOf false 3 d.srcHandle (((d.elems false 0).filter (fun x => !d.padded x.2 && !d.overflows c none x)).map (fun x =>
        let b := d.srcBytes c x.2
        ((st + b.1.toNat) / 64, (st + (b.2 - 1).toNat) / 64)))
    else []
  let lst := if d.gather then
      let st := hStart (c.handle d.list)
      rangesOf false 3 d.list [(st / 64, (st + Nat.min (8 * d.cnts.getD 1 1) (hBytes (c.handle d.list)) - 1) / 64)]
    else []
  let w := c.handle d.dst
  let dst := if d.toSpm && !hRing w && d.dstAddr < hBytes w then
      rangesOf true 3 d.dst [((hStart w + d.dstAddr) / 64,
        (hStart w + Nat.min (d.dstAddr + ceilDiv (d.total * streamWidth d.fout) 8) (hBytes w) - 1) / 64)]
    else []
  src ++ lst ++ dst

/-! Ring slots (R176) -/

def SDesc.slotOpt (d : SDesc) (c : Cluster) : Option Nat :=
  if d.toSpm && hRing (c.handle d.dst) then some (hSlotBytes (c.handle d.dst)) else none

/-- The entry fills slots of ring `h`: a stream to it, or a vector instruction whose output goes through it. -/
def fillsRing (w : QWork) (h : Nat) : Bool :=
  match w with
  | .sx v => (SDesc.ofBits v).toSpm && (SDesc.ofBits v).dst = h
  | .vx _ _ io _ _ _ _ _ _ => (TDesc.ofBits io).loc = 0 && (TDesc.ofBits io).handle = h
  | _ => false

/-- `k` slots of ring `h` begin to fill (R176). -/
def Cluster.takeSlots (c : Cluster) (h k : Nat) : Cluster :=
  let w := c.handle h
  c.setHandle h (ringSet w (hHead w + k) (hTail w) (hBusy w + k) (hFull w))

/-- R176: slots become Full in ring order, as far as they have landed; `fuel` is at least the number of slots. -/
def Cluster.promote (fuel h : Nat) (c : Cluster) : Cluster :=
  match fuel with
  | 0 => c
  | fuel + 1 =>
    let w := c.handle h
    if !hRing w || hBusy w ≤ hFull w then c
    else
      let slot := (hTail w + hFull w) % hSlots w
      let mine (e : QEnt) (f : Fill) : Bool := f.slot = slot && f.left = 0 && fillsRing e.work h
      if c.queue.any (fun e => e.fills.any (mine e)) then
        let q := c.queue.map (fun e => { e with fills := e.fills.filter (fun f => !mine e f) })
        Cluster.promote fuel h { c.setHandle h (ringSet w (hHead w) (hTail w) (hBusy w) (hFull w + 1)) with queue := q }
      else c

/-! What an operation counts -/

/-- The operation's numeric counts (R68) with more added. -/
def Op.count (o : Op) (sat flush nansc : Nat) : Op := { o with sat := o.sat + sat, flush := o.flush + flush, nansc := o.nansc + nansc }

/-- The order of positions of a NaN or infinity: tile, row, column (R459). -/
def posLt (x y : Nat × Nat × Nat) : Bool := x.1 < y.1 || (x.1 = y.1 && (x.2.1 < y.2.1 || (x.2.1 = y.2.1 && x.2.2 < y.2.2)))

/-- R70: the lower of two positions. -/
def earliest (a b : Option (Nat × Nat × Nat)) : Option (Nat × Nat × Nat) :=
  match a, b with
  | some x, some y => if posLt y x then some y else some x
  | some x, none => some x
  | none, y => y

/-- R70, R459: the lowest position of a NaN or infinity. -/
def Op.nanAt (o : Op) (x : Nat × Nat × Nat) : Op := { o with naninf := earliest o.naninf (some x) }

def State.modOp (s : State) (opid : W32) (f : Op → Op) : State :=
  match s.op opid with
  | some o => s.setOp (f o)
  | none => s

/-- R442: FIRST_MAC of an operation on cluster `n`. -/
def State.firstMac (s : State) (n : Nat) (opid : W32) : State :=
  match s.op opid with
  | none => s
  | some o => if o.mac then s else (s.setOp { o with mac := true }).trace 0x02 o.part (BitVec.ofNat 8 n) opid n 0

/-- The table that drives an entry, as it stands. -/
def Cluster.drive (c : Cluster) (lt : Option Nat) : Option (BitVec 1024) := lt.map (fun t => Tab.get 0 c.loops t)

/-! What entries will access -/

/-- The iterations of an array entry that lie within its handles, and the first that does not (R192). -/
def mxIters (c : Cluster) (ew : Bool) (gang : Nat) (a b : TDesc) (lt : Option Nat) : List Iter × Option Iter :=
  let x := mxReach ew (gang = 3) a b
  goodIters (fun i => a.overflow (c.handle a.handle) (i.off 0) x.1.1 (List.range x.1.2) || b.overflow (c.handle b.handle) (i.off 1) x.2.1 (List.range x.2.2))
    (itersOf (c.drive lt))

/-- The ranges that iterations of an array entry read (R174). -/
def mxRanges (c : Cluster) (ew : Bool) (gang : Nat) (a b : TDesc) (its : List Iter) : List Rng :=
  let x := mxReach ew (gang = 3) a b
  tRanges c a false 0 (its.map (fun i => i.off 0)) x.1.1 (List.range x.1.2) ++ tRanges c b false 0 (its.map (fun i => i.off 1)) x.2.1 (List.range x.2.2)

/-- The iterations of a vector entry that lie within its handles, and the first that does not (R192). -/
def vxIters (c : Cluster) (v : VxOpds) (lt : Option Nat) : List Iter × Option Iter :=
  goodIters (fun i => v.reach.any (fun x => x.d.overflow (c.handle x.d.handle) (i.off x.stride) x.rows v.cols)) (itersOf (c.drive lt))

/-- The ranges that iterations of a vector entry read and write (R174). -/
def vxRanges (c : Cluster) (v : VxOpds) (its : List Iter) : List Rng :=
  v.reach.flatMap (fun x => tRanges c x.d x.wr 1 (its.map (fun i => i.off x.stride)) x.rows v.cols)

/-- The ranges that an entry has still to access as it stands in the queue. -/
def Cluster.planned (c : Cluster) (e : QEnt) : List Rng :=
  match e.work with
  | .mx ew ds db _ lt gang _ _ _ _ => mxRanges c ew gang (TDesc.ofBits ds) (TDesc.ofBits db) (mxIters c ew gang (TDesc.ofBits ds) (TDesc.ofBits db) lt).1
  | .vx chain ia io ib ic lt _ g tile => let v := VxOpds.of chain ia io ib ic g tile; vxRanges c v (vxIters c v lt).1
  | .sx v => streamRanges c (SDesc.ofBits v)
  | _ => []

/-- The entry has begun none of its accesses. -/
def QEnt.waits (e : QEnt) : Bool := e.st = .queued || (e.eng = .stream && e.st = .started && e.pos = 0)

/-- R220: an earlier entry of another engine, not yet begun, has an access to come that these must follow; accesses through one ring follow the
states of its slots instead. -/
def Cluster.aheadHolds (c : Cluster) (e : QEnt) (rs : List Rng) : Bool :=
  (c.ahead e).any (fun x => x.eng != e.eng && x.waits && (c.planned x).any (fun p =>
    rs.any (fun r => r.meets p.wr p.first p.last && !(p.handle = r.handle && hRing (c.handle r.handle)))))

/-- R174, R175, R177, R220: an entry's first accesses may begin. -/
def Cluster.mayBegin (c : Cluster) (e : QEnt) (rs : List Rng) : Bool :=
  c.mayAccess rs && !c.tbufHolds e && !c.awaitsControl e && !c.aheadHolds e rs

/-! The arrays -/

/-- R79, R214: the arrays that a tile may take: all four when none is busy, the lower free pair, or the lowest free array. -/
def Cluster.arraysFor (c : Cluster) (gang : Nat) : Option (List Nat) :=
  let busy := (c.tiles.filter (fun t => !t.released)).flatMap (fun t => t.arrays)
  let free (l : List Nat) : Bool := !l.any (fun a => busy.contains a)
  if gang = 0 then ((List.range 4).find? (fun a => free [a])).map (fun a => [a])
  else if gang = 1 then [[0, 1], [2, 3]].find? free
  else [[0, 1, 2, 3]].find? free

/-- R78, R79, R81: the arrays of the next tile of entry `tag`, once it may start: a change of gang mode waits for every tile on the arrays, an
instruction keeps its arrays, and a tile that continues a reduction waits for the tiles before it. -/
def Cluster.mxPlace (c : Cluster) (tag gang : Nat) (carries : Bool) : Option (List Nat) :=
  let busy := c.tiles.filter (fun t => !t.released)
  if c.gang != gang && !busy.isEmpty then none
  else if carries && busy.any (fun t => !t.opds.yields) then none
  else match busy.find? (fun t => t.tag = tag) with
    | some t => some t.arrays
    | none => c.arraysFor gang

/-- R81: the accumulators that a continuing tile carries on. DESIGN CHOICE (log entry 122): those of the reduction of its gang mode that has
waited longest; other tiles in between leave them as they are. -/
def Cluster.takeAccs (c : Cluster) (gang : Nat) : Option (List Fl) × Cluster :=
  match c.accs.find? (fun r => r.gang = gang) with
  | some r => (some r.accs, { c with accs := c.accs.erase r })
  | none => (none, c)

/-- The vectors of an iteration as tiles of at most 512 (R77): first vector and number. -/
def tileCuts (rows : Nat) : List (Nat × Nat) := (List.range (ceilDiv rows 512)).map (fun i => (512 * i, Nat.min 512 (rows - 512 * i)))

/-- One iteration of an array entry: its tiles join those that await their verdict (R99). `acc` is the `ACC` field; in shared mode each tile's
results are added to the tile buffer and nothing else is carried (R119). -/
def Cluster.runMx (c : Cluster) (tag : Nat) (ew : Bool) (dsv dbv dov : BitVec 512) (gang pm acc : Nat) (arrays : List Nat) (it : Iter) : Cluster × Nat :=
  let s := TDesc.ofBits dsv
  let b := TDesc.ofBits dbv
  let o := TDesc.ofBits dov
  let alone := o.loc != 7 || ew
  let poison := c.poison (mxRanges c ew gang s b [it])
  (tileCuts b.rows).foldl (fun (x : Cluster × Nat) cut =>
    let (carry, c) := if alone || acc ≤ 1 then (none, x.1) else x.1.takeAccs gang
    let t := tileOpds c ew gang pm s b (it.off 0) (it.off 1) cut.1 cut.2 carry (alone || acc = 0 || acc = 3)
    let y := t.yield []
    let slot : TileSlot := { rows := if t.yields then cut.2 else 0, cols := if t.yields then t.width else 0, vals := y.1, released := false, tag := tag,
                             tbuf := if o.loc != 7 then some (o.loc - 1) else none, restart := acc ≤ 1, base := cut.1 * t.width, arrays := arrays,
                             opds := t, accs := if t.yields then [] else t.results [], poison := poison, rerun := false, failed := [] }
    ({ c.selectStat arrays t with tiles := c.tiles ++ [slot], gang := gang }, x.2 + y.2)) (c, 0)

/-- What a run of array iterations leaves; it stalls at an iteration whose tile may not start yet. -/
structure MxRun where
  c : Cluster
  sat : Nat
  done : Nat
  stall : Bool
deriving DecidableEq, Repr

/-- R78, R79, R191: one iteration. -/
def MxRun.step (tag : Nat) (ew : Bool) (ds db dO : BitVec 512) (gang pm acc : Nat) (x : MxRun) (it : Iter) : MxRun :=
  if x.stall then x
  else
    match x.c.mxPlace tag gang (2 ≤ acc && (TDesc.ofBits dO).loc = 7 && !ew) with
    | none => { x with stall := true }
    | some arrays =>
      let y := x.c.runMx tag ew ds db dO gang pm acc arrays it
      ⟨y.1, x.sat + y.2, x.done + 1, false⟩

/-- R76: the stationary operand of the entry's next tile is loaded while this one computes. -/
def Cluster.loadNext (c : Cluster) (tag : Nat) (ew : Bool) (ds db : BitVec 512) (gang pm : Nat) (next : Option Iter) : Cluster :=
  match next, c.tiles.find? (fun t => t.tag = tag && !t.released) with
  | some i, some t =>
    c.loadStat t.arrays (tileOpds c ew gang pm (TDesc.ofBits ds) (TDesc.ofBits db) (i.off 0) (i.off 1) 0 (Nat.min 512 (TDesc.ofBits db).rows) none true)
  | _, _ => c

/-- R220: an array entry starts, or goes on with the iterations whose tiles may start now. -/
def State.startMx (s : State) (n : Nat) (e : QEnt) (ew : Bool) (ds db dO : BitVec 512) (lt : Option Nat) (gang pm acc : Nat) : State :=
  let c := s.cluster n
  let (its, past) := mxIters c ew gang (TDesc.ofBits ds) (TDesc.ofBits db) lt
  let rs := mxRanges c ew gang (TDesc.ofBits ds) (TDesc.ofBits db) its
  let fresh := e.st = .queued
  if fresh && !c.mayBegin e rs then s
  else
    let r := (its.drop e.pos).foldl (MxRun.step e.tag ew ds db dO gang pm acc) ⟨if fresh then c.enter e.tag rs else c, 0, 0, false⟩
    if fresh && r.stall && r.done = 0 then s
    else
      let c' := r.c.loadNext e.tag ew ds db gang pm (its[e.pos + r.done]?)
      let s := (s.setCluster n (c'.modEnt e.tag (fun x => { x with st := if r.stall then .started else .checking, pos := x.pos + r.done }))).modOp e.opid
        (fun o => o.count r.sat 0 0)
      let s := if r.done = 0 then s else s.firstMac n e.opid
      match past, r.stall with
      | some i, false => s.overflow n e (lt.getD 0xFF) i
      | _, _ => s

/-! The vector engine -/

/-- The active lanes of beat `k` of a row of `cols` columns (R113, R114). -/
def beatActive (d : TDesc) (k : Nat) : List Bool :=
  (List.range 128).map (fun l => decide (128 * k + l < d.cols) && !d.lanes.getLsbD l)

/-- The 128 lanes of beat `k` of a row; lanes beyond it hold +0. -/
def beatOf (xs : List Fl) (k : Nat) : List Fl := (List.range 128).map (fun l => xs.getD (128 * k + l) zero)

/-- What a vector iteration leaves: row registers, output rows, NaN scores. -/
structure VxRes where
  rr : Tab W32
  rows : List (List Fl)
  nansc : Nat
deriving DecidableEq, Repr

/-- R53, R54: an element as the vector engine's load path brings it in: W32, rounded once. -/
def TDesc.elemW (d : TDesc) (c : Cluster) (vals : List W32) (delta : Int) (r col : Nat) : Fl := rw (d.elem c vals delta r col)

/-- R113, R116: the rows of a vector instruction in order, beat by beat. -/
def vxRows (training : Bool) (ch : Chain) (c : Cluster) (vals : List W32) (g : List W64) (a : TDesc) (b ic : Option TDesc) (it : Iter) : VxRes :=
  let cRow := (ic.map (fun d => (List.range a.cols).map (d.elemW c vals (it.off 2) 0))).getD []
  (List.range a.rows).foldl (fun (acc : VxRes) r =>
    let aRow := (List.range a.cols).map (a.elemW c vals (it.off 0) r)
    let bRow := (b.map (fun d => (List.range a.cols).map (d.elemW c vals (it.off 1) r))).getD []
    let x := (List.range (ceilDiv a.cols 128)).foldl (fun (y : VxRes) k =>
      let v := runBeat training ch ⟨beatOf aRow k, beatOf bRow k, beatOf cRow k, g, r % 128, k = 0, beatActive a k⟩ y.rr
      ⟨v.rr, y.rows ++ [v.prev], y.nansc + v.nansc⟩) ⟨acc.rr, [], acc.nansc⟩
    ⟨x.rr, acc.rows ++ [x.rows.flatten.take a.cols], x.nansc⟩) ⟨c.rowRegs, [], 0⟩

/-- R114: output element `col` of a row is written. -/
def TDesc.live (d : TDesc) (col : Nat) : Bool := !d.maskedCol col

/-- The code of element (r, col) put into the output operand. -/
def Cluster.putOut (c : Cluster) (o : TDesc) (w cols : Nat) (delta : Int) (r col code : Nat) : Cluster :=
  if o.loc != 0 then { c with tileBufs := Tab.set 0 c.tileBufs ((o.loc - 1) * 16384 + r * cols + col) (BitVec.ofNat 32 code) }
  else
    let h := c.handle o.handle
    { c with spm := putCode c.spm (((hStart h + o.offset + r * hPitch h : Nat) : Int) + delta).toNat w col code }

/-- A scale of the output operand. -/
def Cluster.putScale (c : Cluster) (o : TDesc) (i v : Nat) : Cluster :=
  { c with spm := writeLe c.spm (hStart (c.handle o.handle) + o.soff + i * o.k.bytes) o.k.bytes v }

/-- R108, R114: output rows converted and written; `a` gives shape and lane mask. -/
def Cluster.writeOut (c : Cluster) (training : Bool) (f : Fmt) (a o : TDesc) (delta : Int) (rows : List (List Fl)) : Cluster × Nat × Nat :=
  let cells := (rows.zipIdx).flatMap (fun p => ((p.1.zipIdx).filter (fun q => a.live q.2)).map (fun q => (p.2, q.2, q.1)))
  if o.k = .none then
    cells.foldl (fun (x : Cluster × Nat × Nat) q =>
      let v := convert training f q.2.2
      (x.1.putOut o f.width a.cols delta q.1 q.2.1 v.code, x.2.1 + (if v.sat then 1 else 0), x.2.2 + (if v.flush && !v.sat then 1 else 0))) (c, 0, 0)
  else
    let key (r col : Nat) : Nat := if o.dir then r / o.b * a.cols + col else r * ceilDiv a.cols o.b + col / o.b
    let n := if o.dir then ceilDiv rows.length o.b * a.cols else rows.length * ceilDiv a.cols o.b
    (List.range n).foldl (fun (x : Cluster × Nat × Nat) i =>
      let mine := cells.filter (fun q => key q.1 q.2.1 = i)
      if mine.isEmpty then x
      else
        let blk := quantBlock training f o.k (mine.map (fun q => q.2.2))
        let c := (mine.zip blk.codes).foldl (fun c q => c.putOut o f.width a.cols delta q.1.1 q.1.2.1 q.2) (x.1.putScale o i blk.scale)
        (c, x.2.1 + blk.sat, x.2.2 + blk.flush)) (c, 0, 0)

/-- The bytes of whole rows that an output without masked columns writes (R182). -/
def TDesc.outRuns (o : TDesc) (c : Cluster) (delta : Int) (cs : List Nat) : List (Nat × Nat) :=
  if o.loc != 0 || cs.length != o.cols then []
  else
    let w := c.handle o.handle
    (List.range o.rows).map (fun r =>
      let a := (((hStart w + o.offset + r * hPitch w : Nat) : Int) + delta).toNat
      (a, a + o.cols * o.f.width / 8))

/-- R118: the head of the array's queue once every check of it has passed. -/
def Cluster.headTile (c : Cluster) : Option TileSlot :=
  match c.tiles.find? (fun t => t.tbuf.isNone && !t.vals.isEmpty) with
  | some t => if t.released then some t else none
  | none => none

def Cluster.popHead (c : Cluster) : Cluster :=
  match c.headTile with
  | some t => { c with tiles := c.tiles.erase t }
  | none => c

/-- What a run of vector iterations leaves. -/
structure VxRun where
  c : Cluster
  sat : Nat
  flush : Nat
  nansc : Nat
  nan : Option (Nat × Nat × Nat)
  done : Nat
  dry : Bool
deriving DecidableEq, Repr

/-- R113, R118: one iteration; a queue-mode iteration that finds the queue empty waits. -/
def VxRun.step (training : Bool) (v : VxOpds) (x : VxRun) (it : Iter) : VxRun :=
  if x.dry then x
  else if v.a.loc = 7 && x.c.headTile.isNone then { x with dry := true }
  else
    let vals := if v.a.loc = 7 then (x.c.headTile.map (fun t => t.vals)).getD [] else []
    let r := vxRows training v.chain x.c vals v.g v.a v.b v.ic it
    let f := (Fmt.ofCode v.chain.outfmt).getD .w32
    let (c, sat, flush) := x.c.writeOut training f v.a v.o (it.off 3) r.rows
    let c := { c.cleanse (v.o.outRuns c (it.off 3) v.cols) with rowRegs := r.rr }
    let c := if v.a.loc = 7 then c.popHead else c
    let bad := (r.rows.zipIdx).findSome? (fun p => ((p.1.zipIdx).find? (fun q => v.a.live q.2 && !q.1.isFinite)).map (fun q => (v.tile, p.2 % 65536, q.2 % 65536)))
    { c := c, sat := x.sat + sat, flush := x.flush + flush, nansc := x.nansc + r.nansc, nan := earliest x.nan bad, done := x.done + 1, dry := false }

/-- R176, R177: slots of rings that the writes `rs` fill: they begin to fill, as the entry's own. -/
def Cluster.beginFills (c : Cluster) (tag : Nat) (rs : List Rng) : Cluster :=
  rs.foldl (fun c r =>
    let w := c.handle r.handle
    if !r.wr || !hRing w then c
    else
      let k := (ringSlots w r.first r.last).length
      (c.takeSlots r.handle k).modEnt tag (fun x => { x with fills := x.fills ++ (List.range k).map (fun i => ⟨i, (hHead w + i) % hSlots w, 1, false⟩) })) c

/-- R176: every write of the entry has landed; its ring slots become Full in their turn. -/
def Cluster.endFills (c : Cluster) (tag : Nat) (rs : List Rng) : Cluster :=
  rs.foldl (fun c r => if r.wr && hRing (c.handle r.handle) then c.promote 17 r.handle else c)
    (c.modEnt tag (fun x => { x with fills := x.fills.map (fun f => { f with left := 0 }) }))

/-- R220: a vector entry starts, or goes on where it waited for the queue. Its ranges are freed once its reads have returned and its writes
have landed (R174). -/
def State.startVx (s : State) (n : Nat) (e : QEnt) (v : VxOpds) (lt : Option Nat) : State :=
  let c := s.cluster n
  let (its, past) := vxIters c v lt
  let rs := vxRanges c v its
  let fresh := e.st = .queued
  if fresh && !c.mayBegin e rs then s
  else
    match c.poison rs with
    | some x => (s.setCluster n ((c.leave e.tag false).leave e.tag true |>.modEnt e.tag (fun x => { x with st := .doneWork }))).uncorrectable n x e
    | none =>
      let training := ((s.op e.opid).map Op.training).getD false
      let c := if fresh then (c.enter e.tag rs).beginFills e.tag rs else c
      let r := (its.drop e.pos).foldl (VxRun.step training v) ⟨c, 0, 0, 0, none, 0, false⟩
      let c' := if r.dry then r.c else ((r.c.leave e.tag false).leave e.tag true).endFills e.tag rs
      let st : QSt := if r.dry then .started else .doneWork
      let s := s.setCluster n (c'.modEnt e.tag (fun x => { x with st := st, pos := x.pos + r.done }))
      let s := s.modOp e.opid (fun o => let o := o.count r.sat r.flush r.nansc; match r.nan with
        | some x => o.nanAt x
        | none => o)
      match past, r.dry with
      | some i, false => s.overflow n e (lt.getD 0xFF) i
      | _, _ => s

/-! Streams and scratchpad control at their start -/

/-- R193: a stream entry starts: it enrols on its signal, where it waits for one (R344). -/
def State.startSx (s : State) (n : Nat) (e : QEnt) (v : BitVec 512) : State :=
  let d := SDesc.ofBits v
  if (s.cluster n).awaitsControl e then s
  else
  let s := s.modCluster n (fun c => c.modEnt e.tag (fun x => { x with st := .started }))
  if !d.waitEn then s
  else
    match s.await d.waitSig (.stream n e.tag) with
    | (true, s) => s.modCluster n (fun c => c.takeSig e.tag none)
    | (false, s) => s

/-- R218: LTW takes effect once every earlier entry that names its table has completed. -/
def State.startLtw (s : State) (n : Nat) (e : QEnt) (t : Nat) (w : BitVec 1024) : State :=
  let c := s.cluster n
  if (c.queue.takeWhile (fun x => x.tag != e.tag)).any (fun x => tableOf x.work = some t) then s
  else s.setCluster n ({ c with loops := Tab.set 0 c.loops t w }.modEnt e.tag (fun x => { x with st := .doneWork }))

/-- R218: HSET, HCLR and RCLR take effect; a ring waits for the scoreboard entry that it will hold (R175, R178). -/
def State.startHandle (s : State) (n : Nat) (e : QEnt) : State :=
  let done (s : State) : State := s.modCluster n (fun c => c.modEnt e.tag (fun x => { x with st := .doneWork }))
  match e.work with
  | .hset h w =>
    if hRing w && Config.scoreboardMax ≤ ((s.cluster n).sb.filter (fun x => x.tag != ringTag h)).length then s
    else done (s.putHandle n h e.part e.opid w)
  | .hclr h => done (s.putHandle n h e.part e.opid (putBit ((s.cluster n).handle h) 63 false))
  | .rclr h => done (s.clearRing n h)
  | _ => s

/-- The entry that ENTRY_START acts on: the engine's next, or an array or vector entry that waits to go on. -/
def Cluster.starting (c : Cluster) (eng : Engine) : Option QEnt :=
  if eng = .vector || eng = .array then c.firstOf eng (fun e => e.st = .queued || e.st = .started) else c.nextOf eng

/-- R220: engine `e` of cluster `n` starts its next entry. -/
def execEntryStart (n : Fin 32) (e : Engine) (s : State) : Res :=
  .next (match (s.cluster n.val).starting e with
    | none => s
    | some q =>
      if !s.mayWork n.val q.opid then s
      else
        match q.work with
        | .mx ew ds db dO lt gang pm acc _ _ => s.startMx n.val q ew ds db dO lt gang pm acc
        | .vx chain ia io ib ic lt _ g tile => s.startVx n.val q (VxOpds.of chain ia io ib ic g tile) lt
        | .sx v => s.startSx n.val q v
        | .ltw t w => s.startLtw n.val q t w
        | _ => s.startHandle n.val q)

/-! Checks of tiles (R98 to R101) -/

/-- R81, R99, R118, R119: a tile whose checks have settled is released: to the vector engine, or into its tile buffer; a tile that yields no
results hands its accumulators to the tile that continues the reduction. -/
def Cluster.releaseTile (c : Cluster) (t : TileSlot) : Cluster :=
  if !t.opds.yields then { c with tiles := c.tiles.erase t, accs := c.accs ++ [⟨t.opds.gang, t.accs⟩] }
  else
    match t.tbuf with
    | some b =>
      let bufs := (t.vals.zipIdx).foldl (fun (m : Tab W32) p =>
        let i := b * 16384 + t.base + p.2
        Tab.set 0 m i (if t.restart then p.1 else toW32 (Fl.add (ofW32 (Tab.get 0 m i)) (ofW32 p.1)))) c.tileBufs
      { c with tileBufs := bufs, tiles := c.tiles.erase t }
    | none => { c with tiles := c.tiles.map (fun x => if x = t then { x with released := true } else x) }

/-- The tile `t` of the cluster becomes `u`. -/
def Cluster.putTile (c : Cluster) (t u : TileSlot) : Cluster := { c with tiles := c.tiles.map (fun x => if x = t then u else x) }

/-- The tile with the data that its arrays gave (R99, R100): its results, or the accumulators that it hands on. -/
def TileSlot.data (t : TileSlot) (fs : List ArrayFault) : TileSlot :=
  { t with vals := (t.opds.yield fs).1, accs := if t.opds.yields then [] else t.opds.results fs }

/-- The tiles that a check counts, by array (R101). -/
def Cluster.countTile (c : Cluster) (arrays : List Nat) : Cluster :=
  { c with tilesChecked := arrays.foldl (fun t a => Tab.set 0 t a (Tab.get 0 t a + 1)) c.tilesChecked }

/-- R101: the lane is mapped out, so its check is not made. -/
def Cluster.laneOut (c : Cluster) (array lane : Nat) : Bool := c.lanesOut.contains (array, lane)

/-- R118: four tiles stand in the array's queue before this one. -/
def Cluster.queueHeld (c : Cluster) (t : TileSlot) : Bool :=
  t.tbuf.isNone && !t.vals.isEmpty && 4 ≤ (c.tiles.takeWhile (fun x => x != t)).countP (fun x => x.tbuf.isNone && !x.vals.isEmpty)

/-! Tiles of built-in operations (R100, R157, R158; log entry 130) -/

/-- The attention operation whose tiles run on cluster `n`: the earliest one that holds a share there. -/
def State.builtinOn (s : State) (n : Nat) : Option Op := s.hw.ops.find? (fun o => isAttn o.cmd && o.st = .running && !o.fin && bit o.shares n)

/-- A tile is being checked or rerun (R100). -/
def Cluster.checking (c : Cluster) : Bool := c.builtin.isSome || c.tiles.any (fun t => !t.released)

/-- The lanes that faults in the cells make fail: a wrong checksum its own lane, a wrong sum the checksum column of its array. -/
def failedLanes (fs : List ArrayFault) : List (Nat × Nat) :=
  (fs.map (fun f => match f with
    | .chunk _ c _ _ _ => (c / 64 % 4, 64)
    | .lane l _ => (l.array.val, l.lane.val))).eraseDups

def dataWrong (fs : List ArrayFault) : Bool := fs.any (fun f => match f with
  | .chunk .. => true
  | .lane .. => false)

/-- R100: a tile of a built-in operation on cluster `n` passes its checks, or is rerun. -/
def State.builtinVerdict (s : State) (n : Nat) (fs : List ArrayFault) : State :=
  let c := s.cluster n
  match s.builtinOn n with
  | none => s
  | some o => if c.builtin.isSome then s else s.setCluster n { c.countTile [0, 1, 2, 3] with builtin := if fs.isEmpty then none else some (o.opid, fs) }

/-- R98 to R100: the checks of the oldest unsettled tile complete, with what went wrong in the cells while it ran: it is released, or rerun for
the lanes that failed. A tile with uncorrectable data in an operand is rerun as well (R414). Its verdict waits while an earlier tile is under
rerun, which delays the next. -/
def execTileVerdict (n : Fin 32) (fs : List ArrayFault) (s : State) : Res :=
  .next (
    let c := s.cluster n.val
    match c.tiles.find? (fun t => !t.released) with
    | none => if s.fast then s.builtinVerdict n.val fs else s
    | some t =>
      if !s.fast || t.rerun || c.queueHeld t then s
      else
        let c := c.countTile t.arrays
        let u := t.data fs
        let bad := t.opds.failing fs t.arrays c.lanesOut
        s.setCluster n.val (if bad.isEmpty && t.poison.isNone then (c.putTile t u).releaseTile u else c.putTile t { u with rerun := true, failed := bad }))

/-- Charges of a kind within the last 1,000 checked tiles of the array (R101). -/
def Cluster.charged (c : Cluster) (array : Nat) (data : Bool) (lane : Nat) : Nat :=
  c.charges.countP (fun x => x.array = array && x.data = data && (data || x.lane = lane)
    && decide (Tab.get 0 c.tilesChecked array < x.tile + 1000))

/-- R101: a lane is mapped out; two of one array map out the cluster. DESIGN CHOICE (log entry 125): ARG1 of the trouble-log entry names the
array and the lane, which R101 asks for, as array + 4 × lane; R438's table gives ARG1 of kind 0x07 as 0. -/
def State.mapOutLane (s : State) (n array lane : Nat) : State :=
  let c := s.cluster n
  if c.laneOut array lane then s
  else
    let c := { c with lanesOut := c.lanesOut ++ [(array, lane)], colOut := if lane = 64 then c.colOut ||| oneHot 4 array else c.colOut,
                      rowOut := if lane = 64 then c.rowOut else c.rowOut ||| oneHot 4 array }
    let k := s.entryNo
    let s := (s.setCluster n c).note 0x07 none false 1 (BitVec.ofNat 8 n) 0 (0x14 + 1 * 2 ^ 16) (array + 4 * lane)
    let s := (s.event 0x14 1 none 0 [(0, 1, n), (1, 1, array), (2, 1, lane)]).rasIrq 1 k
    if 2 ≤ c.lanesOut.countP (fun x => x.1 = array) then s.mapOutCluster n 1 else s

/-- R100, R101: a checker fault is charged to a lane. -/
def State.chargeLane (s : State) (n : Nat) (opid : W32) (array lane : Nat) : State :=
  let c := s.cluster n
  let c := { c with charges := c.charges ++ [⟨array, Tab.get 0 c.tilesChecked array, false, lane⟩], checkerFaults := bumpTo 0xFFFF c.checkerFaults }
  let s := (s.setCluster n c).note 0x05 none false 1 (BitVec.ofNat 8 n) opid (array + 4 * lane) 0
  if 3 ≤ c.charged array false lane then s.mapOutLane n array lane else s

/-- R100, R101: a data fault is charged to an array. -/
def State.chargeData (s : State) (n : Nat) (opid : W32) (array : Nat) : State :=
  let c := s.cluster n
  let c := { c with charges := c.charges ++ [⟨array, Tab.get 0 c.tilesChecked array, true, 0⟩], dataFaults := bumpTo 0xFFFF c.dataFaults }
  let s := (s.setCluster n c).note 0x06 none false 1 (BitVec.ofNat 8 n) opid array 0
  if 3 ≤ c.charged array true 0 then s.mapOutCluster n 2 else s

/-- R100: the rerun's outcome row, 1 to 4. -/
def rerunRow (equal pass : Bool) : Nat := if equal then (if pass then 1 else 2) else (if pass then 3 else 4)

/-- R100, R101: a checker fault is charged to each of the lanes. -/
def State.chargeLanes (s : State) (n : Nat) (opid : W32) (ls : List (Nat × Nat)) : State :=
  ls.foldl (fun s l => s.chargeLane n opid l.1 l.2) s

/-- R100, R158: the rerun of a built-in operation's tile ends: the outcome row charges lanes or data, or the operation completes CHECK_FAILED and
writes nothing. -/
def State.builtinRerun (s : State) (n : Nat) (fs : List ArrayFault) : State :=
  let c := s.cluster n
  match c.builtin with
  | none => s
  | some (opid, first) =>
    let array := ((failedLanes first).headD (0, 0)).1
    let row := rerunRow (!dataWrong first && !dataWrong fs) fs.isEmpty
    let s := (s.setCluster n { c with builtin := none }).trace 0x0C (((s.op opid).map Op.part).getD 0) (BitVec.ofNat 8 n) opid array row
    match row with
    | 1 => s.chargeLanes n opid (failedLanes first)
    | 2 => (s.chargeLanes n opid (failedLanes first)).chargeLanes n opid (failedLanes fs)
    | 3 => s.chargeData n opid array
    | _ => (s.modCluster n (fun c => { c with checkFailed := bumpTo 0xFF c.checkFailed })).endOp opid 0x50 0x11 (BitVec.ofNat 96 (n + 32 * array))

/-- R100: the checks of a rerun tile complete, with what went wrong in the rerun, which runs on permuted arrays: in data cells, in the checksum
cells of columns, and in the checksum column. The outcome row
decides what is released and what is charged. A rerun that finds its operand uncorrectable again releases nothing (R414). DESIGN CHOICE
(log entry 125): the rerun itself does not count among the 1,000 checked tiles of R101, which its tile has counted in already. -/
def execAbftRerunDone (n : Fin 32) (data sums column : List ArrayFault) (s : State) : Res :=
  .next (
    let fs := data ++ sums ++ column
    let c := s.cluster n.val
    match c.tiles.find? (fun t => t.rerun), s.fast with
    | some t, true =>
      let e := c.queue.find? (fun e => e.tag = t.tag)
      let opid := (e.map (fun e => e.opid)).getD 0
      let array := (t.failed.headD (t.arrays.headD 0, 0)).1
      let again := { t.data fs with rerun := false }
      let bad := t.opds.failing fs (t.arrays.map (rerunArray t.opds.gang)) c.lanesOut
      let equal := again.vals = t.vals && again.accs = t.accs
      let row := if t.poison.isSome then 4 else rerunRow equal bad.isEmpty
      let s := s.trace 0x0C ((e.map (fun e => e.part)).getD 0) (BitVec.ofNat 8 n.val) opid array row
      let out := if equal then { t with rerun := false } else again
      let rel := s.setCluster n.val ((c.putTile t out).releaseTile out)
      match row with
      | 1 => rel.chargeLanes n.val opid t.failed
      | 2 => (rel.chargeLanes n.val opid t.failed).chargeLanes n.val opid bad
      | 3 => rel.chargeData n.val opid array
      | _ =>
        let s := s.setCluster n.val { c with tiles := c.tiles.erase t, checkFailed := bumpTo 0xFF c.checkFailed }
        match e with
        | some e => s.entryFault n.val e 0x50 0x11 (BitVec.ofNat 96 (n.val + 32 * array))
        | none => s
    | none, true => s.builtinRerun n.val fs
    | _, _ => s)

/-! The end of an entry -/

/-- Parts of a stream that are issued apart: one for each index of the outermost dimension where the destination has slots (R185). -/
def Cluster.streamParts (c : Cluster) (d : SDesc) : Nat :=
  if d.kind = 5 || (d.toSpm && hRing (c.handle d.dst)) then d.ns.getLastD 1
  else if d.kind = 3 then Nat.max 1 (ceilDiv (d.total * streamWidth d.fout) 524288) else 1

/-- R221: every write of the entry has landed and every check of its tiles has settled. -/
def Cluster.entryDone (c : Cluster) (e : QEnt) : Bool :=
  match e.work with
  | .mx .. => e.st = .checking && c.tiles.all (fun t => t.tag != e.tag || t.released)
  | .sx v => e.st = .started && (c.streamParts (SDesc.ofBits v) ≤ e.pos || e.bad.isSome) && e.left = 0 && e.fills.isEmpty
  | _ => e.st = .doneWork && e.fills.isEmpty

/-- R176: slot `TAIL` of a ring is released. -/
def releaseSlot (w : W64) : W64 := ringSet w (hHead w) (hTail w + 1) (hBusy w - 1) (hFull w - 1)

/-- R176, R196: the ring of handle `h` gives up slot TAIL; a window gives its sender a credit for it. -/
def State.release (s : State) (n h : Nat) : State :=
  let w := (s.cluster n).handle h
  if !hRing w || hFull w = 0 then s
  else
    let s := s.modCluster n (fun c => c.setHandle h (releaseSlot w))
    if hKind w = 2 then s.giveCredit (windowOf n h) (hTail w) else s

/-- R199, R343: a stream's end: its signal is raised, and a real-time stream whose last element landed late is traced. -/
def State.streamEnd (s : State) (e : QEnt) (d : SDesc) : State :=
  let late := (e.landed - e.issueTick).toNat
  let s := if d.rt && d.deadline != 0 && d.deadline < late && e.bad.isNone then
      (s.trace 0x05 e.part 0xFF e.opid e.tag (late - d.deadline)).modOp e.opid (fun o => { o with late := true })
    else s
  if d.raiseEn && e.bad.isNone then s.raise d.raiseSig else s

/-- R221: engine `e`'s first finished entry completes; its scoreboard entries, ring slots and queue entry are freed, and its operation ends
where it was the last. -/
def execEntryComplete (n : Fin 32) (e : Engine) (s : State) : Res :=
  .next (
    let c := s.cluster n.val
    match c.queue.find? (fun q => q.eng = e && c.entryDone q), s.fast with
    | some q, true =>
      let s := s.setCluster n.val { c with queue := c.queue.filter (fun x => x.tag != q.tag), sb := c.sb.filter (fun x => x.tag != q.tag) }
      let s := (releasesOf q.work).foldl (fun s h => s.release n.val h) s
      let s := match q.work with
        | .sx v => s.streamEnd q (SDesc.ofBits v)
        | _ => s
      s.progCheck q.opid
    | _, _ => s)

/-- The engine's number in a scoreboard entry (R173). -/
def enginePort : Engine → Nat
  | .array => 0 | .vector => 1 | .stream => 3 | .control => 5

/-- R173: a scoreboard entry as its register shows it. -/
def SbEnt.word (e : SbEnt) : W64 :=
  BitVec.ofNat 64 (2 ^ 63 + (if e.wr then 2 ^ 62 else 0) + e.eng % 8 * 2 ^ 59 + e.first % 2 ^ 17 * 2 ^ 42 + e.last % 2 ^ 17 * 2 ^ 25 + e.tag % 2 ^ 16)

/-- R175: the entry that the first of the accesses waits for: a conflicting one, or that of the ring whose slot holds it back. -/
def Cluster.blocker (c : Cluster) (rs : List Rng) : Option SbEnt :=
  rs.findSome? (fun r => (c.conflict r).or ((c.handles.find? (fun h => r.heldBy h.1 h.2)).bind (fun h => c.sb.find? (fun e => e.tag = ringTag h.1))))

/-- The slots of a stream's ring are all taken, or no credit of its window is held (R176, R196). -/
def State.slotless (s : State) (c : Cluster) (d : SDesc) : Bool :=
  (d.toSpm && hRing (c.handle d.dst) && hSlots (c.handle d.dst) ≤ hBusy (c.handle d.dst))
    || (d.kind = 5 && !s.peer.held.any (fun x => x.window = BitVec.ofNat 16 d.dstAddr))

/-- R175: entry `e` of cluster `n` is stalled on the scoreboard, a ring or a window. -/
def State.stalled (s : State) (n : Nat) (e : QEnt) : Bool :=
  let c := s.cluster n
  let rs := if e.waits && !c.sb.any (fun x => x.tag = e.tag) then c.planned e else []
  s.mayWork n e.opid && e.bad.isNone && e.hold.isEmpty && (match e.work with
    | .sx v => let d := SDesc.ofBits v; e.st = .started && (!d.waitEn || e.sigTaken) && e.pos < c.streamParts d && (!c.mayAccess rs || s.slotless c d)
    | .hset h w => e.st = .queued && hRing w && Config.scoreboardMax ≤ (c.sb.filter (fun x => x.tag != ringTag h)).length
    | _ => e.st = .queued && !c.mayAccess rs)

/-- R175: the engine's first stalled entry has made no progress for 2^20 ticks: its operation completes ABORTED, and the trouble log names the
entry that blocks it. -/
def execStallTimeout (n : Fin 32) (e : Engine) (s : State) : Res :=
  .next (
    let c := s.cluster n.val
    match c.firstOf e (s.stalled n.val), s.fast with
    | some q, true =>
      let blocking := ((c.blocker (c.planned q)).map SbEnt.word).getD 0
      let s := s.note 0x04 (some q.part) false 2 (BitVec.ofNat 8 n.val) q.opid (enginePort e) blocking.toNat
      let s := s.entryFault n.val q 0x22 0x08 0
      let s := s.modCluster n.val (fun c => { c with queue := c.queue.filter (fun x => x.tag != q.tag), sb := c.sb.filter (fun x => x.tag != q.tag) })
      s.progCheck q.opid
    | _, _ => s)

end Sys2Proof.Machine
end

