-- ==== Sys2Proof/Machine/Streams.lean ====
section
/-! DEFINITION. Streams (R184 to R199), the cluster cache (R180), memory requests, credits and returns (R353 to R357), access counters
(R338) and memory error responses (R415). -/

namespace Sys2Proof.Machine

/-! The elements of a part -/

/-- Bits `i·w` upward of little-endian bytes. -/
def codeOfBytes (bs : List Byte) (w i : Nat) : Nat := leNat ((bs.drop (i * w / 8)).take (ceilDiv w 8)) / 2 ^ (i * w % 8) % 2 ^ w

/-- The physical address of `va` under the translations that a stream holds (R217), else under the tables. -/
def State.streamPa (s : State) (xl : List TlbEnt) (part va : Nat) : Option Nat :=
  match xl.find? (fun e => e.page = va / 2 ^ 25) with
  | some e => some (e.pa + va % 2 ^ 25)
  | none => s.paOf part va

/-- `n` bytes at `va` under the translations that a stream holds. -/
def State.streamRead (s : State) (xl : List TlbEnt) (part va n : Nat) : List Byte :=
  (pieces (n / 2 ^ 25 + 2) va n).flatMap (fun p => match s.streamPa xl part p.1 with
    | some pa => readBytes s.mem pa p.2
    | none => List.replicate p.2 0)

/-- The translations that a stream holds with those of the pages of `rs` that it lacks (R186, R217). -/
def State.withXl (s : State) (xl : List TlbEnt) (part : Nat) (rs : List (Nat × Nat)) : List TlbEnt :=
  xl ++ ((rs.flatMap (fun r => Opd.pages ⟨part, .compute, false, r.1, r.2⟩)).eraseDups.filter (fun pg => !xl.any (fun e => e.page = pg))).filterMap
    (fun pg => match s.xlate part (pg * 2 ^ 25) with
      | .ok e => some e
      | _ => none)

/-- The source code of an element; `j` counts the elements that are not padded, for a fabric source. -/
def State.srcCode (s : State) (c : Cluster) (part : Nat) (xl : List TlbEnt) (inp : List Byte) (d : SDesc) (j : Nat) (e : List Nat) : Nat :=
  let w := streamWidth d.fin
  let a := d.srcAddr c e
  let e0 := e.getD 0 0
  if d.kind = 2 then codeOfBytes inp w j
  else if d.kind = 0 then codeOfBytes (s.streamRead xl part (a.toNat + e0 * w / 8) (ceilDiv w 8)) w (if w < 8 then e0 * w % 8 / w else 0)
  else codeAt c.spm ((hStart (c.handle d.srcHandle) : Int) + a).toNat w e0

/-- R54, R188: an element's code in the destination format, with what it counts. -/
def streamCode (training : Bool) (d : SDesc) (c : Nat) : Conv :=
  if d.fin = d.fout then ⟨c, false, false⟩
  else convert training ((Fmt.ofCode d.fout).getD .w32) (ofCode ((Fmt.ofCode d.fin).getD .w32) c)

/-- Codes of a run of elements in order, with saturated and flushed counts. -/
structure Codes where
  codes : List Nat
  sat : Nat
  flush : Nat
deriving DecidableEq, Repr

/-- R185, R187, R188: the destination codes of a part's elements. -/
def State.partCodes (s : State) (training : Bool) (c : Cluster) (part : Nat) (xl : List TlbEnt) (inp : List Byte) (d : SDesc) (xs : List (Nat × List Nat)) : Codes :=
  let r := xs.foldl (fun (a : List Nat × Nat × Nat × Nat) x =>
    if d.padded x.2 then ((d.pad % 2 ^ streamWidth d.fout) :: a.1, a.2)
    else
      let v := streamCode training d (s.srcCode c part xl inp d a.2.1 x.2)
      (v.code :: a.1, a.2.1 + 1, a.2.2.1 + (if v.sat then 1 else 0), a.2.2.2 + (if v.flush && !v.sat then 1 else 0))) ([], 0, 0, 0)
  ⟨r.1.reverse, r.2.2.1, r.2.2.2⟩

/-- Codes written densely into the scratchpad at byte `base`. -/
def Cluster.putCodes (c : Cluster) (base w : Nat) (codes : List Nat) : Cluster :=
  { c with spm := (codes.zipIdx).foldl (fun m x => putCode m base w x.2 x.1) c.spm }

/-! Requests -/

/-- The memory byte runs that a part reads: consecutive elements of dimension 0 that are not padded. -/
def SDesc.readRuns (d : SDesc) (c : Cluster) (xs : List (Nat × List Nat)) : List (Nat × Nat) :=
  let w := streamWidth d.fin
  let live := xs.filter (fun x => !d.padded x.2)
  live.foldl (fun (a : List (Nat × Nat)) x =>
    let e0 := x.2.getD 0 0
    let base := (d.srcAddr c x.2).toNat
    let lo := base + e0 * w / 8
    let hi := base + ceilDiv ((e0 + 1) * w) 8
    match a.getLast? with
    | some l => if e0 != 0 && l.1 ≤ lo && lo ≤ l.1 + l.2 then a.dropLast ++ [(l.1, Nat.max l.2 (hi - l.1))] else a ++ [(lo, hi - lo)]
    | none => [(lo, hi - lo)]) []

/-- R336: the pages of a stream's runs: those that it holds, and the others under the tables as they are now. -/
def State.judgeRuns (s : State) (part : Nat) (write : Bool) (rs : List (Nat × Nat)) (xl : List TlbEnt := []) : Verdict × Nat :=
  (rs.flatMap (fun r => (Opd.pages ⟨part, .compute, write, r.1, r.2⟩).map (fun pg => (pg, Nat.max r.1 (pg * 2 ^ 25))))).foldl (fun acc x =>
    if xl.any (fun e => e.page = x.1) then acc
    else
      let v := judge .compute write (s.xlate part x.2)
      if Verdict.worst acc.1 v = acc.1 then acc else (v, x.2)) (.ok, 0)

/-- The reads of a part are requested, but for blocks the cache holds; how many were. -/
def State.askReads (s : State) (n part tag k : Nat) (cache : Bool) (xl : List TlbEnt) (rs : List (Nat × Nat)) : Nat × State :=
  (rs.flatMap (fun r => requestsOf (r.2 / 512 + 2) r.1 r.2)).foldl (fun (a : Nat × State) q =>
    let (hit, c) := if cache then (a.2.cluster n).cacheLook part (q.1 / 512) else (false, a.2.cluster n)
    let s := if cache then a.2.setCluster n c else a.2
    if hit then (a.1, s)
    else (a.1 + 1, s.pushReq ⟨false, part, q.1, (s.streamPa xl part q.1).getD 0, q.2, .stream n tag k, cache, []⟩)) (0, s)

/-- The writes of a stream are requested, with their data. -/
def State.askWrites (s : State) (n part tag va : Nat) (xl : List TlbEnt) (bs : List Byte) : Nat × State :=
  (requestsOf (bs.length / 512 + 2) va bs.length).foldl (fun (a : Nat × State) q =>
    let s := a.2
    (a.1 + 1, s.pushReq ⟨true, part, q.1, (s.streamPa xl part q.1).getD 0, q.2, .stream n tag 0, false, (bs.drop (q.1 - va)).take q.2⟩)) (0, s)

/-! Landing -/

/-- Where part `k` of a stream lands in cluster `c`. -/
def SDesc.landing (d : SDesc) (c : Cluster) (slot : Nat) : Nat :=
  let w := c.handle d.dst
  if hRing w then hStart w + slot * hSlotBytes w else hStart w + d.dstAddr

/-- Codes that a scratchpad destination has room for; only padded elements lie beyond it (R172). -/
def SDesc.room (d : SDesc) (c : Cluster) : Nat := 8 * (d.slotOpt c).getD (hBytes (c.handle d.dst) - d.dstAddr) / streamWidth d.fout

/-- The cells of ring slot `slot` that a part fills (R174). -/
def SDesc.slotRange (d : SDesc) (c : Cluster) (slot : Nat) : List Rng :=
  let a := d.landing c slot
  let n := Nat.min (hSlotBytes (c.handle d.dst)) (ceilDiv (d.inner * streamWidth d.fout) 8)
  if n = 0 then [] else rangesOf true 3 d.dst [(a / 64, (a + n - 1) / 64)]

/-- Part `k` of the stream has landed, or what could not be read of it never will: its scoreboard entry is freed, its ring slot becomes Full in
its turn. -/
def Cluster.partLanded (c : Cluster) (e : QEnt) (d : SDesc) (k slot : Nat) (now : W64) : Cluster :=
  let ring := (d.slotOpt c).isSome
  let fillsOf (x : QEnt) : List Fill :=
    if ring then x.fills.map (fun f => if f.part = k then { f with left := 0 } else f)
    else x.fills.filter (fun f => f.part != k)
  let c := c.modEnt e.tag (fun x => { x with landed := now, fills := fillsOf x })
  if ring then
    let rs := d.slotRange c slot
    let freed (x : SbEnt) : Bool := x.tag = e.tag && x.wr && rs.any (fun r => r.first = x.first && r.last = x.last)
    ({ c with sb := c.sb.filter (fun x => !freed x) } : Cluster).promote 17 d.dst
  else c.leave e.tag true

/-- The data of part `k` lands: its elements are converted and written; a ring slot becomes Full in its turn. -/
def State.land (s : State) (n : Nat) (e : QEnt) (d : SDesc) (k slot : Nat) (inp : List Byte) : State :=
  let c := s.cluster n
  let xs := (d.goodElems c (d.slotOpt c) (d.elems (d.slotOpt c).isSome k)).1
  let r := s.partCodes (((s.op e.opid).map Op.training).getD false) c e.part e.xl inp d xs
  let codes := r.codes.take (d.room c)
  let a := d.landing c slot
  let c := (c.putCodes a (streamWidth d.fout) codes).cleanse [(a, a + codes.length * streamWidth d.fout / 8)]
  (s.setCluster n (c.partLanded e d k slot s.clk.tick)).modOp e.opid (fun o => o.count r.sat r.flush 0)

/-! Issue -/

/-- R174: an access of the stream unit waits for earlier ones of its own that overlap it. -/
def Cluster.ownConflict (c : Cluster) (tag : Nat) (rs : List Rng) : Bool :=
  rs.any (fun r => c.sb.any (fun e => e.eng = 3 && e.tag != tag && decide (e.first ≤ r.last ∧ r.first ≤ e.last) && (r.wr || e.wr)))

/-- Credits returned to the sender of in-port `k` (R359). -/
def State.giveFlits (s : State) (k flits : Nat) : State :=
  s.modFab (fun f => { f with inCred := Tab.set 0 f.inCred k (Nat.min 512 (Tab.get 0 f.inCred k + flits)) })

/-- R360: the tile is of the command's partition, sequence and layer. -/
def tileOf (o : Op) (t : FTile) : Bool := t.part = o.part && t.sqid.toNat = sqidOf o.cmd && t.layer.toNat = layerOf o.cmd

/-- R360: the operation has not yet received all its tiles; a RUN_PROGRAM takes tiles as its streams ask for them. -/
def State.wantsTile (s : State) (p : Nat) (c : Cmd) (got : Nat) : Bool :=
  opcodeOf c = 0x0F || got < inputBytes (s.desc p) c

/-- R360: the earliest admitted command that tile `t` of in-port `k` may go to. -/
def State.tileOwner (s : State) (k : Nat) (t : FTile) : Option Op :=
  s.hw.ops.find? (fun o => fiEn o.cmd && fiOf o.cmd = k && tileOf o t && s.wantsTile o.part o.cmd o.input.length)

/-- The oldest complete tile of in-port `k` that belongs to operation `opid` leaves staging, with its flits. -/
def State.takeTile (s : State) (k : Nat) (opid : W32) : Option (FTile × State) :=
  let ts := Tab.get [] s.fab.stagedT k
  match ts.find? (fun t => (s.tileOwner k t.1).any (fun o => o.opid = opid)) with
  | none => none
  | some t => some (t.1, (s.modFab (fun f => { f with stagedT := Tab.set [] f.stagedT k (ts.erase t) })).giveFlits k t.2)

/-- R361: credits of out-port `k` that firings have reserved: of commands that have fired, and of operations that have sent nothing yet. -/
def State.reserved (s : State) (k : Nat) : Nat :=
  ((s.hw.staged.filter (fun x => x.fired && foEn x.cmd && foOf x.cmd = k && opcodeOf x.cmd != 0x0F)).map (fun x => firstFlits (s.desc x.part) x.cmd)).sum
    + ((s.hw.ops.filter (fun o => foEn o.cmd && foOf o.cmd = k && opcodeOf o.cmd != 0x0F && o.flits = 0)).map (fun o => firstFlits (s.desc o.part) o.cmd)).sum

/-- Credits of out-port `k` that no firing has reserved (R361). -/
def State.outFree (s : State) (k : Nat) : Nat := Tab.get 0 s.fab.outCred k - s.reserved k

/-- R358: bytes as the flits of one tile. -/
def flitsOf (port : Fin 8) (part : Fin 16) (sqid : BitVec 14) (layer : Byte) (bs : List Byte) : List Flit :=
  let n := Nat.max 1 (ceilDiv bs.length 128)
  (List.range n).map (fun i =>
    ⟨port, BitVec.ofNat 1024 (leNat ((bs.drop (128 * i)).take 128)), 0, i = 0, i + 1 = n, part, sqid, layer, 0,
     if i + 1 = n then BitVec.ofNat 7 bs.length else 0⟩)

/-- Flits go out against credits (R359). -/
def State.sendTile (s : State) (k : Nat) (p : Nat) (c : Cmd) (owner : Nat × Nat) (bs : List Byte) : State :=
  let fs := flitsOf (Fin.ofNat 8 k) (Fin.ofNat 16 p) (BitVec.ofNat 14 (sqidOf c)) (BitVec.ofNat 8 (layerOf c)) bs
  s.modFab (fun f => { f with outCred := Tab.set 0 f.outCred k (Tab.get 0 f.outCred k - fs.length), outWait := Tab.set [] f.outWait k (Tab.get [] f.outWait k ++ [(owner.1, owner.2, fs.length)]), sent := Tab.set [] f.sent k (Tab.get [] f.sent k ++ fs) })

/-- R442: output flits of an operation leave; LAST_FLIT with the last of them. -/
def State.flitsLeave (s : State) (opid : W32) (k flits : Nat) (last : Bool) : State :=
  match s.op opid with
  | none => s
  | some o =>
    let s := s.setOp { o with flits := o.flits + flits }
    if last then s.trace 0x03 o.part (BitVec.ofNat 8 (0xA8 + k)) opid k (o.flits + flits) else s

/-- What the issue of a part does; `stall` and `pause` leave the part for later. -/
inductive SxRes where
  | ok (s : State)
  /-- the unit waits: a scoreboard conflict (R174) -/
  | stall
  /-- this stream waits, later ones go on (R193) -/
  | pause
  | fault (s : State)

/-- The part counts as issued; with the last, the stream's reads of the scratchpad have returned (R174). -/
def State.partIssued (s : State) (n : Nat) (e : QEnt) (d : SDesc) (left : Nat) : State :=
  s.modCluster n (fun c =>
    let c := c.modEnt e.tag (fun x => { x with pos := x.pos + 1, left := x.left + left })
    if c.streamParts d ≤ e.pos + 1 then c.leave e.tag false else c)

/-- A part with a scratchpad destination: `ask` says how many reads it waits for. -/
def State.fillPart (s : State) (n : Nat) (e : QEnt) (d : SDesc) (inp : List Byte) (ask : State → Nat × State) : State :=
  let c := s.cluster n
  let slot := hHead (c.handle d.dst)
  let ring := (d.slotOpt c).isSome
  let s := if ring then s.setCluster n (c.takeSlots d.dst 1) else s
  let (k, s) := ask s
  let s := (s.modCluster n (fun c => c.modEnt e.tag (fun x => { x with fills := x.fills ++ [⟨e.pos, slot, k, false⟩] }))).partIssued n e d 0
  if k = 0 then s.land n e d e.pos slot inp else s

/-- R184: the transfer of one part, its scoreboard entries made and no overflow pending. -/
def State.movePart (s : State) (n : Nat) (e : QEnt) (d : SDesc) (xs : List (Nat × List Nat)) : SxRes :=
  let c := s.cluster n
  let o := s.op e.opid
  let training := (o.map Op.training).getD false
  let r := s.partCodes training c e.part e.xl [] d xs
  let bytes := packCodes (streamWidth d.fout) r.codes
  let counted (s : State) : State := s.modOp e.opid (fun o => o.count r.sat r.flush 0)
  match d.kind with
  | 0 =>
    let runs := d.readRuns c xs
    match s.judgeRuns e.part false runs e.xl with
    | (.ok, _) =>
      let e := { e with xl := s.withXl e.xl e.part runs }
      let s := s.modCluster n (fun c => c.modEnt e.tag (fun x => { x with xl := e.xl }))
      .ok (s.fillPart n e d [] (fun s => s.askReads n e.part e.tag e.pos d.cache e.xl runs))
    | (.held, _) => .pause
    | (.hard, va) => .fault (s.entryFault n e 0x30 0 (resVa va))
  | 1 =>
    let va := d.dstAddr + d.dstHi * 2 ^ 32
    match s.judgeRuns e.part true [(va, bytes.length)] e.xl with
    | (.ok, _) => let (k, s) := s.askWrites n e.part e.tag va e.xl bytes; .ok ((counted s).partIssued n e d k)
    | (.held, _) => .pause
    | (.hard, va) => .fault (s.entryFault n e 0x30 0 (resVa va))
  | 2 =>
    let need := ceilDiv (xs.countP (fun x => !d.padded x.2) * streamWidth d.fin) 8
    if need ≤ e.inp.length then
      let s := s.modCluster n (fun c => c.modEnt e.tag (fun x => { x with inp := x.inp.drop need }))
      .ok (s.fillPart n e d e.inp (fun s => (0, s)))
    else
      match s.takeTile (bits d.src 0 3) e.opid with
      | some (t, s) => .ok (s.modCluster n (fun c => c.modEnt e.tag (fun x => { x with inp := x.inp ++ t.data })))
      | none => .pause
  | 3 =>
    let tile := (bytes.drop (65536 * e.pos)).take 65536
    let k := d.dstAddr % 8
    let flits := Nat.max 1 (ceilDiv tile.length 128)
    match o with
    | some o =>
      if flits ≤ s.outFree k then .ok ((((if e.pos = 0 then counted s else s).sendTile k e.part o.cmd (n, e.tag) tile).flitsLeave e.opid k flits
        (c.streamParts d ≤ e.pos + 1)).partIssued n e d flits) else .pause
    | none => .pause
  | 4 => .ok (s.fillPart n e d [] (fun s => (0, s)))
  | _ =>
    let win := BitVec.ofNat 16 d.dstAddr
    match s.peer.held.find? (fun x => x.window = win), o with
    | some x, some _ =>
      let s := s.modPeer (fun p => { p with held := p.held.erase x })
      let h : PeerHdr := { s.peerHdr 0 x.peer win x.slot e.part (Nat.min bytes.length x.bytes) with opid := x.opid, epoch := x.epoch }
      let s := (counted s).peerSend 2 h (bytes.take x.bytes)
      let s := s.modCluster n (fun c => c.modEnt e.tag (fun y => { y with fills := y.fills ++ [⟨e.pos, x.slot, 1, false⟩] }))
      .ok (s.partIssued n e d 0)
    | _, _ => .pause

/-- R172, R174, R177, R193, R196: the next part of stream `e` of cluster `n`. -/
def State.issuePart (s : State) (n : Nat) (e : QEnt) (d : SDesc) : SxRes :=
  let c := s.cluster n
  let ring := (d.slotOpt c).isSome
  let fresh := e.pos = 0 && !c.sb.any (fun x => x.tag = e.tag)
  let rs := (if fresh then streamRanges c d else []) ++ (if ring then d.slotRange c (hHead (c.handle d.dst)) else [])
  let slot := if d.kind = 5 then (s.peer.held.find? (fun x => x.window = BitVec.ofNat 16 d.dstAddr)).map PeerCredit.bytes else d.slotOpt c
  if s.slotless c d then .pause
  else if c.ownConflict e.tag rs || !c.mayAccess rs || (fresh && c.aheadHolds e rs) then .stall
  else
    match c.poison rs with
    | some x => .fault (s.uncorrectable n x e)
    | none =>
      let (xs, past) := d.goodElems c slot (d.elems (ring || d.kind = 5) e.pos)
      let s := s.setCluster n (c.enter e.tag rs)
      match past, xs with
      | some i, [] => .fault (s.entryFault n e 0x13 0xFF (resIdx i))
      | some i, _ =>
        match s.movePart n e d xs with
        | .ok s => .fault (s.entryFault n e 0x13 0xFF (resIdx i))
        | r => r
      | none, _ => s.movePart n e d xs

/-- R193: the streams of the queue in order: the first that can issue does; one that waits for its signal stops those behind it. -/
def State.issueStreams (s : State) (n : Nat) (es : List QEnt) : State :=
  match es with
  | [] => s
  | e :: es =>
    match e.work with
    | .sx v =>
      let d := SDesc.ofBits v
      if e.st != .started then s
      else if d.waitEn && !e.sigTaken then s
      else if s.linkFull || e.bad.isSome || !e.hold.isEmpty || (s.cluster n).streamParts d ≤ e.pos || !s.mayWork n e.opid then s.issueStreams n es
      else
        match s.issuePart n e d with
        | .ok s => s
        | .fault s => s
        | .stall => s
        | .pause => s.issueStreams n es
    | _ => s.issueStreams n es

/-- R193: the stream unit of cluster `n` issues its next part. -/
def execStreamIssue (n : Fin 32) (s : State) : Res := .next (s.issueStreams n.val ((s.cluster n.val).queue.filter (fun e => e.eng = .stream)))

/-! Memory ports -/

/-- R355: the lowest free tag from `lo` to `hi` − 1 (log entry 26). -/
def freeTag (t : Tab (Option Req)) (lo hi : Nat) : Option Nat :=
  ((List.range (hi - lo)).map (· + lo)).find? (fun i => (Tab.get none t i).isNone)

/-- A request's command may go out: its tag, its command credit and, for a write, a data credit for each beat (R353, R355). The lowest 32 read
tags and 16 write tags are those reserved to light-weight requests. -/
def Port.canSend (p : Port) (r : Req) : Option Nat :=
  let light := r.use.cls.isSome
  if r.wr then (if 1 ≤ p.wc && ceilDiv r.len 128 ≤ p.wd then freeTag p.writes (if light then 0 else 16) 512 else none)
  else if 1 ≤ p.rc then freeTag p.reads (if light then 0 else 32) 1024 else none

/-- The command of `r` goes out with tag `tag`. -/
def Port.sent (p : Port) (r : Req) (tag : Nat) : Port :=
  if r.wr then { p with wc := p.wc - 1, wd := p.wd - ceilDiv r.len 128, writes := Tab.set none p.writes tag (some r) }
  else { p with rc := p.rc - 1, reads := Tab.set none p.reads tag (some r) }

/-- The partitions with a request waiting, as their oldest request; nothing overtakes it (R355). -/
def Port.heads (p : Port) : List (Nat × Req) :=
  (List.range 16).filterMap (fun q => (p.waiting.find? (fun r => r.part = q)).map (fun r => (q, r)))

/-- R307: the next partition with a share is visited. -/
def State.visit (s : State) (p : Port) (rich : List Nat) (req : Nat → Option Req) : Option (Req × Port) :=
  match nextTurn (p.rr + 1) rich with
  | some q => (req q).map (fun r =>
      (r, { p with rr := q, deficit := Tab.set 0 p.deficit q (Tab.get 0 p.deficit q + 512 * s.cfg.active.bwMin q - r.len) }))
  | none => none

/-- R307: whose request is served: the partition whose turn it is while its deficit lasts, then the next with a share; partitions without one
take equal turns over what is left. A visit adds 512 bytes for each unit of `BW_MIN` (log entry 27). -/
def State.serve (s : State) (p : Port) : Option (Req × Port) :=
  let hs := p.heads
  let rich := (hs.map Prod.fst).filter (fun q => s.cfg.active.bwMin q != 0)
  let req (q : Nat) : Option Req := (hs.find? (fun h => h.1 = q)).map Prod.snd
  match rich with
  | [] =>
    match nextTurn (p.rr + 1) (hs.map Prod.fst) with
    | some q => (req q).map (fun r => (r, { p with rr := q }))
    | none => none
  | _ =>
    match req p.rr with
    | some r =>
      if rich.contains p.rr && r.len ≤ Tab.get 0 p.deficit p.rr then
        some (r, { p with deficit := Tab.set 0 p.deficit p.rr (Tab.get 0 p.deficit p.rr - r.len) })
      else s.visit p rich req
    | none => s.visit { p with deficit := Tab.set 0 p.deficit p.rr 0 } rich req
/-- R338: the request is counted where its leaf has `ACC_EN`. -/
def State.countAccess (s : State) (r : Req) : State :=
  let t := s.tr
  let acc := match s.xlate r.part r.va with
    | .ok e => e.acc
    | _ => false
  if !acc || !bit t.acc 63 || bits t.acc 0 8 = 0 then s
  else
    let page := r.va / 2 ^ 25
    let n := ((t.counters.find? (fun x => x.1 = r.part && x.2.1 = page)).map (fun x => x.2.2)).getD 0 + 1
    let rest := (t.counters.filter (fun x => !(x.1 = r.part && x.2.1 = page))).take 1023
    let thr := bits t.acc 0 8 * 1024
    if n < thr then s.modTr (fun t => { t with counters := (r.part, page, n) :: rest })
    else
      let s := s.modTr (fun t => { t with counters := (r.part, page, 0) :: rest })
      let size := 2 ^ (bits t.acc 8 4 + 8)
      let a := bits t.acc 12 40 * 4096 + 16 * (t.accTail.toNat % size)
      if size ≤ (t.accTail - t.accHead).toNat || s.judgeStruct 16 true a 16 != .ok then s.modTr (fun t => { t with hotLost := bump t.hotLost })
      else
        let s := s.lightWrite .other .nothing 16 a (leBytes 4 (r.part % 16) ++ leBytes 4 page ++ leBytes 8 s.clk.tick.toNat)
        let s := s.modTr (fun t => { t with accTail := t.accTail + 1 })
        s.sendIrq (bits s.glob.irqVec0 32 16) 0x04 r.part s.tr.accTail.toNat

/-- R197: the light-weight request that port `k` sends next: the earliest of the port that holds a light-weight tag. -/
def State.lightNext (s : State) (k : Nat) : Option (Bool × Req) := s.hw.light.find? (fun x => x.1 && portOf x.2.pa = k)

/-- R197, R353, R355: port `k` sends a light-weight request, once it has the tag and the credits; no bulk request goes before it. -/
def State.sendLight (s : State) (k : Nat) (x : Bool × Req) : State :=
  let p := s.port k
  match p.canSend x.2 with
  | some tag => (s.modHw (fun h => { h with light := h.light.erase x })).setPort k (p.sent x.2 tag)
  | none => s

/-- R307, R353, R355: port `k` sends the command of the bulk request whose turn it is. -/
def State.sendBulk (s : State) (k : Nat) : State :=
  let p := s.port k
  match s.serve p with
  | some (r, p') =>
    match p.canSend r with
    | some tag => (s.setPort k (Port.sent { p' with waiting := p'.waiting.erase r } r tag)).countAccess r
    | none => s
  | none => s

/-- R197, R307, R353, R355: port `k` sends the command of the request whose turn it is. -/
def execMemoryRequestIssue (k : Fin 16) (s : State) : Res :=
  .next (if s.fast && !s.linkFull then
      (match s.lightNext k.val with
        | some x => s.sendLight k.val x
        | none => s.sendBulk k.val)
    else s)

/-- A port that takes credits: the block is not in reset (R379, R381). -/
def State.creditable (s : State) : Bool := s.on && !s.boot.fatal

/-- R353: `RC_CRED`. -/
def execReadCommandCredit (k : Fin 16) (s : State) : Res :=
  .next (if s.creditable then s.modPort k.val (fun p => { p with rc := bumpTo Config.portCreditMax p.rc }) else s)

/-- R353: `WC_CRED`. -/
def execWriteCommandCredit (k : Fin 16) (s : State) : Res :=
  .next (if s.creditable then s.modPort k.val (fun p => { p with wc := bumpTo Config.portCreditMax p.wc }) else s)

/-- R353: `WD_CRED`. -/
def execWriteDataCredit (k : Fin 16) (s : State) : Res :=
  .next (if s.creditable then s.modPort k.val (fun p => { p with wd := bumpTo Config.portCreditMax p.wd }) else s)

/-! Returns -/

/-- R357: code 3 is treated as 2. -/
def errCode (stat : BitVec 2) : Nat := if stat = 3 then 2 else stat.toNat

/-- The group whose frame of partition `p`'s pool holds `va` (R245). -/
def State.groupAt (s : State) (p va : Nat) : Option Nat :=
  let d := s.desc p
  if !d.active || va < d.base || d.groupStride = 0 then none
  else ((s.pool p).recs.find? (fun r => r.2.resident && r.2.loc = (va - d.base) / d.groupStride)).map Prod.fst

/-- R415: an error response of a stream's request ends its operation; a page's group becomes CORRUPT. -/
def State.streamError (s : State) (n tag : Nat) (r : Req) (k : Nat) (stat : BitVec 2) : State :=
  let code := errCode stat + (if r.wr then 4 else 0)
  match (s.cluster n).queue.find? (fun e => e.tag = tag) with
  | none => s
  | some e =>
    let s := s.note 0x0A (some r.part) false 2 (BitVec.ofNat 8 (0x90 + k)) e.opid code r.va
    match (if r.wr then none else s.groupAt r.part r.va) with
    | some g => (s.corrupt r.part g 0 true).entryFault n e 0x50 0x10 0
    | none => s.entryFault n e 0x50 0x13 (resVa r.va)

/-- One read of part `k` of a stream has returned, with data or with an error; with the last, the part's data lands, unless one of its reads
met an error. -/
def State.readBack (s : State) (n tag k : Nat) (err : Bool) : State :=
  match (s.cluster n).queue.find? (fun e => e.tag = tag) with
  | none => s
  | some e =>
    match e.work, e.fills.find? (fun f => f.part = k) with
    | .sx v, some f =>
      let s := s.modCluster n (fun c => c.modEnt tag (fun x =>
        { x with fills := x.fills.map (fun y => if y.part = k then { y with left := y.left - 1, err := y.err || err } else y) }))
      if 1 < f.left then s
      else if f.err || err then s.modCluster n (fun c => c.partLanded e (SDesc.ofBits v) k f.slot e.landed)
      else s.land n e (SDesc.ofBits v) k f.slot []
    | _, _ => s

/-- R357, R415: the trouble-log entry of an error response. -/
def State.noteError (s : State) (r : Req) (k : Nat) (opid : W32) (stat : BitVec 2) : State :=
  s.note 0x0A (some r.part) false 2 (BitVec.ofNat 8 (0x90 + k)) opid (errCode stat + (if r.wr then 4 else 0)) r.va

/-- R267, R415: an error response of a built-in program's read: a page's group becomes CORRUPT. -/
def State.builtinError (s : State) (opid : W32) (page : Option (Nat × Nat)) (r : Req) (k : Nat) (stat : BitVec 2) : State :=
  let s := s.noteError r k opid stat
  match s.op opid, page with
  | none, some (g, _) => s.corrupt r.part g 0 true
  | none, none => s
  | some o, some (g, b) =>
    ((s.corrupt o.part g (b * (o.set.pool o.part).tok) true).corruptHit o.part (sqidOf o.cmd) b).endOp opid 0x50 0x10 (res20 (b * (o.set.pool o.part).tok))
  | some _, none => s.endOp opid 0x50 0x13 (resVa r.va)

/-- R415: an error response of a light-weight request. -/
def State.lightError (s : State) (aim : Aim) (r : Req) (k : Nat) (stat : BitVec 2) : State :=
  let s := s.noteError r k 0 stat
  match aim with
  | .partition p => s.classP p 0x15 r.va
  | .command ring idx =>
    (match s.hw.ops.find? (fun o => o.cmd.ring = ring && o.cmd.idx = idx) with
      | some o => s.endOp o.opid 0x50 0x13 (resVa r.va)
      | none =>
        match s.hw.staged.find? (fun x => x.cmd.ring = ring && x.cmd.idx = idx) with
        | some x => s.finish x.part x.cmd { Compl.plain 0x50 0x13 with result := resVa r.va }
        | none => s)
  | .walk page _ => s.modTr (fun t => { t with walkers := t.walkers.map (fun w =>
      if w.space = r.part && w.misses.any (fun m => m.page = page) then { w with bad := true } else w) })
  | .context p q => s.kill p q r.va
  | .nothing => s

/-- R330: the second read of a walk follows the first. -/
def State.walkOn (s : State) (aim : Aim) (space : Nat) : State :=
  match aim with
  | .walk page 0 => s.walkRead space page 1
  | _ => s

/-- R396, quantity 7: the bytes of a read count for the partition that it carries. -/
def State.readCounts (s : State) (r : Req) : State := if r.part < 16 then s.meterEvent r.part 7 r.len else s

/-- R180: a block that has returned enters the cluster's cache. -/
def State.readCached (s : State) (n : Nat) (r : Req) : State := if r.cache then s.modCluster n (fun c => c.cacheIn r.part (r.va / 512)) else s

/-- R353, R357, R396: a read return of `tag` at port `k` completes; that of an abandoned request is ignored (R381). -/
def execReadReturn (k : Fin 16) (tag : BitVec 10) (stat : BitVec 2) (s : State) : Res :=
  .next (
    match Tab.get none (s.port k.val).reads tag.toNat with
    | none => s
    | some r =>
      let s' := (s.modPort k.val (fun p =>
        { p with reads := Tab.set none p.reads tag.toNat none, errs := if stat = 0 then p.errs else bump p.errs })).readCounts r
      match r.use with
      | .abandoned => s
      | .stream n t part =>
        if stat = 0 then (s'.readCached n r).readBack n t part false else (s'.streamError n t r k.val stat).readBack n t part true
      | .builtin n opid _ page => if stat = 0 then s'.readCached n r else s'.builtinError opid page r k.val stat
      | .light _ aim => (if stat = 0 then s'.walkOn aim r.part else s'.lightError aim r k.val stat).tagLight
      | .groupCopy _ => s'
      | .opCopy _ => s')

/-- R357: bytes of a write that met an error are undefined: free values. -/
def State.scramble (s : State) (pa len : Nat) : State :=
  { s with mem := writeBytes s.mem pa ((List.range len).map (fun i => Config.freeByte (s.freeCtr + i))), freeCtr := s.freeCtr + len }

/-- R356, R357: what the memory system makes of a write's data. -/
def State.settleWrite (s : State) (r : Req) (stat : BitVec 2) : State :=
  if stat = 0 then { s with mem := writeBytes s.mem r.pa r.data } else s.scramble r.pa r.len

/-- R353, R356, R357: a write completion of `tag` at port `k`. That of an abandoned request is ignored (R381): its data lies in memory, and its
tag stays taken. -/
def execWriteCompletion (k : Fin 16) (tag : BitVec 9) (stat : BitVec 2) (s : State) : Res :=
  .next (
    match Tab.get none (s.port k.val).writes tag.toNat with
    | none => s
    | some r =>
      match r.use with
      | .abandoned => (s.modPort k.val (fun p => { p with writes := Tab.set none p.writes tag.toNat (some { r with data := [], len := 0 }) })).settleWrite r stat
      | .stream n t _ =>
        let s := s.modPort k.val (fun p => { p with writes := Tab.set none p.writes tag.toNat none, errs := if stat = 0 then p.errs else bump p.errs })
        let s := (s.settleWrite r stat).modCluster n (fun c => c.modEnt t (fun x => { x with left := x.left - 1, landed := s.clk.tick }))
        if stat = 0 then s else s.streamError n t r k.val stat
      | .light _ aim =>
        let s := s.modPort k.val (fun p => { p with writes := Tab.set none p.writes tag.toNat none, errs := if stat = 0 then p.errs else bump p.errs })
        (if stat = 0 then s else (s.scramble r.pa r.len).lightError aim r k.val stat).tagLight
      | _ => s.modPort k.val (fun p => { p with writes := Tab.set none p.writes tag.toNat none, errs := if stat = 0 then p.errs else bump p.errs }))

end Sys2Proof.Machine
end

