-- ==== Sys2Proof/Machine/Rings.lean ====
section
/-! DEFINITION. Rings (R283 to R286): configuration, doorbells, fetch, and the admission backlog (R299). -/

namespace Sys2Proof.Machine

/-- R284: `ENABLE` written with 1 on a ring that is out of service; the other fields of `HW_RING_CTL` go with it. -/
def Ring.configured (r : Ring) (v : W64) : Ring :=
  { r with mgmt := bit v 62, irqEn := bit v 61, part := v.extractLsb' 52 4, log2n := v.extractLsb' 40 5, irqVec := v.extractLsb' 0 16 }

def Ring.started (r : Ring) : Ring :=
  { r with enable := true, draining := false, fetched := r.start, done := r.start, tail := r.start, written := [], unwritten := [], waits := false }

/-- R284, R245: the selected ring enters service; its partition's pool is taken up at the first enable. -/
def State.enableRing (s : State) (v : W64) : State :=
  let n := s.hw.ringSel.toNat
  let r := s.ring n
  if r.enable then s
  else
    let r := (r.configured v).started
    (s.setRing n r).takeUpPool r.part.toNat

/-- R284: a write of 0 to `ENABLE`: a ring in service stops fetching; a ring out of service takes the other fields. -/
def State.disableRing (s : State) (v : W64) : State :=
  let n := s.hw.ringSel.toNat
  let r := s.ring n
  if r.enable then s.setRing n ({ r with draining := true }).settle else s.setRing n (r.configured v)

/-- R285: the doorbell of ring `n`. -/
def State.ringBell (s : State) (n : Nat) (v : W64) : State :=
  let r := s.ring n
  let tail := v.setWidth 32
  if !r.enable then (s.setRing n { r with offBell := true }).note 0x02 (some r.part.toNat) true 0 0x80 0 (n + 2 ^ 31) v.toNat
  else if (tail - r.fetched).toNat < 2 ^ 31 && (tail - r.done).toNat ≤ r.n then s.setRing n { r with tail := tail }
  else (s.setRing n { r with badBell := true }).note 0x02 (some r.part.toNat) true 0 0x80 0 n v.toNat

/-- R286: ring `n` has a command to fetch, and its partition room to stage it. -/
def State.fetchable (s : State) (r : Ring) : Bool :=
  s.ringOpen r && r.fetched != r.tail && s.stagedCount r.part.toNat < Config.stagedMax

/-- R141: segments of a range of `keys` keys that are not skipped (R140). -/
def presentSegs (a : AttnPar) (keys : Nat) : List Nat :=
  (List.range (ceilDiv keys 1024)).filter (fun s => !segSkipped a 0 a.nq (1024 * s) (Nat.min keys (1024 * s + 1024)))

/-- The masks of a command that decide which segments it skips (R140). -/
def maskPar (c : Cmd) : AttnPar :=
  { training := false, pm := .native, sscale := zero, qpos := qposOf c, nq := nqOf c, causal := causalOf c,
    win := if winOf c then some (winM1Of c + 1) else none, bm := none, qInt := false, kInt := false, vInt := false }

/-- R151: segments placed on clusters in ascending order, the (s mod N)-th in service. -/
def placeSegs (cs : List Nat) (segs : List Nat) : List (Nat × Nat) := segs.map (fun s => (s, cs.getD (s % cs.length) 0))

/-- R151, R305: the clusters of partition `p` that a decode command will use: those of its segments, or of the segment its tokens go to. -/
def State.useClusters (s : State) (p : Nat) (c : Cmd) : List Nat :=
  let segs := if opcodeOf c = 0x05 then presentSegs (maskPar c) (s.keyCount p c) else [(s.seq p (sqidOf c)).lenOf (layerOf c) / 1024]
  ((placeSegs (s.freeClusters s.cfg.active p) segs).map Prod.snd).eraseDups

/-- R305: a decode command of a resident sequence starts the clocks of the clusters that it will use, as many as its partition has floor
shares. -/
def State.prewake (s : State) (p : Nat) (c : Cmd) : State :=
  if !usesClusters c || workClass c != .decode || !(s.seq p (sqidOf c)).st.resident then s
  else
    let ns := ((s.useClusters p c).take (s.floorOf p)).filter (fun n => !bit s.clk.clkOn n)
    (ns.foldl State.requestClock s).modWeir (fun w => { w with prewoken := ns.foldl (fun m n => m ||| oneHot 32 n) w.prewoken })

/-- R197, R290: the operand block of a command, where it has one, is fetched. -/
def State.fetchBlock (s : State) (p : Nat) (c : Cmd) : State :=
  if (s.blockOf p c).isSome then s.light .fetch (.command c.ring c.idx) false p (argsOf c) 128 else s

/-- R286, R333: the next command of ring `n` is read and staged; a held ring page makes the ring wait, a hard one is a class P fault. -/
def State.fetchFrom (s : State) (n : Nat) : State :=
  let r := s.ring n
  let p := r.part.toNat
  let a := r.base.toNat + 64 * (r.fetched.toNat % r.n)
  match s.judgeStruct r.space false a 64 with
  | .held => s.setRing n { r with waits := true }
  | .hard => s.classP p 0x15 a
  | .ok =>
    let c : Cmd := ⟨n, r.fetched, BitVec.ofNat 512 (s.vaNat r.space a 64)⟩
    let s := ((s.tlbTouch r.space a).setRing n { r with fetched := r.fetched + 1 }).light .fetch (.partition p) false r.space a 64
    ((s.fetchBlock p c).prewake p c).stage p c

/-- R286: one command in the turn of partitions and, within one, of rings. -/
def State.fetchNext (s : State) : State :=
  let rs := s.hw.rings.filter (fun r => s.fetchable r.2)
  match nextTurn s.hw.turnPart ((List.range 16).filter (fun p => rs.any (fun r => r.2.part.toNat = p))) with
  | none => s
  | some p =>
    match nextTurn (Tab.get 0 s.hw.turnRing p) ((rs.filter (fun r => r.2.part.toNat = p)).map Prod.fst) with
    | none => s
    | some n => (s.modHw (fun h => { h with turnPart := (p + 1) % 16, turnRing := Tab.set 0 h.turnRing p ((n + 1) % 16384) })).fetchFrom n

/-- R286: Headwater fetches one command. -/
def execCommandFetch (s : State) : Res := .next (if s.serving then s.fetchNext else s)

/-- `y` creates a sequence that `c` names. -/
def makesSeq (y c : Cmd) : Bool :=
  ([0x01, 0x0D].contains (opcodeOf y) && namesSeq c (sqidOf y)) || (opcodeOf y = 0x03 && namesSeq c (childOf y))

/-- R299: the head of partition `p`'s backlog is tried again, once the head before it is admitted, no command before it is still to create its
sequence and staging has room for it; it goes through the front end again, and stands ready where it finds its slot. -/
def State.retryBacklog (s : State) (p : Nat) : State :=
  match s.backlog p with
  | [] => s
  | e :: rest =>
    match s.hw.staged.find? (fun x => x.part = p && x.st = .backlog && x.cmd.ring = e.ring && x.cmd.idx = e.idx) with
    | none => s.setBacklog p rest
    | some x =>
      if (s.retriedHead p).isSome || Config.stagedMax ≤ s.stagedCount p
          || s.hw.staged.any (fun y => y.st = .ready && y.part = p && makesSeq y.cmd x.cmd) then s
      else match s.residency p x.cmd with
      | (false, s) => s
      | (true, s) =>
        (((s.setBacklog p rest).modStaged x.cmd (fun y => { y with st := .ready, retried := some e.tick })).recountFor p x.cmd).frontEnd p x.cmd

/-- R299: Headwater retries the head of the admission backlog. -/
def execBacklogRetry (p : Fin 16) (s : State) : Res := .next (if s.serving then s.retryBacklog p.val else s)

end Sys2Proof.Machine
end

