-- ==== Sys2Proof/Machine/Sequences.lean ====
section
/-! DEFINITION. Commands on sequences (R254 to R261, R271 to R276): ADMIT, RELEASE, FORK, APPEND_KV, SPEC_COMMIT, SPEC_ABORT, and the
copy-on-write copy. -/

namespace Sys2Proof.Machine

/-! ADMIT (R261) -/

/-- The matched groups of blocks `k` to `k + n` − 1 of a prompt (R258, R260). -/
def State.matchPrefix (s : State) (p : Nat) (toks : List Nat) (n : Nat) (prev : W64) (parent : Nat) : List Nat :=
  match n with
  | 0 => []
  | n + 1 =>
    let t := (s.desc p).tok
    let h := groupHash prev (toks.take t)
    match s.lookup p h parent (toks.take t) with
    | none => []
    | some g => g :: s.matchPrefix p (toks.drop t) n h g

/-- R261: a matched group gains a reference; a CACHED one becomes FULL. -/
def State.addRef (s : State) (p g : Nat) : State :=
  (s.modPg p g (fun r => { r with refcnt := r.refcnt + 1, st := if r.st = .cached then .full else r.st })).judgeFamine p

/-- A new context (R280). -/
def State.newSeq (s : State) (p q : Nat) (c : Cmd) (map prio bt prompt reused : Nat) (epoch : W16) : Seq × State :=
  let (k, s) := s.draw
  let n := s.backlogCount p q
  ({ Seq.free with st := if n = 0 then .idle else .active, slot := s.freeSlot, prio := BitVec.ofNat 4 prio, btLog2 := bt, epoch := epoch, map := map, promptLen := BitVec.ofNat 32 prompt,
                   reused := BitVec.ofNat 32 reused, admitTick := s.clk.tick, lastUse := BitVec.ofNat 32 (bits s.clk.tick 4 32),
                   lastRing := c.ring, backlogged := n, work := Config.freeWork k }, s)

/-- R261: a sequence is created in a free slot; the prompt's matched blocks are its first entries. Its reused tokens and the state after. -/
def State.admitMap (s : State) (p : Nat) (c : Cmd) : Nat × State :=
  let d := s.desc p
  let n := promptLenOf c
  let toks := (List.range n).map (fun i => s.vaNat p (argsOf c + 4 * i) 4)
  let gs := s.matchPrefix p toks (Nat.min ((n - 1) / d.tok) (2 ^ btLog2Of c)) d.seed noGroup
  let reused := gs.length * d.tok
  let (q, s) := s.newSeq p (sqidOf c) c (mapOf c) (prioOf c) (btLog2Of c) n reused 0
  let q := { q with len := setAll reused (d.layersM1 + 1), table := gs.mapIdx (fun k g => (k, some g)) }
  let s := (gs.foldl (fun s g => s.addRef p g) s).setSeq p (sqidOf c) q
  (reused, (s.modPool p (fun x => { x with hashHits := bumpTo 0xFFFFFFFF x.hashHits gs.length })).meterEvent p 9 1)

/-- R261, R270, R298: an admitted ADMIT joins the backlog where it finds no slot or the pool is short. -/
def State.admitSeq (s : State) (p : Nat) (c : Cmd) : State :=
  if s.linkFull then s
  else if (s.pool p).fstate != .normal then s.defer p c
  else
    match s.obtainSlot p (seqKey p (sqidOf c)) with
    | (false, s) => s.defer p c
    | (true, s) =>
      let (reused, s) := s.admitMap p c
      s.finishNow p c 0 { Compl.plain 0 0 with result := res20 reused }

/-- R261: ADMIT. -/
def execAdmit (c : Cmd) (s : State) : Res := .next (s.ringRow 0x01 c State.admitSeq)

/-! RELEASE (R257) -/

/-- R156, R257: an admitted operation of the sequence is not complete. -/
def State.seqBusy (s : State) (p q : Nat) : Bool :=
  s.hw.ops.any (fun o => o.part = p && sqidOf o.cmd = q && !([0x02, 0x0F].contains (opcodeOf o.cmd)))

/-- The command becomes an operation in flight, with the fabric tiles it has taken (R296, R361). -/
def State.admitOp (s : State) (p : Nat) (c : Cmd) : Op × State :=
  let x := s.stagedFor c
  let (opid, s) := s.takeOpid
  let o := { newOp opid p c s.cfg.active (s.seq p (sqidOf c)).epoch s.clk.tick.toNat s.weir.order with input := (x.map Staged.input).getD [] }
  let at_ := match x with
    | some x => if x.fired then (x.firedFc, x.firedTick) else (s.clk.fc, s.clk.tick)
    | none => (s.clk.fc, s.clk.tick)
  (o, (s.unstage c).startOpAt o at_.1 at_.2)

/-- R257: the sequence's groups go and its SQID is FREE; the RELEASE completes. -/
def State.releaseSeq (s : State) (o : Op) : State := (s.releaseNow o.part (sqidOf o.cmd)).endOp o.opid 0 0 0

/-- R279, R280, R282: RELEASE is admitted; it waits in RELEASING for the sequence's operations. The record of a spilled sequence is read from
Oxbow. -/
def State.admitRelease (s : State) (p : Nat) (c : Cmd) : State :=
  match s.recordAccess p (sqidOf c) with
  | (false, s) => s
  | (true, s) =>
    let (o, s) := s.admitOp p c
    if s.seqBusy p (sqidOf c) then s.modSeq p (sqidOf c) (fun x => { x with st := .releasing }) else s.releaseSeq o

/-- R156, R257: an admitted RELEASE takes effect once every operation of its sequence has completed. -/
def State.releaseReady (s : State) (o : Op) : State :=
  if s.serving && !s.seqBusy o.part (sqidOf o.cmd) then s.releaseSeq o else s

/-- R257: RELEASE. -/
def execRelease (c : Cmd) (s : State) : Res :=
  .next (match s.hw.ops.find? (fun o => o.cmd = c && opcodeOf c = 0x02) with
    | some o => s.releaseReady o
    | none => s.ringRow 0x02 c State.admitRelease)

/-! FORK (R255) -/

/-- R255: the child's map is the parent's, but for its tail. -/
def State.forkSeq (s : State) (p : Nat) (c : Cmd) : State :=
  if s.linkFull then s
  else
    let d := s.desc p
    let x := s.seq p (sqidOf c)
    let top := x.maxLen (d.layersM1 + 1)
    let es := x.table.filter (fun e => e.1 * d.tok < top)
    let gs := es.filterMap (fun e => e.2)
    if gs.any (fun g => 65535 ≤ (s.pg p g).refcnt) || es.any (fun e => 2 ^ btLog2Of c ≤ e.1) then s.finishNow p c x.epoch overflowC
    else
      match s.obtainSlot p (seqKey p (sqidOf c)) with
      | (false, s) => s.defer p c
      | (true, s) =>
        let (q, s) := s.newSeq p (childOf c) c (mapOf c) (prioOf c) (btLog2Of c) 0 0 0
        let s := (gs.foldl (fun s g => s.addRef p g) s).setSeq p (childOf c) { q with len := x.len, table := es }
        (s.meterEvent p 9 1).finishNow p c x.epoch (Compl.plain 0 0)

/-- R255: FORK. -/
def execFork (c : Cmd) (s : State) : Res := .next (s.ringRow 0x03 c State.forkSeq)

/-! Keys and values on their way in (R134, R247, R254) -/

/-- R134, R317: the normalisation table of a partition for query or key heads. -/
def normOf (codes : List W32) (addr dim : Nat) (key : Bool) : NormTab :=
  if addr = 0 then ⟨[], [], pow2 (-20)⟩
  else
    let f (i : Nat) : List Fl := ((codes.drop (i * dim)).take dim).map ofW32
    if key then ⟨f 2, f 3, ofW32 (codes.getD (4 * dim) 0)⟩ else ⟨f 0, f 1, ofW32 (codes.getD (4 * dim) 0)⟩

/-- R134: the epilogue of one head row of partition `p` under a configuration set. -/
def CfgSet.epilogueRow (set : CfgSet) (p pos : Nat) (key : Bool) (xs : List Fl) : List Fl :=
  let norm := if set.normEn p then some (normOf (Tab.get [] set.normTab p) (bits (set.pt p 0x28) 0 52) xs.length key) else none
  let freq := if set.ropeEn p then some ((Tab.get [] set.freqVec p).map ofW32) else none
  headEpilogue norm freq pos xs

/-- Elements `lo` to `lo + n` − 1 of packed bytes in format code `f`. -/
def elemsOf (bs : List Byte) (f lo n : Nat) : List Fl :=
  let fm := (Fmt.ofCode f).getD .w32
  (List.range n).map (fun i => ofCode fm (codeOfBytes bs fm.width (lo + i)))

/-- One token's key and value rows, head by head. -/
structure KvTok where
  ks : List (List Fl)
  vs : List (List Fl)
deriving DecidableEq, Repr

/-- R254: token `t` of a source of keys and values: the key heads, then the value heads, keys after their epilogue. -/
def CfgSet.kvTok (set : CfgSet) (p : Nat) (d : PoolDesc) (bs : List Byte) (f t pos : Nat) : KvTok :=
  let row (h : Nat) : List Fl := elemsOf bs f ((t * 2 * d.hkv + h) * d.dim) d.dim
  ⟨(List.range d.hkv).map (fun h => set.epilogueRow p pos true (row h)), (List.range d.hkv).map (fun h => row (d.hkv + h))⟩

/-- The keys and values of `n` tokens of a command, the first at position `start`. -/
def State.kvToks (s : State) (set : CfgSet) (p : Nat) (bs : List Byte) (f start n : Nat) : List KvTok :=
  (List.range n).map (fun t => set.kvTok p (s.desc p) bs f t (start + t))

/-- R247, R248, R254: one token's slot is written in its page, and its ID in the trailer for layer 0. -/
def State.writeTok (s : State) (training : Bool) (p q l pos tok : Nat) (x : KvTok) : State × Counts :=
  let d := s.desc p
  match (s.seq p q).entry (pos / d.tok) with
  | none => (s, Counts.zero)
  | some g =>
    let va := s.groupVa p (s.pg p g)
    let (page, c) := pageWriteToken training d (pos % d.tok) x.ks x.vs (s.page p g l)
    let s := s.vaWrite p (va + l * d.layerStride) (leBytes d.pageSize (padPage d page))
    (if l = 0 then s.vaWrite p (va + d.trailer + 4 * (pos % d.tok)) (leBytes 4 tok) else s, c)

def State.writeToks (s : State) (training : Bool) (p q l start : Nat) (toks : List Nat) (xs : List KvTok) : State × Counts :=
  (xs.zipIdx).foldl (fun (a : State × Counts) x =>
    let r := a.1.writeTok training p q l (start + x.2) (toks.getD x.2 0) x.1
    (r.1, a.2.add r.2)) (s, Counts.zero)

/-- R70, R459: the first NaN or infinity of an APPEND_KV. -/
def kvNan (xs : List KvTok) : Option (Nat × Nat × Nat) :=
  (xs.zipIdx).findSome? (fun x => (((x.1.ks ++ x.1.vs).zipIdx).findSome? (fun r =>
    (r.1.findIdx? (fun v => !v.isFinite)).map (fun d => (x.2, r.2, d)))))

/-- The outcome of taking the groups that `n` tokens from `start` need (R254, R256). -/
inductive Need where
  | ok (s : State)
  /-- copy-on-write copies are in progress -/
  | copying (s : State)
  /-- a copy that another command of the sequence started is in progress -/
  | wait
  | famine
  | overflow
  | corrupt (k : Nat)
  /-- a page of a group that it writes does not translate (R301, R332), at this address -/
  | killed (va : Nat)
  | held (va : Nat)
deriving DecidableEq, Repr

/-- The groups that are to be copies for operation `opid` (R256): a new group that copies `copyTo`. -/
def State.copiesFor (s : State) (p : Nat) (opid : W32) : List (Nat × PgRec) :=
  (s.pool p).recs.filter (fun r => r.2.st = .opened && r.2.copyTo.isSome && r.2.forCmd = some opid)

/-- A copy-on-write copy for the operation is in progress (R256). -/
def State.copying (s : State) (p : Nat) (opid : W32) : Bool := !(s.copiesFor p opid).isEmpty

/-- R254, R256: the blocks from `k`, `n` of them, get their groups; a group that others name gets a new one to be copied to. -/
def State.takeBlocks (s : State) (p q n k : Nat) (opid : W32) : Need :=
  match n with
  | 0 => if s.copying p opid then .copying s else .ok s
  | n + 1 =>
    match (s.seq p q).entry k with
    | some old =>
      if (s.pg p old).refcnt ≤ 1 then s.takeBlocks p q n (k + 1) opid
      else
        match s.newGroup p q with
        | (.got g, s) => (s.modPg p g (fun r => { r with copyTo := some old, forCmd := some opid })).takeBlocks p q n (k + 1) opid
        | (.noId, _) => .overflow
        | (.famine, _) => .famine
    | none =>
      match s.newGroup p q with
      | (.got g, s) => (s.modSeq p q (fun x => { x with table := Tab.set none x.table k (some g) })).takeBlocks p q n (k + 1) opid
      | (.noId, _) => .overflow
      | (.famine, _) => .famine

/-- R256: a command of the sequence waits for a copy of one of the blocks `ks`. -/
def State.copyBusy (s : State) (p q : Nat) (ks : List Nat) : Bool :=
  s.hw.ops.any (fun o => o.part = p && sqidOf o.cmd = q
    && (s.copiesFor p o.opid).any (fun r => ks.any (fun k => (s.seq p q).entry k = r.2.copyTo)))

/-- R332: the pages of layer `l` in the blocks `ks`, and the frames of copies for `opid`, that a write uses. -/
def State.blockOpds (s : State) (p q l : Nat) (ks : List Nat) (opid : W32) : List Opd :=
  let d := s.desc p
  (ks.filterMap (s.seq p q).entry).map (fun g => (⟨p, .compute, true, s.groupVa p (s.pg p g) + l * d.layerStride, d.pageSize⟩ : Opd))
    ++ (s.copiesFor p opid).map (fun r => ⟨p, .compute, true, s.groupVa p r.2, d.trailer + 1024⟩)

/-- R301, R332: the groups are taken where every page that the write uses translates. -/
def State.judgeNeed (s : State) (p q l : Nat) (ks : List Nat) (opid : W32) (r : Need) : Need :=
  let vs := (s.blockOpds p q l ks opid).map s.judgeOpd
  match vs.find? (fun v => v.1 = .hard), vs.find? (fun v => v.1 = .held) with
  | some v, _ => .killed v.2
  | none, some v => .held v.2
  | none, none => r

/-- R254, R256, R267: the groups for `n` tokens at layer `l` from `start`; groups that others name are first copied for operation `opid`. -/
def State.needBlocks (s : State) (p q l start n : Nat) (opid : W32) : Need :=
  let d := s.desc p
  let k0 := start / d.tok
  let k1 := (start + n - 1) / d.tok
  let ks := (List.range (k1 - k0 + 1)).map (· + k0)
  let held (k : Nat) : Option Nat := (s.seq p q).entry k
  if 2 ^ (s.seq p q).btLog2 ≤ k1 then .overflow
  else
    match ks.find? (fun k => (held k).any (fun g => (s.pg p g).st = .corrupt)) with
    | some k => .corrupt k
    | none =>
      if s.copyBusy p q ks then .wait
      else
        match s.takeBlocks p q (k1 - k0 + 1) k0 opid with
        | .ok s => s.judgeNeed p q l ks opid (.ok s)
        | .copying s => s.judgeNeed p q l ks opid (.copying s)
        | r => r

/-! APPEND_KV (R254, R271, R273, R276) -/

/-- Where an APPEND_KV starts to write. -/
def State.appendStart (s : State) (p : Nat) (c : Cmd) : Nat :=
  let x := s.seq p (sqidOf c)
  x.lenOf (layerOf c) + (if specBit c then x.tlenOf (layerOf c) else 0)

/-- R276: a discarded slot that the write would overwrite may still be read. -/
def State.slotRead (s : State) (p : Nat) (c : Cmd) (start : Nat) : Bool :=
  s.hw.ops.any (fun o => o.part = p && sqidOf o.cmd = sqidOf c && layerOf o.cmd = layerOf c && isAttn o.cmd && start < o.keys)

/-- R234: the token IDs of an APPEND_KV. -/
def State.appendIds (s : State) (p : Nat) (c : Cmd) (b : OpBlock) : List Nat :=
  tokid0Of c :: (List.range (countOf c - 1)).map (fun i => s.vaNat p (entryAddr b 10 + 4 * i) 4)

/-- R254: the operation writes its tokens, raises `LEN` or `TLEN`, and completes. -/
def State.appendWrite (s : State) (opid : W32) : State :=
  match s.op opid with
  | none => s
  | some o =>
    let c := o.cmd
    let p := o.part
    let q := sqidOf c
    let l := layerOf c
    let n := countOf c
    let d := s.desc p
    let b := (s.blockOf p c).getD []
    let f := if fiEn c then feedFmt else entryFmt b 11
    let bs := if fiEn c then o.input else s.vaRead p (entryAddr b 11) (opdBytes (n * 2 * d.hkv * d.dim) f)
    let start := s.appendStart p c
    let xs := s.kvToks o.set p bs f start n
    let (s, cnt) := s.writeToks o.training p q l start (s.appendIds p c b) xs
    let s := s.modSeq p q (fun x => if specBit c then { x with tlen := Tab.set 0 x.tlen l (x.tlenOf l + n) }
      else { x with len := Tab.set 0 x.len l (x.lenOf l + n) })
    let s := s.refill p q
    let s := s.setOp { o with sat := o.sat + cnt.sat, flush := o.flush + cnt.flush, naninf := kvNan xs }
    let s := if specBit c && l = d.layersM1 then s.meterEvent p 3 n else s
    (s.endOp opid 0 0 0).famineAct p

/-- R360: the operation has received all its fabric tiles. -/
def State.inputFull (_s : State) (o : Op) : Bool := inputBytes (o.set.pool o.part) o.cmd ≤ o.input.length

/-- R254, R271, R273: an admitted APPEND_KV. -/
def State.appendKv (s : State) (p : Nat) (c : Cmd) : State :=
  let q := sqidOf c
  let x := s.seq p q
  let d := s.desc p
  let start := s.appendStart p c
  if !specBit c && x.hasTail (d.layersM1 + 1) then s.finishNow p c x.epoch (Compl.plain 0x22 0x05)
  else if specBit c && x.epoch.toNat != specEpochOf c then s.finishNow p c x.epoch (Compl.plain 0x22 0x04)
  else if specBit c && 64 < x.tlenOf (layerOf c) + countOf c then s.finishNow p c x.epoch overflowC
  else if s.slotRead p c start then s
  else
    match s.needBlocks p q (layerOf c) start (countOf c) s.hw.nextOpid with
    | .wait => s
    | .killed va => s.killCmd p c va
    | .held va => s.modStaged c (fun x => { x with st := .heldPage, va := va })
    | .overflow => s.finishNow p c x.epoch overflowC
    | .famine => ((s.pause p q).finishNow p c x.epoch (famineC (s.avail p))).famineAct p
    | .corrupt k => (s.corruptHit p q k).finishNow p c x.epoch { Compl.plain 0x50 0x10 with result := res20 (k * d.tok) }
    | .ok s1 =>
      let (o, s1) := s1.admitOp p c
      if s1.inputFull o then s1.appendWrite o.opid else s1
    | .copying s1 => (s1.admitOp p c).2

/-- R254: APPEND_KV. -/
def execAppendKv (c : Cmd) (s : State) : Res := .next (s.ringRow 0x04 c State.appendKv)

/-- R254, R256: the copy is made with FILL the slots below the writer's N, the entry points at it, and the old group loses a reference. -/
def State.cowDone (s : State) (p q k old g : Nat) : State :=
  let d := s.desc p
  let bs := s.vaRead p (s.groupVa p (s.pg p old)) (d.trailer + 1024)
  let s := s.vaWrite p (s.groupVa p (s.pg p g)) bs
  let s := s.modPg p g (fun r => { r with copyTo := none, forCmd := none, fill := Nat.min d.tok ((s.seq p q).n (d.layersM1 + 1) - k * d.tok) })
  let s := s.modSeq p q (fun x => { x with table := Tab.set none x.table k (some g) })
  (s.dropRef p old).modPool p (fun x => { x with cow := bumpTo 0xFFFF x.cow })

/-- R253: entries of blocks at or beyond the largest LEN + TLEN are not valid; those that a write took and did not use go. -/
def State.trimEntries (s : State) (p q : Nat) : State :=
  let d := s.desc p
  let x := s.seq p q
  s.clearFrom p q (ceilDiv (maxOf ((List.range (d.layersM1 + 1)).map (fun l => x.lenOf l + x.tlenOf l))) d.tok)

/-- R415: the copy to group `g` met an error: the command ends, and the new group goes. -/
def State.cowFailed (s : State) (p g k : Nat) (o : Op) (old : Nat) (rd : Bool) (stat : BitVec 2) : State :=
  let va := s.groupVa p (s.pg p (if rd then old else g))
  let s := s.note 0x0A (some p) false 2 0x80 o.opid (errCode stat + (if rd then 0 else 4)) va
  let s := (s.modPg p g (fun r => { r with copyTo := none, forCmd := none })).dropRef p g
  if rd then
    let s := (s.corrupt p old (k * (s.desc p).tok) true).corruptHit p (sqidOf o.cmd) k
    s.endOp o.opid 0x50 0x10 (res20 (k * (s.desc p).tok))
  else (s.endOp o.opid 0x50 0x13 (resVa va)).trimEntries p (sqidOf o.cmd)

/-- R256: the copy to group `g` finishes, and the waiting write proceeds. -/
def execCowCopyDone (p : Fin 16) (g : Nat) (r : CopyResult) (s : State) : Res :=
  .next (
    let x := s.pg p.val g
    match x.copyTo, x.forCmd.bind s.op, s.fast && x.st = .opened with
    | some old, some o, true =>
      let k := (((s.seq p.val (sqidOf o.cmd)).table.find? (fun e => e.2 = some old)).map Prod.fst).getD 0
      match r with
      | .ok =>
        let s := s.cowDone p.val (sqidOf o.cmd) k old g
        if opcodeOf o.cmd = 0x04 && s.inputFull o && !s.copying p.val o.opid then s.appendWrite o.opid else s
      | .readError e => s.cowFailed p.val g k o old true e
      | .writeError e => s.cowFailed p.val g k o old false e
    | _, _, _ => s)

/-! The Sluice (R274, R275) -/

/-- R274. -/
def State.commit (s : State) (p : Nat) (c : Cmd) : State :=
  let q := sqidOf c
  let x := s.seq p q
  let n := ncommitOf c
  if s.linkFull then s
  else if x.epoch.toNat != specEpochOf c then s.finishNow p c x.epoch (Compl.plain 0x22 0x04)
  else if x.minTlen ((s.desc p).layersM1 + 1) < n then s.finishNow p c x.epoch (Compl.plain 0x22 0x0E)
  else ((s.endTail p q n).meterEvent p 4 n).finishNow p c (x.epoch + 1) (Compl.plain 0 0)

/-- R274: SPEC_COMMIT. -/
def execSpecCommit (c : Cmd) (s : State) : Res := .next (s.ringRow 0x08 c State.commit)

/-- R275. -/
def State.abort (s : State) (p : Nat) (c : Cmd) : State :=
  let q := sqidOf c
  let x := s.seq p q
  (s.endTail p q 0).finishNow p c (x.epoch + 1) (Compl.plain 0 0)

/-- R275: SPEC_ABORT. -/
def execSpecAbort (c : Cmd) (s : State) : Res := .next (s.ringRow 0x09 c State.abort)

end Sys2Proof.Machine
end

