-- ==== Sys2Proof/Machine/Copies.lean ====
section
/-! DEFINITION. Copies of page groups (R259 to R268, R415, R440): EVICT, RESTORE, EXPORT, IMPORT, restores on demand, the CRC of a full group, and
scrubbing. -/

namespace Sys2Proof.Machine

/-! What an operation covers (R156, R265, R267) -/

/-- The groups of the blocks that `keys` keys cover. -/
def Seq.groups (q : Seq) (tok keys : Nat) : List Nat := (List.range (ceilDiv keys tok)).filterMap q.entry

/-- R251, R265: the restore of a COLD group starts, where a frame is found. -/
def State.startRestore (s : State) (p q g : Nat) (forCmd : Option W32) : Bool × State :=
  if !s.mayFrame p q then (false, s)
  else
    match s.allocFrame p with
    | (none, _) => (false, s)
    | (some f, s1) =>
      let d := s.desc p
      (true, ((s1.modPg p g (fun r => { r with st := .restoring, copyTo := some f, forCmd := forCmd })).askCopy p (.groupCopy g)
        (d.slotVa (s.pg p g).loc) (d.frameVa f) d.groupBytes).judgeFamine p)

/-- The restores of COLD groups on demand; false where one finds no frame. -/
def State.restoreAll (s : State) (p q : Nat) (gs : List Nat) : Bool × State :=
  gs.foldl (fun (a : Bool × State) g => if !a.1 then a else if (a.2.pg p g).st = .cold then a.2.startRestore p q g none else a) (true, s)

/-- What the groups that a command needs allow. -/
inductive Cover where
  | ready
  | corrupt (k : Nat)
  | famine
  | wait (s : State)
deriving DecidableEq, Repr

/-- R265, R267: the groups of the first `blocks` blocks of sequence (p, q). -/
def State.cover (s : State) (p q : Nat) (ks : List Nat) : Cover :=
  let held (k : Nat) : Option Nat := (s.seq p q).entry k
  match ks.find? (fun k => (held k).any (fun g => (s.pg p g).st = .corrupt)) with
  | some k => .corrupt k
  | none =>
    let gs := ks.filterMap held
    if gs.any (fun g => (s.pg p g).st = .cold) then
      (match s.restoreAll p q gs with
        | (true, s) => .wait s
        | (false, _) => .famine)
    else if gs.any (fun g => (s.pg p g).st = .restoring) then .wait s
    else .ready

/-- The staged command waits for cold groups. -/
def State.waitCold (s : State) (c : Cmd) : State := s.modStaged c (fun x => { x with st := .restoring })

/-- R265, R267: admission goes on with `go` once every group of the blocks `ks` is resident. -/
def State.covered (s : State) (p : Nat) (c : Cmd) (ks : List Nat) (go : State → State) : State :=
  let q := sqidOf c
  let x := s.seq p q
  match s.cover p q ks with
  | .ready => go s
  | .wait s => s.waitCold c
  | .famine => ((s.pause p q).finishNow p c x.epoch (famineC (s.avail p))).famineAct p
  | .corrupt k => (s.corruptHit p q k).finishNow p c x.epoch { Compl.plain 0x50 0x10 with result := res20 (k * (s.desc p).tok) }

/-! Copy jobs -/

/-- An EVICT or RESTORE whose last copy has ended completes (R263, R265). -/
def State.settleJobs (s : State) (p : Nat) : State :=
  ((s.pool p).copyJobs.filter (fun j => j.left = 0)).foldl (fun s j =>
    (s.modPool p (fun x => { x with copyJobs := x.copyJobs.filter (fun y => y.opid != j.opid) })).endOp j.opid 0 0 (res2 j.done j.other)) s

/-- A copy of group `g` has ended for the command that started it. -/
def State.copied (s : State) (p : Nat) (job : Option W32) (done other : Nat) : State :=
  match job with
  | some o => (s.modPool p (fun x => x.jobDone o done other)).settleJobs p
  | none => s

/-- Bytes copied within the space of partition `p`. -/
def State.copyVa (s : State) (p src dst n : Nat) : State := s.vaWrite p dst (s.vaRead p src n)

/-- R267: the position from which a sequence that names the group must run again; 0 where none names it. -/
def State.posOf (s : State) (p g : Nat) : Nat :=
  ((s.hw.seqs.filter (fun e => e.1 / 16384 = p)).findSome? (fun e =>
    (e.2.table.find? (fun x => x.2 = some g)).map (fun x => x.1 * (s.desc p).tok))).getD 0

/-- R357, R415: an error response of a copy. -/
def State.copyError (s : State) (p : Nat) (opid : W32) (stat : BitVec 2) (wr : Bool) (va : Nat) : State :=
  s.note 0x0A (some p) false 2 0x80 opid (errCode stat + (if wr then 4 else 0)) va

/-- Entries of a range of block-table entries, ascending, that name a group below `BT_CAP` (R263). -/
def Seq.range (q : Seq) (first n : Nat) : List (Nat × Nat) :=
  (q.table.filter (fun e => decide (first ≤ e.1 ∧ e.1 < first + n) && decide (e.1 < q.btCap))).filterMap (fun e => e.2.map (fun g => (e.1, g)))

/-! EVICT (R263, R264) -/

/-- R263: each group of the range is taken or skipped in turn; the number skipped. -/
def State.evictAll (s : State) (p : Nat) (opid : W32) (gs : List Nat) : Nat × State :=
  gs.foldl (fun (a : Nat × State) g =>
    if (a.2.pg p g).evictable then
      (match a.2.startEvict p g (some opid) with
        | (true, s) => (a.1, s)
        | (false, s) => (a.1 + 1, s))
    else (a.1 + 1, a.2)) (0, s)

/-- R263: an admitted EVICT. -/
def State.admitEvict (s : State) (p : Nat) (c : Cmd) : State :=
  let gs := ((s.seq p (sqidOf c)).range (firstOf c) (nentOf c)).map Prod.snd
  let (o, s) := s.admitOp p c
  let (skipped, s) := s.evictAll p o.opid gs
  (s.modPool p (fun x => { x with copyJobs := x.copyJobs ++ [⟨o.opid, c, gs.length - skipped, 0, skipped⟩] })).settleJobs p

/-- R263: EVICT. -/
def execEvict (c : Cmd) (s : State) : Res := .next (s.ringRow 0x0A c State.admitEvict)

/-- R263, R257: the group is COLD and its frame free. -/
def State.evicted (s : State) (p g slot : Nat) : State :=
  let d := s.desc p
  let r := s.pg p g
  let s := s.copyVa p (d.frameVa r.loc) (d.slotVa slot) d.groupBytes
  let s := (s.setPg p g { r with st := .cold, loc := slot, copyTo := none, forCmd := none }).modPool p (fun x => { x with evicted := bumpTo 0xFFFFFF x.evicted })
  let s := s.meterEvent p 8 d.groupBytes
  ((if r.refcnt = 0 then s.unreferenced p g else s).judgeFamine p).copied p r.forCmd 1 0

/-- R263: the copy of an EVICTING group ends. -/
def execEvictCopyDone (p : Fin 16) (g : Nat) (r : CopyResult) (s : State) : Res :=
  .next (
    let x := s.pg p.val g
    let d := s.desc p.val
    match x.copyTo, s.fast && x.st = .evicting && !s.copyOut p.val g with
    | some slot, true =>
      (match r with
        | .ok => (s.evicted p.val g slot).famineAct p.val
        | .readError e =>
          let s := (s.copyError p.val (x.forCmd.getD 0) e false (d.frameVa x.loc)).corrupt p.val g (s.posOf p.val g) true
          ((if x.refcnt = 0 then s.unreferenced p.val g else s).judgeFamine p.val).copied p.val x.forCmd 0 1
        | .writeError e =>
          let s := (s.copyError p.val (x.forCmd.getD 0) e true (d.slotVa slot)).setPg p.val g { x with st := .full, copyTo := none, forCmd := none }
          ((if x.refcnt = 0 then s.unreferenced p.val g else s).judgeFamine p.val).copied p.val x.forCmd 0 1)
    | _, _ => s)

/-! RESTORE (R265) -/

/-- R265: restores start in order until one finds no frame; how many started, and whether one did not. -/
def State.restoreRange (s : State) (p q : Nat) (opid : W32) (gs : List Nat) : Nat × Bool × State :=
  gs.foldl (fun (a : Nat × Bool × State) g =>
    if a.2.1 || (a.2.2.pg p g).st != .cold then a
    else
      match a.2.2.startRestore p q g (some opid) with
      | (true, s) => (a.1 + 1, false, s)
      | (false, s) => (a.1, true, s)) (0, false, s)

/-- R265: an admitted RESTORE; a group without a frame makes it PAUSED_FAMINE once the copies already started have ended. -/
def State.admitRestore (s : State) (p : Nat) (c : Cmd) : State :=
  let q := sqidOf c
  let gs := ((s.seq p q).range (firstOf c) (nentOf c)).map Prod.snd
  let (o, s) := s.admitOp p c
  let (n, short, s) := s.restoreRange p q o.opid gs
  let s := if short then (s.pause p q).modOp o.opid (fun o => o.fault 0x11 0 (res20 (s.avail p % 2 ^ 24))) else s
  ((s.modPool p (fun x => { x with copyJobs := x.copyJobs ++ [⟨o.opid, c, n, 0, 0⟩] })).settleJobs p).famineAct p

/-- R265: RESTORE. -/
def execRestore (c : Cmd) (s : State) : Res := .next (s.ringRow 0x0B c State.admitRestore)

/-- The blocks that the key range covers. -/
def State.keyBlocks (s : State) (p : Nat) (c : Cmd) (keys : Nat) : List Nat := if denseUse c then [] else List.range (ceilDiv keys (s.desc p).tok)

/-- R268: the entries that an EXPORT writes: of its range, those that start below N. -/
def State.exportRange (s : State) (p : Nat) (c : Cmd) : List (Nat × Nat) :=
  let d := s.desc p
  let x := s.seq p (sqidOf c)
  (x.range (firstOf c) (nentOf c)).filter (fun e => decide (e.1 * d.tok < x.n (d.layersM1 + 1)))

/-- R265, R267: the blocks that a command's key range or entry range covers. -/
def State.coverBlocks (s : State) (p : Nat) (c : Cmd) : List Nat :=
  if opcodeOf c = 0x0C then (s.exportRange p c).map Prod.fst else s.keyBlocks p c (s.keyCount p c)

/-- R265: commands that waited for cold groups of partition `p` look again. -/
def State.rouse (s : State) (p : Nat) : State :=
  s.modHw (fun h => { h with staged := h.staged.map (fun x => if x.part = p && x.st = .restoring then { x with st := .ready } else x) })

/-- R265: a write error into the frame of group `g` ends the commands that wait for it: those whose ranges cover it. -/
def State.restoreFailed (s : State) (p g va : Nat) : State :=
  let names (c : Cmd) : Bool := (s.coverBlocks p c).any (fun k => (s.seq p (sqidOf c)).entry k = some g)
  let cs := (s.hw.staged.filter (fun x => x.part = p && x.st = .restoring && names x.cmd)).map Staged.cmd
  let os := (s.hw.ops.filter (fun o => o.part = p && o.st = .restoring && names o.cmd)).map (fun o => o.opid)
  let s := cs.foldl (fun s c => s.finishNow p c (s.seq p (sqidOf c)).epoch { Compl.plain 0x50 0x13 with result := resVa va }) s
  os.foldl (fun s i => s.endOp i 0x50 0x13 (resVa va)) s

/-- R265, R257: the group is back in frame `f`; its CRC is checked. -/
def State.restored (s : State) (p g f : Nat) : State :=
  let d := s.desc p
  let r := s.pg p g
  let s := (s.copyVa p (d.slotVa r.loc) (d.frameVa f) d.groupBytes).meterEvent p 8 d.groupBytes
  let ok := s.groupCrc p (d.frameVa f) = r.crc
  let back := { r with st := .full, loc := f, copyTo := none, forCmd := none }
  let s := s.setPg p g back
  let s := if ok then s.modPool p (fun x => { x with restored := bumpTo 0xFFFFFF x.restored }) else s.corrupt p g (s.posOf p g) true
  let s := (if r.refcnt = 0 then s.unreferenced p g else s).judgeFamine p
  (s.copied p r.forCmd (if ok then 1 else 0) (if ok then 0 else 1)).rouse p

/-- R265: the copy of a RESTORING group ends. -/
def execRestoreCopyDone (p : Fin 16) (g : Nat) (r : CopyResult) (s : State) : Res :=
  .next (
    let x := s.pg p.val g
    let d := s.desc p.val
    match x.copyTo, s.fast && x.st = .restoring && !s.copyOut p.val g with
    | some f, true =>
      (match r with
        | .ok => s.restored p.val g f
        | .readError e =>
          let s := (s.copyError p.val (x.forCmd.getD 0) e false (d.slotVa x.loc)).setPg p.val g { x with st := .full, loc := f, copyTo := none, forCmd := none }
          let s := s.corrupt p.val g (s.posOf p.val g) true
          (((if x.refcnt = 0 then s.unreferenced p.val g else s).judgeFamine p.val).copied p.val x.forCmd 0 1).rouse p.val
        | .writeError e =>
          let s := (s.copyError p.val (x.forCmd.getD 0) e true (d.frameVa f)).setPg p.val g { x with st := .cold, copyTo := none, forCmd := none }
          ((((if x.refcnt = 0 then s.unreferenced p.val g else s).judgeFamine p.val).restoreFailed p.val g (d.frameVa f)).copied p.val x.forCmd 0 0).rouse p.val)
    | _, _ => s)

/-! The CRC of a full group (R259) and scrubbing (R440) -/

/-- R259: the CRC read of a full group finishes. -/
def execCrcComputeDone (p : Fin 16) (g : Nat) (s : State) : Res :=
  .next (match (s.pool p.val).crcJobs.find? (fun j => j.g = g), s.fast with
    | some j, true =>
      let s := s.modPool p.val (fun x => { x with crcJobs := x.crcJobs.erase j })
      let r := s.pg p.val g
      if r.st != .full then s
      else
        let crc := s.groupCrc p.val (s.groupVa p.val r)
        ((s.setPg p.val g { r with crc := crc, crcOk := true }).writeTrailer p.val g).hashIn p.val g
    | _, _ => s)

/-- R440: a scrub read of group `g` finishes. -/
def execScrubGroup (p : Fin 16) (g : Nat) (s : State) : Res :=
  .next (
    let x := s.pool p.val
    let r := s.pg p.val g
    if !s.fast || !x.scrubEn || (s.desc p.val).pgIds ≤ g then s
    else
      let s := s.modPool p.val (fun x => { x with scrubPos := (g + 1) % (s.desc p.val).pgIds })
      if (r.st = .full || r.st = .cached) && r.crcOk && r.pins = 0 && s.groupCrc p.val (s.groupVa p.val r) != r.crc then
        (s.corrupt p.val g (s.posOf p.val g) true).judgeFamine p.val
      else s)

/-! EXPORT and IMPORT (R268, R310) -/

/-- R310: a progress word. -/
def progressWord (kind permille unit pos : Nat) : W64 := BitVec.ofNat 64 (kind * 2 ^ 56 + permille % 1024 * 2 ^ 46 + unit * 2 ^ 44 + pos % 2 ^ 32)

/-- R310: operation `o` reports its progress; the context record shows the word of the sequence's oldest long operation. -/
def State.progressOf (s : State) (o : Op) (permille unit pos : Nat) : State :=
  (s.setOp { o with progress := progressWord (opcodeOf o.cmd) permille unit pos }).showProgress o.part (sqidOf o.cmd)

/-- R268, R307: the copy of group `o.pos` of an EXPORT or IMPORT is requested. -/
def State.askGroup (s : State) (o : Op) : State :=
  let p := o.part
  let d := s.desc p
  let far := argsOf o.cmd + o.pos * d.groupBytes
  if opcodeOf o.cmd = 0x0C then
    match o.pins[o.pos]? with
    | some g => s.askCopy p (.opCopy o.opid) (s.groupVa p (s.pg p g)) far d.groupBytes
    | none => s
  else
    match (s.seq p (sqidOf o.cmd)).entry o.pos with
    | some g => s.askCopy p (.opCopy o.opid) far (s.groupVa p (s.pg p g)) d.groupBytes
    | none => s

/-- R268: operation `o`, an EXPORT, pins its groups; they are copied one by one. -/
def State.beginExport (s : State) (o : Op) : State :=
  let gs := (s.exportRange o.part o.cmd).map Prod.snd
  let s := (gs.foldl (fun s g => s.pin o.part g) s).settleJobs o.part
  let o := { o with pins := gs, begun := true, st := .running }
  let s := s.progressOf o 0 2 (firstOf o.cmd)
  if gs.isEmpty then s.endOp o.opid 0 0 0 else s.askGroup o

/-- R268: an admitted EXPORT. -/
def State.admitExport (s : State) (p : Nat) (c : Cmd) : State :=
  s.covered p c ((s.exportRange p c).map Prod.fst) (fun s =>
    let (o, s) := s.admitOp p c
    s.beginExport o)

/-- R268: EXPORT. -/
def execExportGroups (c : Cmd) (s : State) : Res := .next (s.ringRow 0x0C c State.admitExport)

/-- Frames for `n` groups of sequence (p, q). -/
def State.importGroups (s : State) (p q n k : Nat) : Alloc × State :=
  match n with
  | 0 => (.got 0, s)
  | n + 1 =>
    match s.newGroup p q with
    | (.got g, s) => (s.modSeq p q (fun x => { x with table := Tab.set none x.table k (some g) })).importGroups p q n (k + 1)
    | r => r

/-- R268: the sequence of an IMPORT is created in a free slot, with a frame for every group. -/
def State.importSeq (s : State) (p : Nat) (c : Cmd) : Alloc × State :=
  let (x, s) := s.newSeq p (sqidOf c) c (mapOf c) (prioOf c) (btLog2Of c) 0 0 0
  (s.setSeq p (sqidOf c) x).importGroups p (sqidOf c) (ngrpOf c) 0

/-- R268: operation `o`, an IMPORT whose sequence stands, copies its groups one by one. -/
def State.beginImport (s : State) (o : Op) : State :=
  let o := { o with begun := true, st := .running }
  let s := (s.progressOf o 0 2 0).famineAct o.part
  if ngrpOf o.cmd = 0 then (s.meterEvent o.part 9 1).endOp o.opid 0 0 0 else s.askGroup o

/-- R268: an admitted IMPORT creates the sequence with a frame for every group, or has no effect. -/
def State.admitImport (s : State) (p : Nat) (c : Cmd) : State :=
  if s.linkFull then s
  else if 2 ^ btLog2Of c < ngrpOf c then s.finishNow p c 0 overflowC
  else
    match s.obtainSlot p (seqKey p (sqidOf c)) with
    | (false, s) => s.defer p c
    | (true, s0) =>
      match s0.importSeq p c with
      | (.noId, _) => s.finishNow p c 0 overflowC
      | (.famine, _) => (s.finishNow p c 0 (famineC (s.avail p))).famineAct p
      | (.got _, s) =>
        let (o, s) := s.admitOp p c
        s.beginImport o

/-- R268: IMPORT. -/
def execImportGroups (c : Cmd) (s : State) : Res := .next (s.ringRow 0x0D c State.admitImport)

/-- R310: one more group is copied. -/
def State.groupDone (s : State) (o : Op) (total first : Nat) : State :=
  let n := o.pos + 1
  s.progressOf { o with pos := n } (1000 * n / total) 2 (first + n)

/-- R268: the next group of an EXPORT is copied with its CRC. -/
def State.exportNext (s : State) (o : Op) (r : CopyResult) : State :=
  let p := o.part
  let d := s.desc p
  let g := o.pins.getD o.pos noGroup
  let src := s.groupVa p (s.pg p g)
  let dst := argsOf o.cmd + o.pos * d.groupBytes
  let k := (((s.seq p (sqidOf o.cmd)).table.find? (fun e => e.2 = some g)).map Prod.fst).getD 0
  match r with
  | .ok =>
    let fill := (s.seq p (sqidOf o.cmd)).n (d.layersM1 + 1) - k * d.tok
    let s := s.copyVa p src dst d.groupBytes
    let s := if fill < d.tok then s.hideSlots p dst fill else s
    let s := s.vaWrite p (dst + d.trailer + 512) (leBytes 4 (s.groupCrc p dst).toNat)
    let s := s.groupDone o o.pins.length (firstOf o.cmd)
    if o.pos + 1 = o.pins.length then s.endOp o.opid 0 0 (res20 o.pins.length) else s.askGroup { o with pos := o.pos + 1 }
  | .readError e =>
    let s := (s.copyError p o.opid e false src).corrupt p g (k * d.tok) true
    (s.corruptHit p (sqidOf o.cmd) k).endOp o.opid 0x50 0x10 (res20 (k * d.tok))
  | .writeError e => (s.copyError p o.opid e true dst).endOp o.opid 0x50 0x13 (resVa dst)

/-- R268: the last group of an IMPORT is in place. How many tokens the last group holds the spec does not say: a free value from 1 to T. -/
def State.importDone (s : State) (o : Op) : State :=
  let p := o.part
  let q := sqidOf o.cmd
  let d := s.desc p
  let n := ngrpOf o.cmd
  let (k, s) := s.draw
  let len := (n - 1) * d.tok + 1 + Config.freePick k % d.tok
  let s := (s.modSeq p q (fun x => { x with len := setAll len (d.layersM1 + 1) })).refill p q
  (s.meterEvent p 9 1).endOp o.opid 0 0 (res20 n)

/-- R267, R268: the next group of an IMPORT is copied in and its CRC checked. -/
def State.importNext (s : State) (o : Op) (r : CopyResult) : State :=
  let p := o.part
  let q := sqidOf o.cmd
  let d := s.desc p
  let g := ((s.seq p q).entry o.pos).getD noGroup
  let src := argsOf o.cmd + o.pos * d.groupBytes
  let dst := s.groupVa p (s.pg p g)
  let drop (s : State) (va : Nat) : State := (s.endOp o.opid 0x50 0x13 (resVa va)).releaseNow p q
  match r with
  | .ok =>
    let s := s.copyVa p src dst d.groupBytes
    let crc := BitVec.ofNat 32 (s.vaNat p (src + d.trailer + 512) 4)
    let s := if s.groupCrc p dst = crc then s else s.corrupt p g (o.pos * d.tok) true
    let s := s.groupDone o (ngrpOf o.cmd) 0
    if o.pos + 1 = ngrpOf o.cmd then s.importDone o else s.askGroup { o with pos := o.pos + 1 }
  | .readError e => drop (s.copyError p o.opid e false src) src
  | .writeError e => drop (s.copyError p o.opid e true dst) dst

/-- R333: the page of the other operand that the next copy uses; held pages make it wait, a hard one is a DMA fault (R337). -/
def State.judgeCopy (s : State) (o : Op) : Verdict × Nat :=
  let n := (s.desc o.part).groupBytes
  s.judgeOpd ⟨o.part, .other, opcodeOf o.cmd = 0x0C, argsOf o.cmd + o.pos * n, n⟩

/-- R337: an EXPORT or IMPORT that halted before it was admitted, once it has resumed, is admitted where its groups, its slot and its frames
are there. -/
def State.beginCopy (s : State) (o : Op) : State :=
  let p := o.part
  let c := o.cmd
  match s.seqCheck p c with
  | some x => s.endOp o.opid x.status x.detail x.result
  | none =>
    if opcodeOf c = 0x0C then
      match s.cover p (sqidOf c) (s.coverBlocks p c) with
      | .ready => s.beginExport o
      | .wait s => s.setOp { o with st := .restoring }
      | .famine => ((s.pause p (sqidOf c)).endOp o.opid 0x11 0 (res20 (s.avail p % 2 ^ 24))).famineAct p
      | .corrupt k => (s.corruptHit p (sqidOf c) k).endOp o.opid 0x50 0x10 (res20 (k * (s.desc p).tok))
    else if s.linkFull then s
    else if 2 ^ btLog2Of c < ngrpOf c then s.endOp o.opid 0x13 0xFF 0
    else
      match s.obtainSlot p (seqKey p (sqidOf c)) with
      | (false, s) => s
      | (true, s0) =>
        match s0.importSeq p c with
        | (.noId, _) => s.endOp o.opid 0x13 0xFF 0
        | (.famine, _) => (s.endOp o.opid 0x11 0 (res20 (s.avail p % 2 ^ 24))).famineAct p
        | (.got _, s) => (s.countIn o).beginImport o

/-- R268: a group copy of an EXPORT or IMPORT finishes. -/
def execGroupCopyDone (opid : W32) (r : CopyResult) (s : State) : Res :=
  .next (match s.op opid with
    | none => s
    | some o =>
      let op := opcodeOf o.cmd
      if !s.fast || o.st = .held || !o.hold.isEmpty || s.linkFull || !(op = 0x0C || op = 0x0D) then s
      else if !o.begun then s.beginCopy o
      else if s.flying (fun r => r.use = .opCopy opid) then s
      else
        match s.judgeCopy o with
        | (.held, _) => s
        | (.hard, va) => s.haltOp opid va
        | (.ok, _) => if op = 0x0C then s.exportNext o r else s.importNext o r)

end Sys2Proof.Machine
end

