-- ==== Sys2Proof/Machine/Attend.lean ====
section
/-! DEFINITION. Attention work (R131 to R162, R306, R361): ATTEND, ATTEND_BWD, PREFILL and its chunks, firing, segments, partial tiles,
merges, and outputs in host memory or on an out-port. -/

namespace Sys2Proof.Machine

/-! Operands -/

/-- Row `i` of a tensor of rows of `d` elements in format code `f` at `addr`. -/
def State.denseRow (s : State) (p addr f d i : Nat) : List Fl :=
  let w := ((Fmt.ofCode f).getD .w32).width
  elemsOf (s.vaRead p (addr + i * d * w / 8) (d * w / 8)) f 0 d

def intFmt (f : Nat) : Bool := ((Fmt.ofCode f).getD .w32).isInt

/-- The pool descriptor of an operation, in the set it was admitted under (R322). -/
def Op.desc (o : Op) : PoolDesc := o.set.pool o.part

/-- An operation as it stands. -/
def State.live (s : State) (o : Op) : Op := (s.op o.opid).getD o

/-- R134: a query row as it comes from the fabric: epilogue, then conversion to the operand format. -/
def Op.ingestQuery (o : Op) (pos : Nat) (xs : List Fl) : List Conv :=
  (o.set.epilogueRow o.part pos false xs).map (convert o.training ((Fmt.ofCode (fedFmt o.cmd)).getD .w32))

/-- R132, R134: the query rows of `n` tokens that came from the fabric as `inp`, the first at position `pos`. -/
def Op.fedRows (o : Op) (inp : List Byte) (n pos : Nat) : List (List Conv) :=
  let x := shapeOf o.desc o.cmd
  (List.range (n * x.hq)).map (fun i => o.ingestQuery (pos + i / x.hq) (elemsOf inp feedFmt (i * x.d) x.d))

/-- R132: the query rows of tokens `t0` to `t0` + `n` − 1 of a command, the first at position `pos`; `inp` are their bytes where they come
from the fabric. -/
def State.queryRows (s : State) (o : Op) (inp : List Byte) (t0 n pos : Nat) : List (List Fl) :=
  let x := shapeOf o.desc o.cmd
  let b := (s.blockOf o.part o.cmd).getD []
  if fiEn o.cmd then (o.fedRows inp n pos).map (fun r => r.map (fun c => ofCode ((Fmt.ofCode (fedFmt o.cmd)).getD .w32) c.code))
  else (List.range (n * x.hq)).map (fun i => s.denseRow o.part (entryAddr b 0) (entryFmt b 0) x.d (t0 * x.hq + i))

/-- R68: what the conversion of query rows from the fabric counts. -/
def Op.fedCounts (o : Op) (inp : List Byte) (n pos : Nat) : Counts :=
  if fiEn o.cmd then
    let cs := (o.fedRows inp n pos).flatten
    ⟨cs.countP Conv.sat, cs.countP (fun c => c.flush && !c.sat), 0⟩
  else Counts.zero

/-- R159, R462: row `i` of a stored output of `n` rows of `d` elements in format code `f` at `addr`, with its scales where it has them. -/
def State.storedRow (s : State) (o : Op) (addr f n d i : Nat) : List Fl :=
  let xs := s.denseRow o.part addr f d i
  let fm := (Fmt.ofCode f).getD .w32
  let pd := o.desc
  let k := if pd.vs = .none then ScaleKind.e8s else pd.vs
  if fm.isSub then
    let at0 := addr + padTo 64 (ceilDiv (n * d * fm.width) 8) + i * ceilDiv d pd.vblk * k.bytes
    xs.mapIdx (fun e x => scaledElem k (scaleVal k (s.vaNat o.part (at0 + e / pd.vblk * k.bytes) k.bytes)) x)
  else xs

/-- Keys `lo` to `hi` − 1 of key/value head `h` with their values: from the groups `gs`, block by block, or dense (R133, R247). -/
def State.keyRows (s : State) (o : Op) (gs : List Nat) (h lo hi : Nat) : List KeyRow :=
  let d := o.desc
  let l := layerOf o.cmd
  if hi ≤ lo then []
  else if denseUse o.cmd then
    let x := shapeOf d o.cmd
    let b := (s.blockOf o.part o.cmd).getD []
    let row (i j : Nat) : List Fl := s.denseRow o.part (entryAddr b i) (entryFmt b i) x.d (j * x.hkv + h)
    (List.range (hi - lo)).map (fun i => ⟨lo + i, row 4 (lo + i), row 5 (lo + i)⟩)
  else
    (List.range ((hi - 1) / d.tok - lo / d.tok + 1)).flatMap (fun i =>
      let k := lo / d.tok + i
      let page := s.vaNat o.part (s.pinnedVa o.part (gs.getD k noGroup) l) d.pageSize
      ((List.range d.tok).filter (fun t => decide (lo ≤ k * d.tok + t ∧ k * d.tok + t < hi))).map (fun t =>
        ⟨k * d.tok + t, pageRow d page true t h, pageRow d page false t h⟩))

/-- The parameters of the scores of `nq` tokens from position `qpos`. -/
def State.attnPar (s : State) (o : Op) (qpos nq : Nat) (causal : Bool) : AttnPar :=
  let c := o.cmd
  let d := o.desc
  let b := (s.blockOf o.part c).getD []
  let dense := denseUse c
  { training := o.training, pm := (PMode.ofCode (pmOf c)).getD .native, sscale := ofW32 (sscaleOf c), qpos := qpos, nq := nq, causal := causal,
    win := if winOf c then some (winM1Of c + 1) else none,
    bm := if bmOf c then some (maskBaseOf c, bmModeOf c, bmOutOf c, s.vaRead o.part (entryAddr b 3) 8192) else none,
    qInt := intFmt (queryFmt c b),
    kInt := if dense then intFmt (entryFmt b 4) else d.kf.isInt && d.ks = .none,
    vInt := if dense then intFmt (entryFmt b 5) else d.vf.isInt && d.vs = .none }

/-- R143: the partial of one segment, its rows in the order of R132, with its counts. -/
def State.segPartial (s : State) (o : Op) (gs : List Nat) (a : AttnPar) (qs : List (List Fl)) (keys seg : Nat) : List RowAcc :=
  let x := shapeOf o.desc o.cmd
  let hs := (List.range x.hkv).map (fun h => s.keyRows o gs h (1024 * seg) (Nat.min keys (1024 * seg + 1024)))
  qs.mapIdx (fun i q => segmentRow a (i / x.hq) q (hs.getD (i % x.hq / x.g) []))

def countsOf (rs : List RowAcc) : Counts := rs.foldl (fun c r => c.add r.c) Counts.zero

/-- The requests of a built-in program for its operands other than keys and values, over a segment or a chunk (R396 q 7; a free value). -/
def State.builtinReads (s : State) (p : Nat) : State :=
  let (k, s) := s.draw
  s.meterEvent p 7 (Config.freeReads k).toNat

/-! Outputs (R149, R462, R361) -/

/-- Bytes cut into output tiles of at most 65,536 bytes (R360). -/
def cutTiles (bs : List Byte) : List (List Byte) := chunksOf 65536 (bs.length + 1) bs

/-- Codes and scales of converted rows. -/
structure OutParts where
  data : List Byte
  sc : List Byte
  c : Counts
deriving DecidableEq, Repr

/-- R462: rows in the command's output format. -/
def Op.outParts (o : Op) (rows : List (List Fl)) : OutParts :=
  let d := o.desc
  let f := (Fmt.ofCode (outfmtOf o.cmd)).getD .w32
  if f.isSub then
    let k := if d.vs = .none then ScaleKind.e8s else d.vs
    let blks := rows.flatMap (fun r => (chunksOf d.vblk (r.length + 1) r).map (quantBlock o.training f k))
    ⟨packCodes f.width (blks.flatMap Block.codes), blks.flatMap (fun x => leBytes k.bytes x.scale),
     ⟨(blks.map Block.sat).sum, (blks.map Block.flush).sum, 0⟩⟩
  else let r := plainOut o.training f rows; ⟨r.data, [], r.c⟩

/-- R462: rows `row0` upward of an output of `total` rows of `dim` elements go to `addr`. -/
def State.putRows (s : State) (o : Op) (addr row0 total dim : Nat) (x : OutParts) : State :=
  let d := o.desc
  let w := ((Fmt.ofCode (outfmtOf o.cmd)).getD .w32).width
  let k := if d.vs = .none then ScaleKind.e8s else d.vs
  let s := s.vaWrite o.part (addr + row0 * dim * w / 8) x.data
  if x.sc.isEmpty then s
  else s.vaWrite o.part (addr + padTo 64 (ceilDiv (total * dim * w) 8) + row0 * ceilDiv dim d.vblk * k.bytes) x.sc

/-- R361, R462: rows for the out-port: codes go at once, scales after the codes of all rows. -/
def Op.emit (o : Op) (x : OutParts) (total dim : Nat) (last : Bool) : Op :=
  let w := ((Fmt.ofCode (outfmtOf o.cmd)).getD .w32).width
  let sc := o.outs ++ x.sc
  let bytes := ceilDiv (total * dim * w) 8
  let tail := if last && !sc.isEmpty then List.replicate (padTo 64 bytes - bytes) (0 : Byte) ++ sc else []
  { o with outq := o.outq ++ cutTiles (x.data ++ tail), outs := if last then [] else sc }

/-- Numeric counts join the operation's. -/
def Op.counts (o : Op) (c : Counts) : Op := o.count c.sat c.flush c.nansc

/-- R396: query tokens, token-reads and prefill tokens of an operation that ends well at the last layer. -/
def State.meterAttn (s : State) (o : Op) : State :=
  let c := o.cmd
  let p := o.part
  if layerOf c != (s.desc p).layersM1 || 0x10 ≤ finalStatus o 0 then s
  else
    let n := nqOf c
    let reads := ((List.range n).map (fun t =>
      let pos := qposOf c + t
      let top := if causalOf c then Nat.min o.keys (pos + 1) else o.keys
      top - (if winOf c then pos + 1 - (winM1Of c + 1) else 0))).sum
    match opcodeOf c with
    | 0x05 =>
      let s := if !specBit c && n ≤ 64 then s.meterEvent p 0 n else s
      let s := s.meterEvent p 1 reads
      if 64 < n then s.meterEvent p 2 n else s
    | 0x07 => s.meterEvent p 2 n
    | _ => s

/-- The operation's work is done and its output has gone; an ATTEND's conversion of queries from the fabric joins its counts (R68). -/
def State.closeOp (s : State) (opid : W32) : State :=
  match s.op opid with
  | none => s
  | some o =>
    let o := if opcodeOf o.cmd = 0x05 then o.counts (o.fedCounts o.input (nqOf o.cmd) (qposOf o.cmd)) else o
    ((s.setOp o).meterAttn o).endOp opid 0 0 0

/-- R361: output tiles leave while their credits are held; the first was reserved at firing. -/
def State.sendTiles (fuel : Nat) (s : State) (opid : W32) : State :=
  match fuel with
  | 0 => s
  | fuel + 1 =>
    match s.op opid with
    | none => s
    | some o =>
      match o.outq with
      | [] => s
      | t :: ts =>
        let k := foOf o.cmd
        let n := Nat.max 1 (ceilDiv t.length 128)
        let room := if o.flits = 0 then Tab.get 0 s.fab.outCred k else s.outFree k
        if room < n then s
        else
          let s := (s.sendTile k o.part o.cmd (33, opid.toNat) t).setOp { o with outq := ts }
          State.sendTiles fuel (s.flitsLeave opid k n (o.fin && ts.isEmpty)) opid

/-- R343: flits of the operation whose credit has not come back. -/
def State.flitsOwed (s : State) (opid : W32) : Bool := s.fab.outWait.any (fun e => e.2.any (fun x => x.1 = 33 && x.2.1 = opid.toNat))

/-- Output goes out, and an operation that has produced and delivered all of it completes. -/
def State.drainOut (s : State) (opid : W32) : State :=
  match s.op opid with
  | none => s
  | some o =>
    let s := s.sendTiles (o.outq.length + 1) opid
    match s.op opid with
    | none => s
    | some o =>
      if o.fin && o.outq.isEmpty && o.sendq.isEmpty && o.unacked.isEmpty && !s.flitsOwed opid && !s.reading opid && o.st = .running && !s.linkFull && s.inputFull o then s.closeOp opid
      else s

/-- R149, R150, R459: root rows of tokens `t0` upward become outputs, log-sum-exps, the masked count and the NaN flag. -/
def State.writeRoot (s : State) (o : Op) (t0 n : Nat) (root : Option (List PRow)) (last : Bool) : State :=
  let o := s.live o
  let x := shapeOf o.desc o.cmd
  let b := (s.blockOf o.part o.cmd).getD []
  let rows := (List.range (n * x.hq)).map (fun i => rowEpilogue x.d (root.bind (fun r => r[i]?)))
  let zs := rows.map RowOut.z
  let out := o.outParts zs
  let row0 := t0 * x.hq
  let total := x.nq * x.hq
  let o := (o.counts out.c)
  let o := { o with masked := o.masked + rows.countP RowOut.fullyMasked, fin := last, naninf := if o.naninf.isSome then o.naninf else firstNanInf row0 zs }
  let s := if entryAddr b 2 = 0 then s else s.vaWrite o.part (entryAddr b 2 + 4 * row0) (rows.flatMap (fun r => leBytes 4 r.lse.toNat))
  if foEn o.cmd then (s.setOp (o.emit out total x.d last)).drainOut o.opid
  else ((s.putRows o (entryAddr b 1) row0 total x.d out).setOp o).drainOut o.opid

/-! The merge tree (R146 to R151) -/

/-- K of R146. -/
def Op.depth (o : Op) : Nat := clog2 (ceilDiv o.keys 1024)

/-- Node (k, j) covers a present segment. -/
def Op.covers (o : Op) (k j : Nat) : Bool := o.place.any (fun p => p.1 / 2 ^ k = j)

/-- R146: a complete node whose sibling is absent is its parent, unchanged. -/
def Op.passUp (fuel : Nat) (o : Op) (k j : Nat) : Op :=
  match fuel with
  | 0 => o
  | fuel + 1 =>
    if o.depth ≤ k then o
    else
      let sib := if j % 2 = 0 then j + 1 else j - 1
      if o.covers k sib then o
      else match o.node k j with
        | some x => Op.passUp fuel (o.setNode (k + 1) (j / 2) x) (k + 1) (j / 2)
        | none => o

/-- A node is complete; with the root, the outputs are written. A key range below 2^32 keys has a root of level 22 at most. -/
def State.nodeDone (s : State) (o : Op) (k j : Nat) (x : Node) : State :=
  let o := (o.setNode k j x).passUp 23 k j
  let s := s.setOp o
  match o.node o.depth 0 with
  | some r => s.writeRoot o 0 (nqOf o.cmd) (some r.rows) true
  | none => s

/-! ATTEND -/

def clusterMask (ns : List Nat) : BitVec 32 := ns.foldl (fun w n => w ||| oneHot 32 n) 0

/-- R136, R156: an operation with its key range and pins fixed. -/
def State.pinned (s : State) (o : Op) (keys : Nat) (gs : List Nat) : Op × State :=
  let s := (gs.foldl (fun s g => s.pin o.part g) s).settleJobs o.part
  let o := { o with keys := keys, pins := gs }
  (o, s.setOp o)

/-- R303: the operation receives what shares stand free for its class. -/
def State.share (s : State) (opid : W32) : State :=
  match s.op opid with
  | none => s
  | some o => s.grantShares o (s.sharesFree o.part (workClass o.cmd))

/-! Segments of peer blocks (R154; log entry 129) -/

/-- R153: the bytes of a partial tile. -/
def tileBytes (t : PTile) : List Byte :=
  leBytes 4 t.opid.toNat ++ leBytes 2 t.sqid.toNat ++ [t.layer, BitVec.ofNat 8 (t.level % 16 + (if t.training then 16 else 0))]
    ++ leBytes 2 (t.node % 8192) ++ leBytes 2 (t.rows.length % 128) ++ leBytes 4 t.rowBase ++ leBytes 2 (t.dim % 512) ++ List.replicate 14 0
    ++ t.rows.flatMap (fun r => leBytes 4 r.m.toNat ++ leBytes 4 r.l.toNat ++ r.o.flatMap (fun x => leBytes 4 x.toNat))

/-- R153: the first rows of a partial tile that fit into `bytes`, and the tile that remains. -/
def cutTile (t : PTile) (bytes : Nat) : Option (PTile × List PTile) :=
  let k := Nat.min 64 ((bytes - 32) / (8 + 4 * t.dim))
  if k = 0 then none
  else some ({ t with rows := t.rows.take k },
    if t.rows.length ≤ k then [] else [{ t with rowBase := t.rowBase + k, rows := t.rows.drop k }])

/-- R154, R364: partials of an operation go, in the order in which they were formed, into the windows of its peer, each against a credit. -/
def State.sendPartials (fuel : Nat) (s : State) (opid : W32) : State :=
  match fuel with
  | 0 => s
  | fuel + 1 =>
    match s.op opid with
    | none => s
    | some o =>
      match o.sendq, s.peer.held.find? (fun x => x.peer = Config.freePeer opid.toNat) with
      | t :: ts, some x =>
        match cutTile t x.bytes with
        | none => s
        | some (t, rest) =>
          let t := { t with opid := x.opid }
          let h : PeerHdr := { s.peerHdr 0 x.peer x.window x.slot o.part (tileBytes t).length with opid := x.opid, epoch := x.epoch }
          let s := (s.modPeer (fun p => { p with held := p.held.erase x })).setOp { o with sendq := rest ++ ts, unacked := o.unacked ++ [(x.window, x.slot)] }
          State.sendPartials fuel (s.peerSend 2 h (tileBytes t)) opid
      | _, _ => s

/-- Partials leave for peers, and operations that have delivered all of theirs complete. -/
def State.sendOut (s : State) : State :=
  ((s.hw.ops.filter Op.sends).map Op.opid).foldl (fun s i => (s.sendPartials (s.peer.held.length + 1) i).drainOut i) s

/-- R154: the partial of segment `seg` is complete in an operation that computes for a peer block. -/
def State.partialOut (s : State) (o : Op) (seg : Nat) (x : Node) : State :=
  let d := (shapeOf o.desc o.cmd).d
  let t : PTile := ⟨o.opid, BitVec.ofNat 14 (sqidOf o.cmd), BitVec.ofNat 8 (layerOf o.cmd), 0, o.training, seg, 0, d, x.rows⟩
  let o := o.setNode 0 seg x
  (s.setOp { o with sendq := o.sendq ++ [t], fin := o.place.all (fun p => (o.node 0 p.1).isSome) }).sendOut

/-- R364: a slot of a peer's window that a partial of this block filled is acknowledged, or refused: nothing is sent again. -/
def State.partialAcked (s : State) (h : PeerHdr) : State :=
  match s.hw.ops.find? (fun o => o.unacked.contains (h.window, h.slot.toNat)) with
  | some o => (s.setOp { o with unacked := o.unacked.erase (h.window, h.slot.toNat) }).drainOut o.opid
  | none => s

/-- R154: the segments that a command with a peer list leaves to peers, of those present; for its peer, the segments that it computes. -/
def Op.peered (o : Op) (segs : List Nat) : List Nat := segs.filter (Config.freeRemote o.opid.toNat)

/-- R143, R151, R156: ATTEND is admitted; its segments stand placed, and one without a present segment completes fully masked. -/
def State.admitAttend (s : State) (p : Nat) (c : Cmd) : State :=
  if s.linkFull then s
  else
    let keys := s.keyCount p c
    s.covered p c (s.keyBlocks p c keys) (fun s =>
      let gs := if denseUse c then [] else (s.seq p (sqidOf c)).groups (s.desc p).tok keys
      let (o, s) := s.admitOp p c
      let (o, s) := s.pinned o keys gs
      let present := presentSegs (s.attnPar o (qposOf c) (nqOf c) (causalOf c)) keys
      let peers := namesPeer (s.blockOf p c)
      let sends := peers && Config.freeSide o.opid.toNat
      let segs := if sends then o.peered present else present
      let place := placeSegs (s.freeClusters s.cfg.active p) segs
      let o := { o with place := place, clusters := clusterMask (place.map Prod.snd), remote := if peers && !sends then o.peered present else [], sends := sends,
                        fin := sends && segs.isEmpty }
      let s := (((s.setOp o).share o.opid).askSegs o (place.filter (fun x => !o.remote.contains x.1))).drainOut o.opid
      if segs.isEmpty && !sends then s.writeRoot o 0 (nqOf c) none true else s)

/-- R143: ATTEND. -/
def execAttend (c : Cmd) (s : State) : Res := .next (s.ringRow 0x05 c State.admitAttend)

/-- R303: decode work of partition `p` waits for a share. -/
def State.decodeWaits (s : State) (p : Nat) : Bool :=
  s.hw.ops.any (fun o => o.part = p && o.st = .running && workClass o.cmd = .decode && (o.clusters &&& ~~~o.shares) != 0)
    || s.hw.staged.any (fun x => x.part = p && x.st = .ready && usesClusters x.cmd && workClass x.cmd = .decode && s.sharesFree p .decode = 0)

/-- R303: decode work of partition `p` waits for a share of cluster `n`. -/
def State.decodeWaitsFor (s : State) (p n : Nat) : Bool :=
  s.hw.ops.any (fun o => o.part = p && o.st = .running && workClass o.cmd = .decode && bit o.clusters n && !bit o.shares n)

/-- R303: prefill work of partition `p` holds shares of its floor: the shares held beyond the floors are more than the pool, G less the floors. -/
def State.borrows (s : State) (p : Nat) : Bool :=
  s.heldBy p .decode < s.floorOf p
    && decide (s.g < s.floorSum + (s.sharesHeld - ((List.range 16).map (fun q => Nat.min (s.floorOf q) (s.heldBy q .decode))).sum))

/-- R157, R303, R377: at a segment boundary a prefill holder returns its share of cluster `n` to decode work that waits for that cluster, a share
borrowed from the floor to decode work that waits for any, and any share where G has fallen below the shares in use (log entry 133). -/
def State.yieldShare (s : State) (opid : W32) (n : Nat) : State :=
  match s.op opid with
  | none => s
  | some o =>
    if workClass o.cmd = .prefill && bit o.shares n
        && (s.decodeWaitsFor o.part n || (s.borrows o.part && s.decodeWaits o.part) || s.g < s.sharesHeld) then
      s.setOp { o with shares := putBit o.shares n false }
    else s

/-- The clusters of an operation reach a boundary together. -/
def State.yieldShares (s : State) (opid : W32) : State :=
  (((s.op opid).map (fun o => setList o.shares)).getD []).foldl (fun s n => s.yieldShare opid n) s

/-- The pages that a segment reads, as they translate now (R337). -/
def State.judgePages (s : State) (o : Op) (lo hi : Nat) : Verdict × Nat :=
  let d := o.desc
  if denseUse o.cmd then (.ok, 0)
  else s.judgeRuns o.part false (((o.pins.drop (lo / d.tok)).take (ceilDiv hi d.tok - lo / d.tok)).map (fun g => (s.pinnedVa o.part g (layerOf o.cmd), d.pageSize)))

/-- R100, R158: a tile of the operation is under rerun on cluster `n`. -/
def State.rerunning (s : State) (o : Op) (n : Nat) : Bool := ((s.cluster n).builtin.map Prod.fst) = some o.opid

/-- R143: cluster `n` finishes segment `seg`. -/
def State.finishSegment (s : State) (o : Op) (seg n : Nat) : State :=
  let c := o.cmd
  let a := s.attnPar o (qposOf c) (nqOf c) (causalOf c)
  let rs := s.segPartial o o.pins a (s.queryRows o o.input 0 (nqOf c) (qposOf c)) o.keys seg
  let s := (s.builtinReads o.part).firstMac n o.opid
  let o := (s.live o).counts (countsOf rs)
  let x : Node := ⟨rs.map RowAcc.row, n⟩
  ((if o.sends then s.partialOut o seg x else s.nodeDone o 0 seg x).yieldShare o.opid n).placeWaiting o.part

/-- R143, R157, R337: a segment's partial is complete on its cluster; held pages make it wait, a hard one kills the sequence. -/
def execSegmentDone (opid : W32) (seg : Nat) (s : State) : Res :=
  .next (match s.op opid with
    | none => s
    | some o =>
      match o.place.find? (fun x => x.1 = seg) with
      | none => s
      | some x =>
        if opcodeOf o.cmd != 0x05 || o.fin || o.remote.contains seg || (o.node 0 seg).isSome || !s.mayWork x.2 opid || s.linkFull || !s.inputFull o
            || s.rerunning o x.2 || s.readingSeg opid seg x.2 then s
        else
          match s.judgePages o (1024 * seg) (Nat.min o.keys (1024 * seg + 1024)) with
          | (.ok, _) => s.finishSegment o seg x.2
          | (.held, _) => s
          | (.hard, va) => s.kill o.part (sqidOf o.cmd) va)

/-- R147, R151: the home of node (level, node) merges its children. -/
def execMerge (opid : W32) (level node : Nat) (s : State) : Res :=
  .next (match s.op opid, level with
    | some o, k + 1 =>
      match o.node k (2 * node), o.node k (2 * node + 1) with
      | some a, some b =>
        if o.fin || o.sends || o.depth ≤ k || (o.node level node).isSome || !s.mayWork a.home opid || s.linkFull || s.rerunning o a.home then s
        else s.nodeDone o level node ⟨List.zipWith (mergeRow o.training) a.rows b.rows, a.home⟩
      | _, _ => s
    | _, _ => s)

/-- R151: the home of node (k, j): the cluster of the lowest-numbered present segment it covers. -/
def Op.homeOf (o : Op) (k j : Nat) : Nat := ((o.place.find? (fun p => p.1 / 2 ^ k = j && p.2 != noCluster)).map Prod.snd).getD 0

/-- R154: a partial of remote segment `g`, or of a node that covers it, has arrived whole. -/
def Op.arrived (o : Op) (g : Nat) : Bool := (List.range (o.depth + 1)).any (fun k => (o.node k (g / 2 ^ k)).isSome)

/-- R325: Confluence sends a returned partial again, to its node's current home. -/
def State.resend (s : State) (t : PTile) : State :=
  match s.op t.opid with
  | some o => s.modPeer (fun p => { p with resent := p.resent ++ [(o.homeOf t.level t.node, t)] })
  | none => s

/-! Partial tiles (R153 to R155, R325) -/

/-- Rows of a tile that the operation already has for its node. -/
def Op.hasRows (o : Op) (t : PTile) : Bool :=
  (o.node t.level t.node).isSome
    || (Tab.get [] o.parts (nodeKey t.level t.node)).any (fun r => t.rowBase ≤ r.1 && decide (r.1 < t.rowBase + t.rows.length))

/-- R155: `CLASS`, `DIM` or `ROWS` disagrees with the operation. -/
def Op.tileDisagrees (o : Op) (t : PTile) : Bool :=
  let x := shapeOf o.desc o.cmd
  t.training != o.training || t.dim != x.d || t.rows.isEmpty || 64 < t.rows.length || x.nq * x.hq < t.rowBase + t.rows.length
    || t.rows.any (fun r => r.o.length != x.d)

/-- R154, R155: a tile joins its node; with every row of it there, the node is complete on cluster `n`. -/
def State.takeRows (s : State) (o : Op) (t : PTile) (n : Nat) : State :=
  let x := shapeOf o.desc o.cmd
  let key := nodeKey t.level t.node
  let rs := Tab.get [] o.parts key ++ t.rows.mapIdx (fun i r => (t.rowBase + i, r))
  if x.nq * x.hq ≤ rs.length then
    let rows := (List.range (x.nq * x.hq)).map (fun i => ((rs.find? (fun r => r.1 = i)).map Prod.snd).getD ⟨0, 0, []⟩)
    s.nodeDone { o with parts := Tab.set [] o.parts key [] } t.level t.node ⟨rows, n⟩
  else s.setOp { o with parts := Tab.set [] o.parts key rs }

/-- R155: a partial tile at cluster `n`. -/
def State.partialAt (s : State) (n : Nat) (epoch : W16) (t : PTile) : State :=
  let c := s.cluster n
  if epoch != c.roleEpoch || c.clearing then
    (s.setCluster n { c with stale := bump c.stale }).resend t
  else
    match s.op t.opid with
    | none => s
    | some o =>
      if opcodeOf o.cmd != 0x05 || o.fin || o.sends || s.clPart n != o.part || o.depth < t.level || !o.covers t.level t.node then s
      else if o.tileDisagrees t then (s.note 0x0C (some o.part) false 2 (BitVec.ofNat 8 n) o.opid 1 (t.level + 16 * t.node)).endOp o.opid 0x22 0x07 0
      else if o.hasRows t then s.note 0x0C (some o.part) false 0 (BitVec.ofNat 8 n) o.opid 0 (t.level + 16 * t.node)
      else s.takeRows o t n

/-- R153 to R155: a partial tile arrives. -/
def execPartialTile (n : Fin 32) (epoch : W16) (t : PTile) (s : State) : Res :=
  .next (if s.fast && !s.linkFull then s.partialAt n.val epoch t else s)

/-- R155: a remote partial has not arrived in time: the operation completes ABORTED. One whose remote partials are all there goes on. -/
def execPeerTmo (opid : W32) (s : State) : Res :=
  .next (match s.op opid with
    | none => s
    | some o =>
      if s.fast && opcodeOf o.cmd = 0x05 && !o.fin && o.remote.any (fun g => !o.arrived g) then s.endOp opid 0x22 0x06 0 else s)

/-! ATTEND_BWD (R159 to R162) -/

/-- The rows of key/value head `h` for the backward pass. -/
def State.bwdRows (s : State) (o : Op) (qs : List (List Fl)) (h : Nat) : List BRow :=
  let x := shapeOf o.desc o.cmd
  let b := (s.blockOf o.part o.cmd).getD []
  (List.range (x.nq * x.g)).map (fun i =>
    let t := i / x.g
    let r := t * x.hq + h * x.g + i % x.g
    let dO := s.denseRow o.part (entryAddr b 6) (entryFmt b 6) x.d r
    let out := s.storedRow o (entryAddr b 1) (entryFmt b 1) (x.nq * x.hq) x.d r
    ⟨t, qs.getD r [], dO, rowDelta dO out, ofW32 (BitVec.ofNat 32 (s.vaNat o.part (entryAddr b 2 + 4 * r) 4))⟩)

/-- R459: the first NaN or infinity of dQ, dK and dV. -/
def bwdNan (dq dk dv : List (List Fl)) : Option (Nat × Nat × Nat) :=
  let t1 := ceilDiv dq.length 64
  let t2 := t1 + ceilDiv dk.length 64
  (firstNanInf 0 dq) <|> (firstNanInf (64 * t1) dk) <|> (firstNanInf (64 * t2) dv)

/-- R159 to R162: the gradients of an operation, in the row orders of R132 and R459. -/
def State.bwd (s : State) (o : Op) : BHead :=
  let c := o.cmd
  let x := shapeOf o.desc c
  let b := (s.blockOf o.part c).getD []
  let a := s.attnPar o (qposOf c) (nqOf c) (causalOf c)
  let qs := s.queryRows o o.input 0 (nqOf c) (qposOf c)
  let hs := (List.range x.hkv).map (fun h => bwdHead a (intFmt (entryFmt b 6)) x.d (s.bwdRows o qs h) (s.keyRows o o.pins h 0 o.keys))
  let dQ := (List.range (x.nq * x.hq)).map (fun i =>
    match hs[i % x.hq / x.g]? with
    | some y => y.dQ.getD (i / x.hq * x.g + i % x.hq % x.g) []
    | none => [])
  ⟨dQ, interleave o.keys (hs.map BHead.dK), interleave o.keys (hs.map BHead.dV), (hs.map BHead.c).foldl Counts.add Counts.zero⟩

/-- An admitted ATTEND_BWD whose input is there computes and writes its gradients. -/
def State.runBwd (s : State) (o : Op) : State :=
  let b := (s.blockOf o.part o.cmd).getD []
  let x := shapeOf o.desc o.cmd
  let r := s.bwd o
  let (q, k, v) := (o.outParts r.dQ, o.outParts r.dK, o.outParts r.dV)
  let s := (s.builtinReads o.part).firstMac ((setList o.shares).headD 0) o.opid
  let s := s.progressOf (s.live o) 1000 0 (ceilDiv x.nq 1024 * ceilDiv o.keys 1024)
  let fed := o.fedCounts o.input (nqOf o.cmd) (qposOf o.cmd)
  let o := { (s.live o).counts (r.c.add (fed.add (q.c.add (k.c.add v.c)))) with naninf := bwdNan r.dQ r.dK r.dV, fin := true }
  let s := s.putRows o (entryAddr b 8) 0 r.dK.length x.d k
  let s := s.putRows o (entryAddr b 9) 0 r.dV.length x.d v
  if foEn o.cmd then (s.setOp (o.emit q r.dQ.length x.d true)).drainOut o.opid
  else ((s.putRows o (entryAddr b 7) 0 r.dQ.length x.d q).setOp o).drainOut o.opid

/-! PREFILL (R306) -/

/-- Bytes of fabric input before those of the chunk that starts at token `t0`. -/
def prefillOffset (pd : PoolDesc) (c : Cmd) (t0 : Nat) : Nat :=
  let x := shapeOf pd c
  opdBytes (t0 * 2 * pd.hkv * pd.dim) feedFmt + opdBytes (t0 * x.hq * x.d) feedFmt

/-- R306: the ATTEND step of a chunk of `n` tokens from token `t0`, over `keys` keys. -/
def State.chunkAttend (s : State) (o : Op) (inp : List Byte) (t0 n pos keys : Nat) : State :=
  let c := o.cmd
  let gs := (s.seq o.part (sqidOf c)).groups o.desc.tok keys
  let s := gs.foldl (fun s g => s.unpin o.part g) ((gs.foldl (fun s g => s.pin o.part g) s).settleJobs o.part)
  let a := s.attnPar o pos n true
  let qs := s.queryRows o inp t0 n pos
  let segs := presentSegs a keys
  let ps := segs.map (fun g => s.segPartial o gs a qs keys g)
  let leaves := (List.range (ceilDiv keys 1024)).map (fun g => (ps[segs.idxOf g]?).map (fun r => r.map RowAcc.row))
  let root := treeFold (List.zipWith (mergeRow o.training)) (clog2 leaves.length) leaves
  let o := o.counts ((ps.map countsOf).foldl Counts.add (o.fedCounts inp n pos))
  let done := t0 + n
  let o := { o with pos := done }
  (s.progressOf o (1000 * done / nqOf c) 1 (pos + n)).writeRoot o t0 n root (done = nqOf c)

/-- R306: the APPEND_KV step of a chunk, its groups taken, then its ATTEND step. -/
def State.chunkRun (s : State) (o : Op) (t0 n : Nat) : State :=
  let c := o.cmd
  let p := o.part
  let q := sqidOf c
  let l := layerOf c
  let d := o.desc
  let b := (s.blockOf p c).getD []
  let f := if fiEn c then feedFmt else entryFmt b 11
  let start := (s.seq p q).lenOf l
  let kv := opdBytes (n * 2 * d.hkv * d.dim) f
  let off := prefillOffset d c t0
  let src := if fiEn c then (o.input.drop off).take kv else s.vaRead p (entryAddr b 11 + opdBytes (t0 * 2 * d.hkv * d.dim) f) kv
  let ids := (List.range n).map (fun i => s.vaNat p (entryAddr b 10 + 4 * (t0 + i)) 4)
  let (s, cnt) := s.writeToks o.training p q l start ids (s.kvToks o.set p src f start n)
  let s := (s.modSeq p q (fun x => { x with len := Tab.set 0 x.len l (start + n) })).refill p q
  let n0 := (setList o.shares).headD 0
  let s := ((s.builtinReads p).askKeys o n0 0 ((s.seq p q).groups d.tok (start + n)) 0 (start + n)).firstMac n0 o.opid
  let o := (s.live o).counts cnt
  ((s.chunkAttend o (o.input.drop (off + kv)) t0 n start (start + n)).yieldShares o.opid).famineAct p

/-- R254, R265, R267, R306: the next chunk of an admitted PREFILL takes its groups, or ends the operation. -/
def State.nextChunk (s : State) (o : Op) : State :=
  let c := o.cmd
  let p := o.part
  let q := sqidOf c
  let tok := (s.desc p).tok
  let n := Nat.min (chunkOf c) (nqOf c - o.pos)
  let start := (s.seq p q).lenOf (layerOf c)
  let famine (s : State) : State := ((s.pause p q).endOp o.opid 0x11 0 (res20 (s.avail p % 2 ^ 24))).famineAct p
  let corrupt (k : Nat) : State := (s.corruptHit p q k).endOp o.opid 0x50 0x10 (res20 (k * tok))
  match s.cover p q (List.range (ceilDiv start tok)) with
  | .corrupt k => corrupt k
  | .famine => famine s
  | .wait s => s.setOp { o with st := .restoring }
  | .ready =>
    if s.slotRead p c start || s.copying p o.opid then s
    else
      match s.needBlocks p q (layerOf c) start n o.opid with
      | .wait => s
      | .held _ => s
      | .killed va => s.kill p q va
      | .overflow => s.endOp o.opid 0x13 0xFF 0
      | .famine => famine s
      | .corrupt k => corrupt k
      | .copying s => s
      | .ok s => s.chunkRun { o with st := .running } o.pos n

/-- R306: bytes of fabric input up to the end of the next chunk have arrived. -/
def Op.chunkReady (o : Op) : Bool :=
  !fiEn o.cmd || prefillOffset o.desc o.cmd (Nat.min (nqOf o.cmd) (o.pos + chunkOf o.cmd)) ≤ o.input.length

/-- R306: Weir admits the next chunk of a PREFILL. -/
def execPrefillChunk (opid : W32) (s : State) : Res :=
  .next (match s.op opid with
    | none => s
    | some o =>
      if opcodeOf o.cmd = 0x07 && s.fast && !s.swapPause && o.st != .held && o.hold.isEmpty && o.shares != 0 && o.pos < nqOf o.cmd
          && !s.linkFull && o.chunkReady && !s.reading opid && !(setList o.shares).any (s.rerunning o) then s.nextChunk o
      else s)

/-- R273, R289, R306: PREFILL is accepted; its chunks are admitted one by one. -/
def State.admitPrefill (s : State) (p : Nat) (c : Cmd) : State :=
  let d := s.desc p
  let x := s.seq p (sqidOf c)
  let start := x.lenOf (layerOf c)
  if x.hasTail (d.layersM1 + 1) then s.finishNow p c x.epoch (Compl.plain 0x22 0x05)
  else if 2 ^ x.btLog2 ≤ (start + nqOf c - 1) / d.tok then s.finishNow p c x.epoch overflowC
  else
    let (o, s) := s.admitOp p c
    let o := { o with clusters := clusterMask (s.freeClusters s.cfg.active p) }
    (s.progressOf o 0 1 start).share o.opid

/-- R306: PREFILL. -/
def execPrefill (c : Cmd) (s : State) : Res := .next (s.ringRow 0x07 c State.admitPrefill)

/-! Work that waits for fabric input -/

/-- An operation whose input is complete goes on: an APPEND_KV writes, an ATTEND_BWD runs. -/
def State.progress (s : State) (opid : W32) : State :=
  match s.op opid with
  | none => s
  | some o =>
    if o.st != .running || !o.hold.isEmpty || o.fin || !s.inputFull o || s.copying o.part opid then s
    else
      match opcodeOf o.cmd with
      | 0x04 => s.appendWrite opid
      | 0x06 =>
        if o.shares = 0 || s.linkFull || s.reading opid || (setList o.shares).any (s.rerunning o) then s
        else
          match s.judgePages o 0 o.keys with
          | (.ok, _) => s.runBwd o
          | (.held, _) => s
          | (.hard, va) => s.kill o.part (sqidOf o.cmd) va
      | _ => s

/-- Every operation that can go on does (R361). -/
def State.progressAll (s : State) : State := (s.hw.ops.map (fun o => o.opid)).foldl (fun s i => (s.progress i).drainOut i) s

/-- R159: ATTEND_BWD is admitted; with its input there it computes. -/
def State.admitBwd (s : State) (p : Nat) (c : Cmd) : State :=
  if s.linkFull then s
  else
    let keys := s.keyCount p c
    s.covered p c (s.keyBlocks p c keys) (fun s =>
      let gs := if denseUse c then [] else (s.seq p (sqidOf c)).groups (s.desc p).tok keys
      let (o, s) := s.admitOp p c
      let (o, s) := s.pinned o keys gs
      let o := { o with clusters := clusterMask (s.freeClusters s.cfg.active p) }
      (((s.progressOf o 0 0 0).share o.opid).askKeys o ((setList o.clusters).headD 0) 0 gs 0 keys).progress o.opid)

/-- R159: ATTEND_BWD. -/
def execAttendBwd (c : Cmd) (s : State) : Res := .next (s.ringRow 0x06 c State.admitBwd)

/-! Firing (R361) and fabric input (R360) -/

/-- A staged command that takes tiles of the same kind as `x` from the same in-port. -/
def sameFeed (x y : Staged) : Bool :=
  fiEn x.cmd && fiEn y.cmd && fiOf x.cmd = fiOf y.cmd && x.part = y.part && sqidOf x.cmd = sqidOf y.cmd && layerOf x.cmd = layerOf y.cmd

def tileFor (x : Staged) (t : FTile) : Bool := t.part = x.part && t.sqid.toNat = sqidOf x.cmd && t.layer.toNat = layerOf x.cmd

/-- R360: the first complete tile of in-port `k` for the staged command, where no admitted command and no earlier staged one wants it. -/
def State.firstTile (s : State) (x : Staged) : Option (FTile × Nat) :=
  if (s.hw.staged.takeWhile (fun y => y.cmd != x.cmd)).any (fun y => sameFeed x y && !y.fired) then none
  else (Tab.get [] s.fab.stagedT (fiOf x.cmd)).find? (fun t => tileFor x t.1 && (s.tileOwner (fiOf x.cmd) t.1).isNone)

/-- A tile leaves staging for `x`, and its flits' credits go back (R359); those of a RUN_PROGRAM stay for its streams. -/
def State.takeFirst (s : State) (x : Staged) (t : FTile × Nat) : State :=
  if opcodeOf x.cmd = 0x0F then s
  else
    let k := fiOf x.cmd
    let s := s.modFab (fun f => { f with stagedT := Tab.set [] f.stagedT k ((Tab.get [] f.stagedT k).erase t) })
    (s.giveFlits k t.2).modStaged x.cmd (fun y => { y with input := y.input ++ t.1.data })

/-- R361: a staged fabric-bound command fires. -/
def State.fireCmd (s : State) (x : Staged) : State :=
  let roomy := !foEn x.cmd || firstFlits (s.desc x.part) x.cmd ≤ s.outFree (foOf x.cmd)
  let go (s : State) : State := s.modStaged x.cmd (fun y => { y with fired := true, firedFc := s.clk.fc, firedTick := s.clk.tick })
  if !roomy then s
  else if !fiEn x.cmd then go s
  else match s.firstTile x with
    | some t => go (s.takeFirst x t)
    | none => s

/-- R361: the command at index `idx` of a ring fires. -/
def execFire (ring : BitVec 14) (idx : W32) (s : State) : Res :=
  .next (match s.hw.staged.find? (fun x => x.cmd.ring = ring.toNat && x.cmd.idx = idx), s.serving with
    | some x, true =>
      if x.fired || !(fiEn x.cmd || foEn x.cmd) then s
      else match s.upToWeir x with
        | (true, s) => s.fireCmd x
        | (false, s) => s
    | _, _ => s)

/-- R360: where a complete tile of in-port `k` goes: to the earliest admitted command, then to the earliest that has fired. -/
def State.feed (s : State) (k : Nat) (t : FTile × Nat) : State :=
  let gone (s : State) : State :=
    (s.modFab (fun f => { f with stagedT := Tab.set [] f.stagedT k ((Tab.get [] f.stagedT k).erase t) })).giveFlits k t.2
  match s.tileOwner k t.1 with
  | some o => if opcodeOf o.cmd = 0x0F then s else (gone s).setOp { o with input := o.input ++ t.1.data }
  | none =>
    match s.hw.staged.find? (fun x => x.fired && fiEn x.cmd && fiOf x.cmd = k && tileFor x t.1 && opcodeOf x.cmd != 0x0F && s.wantsTile x.part x.cmd x.input.length) with
    | some x => (gone s).modStaged x.cmd (fun y => { y with input := y.input ++ t.1.data })
    | none => s

/-- R360: complete tiles in staging go where they belong. -/
def State.pullTiles (s : State) (k : Nat) : State := ((Tab.get [] s.fab.stagedT k).foldl (fun s t => s.feed k t) s).progressAll

end Sys2Proof.Machine
end

