-- ==== Sys2Proof/Machine/Translation.lean ====
section
/-! DEFINITION. Walks, invalidations, held commands and held operations (R333 to R339), time budgets (R239). -/

namespace Sys2Proof.Machine

/-! Pages in use -/

/-- Page `page` of `space` lies in the range of a request (R339). -/
def InvReq.covers (r : InvReq) (space page : Nat) : Bool := r.space = space && r.page ≤ page && decide (page < r.page + r.npg)

/-- The addresses of a range, one in each page, that lie in the request's range. -/
def InvReq.meetsAll (r : InvReq) (o : Opd) : List Nat :=
  if r.space != o.space then [] else (o.pages.filter (fun pg => r.covers o.space pg)).map o.at

/-- The first of them. -/
def InvReq.meets (r : InvReq) (o : Opd) : Option Nat := (r.meetsAll o).head?

/-- The addresses that operation `o` uses: its fields, its operand block, its sequence's map and the pages it has pinned, or those of its
sequence's groups (R332). -/
def State.opOpds (s : State) (o : Op) : List Opd :=
  let p := o.part
  let d := s.desc p
  if opcodeOf o.cmd = 0x0F && o.loaded then []
  else
    namedOpds p d o.cmd ((s.blockOf p o.cmd).getD []) o.keys ++ s.mapOpds p o.cmd
      ++ (if opcodeOf o.cmd = 0x05 || opcodeOf o.cmd = 0x06 then
          o.pins.map (fun g => (⟨p, .compute, false, s.pinnedVa p g (layerOf o.cmd), d.pageSize⟩ : Opd))
        else s.poolOpds p o.cmd)

/-- The first address of each kind that an operation uses in the range: compute operands, then others. -/
def State.opMeets (s : State) (o : Op) (r : InvReq) : Option (OpdKind × Nat) :=
  let os := s.opOpds o
  match (os.filter (fun x => x.kind = .compute)).findSome? r.meets with
  | some va => some (.compute, va)
  | none => ((os.filter (fun x => x.kind != .compute)).findSome? r.meets).map (fun va => (.other, va))

/-- The memory addresses that a queued stream uses. -/
def State.entOpds (s : State) (n : Nat) (e : QEnt) : List Opd :=
  match e.work with
  | .sx v => (SDesc.ofBits v).memRuns (s.cluster n) e.part
  | _ => []

/-- Every stream in a cluster queue that uses the range, with the addresses, one in each page. -/
def State.streamsIn (s : State) (r : InvReq) : List (Nat × QEnt × List Nat) :=
  (s.clusters.flatMap (fun c => c.2.queue.map (fun e => (c.1, e, (s.entOpds c.1 e).flatMap r.meetsAll)))).filter (fun x => !x.2.2.isEmpty)

/-! Waiting misses (R334, R335) -/

/-- R334: staged commands whose walk is still to be asked for queue their miss, in order, while the partition's queue has room; free walkers
take misses. -/
def State.queueMisses (s : State) (p : Nat) : State :=
  ((s.hw.staged.filter (fun x => x.part = p && x.st = .rewalk)).foldl (fun s x => s.awaitWalk p x.cmd x.va) s).startWalks 16

/-- A ring that waited for its page, or whose records did, goes on. -/
def State.ringGoesOn (s : State) (n : Nat) : State :=
  let r := s.ring n
  if r.waits || !r.unwritten.isEmpty then (s.modRing n (fun r => { r with waits := false })).retryRecords n else s

/-- R333, R415: a page-table entry whose read met an error is hard for the command or the ring that waits for its walk. -/
def State.missFails (s : State) (space : Nat) (m : Miss) : State :=
  match s.hw.staged.find? (fun x => x.cmd.ring = m.ring && x.cmd.idx = m.idx && x.st = .rewalk) with
  | some x =>
    if (s.cmdOpds x.part x.cmd).any (fun o => o.kind = .compute && o.space = space && o.pages.contains m.page) then s.killFaulting x.part x.cmd x.va
    else s.haltCmd x.part x.cmd x.va
  | none => s.classP (s.ring m.ring).part.toNat 0x15 (m.page * 2 ^ 25)

/-- R333, R335: a staged command whose walk is done goes on with its translation; a ring that waited for its page goes on. -/
def State.judgeMiss (s : State) (m : Miss) : State :=
  match s.hw.staged.find? (fun x => x.cmd.ring = m.ring && x.cmd.idx = m.idx && x.st = .rewalk) with
  | some x => (s.modStaged x.cmd (fun x => { x with walked := if x.walked.contains m.page then x.walked else x.walked ++ [m.page] })).frontEnd x.part x.cmd
  | none => s.ringGoesOn m.ring

/-- R339: the longest wait for a walk, in units of 16 ticks. -/
def State.walkWait (s : State) (ms : List Miss) : State :=
  let w := maxOf (ms.map (fun m => (s.clk.tick - m.tick).toNat / 16))
  s.modTr (fun t => { t with walkMax := BitVec.ofNat 16 (Nat.min 0xFFFF (Nat.max t.walkMax.toNat w)) })

/-- The page that a walker looks for. -/
def Walker.page (w : Walker) : Nat := ((w.misses.head?).map Miss.page).getD 0

/-- R334, R335: walk `w` has ended: its page enters its TLB where the walk found a leaf, every miss that it served goes on. -/
def State.walkEnds (s : State) (w : Walker) : State :=
  let s := (s.modTr (fun t => { t with walkers := t.walkers.erase w })).walkWait w.misses
  if w.bad then w.misses.foldl (fun s m => s.missFails w.space m) s
  else w.misses.foldl State.judgeMiss (s.tlbTouch w.space (w.page * 2 ^ 25))

/-- R334, R335: the earliest walk of partition `p` (16: the global space) whose reads have returned ends, and the walker takes the next miss in
turn. -/
def execWalkDone (p : Fin 17) (s : State) : Res :=
  .next (match s.tr.walkers.find? (fun w => w.space = p.val && !s.flying (fun r => r.ofWalk p.val w.page)), s.fast with
    | some w, true => ((s.walkEnds w).queueMisses p.val).startWalks 16
    | _, _ => s)

/-! Customer images (R237, R332, R333) -/

/-- R317: the image table's entry for a customer image, where it is present. -/
def CfgSet.imageVa (cs : CfgSet) (c : Cmd) : Option Nat :=
  let w := cs.read (0x1000 + 8 * (imageOf c - 32))
  if 32 ≤ imageOf c && bit w 63 then some (bits w 0 52) else none

/-- R237: bytes of the image whose header stands at `a`; only the header where a length is out of range. -/
def State.imageBytes (s : State) (a : Nat) : Nat :=
  let code := s.vaNat 16 (a + 8) 4
  let data := s.vaNat 16 (a + 16) 4
  if 16384 < code || 126976 < data then 64 else 64 + 8 * code + data

/-- R333: the pages of an image. -/
def State.judgeImage (s : State) (a : Nat) : Verdict :=
  match s.judgeStruct 16 false a 64 with
  | .ok => s.judgeStruct 16 false a (s.imageBytes a)
  | v => v

/-- R333, R411: a hard fault on an image is of class P for its partition; the command completes as R415 states (log entry 32). -/
def State.imageFault (s : State) (p : Nat) (c : Cmd) (a : Nat) : State :=
  (s.classP p 0x15 a).finish p c (Compl.plain 0x22 0x0A)

/-- A RUN_PROGRAM waits for a held page of its image. -/
def State.imageWaits (s : State) (c : Cmd) : Option Nat :=
  if opcodeOf c != 0x0F then none else (s.cfg.active.imageVa c).filter (fun a => s.judgeImage a = .held)

/-- R282, R333: the record in Oxbow that a command of the backlog waits for: its own, or that of the context that would make room for it. -/
def State.oxbowWaits (s : State) (p : Nat) (c : Cmd) : Option Nat :=
  let held (w : Bool) (a : Nat) : Option Nat := if s.hw.oxbow.isSome && s.judgeStruct 16 w a 256 = .held then some a else none
  (if (s.seq p (sqidOf c)).st = .spilled then held false (s.oxbowVa p (sqidOf c)) else none)
    <|> (if s.resident < Config.contexts then none
      else (s.victimPart p).bind (fun vp => (s.ctxVictim vp (seqKey p (sqidOf c))).bind (fun q => held true (s.oxbowVa vp q))))

/-- R299, R333: the backlog's page is held. -/
def State.backlogWaits (s : State) (p : Nat) : Option Nat :=
  s.hw.backlogBase.bind (fun b =>
    let a := bits b 20 32 * 2 ^ 20 + p * 0x10000
    if !(s.backlog p).isEmpty && s.judgeStruct 16 true a (16 * (s.backlog p).length) = .held then some a else none)

/-- R333, R337: the resume ring of `p` waits for its page. -/
def State.resumeWaits (s : State) (p : Nat) : Option Nat :=
  let t := s.ptReg p
  let a := bits t.rring 11 41 * 2048 + 32 * (t.rringTail.toNat % 64)
  if !t.rringWait.isEmpty && (t.rringTail - t.rringHead).toNat < 64 && s.judgeStruct p true a 32 = .held then some a else none

/-- R175, R333, R337: a command has waited 2^20 ticks for a page: it is treated as a hard fault on an other operand, and where its partition
may hold no more operations its stall ends it (log entry 131). -/
def State.heldTooLong (s : State) (x : Staged) : State :=
  if s.heldFull x.part then s.finish x.part x.cmd (Compl.plain 0x22 0x08) else s.haltCmd x.part x.cmd x.va

/-- R333: a held command, a ring that waits for its page or a record's, or the structure that a command of the backlog or a partition's resume
ring waits for, has waited 2^20 ticks: the fault becomes hard. -/
def execHeldTimeout (ring : BitVec 14) (idx : W32) (s : State) : Res :=
  .next (
    let n := ring.toNat
    if !s.fast then s
    else match s.hw.staged.find? (fun x => x.cmd.ring = n && x.cmd.idx = idx) with
    | some x =>
      if x.st = .heldPage then s.heldTooLong x
      else if x.st = .backlog then
        match s.oxbowWaits x.part x.cmd <|> s.backlogWaits x.part with
        | some a => s.classP x.part 0x15 a
        | none => s
      else match s.imageWaits x.cmd with
        | some a => s.imageFault x.part x.cmd a
        | none => s
    | none =>
      let r := s.ring n
      if r.waits && r.fetched = idx then (s.setRing n { r with waits := false }).classP r.part.toNat 0x15 (r.base.toNat + 64 * (idx.toNat % r.n))
      else if r.unwritten.any (fun u => u.1 = idx) then
        (s.setRing n { r with unwritten := r.unwritten.filter (fun u => u.1 != idx) }).classP r.part.toNat 0x15 (r.cbase.toNat + 32 * (idx.toNat % r.n))
      else match s.resumeWaits r.part.toNat with
        | some a => (s.modPt r.part.toNat (fun t => { t with rringWait := t.rringWait.drop 1 })).classP r.part.toNat 0x15 a
        | none => s)

/-! Held operations (R337) -/

/-- The pairs that a held operation keeps go on. -/
def State.pairsGoOn (s : State) (opid : W32) : State :=
  (List.range 8).foldl (fun s k => if (s.pair k).op = some opid && (s.pair k).st = .heldDma then s.modPair k (fun y => { y with st := if y.swait.isSome then .waitSig else .running }) else s) s

/-- Streams of an operation lose the mark of a pause. -/
def State.clearHolds (s : State) (opid : W32) : State :=
  { s with clusters := s.clusters.map (fun (c : Nat × Cluster) => (c.1, { c.2 with queue := c.2.queue.map (fun e => if e.opid = opid then { e with hold := [] } else e) })) }

/-- A held ADMIT that resumes takes effect where a slot is found; where none is, it stays held (log entry 131). -/
def State.resumeAdmit (s : State) (o : Op) : State :=
  let p := o.part
  let q := sqidOf o.cmd
  match s.seqCheck p o.cmd with
  | some x => s.endOp o.opid x.status x.detail x.result
  | none =>
    if s.linkFull || (s.pool p).fstate != .normal then s
    else
      match s.obtainSlot p (seqKey p q) with
      | (false, s) => s
      | (true, s) =>
        let (reused, s) := s.admitMap p o.cmd
        (s.touchSeq p q o.opid o.cmd.ring).endOp o.opid 0 0 (res20 reused)

/-- R337: a held operation re-enters admission at the Weir step and continues from its saved position. -/
def State.resumeOp (s : State) (o : Op) : State :=
  if !bit (s.ptReg o.part).rring 63 then s.note 0x0F (some o.part) true 0 0xFF o.opid (0x100000 + o.part * 0x40000 + 0x300) o.opid.toNat
  else
    match s.judgeOpd ⟨o.part, .other, false, o.faultVa, 1⟩ with
    | (.ok, _) =>
      if opcodeOf o.cmd = 0x01 then s.resumeAdmit o
      else
      let s := ((s.setOp { o with st := .running, hold := [] }).clearHolds o.opid).pairsGoOn o.opid
      if s.swapPause || !usesClusters o.cmd then s
      else (s.share o.opid).askSegs o (o.open.filter (fun x => !s.readingSeg o.opid x.1 x.2))
    | _ => s

/-- The held operation of partition `p` that OPID names. -/
def State.heldOp (s : State) (p : Nat) (opid : W32) : Option Op := s.hw.ops.find? (fun o => o.part = p && o.opid = opid && o.st = .held)

/-- R337: a held operation is released with no further record; what it held goes with it. -/
def State.releaseHeld (s : State) (o : Op) : State :=
  let cut (c : Cluster) : Cluster := { c with queue := c.queue.filter (fun e => e.opid != o.opid), sb := c.sb.filter (fun b => c.queue.all (fun e => e.tag != b.tag || e.opid != o.opid)) }
  ({ s with clusters := s.clusters.map (fun (c : Nat × Cluster) => (c.1, cut c.2)) }).freeOp o

/-- R337, R348: a write of `PT_RESUME`: `ACT` 0 resumes the held operation that it names, 1 releases it; one that names none is ignored. -/
def State.writeResume (s : State) (p : Nat) (v : W64) : State :=
  match s.heldOp p (v.setWidth 32) with
  | some o =>
    let s := s.modPt p (fun t => { t with resume := v &&& 0x1FFFFFFFF })
    if bit v 32 then s.releaseHeld o else s.resumeOp o
  | none => s.note 0x0F (some p) true 0 0xFF 0 (0x100000 + p * 0x40000 + 0x300) v.toNat

/-! Invalidation (R336) -/

/-- R336: TLB entries in the range are dropped. -/
def State.dropTlb (s : State) (r : InvReq) : State :=
  s.modTr (fun t => { t with tlbs := Tab.mapAll [] (fun l => l.filter (fun x => !r.covers x.space x.page)) t.tlbs })

/-- R336: a staged command with a translation in the range walks again. -/
def State.unstageTranslations (s : State) (r : InvReq) : State :=
  let hit (x : Staged) : Option Nat := (s.cmdOpds x.part x.cmd).findSome? r.meets
  let st (x : Staged) : Staged :=
    let x := { x with walked := x.walked.filter (fun pg => !r.covers x.part pg) }
    if x.st = .ready || x.st = .restoring then (match hit x with
      | some va => { x with st := .rewalk, va := va }
      | none => x) else x
  (s.modHw (fun h => { h with staged := h.staged.map st })).queueMisses r.space

/-- R336: UNMAP: translations in use become faults. -/
def State.carryUnmap (s : State) (r : InvReq) : State :=
  let s := (s.streamsIn r).foldl (fun s x => s.entryFault x.1 x.2.1 0x30 0 (resVa (x.2.2.headD 0))) s
  (s.hw.ops.map (fun o => o.opid)).foldl (fun s i =>
    match s.op i with
    | none => s
    | some o =>
      match s.opMeets o r with
      | some (.other, va) => s.haltOp i va
      | some (_, va) => if opcodeOf o.cmd = 0x0F then s.stopOp i 0x30 0 (resVa va) else s.kill o.part (sqidOf o.cmd) va
      | none => s) s

/-- Addresses join those at which HOLD paused, one for each page. -/
def joinHolds (old new : List Nat) : List Nat := old ++ (new.filter (fun va => !old.any (fun x => x / 2 ^ 25 = va / 2 ^ 25)))

/-- R336: HOLD: streams and operations that use the range pause, at every page of it that they use. -/
def State.carryHold (s : State) (r : InvReq) : State :=
  let s := (s.streamsIn r).foldl (fun s x => s.modCluster x.1 (fun c => c.modEnt x.2.1.tag (fun e => { e with hold := joinHolds e.hold x.2.2 }))) s
  let mark (o : Op) : Op :=
    if o.st = .held || opcodeOf o.cmd = 0x0F then o else { o with hold := joinHolds o.hold ((s.opOpds o).flatMap r.meetsAll) }
  s.modHw (fun h => { h with ops := h.ops.map mark })

/-- R336, R337: a paused operation walks again. -/
def State.rewalkOp (s : State) (o : Op) (va : Nat) : State :=
  let k := if ((s.opOpds o).filter (fun x => x.kind = .compute)).any (fun x => x.va ≤ va && va < x.va + x.len) then OpdKind.compute else OpdKind.other
  match s.judgeOpd ⟨o.part, k, false, va, 1⟩ with
  | (.ok, _) => s.setOp { o with hold := o.hold.filter (· != va) }
  | (.held, _) => s
  | (.hard, va) => if k = .compute then s.kill o.part (sqidOf o.cmd) va else s.haltOp o.opid va

/-- R336: a paused stream walks again, and holds what it finds. -/
def State.rewalkStream (s : State) (n : Nat) (e : QEnt) (va : Nat) : State :=
  match s.judgeOpd ⟨e.part, .compute, false, va, 1⟩ with
  | (.ok, _) =>
    let again (xl : List TlbEnt) : List TlbEnt :=
      s.withXl (xl.filter (fun x => x.page != va / 2 ^ 25)) e.part (if xl.any (fun x => x.page = va / 2 ^ 25) then [(va, 1)] else [])
    s.modCluster n (fun c => c.modEnt e.tag (fun x => { x with hold := x.hold.filter (· != va), xl := again x.xl }))
  | (.held, _) => s
  | (.hard, va) => s.entryFault n e 0x30 0 (resVa va)

/-- R333, R334: a ring that waits for a page walks again; where its miss finds no room it does so at once. -/
def State.rewalkRing (s : State) (n : Nat) : State :=
  let r := s.ring n
  let m : Miss := ⟨(r.base.toNat + 64 * (r.fetched.toNat % r.n)) / 2 ^ 25, n, r.fetched, s.clk.tick⟩
  let s' := (s.queueMiss r.space m).startWalks 16
  if s'.tr = s.tr then s.ringGoesOn n else s'

/-- R333, R336, R337: RESOLVE: paused streams, held commands and waiting structures walk again; held operations may resume. -/
def State.carryResolve (s : State) (r : InvReq) : State :=
  let inR (p va : Nat) : Bool := r.covers p (va / 2 ^ 25)
  let s := (s.clusters.flatMap (fun c => c.2.queue.flatMap (fun e => (e.hold.filter (inR e.part)).map (fun va => (c.1, e, va))))).foldl
    (fun s x => s.rewalkStream x.1 x.2.1 x.2.2) s
  let s := (s.hw.ops.flatMap (fun o => (o.hold.filter (inR o.part)).map (fun va => (o.opid, va)))).foldl
    (fun s x => match s.op x.1 with
      | some o => s.rewalkOp o x.2
      | none => s) s
  let again (x : Staged) : Staged := if x.st = .heldPage && inR x.part x.va then { x with st := .rewalk, walked := x.walked.filter (· != x.va / 2 ^ 25) } else x
  let s := s.modHw (fun h => { h with staged := h.staged.map again })
  let s := s.queueMisses r.space
  let s := ((s.hw.rings.filter (fun x => x.2.space = r.space && (x.2.waits || !x.2.unwritten.isEmpty))).map Prod.fst).foldl State.rewalkRing s
  let s := if r.space < 16 then s.retryResume r.space else (List.range 16).foldl (fun s p => s.setBacklog p (s.backlog p)) s
  (s.hw.ops.filter (fun o => o.st = .held && inR o.part o.faultVa && s.cfg.active.autoResume o.part)).foldl (fun s o => s.resumeOp o) s

/-- R336: a request at the head of the queue is carried out. -/
def State.carryOut (s : State) (r : InvReq) : State :=
  match r.kind.toNat with
  | 0 => ((s.dropTlb r).unstageTranslations r).carryUnmap r
  | 1 => ((s.dropTlb r).unstageTranslations r).carryHold r
  | _ => s.carryResolve r

/-- R339: the request that a write of `TR_INV` makes. -/
def invOf (v : W64) : InvReq := ⟨v.extractLsb' 60 2, if bit v 62 then 16 else bits v 56 4, bits v 25 27, bits v 0 25 + 1⟩

/-- R336, R339: a write of `TR_INV`. -/
def State.writeInv (s : State) (v : W64) : State :=
  let t := s.tr
  if Config.invMax ≤ t.invQ.length then s.modTr (fun t => { t with invOvf := true })
  else
    let v := setBits (setBits v 63 1 0) 52 4 0
    if bits v 60 2 = 3 then s.modTr (fun t => { t with invWord := v })
    else
      let r := invOf v
      let s := s.modTr (fun t => { t with invWord := v, invQ := t.invQ ++ [r], invIssued := t.invIssued + 1 })
      if t.invQ.isEmpty then s.carryOut r else s

/-- R336: a request is outstanding to the range at some port. -/
def State.outstanding (s : State) (r : InvReq) : Bool :=
  let hit (q : Req) : Bool := r.covers q.part (q.va / 2 ^ 25)
  s.ports.any (fun p => p.2.waiting.any hit || p.2.reads.any (fun x => x.2.any hit) || p.2.writes.any (fun x => x.2.any hit))

/-- R336: every engine has acknowledged the request at the head; the next is carried out. -/
def execInvalidationDone (s : State) : Res :=
  .next (match s.tr.invQ, s.fast with
    | r :: rs, true =>
      if r.kind != 2 && s.outstanding r then s
      else
        let s := s.modTr (fun t => { t with invQ := rs, invDone := t.invDone + 1 })
        match rs with
        | next :: _ => s.carryOut next
        | [] => s
    | _, _ => s)

/-- The address at which an operation, or a stream of it, is paused. -/
def State.pausedAt (s : State) (o : Op) : Option Nat :=
  match o.hold with
  | va :: _ => some va
  | [] => s.clusters.findSome? (fun c => c.2.queue.findSome? (fun e => if e.opid = o.opid then e.hold.head? else none))

/-- R337: a pause under HOLD has lasted more than 2^16 ticks: the operation halts. -/
def execHoldTimeout (opid : W32) (s : State) : Res :=
  .next (match s.op opid, s.fast with
    | some o, true =>
      match s.pausedAt o with
      | some va => s.haltOp opid va
      | none => s
    | _, _ => s)

/-! Budgets (R239) -/

/-- R231, R232: the budget exception in pair `sp`, which runs a built-in program: the index of its instruction is a free value. -/
def State.builtinBudget (s : State) (o : Op) (sp : Nat) : State :=
  let x := s.pair sp
  let (k, s) := s.draw
  let pc := Config.freePick k % 16384
  let s := if bit x.exc 63 then s else s.setPair sp { x with exc := excWord 0x0D x.bankNo pc o.opid.toNat }
  s.note 0x03 (some o.part) false 2 (BitVec.ofNat 8 (0x40 + sp)) o.opid (0x0D + 2 ^ 8 * x.bankNo + 2 ^ 9 * pc) 0

/-- R239, R232, R337: the time budget of an operation expires; a held one is released with a record. -/
def State.expire (s : State) (o : Op) : State :=
  if o.st = .held then s.endOp o.opid 0x22 0x0C 0
  else if opcodeOf o.cmd = 0x02 then
    (s.modSeq o.part (sqidOf o.cmd) (fun x => if x.st = .releasing then { x with st := .active } else x)).endOp o.opid 0x22 0x0C 0
  else
    let prog := opcodeOf o.cmd = 0x0F
    match pairsOf o.clusters with
    | [] => if prog then s.stopOp o.opid 0x22 0x8D 0 else s.endOp o.opid 0x22 0x0C 0
    | sp :: sps =>
      if prog then
        let x := s.pair sp
        ((sp :: sps).foldl (fun s k => s.markExc k 0x0D (s.pair k).pc.toNat) s).stopOp o.opid 0x22 0x8D (excResult x sp x.pc.toNat)
      else
        let pc := Config.freePick s.freeCtr % 16384
        ((sp :: sps).foldl (fun s k => s.builtinBudget o k) s).endOp o.opid 0xF0 0x8D (excResult (s.pair sp) sp pc)

/-- R239: an operation's time budget expires. -/
def execBudgetExpiry (opid : W32) (s : State) : Res :=
  .next (match s.op opid, s.creditable with
    | some o, true => s.expire o
    | _, _ => s)

end Sys2Proof.Machine
end

