-- ==== Sys2Proof/Machine/Meter.lean ====
section
/-! DEFINITION. The sealed metering unit (R389 to R409): the event link, tamper events, seals, reports, the meter port, readouts and
the stored copies; and the block's side of the link. Every row of this file needs option M. -/

namespace Sys2Proof.Machine

/-- The meter runs: option M is fitted and its island is powered (R389). -/
def State.meterOn (s : State) : Bool := s.part.optM && s.link.powered

def Smu.count (m : Smu) (p q : Nat) : W64 := Tab.get 0 m.counts (p * 16 + q)

/-- R396: a count rises and wraps modulo 2^64. -/
def Smu.addCount (m : Smu) (p q n : Nat) : Smu :=
  { m with counts := Tab.set 0 m.counts (p * 16 + q) (m.count p q + BitVec.ofNat 64 n) }

/-- R395, R396: a tamper event: `SMU_TAMPER`, and q 11 of all 16 partitions. -/
def Smu.tamperEvent (m : Smu) : Smu :=
  { (List.range 16).foldl (fun m p => Smu.addCount m p 11 1) m with tamper := bump m.tamper }

/-- R397: q 6 counts whole mJ of µJ and q 10 whole cluster-µs of ticks; the residue is carried. -/
def unitOf (q : Nat) : Nat := if q = 6 then 1000 else if q = 10 then 100 else 1

/-- R396, R397: an increment is applied. -/
def Smu.apply (m : Smu) (p q inc : Nat) : Smu :=
  if 12 ≤ q then m
  else
    let t := Tab.get 0 m.residue (p * 16 + q) + inc
    { m.addCount p q (t / unitOf q) with residue := Tab.set 0 m.residue (p * 16 + q) (t % unitOf q) }

/-- R409, R394: a gap. -/
def Smu.gap (m : Smu) : Smu := { m with gaps := bump m.gaps, gapFlags := 0xFFFF }

/-- The key of later readouts and seals: that of the highest programmed slot, or the transport key (R398). -/
def Smu.key (m : Smu) : BitVec 256 := (m.seals.getLast?.map (fun x => x.key)).getD m.transportKey

/-- R398: the active slot, or 0xF when unsealed. -/
def Smu.slotNo (m : Smu) : Nat := if m.seals.isEmpty then 15 else m.seals.length - 1

/-! Reports (R402, R403) -/

/-- R403: the 28 bytes of a report. -/
def reportBytes (r : MReport) : List Byte :=
  let b := [r.kind, r.slot.setWidth 8] ++ leBytes 2 r.rnum.toNat ++ leBytes 2 r.waddr.toNat ++ [0, 0] ++ leBytes 4 r.value.toNat
    ++ leBytes 4 0 ++ leBytes 8 r.stime.toNat
  b ++ leBytes 4 (crc32c b).toNat

/-- A report is numbered, sent on `MEV_SEAL` and held until it is acknowledged. -/
def State.sendReport (s : State) (kind : Byte) (slot : Nat) (waddr : W16) (value : W32) : State :=
  let r : MReport := ⟨kind, BitVec.ofNat 3 slot, s.smu.rnum, waddr, value, s.smu.time⟩
  let s := s.modSmu (fun m => { m with reports := m.reports ++ [r], rnum := m.rnum + 1 })
  s.modOut (fun o => { o with mevSeal := o.mevSeal ++ [r] })

/-- R402: the reports of programmed slots whose `LOGGED` fuse is not burnt are sent again; one that is not held any more is made anew. -/
def State.resendSeals (s : State) : State :=
  s.smu.seals.zipIdx.foldl (fun s x =>
    if x.1.logged then s
    else match s.smu.reports.find? (fun r => r.kind = 1 && r.slot.toNat = x.2) with
      | some r => s.modOut (fun o => { o with mevSeal := o.mevSeal ++ [r] })
      | none => s.sendReport 1 x.2 0 x.1.ident) s

/-! The event link (R391 to R395) -/

/-- An event reaches the meter: one whose CRC fails is dropped and is a tamper event, as is one out of order, which is applied (R395). -/
def State.received (s : State) (e : LinkEv) (f : Smu → Smu) : State :=
  let s := s.modLink (fun l => { l with wire := l.wire.tail })
  if e.crc != linkCrc e.seq e.part e.q e.inc then s.modSmu Smu.tamperEvent
  else
    let late := s.smu.lastSeq.any (fun q => e.seq != q + 1)
    let m := if late && e.q != 0xF then s.smu.tamperEvent else s.smu
    { s with smu := { f m with lastSeq := if e.q = 0xF then none else some e.seq } }

/-- R395, R396: the meter receives an event of a quantity. -/
def execLinkEvent (e : LinkEv) (s : State) : Res :=
  .next (if s.meterOn && decide (e.q.toNat < 14) then s.received e (fun m => m.apply e.part.toNat e.q.toNat e.inc.toNat) else s)

/-- R394, R402: the meter receives a RESTART event: a gap, and no tamper event. -/
def execRestart (e : LinkEv) (s : State) : Res :=
  .next (
    if s.meterOn && e.q = 0xF then
      let s := s.received e Smu.gap
      if e.crc = linkCrc e.seq e.part e.q e.inc then s.resendSeals else s
    else s)

/-- R402, R403: a report is acknowledged; `LOGGED` of a SEAL report's slot is burnt. -/
def Smu.acked (m : Smu) (rnum : W16) : Smu :=
  match m.reports.find? (fun r => r.rnum = rnum) with
  | none => m
  | some r =>
    let seals := if r.kind = 1 then m.seals.zipIdx.map (fun (x : SealSlot × Nat) => if x.2 = r.slot.toNat then { x.1 with logged := true } else x.1) else m.seals
    { m with reports := m.reports.filter (fun x => x.rnum != rnum), seals := seals }

/-- R402, R403: the meter receives an acknowledgement of a report. -/
def execReportAck (e : LinkEv) (s : State) : Res :=
  .next (if s.meterOn && e.q = 0xE then s.received e (fun m => m.acked (e.inc.setWidth 16)) else s)

/-- R393: `MEV_HOLD` changes; when it falls, buffered events leave in order. -/
def execMevHold (b : Bool) (s : State) : Res :=
  .next (if s.part.optM then s.modLink (fun l => { l with hold := b }.resume) else s)

/-- R393, R438, R457: the meter's island loses its power. -/
def execMeterIslandUnpowered (s : State) : Res :=
  .next (
    if !s.meterOn then s
    else
      let s := (s.modLink (fun l => { l with powered := false })).modBoot (fun b => { b with meterOut := true })
      (s.note 0x12 none false 0 0xFF 0 0 s.link.buffer.length).event 0x21 0 none 0 [(0, 1, 0)])

/-- R396 q 5: the groups of a partition with REFCNT of at least 1 in state OPEN, FULL or EVICTING. -/
def State.residentGroups (s : State) (p : Nat) : Nat :=
  ((s.pool p).recs.filter (fun r => decide (1 ≤ r.2.refcnt) && (r.2.st = .opened || r.2.st = .full || r.2.st = .evicting))).length

/-- R396 q 5: every 10^8 ticks. -/
def execResidencySample (s : State) : Res :=
  .next (if s.on then (List.range 16).foldl (fun s p => s.meterEvent p 5 (s.residentGroups p)) s else s)

/-! The block's side of `MEV_SEAL` (R402, R403, R433) -/

/-- The fields of 28 received bytes, where their CRC passes. -/
def reportOf (b : BitVec 224) : Option MReport :=
  let body := leBytes 24 b.toNat
  if crc32c body != BitVec.ofNat 32 (bits b 192 32) then none
  else some ⟨b.extractLsb' 0 8, b.extractLsb' 8 3, b.extractLsb' 16 16, b.extractLsb' 32 16, b.extractLsb' 64 32, b.extractLsb' 128 64⟩

/-- R392, R403: an acknowledgement event. -/
def State.ackReport (s : State) (rnum : W16) : State := s.modLink (fun l => l.push 0 14 rnum.toNat)

/-- R402, R433, R434: a SEAL report is accepted: its record stands before the queue; a slot already recorded is acknowledged at once. -/
def State.acceptSeal (s : State) (r : MReport) : State :=
  if s.recorder.nodev then s
  else if Tab.get (BitVec.allOnes 512) s.recorder.permanent (4096 + r.slot.toNat) != BitVec.allOnes 512 then s.ackReport r.rnum
  else
    let d := recData [(0, 1, r.slot.toNat), (4, 4, r.value.toNat), (8, 8, r.stime.toNat)]
    let e : Nat × Rec × W16 := (r.slot.toNat, s.stamped 0x30 0 none 0 d, r.rnum)
    s.modRecorder (fun x => { x with seals := x.seals.filter (fun y => y.1 != r.slot.toNat) ++ [e] })

/-- A SEAL report arrives on `MEV_SEAL`. -/
def execSealReport (b : BitVec 224) (s : State) : Res :=
  .next (match reportOf b, s.on && s.meterOn && !s.linkFull with
    | some r, true => if r.kind = 1 then s.acceptSeal r else s
    | _, _ => s)

/-- R403, R433, R434: a LOCK report is recorded and acknowledged. -/
def State.acceptLock (s : State) (r : MReport) : State :=
  let s := s.note 0x01 none false 0 0xC0 0 r.waddr.toNat r.value.toNat
  let s := if s.recorder.lockRecs < 16 then
      (s.modRecorder (fun x => { x with lockRecs := x.lockRecs + 1 })).event 0x20 0 none 0 [(0, 4, r.waddr.toNat), (4, 1, 0x11)]
    else s
  s.ackReport r.rnum

/-- A LOCK report arrives on `MEV_SEAL`. -/
def execLockReport (b : BitVec 224) (s : State) : Res :=
  .next (match reportOf b, s.on && s.meterOn && !s.linkFull with
    | some r, true => if r.kind = 2 then s.acceptLock r else s
    | _, _ => s)

/-- R403: every second, an unacknowledged SEAL report is sent again. -/
def execSealReportResend (s : State) : Res :=
  .next (
    if s.meterOn then s.modOut (fun o => { o with mevSeal := o.mevSeal ++ s.smu.reports.filter (fun r => r.kind = 1) })
    else s)

/-- R395: the glitch detector of the island trips. -/
def execGlitchTrip (s : State) : Res := .next (if s.meterOn then s.modSmu Smu.tamperEvent else s)

/-! Stored copies and power-up (R408, R409) -/

/-- R408: a copy of the live state. -/
def Smu.copyOf (m : Smu) : MeterCopy :=
  { pseq := m.pseq + 1, tamper := m.tamper, time := m.time, gaps := m.gaps, roSeq := m.roSeq, seq := m.lastSeq.getD 0,
    counts := m.counts, valid := true }

/-- R408: a copy is written, to A and B in turn. -/
def Smu.persist (m : Smu) : Smu :=
  let c := m.copyOf
  if m.nextB then { m with copyB := some c, nextB := false, pseq := c.pseq } else { m with copyA := some c, nextB := true, pseq := c.pseq }

/-- Every 16 time units. -/
def execMeterPersist (s : State) : Res := .next (if s.meterOn then s.modSmu Smu.persist else s)

/-- A copy whose CRC passes. -/
def goodCopy (c : Option MeterCopy) : Option MeterCopy := c.filter (fun c => c.valid)

/-- R409: the valid copy with the higher `PSEQ`, modulo 2^32; with it, whether it is copy B. -/
def Smu.newest (m : Smu) : Option (MeterCopy × Bool) :=
  match goodCopy m.copyA, goodCopy m.copyB with
  | none, none => none
  | some a, none => some (a, false)
  | none, some b => some (b, true)
  | some a, some b => if (b.pseq - a.pseq).toNat < 2 ^ 31 then some (b, true) else some (a, false)

/-- R406: the registers that a power-on reset clears; fuses and stored copies stand. -/
def Smu.cleared (m : Smu) : Smu :=
  { Smu.reset with serial := m.serial, transportKey := m.transportKey, seals := m.seals, copyA := m.copyA, copyB := m.copyB }

/-- R409: what a power-up restores. -/
def Smu.powerUp (m : Smu) : Smu :=
  match m.newest with
  | some (c, isB) =>
    Smu.gap { m.cleared with counts := c.counts, tamper := c.tamper, time := c.time, gaps := c.gaps, roSeq := c.roSeq, pseq := c.pseq,
                             lastSeq := some c.seq, nextB := !isB }
  | none => (Smu.gap { m.cleared with nocopy := true }).tamperEvent

/-- R409, R402, R393: `SMU_POR_N` resets the meter; a link outage that stands ends. -/
def execSmuPor (s : State) : Res :=
  .next (
    if !s.part.optM then s
    else
      let s := (s.modSmu Smu.powerUp).resendSeals
      if s.link.powered then s
      else
        let s := (s.modBoot (fun b => { b with meterOut := false })).note 0x12 none false 0 0xFF 0 1 s.link.buffer.length
        (s.event 0x21 0 none 0 [(0, 1, 1)]).modLink (fun l => { l with powered := true }.resume))

/-! The meter port (R404 to R406) -/

/-- The frame's response; the latch serves only a read that follows at once (R405). -/
def State.respond (s : State) (status : Byte) (data : W32) (read : Option Nat) : State :=
  (s.modSmu (fun m => { m with lastRead := read })).modOut (fun o => { o with meter := o.meter ++ [(status, data)] })

/-- R406: `SMU_STATUS`. -/
def State.smuStatus (s : State) : W32 :=
  let m := s.smu
  BitVec.ofNat 32 (m.frameErr.toNat * 2 ^ 24 + m.slotNo * 2 ^ 16 + (2 ^ m.seals.length - 1) * 2 ^ 8
    + (if m.sealBusy then 128 else 0) + m.sealErr.toNat * 16 + (if s.link.hold then 8 else 0) + (if m.nocopy then 4 else 0)
    + (if m.roBusy then 2 else 0) + (if m.seals.any (fun x => !x.logged) then 1 else 0))

/-- The 64-bit registers of R406, by the address of their low halves. -/
def Smu.wide (m : Smu) (a : Nat) : Option W64 :=
  if a = 0 then some m.serial
  else if a = 6 then some m.time
  else if a = 8 then some m.nonce
  else if 0x1000 ≤ a ∧ a < 0x1200 ∧ a % 2 = 0 ∧ a % 32 < 24 then some (m.count ((a - 0x1000) / 32) (a % 32 / 2))
  else none

/-- The 32-bit registers of R406. -/
def State.narrow (s : State) (a : Nat) : Option W32 :=
  let m := s.smu
  if a = 2 then some s.smuStatus
  else if a = 3 then some (BitVec.ofNat 32 ((if m.sealGo then 2 ^ 31 else 0) + m.sealSlot.toNat))
  else if a = 4 then some m.tamper
  else if a = 5 then some m.gaps
  else if a = 0xA then some (BitVec.ofNat 32 ((if m.roBusy then 2 ^ 31 else 0) + m.roPart.toNat))
  else if 0x10 ≤ a ∧ a ≤ 0x1A then some 0
  else if 0x40 ≤ a ∧ a ≤ 0x63 then some (BitVec.ofNat 32 (bits m.buffer (32 * (a - 0x40)) 32))
  else none

/-- R405, R406: what a read of word `a` does. -/
def State.portRead (s : State) (a : Nat) : State :=
  match s.smu.wide a with
  | some v => (s.modSmu (fun m => { m with latch := v.extractLsb' 32 32 })).respond 0 (v.setWidth 32) (some a)
  | none =>
    match s.narrow a, (if a % 2 = 1 then s.smu.wide (a - 1) else none) with
    | some w, _ => s.respond 0 w none
    | none, some v => s.respond 0 (if s.smu.lastRead = some (a - 1) then s.smu.latch else v.extractLsb' 32 32) none
    | none, none => s.respond 2 0 none

/-- A READ frame. -/
def execMeterRead (addr : W16) (s : State) : Res := .next (if s.meterOn then s.portRead addr.toNat else s)

/-- R404: a frame whose CRC or opcode is bad. -/
def execFrameCrcOrOpcodeBad (s : State) : Res :=
  .next (if s.meterOn then (s.modSmu (fun m => { m with frameErr := bump m.frameErr })).respond 1 0 none else s)

/-- R406: the registers that a WRITE frame can change, but for `SMU_SEAL` and `SMU_RO_CTL`. -/
def Smu.write (m : Smu) (a : Nat) (v : W32) : Smu :=
  if a = 8 then { m with nonce := setBits m.nonce 0 32 v.toNat }
  else if a = 9 then { m with nonce := setBits m.nonce 32 32 v.toNat }
  else if 0x10 ≤ a ∧ a ≤ 0x1A then { m with staging := Tab.set 0 m.staging (a - 0x10) v }
  else m

/-- Word `a` is a register of the map (R406). -/
def State.meterWord (s : State) (a : Nat) : Bool :=
  (s.smu.wide a).isSome || (s.narrow a).isSome || (a % 2 = 1 && (s.smu.wide (a - 1)).isSome)

/-- A WRITE frame to a register without its own row. -/
def execMeterWrite (addr : W16) (v : W32) (s : State) : Res :=
  .next (
    if !s.meterOn || addr = 3 || addr = 0xA then s
    else if s.meterWord addr.toNat then (s.modSmu (fun m => m.write addr.toNat v)).respond 0 0 none
    else s.respond 2 0 none)

/-! Seals (R398 to R402) -/

def Smu.stage (m : Smu) (k : Nat) : W32 := Tab.get 0 m.staging k

/-- R400: the staged key, `SMU_STAGE0` lowest. -/
def Smu.stagedKey (m : Smu) : BitVec 256 := BitVec.ofNat 256 (leNat ((List.range 8).flatMap (fun k => leBytes 4 (m.stage k).toNat)))

/-- R400: the authorisation code of a seal of slot `k`. -/
def Smu.sealCode (m : Smu) (k : Nat) : List Byte :=
  (hmac (leBytes 32 m.key.toNat) (leBytes 32 m.stagedKey.toNat ++ leBytes 4 (m.stage 8).toNat ++ [BitVec.ofNat 8 k] ++ leBytes 8 m.serial.toNat)).take 8

/-- R401: why an attempt to seal slot `k` is refused; 0 where it is not. -/
def Smu.refusal (m : Smu) (k : Nat) : Nat :=
  if 8 ≤ m.seals.length then 2
  else if k != m.seals.length then 1
  else if m.sealCode k != leBytes 4 (m.stage 9).toNat ++ leBytes 4 (m.stage 10).toNat then 3
  else 0

/-- R400, R401: a seal attempt. -/
def Smu.trySeal (m : Smu) (k : Nat) : Smu :=
  let e := m.refusal k
  if e = 0 then { m with sealBusy := true, burning := some (m.stagedKey, m.stage 8) }
  else { m with sealErr := BitVec.ofNat 3 e }.tamperEvent

/-- R401, R403, R315: a locked write at the meter port: a tamper event, and a LOCK report unless 8 are pending. -/
def State.meterLocked (s : State) (waddr : W16) (v : W32) : State :=
  let s := s.modSmu Smu.tamperEvent
  let s := if (s.smu.reports.filter (fun r => r.kind = 2)).length < 8 then s.sendReport 2 0 waddr v else s
  s.respond 3 0 none

/-- R401: a write of `SMU_SEAL`. -/
def execSmuSeal (v : W32) (s : State) : Res :=
  .next (
    if !s.meterOn then s
    else if s.smu.sealWritten then s.meterLocked 3 v
    else
      let s := s.modSmu (fun m => { m with sealWritten := true, sealGo := bit v 31, sealSlot := v.extractLsb' 0 3 })
      (if bit v 31 then s.modSmu (fun m => m.trySeal (bits v 0 3)) else s).respond 0 0 none)

/-- R400, R402: the burn ends; the report of the slot is sent. -/
def execSealBurnDone (s : State) : Res :=
  .next (match s.smu.burning, s.meterOn with
    | some (k, i), true =>
      let n := s.smu.seals.length
      let s := s.modSmu (fun m => { m with seals := m.seals ++ [⟨k, i, false⟩], burning := none, sealBusy := false, staging := [] })
      s.sendReport 1 n 0 i
    | _, _ => s)

/-! Readouts (R407) -/

/-- R406: a write of `SMU_RO_CTL`. -/
def execSmuRoCtl (v : W32) (s : State) : Res :=
  .next (
    if s.meterOn then (s.modSmu (fun m => { m with roPart := v.extractLsb' 0 4, roBusy := m.roBusy || bit v 31 })).respond 0 0 none
    else s)

/-- R407: bytes 0 to 135 of a readout of partition `p`. -/
def Smu.readoutBody (m : Smu) (p : Nat) : List Byte :=
  [1, BitVec.ofNat 8 p, BitVec.ofNat 8 m.slotNo, BitVec.ofNat 8 ((if bit m.gapFlags p then 1 else 0) + (if m.nocopy then 2 else 0))]
    ++ leBytes 4 m.roSeq.toNat ++ leBytes 8 m.serial.toNat ++ leBytes 8 m.time.toNat ++ leBytes 8 m.nonce.toNat
    ++ (List.range 12).flatMap (fun q => leBytes 8 (m.count p q).toNat) ++ leBytes 4 m.gaps.toNat ++ leBytes 4 m.tamper.toNat

/-- R407: a readout, with its tag, in the buffer. -/
def Smu.readout (m : Smu) : Smu :=
  let p := m.roPart.toNat
  let m := { m with roSeq := m.roSeq + 1 }
  let b := m.readoutBody p
  let t := (hmac (leBytes 32 m.key.toNat) b).take 8
  { m with buffer := BitVec.ofNat 1152 (leNat (b ++ t)), roBusy := false, gapFlags := putBit m.gapFlags p false }

/-- R407: the readout is done. -/
def execReadoutDone (s : State) : Res := .next (if s.meterOn && s.smu.roBusy then s.modSmu Smu.readout else s)

end Sys2Proof.Machine
end

