-- ==== Sys2Proof/Machine/Trouble.lean ====
section
/-! DEFINITION. Faults, availability and records: the SRAM scrubber and row repair (R413, R414, R182), lockstep (R416 to R419), map-outs,
the event recorder (R428 to R436) and the trace stream (R444). -/

namespace Sys2Proof.Machine

/-- An operation ends with a status of code 0x10 or above: a program once its entries have left the queues (R232), a built-in one at once. -/
def State.failOp (s : State) (opid : W32) (status detail : Nat) (result : BitVec 96) : State :=
  match s.op opid with
  | none => s
  | some o => if opcodeOf o.cmd = 0x0F then s.stopOp opid status detail result else s.endOp opid status detail result

/-- The operations that pair `sp` drives. -/
def State.opsOfPair (s : State) (sp : Nat) : List Op :=
  s.hw.ops.filter (fun o => (s.pair sp).op = some o.opid || ((pairsOf o.clusters).contains sp && o.st = .running))

/-! SRAM (R168, R182, R412 to R414) -/

/-- R163: the cell of a bank row. -/
def cellAt (bank row : Nat) : Nat := 64 * row + (bank + 64 - row % 64) % 64

/-- Spares of a bank that are used: at manufacturing test and in the field (R182). -/
def State.sparesUsed (s : State) (n bank : Nat) : Nat :=
  Tab.get 0 s.part.fusedSpares (n * 64 + bank) + Tab.get 0 (s.cluster n).spares bank

/-- R182, R433, R438: a bank row is mapped out to a spare; a 33rd failing row maps out the cluster. -/
def State.repairRow (s : State) (n bank row : Nat) : State :=
  let k := s.sparesUsed n bank
  if 32 ≤ k then s.mapOutCluster n 3
  else
    let f (c : Cluster) : Cluster := { c with spares := Tab.set 0 c.spares bank (Tab.get 0 c.spares bank + 1), fieldRep := bumpTo 0xFFFF c.fieldRep, repairs := c.repairs ++ [(bank, row, k)], corrected := Tab.set 0 c.corrected (bank * 1536 + row) 0 }
    let s := (s.modCluster n f).note 0x08 none false 1 (BitVec.ofNat 8 n) 0 (bank + 64 * row) k
    s.event 0x15 1 none 0 [(0, 1, n), (1, 1, bank), (2, 2, row), (4, 1, k)]

/-- R168, R413: a single-bit error is corrected and counted; a scratchpad row corrected 4 times is repaired. -/
def State.correct (s : State) (u : SramUnit) : State :=
  let s := s.modRas (fun r => { r with ce := bumpTo 0xFFFFFFFF r.ce })
  match u with
  | .scratchpad n bank row =>
    let k := Tab.get 0 (s.cluster n.val).corrected (bank.val * 1536 + row) + 1
    if 4 ≤ k then s.repairRow n.val bank.val row
    else s.modCluster n.val (fun c => { c with corrected := Tab.set 0 c.corrected (bank.val * 1536 + row) k })
  | _ => s

/-- R414: the operations that use a unit whose data cannot be corrected complete CHECK_FAILED. -/
def State.uncorrectableIn (s : State) (unit : Nat) (addr : W32) (ops : List Op) : State :=
  let r := BitVec.ofNat 96 (unit + addr.toNat * 2 ^ 32)
  let s := match ops with
    | [] => s.note 0x09 none false 2 (BitVec.ofNat 8 unit) 0 addr.toNat 0
    | _ => s
  ops.foldl (fun s o => (s.note 0x09 (some o.part) false 2 (BitVec.ofNat 8 unit) o.opid addr.toNat 0).failOp o.opid 0x50 0x12 r) s

/-- An element of a list left out. -/
def dropAt {α : Type} (l : List α) (i : Nat) : List α := l.take i ++ l.drop (i + 1)

/-- R412: a double-bit error. -/
def State.doubleError (s : State) (u : SramUnit) (addr : W32) : State :=
  match u with
  | .scratchpad n bank row =>
    let s := s.repairRow n.val bank.val row
    if s.inService n.val then s.modCluster n.val (fun c => { c with poisoned := c.poisoned ++ [cellAt bank.val row] }) else s
  | .clusterOther n => s.uncorrectableIn n.val addr (s.hw.ops.filter (fun o => bit o.clusters n.val && o.st = .running))
  | .pairCode sp bank =>
    let inUse := (s.pair sp.val).bank = bank
    let s := s.modPair sp.val (fun x => if bank then { x with tag1 := 0 } else { x with tag0 := 0 })
    s.uncorrectableIn (0x40 + sp.val) addr (if inUse then s.opsOfPair sp.val else [])
  | .pairData sp => s.uncorrectableIn (0x40 + sp.val) addr (s.opsOfPair sp.val)
  | .tlb k => s.modTr (fun t => { t with tlbs := Tab.set [] t.tlbs k.val (dropAt (Tab.get [] t.tlbs k.val) addr.toNat) })
  | .cacheTag n => s.modCluster n.val (fun c => { c with cache := dropAt c.cache addr.toNat })
  | .context p q => s.kill p.val q.toNat 0
  | .duplicated both => if both then s.enterFatal 5 else s
  | .other => s

/-- R413: the scrubber reads a word. -/
def execSramScrub (f : SramFinding) (s : State) : Res :=
  .next (
    if !s.on || s.boot.fatal then s
    else match f with
      | .clean => s
      | .single u _ => s.correct u
      | .double u a => s.doubleError u a)

/-! Lockstep (R416 to R419) -/

/-- R417: the comparator (kind 2) or a delay register (kind 3) of pair `sp` has failed. -/
def State.pairFailure (s : State) (sp kind : Nat) : State :=
  let x := s.pair sp
  let ops := s.opsOfPair sp
  let s := s.setPair sp { x with lsFail := true, st := .stopped }
  let mark (o : Op) : Op := if ops.any (fun (q : Op) => q.opid = o.opid) then { o with unverified := true, ended := if x.op = some o.opid then putBit o.ended sp true else o.ended } else o
  let s := s.modHw (fun h => { h with ops := h.ops.map mark })
  let s := x.served.foldl (fun s e => s.note 0x14 (some e.part) false 3 (BitVec.ofNat 8 (0x40 + sp)) e.opid e.ring e.idx.toNat) s
  let n := s.entryNo
  let s := s.note 0x13 none false 3 (BitVec.ofNat 8 (0x40 + sp)) 0 (sp + 8 * kind) x.lastTest.toNat
  let s := (s.event 0x16 3 none 0 [(0, 1, sp), (1, 1, kind - 1), (4, 8, x.lastTest.toNat), (12, 2, x.served.length)]).rasIrq 3 n
  let ps := (List.range 16).filter (fun p => x.served.any (fun e => e.part = p) || ops.any (fun o => o.part = p))
  let s := ps.foldl (fun s p => s.classPMark p 0x13 0 n) s
  s.mapOutPair sp 2

/-- R417: the self-test passes: the list is emptied, and a pair that a mismatch stopped returns to service. -/
def State.testPassed (s : State) (sp : Nat) : State :=
  s.modPair sp (fun x =>
    { x with served := [], sinceTest := 0, lastTest := s.clk.tick, testDue := false,
             st := if x.testDue && x.st = .stopped && !x.lsFail then (if x.op.isSome then .running else .idle) else x.st })

/-- R417, R419: the comparator self-test of a pair, or of the management pair. -/
def execComparatorSelfTest (u : Option (Fin 8)) (pass : Bool) (s : State) : Res :=
  .next (
    if !s.fast then s
    else match u with
      | some sp =>
        if s.nPairs ≤ sp.val || bit s.ras.pairOut sp.val then s
        else if pass then s.testPassed sp.val else s.pairFailure sp.val 2
      | none =>
        if pass then s.modRas (fun r => { r with mgmtFails := 0 })
        else if s.ras.mgmtFails < 2 then s.modRas (fun r => { r with mgmtFails := r.mgmtFails + 1 })
        else (s.modRas (fun r => { r with mgmtFails := 3 })).enterFatal 4)

/-- R417: a delay register shows a parity error. -/
def execDelayRegisterParityError (sp : Fin 8) (s : State) : Res :=
  .next (if !s.fast || s.nPairs ≤ sp.val || bit s.ras.pairOut sp.val then s else s.pairFailure sp.val 3)

/-- R416: the cores of a pair disagree; a second mismatch within its last 1,000 operations maps it out. -/
def State.mismatch (s : State) (sp : Nat) : State :=
  let x := s.pair sp
  let recent := x.mismatches.filter (fun k => x.servedTotal < k + 1000)
  let ops := s.opsOfPair sp
  let s := s.setPair sp { x with testDue := true, st := .stopped, mismatches := recent ++ [x.servedTotal] }
  let s := match ops with
    | [] => s.note 0x13 none false 2 (BitVec.ofNat 8 (0x40 + sp)) 0 (sp + 8) x.lastTest.toNat
    | o :: _ => s.note 0x13 (some o.part) false 2 (BitVec.ofNat 8 (0x40 + sp)) o.opid (sp + 8) x.lastTest.toNat
  let s := ops.foldl (fun s o => s.failOp o.opid 0x50 0x14 (res20 sp)) s
  if recent.isEmpty then s else s.mapOutPair sp 1

/-- A mismatch in a steering pair. -/
def execLockstepMismatch (sp : Fin 8) (s : State) : Res :=
  .next (if !s.fast || s.nPairs ≤ sp.val || bit s.ras.pairOut sp.val then s else s.mismatch sp.val)

/-- R283, R419: a staged command is fetched from its ring again. -/
def State.refetch (s : State) (x : Staged) : State :=
  let r := s.ring x.cmd.ring
  let a := r.base.toNat + 64 * (x.cmd.idx.toNat % r.n)
  let c : Cmd := if s.judgeStruct r.space false a 64 = .ok then { x.cmd with w := BitVec.ofNat 512 (s.vaNat r.space a 64) } else x.cmd
  (s.modStaged x.cmd (fun y => { y with cmd := c, st := .ready })).frontEnd x.part c

/-- R419: the management pair restarts: commands not yet admitted are fetched and translated again. -/
def execMgmtPairMismatch (s : State) : Res :=
  .next (
    if !s.fast then s
    else
      let s := s.note 0x18 none false 1 0x80 0 0 0
      (s.hw.staged.filter (fun x => x.st != .backlog)).foldl State.refetch s)

/-- R420: a cluster is mapped out for one of the reasons of R433. -/
def execClMapout (n : Fin 32) (reason : Byte) (s : State) : Res :=
  .next (if s.on && s.inService n.val && decide (1 ≤ reason.toNat ∧ reason.toNat ≤ 5) then s.mapOutCluster n.val reason.toNat else s)

/-! The event recorder (R428 to R436) -/

/-- An erased slot. -/
def erasedSlot : BitVec 512 := BitVec.allOnes 512

/-- R430, R431: the 64 bytes of a record, `VMARK` programmed. -/
def slotOf (rseq : W32) (pcycle : W16) (r : Rec) : BitVec 512 :=
  let b := leBytes 4 rseq.toNat ++ leBytes 2 r.type.toNat
    ++ [BitVec.ofNat 8 (r.cls.toNat + (if r.calendar then 8 else 0) + (if r.calendar && r.utcSet then 16 else 0)),
        BitVec.ofNat 8 (match r.part with
          | some p => p % 16 + 16
          | none => 0)]
    ++ leBytes 6 r.time.toNat ++ leBytes 2 pcycle.toNat ++ leBytes 32 r.data.toNat ++ leBytes 4 r.opid.toNat ++ leBytes 4 0
  BitVec.ofNat 512 (leNat (b ++ leBytes 4 (crc32c b).toNat ++ [0xFF, 0xFF, 0xFF, 0x5A]))

/-- R431: a slot is a record. -/
def validSlot (w : BitVec 512) : Bool :=
  bits w 504 8 = 0x5A && bits w 448 32 = (crc32c (leBytes 56 w.toNat)).toNat

/-- The types that go to the repair area (R428). -/
def repairType (t : W16) : Bool := decide (0x12 ≤ t.toNat ∧ t.toNat ≤ 0x15)

/-- R429: the circulating area takes a record; before the first slot of a sector, the sector that follows is erased. -/
def Recorder.circulate (x : Recorder) (w : BitVec 512) : Recorder :=
  let k := x.nextCirc
  let e := (k / 64 + 1) % 1025
  let t := if k % 64 = 0 then Tab.clearRange x.circulating (e * 64) (e * 64 + 64) else x.circulating
  { x with circulating := Tab.set erasedSlot t k w, nextCirc := (k + 1) % 65600 }

/-- R429: a record is written to the areas that take it. -/
def Recorder.program (x : Recorder) (r : Rec) : Recorder :=
  let w := slotOf x.rseq x.pcycle r
  let x := { x with rseq := x.rseq + 1 }.circulate w
  let x := if x.nextPerm < 4096 then { x with permanent := Tab.set erasedSlot x.permanent x.nextPerm w, nextPerm := x.nextPerm + 1 } else x
  if repairType r.type && decide (x.nextRepair < 1024) then { x with repair := Tab.set erasedSlot x.repair x.nextRepair w, nextRepair := x.nextRepair + 1 } else x

/-- R429, R439: the repair area is full for the first time. -/
def State.repairFullCheck (s : State) (r : Rec) : State :=
  if s.recorder.repairFull || s.recorder.nextRepair < 1024 then s
  else (s.modRecorder (fun x => { x with repairFull := true })).rasIrq 1 r.entry

/-- A SEAL record is in its permanent slot; the meter gets its acknowledgement (R402, R433). -/
def State.programSeal (s : State) (slot : Nat) (r : Rec) (rnum : W16) : State :=
  let f (x : Recorder) : Recorder := { x.program r with permanent := Tab.set erasedSlot (x.program r).permanent (4096 + slot) (slotOf x.rseq x.pcycle r), seals := x.seals.drop 1 }
  (s.modRecorder f).ackReport rnum

/-- R431, R434: the record being programmed is complete; SEAL records go before the queue. -/
def execRecordProgramDone (s : State) : Res :=
  .next (
    if !s.on || s.recorder.nodev then s
    else match s.recorder.seals, s.recorder.queue with
      | (k, r, n) :: _, _ => if s.linkFull then s else s.programSeal k r n
      | [], r :: q => (s.modRecorder (fun x => { x.program r with queue := q })).repairFullCheck r
      | [], [] => s)

/-- R432: every 65,536 units of operating time. -/
def execTime (s : State) : Res := .next (if s.on then s.event 0x04 0 none 0 [(0, 8, s.recorder.utc.toNat)] else s)

/-- R432: every 10^8 ticks. -/
def execRecUtcAdvance (s : State) : Res := .next (if s.on then s.modRecorder (fun x => { x with utc := x.utc + 1 }) else s)

/-- The records of the circulating area, by slot. -/
def Recorder.records (x : Recorder) : List (Nat × BitVec 512) := x.circulating.filter (fun e => validSlot e.2)

/-- The record with the highest `RSEQ` among those that `f` takes. -/
def newestOf (l : List (Nat × BitVec 512)) (f : BitVec 512 → Bool) : Option (Nat × BitVec 512) :=
  (l.filter (fun e => f e.2)).foldl (fun (m : Option (Nat × BitVec 512)) e => match m with
    | some x => if bits x.2 0 32 < bits e.2 0 32 then some e else some x
    | none => some e) none

/-- R432, R436: what stage S1 restores from the device; a blank header is written. -/
def State.restoreRecorder (s : State) (axId : W64) : State :=
  let x := s.recorder
  let l := x.records
  let newest := newestOf l (fun _ => true)
  let timed := newestOf l (fun w => !bit w 51)
  let hdr : BitVec 128 := if x.header = BitVec.allOnes 128 then
    BitVec.ofNat 128 (leNat (leBytes 4 0x41585245 ++ leBytes 2 1 ++ [0xFF, 0xFF] ++ leBytes 8 axId.toNat)) else x.header
  let rseq : W32 := (newest.map (fun e => BitVec.ofNat 32 (bits e.2 0 32 + 1))).getD 0
  let pcycle : W16 := BitVec.ofNat 16 ((newest.map (fun e => bits e.2 112 16)).getD 0 + 1)
  let next := (newest.map (fun e => (e.1 + 1) % 65600)).getD 0
  let free (t : Tab (BitVec 512)) (n : Nat) : Nat := ((t.filter (fun e => decide (e.1 < n))).map (fun e => e.1 + 1)).foldl Nat.max 0
  let s := s.modRecorder (fun x => { x with header := hdr, rseq := rseq, pcycle := pcycle, nextCirc := next, nextPerm := free x.permanent 4096, nextRepair := free x.repair 1024, repairFull := decide (1024 ≤ free x.repair 1024) })
  match timed with
  | some e => s.modClk (fun c => { c with opTime := BitVec.ofNat 48 (bits e.2 64 48) })
  | none => s

/-! The trace stream (R444, R446) -/

/-- Blocks that the stream ring has room for. -/
def Trc.room (t : Trc) : Nat :=
  if bit t.stream 63 then 2 ^ bits t.stream 0 5 - (t.sTail - t.sHead).toNat else 0

/-- R444: one block of up to 128 records goes to the stream ring; the rest of a short block is zeros. -/
def State.streamBlock (s : State) : State :=
  let t := s.trc
  let a := bits t.stream 12 40 * 4096 + 4096 * (t.sTail.toNat % 2 ^ bits t.stream 0 5)
  if t.room = 0 || t.unstreamed.isEmpty || s.judgeStruct 16 true a 4096 != .ok then s
  else
    let l := t.unstreamed.take 128
    let bs := l.flatMap (fun r => leBytes 32 r.toNat) ++ List.replicate (4096 - 32 * l.length) 0
    (s.vaWrite 16 a bs).modTrc (fun t => { t with unstreamed := t.unstreamed.drop 128, sTail := t.sTail + 1, flush := t.flush && !(t.unstreamed.drop 128).isEmpty })

/-- A full block is streamed as it stands; a short one only on a flush (R444). -/
def State.streamTick (s : State) : State :=
  let t := s.trc
  if t.flush && t.unstreamed.isEmpty then s.modTrc (fun t => { t with flush := false })
  else if 128 ≤ t.unstreamed.length || t.flush then s.streamBlock else s

/-- Every pending record is streamed, while the ring has room; `fuel` bounds the blocks. -/
def State.streamAll (fuel : Nat) (s : State) : State :=
  match fuel with
  | 0 => s
  | fuel + 1 => if s.trc.unstreamed.isEmpty then s.modTrc (fun t => { t with flush := false }) else State.streamAll fuel s.streamBlock

end Sys2Proof.Machine
end

