-- ==== Sys2Proof/Machine/Fabric.lean ====
section
/-! DEFINITION. The fabric ports (R358 to R362) and peer messages (R363 to R366, R196, R325). A row of a peer message stands for the whole
message; a FLIT row carries a tensor flit. -/

namespace Sys2Proof.Machine

/-- R352, R373: a wake starts, where the fast domain stands still after bring-up stage S1. -/
def State.startWake (s : State) : State :=
  if s.clk.awake || s.boot.stage ≤ 1 || !s.creditable then s else s.modClk (fun c => { c with waking := true })

/-! Tensor flits (R360, R362) -/

/-- R438: PART, SQID and LAYER of a flit in ARG1. -/
def flitArg (part : Nat) (sqid : BitVec 14) (layer : Byte) : Nat := part + 2 ^ 4 * sqid.toNat + 2 ^ 18 * layer.toNat

/-- R362: one flit of in-port `k` is discarded for cause 1 to 4; its credit goes back. -/
def State.discardFlit (s : State) (k cause part arg : Nat) : State :=
  let s := if cause = 4 then s.modGlob (fun g => { g with fabLost := bump g.fabLost }) else s.modGlob (fun g => { g with fabBad := bump g.fabBad })
  (s.giveFlits k 1).note 0x0D (some part) false 0 (BitVec.ofNat 8 (0xA0 + k)) 0 cause arg

/-- The valid bytes of a flit (R358). -/
def flitBytes (f : Flit) : List Byte :=
  leBytes (if f.eot && f.bytes != 0 then f.bytes.toNat else 128) f.data.toNat

/-- What in-port `k` is receiving: a tile, its flits so far, and whether they are discarded. -/
abbrev InTile := FTile × Nat × Bool

def State.setPartial (s : State) (k : Nat) (t : Option InTile) : State := s.modFab (fun f => { f with partialT := Tab.set none f.partialT k t })

/-- The tile that a flit belongs to: a new one at `SOT`, else the one being received. -/
def State.inTile (s : State) (f : Flit) : InTile :=
  let fresh : InTile := (⟨f.part.val, f.sqid, f.layer, []⟩, 0, false)
  if f.sot then fresh else (Tab.get none s.fab.partialT f.port.val).getD fresh

/-- R360, R362: a flit of a tile that stands; the 512th without `EOT` discards all of them. -/
def State.stageFlit (s : State) (f : Flit) (t : InTile) : State :=
  let k := f.port.val
  let tile : FTile := { t.1 with data := t.1.data ++ flitBytes f }
  let n := t.2.1 + 1
  if f.eot then ((s.setPartial k none).modFab (fun x => { x with stagedT := Tab.set [] x.stagedT k (Tab.get [] x.stagedT k ++ [(tile, n)]) })).pullTiles k
  else if 512 ≤ n then
    (List.replicate n ()).foldl (fun s _ => s.discardFlit k 3 t.1.part (flitArg t.1.part t.1.sqid t.1.layer)) (s.setPartial k (some (t.1, n, true)))
  else s.setPartial k (some (tile, n, false))

/-- A new tile begins where the last had no `EOT`: the flits of the unfinished tile leave staging (log entry 31). -/
def State.dropUnfinished (s : State) (f : Flit) : State :=
  match Tab.get none s.fab.partialT f.port.val, f.sot with
  | some t, true => if t.2.2 then s else s.giveFlits f.port.val t.2.1
  | _, _ => s

/-- R358 to R362: a tensor flit arrives against a credit. -/
def State.takeFlit (s : State) (f : Flit) : State :=
  let k := f.port.val
  let arg := flitArg f.part.val f.sqid f.layer
  let s := s.modFab (fun x => { x with inCred := Tab.set 0 x.inCred k (Tab.get 0 x.inCred k - 1) })
  if !s.clk.awake then (s.discardFlit k 4 f.part.val arg).startWake
  else if f.kind != 0 then s.discardFlit k 1 f.part.val arg
  else
    let s := s.dropUnfinished f
    let t := s.inTile f
    if t.2.2 then (s.setPartial k (if f.eot then none else some t)).discardFlit k 3 f.part.val arg
    else if (s.seq t.1.part t.1.sqid.toNat).st = .free then (s.setPartial k (if f.eot then none else some (t.1, t.2.1, false))).discardFlit k 2 f.part.val arg
    else s.stageFlit f t

/-- A flit that carries no peer message. -/
def execFlit (f : Flit) (s : State) : Res :=
  .next (if s.creditable && f.kind != 1 && decide (1 ≤ Tab.get 0 s.fab.inCred f.port.val) then s.takeFlit f else s)

/-- R343: a credit comes back for the oldest flit of out-port `k`. -/
def State.flitAcked (s : State) (k : Nat) : State :=
  match Tab.get [] s.fab.outWait k with
  | [] => s
  | (n, tag, c) :: rest =>
    let s := s.modFab (fun f => { f with outWait := Tab.set [] f.outWait k (if c ≤ 1 then rest else (n, tag, c - 1) :: rest) })
    if n < 32 then s.modCluster n (fun c => c.modEnt tag (fun x => { x with left := x.left - 1, landed := s.clk.tick })) else s

/-- R359: a receiver returns credits to an out-port. -/
def execFabricCredit (port : Fin 8) (cnt : BitVec 4) (s : State) : Res :=
  .next (
    if s.creditable && decide (1 ≤ cnt.toNat ∧ cnt.toNat ≤ 8) then
      let k := port.val
      let s := s.modFab (fun f => { f with outCred := Tab.set 0 f.outCred k (Nat.min Config.outCreditMax (Tab.get 0 f.outCred k + cnt.toNat)) })
      ((List.replicate cnt.toNat ()).foldl (fun s _ => s.flitAcked k) s).progressAll
    else s)

/-! Peer messages (R363 to R366) -/

/-- R363, R364, R438: a message is refused. -/
def State.nack (s : State) (h : PeerHdr) (reason : Nat) : State :=
  let s := s.modGlob (fun g => { g with nackSent := bump g.nackSent })
  s.peerSend 4 (s.peerHdr reason h.srcId h.window h.slot.toNat h.part.toNat 0)

/-- R196: a refused WRITE also makes a trouble-log entry. -/
def State.refuseWrite (s : State) (h : PeerHdr) (reason : Nat) : State :=
  (s.note 0x0B (some h.part.toNat) false 0 0xFF h.opid (h.srcId.toNat + reason * 2 ^ 12) h.window.toNat).nack h reason

/-- A peer message of `n` payload bytes: lost while the block sleeps (R362), refused without option P (R17, R366), ignored while peer traffic is
out of service; else `f` says what it does. `w` marks a WRITE. -/
def State.peerMsg (s : State) (h : PeerHdr) (n : Nat) (w : Bool) (f : State → State) : State :=
  if !s.creditable then s
  else if !s.clk.awake then
    ((List.replicate (ceilDiv (32 + n) 128) ()).foldl (fun s _ =>
      (s.modGlob (fun g => { g with fabLost := bump g.fabLost })).note 0x0D (some h.part.toNat) false 0 0xFF 0 4 h.part.toNat) s).startWake
  else if !s.part.optP then (if w then s.refuseWrite h 3 else s.nack h 3)
  else if !s.glob.peerEnable then s
  else f s

/-- R364: a credit for a slot of a peer's window; at most one is held for a slot. -/
def State.takeCredit (s : State) (h : PeerHdr) : State :=
  let x : PeerCredit := ⟨h.window, h.slot.toNat, h.bytes.toNat, h.srcId, h.epoch, h.opid⟩
  s.modPeer (fun p => { p with held := p.held.filter (fun y => !(y.window = x.window && y.slot = x.slot && y.peer = x.peer)) ++ [x] })

/-- R154, R364: a credit goes to partials that wait for one. -/
def execCredit (h : PeerHdr) (s : State) : Res := .next (s.peerMsg h 0 false (fun s => (s.takeCredit h).sendOut))

/-- R176, R364: slots of a window that have landed become Full in ring order; `fuel` is at least the number of slots. -/
def State.landSlots (fuel : Nat) (s : State) (n h : Nat) : State :=
  match fuel with
  | 0 => s
  | fuel + 1 =>
    let w := (s.cluster n).handle h
    let slot := hHead w
    match s.peer.windows.find? (fun x => x.window = windowOf n h) with
    | some x =>
      if x.landed.contains slot && decide (hFull w < hSlots w) then
        let s := s.modPeer (fun p => { p with windows := p.windows.map (fun y => if y.window = x.window then { y with landed := y.landed.filter (· != slot) } else y) })
        State.landSlots fuel (s.modCluster n (fun c => c.setHandle h (ringSet w (hHead w + 1) (hTail w) (hBusy w + 1) (hFull w + 1)))) n h
      else s
    | none => s

/-- R154, R155, R364: what becomes of a partial that has landed: Confluence takes it for its operation, and one whose operation is no longer live
is discarded; either way its slot is released. A slot of a RUN_PROGRAM's window stays Full for the program. -/
def State.consume (s : State) (n h : Nat) (epoch : W16) (t : PTile) : State :=
  match s.op t.opid with
  | some o => if opcodeOf o.cmd = 0x0F then s else (s.partialAt n epoch t).release n h
  | none => s.release n h

/-- R364: a WRITE that its window takes lands in its slot, and ACK goes back. -/
def State.landWrite (s : State) (h : PeerHdr) (t : PTile) (x : Win) : State :=
  let n := windowCluster h.window
  let k := h.window.toNat % 256
  let c := s.cluster n
  let slot := h.slot.toNat
  let base := hStart (c.handle k) + slot * hSlotBytes (c.handle k)
  let s := s.setCluster n { c with spm := writeBytes c.spm base ((tileBytes t).take h.bytes.toNat) }
  let s := s.modPeer (fun p => { p with windows := p.windows.map (fun y => if y.window = x.window then { y with credited := y.credited.erase slot, landed := y.landed ++ [slot] } else y) })
  let a : PeerHdr := { s.peerHdr 0 h.srcId h.window slot x.part 0 with opid := h.opid }
  (((State.landSlots 17 s n k).peerSend 3 a)).consume n k h.epoch t

/-- R364, R365, R325: a WRITE at its window. -/
def State.takeWrite (s : State) (h : PeerHdr) (t : PTile) : State :=
  let n := windowCluster h.window
  let c := s.cluster n
  if h.epoch != c.roleEpoch || c.clearing then
    let s := s.setCluster n { c with stale := bump c.stale }
    let r : PeerHdr := { h with srcId := s.glob.peerId, dstId := h.srcId }
    s.peerSend 5 r (tileBytes t)
  else
    match s.peer.windows.find? (fun x => x.window = h.window) with
    | none => s.refuseWrite h 4
    | some x =>
      if x.sender != h.srcId then s.refuseWrite h 4
      else if x.withdrawing then s.refuseWrite h 5
      else if !x.credited.contains h.slot.toNat then s.refuseWrite h 1
      else if x.slotBytes < h.bytes.toNat then s.refuseWrite h 2
      else s.landWrite h t x

def execWrite (h : PeerHdr) (t : PTile) (s : State) : Res := .next (s.peerMsg h (tileBytes t).length true (fun s => s.takeWrite h t))

/-- R343, R364: the part of a stream, or the partial, that filled the slot is acknowledged. -/
def State.takeAck (s : State) (h : PeerHdr) : State :=
  let mine (e : QEnt) : Bool := e.fills.any (fun f => f.slot = h.slot.toNat) && (match e.work with
    | .sx v => (SDesc.ofBits v).kind = 5 && (SDesc.ofBits v).dstAddr = h.window.toNat
    | _ => false)
  match s.clusters.findSome? (fun c => (c.2.queue.find? mine).map (fun e => (c.1, e))) with
  | none => s.partialAcked h
  | some x => s.modCluster x.1 (fun c => c.modEnt x.2.tag (fun e => { e with landed := s.clk.tick, fills := e.fills.filter (fun f => f.slot != h.slot.toNat) }))

def execAck (h : PeerHdr) (s : State) : Res := .next (s.peerMsg h 0 false (fun s => s.takeAck h))

/-- R364: a refusal is counted; nothing is sent again. -/
def execNack (h : PeerHdr) (s : State) : Res :=
  .next (s.peerMsg h 0 false (fun s => (s.modGlob (fun g => { g with nackRcvd := bump g.nackRcvd })).partialAcked h))

/-- R325: a partial of this block that comes back is sent again, against the restored credit or another; one of no operation here goes to its
node's home. -/
def State.returned (s : State) (h : PeerHdr) (t : PTile) : State :=
  match s.hw.ops.find? (fun o => o.unacked.contains (h.window, h.slot.toNat)) with
  | some o => (s.setOp { o with unacked := o.unacked.erase (h.window, h.slot.toNat), sendq := t :: o.sendq }).sendOut
  | none => s.resend t

/-- R325: a returned message restores the credit, and Confluence sends its partial again. -/
def execStale (h : PeerHdr) (t : PTile) (s : State) : Res :=
  .next (s.peerMsg h (tileBytes t).length false (fun s => (s.takeCredit h).returned h t))

/-- R365: the credits of a peer's window are void. -/
def State.takeWithdraw (s : State) (h : PeerHdr) : State :=
  let s := s.modPeer (fun p => { p with held := p.held.filter (fun x => !(x.window = h.window && x.peer = h.srcId)) })
  s.peerSend 7 (s.peerHdr 0 h.srcId h.window 0 h.part.toNat 0)

def execWithdraw (h : PeerHdr) (s : State) : Res := .next (s.peerMsg h 0 false (fun s => s.takeWithdraw h))

/-- R365: the withdrawal of a window is complete. -/
def State.withdrawn (s : State) (w : W16) : State :=
  s.modPeer (fun p => { p with windows := p.windows.filter (fun x => !(x.window = w && x.withdrawing)) })

def execWithdrawAck (h : PeerHdr) (s : State) : Res := .next (s.peerMsg h 0 false (fun s => s.withdrawn h.window))

/-- R365: 2^16 ticks have passed since WITHDRAW. -/
def execWithdrawTimeout (window : W16) (s : State) : Res := .next (if s.creditable then s.withdrawn window else s)

end Sys2Proof.Machine
end

