-- ==== Sys2Proof/Machine/Power.lean ====
section
/-! DEFINITION. Power and clocks: Weir's grants (R303, R304, R377), lending (R347, R378), cluster clocks (R372, R305), PLLs and frequency
(R371, R373, R421), power messages (R375, R376), the class B causes of the clock unit (R422). -/

namespace Sys2Proof.Machine

/-! Weir (R303) -/

/-- Clusters of an operation that are in service and hold no share of it. -/
def State.wanting (s : State) (o : Op) : List Nat :=
  if o.st = .running && !o.fin then (setList (o.clusters &&& ~~~o.shares &&& ~~~o.lent)).filter s.inService else []

/-- The operation of a list that was admitted first. -/
def oldestOp (l : List Op) : Option Op :=
  l.foldl (fun (m : Option Op) o => match m with
    | some x => if o.weirOrder < x.weirOrder then some o else some x
    | none => some o) none

/-- R303: within a partition, higher `PRIO` first, then the oldest work. -/
def State.prefillOf (s : State) (p : Nat) : Option Op :=
  let l := s.hw.ops.filter (fun o => o.part = p && workClass o.cmd = .prefill && !(s.wanting o).isEmpty)
  let prio (o : Op) : Nat := (s.seq p (sqidOf o.cmd)).prio.toNat
  let top := (l.map prio).foldl Nat.max 0
  oldestOp (l.filter (fun o => prio o = top))

/-- R303, step 3: partitions in turn from the one that is served, `PF_WEIGHT` grants to a turn. -/
def State.prefillTurn (s : State) : Option (Op × Nat × Nat) :=
  let ready (p : Nat) : Bool := (s.prefillOf p).isSome && s.cfg.active.pfWeight p != 0 && decide (1 ≤ s.sharesFree p .prefill)
  let w := s.weir
  let next := if ready w.rr && decide (w.pfCount < s.cfg.active.pfWeight w.rr) then some (w.rr, w.pfCount + 1)
    else (((List.range 16).map (fun k => (w.rr + 1 + k) % 16)).find? ready).map (fun p => (p, 1))
  match next with
  | some (p, c) => (s.prefillOf p).map (fun o => (o, p, c))
  | none => none

/-- R303: the operation that the next free share goes to, by floor, pool and prefill order. -/
def State.nextGrant (s : State) : Option (Op × Option (Nat × Nat)) :=
  let dec := s.hw.ops.filter (fun o => workClass o.cmd = .decode && !(s.wanting o).isEmpty)
  match oldestOp (dec.filter (fun o => s.heldBy o.part .decode < s.floorOf o.part && 1 ≤ s.sharesFree o.part .decode)) with
  | some o => some (o, none)
  | none =>
    match oldestOp (dec.filter (fun o => 1 ≤ s.sharesFree o.part .decode)) with
    | some o => some (o, none)
    | none => s.prefillTurn.map (fun t => (t.1, some t.2))

/-- R303: a free share is granted. -/
def execShareGrant (s : State) : Res :=
  .next (match s.nextGrant, s.fast && !s.swapPause with
    | some (o, turn), true =>
      let s := s.grantShares o 1
      let s := match turn with
        | some t => s.modWeir (fun w => { w with rr := t.1, pfCount := t.2 })
        | none => s
      s.progressAll
    | _, _ => s)

/-! Lending (R347, R378) -/

/-- The lent clusters of an operation that pair `sp` drives. -/
def lentOf (o : Op) (sp : Nat) : List Nat := (setList o.lent).filter (fun n => n / 4 = sp)

/-- R347: a SWAIT has waited `LEND_THR` ticks: the shares of the pair's clusters are lent and their clocks stop. -/
def State.lendPair (s : State) (sp : Nat) (o : Op) (w : SwaitSt) : State :=
  let x := s.pair sp
  let ns := (setList o.shares).filter (fun n => n / 4 = sp)
  let m : BitVec 32 := ns.foldl (fun m n => m ||| oneHot 32 n) 0
  let s := s.setOp { o with shares := o.shares &&& ~~~m, lent := o.lent ||| m }
  let s := (ns.foldl State.stopClock s).pmOut 0x9 o.part ns.length 0
  let s := s.trace 0x0B o.part (BitVec.ofNat 8 (0x40 + sp)) o.opid 0 ns.length
  let s := s.modWeir (fun v => { v with lent := Tab.set 0 v.lent o.part (Tab.get 0 v.lent o.part + ns.length), lends := Tab.set 0 v.lends o.part (bumpTo 0xFFFFFFFF (Tab.get 0 v.lends o.part)) })
  s.setPair sp { x with lent := true, swait := some { w with lent := true } }

/-- R347: pair `sp` lends, once no tile on its clusters is being checked or rerun (R100). -/
def execLend (sp : Fin 8) (s : State) : Res :=
  .next (
    let x := s.pair sp.val
    match x.swait, x.op.bind s.op, s.fast with
    | some w, some o, true =>
      if w.lent || s.cfg.active.lendThr x.part = 0 || ((setList o.shares).filter (fun n => n / 4 = sp.val)).isEmpty
          || (setList o.shares).any (fun n => n / 4 = sp.val && (s.cluster n).checking) then s
      else s.lendPair sp.val o w
    | _, _, _ => s)

/-- R347, R225: up to `k` lent shares of pair `sp`'s clusters come back, lowest cluster first; with the last, tensor issue may resume. -/
def State.takeBack (s : State) (sp k : Nat) : State :=
  let x := s.pair sp
  match x.op.bind s.op with
  | none => s.modWeir (fun v => { v with recalls := v.recalls.filter (· != sp) })
  | some o =>
    let ns := (lentOf o sp).take k
    let m : BitVec 32 := ns.foldl (fun m n => m ||| oneHot 32 n) 0
    let o' : Op := { o with lent := o.lent &&& ~~~m, shares := o.shares ||| m }
    let s := ns.foldl State.requestClock (s.setOp o')
    let s := s.modWeir (fun v => { v with lent := Tab.set 0 v.lent o.part (Tab.get 0 v.lent o.part - ns.length) })
    if !(lentOf o' sp).isEmpty then s
    else
      let s := s.modWeir (fun v => { v with recalls := v.recalls.filter (· != sp) })
      s.setPair sp { x with lent := false, recalled := false, st := if x.st = .waitRecall then .running else x.st }

/-- Shares of partition `p` in a list of loans. -/
def loansOf (p : Nat) (l : List Loan) : Nat := ((l.filter (fun e => e.part = p)).map Loan.count).sum

/-- R347: the loans that RECALLs of pair `sp` left behind are taken back. -/
def State.endLoans (s : State) (sp : Nat) : State :=
  let (mine, rest) := s.weir.loans.partition (fun e => e.sp = sp)
  mine.foldl (fun s e => s.modWeir (fun v => { v with lent := Tab.set 0 v.lent e.part (Tab.get 0 v.lent e.part - e.count) })) (s.modWeir (fun v => { v with loans := rest }))

/-- R347, R378: 5 µs have passed since RECALL. -/
def execRecallExpiry (sp : Fin 8) (s : State) : Res :=
  .next (if !s.fast then s else if s.weir.recalls.contains sp.val then s.takeBack sp.val 4 else s.endLoans sp.val)

/-! Power messages (R376) -/

def pmType (w : W32) : Nat := bits w 28 4
def pmPart (w : W32) : Nat := bits w 24 4
def pmCount (w : W32) : Nat := bits w 16 8
def pmArg (w : W32) : Nat := bits w 0 16

/-- R376: the types that the power manager may send. -/
def pmKnown (t : Nat) : Bool := decide (1 ≤ t ∧ t ≤ 5)

/-- R376: an inbound message of type `t` where `ok` holds of its fields; a reserved type or a bad field is ignored and logged. -/
def State.pmIn (s : State) (w : W32) (t : Nat) (ok : Bool) (f : State → State) : State :=
  if !s.creditable then s
  else if !pmKnown (pmType w) || (pmType w = t && !ok) then s.note 0x0E none false 0 0xFF 0 w.toNat 0
  else if pmType w = t then f s
  else s

/-- R376, R377, R304: G takes a new value; the floors are honoured whatever it is. -/
def State.takeGrant (s : State) (count : Nat) : State :=
  let g := Nat.min count (popcount s.boot.svc)
  let s := s.modWeir (fun w => { w with grant := some g })
  if g < s.floorSum then (s.modWeir (fun w => { w with floorOver := true })).irqPending 0 (bits s.glob.irqVec0 16 16) 0x03 0 g else s

/-- R376: GRANT. -/
def execGrant (w : W32) (s : State) : Res :=
  .next (s.pmIn w 1 (pmPart w = 0 && pmArg w = 0) (fun s => s.takeGrant (pmCount w)))

/-- R347: `k` lent shares of partition `p` come back to the pairs `sps`; what is left over, and the state after. -/
def State.giveBack (s : State) (p : Nat) : List Nat → Nat → Nat × State
  | [], k => (k, s)
  | sp :: sps, k =>
    let x := s.pair sp
    let n := match x.op.bind s.op with
      | some o => if x.part = p then (lentOf o sp).length else 0
      | none => 0
    State.giveBack (if k = 0 || n = 0 then s else s.takeBack sp k) p sps (k - n)

/-- Loans of partition `p` after `k` of their shares came back, the oldest loan first. -/
def payLoans (p : Nat) : List Loan → Nat → List Loan
  | [], _ => []
  | e :: l, k =>
    if e.part != p then e :: payLoans p l k
    else if e.count ≤ k then payLoans p l (k - e.count)
    else { e with count := e.count - k } :: payLoans p l 0

/-- R347: `k` shares of partition `p` come back to loans whose operation has gone; what is left over, and the state after. -/
def State.giveLoans (s : State) (p k : Nat) : Nat × State :=
  let n := Nat.min k (loansOf p s.weir.loans)
  if n = 0 then (k, s)
  else (k - n, s.modWeir (fun v => { v with loans := payLoans p v.loans n, lent := Tab.set 0 v.lent p (Tab.get 0 v.lent p - n) }))

/-- R347, R376: shares of partition `p` are returned: to pairs that have sent RECALL, then to loans left behind, then to the other pairs. -/
def State.takeReturn (s : State) (p k : Nat) : State :=
  let others := (List.range 8).filter (fun n => !s.weir.recalls.contains n)
  let (k, s) := s.giveBack p s.weir.recalls k
  let (k, s) := s.giveLoans p k
  (s.giveBack p others k).2

/-- R376: RETURN. -/
def execReturnShares (w : W32) (s : State) : Res :=
  .next (s.pmIn w 2 (pmArg w = 0 && decide (pmCount w ≤ Tab.get 0 s.weir.lent (pmPart w))) (fun s =>
    s.takeReturn (pmPart w) (pmCount w)))

/-- R371, R376, R421: FREQ: the idle PLL locks to the new F, now or at the next wake; a PLL that lost lock is tried again. -/
def execFreq (w : W32) (s : State) : Res :=
  .next (s.pmIn w 3 (pmPart w = 0 && pmCount w = 0 && decide (4 ≤ pmArg w ∧ pmArg w ≤ 16)) (fun s =>
    s.modClk (fun c => { c with freqNew := some (BitVec.ofNat 5 (pmArg w)), pllABad := c.pllABad && !c.activeB, pllBBad := c.pllBBad && c.activeB })))

/-- R371: the fast clock moves to the PLL that has locked to the new F. -/
def execFreqSwitchDone (s : State) : Res :=
  .next (match s.clk.freqNew, s.fast with
    | some f, true => (s.modClk (fun c => { c with freq := f, freqNew := none, activeB := !c.activeB })).pmOut 0xB 0 0 f.toNat
    | _, _ => s)

/-- R352, R373, R376: what starts a wake besides a buffered write and a flit. -/
def execWake (c : WakeCause) (s : State) : Res :=
  .next (match c with
    | .message w => s.pmIn w 4 (pmPart w = 0 && pmCount w = 0 && pmArg w = 0) State.startWake
    | .read => s.startWake
    | .timeout => s.startWake)

/-- R376: NO_STOP. -/
def execNoStop (w : W32) (s : State) : Res :=
  .next (s.pmIn w 5 (pmPart w = 0 && pmCount w = 0 && decide (pmArg w ≤ 1)) (fun s => s.modClk (fun c => { c with noStop := pmArg w = 1 })))

/-- R376, R396: every 10,000 ticks: the POWER message, and q 6 and q 10 of each partition. -/
def State.powerReport (s : State) : State :=
  let (i, s) := s.draw
  let s := s.pmOut 0xD 0 (popcount s.clk.clkOn) (Config.freePower i).toNat
  let act (p : Nat) : Nat := (s.ptReg p).active
  let total := ((List.range 16).map act).sum
  let e := (Config.freeEnergy i).toNat
  let ps := (List.range 16).filter (fun p => act p != 0)
  let s := ps.foldl (fun s p => ((s.meterEvent p 6 (e * act p / total)).meterEvent p 10 (act p)).modPt p (fun t => { t with active := 0 })) s
  s

def execPower (s : State) : Res := .next (if s.creditable then s.powerReport else s)

/-! Cluster clocks (R305, R372, R443) -/

/-- An operation holds a share on cluster `n`. -/
def State.shareOn (s : State) (n : Nat) : Bool := s.hw.ops.any (fun o => bit o.shares n)

/-- R443: a clock stop waits until its CLK_STOP record holds a staging entry. -/
def State.mayTraceStop (s : State) : Bool := !s.trc.enable || s.trc.ended || s.trc.staging.length < 64

/-- R372: a cluster has been idle for `CL_IDLE` ticks. -/
def execClusterClockStop (n : Fin 32) (s : State) : Res :=
  .next (
    if s.fast && bit s.clk.clkOn n.val && (s.cluster n.val).idle && !s.shareOn n.val && s.mayTraceStop then
      (s.stopClock n.val).modWeir (fun w => { w with prewoken := putBit w.prewoken n.val false })
    else s)

/-- R372: a requested start gives the first fast edge. -/
def execClusterClockStart (n : Fin 32) (s : State) : Res :=
  .next (if s.fast && bit s.clk.startReq n.val then s.startClock n.val else s)

/-- R305: a pre-woken cluster has received no work within 10 µs. -/
def execPrewakeTimeout (n : Fin 32) (s : State) : Res :=
  .next (
    if s.fast && bit s.weir.prewoken n.val && (s.cluster n.val).idle && !s.shareOn n.val && s.mayTraceStop then
      (s.stopClock n.val).modWeir (fun w => { w with prewoken := putBit w.prewoken n.val false })
    else s)

/-! PLLs (R373, R421, R422) -/

/-- R373: what must have held for `PLL_IDLE` ticks. -/
def State.blockIdle (s : State) : Bool :=
  s.clk.clkOn = 0 && s.clk.startReq = 0 && (List.range s.nPairs).all (fun k => (s.pair k).st = .idle || (s.pair k).st = .stopped)
    && s.hw.staged.isEmpty && s.hw.ops.isEmpty && s.hw.rings.all (fun r => !r.2.enable || (r.2.done = r.2.fetched && r.2.fetched = r.2.tail))
    && s.hw.backlogs.all (fun b => b.2.isEmpty)
    && s.ports.all (fun p => p.2.waiting.isEmpty && p.2.reads.isEmpty && p.2.writes.isEmpty)
    && s.pools.all (fun p => p.2.crcJobs.isEmpty && p.2.copyJobs.isEmpty && p.2.recs.all (fun r => r.2.copyTo.isNone))
    && s.fab.stagedT.all (fun t => t.2.isEmpty) && s.fab.partialT.all (fun t => t.2.isNone)
    && (List.range 16).all (fun p => !(bit s.cfg.keepWarm p && s.cfg.active.enabled p)) && !s.clk.noStop

/-- R373, R444: the trace is flushed to its stream ring, and the PLLs stop. -/
def execPllStop (s : State) : Res :=
  .next (
    if !s.fast || s.boot.stage != 4 || !s.blockIdle then s
    else
      let s := if s.trc.mode = 2 && bit s.trc.stream 63 then State.streamAll 257 s else s
      if s.trc.mode = 2 && bit s.trc.stream 63 && !s.trc.unstreamed.isEmpty then s
      else
        let s := (s.trace 0x08 0 0xFF 0 0 0).pmOut 0xC 0 0 0
        s.modClk (fun c => { c with awake := false, stoppedAt := c.tick, idle := 0 }))

/-- R421: the active PLL loses lock. -/
def execPllLockLoss (s : State) : Res :=
  .next (
    if !s.fast then s
    else
      let c := s.clk
      let other := if c.activeB then c.pllABad else c.pllBBad
      let s := s.modClk (fun c => if c.activeB then { c with pllBBad := true } else { c with pllABad := true })
      if other then s.enterFatal 1
      else
        let mark (o : Op) : Op := { o with unverified := true }
        (s.modClk (fun c => { c with activeB := !c.activeB })).modHw (fun h => { h with ops := h.ops.map mark }))

/-- R422: `REF_CLK` has been absent for 16 ticks. -/
def execRefClkAbsent (s : State) : Res := .next (if s.on then s.enterFatal 2 else s)

/-- R422: the self-check of the clock and reset unit fails. -/
def execClockUnitSelfCheckFail (s : State) : Res := .next (if s.on then s.enterFatal 3 else s)

/-! Time-outs -/

/-- R381: 2^16 ticks after reset release, the tags of abandoned requests may be used again. -/
def execResetTagQuarantineEnd (s : State) : Res :=
  .next (
    if s.on && s.boot.quarantine then
      let live (t : Tab (Option Req)) : Tab (Option Req) := t.filter (fun r => r.2.any (fun q => q.use != .abandoned))
      { s with ports := Tab.mapAll Port.reset (fun p => { p with reads := live p.reads, writes := live p.writes }) s.ports, boot := { s.boot with quarantine := false } }
    else s)

/-- R223, R344: a SWAIT's time-out expires; the signal is left as it was. -/
def execSignalTimeout (sp : Fin 8) (s : State) : Res :=
  .next (match (s.pair sp.val).swait, s.fast with
    | some w, true => if w.timeout = 0 then s else (s.unwait (.pair sp.val)).endSwait sp.val 1
    | _, _ => s)

end Sys2Proof.Machine
end

