-- ==== Sys2Proof/Machine/Swap.lean ====
section
/-! DEFINITION. SWAP (R315 to R322), the clearing of a cluster (R181), and RUN_PROGRAM (R16, R201, R202, R230, R237, R238). -/

namespace Sys2Proof.Machine

/-! Judging a set (R15, R316, R319) -/

/-- R15: a format default of an enabled partition needs option D. -/
def CfgSet.unfitted (cs : CfgSet) (x : Part) : Bool :=
  !x.optD && (List.range 16).any (fun p => cs.enabled p && ((cs.pool p).kf.isSub || (cs.pool p).vf.isSub))

/-- R319: the signal ranges of two partitions overlap. -/
def CfgSet.signalsOverlap (cs : CfgSet) (p q : Nat) : Bool :=
  cs.sigCnt p != 0 && cs.sigCnt q != 0 && cs.sigBase p < cs.sigBase q + cs.sigCnt q && cs.sigBase q < cs.sigBase p + cs.sigCnt p

/-- R319: what must hold of an enabled partition. -/
def CfgSet.partOk (cs : CfgSet) (p : Nat) : Bool :=
  let l1 := bits (cs.trRoot p) 0 5
  bit (cs.trRoot p) 63 && decide (9 ≤ l1 ∧ l1 ≤ 22) && (cs.pool p).valid

/-- R319: what must hold of every partition, enabled or not; `n` clusters are built. -/
def CfgSet.quotaOk (cs : CfgSet) (n p : Nat) : Bool :=
  decide (cs.decFloor p ≤ ((List.range n).filter (fun k => cs.assigned k && cs.clPart k = p)).length)
    && decide (cs.sigBase p + cs.sigCnt p ≤ 65536) && decide (cs.sigShr p ≤ cs.sigCnt p)

/-- A page-group ID of `p`'s pool is allocated (R244). -/
def State.poolLive (s : State) (p : Nat) : Bool := (s.pool p).recs.any (fun r => r.2.st != .free)

/-- R244, R319: the shadow set is valid. -/
def State.shadowValid (s : State) : Bool :=
  let a := s.cfg.active
  let b := s.cfg.shadow
  let ps := List.range 16
  let on := ps.filter b.enabled
  on.all b.partOk && ps.all (b.quotaOk s.nClusters) && (List.range s.nClusters).all (fun k => !b.assigned k || b.enabled (b.clPart k))
    && decide ((on.map b.ctxMin).sum ≤ 16384) && decide ((on.map b.bwMin).sum ≤ 64)
    && ps.all (fun p => ps.all (fun q => p = q || !b.signalsOverlap p q))
    && ps.all (fun p => !b.descReservedSet p)
    && on.all (fun p => !a.enabled p || (a.trRoot p = b.trRoot p && a.pt p 0x18 = b.pt p 0x18))
    && ps.all (fun p => !s.poolLive p || !(a.pool p).frozenDiffer (b.pool p))

/-- R316: a field that the lock of `p` protects differs between two sets; `n` clusters are built. -/
def CfgSet.lockedDiffer (a b : CfgSet) (n p : Nat) : Bool :=
  a.enabled p != b.enabled p || a.training p != b.training p || a.ctxMin p != b.ctxMin p || a.decFloor p != b.decFloor p || a.bwMin p != b.bwMin p
    || a.trRoot p != b.trRoot p || a.pt p 0x18 != b.pt p 0x18 || (List.range 16).any (fun i => a.pt p (0x80 + 8 * i) != b.pt p (0x80 + 8 * i))
    || (List.range n).any (fun k => (a.assigned k && a.clPart k = p) != (b.assigned k && b.clPart k = p))

/-- Locked partitions whose protected fields the shadow set would change. -/
def State.lockHits (s : State) : List Nat :=
  (List.range 16).filter (fun p => bit s.cfg.partLock p && s.cfg.active.lockedDiffer s.cfg.shadow s.nClusters p)

/-- R315: a SWAP from a ring of partition `w` has met the lock of `p`. -/
def State.swapLocked (s : State) (w p : Nat) : State :=
  let base := 0x100000 + p * 0x40000
  let s := (s.modCfg (fun c => { c with lockViolP := c.lockViolP ||| oneHot 16 p })).note 0x01 (some w) false 0 0xFF 0 base 0
  if s.recorder.lockRecs < 16 then
    (s.modRecorder (fun r => { r with lockRecs := r.lockRecs + 1 })).event 0x20 0 (some w) 0 [(0, 4, base), (4, 1, w)]
  else s

/-! SWAP (R320, R321) -/

/-- A SWAP completes in the step of its judgement. -/
def State.swapEnds (s : State) (p : Nat) (c : Cmd) (status detail : Nat) : State :=
  let (opid, s) := s.takeOpid
  s.finish p c { Compl.plain status detail with opid := opid }

/-- R321: clusters whose partition or assignment changes. -/
def State.movingOf (s : State) : BitVec 32 :=
  let a := s.cfg.active
  let b := s.cfg.shadow
  ((List.range s.nClusters).filter (fun k => a.assigned k != b.assigned k || a.clPart k != b.clPart k)).foldl (fun w k => w ||| oneHot 32 k) 0

/-- The state in which addresses of `p` translate through the root that the shadow set gives it. -/
def State.underShadow (s : State) (p : Nat) : State :=
  let root := s.cfg.shadow.trRoot p
  if root = s.rootOf p then s
  else { s with cfg := { s.cfg with rootInUse := Tab.set 0 s.cfg.rootInUse p root }, tr := { s.tr with tlbs := [] } }

/-- R321 step 1: the vectors and tables that the shadow set names are copied for it. -/
def State.copyTables (s : State) : State :=
  let b := s.cfg.shadow
  let words (p a n : Nat) : List W32 := (List.range n).map (fun i => BitVec.ofNat 32 ((s.underShadow p).vaNat p (a + 4 * i) 4))
  let f (b : CfgSet) (p : Nat) : CfgSet :=
    let d := (b.pool p).dim
    let fa := bits (b.pt p 0x20) 0 52
    let na := bits (b.pt p 0x28) 0 52
    { b with freqVec := Tab.set [] b.freqVec p (if b.enabled p && b.ropeEn p then words p fa d else []), normTab := Tab.set [] b.normTab p (if b.enabled p && b.normEn p && na != 0 then words p na (4 * d + 1) else []) }
  s.modCfg (fun c => { c with shadow := (List.range 16).foldl f b })

/-- R315, R320: a SWAP is judged; if it passes, `BUSY` is set and admission pauses. One that finds `BUSY` waits. -/
def State.judgeSwap (s : State) (p : Nat) (c : Cmd) : State :=
  if s.cfg.busy then s
  else if BitVec.ofNat 32 (expectEpochOf c) != s.cfg.epoch.setWidth 32 then s.swapEnds p c 0x20 0
  else if s.cfg.shadow.unfitted s.part then s.swapEnds p c 0x12 0
  else if !s.shadowValid then s.swapEnds p c 0x22 0x01
  else
    match s.lockHits with
    | [] =>
      let (opid, s) := s.takeOpid
      let m := s.movingOf
      (s.copyTables.unstage c).modCfg (fun f => { f with busy := true, swapping := some ⟨c, opid, m, false⟩ })
    | ps => (ps.foldl (fun s q => s.swapLocked p q) s).swapEnds p c 0x40 0

/-- SWAP. -/
def execSwap (c : Cmd) (s : State) : Res := .next (s.ringRow 0x0E c State.judgeSwap)

/-- R321 step 6, R238, R242: the SWAP completes: tags of customer images lose their valid bits, the record is written, `BUSY` falls. -/
def State.completeSwap (s : State) (x : SwapInProgress) : State :=
  let drop (t : W32) : W32 := if 32 ≤ bits t 0 6 then putBit t 31 false else t
  let s := (List.range 8).foldl (fun s k => s.modPair k (fun y => { y with tag0 := drop y.tag0, tag1 := drop y.tag1 })) s
  let s := s.modCfg (fun c => { c with busy := false, swapping := none })
  s.completeCmd (s.ring x.cmd.ring).part.toNat x.cmd { Compl.plain 0 0 with opid := x.opid }

/-- The SWAP in progress completes once every moving cluster is clear. -/
def State.swapCheck (s : State) : State :=
  match s.cfg.swapping with
  | some x => if x.switched && (setList x.moving).all (fun n => !(s.cluster n).clearing) then s.completeSwap x else s
  | none => s

/-- R321: partitions that the shadow set enables with a root other than their root in use. -/
def State.rootChanges (s : State) : List Nat :=
  (List.range 16).filter (fun p => s.cfg.shadow.enabled p && s.cfg.shadow.trRoot p != s.rootOf p)

/-- R321 step 3: the moving clusters have reached their boundaries, and no operation uses a root that changes. -/
def State.atBoundary (s : State) (m : BitVec 32) : Bool :=
  (setList m).all (fun n => (s.cluster n).queue.isEmpty && !(s.cluster n).checking) && s.rootChanges.all (fun p => s.hw.ops.all (fun o => o.part != p))

/-- R321: a new root comes into use for `p`; what was translated through the old one is dropped. -/
def State.takeRoot (s : State) (p : Nat) : State :=
  let s := s.modCfg (fun c => { c with rootInUse := Tab.set 0 c.rootInUse p (c.active.trRoot p) })
  let s := s.modHw (fun h => { h with staged := h.staged.map (fun x => if x.part = p then { x with walked := [] } else x) })
  let s := s.modTr (fun t => { t with misses := Tab.set [] t.misses p [], walkers := t.walkers.filter (fun w => w.space != p), counters := t.counters.filter (fun x => x.1 != p), tlbs := Tab.mapAll [] (fun l => l.filter (fun x => x.space != p)) t.tlbs })
  s.queueMisses p

/-- A RUN_PROGRAM loses the clusters that move. -/
def Op.cut (o : Op) (m : BitVec 32) : Op :=
  if opcodeOf o.cmd = 0x0F then { o with clusters := o.clusters &&& ~~~m, shares := o.shares &&& ~~~m, lent := o.lent &&& ~~~m } else o

/-- R179, R181, R324, R365: cluster `n` moves: its role epoch rises, its windows are withdrawn, and it is cleared before it takes work. -/
def State.moveCluster (s : State) (n : Nat) : State :=
  (s.modCluster n (fun c => { c with roleEpoch := c.roleEpoch + 1, clearing := true })).withdraw n

/-- R179: the cache size of the cluster's partition is taken at its next clear; a change on a cluster that stays withdraws its windows for it. -/
def State.resize (s : State) (n : Nat) : State :=
  let k := BitVec.ofNat 2 (if s.cfg.active.assigned n then s.cfg.active.cacheMib (s.clPart n) else 0)
  let c := s.cluster n
  let s := s.setCluster n { c with cacheNext := k }
  if k = c.cacheMib then s else s.withdraw n

/-- R245: a new descriptor of a pool without a live group is taken up at the next ring enable. -/
def State.renewPool (s : State) (old : CfgSet) (p : Nat) : State :=
  if s.poolLive p || old.pool p = s.desc p then s else s.modPool p (fun x => { x with taken := false })

/-- R321 step 4: the sets are exchanged, in one step. -/
def State.switch (s : State) (x : SwapInProgress) : State :=
  let roots := s.rootChanges
  let old := s.cfg.active
  let s := s.modCfg (fun c => { c with active := c.shadow, shadow := c.active, epoch := c.epoch + 1, swapping := some { x with switched := true } })
  let s := roots.foldl State.takeRoot s
  let s := (setList x.moving).foldl State.moveCluster s
  let s := (List.range s.nClusters).foldl State.resize s
  let s := (s.hw.ops.filter (fun o => opcodeOf o.cmd = 0x0F)).foldl (fun s o => s.leaveLoans o x.moving) s
  let s := s.modHw (fun h => { h with ops := h.ops.map (fun (o : Op) => o.cut x.moving) })
  let s := (List.range 16).foldl (fun s p => s.replaceAll x.moving p) s
  let s := (List.range 16).foldl (fun s p => s.renewPool old p) s
  let s := (List.range 16).foldl State.judgeFamine s
  (s.trace 0x0A 0 0xFF x.opid s.cfg.epoch.toNat 0).swapCheck

/-- R321: the switch point. -/
def execSwapSwitchPoint (s : State) : Res :=
  .next (match s.cfg.swapping, s.fast with
    | some x, true => if !x.switched && s.atBoundary x.moving then s.switch x else s
    | _, _ => s)

/-! Clearing a cluster (R181) -/

/-- A request of cluster `n`'s stream unit has not returned. -/
def State.streamOut (s : State) (n : Nat) : Bool :=
  let mine (r : Req) : Bool := match r.use with
    | .stream m _ _ => m = n
    | .builtin m _ _ _ => m = n
    | _ => false
  s.ports.any (fun p => p.2.waiting.any mine || p.2.reads.any (fun r => r.2.any mine) || p.2.writes.any (fun r => r.2.any mine))

/-- R179, R181: a cluster that moves, or whose cache size changes, is clear. -/
def execClusterClearDone (n : Fin 32) (s : State) : Res :=
  .next (
    let c := s.cluster n.val
    if s.fast && (c.clearing || c.cacheNext != c.cacheMib) && c.queue.isEmpty && !s.streamOut n.val && !s.withdrawing n.val then
      (s.setCluster n.val c.cleared).swapCheck
    else s)

/-! RUN_PROGRAM (R16, R201, R202, R237, R238) -/

/-- R16, R237: the image needs a unit that is not fitted. -/
def imageUnfitted (x : Part) (h : BitVec 512) : Bool :=
  (bit h 48 && !x.optD) || (bit h 50 && !x.optP) || (bit h 51 && !x.optS)

/-- R237, R238: a bad `MAGIC`, `ISA`, reserved field, length or entry. -/
def imageHeaderBad (h : BitVec 512) : Bool :=
  bits h 0 32 != 0x315A464C || bits h 32 16 != 1 || bit h 49 || bits h 52 12 != 0 || bits h 192 320 != 0
    || bits h 64 32 = 0 || decide (16384 < bits h 64 32) || decide (126976 < bits h 128 32) || decide (bits h 64 32 ≤ bits h 96 32)

/-- R237: the CRC covers bytes 24 to the end of the data. -/
def State.imageCrcBad (s : State) (a : Nat) (h : BitVec 512) : Bool :=
  crc32 (s.vaRead 16 (a + 24) (s.imageBytes a - 24)) != BitVec.ofNat 32 (bits h 160 32)

/-- Clusters that a RUN_PROGRAM asks for, among those its partition has in service and no held pair drives (R234, R289). -/
def State.programClusters (s : State) (p : Nat) (c : Cmd) : BitVec 32 :=
  let all := clusterMask (s.freeClusters s.cfg.active p)
  if fld c 24 0 32 = 0 then all else all &&& BitVec.ofNat 32 (fld c 24 0 32)

/-- R202, R238: the pairs of the clusters stand idle. -/
def State.pairsIdle (s : State) (m : BitVec 32) : Bool := (pairsOf m).all (fun k => (s.pair k).op.isNone && (s.pair k).st = .idle)

/-- R238: a RUN_PROGRAM whose image passes takes its pairs, which load the image. -/
def State.startProgram (s : State) (p : Nat) (c : Cmd) : State :=
  let m := s.programClusters p c
  if !s.pairsIdle m then s
  else
    let (o, s) := s.admitOp p c
    let s := s.setOp { o with clusters := m }
    let s := (pairsOf m).foldl (fun s k => s.modPair k (fun x => { x with op := some o.opid, part := p, st := .loading })) s
    s.share o.opid

/-- R238, R333: the image is looked up, its units checked, then its header and CRC. -/
def State.runProgram (s : State) (p : Nat) (c : Cmd) : State :=
  let bad : State := s.finish p c (Compl.plain 0x22 0x0A)
  match s.cfg.active.imageVa c with
  | none => bad
  | some a =>
    match s.judgeImage a with
    | .hard => s.imageFault p c a
    | .held => s
    | .ok =>
      let h := BitVec.ofNat 512 (s.vaNat 16 a 64)
      if imageUnfitted s.part h then s.finish p c (Compl.plain 0x12 0)
      else if imageHeaderBad h || s.imageCrcBad a h then bad
      else s.startProgram p c

def execRunProgram (c : Cmd) (s : State) : Res := .next (s.ringRow 0x0F c State.runProgram)

/-- R242: the tag of a bank. -/
def imageTag (epoch : W64) (image : Nat) : W32 := BitVec.ofNat 32 (2 ^ 31 + epoch.toNat % 2 ^ 14 * 2 ^ 16 + image % 64)

/-- The inactive bank's tag is valid and shows image `i` (R238). -/
def Pair.shows (x : Pair) (i : Nat) : Bool :=
  let t := if x.bank then x.tag0 else x.tag1
  bit t 31 && bits t 0 6 = i

/-- The code of an image in the inactive bank, with its tag. -/
def Pair.loadCode (x : Pair) (code : List W64) (tag : W32) : Pair :=
  let put (m : Tab W64) : Tab W64 := (code.zipIdx).foldl (fun m c => Tab.set 0 m c.2 c.1) m
  if x.bank then { x with ib0 := put x.ib0, tag0 := tag, tmovBank0 := false } else { x with ib1 := put x.ib1, tag1 := tag, tmovBank1 := false }

/-- R201, R202: the data memory at the entry of a program of partition `p`. -/
def Pair.loadData (x : Pair) (p : Nat) (cmd args data : List Byte) : Pair :=
  let m : Tab Byte := if x.lastPart.any (fun q => q != p) then [] else x.dmem
  let m := writeBytes (writeBytes m 0 cmd) 0x40 (List.replicate 0xC0 0)
  { x with dmem := writeBytes (writeBytes m 0x100 args) 0x1000 data }

/-- R202, R230, R238: banks swap, registers are empty, and the pair starts at `ENTRY`. -/
def Pair.enterProgram (x : Pair) (entry codeLen : Nat) : Pair :=
  { x with g := [], p := [], d := [], bank := !x.bank, pc := BitVec.ofNat 14 entry, codeLen := codeLen, st := .running, claimed := false,
           vruns := 0, tmovs := [], swait := none, lent := false, recalled := false }

/-- R238: the image is loaded in every pair of the operation, and they start. -/
def State.imageLoaded (s : State) (o : Op) (a : Nat) : State :=
  let h := BitVec.ofNat 512 (s.vaNat 16 a 64)
  let n := bits h 64 32
  let code := (List.range n).map (fun i => BitVec.ofNat 64 (s.vaNat 16 (a + 64 + 8 * i) 8))
  let data := s.vaRead 16 (a + 64 + 8 * n) (bits h 128 32)
  let args := s.vaRead o.part (argsOf o.cmd) (argLenOf o.cmd)
  let tag := imageTag s.cfg.epoch (imageOf o.cmd)
  let load (x : Pair) : Pair :=
    let x := if x.shows (imageOf o.cmd) then x else x.loadCode code tag
    (x.loadData o.part (leBytes 64 o.cmd.w.toNat) args data).enterProgram (bits h 96 32) n
  let s := (pairsOf o.clusters).foldl (fun s k => s.modPair k load) s
  (s.setOp { o with loaded := true }).progCheck o.opid

/-- The load of an operation's image ends. -/
def execImageLoadDone (opid : W32) (s : State) : Res :=
  .next (match s.op opid, s.fast with
    | some o, true =>
      if opcodeOf o.cmd != 0x0F || o.loaded || o.st != .running then s
      else match o.set.imageVa o.cmd with
        | some a => s.imageLoaded o a
        | none => s
    | _, _ => s)

end Sys2Proof.Machine
end

