-- ==== Sys2Proof/Machine/Resets.lean ====
section
/-! DEFINITION. Resets (R379 to R381, R387, R453): cold reset, block reset, partition reset (R329, R345), sequence kill (R380). -/

namespace Sys2Proof.Machine

/-! Cold reset and block reset -/

/-- R435: when `PORST_N` falls, the record that is being programmed is completed, and no other. -/
def Recorder.lastWrite (x : Recorder) : Recorder :=
  if x.nodev then x
  else match x.seals, x.queue with
    | (slot, r, _) :: _, _ => { x.program r with permanent := Tab.set erasedSlot (x.program r).permanent (4096 + slot) (slotOf x.rseq x.pcycle r) }
    | [], r :: _ => x.program r
    | [], [] => x

/-- R379, R434, R453: the recorder after a cold reset: the device with its record counts; its queue is lost. -/
def Recorder.cold (x : Recorder) : Recorder :=
  let y := x.lastWrite
  { Recorder.reset with rseq := y.rseq, pcycle := y.pcycle, header := y.header, permanent := y.permanent, repair := y.repair,
                        circulating := y.circulating, nextPerm := y.nextPerm, nextRepair := y.nextRepair, nextCirc := y.nextCirc }

/-- R379, R453: a cold reset. What stays: the part as built, the record device, the meter's island, host memory, the inputs that other
chips drive, and what has been sent. -/
def State.cold (s : State) : State :=
  { State.reset with part := s.part, boot := { Boot.reset with inReset := true, kind := .cold }, recorder := s.recorder.cold,
                     link := { Link.reset with hold := s.link.hold, powered := s.link.powered }, smu := s.smu, mem := s.mem, out := s.out,
                     fab := { Fab.reset with sent := s.fab.sent }, peer := { Peer.reset with sent := s.peer.sent, resent := s.peer.resent },
                     freeCtr := s.freeCtr, pending := s.pending }

/-- R379: `PORST_N` has been low for 100 ticks. -/
def execColdReset (s : State) : Res := .next s.cold

/-- R453: what a cluster keeps through a block reset. -/
def Cluster.blockReset (c : Cluster) : Cluster :=
  { Cluster.reset with colOut := c.colOut, rowOut := c.rowOut, lanesOut := c.lanesOut, fieldRep := c.fieldRep, spares := c.spares,
                       corrected := c.corrected, repairs := c.repairs, roleEpoch := c.roleEpoch }

/-- What a steering pair keeps: its count of instructions (R241). -/
def Pair.blockReset (x : Pair) : Pair := { Pair.reset with instret := x.instret }

/-- R381: a request in flight is abandoned. -/
def Req.abandon (r : Req) : Req := { r with use := .abandoned }

/-- R353, R381: a port holds no credit; its requests in flight are abandoned. -/
def Port.blockReset (p : Port) : Port :=
  { Port.reset with reads := p.reads.map (fun (r : Nat × Option Req) => (r.1, r.2.map Req.abandon)), writes := p.writes.map (fun (r : Nat × Option Req) => (r.1, r.2.map Req.abandon)) }

/-- R439, R445: the RAS registers that hold through a block reset. -/
def Ras.blockReset (r : Ras) : Ras :=
  { Ras.reset with b := r.b, clOut := r.clOut, pairOut := r.pairOut, total := r.total, log := r.log }

/-- R432, R434, R445: the recorder goes on; `REC_CTL` and `REC_UTC` are cleared. -/
def Recorder.blockReset (x : Recorder) : Recorder := { x with cal := false, utc := 0, utcSet := false, testInUse := false }

/-- R371, R379, R387, R421: clocks after a block reset; the always-on counters go on, and a PLL that lost lock is not tried again. -/
def Clk.blockReset (c : Clk) (last : BitVec 2) : Clk :=
  { Clk.reset with tick := c.tick, fc := c.fc, opTime := c.opTime, activeB := c.activeB, pllABad := c.pllABad && c.activeB,
                   pllBBad := c.pllBBad && !c.activeB, last := last, blockResets := bump c.blockResets,
                   stoppedAt := if c.awake then c.tick else c.stoppedAt,
                   clStoppedAt := (setList c.clkOn).foldl (fun t n => Tab.set 0 t n c.tick) c.clStoppedAt }

/-- R379, R381, R453: a block reset; `last` is `RST_STS.LAST`. -/
def State.blockReset (s : State) (kind : ResetKind) (last : BitVec 2) : State :=
  { State.reset with
    part := s.part, clk := s.clk.blockReset last,
    boot := { Boot.reset with inReset := true, kind := kind, norec := s.boot.norec, meterOut := s.boot.meterOut },
    cfg := { Cfg.reset with epoch := s.cfg.epoch },
    ports := Tab.mapAll Port.reset Port.blockReset s.ports,
    fab := { Fab.reset with sent := s.fab.sent }, peer := { Peer.reset with sent := s.peer.sent, resent := s.peer.resent },
    clusters := Tab.mapAll Cluster.reset Cluster.blockReset s.clusters,
    pairs := Tab.mapAll Pair.reset Pair.blockReset s.pairs,
    ras := s.ras.blockReset, recorder := s.recorder.blockReset, trc := s.trc, link := s.link, smu := s.smu, mem := s.mem, out := s.out,
    freeCtr := s.freeCtr, pending := s.pending }

/-- A block reset starts; while a cold reset is in progress it changes nothing. -/
def State.startBlockReset (s : State) (kind : ResetKind) (last : BitVec 2) : State :=
  if s.boot.inReset && s.boot.kind = .cold then s else s.blockReset kind last

/-- R379: `BLK_RST_N` has been low for 10 ticks. -/
def execBlockReset (s : State) : Res := .next (s.startBlockReset .blkPin 1)

/-! Partition reset (R329, R345) -/

/-- R345: a waiter outside the partition is released with OWNER_LOST. -/
def State.ownerLost (s : State) (w : Waiter) : State :=
  match w with
  | .pair sp => s.endSwait sp 2
  | .command r i =>
    match s.hw.staged.find? (fun x => x.cmd.ring = r && x.cmd.idx = i) with
    | some x => s.finish x.part x.cmd (Compl.plain 0x21 0)
    | none => s
  | .stream n tag => s.modCluster n (fun c => c.takeSig tag (some 0x21))

/-- R314, R329: signal `n` lies in the range of partition `p`, enabled or not. -/
def CfgSet.holds (cs : CfgSet) (p n : Nat) : Bool := cs.sigBase p ≤ n && n < cs.sigBase p + cs.sigCnt p

/-- R329 step 3: the waiters of other partitions on `p`'s signals are released, and the signals become clear. -/
def State.resetSignals (s : State) (p : Nat) : State :=
  let ws := (s.sig.waiters.filter (fun w => s.cfg.active.holds p w.1)).map Prod.snd
  let s := s.modSig (fun g => { g with waiters := g.waiters.filter (fun w => !s.cfg.active.holds p w.1), raised := g.raised.filter (fun r => !s.cfg.active.holds p r.1) })
  ws.foldl State.ownerLost s

/-- R329 step 1: the rings of `p` leave service; `FETCHED` and `DONE` stay readable. -/
def State.stopRings (s : State) (p : Nat) : State :=
  let stop (r : Ring) : Ring := if r.part.toNat = p then { r with enable := false, draining := false, waits := false, unwritten := [] } else r
  s.modHw (fun h => { h with rings := h.rings.map (fun (r : Nat × Ring) => (r.1, stop r.2)) })

/-- R329 step 2: a cluster queue loses the entries of `p`. -/
def Cluster.dropPart (c : Cluster) (p : Nat) : Cluster :=
  let tags := (c.queue.filter (fun e => e.part = p)).map (fun e => e.tag)
  { c with queue := c.queue.filter (fun e => e.part != p), sb := c.sb.filter (fun b => !tags.contains b.tag), tiles := c.tiles.filter (fun t => !tags.contains t.tag) }

/-- Signals on which nothing of partition `p` waits any more. -/
def State.dropWaiters (s : State) (p : Nat) : State :=
  let mine (w : Waiter) : Bool := match w with
    | .pair sp => (s.pair sp).op.isSome && (s.pair sp).part = p
    | .command r _ => (s.ring r).part.toNat = p
    | .stream n tag => (s.cluster n).queue.any (fun e => e.tag = tag && e.part = p)
  s.modSig (fun g => { g with waiters := g.waiters.filter (fun w => !mine w.2) })

/-- R329 step 2: the operations of `p` end without a record, and give back what they hold. -/
def State.dropOps (s : State) (p : Nat) : State :=
  let ops := s.hw.ops.filter (fun o => o.part = p)
  let s := ops.foldl (fun s o => ((s.leaveLoans o o.lent).freePairs o).dropOp o.opid) s
  let s := { s with clusters := s.clusters.map (fun (c : Nat × Cluster) => (c.1, c.2.dropPart p)), ports := s.ports.map (fun (k : Nat × Port) => (k.1, { k.2 with waiting := k.2.waiting.filter (fun r => r.part != p) })) }
  s.modPt p (fun t => { t with killGo := false, rringWait := [] })

/-- R329: the commands of `p` that are fetched and not admitted end without a record; so does a SWAP from a ring of `p`. -/
def State.dropStaged (s : State) (p : Nat) : State :=
  let s := s.modHw (fun h => { h with staged := h.staged.filter (fun x => x.part != p), light := h.light.filter (fun x => x.2.part != p) })
  let s := s.modTr (fun t => { t with misses := Tab.set [] t.misses p [], walkers := t.walkers.filter (fun w => w.space != p) })
  match s.cfg.swapping with
  | some x => if (s.ring x.cmd.ring).part.toNat = p then s.modCfg (fun c => { c with busy := false, swapping := none }) else s
  | none => s

/-- R329 step 4: the contexts of `p` become FREE and its backlog is emptied; the block keeps no state of its pool. -/
def State.dropContexts (s : State) (p : Nat) : State :=
  let s := s.modHw (fun h => { h with seqs := h.seqs.filter (fun e => e.1 / 16384 != p), backlogs := Tab.set [] h.backlogs p [] })
  s.modPool p (fun x => { Pool.reset with hashHits := x.hashHits, cow := x.cow, tailReclaim := x.tailReclaim, evicted := x.evicted, restored := x.restored, corrupt := x.corrupt, scrubEn := x.scrubEn, scrubPeriod := x.scrubPeriod })

/-- R329, R411: a reset of partition `p` starts: steps 1 to 4, and the withdrawals of step 5. -/
def State.startPartReset (s : State) (p : Nat) : State :=
  if bit s.cfg.resetting p then s
  else
    let n := s.entryNo
    let s := ((s.note 0x11 (some p) true 3 0xFF 0 0 0).classPMark p 0x11 0 n).modCfg (fun c => { c with resetting := c.resetting ||| oneHot 16 p })
    let s := ((((s.stopRings p).dropWaiters p).resetSignals p).dropOps p).dropStaged p
    (s.clustersOf s.cfg.active p).foldl State.withdraw (s.dropContexts p)

/-- R328: a write of `AX_PART_CTL`: `KEEP_WARM` as written; each 1 in `RESET` starts a reset. -/
def State.writePartCtl (s : State) (v : W64) : State :=
  (setList (v.setWidth 16 : W16)).foldl State.startPartReset (s.modCfg (fun c => { c with keepWarm := v.extractLsb' 16 16 }))

/-- R329: a memory request of `p` is in flight. -/
def State.drains (s : State) (p : Nat) : Bool :=
  s.ports.any (fun k => k.2.reads.any (fun r => r.2.any (fun q => q.part = p && q.use != .abandoned)) || k.2.writes.any (fun r => r.2.any (fun q => q.part = p && q.use != .abandoned)))

/-- The clusters that the active set assigns to `p`, in service or not. -/
def State.assignedTo (s : State) (p : Nat) : List Nat :=
  (List.range s.nClusters).filter (fun n => s.cfg.active.assigned n && s.clPart n = p)

/-- R329 step 5, R181, R453: the clusters of `p` are cleared, their role epochs rise, and so are the memories of pairs that `p` used last. -/
def State.finishPartReset (s : State) (p : Nat) : State :=
  let clear (c : Cluster) : Cluster := { c.cleared with roleEpoch := c.roleEpoch + 1 }
  let wipe (x : Pair) : Pair := if x.lastPart = some p && x.op.isNone then { x with g := [], p := [], d := [], dmem := [], lastPart := none } else x
  let s := (s.assignedTo p).foldl (fun s n => s.modCluster n clear) s
  let s := { s with pairs := s.pairs.map (fun (x : Nat × Pair) => (x.1, wipe x.2)) }
  let s := s.modCfg (fun c => { c with resetting := putBit c.resetting p false })
  (s.modRas (fun r => { r with pstop := putBit r.pstop p false })).swapCheck

/-- R329: the drains and withdrawals of a partition reset are over. -/
def execPartitionResetDone (p : Fin 16) (s : State) : Res :=
  .next (
    if s.creditable && bit s.cfg.resetting p.val && !s.drains p.val && (s.clustersOf s.cfg.active p.val).all (fun n => !s.withdrawing n) then
      s.finishPartReset p.val
    else s)

/-! Sequence kill (R380) -/

/-- R348: a host write that is ignored: its trouble-log entry. -/
def State.ignoredWrite (s : State) (part : Option Nat) (off : Nat) (v : W64) : State := s.note 0x0F part true 0 0xFF 0 off v.toNat

/-- R380: a write of `PT_KILL` at offset `off`. -/
def State.writeKill (s : State) (p off : Nat) (v : W64) : State :=
  let q := bits v 0 14
  let st := (s.seq p q).st
  if !bit v 63 then s.modPt p (fun t => { t with killSqid := BitVec.ofNat 14 q })
  else if st = .free || st = .spilled then s.ignoredWrite (some p) off v
  else
    let s := (s.modPt p (fun t => { t with killSqid := BitVec.ofNat 14 q })).kill p q 0
    let live := s.hw.ops.any (fun o => o.part = p && sqidOf o.cmd = q && !([0x02, 0x0F].contains (opcodeOf o.cmd)))
    s.modPt p (fun t => { t with killGo := live })

end Sys2Proof.Machine
end

