-- ==== Sys2Proof/Machine/HostPort.lean ====
section
/-! DEFINITION. The host command port (R349 to R352): every register that the host can write (R18, R19, R458), under its access code. A
write that has a row of its own and a REG_WRITE of the same offset are one and the same host write. -/

namespace Sys2Proof.Machine

/-! Ranges -/

/-- R352: the power, clock and reset range. -/
def powerRange (off : Nat) : Bool := decide (0x10000 ≤ off ∧ off < 0x20000)

/-- R458: the partition of a partition window and the offset in it. -/
def partWindow (off : Nat) : Option (Nat × Nat) :=
  if 0x100000 ≤ off ∧ off < 0x500000 then some ((off - 0x100000) / 0x40000, (off - 0x100000) % 0x40000) else none

/-- Offset of register `o` in partition `p`'s window. -/
def ptOff (p o : Nat) : Nat := 0x100000 + p * 0x40000 + o

/-- R317: the writable bits of a register of the configuration set; none: no such register. -/
def cfgMask (s32 : Bool) (off : Nat) : Option W64 :=
  if off % 8 != 0 then none
  else if off = 0x200 then some (BitVec.allOnes 64)
  else if off = 0x208 then some (if s32 then BitVec.allOnes 64 else 0)
  else if off = 0x210 then some 0xFFFFFFFF
  else if 0x1000 ≤ off && off ≤ 0x10F8 then some 0x800FFFFFFFFFFFFF
  else match partWindow off with
    | none => none
    | some (_, o) =>
      if o = 0 then some 0xFEFFFFFFFFF00000
      else if o = 8 then some 0x0000FFFF0000FFFF
      else if o = 0x10 then some 0x800FFFFFFFFFF01F
      else if o = 0x18 then some 0x0003FFFFFFFFFFFF
      else if o = 0x20 || o = 0x28 then some 0x000FFFFFFFFFFFFF
      else if 0x80 ≤ o && o ≤ 0xF8 then some (BitVec.allOnes 64)
      else none

/-! The units' registers -/

/-- R317, R318: a write of the shadow set; while `BUSY` is 1 it is ignored and sets `SHADOW_LOST`. -/
def State.writeConfig (s : State) (off : Nat) (m v : W64) : State :=
  if s.cfg.busy then s.modCfg (fun c => { c with shadowLost := true })
  else s.modCfg (fun c => { c with shadow := c.shadow.write off (v &&& m) })

/-- R315, R316: `AX_PART_LOCK`: 1s set clear bits; a 1 to a set bit is a locked write. -/
def State.writePartLock (s : State) (v : W64) : State :=
  let w : W16 := v.setWidth 16
  let hit := s.cfg.partLock &&& w
  let s := s.modCfg (fun c => { c with partLock := c.partLock ||| w })
  if hit = 0 then s else s.lockedWrite 0x118 v

/-- R388, R315: `PEER_CTL`; a part without option P ignores it. -/
def State.writePeerCtl (s : State) (v : W64) : State :=
  if !s.part.optP then s
  else
    let first := !s.glob.peerIdSet
    let s := s.modGlob (fun g => { g with peerEnable := bit v 63, foMask := v.setWidth 8, peerId := if first then v.extractLsb' 32 12 else g.peerId, peerIdSet := true })
    if first then s else s.lockedWrite 0x900 v

/-- The global range (R318, R328, R388). -/
def State.writeGlobal (s : State) (off : Nat) (v : W64) : State :=
  match off with
  | 0x100 => s.modCfg (fun c => { c with view := bit v 0, shadowLost := c.shadowLost && !bit v 62 })
  | 0x110 => s.writePartCtl v
  | 0x118 => s.writePartLock v
  | 0x120 => s.modCfg (fun c => { c with lockViolP := c.lockViolP &&& ~~~(v.extractLsb' 16 16), lockViol := c.lockViol &&& ~~~(v.setWidth 8) })
  | 0x300 => s.modGlob (fun g => { g with irqAddr := v &&& 0x800FFFFFFFFFFFF8 })
  | 0x308 => s.modGlob (fun g => { g with irqVec0 := v })
  | 0x310 => s.modGlob (fun g => { g with irqVec1 := v &&& 0xFFFF })
  | 0x318 => s.modGlob (fun g => { g with irqPend := g.irqPend &&& ~~~v })
  | 0x900 => s.writePeerCtl v
  | _ => s

/-- The power, clock and reset range (R387). -/
def State.writePower (s : State) (off : Nat) (v : W64) : State :=
  match off with
  | 0x10008 => s.modClk (fun c => { c with clIdle := v.extractLsb' 32 16, pllIdle := v.setWidth 32 })
  | 0x10020 =>
    if !bit v 0 then s
    else if bits v 48 16 = 0xB10C then s.startBlockReset .rstCtl 2
    else s.ignoredWrite none 0x10020 v
  | _ => s

/-- The RAS range (R445). -/
def State.writeRas (s : State) (off : Nat) (v : W64) : State :=
  match off with
  | 0x20008 => s.modRas (fun r => { r with pstop := r.pstop &&& ~~~(v.setWidth 16) })
  | 0x20108 => s.modRas (fun r => { r with tlogSel := v.setWidth 32 })
  | 0x20200 => s.modRecorder (fun r => { r with cal := bit v 0 })
  | 0x20208 => s.modRecorder (fun r => { r with utc := v, utcSet := true })
  | _ => s

/-- The trace range (R442, R446). -/
def State.writeTrace (s : State) (off : Nat) (v : W64) : State :=
  match off with
  | 0x30000 => s.modTrc (fun t => { t with enable := bit v 63, mode := v.extractLsb' 61 2, flush := t.flush || bit v 0 })
  | 0x30008 => s.modTrc (fun t => { t with parts := v.extractLsb' 16 16, types := v.setWidth 16 })
  | 0x30018 => s.modTrc (fun t => { t with stream := v &&& 0x800FFFFFFFFFF01F })
  | 0x30020 => s.modTrc (fun t => { t with sHead := v.extractLsb' 32 32 })
  | 0x30030 => (s.modTrc (fun t => { t with mark := v.setWidth 32 })).trace 0x0E 0 0xFF 0 (bits v 0 32) 0
  | 0x30038 => s.modTrc (fun t => { t with sel := v.setWidth 15 })
  | _ => s

/-- The translation range (R339). -/
def State.writeTr (s : State) (off : Nat) (v : W64) : State :=
  match off with
  | 0x40000 =>
    match s.tr.groot with
    | none => s.modTr (fun t => { t with groot := some ((v &&& 0x000FFFFFFFFFF01F) ||| oneHot 64 63) })
    | some _ => s.lockedWrite 0x40000 v
  | 0x40008 => s.writeInv v
  | 0x40010 => s.modTr (fun t => { t with invOvf := t.invOvf && !bit v 4 })
  | 0x40018 => s.modTr (fun t => { t with acc := v &&& 0x800FFFFFFFFFFFFF })
  | 0x40020 => s.modTr (fun t => { t with accHead := v.extractLsb' 32 32 })
  | _ => s

/-- R284: a field of the selected ring that can be written only while the ring is out of service. -/
def State.writeRingField (s : State) (f : Ring → Ring) : State :=
  s.modRing s.hw.ringSel.toNat (fun r => if r.enable then r else f r)

/-- Headwater's range (R281, R283, R285, R311). -/
def State.writeHw (s : State) (off : Nat) (v : W64) : State :=
  match off with
  | 0xA0000 => s.modHw (fun h => { h with ringSel := v.setWidth 14 })
  | 0xA0008 => s.writeRingField (fun r => { r with base := v &&& 0x000FFFFFFFFFF000 })
  | 0xA0010 => s.writeRingField (fun r => { r with cbase := v &&& 0x000FFFFFFFFFF000 })
  | 0xA0018 => if bit v 63 then s.enableRing v else s.disableRing v
  | 0xA0028 => s.modRing s.hw.ringSel.toNat (fun r => { r with badBell := r.badBell && !bit v 1, offBell := r.offBell && !bit v 0 })
  | 0xA0030 => s.writeRingField (fun r => { r with start := v.setWidth 32 })
  | 0xB0000 => s.modHw (fun h => { h with seqSel := v.setWidth 18 })
  | 0xC0000 =>
    match s.hw.oxbow with
    | none => s.modHw (fun h => { h with oxbow := some ((v &&& 0x000FFFFFFC000000) ||| oneHot 64 63) })
    | some _ => s.lockedWrite 0xC0000 v
  | 0xC0008 =>
    match s.hw.backlogBase with
    | none => s.modHw (fun h => { h with backlogBase := some ((v &&& 0x000FFFFFFFF00000) ||| oneHot 64 63) })
    | some _ => s.lockedWrite 0xC0008 v
  | 0xC0018 => s.modWeir (fun w => { w with floorOver := w.floorOver && !bit v 63 })
  | off => if 0x80000 ≤ off ∧ off < 0xA0000 then s.ringBell ((off - 0x80000) / 8) v else s

/-- R346: a write of `PT_SIG`. -/
def State.writeSig (s : State) (p : Nat) (v : W64) : State :=
  let n := bits v 0 16
  let op := bits v 16 2
  if op = 3 || !s.cfg.active.owns p n then s.ignoredWrite (some p) (ptOff p 0x200) v
  else
    let s := s.modSig (fun g => { g with ptNum := Tab.set 0 g.ptNum p (v.setWidth 16), ptOp := Tab.set 0 g.ptOp p op })
    if op = 1 then s.raise n else if op = 2 then s.setRaised n false else s

/-- The registers of partition `p`'s window that lie outside the configuration sets (R277, R346, R348, R388, R445). -/
def State.writePt (s : State) (p o : Nat) (v : W64) : State :=
  match o with
  | 0x200 => s.writeSig p v
  | 0x300 => s.writeResume p v
  | 0x308 => s.modPt p (fun t => { t with rring := v &&& 0x800FFFFFFFFFF800 })
  | 0x310 => (s.modPt p (fun t => { t with rringHead := v.extractLsb' 32 32 })).retryResume p
  | 0x320 => s.writeKill p (ptOff p 0x320) v
  | 0x400 => s.modPool p (fun x => { x with scrubEn := bit v 63, scrubPeriod := v.setWidth 32 })
  | 0x2008 => s.modPool p (fun x => { x with floorSeen := x.floorSeen && !bit v 2 })
  | _ => s

/-- R242: `SP_EXC`: clearing `VALID` clears the whole register. -/
def State.writePair (s : State) (off : Nat) (v : W64) : State :=
  let n := (off - 0x900000) / 0x10000
  if n < s.nPairs ∧ off % 0x10000 = 8 ∧ bit v 63 then s.modPair n (fun x => { x with exc := 0 }) else s

/-! The port -/

/-- R9, R18, R19: a host write takes effect at its offset; read-only and reserved offsets ignore it. -/
def State.applyWrite (s : State) (off : Nat) (v : W64) : State :=
  match cfgMask s.part.s32 off with
  | some m => s.writeConfig off m v
  | none =>
    if off % 8 != 0 then s
    else match partWindow off with
      | some (p, o) => s.writePt p o v
      | none =>
        if off < 0x10000 then s.writeGlobal off v
        else if off < 0x20000 then s.writePower off v
        else if off < 0x30000 then s.writeRas off v
        else if off < 0x40000 then s.writeTrace off v
        else if off < 0x50000 then s.writeTr off v
        else if off < 0x100000 then s.writeHw off v
        else if 0x900000 ≤ off ∧ off < 0x980000 then s.writePair off v
        else s

/-- R350 to R352, R381, R422: a host write: refused in reset, ignored in the fatal state, buffered while the fast domain stands still. -/
def State.hostWrite (s : State) (off : Nat) (v : W64) : State :=
  if s.boot.inReset then s.modOut (fun o => { o with hcErr := o.hcErr + 1 })
  else if powerRange off then s.applyWrite off v
  else if s.boot.fatal then s
  else if s.clk.awake then s.applyWrite off v
  else if Config.hostBufMax ≤ s.clk.wbuf.length then s
  else (s.modClk (fun c => { c with wbuf := c.wbuf ++ [(BitVec.ofNat 24 off, v)] })).startWake

/-- R352: the buffered writes are applied in the order of acceptance. -/
def State.applyBuffered (s : State) : State :=
  s.clk.wbuf.foldl (fun s w => s.applyWrite w.1.toNat w.2) (s.modClk (fun c => { c with wbuf := [] }))

/-! The rows of host writes. A row whose value lacks the row's own pattern changes nothing (log entry 1). -/

/-- R18: a host write of `v` at `off`. -/
def execRegWrite (off : BitVec 24) (v : W64) (s : State) : Res := .next (s.hostWrite off.toNat v)

/-- R318: a write of a configuration register. -/
def execConfigWrite (off : BitVec 24) (v : W64) (s : State) : Res :=
  .next (if (cfgMask s.part.s32 off.toNat).isSome then s.hostWrite off.toNat v else s)

/-- R316: a 1 is written to `AX_PART_LOCK`. -/
def execAxPartLock (v : W64) (s : State) : Res := .next (s.hostWrite 0x118 v)

/-- R411: bits of `RAS_PSTOP` are cleared. -/
def execRasPstop (v : W64) (s : State) : Res := .next (s.hostWrite 0x20008 v)

/-- R284: 1 is written to `ENABLE`. -/
def execRingEnable (v : W64) (s : State) : Res := .next (if bit v 63 then s.hostWrite 0xA0018 v else s)

/-- R284: 0 is written to `ENABLE`. -/
def execRingDisable (v : W64) (s : State) : Res := .next (if bit v 63 then s else s.hostWrite 0xA0018 v)

/-- R285: the doorbell of ring `r`. -/
def execDoorbell (r : BitVec 14) (v : W64) (s : State) : Res := .next (s.hostWrite (0x80000 + 8 * r.toNat) v)

/-- R336: `TR_INV` is written with `KIND` UNMAP. -/
def execUnmap (v : W64) (s : State) : Res := .next (if bits v 60 2 = 0 then s.hostWrite 0x40008 v else s)

/-- R336: `TR_INV` is written with `KIND` HOLD. -/
def execHold (v : W64) (s : State) : Res := .next (if bits v 60 2 = 1 then s.hostWrite 0x40008 v else s)

/-- R336: `TR_INV` is written with `KIND` RESOLVE. -/
def execResolve (v : W64) (s : State) : Res := .next (if bits v 60 2 = 2 then s.hostWrite 0x40008 v else s)

/-- R346: `PT_SIG` is written with `OP` 0. -/
def execPtSigSelect (p : Fin 16) (v : W64) (s : State) : Res := .next (if bits v 16 2 = 0 then s.hostWrite (ptOff p.val 0x200) v else s)

/-- R346: `PT_SIG` is written with `OP` 1. -/
def execPtSigRaise (p : Fin 16) (v : W64) (s : State) : Res := .next (if bits v 16 2 = 1 then s.hostWrite (ptOff p.val 0x200) v else s)

/-- R346: `PT_SIG` is written with `OP` 2. -/
def execPtSigClear (p : Fin 16) (v : W64) (s : State) : Res := .next (if bits v 16 2 = 2 then s.hostWrite (ptOff p.val 0x200) v else s)

/-- R337, R348: `PT_RESUME` is written with `ACT` 0. -/
def execPtResumeResume (p : Fin 16) (v : W64) (s : State) : Res := .next (if bit v 32 then s else s.hostWrite (ptOff p.val 0x300) v)

/-- R337, R348: `PT_RESUME` is written with `ACT` 1. -/
def execPtResumeRelease (p : Fin 16) (v : W64) (s : State) : Res := .next (if bit v 32 then s.hostWrite (ptOff p.val 0x300) v else s)

/-- R380: `PT_KILL` is written with `GO` 1. -/
def execPtKill (p : Fin 16) (v : W64) (s : State) : Res := .next (if bit v 63 then s.hostWrite (ptOff p.val 0x320) v else s)

/-- R387: `RST_CTL` is written with `BLOCK` 1. -/
def execRstCtlBlock (v : W64) (s : State) : Res := .next (if bit v 0 then s.hostWrite 0x10020 v else s)

/-- R329: a 1 is written to a bit of `AX_PART_CTL.RESET`. -/
def execPartitionReset (v : W64) (s : State) : Res := .next (if bits v 0 16 = 0 then s else s.hostWrite 0x110 v)

/-- R442: `TRC_MARK` is written. -/
def execTrcMark (v : W64) (s : State) : Res := .next (s.hostWrite 0x30030 v)

/-- R446: `TRC_CTL` is written with `FLUSH` 1. -/
def execFlush (v : W64) (s : State) : Res := .next (if bit v 0 then s.hostWrite 0x30000 v else s)

end Sys2Proof.Machine
end

