-- ==== Sys2Proof/Machine/Bringup.lean ====
section
/-! DEFINITION. Bring-up (R447 to R452), the end of a wake (R373), test access (R384 to R386). -/

namespace Sys2Proof.Machine

/-! Identification (R6, R385, R455, R456) -/

/-- R385, R455: `PARTNO`. -/
def Part.no (x : Part) : Nat := if x.s32 then 0xA532 else 0xA516

/-- R455: `AX_ID`. -/
def Part.axId (x : Part) : W64 := BitVec.ofNat 64 (0x0C5A * 2 ^ 48 + x.no * 2 ^ 32 + x.step.toNat * 2 ^ 28 + x.romver.toNat * 2 ^ 20)

/-- R6: bits 15:0 of `AX_CAPS`. -/
def Part.caps16 (x : Part) : Nat :=
  (if x.s32 then 0x20 else 0x10) + (if x.optD then 2 ^ 8 else 0) + (if x.optM then 2 ^ 9 else 0) + (if x.optP then 2 ^ 10 else 0)
    + (if x.optS then 2 ^ 11 else 0)

/-- R6, R456: `AX_CAPS`. -/
def Part.axCaps (x : Part) : W64 :=
  BitVec.ofNat 64 (0x01 * 2 ^ 56 + 0x01 * 2 ^ 48 + (if x.s32 then 8 else 4) * 2 ^ 40 + 0x10 * 2 ^ 32 + 0x10 * 2 ^ 24 + 0x08 * 2 ^ 16 + x.caps16)

/-- R385: the IDCODE register. -/
def Part.idcode (x : Part) : W32 := BitVec.ofNat 32 (x.step.toNat * 2 ^ 28 + x.no * 2 ^ 12 + x.mfr.toNat * 2 + 1)

/-! Stages (R447) -/

/-- R433, R447: the STAGE record on entry to a stage. -/
def State.stageRecord (s : State) : State :=
  s.event 0x03 0 none 0 [(0, 1, s.boot.stage), (1, 1, popcount s.boot.svc), (4, 4, (s.clk.tick - s.boot.releaseTick).toNat)]

/-- Waves of S2. -/
def State.waves (s : State) : Nat := s.nClusters / 8

/-- R383, R436, R449: the record device answers, or no records are made; after a cold reset the recorder resumes. -/
def State.findDevice (s : State) (ok : Bool) : State :=
  let s := (s.modBoot (fun b => { b with norec := !ok })).modRecorder (fun x => { x with nodev := !ok, queue := if ok then x.queue else [] })
  if ok && s.boot.kind = .cold then s.restoreRecorder s.part.axId else s

/-- R433: the record of the reset. -/
def State.resetRecord (s : State) : State :=
  match s.boot.kind with
  | .cold => s.event 0x01 0 none 0 [(0, 2, s.part.caps16), (4, 4, s.ras.clOut.toNat)]
  | _ => s.event 0x02 0 none 0 [(0, 1, s.clk.last.toNat), (2, 2, s.clk.blockResets.toNat)]

/-- R394: after a cold reset the first link event is RESTART. -/
def State.restartEvent (s : State) : State :=
  if s.part.optM && s.boot.kind = .cold then s.modLink (fun l => l.push 0 0xF 0) else s

/-- R447, R449: stage S1 begins. -/
def State.beginS1 (s : State) (r : BringUp) : State :=
  let s := s.modBoot (fun b => { b with inReset := false, s1Started := true, stage := 1, quarantine := true, releaseTick := s.clk.tick })
  let s := (((s.findDevice r.sfdpOk).restartEvent).resetRecord).stageRecord
  if !r.mgmtOk then s.enterFatal 4 else if !r.tablesOk then s.enterFatal 5 else if !r.romOk then s.enterFatal 6 else s

/-- A reset is released. -/
def execResetRelease (r : BringUp) (s : State) : Res := .next (if s.boot.s1Started then s else s.beginS1 r)

/-- R449, R451: the last wave is over: stage S3, or bring-up stops where no cluster is in service. -/
def State.endS2 (s : State) : State :=
  if s.boot.svc = 0 then (s.modBoot (fun b => { b with bootFail := true })).rasIrq 0 s.entryNo
  else (s.modBoot (fun b => { b with stage := 3, wave := 0 })).stageRecord

/-- R448: waves whose clusters are all mapped out take no time; `fuel` bounds them. -/
def State.skipWaves (fuel : Nat) (s : State) : State :=
  match fuel with
  | 0 => s
  | fuel + 1 =>
    let w := s.boot.wave
    if s.waves ≤ w then s.endS2
    else if (List.range 8).all (fun k => bit s.ras.clOut (8 * w + k)) then
      State.skipWaves fuel (s.modBoot (fun b => { b with wave := w + 1, wavesDone := b.wavesDone + 1 }))
    else s

/-- R371, R376: a FREQ that came while the PLLs stood still takes effect, and is acknowledged. -/
def State.takeFreq (s : State) : State :=
  match s.clk.freqNew with
  | some f => (s.modClk (fun c => { c with freq := f, freqNew := none })).pmOut 0xB 0 0 f.toNat
  | none => s

/-- R447: the fast domain runs, stage S2 begins, and the buffered writes are applied (R352). -/
def execS1End (s : State) : Res :=
  .next (
    if s.on && s.boot.s1Started && s.boot.stage = 1 && !s.boot.fatal then
      let s := (s.modClk (fun c => { c with awake := true, waking := false })).modBoot (fun b => { b with stage := 2, wave := 0 })
      State.skipWaves 5 s.stageRecord.takeFreq.applyBuffered
    else s)

/-- R182, R436: the ROW_REPAIR records of cluster `n` in the repair area. -/
def State.repairsOf (s : State) (n : Nat) : List (BitVec 512) :=
  (s.recorder.repair.map Prod.snd).filter (fun w => validSlot w && bits w 32 16 = 0x15 && bits w 128 8 = n)

/-- R182: firmware applies a field row repair again. -/
def Cluster.reapply (c : Cluster) (w : BitVec 512) : Cluster :=
  let bank := bits w 136 8
  { c with spares := Tab.set 0 c.spares bank (Tab.get 0 c.spares bank + 1), fieldRep := bumpTo 0xFFFF c.fieldRep, repairs := c.repairs ++ [(bank, bits w 144 16, bits w 160 8)] }

/-- R447: after a cold reset the field repairs of a wave's clusters are applied again; a block reset has kept them (R453). -/
def State.reapplyRepairs (s : State) (n : Nat) : State :=
  if s.boot.kind = .cold then s.modCluster n (fun c => (s.repairsOf n).foldl Cluster.reapply c) else s

/-- R449, R450: cluster `n` has passed its self-test and joins service, or is mapped out for reason 4. -/
def State.tested (s : State) (n : Nat) (fails : Bool) : State :=
  if bit s.ras.clOut n then s
  else if fails then s.mapOutCluster n 4
  else s.modBoot (fun b => { b with svc := putBit b.svc n true })

/-- R449, R451: a wave of S2 is over. -/
def State.endWave (s : State) (fail : BitVec 8) : State :=
  let w := s.boot.wave
  let s := (List.range 8).foldl (fun s k => (s.reapplyRepairs (8 * w + k)).tested (8 * w + k) (bit fail k)) s
  let s := s.modBoot (fun b => { b with wave := w + 1, wavesDone := b.wavesDone + 1, reduced := b.svc != 0 })
  State.skipWaves 5 s

def execS2WaveEnd (fail : BitVec 8) (s : State) : Res :=
  .next (if s.fast && s.boot.stage = 2 && !s.boot.bootFail && decide (s.boot.wave < s.waves) then s.endWave fail else s)

/-- R447, R449, R451: stage S3 is over: full service. -/
def execS3End (fail : BitVec 32) (s : State) : Res :=
  .next (
    if s.fast && s.boot.stage = 3 then
      let s := ((setList fail).filter s.inService).foldl (fun s n => s.mapOutCluster n 4) s
      (s.modBoot (fun b => { b with stage := 4, reduced := false })).stageRecord
    else s)

/-! The end of a wake (R373) -/

/-- R373, R442, R352: the fast domain runs again; the PLL_START record gives the ticks stopped; the buffered writes are applied in order. -/
def State.comeAwake (s : State) : State :=
  let s := (s.modClk (fun c => { c with awake := true, waking := false, idle := 0 })).pmOut 0xC 0 0 1
  (s.takeFreq.trace 0x09 0 0xFF 0 0 (s.clk.tick - s.clk.stoppedAt).toNat).applyBuffered

def execPllAwake (s : State) : Res := .next (if s.creditable && s.clk.waking && decide (2 ≤ s.boot.stage) then s.comeAwake else s)

/-! Test access (R384 to R386) -/

/-- R384: the instruction register; R432: `use` tells whether an instrument other than BYPASS and IDCODE is in use. -/
def State.tapSelect (s : State) (ir : Byte) (use : Bool) : State :=
  { s with tap := ⟨ir, none⟩, recorder := { s.recorder with testInUse := use } }

/-- R386: the trouble-log entry of a boundary instruction; its instrument number is a free value. -/
def State.boundaryNote (s : State) : State :=
  let (k, s) := s.draw
  s.note 0x10 none false 0 0xFF 0 (Config.freeArg k).toNat 0

/-- R384: BYPASS. -/
def execBypass (s : State) : Res := .next (s.tapSelect 0xFF false)
/-- R385: IDCODE. -/
def execIdcode (s : State) : Res := .next (s.tapSelect 0x01 false)
/-- R384, R386: SAMPLE/PRELOAD. -/
def execSamplePreload (s : State) : Res := .next (s.tapSelect 0x02 true).boundaryNote
/-- R384, R386: EXTEST. -/
def execExtest (s : State) : Res := .next (s.tapSelect 0x03 true).boundaryNote
/-- R384, R386: IJTAG_ACCESS selects the 1687 network. -/
def execIjtagAccess (s : State) : Res := .next (s.tapSelect 0x10 false)

/-- R386, R432, R438: an instrument of the 1687 network, 1 to 5 in R386's order, is used. -/
def execTestInstrument (k : Fin 5) (s : State) : Res :=
  .next (
    if s.tap.ir = 0x10 then
      { s with tap := { s.tap with instrument := some k.val }, recorder := { s.recorder with testInUse := true } }.note 0x10 none false 0 0xFF 0 (k.val + 1) 0
    else s)

end Sys2Proof.Machine
end

