-- ==== Sys2Proof/Machine/Dispatch.lean ====
section
/-! DEFINITION. One arm for each command, each a direct call of its meaning. -/

namespace Sys2Proof.Machine

def exec (i : Instr) (s : State) : Host.Outcome State Fault Refusal :=
  match i with
  | .coldReset => Sys2Proof.Machine.execColdReset s
  | .blockReset => Sys2Proof.Machine.execBlockReset s
  | .resetRelease r => Sys2Proof.Machine.execResetRelease r s
  | .s1End => Sys2Proof.Machine.execS1End s
  | .s2WaveEnd fail => Sys2Proof.Machine.execS2WaveEnd fail s
  | .s3End fail => Sys2Proof.Machine.execS3End fail s
  | .rstCtlBlock v => Sys2Proof.Machine.execRstCtlBlock v s
  | .partitionReset v => Sys2Proof.Machine.execPartitionReset v s
  | .partitionResetDone p => Sys2Proof.Machine.execPartitionResetDone p s
  | .ptKill p v => Sys2Proof.Machine.execPtKill p v s
  | .smuPor => Sys2Proof.Machine.execSmuPor s
  | .regWrite off v => Sys2Proof.Machine.execRegWrite off v s
  | .configWrite off v => Sys2Proof.Machine.execConfigWrite off v s
  | .axPartLock v => Sys2Proof.Machine.execAxPartLock v s
  | .rasPstop v => Sys2Proof.Machine.execRasPstop v s
  | .ringEnable v => Sys2Proof.Machine.execRingEnable v s
  | .ringDisable v => Sys2Proof.Machine.execRingDisable v s
  | .doorbell r v => Sys2Proof.Machine.execDoorbell r v s
  | .commandFetch => Sys2Proof.Machine.execCommandFetch s
  | .backlogRetry p => Sys2Proof.Machine.execBacklogRetry p s
  | .admitSeq c => Sys2Proof.Machine.execAdmit c s
  | .release c => Sys2Proof.Machine.execRelease c s
  | .fork c => Sys2Proof.Machine.execFork c s
  | .appendKv c => Sys2Proof.Machine.execAppendKv c s
  | .attend c => Sys2Proof.Machine.execAttend c s
  | .attendBwd c => Sys2Proof.Machine.execAttendBwd c s
  | .prefill c => Sys2Proof.Machine.execPrefill c s
  | .prefillChunk opid => Sys2Proof.Machine.execPrefillChunk opid s
  | .specCommit c => Sys2Proof.Machine.execSpecCommit c s
  | .specAbort c => Sys2Proof.Machine.execSpecAbort c s
  | .evict c => Sys2Proof.Machine.execEvict c s
  | .restore c => Sys2Proof.Machine.execRestore c s
  | .exportGroups c => Sys2Proof.Machine.execExportGroups c s
  | .importGroups c => Sys2Proof.Machine.execImportGroups c s
  | .swap c => Sys2Proof.Machine.execSwap c s
  | .swapSwitchPoint => Sys2Proof.Machine.execSwapSwitchPoint s
  | .clusterClearDone n => Sys2Proof.Machine.execClusterClearDone n s
  | .runProgram c => Sys2Proof.Machine.execRunProgram c s
  | .imageLoadDone opid => Sys2Proof.Machine.execImageLoadDone opid s
  | .shareGrant => Sys2Proof.Machine.execShareGrant s
  | .fire ring idx => Sys2Proof.Machine.execFire ring idx s
  | .prewakeTimeout n => Sys2Proof.Machine.execPrewakeTimeout n s
  | .entryStart n e => Sys2Proof.Machine.execEntryStart n e s
  | .tileVerdict n fs => Sys2Proof.Machine.execTileVerdict n fs s
  | .abftRerunDone n data sums column => Sys2Proof.Machine.execAbftRerunDone n data sums column s
  | .entryComplete n e => Sys2Proof.Machine.execEntryComplete n e s
  | .segmentDone opid seg => Sys2Proof.Machine.execSegmentDone opid seg s
  | .partialTile n epoch t => Sys2Proof.Machine.execPartialTile n epoch t s
  | .merge opid level node => Sys2Proof.Machine.execMerge opid level node s
  | .peerTmo opid => Sys2Proof.Machine.execPeerTmo opid s
  | .streamIssue n => Sys2Proof.Machine.execStreamIssue n s
  | .memoryRequestIssue k => Sys2Proof.Machine.execMemoryRequestIssue k s
  | .readCommandCredit k => Sys2Proof.Machine.execReadCommandCredit k s
  | .writeCommandCredit k => Sys2Proof.Machine.execWriteCommandCredit k s
  | .writeDataCredit k => Sys2Proof.Machine.execWriteDataCredit k s
  | .readReturn k tag stat => Sys2Proof.Machine.execReadReturn k tag stat s
  | .writeCompletion k tag stat => Sys2Proof.Machine.execWriteCompletion k tag stat s
  | .walkDone p => Sys2Proof.Machine.execWalkDone p s
  | .heldTimeout ring idx => Sys2Proof.Machine.execHeldTimeout ring idx s
  | .unmap v => Sys2Proof.Machine.execUnmap v s
  | .hold v => Sys2Proof.Machine.execHold v s
  | .resolve v => Sys2Proof.Machine.execResolve v s
  | .invalidationDone => Sys2Proof.Machine.execInvalidationDone s
  | .holdTimeout opid => Sys2Proof.Machine.execHoldTimeout opid s
  | .stallTimeout n e => Sys2Proof.Machine.execStallTimeout n e s
  | .budgetExpiry opid => Sys2Proof.Machine.execBudgetExpiry opid s
  | .ptResumeResume p v => Sys2Proof.Machine.execPtResumeResume p v s
  | .ptResumeRelease p v => Sys2Proof.Machine.execPtResumeRelease p v s
  | .ptSigSelect p v => Sys2Proof.Machine.execPtSigSelect p v s
  | .ptSigRaise p v => Sys2Proof.Machine.execPtSigRaise p v s
  | .ptSigClear p v => Sys2Proof.Machine.execPtSigClear p v s
  | .signalTimeout sp => Sys2Proof.Machine.execSignalTimeout sp s
  | .lend sp => Sys2Proof.Machine.execLend sp s
  | .recallExpiry sp => Sys2Proof.Machine.execRecallExpiry sp s
  | .grant w => Sys2Proof.Machine.execGrant w s
  | .returnShares w => Sys2Proof.Machine.execReturnShares w s
  | .freq w => Sys2Proof.Machine.execFreq w s
  | .freqSwitchDone => Sys2Proof.Machine.execFreqSwitchDone s
  | .wake c => Sys2Proof.Machine.execWake c s
  | .pllAwake => Sys2Proof.Machine.execPllAwake s
  | .noStop w => Sys2Proof.Machine.execNoStop w s
  | .pllStop => Sys2Proof.Machine.execPllStop s
  | .power => Sys2Proof.Machine.execPower s
  | .clusterClockStop n => Sys2Proof.Machine.execClusterClockStop n s
  | .clusterClockStart n => Sys2Proof.Machine.execClusterClockStart n s
  | .pllLockLoss => Sys2Proof.Machine.execPllLockLoss s
  | .refClkAbsent => Sys2Proof.Machine.execRefClkAbsent s
  | .clockUnitSelfCheckFail => Sys2Proof.Machine.execClockUnitSelfCheckFail s
  | .resetTagQuarantineEnd => Sys2Proof.Machine.execResetTagQuarantineEnd s
  | .flit f => Sys2Proof.Machine.execFlit f s
  | .fabricCredit port cnt => Sys2Proof.Machine.execFabricCredit port cnt s
  | .credit h => Sys2Proof.Machine.execCredit h s
  | .write h t => Sys2Proof.Machine.execWrite h t s
  | .ack h => Sys2Proof.Machine.execAck h s
  | .nack h => Sys2Proof.Machine.execNack h s
  | .stale h t => Sys2Proof.Machine.execStale h t s
  | .withdraw h => Sys2Proof.Machine.execWithdraw h s
  | .withdrawAck h => Sys2Proof.Machine.execWithdrawAck h s
  | .withdrawTimeout window => Sys2Proof.Machine.execWithdrawTimeout window s
  | .evictCopyDone p g r => Sys2Proof.Machine.execEvictCopyDone p g r s
  | .restoreCopyDone p g r => Sys2Proof.Machine.execRestoreCopyDone p g r s
  | .cowCopyDone p g r => Sys2Proof.Machine.execCowCopyDone p g r s
  | .crcComputeDone p g => Sys2Proof.Machine.execCrcComputeDone p g s
  | .groupCopyDone opid r => Sys2Proof.Machine.execGroupCopyDone opid r s
  | .scrubGroup p g => Sys2Proof.Machine.execScrubGroup p g s
  | .sramScrub f => Sys2Proof.Machine.execSramScrub f s
  | .comparatorSelfTest u pass => Sys2Proof.Machine.execComparatorSelfTest u pass s
  | .lockstepMismatch sp => Sys2Proof.Machine.execLockstepMismatch sp s
  | .mgmtPairMismatch => Sys2Proof.Machine.execMgmtPairMismatch s
  | .clMapout n reason => Sys2Proof.Machine.execClMapout n reason s
  | .time => Sys2Proof.Machine.execTime s
  | .recUtcAdvance => Sys2Proof.Machine.execRecUtcAdvance s
  | .residencySample => Sys2Proof.Machine.execResidencySample s
  | .recordProgramDone => Sys2Proof.Machine.execRecordProgramDone s
  | .trcMark v => Sys2Proof.Machine.execTrcMark v s
  | .flush v => Sys2Proof.Machine.execFlush v s
  | .mevHold b => Sys2Proof.Machine.execMevHold b s
  | .sealReport b => Sys2Proof.Machine.execSealReport b s
  | .lockReport b => Sys2Proof.Machine.execLockReport b s
  | .linkEvent e => Sys2Proof.Machine.execLinkEvent e s
  | .restart e => Sys2Proof.Machine.execRestart e s
  | .reportAck e => Sys2Proof.Machine.execReportAck e s
  | .sealReportResend => Sys2Proof.Machine.execSealReportResend s
  | .glitchTrip => Sys2Proof.Machine.execGlitchTrip s
  | .meterPersist => Sys2Proof.Machine.execMeterPersist s
  | .meterRead addr => Sys2Proof.Machine.execMeterRead addr s
  | .meterWrite addr v => Sys2Proof.Machine.execMeterWrite addr v s
  | .smuSeal v => Sys2Proof.Machine.execSmuSeal v s
  | .sealBurnDone => Sys2Proof.Machine.execSealBurnDone s
  | .smuRoCtl v => Sys2Proof.Machine.execSmuRoCtl v s
  | .readoutDone => Sys2Proof.Machine.execReadoutDone s
  | .bypass => Sys2Proof.Machine.execBypass s
  | .idcode => Sys2Proof.Machine.execIdcode s
  | .samplePreload => Sys2Proof.Machine.execSamplePreload s
  | .extest => Sys2Proof.Machine.execExtest s
  | .ijtagAccess => Sys2Proof.Machine.execIjtagAccess s
  | .testInstrument k => Sys2Proof.Machine.execTestInstrument k s
  | .add u d a b => Sys2Proof.Machine.execAdd u d a b s
  | .sub u d a b => Sys2Proof.Machine.execSub u d a b s
  | .mul u d a b => Sys2Proof.Machine.execMul u d a b s
  | .mulhu u d a b => Sys2Proof.Machine.execMulhu u d a b s
  | .divu u d a b => Sys2Proof.Machine.execDivu u d a b s
  | .remu u d a b => Sys2Proof.Machine.execRemu u d a b s
  | .and u d a b => Sys2Proof.Machine.execAnd u d a b s
  | .or u d a b => Sys2Proof.Machine.execOr u d a b s
  | .xor u d a b => Sys2Proof.Machine.execXor u d a b s
  | .shl u d a b => Sys2Proof.Machine.execShl u d a b s
  | .shr u d a b => Sys2Proof.Machine.execShr u d a b s
  | .sar u d a b => Sys2Proof.Machine.execSar u d a b s
  | .min u d a b => Sys2Proof.Machine.execMin u d a b s
  | .max u d a b => Sys2Proof.Machine.execMax u d a b s
  | .minu u d a b => Sys2Proof.Machine.execMinu u d a b s
  | .maxu u d a b => Sys2Proof.Machine.execMaxu u d a b s
  | .clz u d a b => Sys2Proof.Machine.execClz u d a b s
  | .popc u d a b => Sys2Proof.Machine.execPopc u d a b s
  | .movi u d imm => Sys2Proof.Machine.execMovi u d imm s
  | .movhi u d imm => Sys2Proof.Machine.execMovhi u d imm s
  | .eq u pd a b => Sys2Proof.Machine.execEq u pd a b s
  | .ne u pd a b => Sys2Proof.Machine.execNe u pd a b s
  | .lt u pd a b => Sys2Proof.Machine.execLt u pd a b s
  | .le u pd a b => Sys2Proof.Machine.execLe u pd a b s
  | .ltu u pd a b => Sys2Proof.Machine.execLtu u pd a b s
  | .leu u pd a b => Sys2Proof.Machine.execLeu u pd a b s
  | .pand u pd a b => Sys2Proof.Machine.execPand u pd a b s
  | .por u pd a b => Sys2Proof.Machine.execPor u pd a b s
  | .pxor u pd a b => Sys2Proof.Machine.execPxor u pd a b s
  | .pfromg u pd a => Sys2Proof.Machine.execPfromg u pd a s
  | .ptog u b a => Sys2Proof.Machine.execPtog u b a s
  | .ld8 u d a imm => Sys2Proof.Machine.execLd8 u d a imm s
  | .ld16 u d a imm => Sys2Proof.Machine.execLd16 u d a imm s
  | .ld32 u d a imm => Sys2Proof.Machine.execLd32 u d a imm s
  | .ld64 u d a imm => Sys2Proof.Machine.execLd64 u d a imm s
  | .lds8 u d a imm => Sys2Proof.Machine.execLds8 u d a imm s
  | .lds16 u d a imm => Sys2Proof.Machine.execLds16 u d a imm s
  | .lds32 u d a imm => Sys2Proof.Machine.execLds32 u d a imm s
  | .st8 u d a imm => Sys2Proof.Machine.execSt8 u d a imm s
  | .st16 u d a imm => Sys2Proof.Machine.execSt16 u d a imm s
  | .st32 u d a imm => Sys2Proof.Machine.execSt32 u d a imm s
  | .st64 u d a imm => Sys2Proof.Machine.execSt64 u d a imm s
  | .b u tgt => Sys2Proof.Machine.execB u tgt s
  | .bl u d tgt => Sys2Proof.Machine.execBl u d tgt s
  | .bi u a => Sys2Proof.Machine.execBi u a s
  | .dldt u dd a imm => Sys2Proof.Machine.execDldt u dd a imm s
  | .dlds u dd a imm => Sys2Proof.Machine.execDlds u dd a imm s
  | .dldl u dd a => Sys2Proof.Machine.execDldl u dd a s
  | .dst u dd a imm => Sys2Proof.Machine.execDst u dd a imm s
  | .dsetw u dd a imm => Sys2Proof.Machine.execDsetw u dd a imm s
  | .dgetw u dd a imm => Sys2Proof.Machine.execDgetw u dd a imm s
  | .dadda u dd a => Sys2Proof.Machine.execDadda u dd a s
  | .dclr u dd => Sys2Proof.Machine.execDclr u dd s
  | .mxrun u f => Sys2Proof.Machine.execMxrun u f s
  | .mxew u f => Sys2Proof.Machine.execMxew u f s
  | .vrun u f => Sys2Proof.Machine.execVrun u f s
  | .sxq u dd cmask => Sys2Proof.Machine.execSxq u dd cmask s
  | .hset u h a cmask => Sys2Proof.Machine.execHset u h a cmask s
  | .hclr u h cmask => Sys2Proof.Machine.execHclr u h cmask s
  | .ltw u dd a cmask => Sys2Proof.Machine.execLtw u dd a cmask s
  | .rclr u h cmask => Sys2Proof.Machine.execRclr u h cmask s
  | .swait u pd a b d => Sys2Proof.Machine.execSwait u pd a b d s
  | .sraise u a => Sys2Proof.Machine.execSraise u a s
  | .spoll u pd a => Sys2Proof.Machine.execSpoll u pd a s
  | .tfence u cmask => Sys2Proof.Machine.execTfence u cmask s
  | .tmovd u d a b => Sys2Proof.Machine.execTmovd u d a b s
  | .tmovm u d a b => Sys2Proof.Machine.execTmovm u d a b s
  | .tmovDone sp => Sys2Proof.Machine.execTmovDone sp s
  | .ifenceSwap u tgt => Sys2Proof.Machine.execIfenceSwap u tgt s
  | .csrr u d csr => Sys2Proof.Machine.execCsrr u d csr s
  | .endProg u a => Sys2Proof.Machine.execEndProg u a s
  | .trap u tgt => Sys2Proof.Machine.execTrap u tgt s
  | .nop u => Sys2Proof.Machine.execNop u s
  | .meterIslandUnpowered => Sys2Proof.Machine.execMeterIslandUnpowered s
  | .delayRegisterParityError sp => Sys2Proof.Machine.execDelayRegisterParityError sp s
  | .frameCrcOrOpcodeBad => Sys2Proof.Machine.execFrameCrcOrOpcodeBad s
  | .illegalInstruction sp w => Sys2Proof.Machine.execIllegalInstruction sp w s

end Sys2Proof.Machine
end

