-- ==== Sys2Proof/Machine/Tick.lean ====
section
/-! DEFINITION. What the block does at a tick of the always-on clock whatever is commanded (log entry 3): time (R370, R432), the fast
counter, the trace unit (R443, R444), activity and waiting counters (R396, R303), DEMAND (R376), work that needs no command to go on. -/

namespace Sys2Proof.Machine

/-- R432: ticks of 1/16 s. -/
def tickUnit : Nat := 6250000

/-- R370, R432: the always-on counters. -/
def Clk.count (c : Clk) : Clk :=
  let t := c.tick + 1
  { c with tick := t, opTime := if t.toNat % tickUnit = 0 then c.opTime + 1 else c.opTime }

/-- The meter's time (R399), on the always-on tick while the island has power. -/
def State.meterTick (s : State) : State :=
  if s.part.optM && s.link.powered && s.clk.tick.toNat % tickUnit = 0 then s.modSmu (fun m => { m with time := m.time + 1 }) else s

/-- R396, quantity 10: cluster `n` is active for its partition: its clock runs, and it holds an entry or a share of the partition. -/
def State.activeFor (s : State) (p n : Nat) : Bool :=
  bit s.clk.clkOn n && ((s.cluster n).queue.any (fun e => e.part = p) || s.hw.ops.any (fun o => o.part = p && bit o.shares n))

/-- R396: a tick of each active cluster. -/
def State.countActive (s : State) : State :=
  (List.range s.nClusters).foldl (fun s n =>
    let p := s.clPart n
    if s.cfg.active.assigned n && s.activeFor p n then s.modPt p (fun t => { t with active := t.active + 1 }) else s) s

/-- R311: `PF_WAIT` counts a tick of each partition whose prefill work waits for a share. -/
def State.countWaits (s : State) : State :=
  ((List.range 16).filter (fun p => (s.prefillOf p).isSome)).foldl (fun s p =>
    s.modWeir (fun w => { w with pfWait := Tab.set 0 w.pfWait p (bumpTo 0xFFFFFFFF (Tab.get 0 w.pfWait p)) })) s

/-- R376: `COUNT` of DEMAND. -/
def State.demandNow (s : State) : Nat :=
  Nat.min 255 (s.sharesUsed + (s.hw.ops.map (fun o => (s.wanting o).length)).sum - s.g)

/-- R376: DEMAND goes out when its value changes, at most once in 10 ticks. -/
def State.sendDemand (s : State) : State :=
  let d := s.demandNow
  if s.clk.tick.toNat % 10 = 0 && d != s.weir.demand then (s.modWeir (fun w => { w with demand := d })).pmOut 0x8 0 d 0 else s

/-- R388: `TAGFULL` counts, in units of 1,024 fc, the `n` fc of a tick in which a port has every read tag in use. -/
def Port.countFull (p : Port) (n : Nat) : Port :=
  { p with tagfull := bump p.tagfull ((p.fullFc + n) / 1024), fullFc := (p.fullFc + n) % 1024 }

def State.countFull (s : State) : State :=
  ((List.range 16).filter (fun k => decide (1024 ≤ (s.port k).reads.length))).foldl (fun s k => s.modPort k (fun p => p.countFull s.clk.freq.toNat)) s

/-- A tick of the fast domain; `F` in units of 100 MHz is the fast cycles of a tick (R22, R371). -/
def State.fastTick (s : State) : State :=
  let s := s.modClk (fun c => { c with fc := c.fc + c.freq.setWidth 48 })
  let s := s.countActive.countWaits.countFull.sendDemand
  let s := if s.linkFull then s else s.progressAll
  let s := (List.range 16).foldl State.famineAct s
  s.modClk (fun c => { c with idle := if s.blockIdle then c.idle + 1 else 0 })

/-- R370: the trace unit runs on the always-on clock, whether or not the PLLs do. -/
def State.traceTick (s : State) : State := if s.on then s.drainTrace.streamTick else s

/-- One tick. -/
def State.tickOnce (s : State) : State :=
  let s := (s.modClk Clk.count).meterTick.traceTick
  if s.fast then s.fastTick else s

end Sys2Proof.Machine
end

