-- ==== Sys2Proof/Safety.lean ====
section
/-! DEFINITION. What counts as a safe run: no step stops, and every state along it keeps what no command of the block may change. -/

namespace Sys2Proof.Machine

/-- What the burned seal slots hold (R398): key and identifier, in slot order. -/
def Smu.burned (x : Smu) : List (BitVec 256 × W32) := x.seals.map (fun y => (y.key, y.ident))

/-- Host memory stands in its canonical form: addresses rise strictly and no entry is 0. -/
abbrev State.memOk (s : State) : Prop := Tab.wf 0 s.mem

/-- What no command changes between `s` and `t`: the part as built (R2, R20), the queue of waiting commands, the meter's serial number and
transport key and the seals already burned (R398), the canonical form of host memory; a free value once drawn is not drawn again. -/
structure State.Fixed (s t : State) : Prop where
  part : t.part = s.part
  queue : t.pending = s.pending
  serial : t.smu.serial = s.smu.serial
  transport : t.smu.transportKey = s.smu.transportKey
  seals : s.smu.burned <+: t.smu.burned
  mem : s.memOk → t.memOk
  drawn : s.freeCtr ≤ t.freeCtr

/-- What no command but the meter's power-on reset changes: besides, the meter's tamper count does not fall (R399). -/
structure State.Keeps (s t : State) : Prop extends State.Fixed s t where
  tamper : s.smu.tamper.toNat ≤ t.smu.tamper.toNat

/-- A run of `k` steps from `s` in which no step stops and host memory stays canonical. -/
def State.SafeRun (k : Nat) (s : State) : Prop :=
  match k with
  | 0 => s.memOk
  | k + 1 => s.memOk ∧ ∃ t, step s = .next t ∧ State.SafeRun k t

end Sys2Proof.Machine
end

