-- ==== Sys2Proof/Claims.lean ====
section
/-! DEFINITION. The words that the statements of Certificates/ are written in: what an instruction of a steering pair changes and what it
leaves alone. -/

namespace Sys2Proof.Machine

/-- `t` differs from `s` in steering pair `sp` alone, which has become `y`. -/
structure State.PairOnly (s t : State) (sp : Nat) (y : Pair) : Prop where
  self : t.pair sp = y
  other : ∀ k, k ≠ sp → t.pair k = s.pair k
  rest : { t with pairs := s.pairs } = s

/-- `t` differs from `s` in cluster `n` alone, which has become `c`. -/
structure State.ClusterOnly (s t : State) (n : Nat) (c : Cluster) : Prop where
  self : t.cluster n = c
  other : ∀ k, k ≠ n → t.cluster k = s.cluster k
  rest : { t with clusters := s.clusters } = s

/-- `t` differs from `s` in memory port `k` alone, which has become `p`. -/
structure State.PortOnly (s t : State) (k : Nat) (p : Port) : Prop where
  self : t.port k = p
  other : ∀ j, j ≠ k → t.port j = s.port j
  rest : { t with ports := s.ports } = s

/-- The instruction retires (R241, R242): the pair goes on at `pc`, its counts of retired instructions rise. -/
structure Pair.Counted (x y : Pair) (pc : BitVec 14) : Prop where
  pc : y.pc = pc
  retired : y.retired.toNat = Nat.min (2 ^ 32 - 1) (x.retired.toNat + 1)
  instret : y.instret = x.instret + 1

/-- `y` is `x` after an instruction that goes on at `pc` and changes nothing else. -/
structure Pair.Retires (x y : Pair) (pc : BitVec 14) : Prop extends Pair.Counted x y pc where
  rest : { y with pc := x.pc, retired := x.retired, instret := x.instret } = x

/-- `y` is `x` after an instruction that goes on at `pc` and wrote `v` to g[`d`]; g0 reads 0 whatever is written (R200). -/
structure Pair.WroteG (x y : Pair) (pc : BitVec 14) (d : Fin 64) (v : W64) : Prop extends Pair.Counted x y pc where
  regs : ∀ k : Fin 64, y.readG k.val = if k = 0 then 0 else if k = d then v else x.readG k.val
  rest : { y with g := x.g, pc := x.pc, retired := x.retired, instret := x.instret } = x

/-- The same for a predicate register; p0 reads 1 (R200). -/
structure Pair.WroteP (x y : Pair) (pc : BitVec 14) (d : Fin 16) (v : Bool) : Prop extends Pair.Counted x y pc where
  preds : ∀ k : Fin 16, y.readP k.val = if k = 0 then true else if k = d then v else x.readP k.val
  rest : { y with p := x.p, pc := x.pc, retired := x.retired, instret := x.instret } = x

/-- The same for a descriptor register. -/
structure Pair.WroteD (x y : Pair) (pc : BitVec 14) (d : Fin 32) (v : DReg) : Prop extends Pair.Counted x y pc where
  descs : ∀ k : Fin 32, y.readD k.val = if k = d then v else x.readD k.val
  rest : { y with d := x.d, pc := x.pc, retired := x.retired, instret := x.instret } = x

/-- The same for the `n` bytes of data memory from `a`, byte 0 of `v` lowest (R21). -/
structure Pair.Stored (x y : Pair) (pc : BitVec 14) (a n v : Nat) : Prop extends Pair.Counted x y pc where
  inside : ∀ i, i < n → byteAt y.dmem (a + i) = BitVec.ofNat 8 (v / 256 ^ i)
  outside : ∀ i, i < a ∨ a + n ≤ i → byteAt y.dmem i = byteAt x.dmem i
  rest : { y with dmem := x.dmem, pc := x.pc, retired := x.retired, instret := x.instret } = x

/-- Pair `u.sp` issues the instruction and its guard holds (R204, log entry 24). -/
structure State.Runs (s : State) (u : Issue) : Prop where
  canIssue : s.canIssue u.sp.val = true
  guard : xor ((s.pair u.sp.val).readP u.pg.val) u.pn = true

/-- The pair that issues an instruction. -/
def State.issuer (s : State) (u : Issue) : Pair := s.pair u.sp.val

/-- The command completes, changes nothing but its own pair, and leaves that pair as `P` says. -/
def State.PairBecomes (s : State) (c : Instr) (u : Issue) (P : Pair → Pair → Prop) : Prop :=
  ∃ t y, exec c s = .next t ∧ s.PairOnly t u.sp.val y ∧ P (s.issuer u) y

/-- `t` is `s` with one more entry in the queue of every cluster that `cmask` names for the pair of `u`, and in no other; the pair has gone on
and has issued `vruns` more VRUNs. `xl` is what a stream entry keeps of its translations; only a stream touches the TLBs. -/
structure State.Joined (s t : State) (u : Issue) (cmask : BitVec 4) (eng : Engine) (work : QWork) (vruns : Nat) (xl : List TlbEnt) : Prop where
  named : ∀ n, n / 4 = u.sp.val → cmask.getLsbD (n % 4) = true → (t.cluster n).queue = (s.cluster n).queue
    ++ [newEnt (s.cluster n).nextTag ((s.issuer u).op.getD 0) u.sp.val (s.issuer u).part eng work s.clk.tick xl]
  unnamed : ∀ n, ¬ (n / 4 = u.sp.val ∧ cmask.getLsbD (n % 4) = true) → (t.cluster n).queue = (s.cluster n).queue
  clusters : ∀ n, { t.cluster n with queue := (s.cluster n).queue, nextTag := (s.cluster n).nextTag } = s.cluster n
  counted : (s.issuer u).Counted (t.pair u.sp.val) ((s.issuer u).pc + 1)
  issued : (t.pair u.sp.val).vruns = (s.issuer u).vruns + vruns
  pair : ∀ x, x = s.issuer u → { t.pair u.sp.val with pc := x.pc, retired := x.retired, instret := x.instret, vruns := x.vruns } = x
  pairs : ∀ k, k ≠ u.sp.val → t.pair k = s.pair k
  tlbs : eng ≠ .stream → t.tr = s.tr
  rest : { t with clusters := s.clusters, pairs := s.pairs, tr := s.tr } = s

/-- A tensor instruction of the pair of `u` for the clusters of `cmask` has nothing to wait for (R213, R219, R225, R393). -/
structure State.TensorReady (s : State) (u : Issue) (cmask : BitVec 4) : Prop where
  clusters : s.clusterBad u.sp.val cmask = false
  lent : (s.issuer u).recalled = false ∨ s.namesLent u.sp.val cmask = false
  queues : s.queueFull u.sp.val cmask = false
  link : s.linkFull = false

/-- Entry number `n` of the trouble log is `e` (R437: the newest 8,192 entries are kept). -/
def State.Logged (s : State) (n : W32) (e : Tlog) : Prop := Tab.get none s.ras.log (n.toNat % 8192) = some e

/-- The host port is open and the whole window is reached at once (R350 to R352, R381, R422). -/
structure State.HostOpen (s : State) : Prop where
  released : s.boot.inReset = false
  alive : s.boot.fatal = false
  awake : s.clk.awake = true

/-- `t` is `s` with one more entry in the trouble log. -/
def State.Notes (s t : State) (e : Tlog) : Prop :=
  t = { s with ras := { s.ras with log := Tab.set none s.ras.log (s.ras.total.toNat % 8192) (some e), total := s.ras.total + 1 } }

/-- Command `c` stands in staging as `x`, passes every wait before its admission with nothing to take, its sequence allows it and is
resident (R296). -/
structure State.Admits (s : State) (op : Nat) (c : Cmd) (x : Staged) : Prop where
  serving : s.serving = true
  opcode : opcodeOf c = op
  staged : s.stagedFor c = some x
  admitted : s.admissible x = (true, s)
  found : s.seqCheck x.part c = none
  resident : s.residency x.part c = (true, s)

/-- The next operation tag is in no use (R296). -/
def State.Fresh (s : State) : Prop :=
  (∀ o ∈ s.hw.ops, o.opid ≠ s.hw.nextOpid) ∧ ∀ p, ∀ j ∈ (s.pool p).copyJobs, j.opid ≠ s.hw.nextOpid

/-- The command has left staging and has used one operation tag. -/
structure State.Took (s t : State) (c : Cmd) : Prop where
  gone : t.stagedFor c = none
  tag : t.hw.nextOpid = s.hw.nextOpid + 1

/-- Pair `sp` raised exception `code` at its next instruction (R231, R232): `SP_EXC` holds the first exception, the trouble log has it, and
the pair is otherwise as it was: the instruction has no effect. -/
structure State.Raised (s t : State) (sp code : Nat) : Prop where
  shown : bit (s.pair sp).exc 63 = false → bit (t.pair sp).exc 63 = true ∧ bits (t.pair sp).exc 48 8 = code % 256
    ∧ bit (t.pair sp).exc 47 = (s.pair sp).bank ∧ bits (t.pair sp).exc 32 14 = (s.pair sp).pc.toNat
    ∧ bits (t.pair sp).exc 0 32 = ((s.pair sp).op.getD 0).toNat
  kept : bit (s.pair sp).exc 63 = true → (t.pair sp).exc = (s.pair sp).exc
  pair : { t.pair sp with exc := (s.pair sp).exc } = s.pair sp
  others : ∀ k, k ≠ sp → t.pair k = s.pair k
  logged : t.Logged s.ras.total ⟨s.clk.tick, 0x03, some (s.pair sp).part, false, 2, BitVec.ofNat 8 (0x40 + sp), (s.pair sp).op.getD 0,
    BitVec.ofNat 32 (code + 2 ^ 8 * (if (s.pair sp).bank then 1 else 0) + 2 ^ 9 * (s.pair sp).pc.toNat), 0⟩
  clusters : t.clusters = s.clusters
  mem : t.mem = s.mem

end Sys2Proof.Machine

namespace Sys2Proof

/-- What every Lefiza instruction carries: the pair that issues it and its guard; none for the other commands. -/
def Instr.issueOf : Instr → Option Issue
  | .add u _ _ _ | .sub u _ _ _ | .mul u _ _ _ | .mulhu u _ _ _ | .divu u _ _ _ | .remu u _ _ _ | .and u _ _ _ | .or u _ _ _
  | .xor u _ _ _ | .shl u _ _ _ | .shr u _ _ _ | .sar u _ _ _ | .min u _ _ _ | .max u _ _ _ | .minu u _ _ _ | .maxu u _ _ _
  | .clz u _ _ _ | .popc u _ _ _ | .movi u _ _ | .movhi u _ _ | .eq u _ _ _ | .ne u _ _ _ | .lt u _ _ _ | .le u _ _ _
  | .ltu u _ _ _ | .leu u _ _ _ | .pand u _ _ _ | .por u _ _ _ | .pxor u _ _ _ | .pfromg u _ _ | .ptog u _ _ | .ld8 u _ _ _
  | .ld16 u _ _ _ | .ld32 u _ _ _ | .ld64 u _ _ _ | .lds8 u _ _ _ | .lds16 u _ _ _ | .lds32 u _ _ _ | .st8 u _ _ _ | .st16 u _ _ _
  | .st32 u _ _ _ | .st64 u _ _ _ | .b u _ | .bl u _ _ | .bi u _ | .dldt u _ _ _ | .dlds u _ _ _ | .dldl u _ _ | .dst u _ _ _
  | .dsetw u _ _ _ | .dgetw u _ _ _ | .dadda u _ _ | .dclr u _ | .mxrun u _ | .mxew u _ | .vrun u _ | .sxq u _ _ | .hset u _ _ _
  | .hclr u _ _ | .ltw u _ _ _ | .rclr u _ _ | .swait u _ _ _ _ | .sraise u _ | .spoll u _ _ | .tfence u _ | .tmovd u _ _ _
  | .tmovm u _ _ _ | .ifenceSwap u _ | .csrr u _ _ | .endProg u _ | .trap u _ | .nop u => some u
  | _ => none

end Sys2Proof
end

