-- ==== Sys2Proof/Machine/Registers.lean ====
section
/-! DEFINITION. What a host read of each register of the window returns (R9, R10, R18, R19, R458). Reads change nothing, but for the wake that
one outside the power range starts (the row WAKE). -/

namespace Sys2Proof.Machine

/-- Fields as (lowest bit, value), each value within its field. -/
def word (fs : List (Nat × Nat)) : W64 := BitVec.ofNat 64 ((fs.map (fun f => f.2 * 2 ^ f.1)).sum)
def flag64 (b : Bool) : Nat := if b then 1 else 0

/-- A number as its field of `n` bits shows it where it stops at its maximum. -/
def cap (n x : Nat) : Nat := Nat.min (2 ^ n - 1) x

/-- R452: `PERMILLE` of `AX_BOOT`. -/
def State.bootPermille (s : State) : Nat :=
  if s.boot.stage = 4 then 1000 else if s.boot.stage ≤ 1 then 0 else 150 + 700 * s.boot.wavesDone / s.waves

/-- R452: `AX_BOOT`. -/
def State.axBoot (s : State) : W64 :=
  progressWord 0x81 s.bootPermille 3 (s.boot.stage * 2 ^ 8 + (if s.boot.stage = 2 then s.boot.wave else 0))

/-- R457: `AX_STATE`. -/
def State.axState (s : State) : W64 :=
  word [(32, s.boot.svc.toNat), (20, popcount s.boot.svc), (11, flag64 s.boot.meterOut), (10, flag64 s.boot.norec), (9, flag64 s.boot.fatal),
    (8, flag64 s.boot.bootFail), (3, flag64 s.boot.reduced), (0, s.boot.stage)]

/-- A configuration register as `VIEW` shows it (R318). -/
def State.readConfig (s : State) (off : Nat) : W64 := (if s.cfg.view then s.cfg.shadow else s.cfg.active).read off

/-- R388: the memory ports. -/
def State.readPort (s : State) (k : Nat) : W64 :=
  let p := s.port k
  word [(48, p.reads.length), (32, p.writes.length), (16, p.errs.toNat), (0, p.tagfull.toNat)]

/-- The global range (R318, R323, R328, R388, R452 to R457). -/
def State.readGlobal (s : State) (off : Nat) : W64 :=
  match off with
  | 0x0 => s.part.axId
  | 0x8 => s.part.axCaps
  | 0x10 => s.axState
  | 0x18 => s.axBoot
  | 0x100 => word [(63, flag64 s.cfg.busy), (62, flag64 s.cfg.shadowLost), (0, flag64 s.cfg.view)]
  | 0x108 => s.cfg.epoch
  | 0x110 => word [(16, s.cfg.keepWarm.toNat), (0, s.cfg.resetting.toNat)]
  | 0x118 => word [(0, s.cfg.partLock.toNat)]
  | 0x120 => word [(16, s.cfg.lockViolP.toNat), (0, s.cfg.lockViol.toNat)]
  | 0x300 => s.glob.irqAddr
  | 0x308 => s.glob.irqVec0
  | 0x310 => s.glob.irqVec1
  | 0x318 => s.glob.irqPend
  | 0x900 => if s.part.optP then word [(63, flag64 s.glob.peerEnable), (32, s.glob.peerId.toNat), (0, s.glob.foMask.toNat)] else 0
  | 0x908 => if s.part.optP then word [(32, s.glob.nackSent.toNat), (0, s.glob.nackRcvd.toNat)] else 0
  | 0xA00 => word [(48, s.glob.fabLost.toNat), (32, s.glob.fabBad.toNat)]
  | off => if 0x800 ≤ off && off < 0x880 then s.readPort ((off - 0x800) / 8) else 0

/-- The power, clock and reset range (R387). -/
def State.readPower (s : State) (off : Nat) : W64 :=
  match off with
  | 0x10000 => word [(63, flag64 s.clk.awake), (62, flag64 s.clk.noStop), (32, popcount s.clk.clkOn), (8, s.clk.idle / 1024 % 2 ^ 24), (0, s.clk.freq.toNat)]
  | 0x10008 => word [(32, s.clk.clIdle.toNat), (0, s.clk.pllIdle.toNat)]
  | 0x10028 => word [(16, s.clk.blockResets.toNat), (0, s.clk.last.toNat)]
  | _ => 0

/-- R437: the 32 bytes of a trouble-log entry. -/
def Tlog.bytes (e : Tlog) : List Byte :=
  leBytes 8 e.tick.toNat ++ leBytes 2 e.kind.toNat
    ++ [BitVec.ofNat 8 ((match e.part with
          | some p => p % 16 + 16
          | none => 0) + (if e.host then 32 else 0)), BitVec.ofNat 8 e.cls.toNat, e.unit, 0, 0, 0]
    ++ leBytes 4 e.opid.toNat ++ leBytes 4 e.arg0.toNat ++ leBytes 8 e.arg1.toNat

/-- R437, R445: entry `n`, where it is still held. -/
def Ras.entry (r : Ras) (n : W32) : Option Tlog :=
  if (r.total - 1 - n).toNat < Config.tlogMax then Tab.get none r.log (n.toNat % Config.tlogMax) else none

/-- Word `k` of a list of bytes. -/
def wordAt (bs : List Byte) (k : Nat) : W64 := BitVec.ofNat 64 (leNat ((bs.drop (8 * k)).take 8))

/-- The RAS range (R445). -/
def State.readRas (s : State) (off : Nat) : W64 :=
  let r := s.ras
  let x := s.recorder
  match off with
  | 0x20000 => word [(63, flag64 s.boot.fatal), (60, s.boot.fcause.toNat)]
  | 0x20008 => word [(0, r.pstop.toNat)]
  | 0x20010 => word [(32, cap 32 r.ce), (16, cap 16 r.l), (8, cap 8 r.p), (0, cap 8 r.b)]
  | 0x20018 => word [(32, r.pairOut.toNat), (0, r.clOut.toNat)]
  | 0x20100 => word [(0, r.total.toNat)]
  | 0x20108 => word [(0, r.tlogSel.toNat)]
  | 0x20200 => word [(0, flag64 x.cal)]
  | 0x20208 => x.utc
  | 0x20210 => word [(63, flag64 x.nodev), (62, flag64 x.repairFull), (32, x.lost.toNat), (16, x.queue.length)]
  | 0x20218 => word [(32, x.pcycle.toNat), (0, x.rseq.toNat)]
  | off => if 0x20110 ≤ off && off < 0x20130 then (match r.entry r.tlogSel with
      | some e => wordAt e.bytes ((off - 0x20110) / 8)
      | none => 0) else 0

/-- The trace range (R446). -/
def State.readTrace (s : State) (off : Nat) : W64 :=
  let t := s.trc
  match off with
  | 0x30000 => word [(63, flag64 t.enable), (61, t.mode.toNat), (0, flag64 t.flush)]
  | 0x30008 => word [(16, t.parts.toNat), (0, t.types.toNat)]
  | 0x30010 => word [(32, t.wraps.toNat), (0, t.tail)]
  | 0x30018 => t.stream
  | 0x30020 => word [(32, t.sHead.toNat), (0, t.sTail.toNat)]
  | 0x30028 => word [(0, t.lost.toNat)]
  | 0x30030 => word [(0, t.mark.toNat)]
  | 0x30038 => word [(0, t.sel.toNat)]
  | off => if 0x30040 ≤ off && off < 0x30060 then (Tab.get 0 t.buffer t.sel.toNat).extractLsb' (8 * (off - 0x30040)) 64 else 0

/-- The translation range (R339). -/
def State.readTr (s : State) (off : Nat) : W64 :=
  let t := s.tr
  match off with
  | 0x40000 => t.groot.getD 0
  | 0x40008 => t.invWord
  | 0x40010 => word [(40, t.invDone.toNat), (16, t.invIssued.toNat), (4, flag64 t.invOvf), (0, t.invQ.length)]
  | 0x40018 => t.acc
  | 0x40020 => word [(32, t.accHead.toNat), (0, t.accTail.toNat)]
  | 0x40028 => word [(32, t.walks.toNat), (16, t.hotLost.toNat), (0, t.walkMax.toNat)]
  | _ => 0

/-- R281: the 256 bytes of the selected record as the view shows them. -/
def State.seqView (s : State) : List Byte :=
  let p := s.hw.seqSel.toNat / 16384
  let q := s.hw.seqSel.toNat % 16384
  let x := s.seq p q
  match x.st with
  | .free => List.replicate 256 0
  | .spilled => (seqRecord p q { Seq.free with st := .spilled }).take 4 ++ List.replicate 252 0
  | _ => (seqRecord p q x).take 128 ++ List.replicate 128 0

/-- Headwater's range (R281, R283, R311). -/
def State.readHw (s : State) (off : Nat) : W64 :=
  let r := s.ring s.hw.ringSel.toNat
  match off with
  | 0xA0000 => word [(0, s.hw.ringSel.toNat)]
  | 0xA0008 => r.base
  | 0xA0010 => r.cbase
  | 0xA0018 => word [(63, flag64 r.enable), (62, flag64 r.mgmt), (61, flag64 r.irqEn), (52, r.part.toNat), (40, r.log2n.toNat), (0, r.irqVec.toNat)]
  | 0xA0020 => word [(32, r.done.toNat), (0, r.fetched.toNat)]
  | 0xA0028 => word [(1, flag64 r.badBell), (0, flag64 r.offBell)]
  | 0xA0030 => word [(0, r.start.toNat)]
  | 0xB0000 => word [(0, s.hw.seqSel.toNat)]
  | 0xC0000 => s.hw.oxbow.getD 0
  | 0xC0008 => s.hw.backlogBase.getD 0
  | 0xC0010 => word [(32, s.hw.seqs.countP (fun e => e.2.st = .spilled)), (0, s.resident)]
  | 0xC0018 => word [(63, flag64 s.weir.floorOver), (16, cap 6 s.sharesUsed), (8, cap 6 s.floorSum), (0, cap 6 s.g)]
  | off => if 0xB0100 ≤ off && off < 0xB0200 then wordAt s.seqView ((off - 0xB0100) / 8) else 0

/-- R348: `PT_HALT`. -/
def State.ptHalt (s : State) (p : Nat) : W64 :=
  let l := s.hw.ops.filter (fun o => o.part = p && o.st = .held)
  let old := l.foldl (fun (m : Option W32) o => match m with
    | some x => if o.opid.toNat < x.toNat then some o.opid else some x
    | none => some o.opid) none
  word [(32, (old.getD 0).toNat), (0, l.length)]

/-- R277, R314: the pool registers, while the partition has a descriptor in the active set, enabled or not. -/
def State.readPool (s : State) (p o : Nat) : W64 :=
  let x := s.pool p
  if !(s.desc p).valid then 0
  else match o with
    | 0x2000 => word [(24, x.count .cached), (0, (s.freeFrames p).length)]
    | 0x2008 => word [(48, s.hw.seqs.countP (fun e => e.1 / 16384 = p && e.2.paused)), (24, x.pendFree.length), (2, flag64 x.floorSeen),
        (0, match x.fstate with
          | .normal => 0
          | .low => 1
          | .floor => 2)]
    | 0x2010 => word [(32, cap 32 x.hashHits), (16, cap 16 x.cow), (0, cap 16 x.tailReclaim)]
    | _ => word [(40, cap 24 x.evicted), (16, cap 24 x.restored), (0, cap 16 x.corrupt)]

/-- The registers of partition `p`'s window outside the configuration sets. -/
def State.readPt (s : State) (p o : Nat) : W64 :=
  let t := s.ptReg p
  let n := (Tab.get 0 s.sig.ptNum p).toNat
  match o with
  | 0x200 => word [(63, flag64 (s.isRaised n)), (62, flag64 (s.sig.waiters.any (fun w => w.1 = n))), (16, Tab.get 0 s.sig.ptOp p), (0, n)]
  | 0x208 => word [(32, cap 32 (Tab.get 0 s.weir.lends p)), (0, cap 6 (Tab.get 0 s.weir.lent p))]
  | 0x300 => t.resume
  | 0x308 => t.rring
  | 0x310 => word [(32, t.rringHead.toNat), (0, t.rringTail.toNat)]
  | 0x318 => s.ptHalt p
  | 0x320 => word [(63, flag64 t.killGo), (0, t.killSqid.toNat)]
  | 0x400 => word [(63, flag64 (s.pool p).scrubEn), (0, (s.pool p).scrubPeriod.toNat)]
  | 0x408 => let n := (s.desc p).pgIds; progressWord 0x80 (if n = 0 then 0 else 1000 * (s.pool p).scrubPos / n) 2 (s.pool p).scrubPos
  | 0x1000 => word [(48, cap 16 (Tab.get 0 s.hw.deferred p)), (16, s.residentOf p), (0, (s.backlog p).length)]
  | 0x1008 => word [(32, cap 32 (Tab.get 0 s.weir.pfWait p)), (16, cap 6 (s.heldBy p .prefill)), (8, cap 6 (s.heldBy p .decode)), (0, cap 6 (s.floorOf p))]
  | o => if 0x2000 ≤ o && o ≤ 0x2018 then s.readPool p o else 0

/-- The debug window of cluster `n` (R102, R130, R170, R173, R183, R190, R327). -/
def State.readCluster (s : State) (n o : Nat) : W64 :=
  let c := s.cluster n
  if s.nClusters ≤ n then 0
  else match o with
    | 0x400 => word [(40, cap 8 c.checkFailed), (36, c.colOut.toNat), (32, c.rowOut.toNat), (16, cap 16 c.dataFaults), (0, cap 16 c.checkerFaults)]
    | 0x500 => word [(32, cap 32 c.hazardFc), (0, cap 32 c.qemptyFc)]
    | 0x600 => word [(16, cap 8 c.sb.length), (8, cap 8 (c.handles.countP (fun h => bit h.2 63))), (0, c.cacheMib.toNat)]
    | 0x608 => word [(32, cap 32 c.bankConfl), (0, cap 32 c.colStall)]
    | 0x610 => word [(32, cap 32 c.sbStall), (0, cap 32 c.ringStall)]
    | 0x618 => word [(32, cap 32 c.hits), (0, cap 32 c.misses)]
    | 0x620 => word [(16, cap 16 c.fieldRep), (0, ((List.range 64).map (fun b => s.sparesUsed n b)).foldl Nat.max 0)]
    | 0x700 => word [(32, c.stale.toNat), (20, flag64 (s.cfg.active.assigned n)), (16, s.clPart n), (0, c.roleEpoch.toNat)]
    | o =>
      if 0x1000 ≤ o && o < 0x1200 then (c.sb[(o - 0x1000) / 8]?.map SbEnt.word).getD 0
      else if 0x2000 ≤ o && o < 0x2800 then Tab.get 0 c.handles ((o - 0x2000) / 8)
      else if 0x4000 ≤ o && o < 0x6000 then (Tab.get 0 c.loops ((o - 0x4000) / 128)).extractLsb' (8 * ((o - 0x4000) % 128)) 64
      else 0

/-- R242: STATE. -/
def PairSt.code : PairSt → Nat
  | .idle => 0 | .running => 1 | .waitSig => 2 | .waitRecall => 3 | .heldDma => 4 | .stopped => 5 | .loading => 6

/-- The built-in operation that pair `n` drives: the oldest at work on its clusters, else the oldest that is held there (R234). -/
def State.builtinPair (s : State) (n : Nat) : Option Op :=
  let l := s.hw.ops.filter (fun o => opcodeOf o.cmd != 0x0F && (pairsOf o.clusters).contains n)
  l.find? (fun o => o.st = .running && !o.fin) <|> l.find? (fun o => o.st = .held)

/-- R242: STATE of pair `n`; it runs, or stands held, for a built-in program as for an image. -/
def State.pairState (s : State) (n : Nat) : PairSt :=
  let x := s.pair n
  if x.op.isSome || x.st != .idle then x.st
  else match s.builtinPair n with
    | some o => if o.st = .held then .heldDma else .running
    | none => .idle

/-- R242: CMASK_OP of pair `n`. -/
def State.pairMask (s : State) (n : Nat) : Nat :=
  if (s.pair n).op.isSome then s.cmaskOp n
  else match s.builtinPair n with
    | some o => (o.clusters &&& s.boot.svc).toNat / 2 ^ (4 * n) % 16
    | none => 0

/-- The window of pair `n` (R242). -/
def State.readPair (s : State) (n o : Nat) : W64 :=
  let x := s.pair n
  if s.nPairs ≤ n then 0
  else match o with
    | 0x0 => word [(32, x.pc.toNat), (31, x.bankNo), (28, (s.pairState n).code), (24, s.pairMask n),
        (20, ((List.range 4).filter (fun k => s.inService (4 * n + k))).foldl (fun a k => a + 2 ^ k) 0), (0, flag64 x.lsFail)]
    | 0x8 => x.exc
    | 0x10 => word [(32, x.retired.toNat), (0, x.qfullFc.toNat)]
    | 0x18 => word ((List.range 4).map (fun k => (16 * k, (s.cluster (4 * n + k)).queue.length)))
    | 0x20 => word [(32, x.tag1.toNat), (0, x.tag0.toNat)]
    | o => if 0x1000 ≤ o && o < 0x1200 && (s.pairState n = .idle || s.pairState n = .stopped) then x.readG ((o - 0x1000) / 8) else 0

/-- R458: a register's value; a reserved offset reads 0 (R19). -/
def State.readReg (s : State) (off : Nat) : W64 :=
  if off % 8 != 0 then 0
  else if (cfgMask s.part.s32 off).isSome then s.readConfig off
  else match partWindow off with
    | some (p, o) => s.readPt p o
    | none =>
      if off < 0x10000 then s.readGlobal off
      else if off < 0x20000 then s.readPower off
      else if off < 0x30000 then s.readRas off
      else if off < 0x40000 then s.readTrace off
      else if off < 0x50000 then s.readTr off
      else if off < 0x100000 then s.readHw off
      else if 0x500000 ≤ off && off < 0x900000 then s.readCluster ((off - 0x500000) / 0x20000) ((off - 0x500000) % 0x20000)
      else if 0x900000 ≤ off && off < 0x980000 then s.readPair ((off - 0x900000) / 0x10000) ((off - 0x900000) % 0x10000)
      else 0

/-- R350, R381, R422: what the host command port answers to a read: data and `HC_RSP_ERR`. -/
def State.hostRead (s : State) (off : Nat) : W64 × Bool :=
  if s.boot.inReset then (0, true)
  else if s.boot.fatal && !(decide (0x10000 ≤ off ∧ off < 0x30000)) then (0, false)
  else (s.readReg off, false)

end Sys2Proof.Machine
end

