-- ==== Sys2Proof/WellFormed.lean ====
section
/-! DEFINITION. Which commands are well-formed: those whose operands lie in the ranges of the rule that names them. The rules give an
ill-formed command a meaning of its own (it is refused, or it has no effect), so `exec` is total on them all; the rows below are
the ones whose operands can spell something that is not an operand of that row. -/

namespace Sys2Proof

/-- A ring command stands in one of the 16,384 rings (R283), and its opcode byte is that of its row (R460). -/
def Cmd.wf (c : Cmd) (op : Nat) : Bool := decide (c.ring < 16384) && c.w.toNat % 256 == op

/-- A page-group identifier: 0xFF_FFFF is never allocated (R249). -/
def groupWf (g : Nat) : Bool := decide (g < 0xFFFFFF)

/-- A merge node (R146): node index j of level k, over at most 8,192 segments. -/
def nodeWf (level node : Nat) : Bool := decide (level ≤ 13) && decide (node < 2 ^ (13 - level))

/-- A partial tile (R153): 1 to 64 rows of `dim` elements; `dim` runs from 32 to 256 in steps of 16 (R131). -/
def PTile.wf (t : PTile) : Bool :=
  nodeWf t.level t.node && decide (1 ≤ t.rows.length) && decide (t.rows.length ≤ 64) && t.dim % 16 == 0 && decide (32 ≤ t.dim)
    && decide (t.dim ≤ 256) && t.rows.all (fun r => r.o.length == t.dim)

/-- A register offset: registers lie at multiples of 8 bytes (R351). -/
def offsetWf (off : BitVec 24) : Bool := off.toNat % 8 == 0

/-- A power-management message of the type that its row names (R376). -/
def pmWf (w : W32) (t : Nat) : Bool := w.toNat / 2 ^ 28 == t

/-- A matrix command: `PM` 3 is reserved (R214). -/
def MxF.wf (f : MxF) : Bool := f.pm.toNat != 3

/-- A unit of SRAM: a scratchpad bank has 1,536 rows (R163). -/
def SramUnit.wf : SramUnit → Bool
  | .scratchpad _ _ row => decide (row < 1536)
  | .clusterOther _ | .pairCode _ _ | .pairData _ | .tlb _ | .cacheTag _ | .context _ _ | .duplicated _ | .other => true

/-- What a scrub read found names a unit of SRAM. -/
def SramFinding.wf : SramFinding → Bool
  | .clean => true
  | .single u _ => u.wf
  | .double u _ => u.wf

/-- The commands whose operands are in range. -/
def Instr.wf : Instr → Bool
  | .regWrite off _ => offsetWf off
  | .configWrite off _ => offsetWf off
  | .admitSeq c => c.wf 0x01
  | .release c => c.wf 0x02
  | .fork c => c.wf 0x03
  | .appendKv c => c.wf 0x04
  | .attend c => c.wf 0x05
  | .attendBwd c => c.wf 0x06
  | .prefill c => c.wf 0x07
  | .specCommit c => c.wf 0x08
  | .specAbort c => c.wf 0x09
  | .evict c => c.wf 0x0A
  | .restore c => c.wf 0x0B
  | .exportGroups c => c.wf 0x0C
  | .importGroups c => c.wf 0x0D
  | .swap c => c.wf 0x0E
  | .runProgram c => c.wf 0x0F
  | .segmentDone _ seg => decide (seg < 8192)
  | .partialTile _ _ t => t.wf
  | .merge _ level node => decide (1 ≤ level) && nodeWf level node
  | .grant w => pmWf w 1
  | .returnShares w => pmWf w 2
  | .freq w => pmWf w 3
  | .wake (.message w) => pmWf w 4
  | .wake .read => true
  | .wake .timeout => true
  | .noStop w => pmWf w 5
  | .write _ t => t.wf
  | .stale _ t => t.wf
  | .evictCopyDone _ g _ => groupWf g
  | .restoreCopyDone _ g _ => groupWf g
  | .cowCopyDone _ g _ => groupWf g
  | .crcComputeDone _ g => groupWf g
  | .scrubGroup _ g => groupWf g
  | .sramScrub f => f.wf
  | .linkEvent e => decide (e.q.toNat < 14)
  | .restart e => e.q.toNat == 15
  | .reportAck e => e.q.toNat == 14
  | .meterWrite addr _ => addr.toNat != 0x3 && addr.toNat != 0xA
  | .mxrun _ f => f.wf
  | .mxew _ f => f.wf
  | .coldReset | .blockReset | .resetRelease _ | .s1End | .s2WaveEnd _ | .s3End _ | .rstCtlBlock _ | .partitionReset _
  | .partitionResetDone _ | .ptKill _ _ | .smuPor | .axPartLock _ | .rasPstop _ | .ringEnable _ | .ringDisable _ | .doorbell _ _
  | .commandFetch | .backlogRetry _ | .prefillChunk _ | .swapSwitchPoint | .clusterClearDone _ | .imageLoadDone _ | .shareGrant
  | .fire _ _ | .prewakeTimeout _ | .entryStart _ _ | .tileVerdict _ _ | .abftRerunDone _ _ _ _ | .entryComplete _ _ | .peerTmo _
  | .streamIssue _ | .memoryRequestIssue _ | .readCommandCredit _ | .writeCommandCredit _ | .writeDataCredit _ | .readReturn _ _ _
  | .writeCompletion _ _ _ | .walkDone _ | .heldTimeout _ _ | .unmap _ | .hold _ | .resolve _ | .invalidationDone | .holdTimeout _
  | .stallTimeout _ _ | .budgetExpiry _ | .ptResumeResume _ _ | .ptResumeRelease _ _ | .ptSigSelect _ _ | .ptSigRaise _ _
  | .ptSigClear _ _ | .signalTimeout _ | .lend _ | .recallExpiry _ | .freqSwitchDone | .pllAwake | .pllStop | .power
  | .clusterClockStop _ | .clusterClockStart _ | .pllLockLoss | .refClkAbsent | .clockUnitSelfCheckFail | .resetTagQuarantineEnd
  | .flit _ | .fabricCredit _ _ | .credit _ | .ack _ | .nack _ | .withdraw _ | .withdrawAck _ | .withdrawTimeout _
  | .groupCopyDone _ _ | .comparatorSelfTest _ _ | .lockstepMismatch _ | .mgmtPairMismatch | .clMapout _ _ | .time | .recUtcAdvance
  | .residencySample | .recordProgramDone | .trcMark _ | .flush _ | .mevHold _ | .sealReport _ | .lockReport _ | .sealReportResend
  | .glitchTrip | .meterPersist | .meterRead _ | .smuSeal _ | .sealBurnDone | .smuRoCtl _ | .readoutDone | .bypass | .idcode
  | .samplePreload | .extest | .ijtagAccess | .testInstrument _ => true
  | .add _ _ _ _ | .sub _ _ _ _ | .mul _ _ _ _ | .mulhu _ _ _ _ | .divu _ _ _ _ | .remu _ _ _ _ | .and _ _ _ _ | .or _ _ _ _
  | .xor _ _ _ _ | .shl _ _ _ _ | .shr _ _ _ _ | .sar _ _ _ _ | .min _ _ _ _ | .max _ _ _ _ | .minu _ _ _ _ | .maxu _ _ _ _
  | .clz _ _ _ _ | .popc _ _ _ _ | .movi _ _ _ | .movhi _ _ _ | .eq _ _ _ _ | .ne _ _ _ _ | .lt _ _ _ _ | .le _ _ _ _
  | .ltu _ _ _ _ | .leu _ _ _ _ | .pand _ _ _ _ | .por _ _ _ _ | .pxor _ _ _ _ | .pfromg _ _ _ | .ptog _ _ _ | .ld8 _ _ _ _
  | .ld16 _ _ _ _ | .ld32 _ _ _ _ | .ld64 _ _ _ _ | .lds8 _ _ _ _ | .lds16 _ _ _ _ | .lds32 _ _ _ _ | .st8 _ _ _ _
  | .st16 _ _ _ _ | .st32 _ _ _ _ | .st64 _ _ _ _ | .b _ _ | .bl _ _ _ | .bi _ _ | .dldt _ _ _ _ | .dlds _ _ _ _ | .dldl _ _ _
  | .dst _ _ _ _ | .dsetw _ _ _ _ | .dgetw _ _ _ _ | .dadda _ _ _ | .dclr _ _ | .vrun _ _ | .sxq _ _ _ | .hset _ _ _ _
  | .hclr _ _ _ | .ltw _ _ _ _ | .rclr _ _ _ | .swait _ _ _ _ _ | .sraise _ _ | .spoll _ _ _ | .tfence _ _ | .tmovd _ _ _ _
  | .tmovm _ _ _ _ | .tmovDone _ | .ifenceSwap _ _ | .csrr _ _ _ | .endProg _ _ | .trap _ _ | .nop _ | .meterIslandUnpowered
  | .delayRegisterParityError _ | .frameCrcOrOpcodeBad | .illegalInstruction _ _ => true

end Sys2Proof
end

