-- ==== Sys2Proof/Certificates/Slice0/Obligations.lean ====
section
/-! DEFINITION. The statements about the model, one definition each; OBLIGATIONS.json lists them. -/

open Sys2Proof Sys2Proof.Machine

/-! The whole machine -/

/-- The command at the front of the queue runs on the block with the queue's rest. -/
def Obligations.StepRunsFrontCommand : Prop :=
  ∀ (c : Instr) (rest : List Instr) (s : State), s.pending = c :: rest → step s = exec c { s with pending := rest }

/-- Every command answers a next state, whatever its operands and the state, and none of them changes the part as built, the queue, the
meter's serial number and transport key or a burned seal; each keeps host memory in canonical form. -/
def Obligations.EveryCommandAnswers : Prop :=
  ∀ (c : Instr) (s : State), ∃ t, exec c s = .next t ∧ t.part = s.part ∧ t.pending = s.pending ∧ t.smu.serial = s.smu.serial
    ∧ t.smu.transportKey = s.smu.transportKey ∧ s.smu.burned <+: t.smu.burned ∧ (s.memOk → t.memOk)

/-- From every state with canonical memory a run of any length stops nowhere and keeps memory canonical. -/
def Obligations.EveryRunIsSafe : Prop :=
  ∀ (k : Nat) (s : State), s.memOk → s.SafeRun k

/-- No step lowers the meter's tamper count but the meter's power-on reset, and no step at all loses a burned seal, the serial number or the
transport key (R398, R399). -/
def Obligations.TamperCountNeverFalls : Prop :=
  ∀ (s t : State), step s = .next t →
    (s.pending.head? ≠ some .smuPor → s.smu.tamper.toNat ≤ t.smu.tamper.toNat)
      ∧ s.smu.burned <+: t.smu.burned ∧ t.smu.serial = s.smu.serial ∧ t.smu.transportKey = s.smu.transportKey

/-! Lefiza: classes 0x0 to 0x5 -/

/-- R206: every operation of classes 0x0 and 0x1, with a register or an immediate as B. -/
def Obligations.ScalarResults : Prop :=
  ∀ (s : State) (u : Issue) (d a : Fin 64) (b : SrcB) (imm : W32), s.Runs u →
    let x := s.issuer u
    let A := x.readG a.val
    let B := match b with
      | .reg r => x.readG r.val
      | .imm i => i.signExtend 64
    let gives (c : Instr) (v : W64) : Prop := s.PairBecomes c u (fun x y => x.WroteG y (x.pc + 1) d v)
    gives (.add u d a b) (A + B) ∧ gives (.sub u d a b) (A - B) ∧ gives (.mul u d a b) (A * B)
      ∧ gives (.mulhu u d a b) (BitVec.ofNat 64 (A.toNat * B.toNat / 2 ^ 64))
      ∧ gives (.divu u d a b) (if B = 0 then BitVec.allOnes 64 else A / B)
      ∧ gives (.remu u d a b) (if B = 0 then A else A % B)
      ∧ gives (.and u d a b) (A &&& B) ∧ gives (.or u d a b) (A ||| B) ∧ gives (.xor u d a b) (A ^^^ B)
      ∧ gives (.shl u d a b) (A <<< (B.toNat % 64)) ∧ gives (.shr u d a b) (A >>> (B.toNat % 64))
      ∧ gives (.sar u d a b) (BitVec.ofInt 64 (A.toInt / 2 ^ (B.toNat % 64)))
      ∧ gives (.min u d a b) (if B.slt A then B else A) ∧ gives (.max u d a b) (if A.slt B then B else A)
      ∧ gives (.minu u d a b) (if B < A then B else A) ∧ gives (.maxu u d a b) (if A < B then B else A)
      ∧ gives (.clz u d a b) (BitVec.ofNat 64 ((List.range 64).takeWhile (fun k => !A.getLsbD (63 - k))).length)
      ∧ gives (.popc u d a b) (BitVec.ofNat 64 ((List.range 64).countP (fun k => A.getLsbD k)))
      ∧ gives (.movi u d imm) (imm.signExtend 64) ∧ gives (.movhi u d imm) (imm ++ (x.readG d.val).setWidth 32)

/-- R207: comparisons and predicate operations. R209: branches inside the running image; NOP (R241) only goes on. -/
def Obligations.PredicatesAndBranches : Prop :=
  (∀ (s : State) (u : Issue) (pd p q : Fin 16) (a d : Fin 64) (b : SrcB), s.Runs u →
    let x := s.issuer u
    let A := x.readG a.val
    let B := match b with
      | .reg r => x.readG r.val
      | .imm i => i.signExtend 64
    let gives (c : Instr) (v : Bool) : Prop := s.PairBecomes c u (fun x y => x.WroteP y (x.pc + 1) pd v)
    gives (.eq u pd a b) (A == B) ∧ gives (.ne u pd a b) (A != B) ∧ gives (.lt u pd a b) (A.slt B) ∧ gives (.le u pd a b) (A.sle B)
      ∧ gives (.ltu u pd a b) (A.ult B) ∧ gives (.leu u pd a b) (A.ule B)
      ∧ gives (.pand u pd p q) (x.readP p.val && x.readP q.val) ∧ gives (.por u pd p q) (x.readP p.val || x.readP q.val)
      ∧ gives (.pxor u pd p q) (x.readP p.val != x.readP q.val) ∧ gives (.pfromg u pd a) (A != 0)
      ∧ s.PairBecomes (.ptog u d p) u (fun x y => x.WroteG y (x.pc + 1) d (if x.readP p.val then 1 else 0)))
    ∧ (∀ (s : State) (u : Issue) (d a : Fin 64) (tgt : BitVec 14), s.Runs u →
        let x := s.issuer u
        (tgt.toNat < x.codeLen →
          s.PairBecomes (.b u tgt) u (fun x y => x.Retires y tgt)
            ∧ s.PairBecomes (.bl u d tgt) u (fun x y => x.WroteG y tgt d ((x.pc + 1).setWidth 64)))
          ∧ (((x.readG a.val).setWidth 14).toNat < x.codeLen →
            s.PairBecomes (.bi u a) u (fun x y => x.Retires y ((x.readG a.val).setWidth 14)))
          ∧ s.PairBecomes (.nop u) u (fun x y => x.Retires y (x.pc + 1)))

/-- R208: loads from an aligned address in data memory, and stores to one: the bytes of g[d], lowest first, and nothing else. R201: the range
0x40 to 0xFF reads 0 for a program. -/
def Obligations.LoadsAndStores : Prop :=
  (∀ (x : Pair) (a : Nat), byteAt x.data a = if 0x40 ≤ a ∧ a < 0x100 then 0 else byteAt x.dmem a)
    ∧ (∀ (s : State) (u : Issue) (d a : Fin 64) (imm : W32) (n : Nat), s.Runs u →
    let x := s.issuer u
    let A := (x.readG a.val + imm.signExtend 64).toNat
    A % n = 0 → A + n ≤ 0x20000 →
    let gives (c : Instr) (v : W64) : Prop := s.PairBecomes c u (fun x y => x.WroteG y (x.pc + 1) d v)
    let byte (k : Nat) : Byte := byteAt x.data (A + k)
    (n = 1 → gives (.ld8 u d a imm) ((byte 0).setWidth 64) ∧ gives (.lds8 u d a imm) ((byte 0).signExtend 64))
      ∧ (n = 2 → gives (.ld16 u d a imm) ((byte 1 ++ byte 0).setWidth 64) ∧ gives (.lds16 u d a imm) ((byte 1 ++ byte 0).signExtend 64))
      ∧ (n = 4 → gives (.ld32 u d a imm) ((byte 3 ++ byte 2 ++ byte 1 ++ byte 0).setWidth 64)
          ∧ gives (.lds32 u d a imm) ((byte 3 ++ byte 2 ++ byte 1 ++ byte 0).signExtend 64))
      ∧ (n = 8 → gives (.ld64 u d a imm) (byte 7 ++ byte 6 ++ byte 5 ++ byte 4 ++ byte 3 ++ byte 2 ++ byte 1 ++ byte 0)))
    ∧ (∀ (s : State) (u : Issue) (d a : Fin 64) (imm : W32) (n : Nat), s.Runs u →
        let x := s.issuer u
        let A := (x.readG a.val + imm.signExtend 64).toNat
        A % n = 0 → A + n ≤ 0x20000 →
        let gives (c : Instr) : Prop := s.PairBecomes c u (fun x y => x.Stored y (x.pc + 1) A n (x.readG d.val).toNat)
        (n = 1 → gives (.st8 u d a imm)) ∧ (n = 2 → gives (.st16 u d a imm)) ∧ (n = 4 → gives (.st32 u d a imm)) ∧ (n = 8 → gives (.st64 u d a imm)))

/-- R204: any instruction whose guard is false retires and does nothing else. Log entry 24: a pair that is not idle or running, or whose
part has ended, issues nothing: the command changes nothing. -/
def Obligations.IssueConditions : Prop :=
  (∀ (c : Instr) (u : Issue) (s : State), c.issueOf = some u → s.canIssue u.sp.val = true →
    xor ((s.pair u.sp.val).readP u.pg.val) u.pn = false → s.PairBecomes c u (fun x y => x.Retires y (x.pc + 1)))
    ∧ (∀ (c : Instr) (u : Issue) (s : State), c.issueOf = some u → s.canIssue u.sp.val = false → exec c s = .next s)

/-- R210: the descriptor instructions. -/
def Obligations.DescriptorResults : Prop :=
  ∀ (s : State) (u : Issue) (dd : Fin 32) (a : Fin 64) (imm : W32), s.Runs u →
    let x := s.issuer u
    let g := x.readG a.val
    let A := (g + imm.signExtend 64).toNat
    let r := x.readD dd.val
    let k := imm.toNat % 16
    let becomes (c : Instr) (v : DReg) : Prop := s.PairBecomes c u (fun x y => x.WroteD y (x.pc + 1) dd v)
    (A % 64 = 0 → A + 64 ≤ 0x20000 →
      (becomes (.dldt u dd a imm) ⟨1, BitVec.ofNat 512 (readLe x.data A 64), 0⟩)
        ∧ becomes (.dlds u dd a imm) ⟨2, BitVec.ofNat 512 (readLe x.data A 64), 0⟩)
      ∧ (A + 64 ≤ 0x20000 → s.PairBecomes (.dst u dd a imm) u (fun x y => x.Stored y (x.pc + 1) A 64 r.v.toNat))
      ∧ (∃ t y v, exec (.dldl u dd a) s = .next t ∧ t.pair u.sp.val = y ∧ x.WroteD y (x.pc + 1) dd ⟨3, v, g.toNat % 64⟩
          ∧ (∀ j, j ≠ u.sp.val → t.pair j = s.pair j) ∧ { t with pairs := s.pairs, freeCtr := s.freeCtr } = s)
      ∧ (∃ v : BitVec 512, becomes (.dsetw u dd a imm) { r with v := v }
          ∧ ∀ j, j < 16 → v.extractLsb' (32 * j) 32 = if j = k then g.setWidth 32 else r.v.extractLsb' (32 * j) 32)
      ∧ s.PairBecomes (.dgetw u dd a imm) u (fun x y => x.WroteG y (x.pc + 1) a ((r.v.extractLsb' (32 * k) 32).setWidth 64))
      ∧ (r.kind = 1 → ∃ v : BitVec 512, becomes (.dadda u dd a) { r with v := v }
          ∧ v.extractLsb' 8 23 = r.v.extractLsb' 8 23 + g.setWidth 23
          ∧ v.extractLsb' 0 8 = r.v.extractLsb' 0 8 ∧ v.extractLsb' 31 481 = r.v.extractLsb' 31 481)
      ∧ (r.kind = 2 → ∃ v : BitVec 512, becomes (.dadda u dd a) { r with v := v }
          ∧ v.extractLsb' 0 64 = r.v.extractLsb' 0 64 + g ∧ v.extractLsb' 64 448 = r.v.extractLsb' 64 448)
      ∧ becomes (.dclr u dd) ⟨0, 0, 0⟩

/-- R231, R232: what raises which exception: the instruction has no effect but what `State.Raised` says, and the operation that the pair
serves stops with the status of its kind. Stated where the operation does not end at once: it has entries queued, or is built in. -/
def Obligations.Exceptions : Prop :=
  ∀ (s : State) (u : Issue) (d a : Fin 64) (imm : W32) (tgt : BitVec 14) (csr : BitVec 12) (dd : Fin 32), s.Runs u →
    let x := s.issuer u
    (∀ opid o, x.op = some opid → s.op opid = some o → opcodeOf o.cmd ≠ 0x0F ∨ s.opQueued opid = true) →
    let A := (x.readG a.val + imm.signExtend 64).toNat
    let raises (c : Instr) (code : Nat) : Prop := ∃ t, exec c s = .next t ∧ s.Raised t u.sp.val code
      ∧ ∀ opid o, x.op = some opid → s.op opid = some o → ∃ o', t.op opid = some o' ∧ o'.ended = 0xFF
        ∧ o'.status.toNat = Nat.max o.status.toNat (if opcodeOf o.cmd = 0x0F then 0x22 else 0xF0)
    let bad (n : Nat) : Prop := A % n ≠ 0 ∨ 0x20000 < A + n
    (bad 1 → raises (.ld8 u d a imm) 0x02 ∧ raises (.lds8 u d a imm) 0x02 ∧ raises (.st8 u d a imm) 0x02)
      ∧ (bad 2 → raises (.ld16 u d a imm) 0x02 ∧ raises (.lds16 u d a imm) 0x02 ∧ raises (.st16 u d a imm) 0x02)
      ∧ (bad 4 → raises (.ld32 u d a imm) 0x02 ∧ raises (.lds32 u d a imm) 0x02 ∧ raises (.st32 u d a imm) 0x02)
      ∧ (bad 8 → raises (.ld64 u d a imm) 0x02 ∧ raises (.st64 u d a imm) 0x02)
      ∧ (bad 64 → raises (.dldt u dd a imm) 0x02 ∧ raises (.dlds u dd a imm) 0x02)
      ∧ (0x20000 < A + 64 → raises (.dst u dd a imm) 0x02)
      ∧ (x.codeLen ≤ tgt.toNat → raises (.b u tgt) 0x03 ∧ raises (.bl u d tgt) 0x03)
      ∧ (x.codeLen ≤ ((x.readG a.val).setWidth 14).toNat → raises (.bi u a) 0x03)
      ∧ ((x.readD dd.val).kind ≠ 1 → (x.readD dd.val).kind ≠ 2 → raises (.dadda u dd a) 0x05)
      ∧ (x.claimed = false → raises (.ifenceSwap u tgt) 0x03)
      ∧ (csr.toNat ∉ [0x000, 0x001, 0x002, 0x010, 0x011, 0x012, 0x013, 0x014, 0x015, 0x016, 0x020, 0x030] → raises (.csrr u d csr) 0x01)
      ∧ raises (.trap u tgt) 0x0E
      ∧ (∀ w : W64, illegalWord w = true → xor (x.readP (bits w 56 4)) (bit w 55) = true → raises (.illegalInstruction u.sp w) 0x01)

/-- R222, R223, R342: SPOLL, SRAISE of a signal that nobody waits for, SWAIT of a signal that stands raised and of one that does not, and
the time-out of a wait; a signal is judged by the set that the operation was admitted with (R322). That SWAIT retires at its issue is the model's reading (log entry 50). -/
def Obligations.SignalInstructions : Prop :=
  ∀ (s : State) (u : Issue) (pd : Fin 16) (a b d : Fin 64), s.Runs u →
    let x := s.issuer u
    let n := (x.readG a.val).toNat
    n < 65536 →
    ((s.setOf x).mayWait x.part n = true → s.PairBecomes (.spoll u pd a) u (fun x y => x.WroteP y (x.pc + 1) pd (s.isRaised n)))
      ∧ ((s.setOf x).owns x.part n = true → (∀ w ∈ s.sig.waiters, w.1 ≠ n) →
          ∃ t, exec (.sraise u a) s = .next t ∧ x.Retires (t.pair u.sp.val) (x.pc + 1) ∧ (∀ k, k ≠ u.sp.val → t.pair k = s.pair k)
            ∧ (∀ m, t.isRaised m = if m = n then true else s.isRaised m) ∧ t.sig.waiters = s.sig.waiters
            ∧ { t with pairs := s.pairs, sig := s.sig } = s)
      ∧ ((s.setOf x).mayWait x.part n = true → s.isRaised n = true →
          ∃ t, exec (.swait u pd a b d) s = .next t ∧ x.Counted (t.pair u.sp.val) (x.pc + 1)
            ∧ (∀ k : Fin 64, (t.pair u.sp.val).readG k.val = if k = d then 0 else x.readG k.val)
            ∧ (∀ k : Fin 16, (t.pair u.sp.val).readP k.val = if k = pd then true else x.readP k.val)
            ∧ { t.pair u.sp.val with g := x.g, p := x.p, pc := x.pc, retired := x.retired, instret := x.instret } = x
            ∧ (∀ k, k ≠ u.sp.val → t.pair k = s.pair k) ∧ (∀ m, t.isRaised m = if m = n then false else s.isRaised m)
            ∧ t.sig.waiters = s.sig.waiters ∧ { t with pairs := s.pairs, sig := s.sig } = s)
      ∧ ((s.setOf x).mayWait x.part n = true → s.isRaised n = false →
          ∃ t, exec (.swait u pd a b d) s = .next t ∧ x.Counted (t.pair u.sp.val) (x.pc + 1) ∧ (t.pair u.sp.val).st = .waitSig
            ∧ (t.pair u.sp.val).swait = some ⟨n, d, pd, x.readG b.val, s.clk.tick, false⟩
            ∧ { t.pair u.sp.val with st := x.st, swait := x.swait, lent := x.lent, pc := x.pc, retired := x.retired, instret := x.instret } = x
            ∧ (∀ k, k ≠ u.sp.val → t.pair k = s.pair k) ∧ t.sig.raised = s.sig.raised
            ∧ t.sig.waiters = s.sig.waiters ++ [(n, .pair u.sp.val)] ∧ { t with pairs := s.pairs, sig := s.sig } = s)

/-- R223, R342: what ends a wait: the raise of the signal (outcome 0, predicate 1) and the time-out (outcome 1, predicate 0), for a pair
whose shares are not lent; the signal of a wait that timed out is left as it was. -/
def Obligations.WaitsEnd : Prop :=
  ∀ (s : State) (sp : Fin 8) (w : SwaitSt), s.fast = true →
    let x := s.pair sp.val
    x.swait = some w → w.lent = false → x.st = .waitSig →
    let ended (t : State) (g : W64) (p : Bool) : Prop := (∀ k : Fin 64, (t.pair sp.val).readG k.val = if k = 0 then 0 else if k = w.d then g else x.readG k.val)
      ∧ (∀ k : Fin 16, (t.pair sp.val).readP k.val = if k = 0 then true else if k = w.pd then p else x.readP k.val)
      ∧ { t.pair sp.val with g := x.g, p := x.p, swait := some w, st := .waitSig } = x ∧ (t.pair sp.val).swait = none
      ∧ (t.pair sp.val).st = (if x.op.isNone then .idle else .running) ∧ (∀ k, k ≠ sp.val → t.pair k = s.pair k)
    (w.timeout ≠ 0 → ∃ t, exec (.signalTimeout sp) s = .next t ∧ ended t 1 false ∧ t.sig.raised = s.sig.raised
        ∧ t.sig.waiters = s.sig.waiters.filter (fun y => y.2 ≠ .pair sp.val) ∧ { t with pairs := s.pairs, sig := s.sig } = s)
      ∧ ∀ (u : Issue) (a : Fin 64), s.Runs u → ((s.issuer u).readG a.val).toNat < 65536 → w.sig = ((s.issuer u).readG a.val).toNat →
          (s.setOf (s.issuer u)).owns (s.issuer u).part w.sig = true → s.sig.waiters = [(w.sig, .pair sp.val)] → u.sp ≠ sp →
          ∃ t, exec (.sraise u a) s = .next t ∧ (t.pair sp.val).swait = none ∧ (t.pair sp.val).st = (if x.op.isNone then .idle else .running)
            ∧ (∀ k : Fin 64, (t.pair sp.val).readG k.val = if k = 0 then 0 else if k = w.d then 0 else x.readG k.val)
            ∧ (∀ k : Fin 16, (t.pair sp.val).readP k.val = if k = 0 then true else if k = w.pd then true else x.readP k.val)
            ∧ t.sig.waiters = [] ∧ t.sig.raised = s.sig.raised

/-- R222, R226 to R228, R230: TFENCE, TMOVD and TMOVM, the end of a TMOV, IFENCE.SWAP. Which exception a bad TMOV raises is the model's
reading (log entry 51). -/
def Obligations.ProgramMemory : Prop :=
  (∀ (s : State) (u : Issue) (cmask : BitVec 4), s.Runs u →
      let busy := ∃ k : Fin 4, cmask.getLsbD k.val = true ∧ ∃ e ∈ (s.cluster (4 * u.sp.val + k.val)).queue, e.sp = u.sp.val
      (¬ busy → s.PairBecomes (.tfence u cmask) u (fun x y => x.Retires y (x.pc + 1))) ∧ (busy → exec (.tfence u cmask) s = .next s))
    ∧ (∀ (s : State) (u : Issue) (d a b : Fin 64), s.Runs u →
      let x := s.issuer u
      let dst := x.readG d.val
      let bank := dst.getLsbD 14
      let idx := dst.toNat % 16384
      let src := (x.readG a.val).toNat
      let n := (x.readG b.val).toNat
      bank ≠ x.bank → n ≠ 0 → n % 8 = 0 → idx + n / 8 ≤ 16384 →
      let starts (y : Pair) (bs : List Byte) : Prop := x.Counted y (x.pc + 1)
        ∧ (∃ ws, y.tmovs = x.tmovs ++ [⟨bank, idx, ws⟩] ∧ ws.length = n / 8
            ∧ ∀ k, k < n / 8 → ws[k]? = some (BitVec.ofNat 64 (leNat ((bs.drop (8 * k)).take 8))))
        ∧ y.claimed = true ∧ (x.claimed = false → y.tag0 = (if bank then x.tag0 else 0) ∧ y.tag1 = (if bank then 0 else x.tag1))
        ∧ (x.claimed = true → y.tag0 = x.tag0 ∧ y.tag1 = x.tag1)
        ∧ { y with tmovs := x.tmovs, claimed := x.claimed, tag0 := x.tag0, tag1 := x.tag1, pc := x.pc, retired := x.retired, instret := x.instret } = x
      (src % 8 = 0 → src + n ≤ 0x20000 → s.PairBecomes (.tmovd u d a b) u (fun x y => starts y (readBytes x.data src n)))
        ∧ (src % 64 = 0 → (s.judgeOpd ⟨x.part, .other, false, src, n⟩).1 = .ok →
            ∃ t, exec (.tmovm u d a b) s = .next t ∧ starts (t.pair u.sp.val) (s.vaRead x.part src n)
              ∧ (∀ k, k ≠ u.sp.val → t.pair k = s.pair k) ∧ { t with pairs := s.pairs, tr := s.tr } = s))
    ∧ (∀ (s : State) (sp : Fin 8) (m : TmovSt) (ms : List TmovSt), s.fast = true → (s.pair sp.val).tmovs = m :: ms →
      let x := s.pair sp.val
      let put (old : Tab W64) (i : Nat) : W64 := if m.idx ≤ i ∧ i < m.idx + m.words.length then m.words.getD (i - m.idx) 0 else Tab.get 0 old i
      ∃ t y, exec (.tmovDone sp) s = .next t ∧ s.PairOnly t sp.val y ∧ y.tmovs = ms
        ∧ (∀ i, Tab.get 0 y.ib0 i = if m.bank then Tab.get 0 x.ib0 i else put x.ib0 i)
        ∧ (∀ i, Tab.get 0 y.ib1 i = if m.bank then put x.ib1 i else Tab.get 0 x.ib1 i)
        ∧ { y with tmovs := x.tmovs, ib0 := x.ib0, ib1 := x.ib1, tmovBank0 := x.tmovBank0, tmovBank1 := x.tmovBank1 } = x)
    ∧ (∀ (s : State) (u : Issue) (tgt : BitVec 14), s.Runs u → (s.issuer u).claimed = true →
      ((s.issuer u).tmovs = [] → s.PairBecomes (.ifenceSwap u tgt) u (fun x y => x.Counted y tgt ∧ y.bank = !x.bank ∧ y.claimed = false
          ∧ y.codeLen = 16384
          ∧ { y with bank := x.bank, claimed := x.claimed, codeLen := x.codeLen, pc := x.pc, retired := x.retired, instret := x.instret } = x))
        ∧ ((s.issuer u).tmovs ≠ [] → exec (.ifenceSwap u tgt) s = .next s))

/-- R240, R241: the CSRs, and END of a program that other pairs, or entries in a queue, keep running. -/
def Obligations.CsrsAndEnd : Prop :=
  ∀ (s : State) (u : Issue) (d a : Fin 64), s.Runs u →
    let x := s.issuer u
    let csr (k : BitVec 12) (v : Nat) : Prop := s.PairBecomes (.csrr u d k) u (fun x y => x.WroteG y (x.pc + 1) d (BitVec.ofNat 64 v))
    csr 0x000 s.clk.fc.toNat ∧ csr 0x001 s.clk.tick.toNat ∧ csr 0x002 x.instret.toNat ∧ csr 0x010 u.sp.val
      ∧ csr 0x012 ((x.op.map BitVec.toNat).getD 0) ∧ csr 0x013 x.part ∧ csr 0x030 (if x.bank then 1 else 0)
      ∧ (∀ opid o, x.op = some opid → s.op opid = some o →
          let pairs := (List.range 8).filter (fun k => (o.clusters.toNat / 2 ^ (4 * k)) % 16 ≠ 0)
          csr 0x011 ((o.clusters &&& s.boot.svc).toNat / 2 ^ (4 * u.sp.val) % 16) ∧ csr 0x014 (if o.training then 1 else 0)
            ∧ csr 0x015 (pairs.filter (· < u.sp.val)).length ∧ csr 0x016 pairs.length ∧ csr 0x020 (o.deadline - s.clk.tick.toNat)
            ∧ ((∃ k ∈ pairs, k ≠ u.sp.val ∧ o.ended.getLsbD k = false) ∨ s.opQueued opid = true →
                ∃ t o', exec (.endProg u a) s = .next t ∧ x.Retires (t.pair u.sp.val) (x.pc + 1) ∧ t.op opid = some o'
                  ∧ (∀ k : Fin 8, o'.ended.getLsbD k.val = if k = u.sp then true else o.ended.getLsbD k.val)
                  ∧ ((x.readG a.val).toNat % 256 = 0 → { o' with ended := o.ended } = o)
                  ∧ ((x.readG a.val).toNat % 256 ≠ 0 → o'.status.toNat = Nat.max o.status.toNat 0x22
                      ∧ (o.status.toNat < 0x22 → (o'.result.toNat / 2 ^ 32) % 65536 = (x.readG a.val).toNat % 65536))
                  ∧ { t with pairs := s.pairs, hw := s.hw } = s))

/-- R212, R214, R216 to R219: a tensor instruction whose checks pass joins the queue of every cluster of `CMASK`, with its operands as they
stand, and of no other; it changes nothing else. A stream entry keeps the translations of its own addresses. HSET, HCLR and RCLR are such
instructions too: what they write is `HandleWrites`. -/
def Obligations.TensorIssue : Prop :=
  ∀ (s : State) (u : Issue) (cmask : BitVec 4), s.Runs u → s.TensorReady u cmask →
    let x := s.issuer u
    let ns := maskClusters u.sp.val cmask
    let joins (c : Instr) (eng : Engine) (work : QWork) (vruns : Nat) (xl : List TlbEnt) : Prop :=
      ∃ t, exec c s = .next t ∧ s.Joined t u cmask eng work vruns xl
    (∀ (f : MxF) (ew : Bool) (lt : Option Nat), f.cmask = cmask → x.loopRef f.lt = some lt →
        let ds := x.readD f.ds.val
        let db := x.readD f.db.val
        let dO := x.readD f.dout.val
        mxBad s.part ew f ds db dO lt = none → s.loopBadIn ns lt = false →
        (∀ n ∈ ns, mxHandleBad (s.cluster n).seen ew f (TDesc.ofBits ds.v) (TDesc.ofBits db.v) lt.isSome = false) →
        joins (if ew then .mxew u f else .mxrun u f) .array
          (.mx ew ds.v db.v dO.v lt f.gang.toNat f.pm.toNat f.acc.toNat f.rlb f.rls) 0 [])
      ∧ (∀ (f : VxF) (lt : Option Nat), f.cmask = cmask → x.loopRef f.lt = some lt → 8 * f.chain.toNat + 40 ≤ 0x20000 →
        let chain := BitVec.ofNat 320 (readLe x.data (8 * f.chain.toNat) 40)
        let ia := x.readD f.ia.val
        let io := x.readD f.io.val
        let ib := x.readD f.ib.val
        let ic := x.readD f.ic.val
        let vb := if f.ben then some ib.v else none
        let vc := if f.cen then some ic.v else none
        let g := (List.range 64).map x.readG
        vxBad s.part f chain ia io ib ic = none → s.loopBadIn ns lt = false →
        (∀ n ∈ ns, vxHandleBad (s.cluster n).seen f.rla lt.isSome (VxOpds.of chain ia.v io.v vb vc g 0) = false) →
        ∃ tile, joins (.vrun u f) .vector (.vx chain ia.v io.v vb vc lt f.rla g tile) 1 [])
      ∧ (∀ dd : Fin 32, (x.readD dd.val).kind = 2 → s.sxBad (s.setOf x) x.part (x.readD dd.val).v = none →
        let d := SDesc.ofBits (x.readD dd.val).v
        (∀ n ∈ ns, (s.cluster n).seen.listOk d = true) → (d.gather = true ∨ (s.judgeStream ns x.part d).1 = .ok) →
        joins (.sxq u dd cmask) .stream (.sx (x.readD dd.val).v) 0 (s.streamXl (s.cluster (ns.headD 0)) x.part d))
      ∧ (∀ (dd : Fin 32) (a : Fin 64), (x.readD dd.val).kind = 3 → (x.readG a.val).toNat % 128 = 0 → (x.readG a.val).toNat + 128 ≤ 0x20000 →
        joins (.ltw u dd a cmask) .control (.ltw (x.readD dd.val).tab (BitVec.ofNat 1024 (readLe x.data (x.readG a.val).toNat 128))) 0 [])
      ∧ (∀ (h : Byte) (a : Fin 64), (hKind (x.readG a.val) ≠ 2 ∨ s.part.optP = true) →
        (∀ n ∈ ns, handleBad (s.cluster n) h.toNat (handleWord (x.readG a.val) ||| (x.readG a.val &&& 15)) = false) →
        joins (.hset u h a cmask) .control (.hset h.toNat (handleWord (x.readG a.val))) 0 [])
      ∧ (∀ h : Byte, (∀ n ∈ ns, (s.cluster n).names h.toNat = false) → joins (.hclr u h cmask) .control (.hclr h.toNat) 0 [])
      ∧ (∀ h : Byte, (∀ n ∈ ns, (s.cluster n).names h.toNat = false ∧ hRing ((s.cluster n).handle h.toNat) = true) →
        joins (.rclr u h cmask) .control (.rclr h.toNat) 0 [])

/-- R218: the handle writes that `TensorIssue` queued, when the cluster's control starts them (R220): HSET, HCLR and RCLR act on handle `h` of
their cluster and on no other handle; counters of a handle written are 0. A ring that finds no free scoreboard entry waits (log entry 121). -/
def Obligations.HandleWrites : Prop :=
  ∀ (s : State) (n : Fin 32) (q : QEnt), (s.cluster n.val).starting .control = some q → s.mayWork n.val q.opid = true →
    let c := s.cluster n.val
    let writes (h : Nat) (bit : Nat → Bool) : Prop := ∃ t, exec (.entryStart n .control) s = .next t
      ∧ (∀ i, i < 64 → ((t.cluster n.val).handle h).getLsbD i = bit i)
      ∧ (∀ k, k ≠ h → (t.cluster n.val).handle k = c.handle k)
      ∧ (∃ sb, let qs := c.queue.map (fun x => if x.tag = q.tag then { x with st := .doneWork } else x)
          t.cluster n.val = { c with handles := (t.cluster n.val).handles, sb := sb, queue := qs })
      ∧ (∀ k, k ≠ n.val → t.cluster k = s.cluster k) ∧ { t with clusters := s.clusters, peer := s.peer, freeCtr := s.freeCtr } = s
    let counter (i : Nat) : Bool := decide (4 ≤ i ∧ i < 22)
    let full (h : Nat) : Prop := 64 ≤ (c.sb.filter (fun x => x.tag != ringTag h)).length
    (∀ (h : Nat) (w : W64), q.work = .hset h w →
        ((hRing w = false ∨ ¬ full h) → writes h (fun i => w.getLsbD i))
          ∧ (hRing w = true → full h → exec (.entryStart n .control) s = .next s))
      ∧ (∀ h : Nat, q.work = .hclr h → writes h (fun i => decide (i ≠ 63) && (c.handle h).getLsbD i))
      ∧ (∀ h : Nat, q.work = .rclr h → writes h (fun i => !counter i && (c.handle h).getLsbD i))


/-! The host command port and its registers -/

/-- R18, R339, R388, R445, R446: a write of a read-write register: every field takes its bits of `v`, reserved bits read 0, and nothing else
changes. R18: a 1 clears a W1C bit and a 0 leaves it; the register's other bits and the rest of the block stay. RAS_PSTOP (R411) is one of
them. -/
def Obligations.RegisterWrites : Prop :=
  (∀ (s : State) (v : W64) (p : Fin 16), s.HostOpen →
    let writes (off : Nat) (m : W64) (rest : State → Prop) : Prop :=
      ∃ t, exec (.regWrite (BitVec.ofNat 24 off) v) s = .next t ∧ t.readReg off = v &&& m ∧ rest t
    let window := 0x100000 + 0x40000 * p.val
    writes 0x300 0x800FFFFFFFFFFFF8 (fun t => t = { s with glob := { s.glob with irqAddr := t.glob.irqAddr } })
      ∧ writes 0x308 (BitVec.allOnes 64) (fun t => t = { s with glob := { s.glob with irqVec0 := v } })
      ∧ writes 0x310 0xFFFF (fun t => t = { s with glob := { s.glob with irqVec1 := t.glob.irqVec1 } })
      ∧ writes 0x10008 0x0000FFFFFFFFFFFF (fun t => t = { s with clk := { s.clk with clIdle := t.clk.clIdle, pllIdle := t.clk.pllIdle } })
      ∧ writes 0x20108 0xFFFFFFFF (fun t => t = { s with ras := { s.ras with tlogSel := t.ras.tlogSel } })
      ∧ writes 0x20200 1 (fun t => t = { s with recorder := { s.recorder with cal := t.recorder.cal } })
      ∧ writes 0x20208 (BitVec.allOnes 64) (fun t => t = { s with recorder := { s.recorder with utc := v, utcSet := true } })
      ∧ writes 0x30008 0xFFFFFFFF (fun t => t = { s with trc := { s.trc with parts := t.trc.parts, types := t.trc.types } })
      ∧ writes 0x30018 0x800FFFFFFFFFF01F (fun t => t = { s with trc := { s.trc with stream := t.trc.stream } })
      ∧ writes 0x30038 0x7FFF (fun t => t = { s with trc := { s.trc with sel := t.trc.sel } })
      ∧ writes 0x40018 0x800FFFFFFFFFFFFF (fun t => t = { s with tr := { s.tr with acc := t.tr.acc } })
      ∧ writes 0xA0000 0x3FFF (fun t => t = { s with hw := { s.hw with ringSel := t.hw.ringSel } })
      ∧ writes 0xB0000 0x3FFFF (fun t => t = { s with hw := { s.hw with seqSel := t.hw.seqSel } })
      ∧ writes (window + 0x308) 0x800FFFFFFFFFF800 (fun t => { t with pt := s.pt } = s ∧ (∀ q, q ≠ p.val → t.ptReg q = s.ptReg q)
          ∧ { t.ptReg p.val with rring := (s.ptReg p.val).rring } = s.ptReg p.val)
      ∧ writes (window + 0x400) 0x80000000FFFFFFFF (fun t => { t with pools := s.pools } = s ∧ (∀ q, q ≠ p.val → t.pool q = s.pool q)
          ∧ { t.pool p.val with scrubEn := (s.pool p.val).scrubEn, scrubPeriod := (s.pool p.val).scrubPeriod } = s.pool p.val))
    ∧ (∀ (s : State) (v : W64), s.HostOpen →
        let clears (c : Instr) (off : Nat) (m : W64) (rest : State → Prop) : Prop :=
          ∃ t, exec c s = .next t ∧ t.readReg off = s.readReg off &&& ~~~(v &&& m) ∧ rest t
        clears (.regWrite 0x318 v) 0x318 (BitVec.allOnes 64) (fun t => t = { s with glob := { s.glob with irqPend := t.glob.irqPend } })
          ∧ clears (.regWrite 0x120 v) 0x120 0xFFFF00FF (fun t => t = { s with cfg := { s.cfg with lockViolP := t.cfg.lockViolP, lockViol := t.cfg.lockViol } })
          ∧ clears (.regWrite 0x20008 v) 0x20008 0xFFFF (fun t => t = { s with ras := { s.ras with pstop := t.ras.pstop } })
          ∧ clears (.rasPstop v) 0x20008 0xFFFF (fun t => t = { s with ras := { s.ras with pstop := t.ras.pstop } })
          ∧ clears (.regWrite 0x40010 v) 0x40010 0x10 (fun t => t = { s with tr := { s.tr with invOvf := t.tr.invOvf } })
          ∧ clears (.regWrite 0xC0018 v) 0xC0018 0x8000000000000000 (fun t => t = { s with weir := { s.weir with floorOver := t.weir.floorOver } }))

/-- R9, R19: a write of a read-only register, of a reserved offset or of an address that is not 8-byte aligned changes nothing; reserved
offsets read 0. R350, R352, R381, R422: what the host port does with a write while the block is in reset, in the fatal state, or with its
PLLs stopped: an error response; ignored outside the power range; buffered, and a wake begins. -/
def Obligations.HostWritesIgnored : Prop :=
  (∀ (s : State) (off : BitVec 24) (v : W64), s.HostOpen →
    let readOnly : List Nat := [0x0, 0x8, 0x10, 0x18, 0x108, 0x908, 0xA00, 0x10000, 0x10028, 0x20000, 0x20010, 0x20018, 0x20100, 0x20210, 0x20218,
      0x30010, 0x30028, 0x40028, 0xA0020, 0xC0010]
    ((readOnly.contains off.toNat = true ∨ (0x800 ≤ off.toNat ∧ off.toNat < 0x880) ∨ (0x20110 ≤ off.toNat ∧ off.toNat < 0x20130)
        ∨ (0x30040 ≤ off.toNat ∧ off.toNat < 0x30060) ∨ (0xB0100 ≤ off.toNat ∧ off.toNat < 0xB0200) ∨ (0x500000 ≤ off.toNat ∧ off.toNat < 0x900000)
        ∨ 0x980000 ≤ off.toNat ∨ off.toNat % 8 ≠ 0) → exec (.regWrite off v) s = .next s)
      ∧ ((0x980000 ≤ off.toNat ∨ off.toNat % 8 ≠ 0) → s.readReg off.toNat = 0))
    ∧ (∀ (s : State) (off : BitVec 24) (v : W64),
        let power := 0x10000 ≤ off.toNat ∧ off.toNat < 0x20000
        (s.boot.inReset = true → exec (.regWrite off v) s = .next { s with out := { s.out with hcErr := s.out.hcErr + 1 } }
            ∧ s.hostRead off.toNat = (0, true))
          ∧ (s.boot.inReset = false → s.boot.fatal = true → ¬ power → exec (.regWrite off v) s = .next s
              ∧ (¬ (0x20000 ≤ off.toNat ∧ off.toNat < 0x30000) → s.hostRead off.toNat = (0, false)))
          ∧ (s.boot.inReset = false → s.boot.fatal = false → s.clk.awake = false → ¬ power → s.clk.wbuf.length < 64 →
              ∃ t, exec (.regWrite off v) s = .next t ∧ t.clk.wbuf = s.clk.wbuf ++ [(off, v)] ∧ (2 ≤ s.boot.stage → t.clk.waking = true)
                ∧ t = { s with clk := { s.clk with wbuf := t.clk.wbuf, waking := t.clk.waking } }))

/-- R315: the first write of a write-once register sets its fields; every later one, even of the same value, leaves the register as it is,
sets the unit's bit of `LOCK_VIOL` and logs offset and value. R316: `AX_PART_LOCK`: each 1 sets its bit; where a bit was already set the
write is a locked write too. -/
def Obligations.LockedRegisters : Prop :=
  (∀ (s : State) (v : W64), s.HostOpen →
    let once (off unit : Nat) (m : W64) (written : Bool) : Prop := ∃ t, exec (.regWrite (BitVec.ofNat 24 off) v) s = .next t
      ∧ (written = false → bit (t.readReg off) 63 = true ∧ (t.readReg off) &&& m = v &&& m ∧ t.cfg = s.cfg ∧ t.ras = s.ras)
      ∧ (written = true → t.readReg off = s.readReg off ∧ t.cfg = { s.cfg with lockViol := s.cfg.lockViol ||| (1 <<< unit) }
          ∧ (∃ e, t.Logged s.ras.total e ∧ e.kind = 1 ∧ e.host = true ∧ e.part = none ∧ e.arg0 = BitVec.ofNat 32 off ∧ e.arg1 = v))
      ∧ t.hw = { s.hw with oxbow := t.hw.oxbow, backlogBase := t.hw.backlogBase } ∧ t.tr = { s.tr with groot := t.tr.groot }
      ∧ t.clusters = s.clusters ∧ t.pairs = s.pairs ∧ (s.recorder.queue.length < 64 → t.mem = s.mem)
    once 0x40000 4 0x000FFFFFFFFFF01F s.tr.groot.isSome ∧ once 0xC0000 5 0x000FFFFFFC000000 s.hw.oxbow.isSome
      ∧ once 0xC0008 5 0x000FFFFFFFF00000 s.hw.backlogBase.isSome)
    ∧ (∀ (s : State) (v : W64), s.HostOpen → ∃ t, exec (.axPartLock v) s = .next t
        ∧ t.cfg = { s.cfg with partLock := s.cfg.partLock ||| v.setWidth 16, lockViol := t.cfg.lockViol }
        ∧ (s.cfg.partLock &&& v.setWidth 16 = 0 → { t with cfg := s.cfg } = s ∧ t.cfg.lockViol = s.cfg.lockViol)
        ∧ (s.cfg.partLock &&& v.setWidth 16 ≠ 0 → t.cfg.lockViol = s.cfg.lockViol ||| 1
            ∧ t.hw = s.hw ∧ t.clusters = s.clusters ∧ t.pairs = s.pairs
            ∧ ∃ e, t.Logged s.ras.total e ∧ e.kind = 1 ∧ e.host = true ∧ e.arg0 = 0x118 ∧ e.arg1 = v))

/-- R317, R318: a host write of a configuration register goes to the shadow set, every field at its place; the active set, the other
registers and the rest of the block stay. While `BUSY` is 1 it is lost and sets `SHADOW_LOST`. -/
def Obligations.ConfigurationWrites : Prop :=
  ∀ (s : State) (v : W64) (p : Fin 16) (n : Fin 32) (k : Fin 16), s.HostOpen →
    let window := 0x100000 + 0x40000 * p.val
    let registers : List (Nat × W64) := [(0x200, BitVec.allOnes 64), (0x210, 0xFFFFFFFF), (0x1000 + 8 * n.val, 0x800FFFFFFFFFFFFF),
      (window, 0xFEFFFFFFFFF00000), (window + 8, 0x0000FFFF0000FFFF), (window + 0x10, 0x800FFFFFFFFFF01F), (window + 0x18, 0x0003FFFFFFFFFFFF),
      (window + 0x20, 0x000FFFFFFFFFFFFF), (window + 0x28, 0x000FFFFFFFFFFFFF), (window + 0x80 + 8 * k.val, BitVec.allOnes 64)]
    ∀ r ∈ registers,
      (s.cfg.busy = false → ∃ t, exec (.configWrite (BitVec.ofNat 24 r.1) v) s = .next t ∧ t.cfg.shadow.read r.1 = v &&& r.2
          ∧ (∀ off, off ≠ r.1 → t.cfg.shadow.read off = s.cfg.shadow.read off)
          ∧ { t with cfg := { t.cfg with shadow := s.cfg.shadow } } = s
          ∧ (s.cfg.view = true → t.readReg r.1 = v &&& r.2) ∧ (s.cfg.view = false → t.readReg r.1 = s.readReg r.1))
        ∧ (s.cfg.busy = true → exec (.configWrite (BitVec.ofNat 24 r.1) v) s = .next { s with cfg := { s.cfg with shadowLost := true } })


/-- R284: `HW_RING_CTL`: a ring out of service enters service with the other fields of the write and its indices at `START`; a 0 stops it,
at once where every fetched command has completed; the fields of a ring in service stay. No other ring changes. R285: a doorbell is accepted
where TAIL − `FETCHED` is below 2^31 and TAIL − `DONE` at most N; otherwise, and at a disabled ring, it is ignored, flagged and logged. A
write at 0x08_0000 + 8r is ring r's doorbell. -/
def Obligations.RingsAndDoorbells : Prop :=
  (∀ (s : State) (v : W64), s.HostOpen →
    let n := s.hw.ringSel.toNat
    let r := s.ring n
    let fields (x : Ring) : Prop := x.mgmt = v.getLsbD 62 ∧ x.irqEn = v.getLsbD 61 ∧ x.part = v.extractLsb' 52 4 ∧ x.log2n = v.extractLsb' 40 5
      ∧ x.irqVec = v.setWidth 16
    let kept (x : Ring) : Prop := x.base = r.base ∧ x.cbase = r.cbase ∧ x.start = r.start ∧ x.badBell = r.badBell ∧ x.offBell = r.offBell
    let only (t : State) : Prop := (∀ k, k ≠ n → t.ring k = s.ring k) ∧ t.clusters = s.clusters ∧ t.pairs = s.pairs ∧ t.cfg = s.cfg
    (v.getLsbD 63 = true → r.enable = false → ∃ t, exec (.ringEnable v) s = .next t ∧ fields (t.ring n) ∧ kept (t.ring n)
          ∧ (t.ring n).enable = true ∧ (t.ring n).draining = false ∧ (t.ring n).fetched = r.start ∧ (t.ring n).done = r.start ∧ (t.ring n).tail = r.start
          ∧ only t)
      ∧ (v.getLsbD 63 = false → ∃ t, exec (.ringDisable v) s = .next t ∧ kept (t.ring n) ∧ only t
          ∧ (r.enable = false → fields (t.ring n) ∧ (t.ring n).enable = false)
          ∧ (r.enable = true → (t.ring n).enable = (r.done != r.fetched) ∧ (t.ring n).draining = (r.done != r.fetched)
              ∧ (t.ring n).fetched = r.fetched ∧ (t.ring n).done = r.done ∧ (t.ring n).part = r.part ∧ (t.ring n).log2n = r.log2n)
          ∧ { t with hw := { t.hw with rings := s.hw.rings } } = s))
    ∧ (∀ (s : State) (n : BitVec 14) (v : W64), s.HostOpen →
        let r := s.ring n.toNat
        let tail : W32 := v.setWidth 32
        let good := (tail - r.fetched).toNat < 2 ^ 31 ∧ (tail - r.done).toNat ≤ 2 ^ r.log2n.toNat
        let ends (x : Ring) (note : Option W32) : Prop := ∀ c ∈ [Instr.doorbell n v, .regWrite (BitVec.ofNat 24 (0x80000 + 8 * n.toNat)) v],
          ∃ t, exec c s = .next t ∧ t.ring n.toNat = x ∧ (∀ k, k ≠ n.toNat → t.ring k = s.ring k)
          ∧ (∀ a, note = some a → t.Logged s.ras.total ⟨s.clk.tick, 0x02, some r.part.toNat, true, 0, 0x80, 0, a, v⟩)
          ∧ { t with hw := { t.hw with rings := s.hw.rings }, ras := s.ras } = s ∧ (note = none → t.ras = s.ras)
        (r.enable = true → good → ends { r with tail := tail } none)
          ∧ (r.enable = true → ¬ good → ends { r with badBell := true } (some (BitVec.ofNat 32 n.toNat)))
          ∧ (r.enable = false → ends { r with offBell := true } (some (BitVec.ofNat 32 (n.toNat + 2 ^ 31)))))

/-- R286: Headwater fetches one command in its turn: the ring's `FETCHED` rises by one and no other ring's changes; the next turn belongs to
the partition after it. With no ring to fetch from nothing happens. R299: the head of a partition's backlog, once a context slot can be had
for it and room in staging, is staged again, and the entries after it move up; it passes the checks of the front end anew, keeps its place
as the oldest, and stands ready where nothing bars it. The direction of the turns, and the moment of a retry, are the model's choices
(log entries 20, 35). -/
def Obligations.FetchAndBacklog : Prop :=
  (∀ (s : State), s.serving = true →
    ((∀ e ∈ s.hw.rings, s.fetchable e.2 = false) → exec .commandFetch s = .next s)
      ∧ (∀ (n : Nat) (r : Ring), s.hw.rings = [(n, r)] → s.fetchable r = true → s.judgeStruct r.space false (r.base.toNat + 64 * (r.fetched.toNat % r.n)) 64 = .ok →
          ∃ t, exec .commandFetch s = .next t ∧ (t.ring n).fetched = r.fetched + 1 ∧ (∀ k, k ≠ n → (t.ring k).fetched = (s.ring k).fetched)
            ∧ t.hw.turnPart = (r.part.toNat + 1) % 16))
    ∧ (∀ (s : State) (p : Fin 16), s.serving = true →
        (s.backlog p.val = [] → exec (.backlogRetry p) s = .next s)
          ∧ (∀ (e : Blog) (rest : List Blog) (x : Staged), s.backlog p.val = e :: rest →
              s.hw.staged.find? (fun y => y.part = p.val && y.st = .backlog && y.cmd.ring = e.ring && y.cmd.idx = e.idx) = some x →
              (∀ y ∈ s.hw.staged, y.st ≠ .ready ∧ y.retried = none) → s.stagedCount p.val < 256 → s.residency p.val x.cmd = (true, s) →
              ∃ t, exec (.backlogRetry p) s = .next (t.frontEnd p.val x.cmd) ∧ t.backlog p.val = rest ∧ (∀ q, q ≠ p.val → t.backlog q = s.backlog q)
                ∧ t.hw.staged = s.hw.staged.map (fun y => if y.cmd = x.cmd then { y with st := .ready, retried := some e.tick } else y)
                ∧ t.hw.rings = s.hw.rings ∧ t.hw.ops = s.hw.ops ∧ t.clusters = s.clusters ∧ t.pairs = s.pairs
                ∧ (t.earlyCheck p.val x.cmd = none → t.translate p.val x.cmd = (.ok, t) → t.seqCheck p.val x.cmd = none →
                    t.residency p.val x.cmd = (true, t) → exec (.backlogRetry p) s = .next t)))

/-- R346: `PT_SIG` selects, raises or clears a signal of the partition's own range and then shows its state; with a signal of another, or
with `OP` 3, the write is ignored and logged. A signal raised while nothing waits stays raised. `PT_SIG` reads 0 at reset. -/
def Obligations.SignalRegister : Prop :=
  ∀ (s : State) (p : Fin 16) (v : W64), s.HostOpen →
    let n := v.toNat % 65536
    let off := 0x100000 + 0x40000 * p.val + 0x200
    let act (c : Instr) (now : Bool) : Prop := ∃ t, exec c s = .next t ∧ t.isRaised n = now
      ∧ t.readReg off = BitVec.ofNat 64 (v.toNat % 2 ^ 18 + (if now then 2 ^ 63 else 0) + (if s.sig.waiters.any (fun w => w.1 == n) then 2 ^ 62 else 0))
      ∧ (∀ k, k ≠ n → t.isRaised k = s.isRaised k) ∧ { t with sig := s.sig } = s ∧ t.sig.waiters = s.sig.waiters
    let ignored (c : Instr) : Prop := ∃ t, exec c s = .next t ∧ s.Notes t ⟨s.clk.tick, 0x0F, some p.val, true, 0, 0xFF, 0, BitVec.ofNat 32 off, v⟩
    State.reset.readReg off = 0
      ∧ (v.extractLsb' 16 2 = 0 → (s.cfg.active.owns p.val n = true → act (.ptSigSelect p v) (s.isRaised n)) ∧ (s.cfg.active.owns p.val n = false → ignored (.ptSigSelect p v)))
      ∧ (v.extractLsb' 16 2 = 1 → (s.cfg.active.owns p.val n = true → (∀ w ∈ s.sig.waiters, w.1 ≠ n) → act (.ptSigRaise p v) true)
          ∧ (s.cfg.active.owns p.val n = false → ignored (.ptSigRaise p v)))
      ∧ (v.extractLsb' 16 2 = 2 → (s.cfg.active.owns p.val n = true → act (.ptSigClear p v) false) ∧ (s.cfg.active.owns p.val n = false → ignored (.ptSigClear p v)))
      ∧ (v.extractLsb' 16 2 = 3 → ignored (.regWrite (BitVec.ofNat 24 off) v))

/-- R337, R348: `PT_RESUME` releases a held operation without a record, or lets it run again from where it stood; it is ignored and logged
where it names no held operation of the partition, or resumes while `PT_RRING.VALID` is 0. -/
def Obligations.ResumeRegister : Prop :=
  ∀ (s : State) (p : Fin 16) (v : W64), s.HostOpen →
    let off := 0x100000 + 0x40000 * p.val + 0x300
    let c (rel : Bool) : Instr := if rel then .ptResumeRelease p v else .ptResumeResume p v
    (∀ rel, v.getLsbD 32 = rel → s.heldOp p.val (v.setWidth 32) = none →
        ∃ t, exec (c rel) s = .next t ∧ s.Notes t ⟨s.clk.tick, 0x0F, some p.val, true, 0, 0xFF, 0, BitVec.ofNat 32 off, v⟩)
      ∧ (∀ o, s.heldOp p.val (v.setWidth 32) = some o →
        (v.getLsbD 32 = true → ∃ t, exec (c true) s = .next t ∧ t.op o.opid = none ∧ (∀ i, i ≠ o.opid → t.op i = s.op i)
            ∧ (∀ k, k < 8 → (t.pair k).op ≠ some o.opid) ∧ t.hw.rings = s.hw.rings ∧ (t.ptReg p.val).rringTail = (s.ptReg p.val).rringTail
            ∧ (t.ptReg p.val).resume = v &&& 0x1FFFFFFFF)
        ∧ (v.getLsbD 32 = false → (s.ptReg p.val).rring.getLsbD 63 = true → (s.judgeOpd ⟨p.val, .other, false, o.faultVa, 1⟩).1 = .ok →
            [0x0A, 0x0B, 0x0C, 0x0D].contains (opcodeOf o.cmd) = true →
            ∃ t, exec (c false) s = .next t ∧ t.op o.opid = some { o with st := .running, hold := [] } ∧ (∀ i, i ≠ o.opid → t.op i = s.op i)
              ∧ t.hw.rings = s.hw.rings ∧ t.mem = s.mem)
        ∧ (v.getLsbD 32 = false → (s.ptReg p.val).rring.getLsbD 63 = false →
            ∃ t, exec (c false) s = .next t ∧ t.hw = s.hw ∧ t.clusters = s.clusters ∧ t.pairs = s.pairs ∧ t.mem = s.mem
              ∧ t.ras.total = s.ras.total + 1))

/-- R442, R443, R446: `TRC_MARK` takes its value and, where type 0x0E of partition 0 is captured and the staging queue has room, one record
with that value in ARG0 joins the queue; a write of `TRC_CTL` with `FLUSH` 1 sets it with the register's other fields. -/
def Obligations.TraceRegisters : Prop :=
  ∀ (s : State) (v : W64), s.HostOpen →
    (∃ t, exec (.trcMark v) s = .next t ∧ t.trc.mark = v.setWidth 32
        ∧ (s.trc.enable = true → s.trc.mode ≠ 1 → s.trc.types.getLsbD 0x0E = true → s.trc.parts.getLsbD 0 = true → s.trc.staging.length < 64 →
            t.trc.staging = s.trc.staging ++ [traceRecord s.clk.fc 0x0E 0 s.clk.tick 0xFF 0 (v.setWidth 32) 0])
        ∧ (s.trc.enable = false ∨ s.trc.types.getLsbD 0x0E = false ∨ s.trc.parts.getLsbD 0 = false → t = { s with trc := { s.trc with mark := v.setWidth 32 } })
        ∧ { t with trc := s.trc } = s)
      ∧ (v.getLsbD 0 = true → exec (.flush v) s = .next { s with trc := { s.trc with enable := v.getLsbD 63, mode := v.extractLsb' 61 2, flush := true } })


/-! Time, resets and bring-up -/

/-- R432, log entry 3 (the model's choice: a step on an empty queue is one tick of the always-on clock): the tick count rises by one and the
operating time by one at every 6,250,000th tick; while the fast domain stands still nothing else changes but the meter's time and the trace
unit, which takes up to four staged records (R370, R443), and while it runs, `fc` rises by F in units of 100 MHz, and with no operation in flight and every pool in NORMAL (R270) Headwater's state stands. -/
def Obligations.IdleTicks : Prop :=
  ∀ (s : State), s.pending = [] →
    let clk : Clk := { s.clk with tick := s.clk.tick + 1, opTime := if (s.clk.tick + 1).toNat % 6250000 = 0 then s.clk.opTime + 1 else s.clk.opTime }
    (s.fast = false → ∃ t, step s = .next t ∧ t = { s with clk := clk, smu := { s.smu with time := t.smu.time }, trc := t.trc, mem := t.mem }
        ∧ (s.boot.inReset = true ∨ (s.trc.staging = [] ∧ s.trc.unstreamed = [] ∧ s.trc.dropped = 0 ∧ s.trc.flush = false) → t.trc = s.trc ∧ t.mem = s.mem)
        ∧ (s.boot.inReset = false → s.trc.mode ≠ 2 → s.trc.dropped = 0 → t.trc.staging = s.trc.staging.drop 4)
        ∧ t.smu.time = if s.part.optM && s.link.powered && decide ((s.clk.tick + 1).toNat % 6250000 = 0) then s.smu.time + 1 else s.smu.time)
      ∧ (s.fast = true → s.hw.ops = [] → (∀ p, p < 16 → (s.pool p).fstate = .normal) → ∃ t, step s = .next t ∧ t.clk.tick = s.clk.tick + 1 ∧ t.clk.opTime = clk.opTime
          ∧ t.clk.fc = s.clk.fc + s.clk.freq.setWidth 48 ∧ t.hw = s.hw ∧ t.clusters = s.clusters ∧ t.pairs = s.pairs ∧ t.cfg = s.cfg ∧ t.sig = s.sig)

/-- R317, R387, R457: what registers read at the release of a cold reset; host memory is canonical. R457: the fields of `AX_STATE` in every
state with a stage of bring-up; its reserved bits read 0. -/
def Obligations.ResetState : Prop :=
  (let s := State.reset
  s.memOk ∧ s.readReg 0x10 = 1 ∧ s.readReg 0x100 = 0 ∧ s.readReg 0x108 = 0 ∧ s.readReg 0x110 = 0 ∧ s.readReg 0x118 = 0 ∧ s.readReg 0x120 = 0
    ∧ s.readReg 0x300 = 0 ∧ s.readReg 0x10000 = 0x10 ∧ s.readReg 0x10008 = 0x000003E8000F4240 ∧ s.readReg 0x10028 = 0
    ∧ s.readReg 0x20000 = 0 ∧ s.readReg 0x20008 = 0 ∧ s.readReg 0x20018 = 0 ∧ s.readReg 0x20100 = 0 ∧ s.readReg 0x40000 = 0 ∧ s.readReg 0xA0018 = 0
    ∧ s.readReg 0xC0000 = 0 ∧ ∀ p : Fin 16, s.readReg (0x100000 + 0x40000 * p.val) = 0 ∧ s.readReg (0x100000 + 0x40000 * p.val + 8) = 0xC8
      ∧ s.readReg (0x100000 + 0x40000 * p.val + 0x10) = 0 ∧ s.readReg (0x100000 + 0x40000 * p.val + 0x18) = 0)
    ∧ (∀ (s : State), s.boot.stage ≤ 4 →
        let w := s.readReg 0x10
        w.extractLsb' 32 32 = s.boot.svc ∧ (w.extractLsb' 20 6).toNat = (List.range 32).countP (fun k => s.boot.svc.getLsbD k)
          ∧ w.getLsbD 11 = s.boot.meterOut ∧ w.getLsbD 10 = s.boot.norec ∧ w.getLsbD 9 = s.boot.fatal ∧ w.getLsbD 8 = s.boot.bootFail
          ∧ w.getLsbD 3 = s.boot.reduced ∧ (w.extractLsb' 0 3).toNat = s.boot.stage
          ∧ w.extractLsb' 26 6 = 0 ∧ w.extractLsb' 12 8 = 0 ∧ w.extractLsb' 4 4 = 0)

/-- R379, R453: a cold reset clears the block and keeps the fuses, the meter, the record memory's entries and host memory. -/
def Obligations.ColdReset : Prop :=
  ∀ (s : State), ∃ t, exec .coldReset s = .next t ∧ t.boot.inReset = true ∧ t.boot.s1Started = false ∧ t.clk = Clk.reset ∧ t.cfg = Cfg.reset
    ∧ t.glob = Glob.reset ∧ t.hw = Hw.reset ∧ t.weir = Weir.reset ∧ t.pools = [] ∧ t.sig = Sig.reset ∧ t.pt = [] ∧ t.tr = Tr.reset ∧ t.ports = []
    ∧ t.clusters = [] ∧ t.pairs = [] ∧ t.ras = Ras.reset ∧ t.trc = Trc.reset ∧ t.recorder.queue = [] ∧ t.peer.windows = [] ∧ t.peer.held = []
    ∧ t.part = s.part ∧ t.smu = s.smu ∧ t.mem = s.mem ∧ t.pending = s.pending
    ∧ (s.recorder.queue = [] → s.recorder.seals = [] → t.recorder.permanent = s.recorder.permanent ∧ t.recorder.repair = s.recorder.repair
        ∧ t.recorder.circulating = s.recorder.circulating ∧ t.recorder.rseq = s.recorder.rseq)

/-- R379, R381, R387, R453: a block reset, from the pin or from `RST_CTL` with its key, clears what a cold reset clears but for what the
table keeps; without the key the write is ignored and logged. What is kept beyond the table is the model's reading (log entry 91). -/
def Obligations.BlockReset : Prop :=
  ∀ (s : State) (v : W64),
    let resets (c : Instr) (last : BitVec 2) : Prop := ∃ t, exec c s = .next t ∧ t.boot.inReset = true ∧ t.boot.s1Started = false
      ∧ t.clk.last = last ∧ t.clk.blockResets.toNat = Nat.min 65535 (s.clk.blockResets.toNat + 1) ∧ t.clk.awake = false
      ∧ t.cfg = { Cfg.reset with epoch := s.cfg.epoch } ∧ t.glob = Glob.reset ∧ t.hw = Hw.reset ∧ t.weir = Weir.reset ∧ t.pools = [] ∧ t.sig = Sig.reset
      ∧ t.pt = [] ∧ t.tr = Tr.reset ∧ t.ras.log = s.ras.log ∧ t.ras.total = s.ras.total ∧ t.ras.clOut = s.ras.clOut ∧ t.ras.pairOut = s.ras.pairOut
      ∧ t.ras.pstop = 0 ∧ t.trc = s.trc ∧ t.link = s.link ∧ t.smu = s.smu ∧ t.mem = s.mem ∧ t.part = s.part ∧ t.recorder.queue = s.recorder.queue
      ∧ (∀ n, (t.cluster n).roleEpoch = (s.cluster n).roleEpoch ∧ (t.cluster n).colOut = (s.cluster n).colOut ∧ (t.cluster n).rowOut = (s.cluster n).rowOut
          ∧ (t.cluster n).fieldRep = (s.cluster n).fieldRep ∧ (t.cluster n).queue = [] ∧ (t.cluster n).spm = [] ∧ (t.cluster n).handles = []
          ∧ (t.cluster n).tileBufs = [])
      ∧ (∀ n, (t.pair n).op = none ∧ (t.pair n).dmem = [] ∧ (t.pair n).ib0 = [] ∧ (t.pair n).ib1 = [] ∧ (t.pair n).instret = (s.pair n).instret)
      ∧ (∀ k, (t.port k).rc = 0 ∧ (t.port k).wc = 0 ∧ (t.port k).wd = 0 ∧ (t.port k).waiting = []
          ∧ (∀ e ∈ (t.port k).reads ++ (t.port k).writes, ∀ q, e.2 = some q → q.use = .abandoned))
    (¬ (s.boot.inReset = true ∧ s.boot.kind = .cold) → resets .blockReset 1)
      ∧ (s.boot.inReset = false → v.getLsbD 0 = true → v.extractLsb' 48 16 = 0xB10C → resets (.rstCtlBlock v) 2)
      ∧ (s.boot.inReset = false → v.getLsbD 0 = true → v.extractLsb' 48 16 ≠ 0xB10C →
          ∃ t, exec (.rstCtlBlock v) s = .next t ∧ s.Notes t ⟨s.clk.tick, 0x0F, none, true, 0, 0xFF, 0, 0x10020, v⟩)

/-- R447, R449: stage S1 begins at the release of a reset and ends with the fast domain running and stage S2; a failed self-test of the
management pair, of the duplicated tables or of the image ROM is fatal. R448, R449, R451: the clusters of a wave that pass join service,
those that fail are mapped out; the first wave that leaves a cluster in service opens reduced service; S3 follows the last wave, or bring-up
stops where every cluster failed. S3 ends in full service. Details of the stages that the rules leave open are log entry 92. -/
def Obligations.BringUpStages : Prop :=
  (∀ (s : State) (r : BringUp),
    (s.boot.s1Started = false → s.boot.fatal = false → ∃ t, exec (.resetRelease r) s = .next t ∧ t.boot.inReset = false ∧ t.boot.s1Started = true
        ∧ t.boot.stage = 1 ∧ t.boot.releaseTick = s.clk.tick ∧ t.boot.norec = !r.sfdpOk ∧ t.boot.fatal = !(r.mgmtOk && r.tablesOk && r.romOk)
        ∧ (t.boot.fatal = true → t.boot.fcause = if !r.mgmtOk then 4 else if !r.tablesOk then 5 else 6)
        ∧ t.hw = s.hw ∧ t.cfg = s.cfg ∧ t.clusters = s.clusters ∧ t.pairs = s.pairs)
      ∧ (s.boot.s1Started = true → exec (.resetRelease r) s = .next s)
      ∧ (s.boot.inReset = false → s.boot.s1Started = true → s.boot.stage = 1 → s.boot.fatal = false → s.clk.wbuf = [] → s.ras.clOut = 0 →
          ∃ t, exec .s1End s = .next t ∧ t.clk.awake = true ∧ t.boot.stage = 2 ∧ t.boot.wave = 0 ∧ t.boot.svc = s.boot.svc
            ∧ (s.clk.freqNew = none → t.clk = { s.clk with awake := true, waking := false }) ∧ t.hw = s.hw ∧ t.cfg = s.cfg))
    ∧ (∀ (s : State) (fail : BitVec 8) (bad : BitVec 32), s.fast = true →
        let w := s.boot.wave
        (s.boot.stage = 2 → s.boot.bootFail = false → w < s.waves → (∀ k, k < 8 → s.ras.clOut.getLsbD (8 * w + k) = false) → ∃ t, exec (.s2WaveEnd fail) s = .next t
            ∧ (∀ n, n < 32 → t.boot.svc.getLsbD n = if n / 8 = w then !fail.getLsbD (n % 8) else s.boot.svc.getLsbD n)
            ∧ (∀ n, n < 32 → t.ras.clOut.getLsbD n = if n / 8 = w then fail.getLsbD (n % 8) else s.ras.clOut.getLsbD n)
            ∧ t.boot.reduced = (t.boot.svc != 0)
            ∧ (w + 1 = s.waves → t.boot.svc ≠ 0 → t.boot.stage = 3) ∧ (w + 1 = s.waves → t.boot.svc = 0 → t.boot.bootFail = true ∧ t.boot.stage = 2)
            ∧ (w + 1 < s.waves → s.ras.clOut = 0 → t.boot.stage = 2 ∧ t.boot.wave = w + 1))
          ∧ (s.boot.stage = 3 → ∃ t, exec (.s3End bad) s = .next t ∧ t.boot.stage = 4 ∧ t.boot.reduced = false
              ∧ (∀ n, n < 32 → t.boot.svc.getLsbD n = (s.boot.svc.getLsbD n && (!bad.getLsbD n || s.ras.clOut.getLsbD n)))
              ∧ (∀ n, n < 32 → t.ras.clOut.getLsbD n = (s.ras.clOut.getLsbD n || (bad.getLsbD n && s.boot.svc.getLsbD n)))))

/-- R329, R345, R411: a partition reset stops the partition's rings, ends its commands without a record, frees its contexts and clears its
signals, whether or not it is enabled; a pair of another partition that waited on one returns with outcome 2. R181, R329, R411: when the drains and withdrawals are over,
the partition's clusters, in service or not, are clear, their role epochs have risen, and the partition may fetch again; a partition that is not being reset is
untouched. Details that the rules leave open are log entry 93. -/
def Obligations.PartitionReset : Prop :=
  (∀ (s : State) (p : Fin 16) (keep : W16), s.HostOpen → s.cfg.resetting.getLsbD p.val = false →
    let v : W64 := keep.setWidth 64 <<< 16 ||| 1 <<< p.val
    ∃ t, exec (.partitionReset v) s = .next t ∧ t.cfg.keepWarm = keep ∧ t.cfg.resetting = s.cfg.resetting ||| 1 <<< p.val
      ∧ (∀ n, (t.ring n).part = BitVec.ofNat 4 p.val → (t.ring n).enable = false)
      ∧ (∀ o ∈ t.hw.ops, o.part ≠ p.val) ∧ (∀ x ∈ t.hw.staged, x.part ≠ p.val) ∧ t.backlog p.val = [] ∧ (∀ q, q < 16384 → t.seq p.val q = Seq.free)
      ∧ (t.pool p.val).taken = false ∧ (t.pool p.val).recs = [] ∧ t.ras.pstop.getLsbD p.val = true ∧ (∀ n, ∀ e ∈ (t.cluster n).queue, e.part ≠ p.val)
      ∧ ((∀ w ∈ s.sig.waiters, s.cfg.active.holds p.val w.1 = false) → (∀ n, s.cfg.active.holds p.val n = true → t.isRaised n = false)
          ∧ (∀ n, (t.ring n).fetched = (s.ring n).fetched ∧ (t.ring n).done = (s.ring n).done))
      ∧ (∀ (n sp : Nat) (w : SwaitSt), s.sig.waiters = [(n, .pair sp)] → s.cfg.active.holds p.val n = true → (s.pair sp).part ≠ p.val → (s.pair sp).swait = some w →
          w.d ≠ 0 → w.pd ≠ 0 → (t.pair sp).readG w.d.val = 2 ∧ (t.pair sp).readP w.pd.val = false ∧ (t.pair sp).swait = none))
    ∧ (∀ (s : State) (p : Fin 16), s.boot.inReset = false → s.boot.fatal = false → s.cfg.swapping = none →
        (s.cfg.resetting.getLsbD p.val = false → exec (.partitionResetDone p) s = .next s)
          ∧ (s.cfg.resetting.getLsbD p.val = true → s.drains p.val = false → (∀ n ∈ s.clustersOf s.cfg.active p.val, s.withdrawing n = false) →
              ∃ t, exec (.partitionResetDone p) s = .next t
                ∧ (∀ n ∈ s.assignedTo p.val, (t.cluster n).roleEpoch = (s.cluster n).roleEpoch + 1 ∧ (t.cluster n).queue = [] ∧ (t.cluster n).spm = []
                    ∧ (t.cluster n).handles = [] ∧ (t.cluster n).tileBufs = [] ∧ (t.cluster n).rowRegs = [] ∧ (t.cluster n).fieldRep = (s.cluster n).fieldRep
                    ∧ (t.cluster n).colOut = (s.cluster n).colOut)
                ∧ (∀ n, n ∉ s.assignedTo p.val → t.cluster n = s.cluster n)
                ∧ t.cfg = { s.cfg with resetting := t.cfg.resetting } ∧ t.ras = { s.ras with pstop := t.ras.pstop }
                ∧ (∀ q, q < 16 → t.cfg.resetting.getLsbD q = (s.cfg.resetting.getLsbD q && decide (q ≠ p.val))
                    ∧ t.ras.pstop.getLsbD q = (s.ras.pstop.getLsbD q && decide (q ≠ p.val)))
                ∧ t.hw = s.hw ∧ t.mem = s.mem ∧ t.smu = s.smu))

/-- R380: `PT_KILL` with `GO`: the sequence is KILLED and its operations have ended, but for a RELEASE that waits for them; a FREE or SPILLED one is untouched and the write
logged. That the operations end within the kill's own step, and that the register stays where nothing is killed, are the model's readings
(log entries 21, 104). -/
def Obligations.SequenceKill : Prop :=
  ∀ (s : State) (p : Fin 16) (v : W64), s.HostOpen → v.getLsbD 63 = true →
    let q := v.toNat % 16384
    let st := (s.seq p.val q).st
    (st ≠ .free → st ≠ .spilled → ∃ t, exec (.ptKill p v) s = .next t ∧ (t.seq p.val q).st = .killed
        ∧ (∀ o ∈ t.hw.ops, ¬ (o.part = p.val ∧ sqidOf o.cmd = q ∧ opcodeOf o.cmd ≠ 0x0F ∧ opcodeOf o.cmd ≠ 0x02))
        ∧ (∀ o ∈ s.hw.ops, ¬ (o.part = p.val ∧ sqidOf o.cmd = q ∧ opcodeOf o.cmd ≠ 0x0F ∧ opcodeOf o.cmd ≠ 0x02) → (∀ o' ∈ s.hw.ops, o'.opid = o.opid → o' = o) → o ∈ t.hw.ops)
        ∧ (t.ptReg p.val).killSqid = v.setWidth 14 ∧ (t.ptReg p.val).killGo = false)
      ∧ (st = .free ∨ st = .spilled → ∃ t, exec (.ptKill p v) s = .next t
          ∧ s.Notes t ⟨s.clk.tick, 0x0F, some p.val, true, 0, 0xFF, 0, BitVec.ofNat 32 (0x100000 + 0x40000 * p.val + 0x320), v⟩)


/-! Translation -/

/-- R336, R339: a write of `TR_INV` joins the queue of eight and counts in `ISSUED`; a full queue sets `OVF` and takes nothing. A request
that reaches the head drops the TLB entries in its range, but for RESOLVE, which drops none. R336: the request at the head completes once
nothing is outstanding to its range: `DONE` rises and the next takes its place. R333, R334, R335: the walk for a ring that waits for its
page ends: the translation is the newest of its TLB, the walk is counted with its wait in units of 16 ticks, and the ring goes on. A partition
none of whose walks has its reads back has no walk to end. That a request acts when it reaches the head is the model's reading (log entry 71). -/
def Obligations.TranslationQueues : Prop :=
  ((∀ (s : State) (v : W64), s.HostOpen →
    let c : Instr := if v.extractLsb' 60 2 = 0 then .unmap v else if v.extractLsb' 60 2 = 1 then .hold v else .resolve v
    let space : Nat := if v.getLsbD 62 then 16 else (v.extractLsb' 56 4).toNat
    let page := (v.extractLsb' 25 27).toNat
    let npg := (v.extractLsb' 0 25).toNat + 1
    let r : InvReq := ⟨v.extractLsb' 60 2, space, page, npg⟩
    v.extractLsb' 60 2 ≠ 3 →
      (8 ≤ s.tr.invQ.length → exec c s = .next { s with tr := { s.tr with invOvf := true } })
        ∧ (s.tr.invQ ≠ [] → s.tr.invQ.length < 8 →
            exec c s = .next { s with tr := { s.tr with invWord := v &&& 0x7F0FFFFFFFFFFFFF, invQ := s.tr.invQ ++ [r], invIssued := s.tr.invIssued + 1 } })
        ∧ (s.tr.invQ = [] → ∃ t, exec c s = .next t ∧ t.tr.invQ = [r] ∧ t.tr.invIssued = s.tr.invIssued + 1 ∧ t.tr.invDone = s.tr.invDone
            ∧ t.tr.invWord = v &&& 0x7F0FFFFFFFFFFFFF
            ∧ (v.extractLsb' 60 2 ≠ 2 → ∀ k, ∀ e ∈ Tab.get [] t.tr.tlbs k, ¬ (e.space = space ∧ page ≤ e.page ∧ e.page < page + npg))
            ∧ (v.extractLsb' 60 2 = 2 → t.tr.tlbs = s.tr.tlbs)))
    ∧ (∀ (s : State) (r : InvReq) (rs : List InvReq), s.fast = true → s.tr.invQ = r :: rs →
        ((r.kind = 2 ∨ s.outstanding r = false) → ∃ t, exec .invalidationDone s = .next t ∧ t.tr.invQ = rs ∧ t.tr.invDone = s.tr.invDone + 1
            ∧ t.tr.invIssued = s.tr.invIssued ∧ (rs = [] → t = { s with tr := { s.tr with invQ := [], invDone := s.tr.invDone + 1 } }))
          ∧ (r.kind ≠ 2 → s.outstanding r = true → exec .invalidationDone s = .next s)))
    ∧ (∀ (s : State) (p : Fin 17), s.fast = true →
        ((∀ w ∈ s.tr.walkers, w.space ≠ p.val ∨ s.flying (fun r => r.ofWalk p.val w.page) = true) → exec (.walkDone p) s = .next s)
          ∧ (∀ (m : Miss) (e : TlbEnt), s.tr.walkers = [⟨p.val, [m], false⟩] → s.flying (fun r => r.ofWalk p.val m.page) = false →
              (∀ q, q < 17 → Tab.get [] s.tr.misses q = []) → (∀ x ∈ s.hw.staged, x.st ≠ .rewalk) → (s.ring m.ring).waits = true →
              (s.ring m.ring).unwritten = [] → walk s.mem (s.rootOf p.val) p.val (m.page * 2 ^ 25) = .ok e →
              (∀ x ∈ s.tlb m.page, ¬ (x.space = p.val ∧ x.page = m.page)) →
              ∃ t, exec (.walkDone p) s = .next t ∧ t.tr.walkers = [] ∧ t.tr.misses = s.tr.misses
                ∧ t.tr.walkMax.toNat = Nat.min 0xFFFF (Nat.max s.tr.walkMax.toNat ((s.clk.tick - m.tick).toNat / 16))
                ∧ t.tlb m.page = (e :: s.tlb m.page).take 512 ∧ t.tr.walks.toNat = Nat.min (2 ^ 32 - 1) (s.tr.walks.toNat + 1)
                ∧ t.ring m.ring = { s.ring m.ring with waits := false } ∧ (∀ k, k ≠ m.ring → t.ring k = s.ring k)
                ∧ { t with tr := s.tr, hw := { t.hw with rings := s.hw.rings } } = s))

/-- R158, R333, R337: a command that has waited 2^20 ticks for a held page is held as an operation that met a fault on an other operand; an
operation or stream paused by HOLD for 2^16 ticks is held likewise: its shares go back and its pairs wait. R411, R415, R333: a ring that has
waited 2^20 ticks for its page, or for a page of its records, of Oxbow, of the backlog or of the resume ring, is a class P fault of its
partition, which stops fetching. The row is the moment at which the time has passed
(log entry 15). -/
def Obligations.HeldPages : Prop :=
  (∀ (s : State), s.fast = true →
    (∀ (ring : BitVec 14) (idx : W32) (x : Staged), s.hw.staged.find? (fun y => y.cmd.ring = ring.toNat && y.cmd.idx = idx) = some x → x.st = .heldPage →
        (∀ o ∈ s.hw.ops, o.opid ≠ s.hw.nextOpid) → s.hw.ops.countP (fun o => o.part = x.part && o.st = .held) < 64 →
        ∃ t o, exec (.heldTimeout ring idx) s = .next t ∧ t.op s.hw.nextOpid = some o ∧ o.st = .held ∧ o.cmd = x.cmd ∧ o.part = x.part ∧ o.faultVa = x.va
          ∧ o.shares = 0 ∧ o.clusters = 0 ∧ (∀ y ∈ t.hw.staged, y.cmd ≠ x.cmd) ∧ t.hw.nextOpid = s.hw.nextOpid + 1
          ∧ (∀ i, i ≠ s.hw.nextOpid → t.op i = s.op i))
      ∧ (∀ (opid : W32) (o : Op) (va : Nat), s.op opid = some o → s.pausedAt o = some va → o.st ≠ .held →
          s.hw.ops.countP (fun x => x.part = o.part && x.st = .held) < 64 →
          ∃ t, exec (.holdTimeout opid) s = .next t ∧ t.op opid = some { o with st := .held, shares := 0, lent := 0, faultVa := va, resumed := true }
            ∧ (∀ i, i ≠ opid → t.op i = s.op i) ∧ (∀ k, k < 8 → (s.pair k).op = some opid → (t.pair k).st = .heldDma) ∧ t.hw.nextOpid = s.hw.nextOpid))
    ∧ (∀ (s : State) (ring : BitVec 14) (idx : W32), s.fast = true → (∀ x ∈ s.hw.staged, ¬ (x.cmd.ring = ring.toNat ∧ x.cmd.idx = idx)) →
        let r := s.ring ring.toNat
        (r.waits = true → r.fetched = idx → ∃ t, exec (.heldTimeout ring idx) s = .next t ∧ t.ring ring.toNat = { r with waits := false }
            ∧ t.ras.pstop = s.ras.pstop ||| 1 <<< r.part.toNat ∧ t.ringOpen (t.ring ring.toNat) = false ∧ t.hw.staged = s.hw.staged ∧ t.hw.ops = s.hw.ops
            ∧ ∃ e, t.Logged s.ras.total e ∧ e.kind = 0x15 ∧ e.part = some r.part.toNat ∧ e.cls = 3)
          ∧ (r.waits = false → r.unwritten = [] → s.resumeWaits r.part.toNat = none → exec (.heldTimeout ring idx) s = .next s)
          ∧ (r.waits = false → r.unwritten = [] → ∀ a, s.resumeWaits r.part.toNat = some a → ∃ t, exec (.heldTimeout ring idx) s = .next t
              ∧ t.ras.pstop = s.ras.pstop ||| 1 <<< r.part.toNat ∧ (t.ptReg r.part.toNat).rringWait = (s.ptReg r.part.toNat).rringWait.drop 1
              ∧ ∃ e, t.Logged s.ras.total e ∧ e.kind = 0x15 ∧ e.part = some r.part.toNat ∧ e.cls = 3))
    ∧ (∀ (s : State) (ring : BitVec 14) (idx : W32) (x : Staged) (a : Nat), s.fast = true →
        s.hw.staged.find? (fun y => y.cmd.ring = ring.toNat && y.cmd.idx = idx) = some x → x.st = .backlog → x.part < 16 →
        (s.oxbowWaits x.part x.cmd <|> s.backlogWaits x.part) = some a →
        ∃ t, exec (.heldTimeout ring idx) s = .next t ∧ t.ras.pstop = s.ras.pstop ||| 1 <<< x.part ∧ t.hw.staged = s.hw.staged
          ∧ ∃ e, t.Logged s.ras.total e ∧ e.kind = 0x15 ∧ e.part = some x.part ∧ e.cls = 3)

/-- R175, R233, R239: an entry that has stalled for 2^20 ticks leaves its queue, with a log entry that names cluster, engine and operation,
and its program gets status ABORTED unless it has a higher one; where no entry of the engine is stalled nothing happens. An operation whose time budget expires leaves the machine, held or not, or
is a program that ends once its entries have left the queues. The row is the moment at which the time has passed (log entry 15); how built-
in work past its budget ends is log entry 73. -/
def Obligations.OperationTimeouts : Prop :=
  ∀ (s : State),
    (∀ (n : Fin 32) (e : Engine), (∀ q ∈ (s.cluster n.val).queue, q.eng = e → s.stalled n.val q = false) → exec (.stallTimeout n e) s = .next s)
      ∧ (∀ (n : Fin 32) (e : Engine) (q : QEnt), s.fast = true → (s.cluster n.val).queue.find? (fun x => x.eng = e && s.stalled n.val x) = some q →
        ∃ t, exec (.stallTimeout n e) s = .next t ∧ (∀ x ∈ (t.cluster n.val).queue, x.tag ≠ q.tag)
          ∧ (t.op q.opid ≠ none → ∃ x, t.Logged s.ras.total x ∧ x.kind = 0x04 ∧ x.part = some q.part ∧ x.cls = 2 ∧ x.unit = BitVec.ofNat 8 n.val ∧ x.opid = q.opid)
          ∧ (∀ o, t.op q.opid = some o → 0x22 ≤ o.status.toNat))
      ∧ (∀ (opid : W32) (o : Op), s.boot.inReset = false → s.boot.fatal = false → s.op opid = some o →
          ∃ t, exec (.budgetExpiry opid) s = .next t ∧ (opcodeOf o.cmd ≠ 0x0F ∨ o.st = .held → t.op opid = none ∧ ∀ k, k < 8 → (t.pair k).op ≠ some opid)
            ∧ (∀ x, t.op opid = some x → 0x22 ≤ x.status.toNat ∧ x.ended = 0xFF) ∧ (∀ i, i ≠ opid → t.op i = s.op i))


/-! Ring commands -/

/-- R279, R287, R292: a command whose sequence does not allow it completes at once: 32 bytes in its slot with its status, opcode, detail,
SQID and PHASE; `DONE` passes it where every earlier command has completed. Here a RELEASE of a sequence that is FREE. -/
def Obligations.CompletionRecord : Prop :=
  ∀ (s : State) (c : Cmd) (x : Staged) (pa : Nat), s.serving = true → opcodeOf c = 0x02 → s.stagedFor c = some x → (∀ o ∈ s.hw.ops, o.cmd ≠ c) →
    s.admissible x = (true, s) → (s.seq x.part (sqidOf c)).st = .free → raiseEn c = false → irqBit c = false →
    let r := s.ring c.ring
    let slot := r.cbase.toNat + 32 * (c.idx.toNat % 2 ^ r.log2n.toNat)
    r.cbase.toNat % 4096 = 0 → s.judgeStruct r.space true slot 32 = .ok → s.paOf r.space slot = some pa →
    ∃ t, exec (.release c) s = .next t ∧ t.stagedFor c = none ∧ byteAt t.mem pa = 0x22 ∧ byteAt t.mem (pa + 1) = 0x02 ∧ byteAt t.mem (pa + 3) = 0x03
      ∧ byteAt t.mem (pa + 2) = (if c.idx.toNat / 2 ^ r.log2n.toNat % 2 = 0 then 1 else 0)
      ∧ readLe t.mem (pa + 8) 2 = sqidOf c % 16384 ∧ readLe t.mem (pa + 20) 12 = 0
      ∧ (∀ a, a < pa ∨ pa + 32 ≤ a → byteAt t.mem a = byteAt s.mem a)
      ∧ (r.done = c.idx → r.written = [] → (t.ring c.ring).done = r.done + 1) ∧ t.hw.seqs = s.hw.seqs ∧ t.clusters = s.clusters ∧ t.pairs = s.pairs

/-- R261: ADMIT creates a sequence whose first blocks are the groups that the prompt's blocks match (R258, R260), each with one more
reference, and whose every layer holds their tokens, fewer than the prompt's; it is IDLE where no backlog entry names it. R257: RELEASE of a
sequence without operations makes it FREE; one that finds operations waits in RELEASING as an operation of its own, and takes effect once they
have completed. R255: the child of a FORK is IDLE, has the parent's lengths and the parent's entries for committed tokens, whose groups gain a
reference each, and no tail; the parent stays. -/
def Obligations.SequencesAdmittedAndForked : Prop :=
  (∀ (s : State) (c : Cmd) (x : Staged), s.Admits 0x01 c x → s.linkFull = false → (s.pool x.part).fstate = .normal → s.resident < 16384 →
    s.backlogCount x.part (sqidOf c) = 0 →
    let p := x.part
    let q := sqidOf c
    let d := s.desc p
    let n := promptLenOf c
    let toks := (List.range n).map (fun i => s.vaNat p (argsOf c + 4 * i) 4)
    let gs := s.matchPrefix p toks (Nat.min ((n - 1) / d.tok) (2 ^ btLog2Of c)) d.seed noGroup
    ∃ t, exec (.admitSeq c) s = .next t ∧ s.Took t c ∧ gs.length * d.tok ≤ n - 1
        ∧ (t.seq p q).st = .idle ∧ (t.seq p q).prio = BitVec.ofNat 4 (prioOf c) ∧ (t.seq p q).map = mapOf c ∧ (t.seq p q).btLog2 = btLog2Of c
        ∧ (t.seq p q).epoch = 0 ∧ (t.seq p q).tlen = [] ∧ (t.seq p q).inflight = 0 ∧ (t.seq p q).lastOpid = s.hw.nextOpid
        ∧ (t.seq p q).reused = BitVec.ofNat 32 (gs.length * d.tok) ∧ (∀ l, l ≤ d.layersM1 → (t.seq p q).lenOf l = gs.length * d.tok)
        ∧ (∀ k, (t.seq p q).entry k = gs[k]?) ∧ ∀ g, (t.pg p g).refcnt = (s.pg p g).refcnt + gs.count g)
    ∧ (∀ (s : State) (c : Cmd) (x : Staged), s.Admits 0x02 c x → s.Fresh → (∀ o ∈ s.hw.ops, o.cmd ≠ c) → (s.seq x.part (sqidOf c)).st ≠ .spilled →
        (s.seqBusy x.part (sqidOf c) = false → ∃ t, exec (.release c) s = .next t ∧ s.Took t c ∧ t.seq x.part (sqidOf c) = Seq.free ∧ t.hw.ops = s.hw.ops)
        ∧ (s.seqBusy x.part (sqidOf c) = true → ∃ t o, exec (.release c) s = .next t ∧ s.Took t c ∧ (t.seq x.part (sqidOf c)).st = .releasing
          ∧ t.op s.hw.nextOpid = some o ∧ o.cmd = c ∧ o.part = x.part ∧ (t.seq x.part (sqidOf c)).table = (s.seq x.part (sqidOf c)).table))
    ∧ (∀ (s : State) (c : Cmd) (o : Op), s.serving = true → opcodeOf c = 0x02 → s.hw.ops.find? (fun o => o.cmd = c) = some o → s.op o.opid = some o →
        (s.seqBusy o.part (sqidOf c) = false → ∃ t, exec (.release c) s = .next t ∧ t.seq o.part (sqidOf c) = Seq.free ∧ t.op o.opid = none)
        ∧ (s.seqBusy o.part (sqidOf c) = true → exec (.release c) s = .next s))
    ∧ (∀ (s : State) (c : Cmd) (x : Staged), s.Admits 0x03 c x → s.linkFull = false → s.resident < 16384 → s.backlogCount x.part (childOf c) = 0 →
        let p := x.part
        let parent := s.seq p (sqidOf c)
        let top := parent.maxLen ((s.desc p).layersM1 + 1)
        let es := parent.table.filter (fun e => e.1 * (s.desc p).tok < top)
        (∀ e ∈ es, e.1 < 2 ^ btLog2Of c) → (∀ e ∈ es, ∀ g, e.2 = some g → (s.pg p g).refcnt < 65535) →
        ∃ t, exec (.fork c) s = .next t ∧ s.Took t c ∧ (t.seq p (childOf c)).st = .idle ∧ (t.seq p (childOf c)).len = parent.len ∧ (t.seq p (childOf c)).tlen = []
          ∧ (t.seq p (childOf c)).table = es ∧ (t.seq p (childOf c)).epoch = 0 ∧ (t.seq p (childOf c)).map = mapOf c
          ∧ (∀ g, (t.pg p g).refcnt = (s.pg p g).refcnt + es.countP (fun e => e.2 = some g))
          ∧ (t.seq p (sqidOf c)).len = parent.len ∧ (t.seq p (sqidOf c)).tlen = parent.tlen ∧ (t.seq p (sqidOf c)).table = parent.table
          ∧ (t.seq p (sqidOf c)).epoch = parent.epoch ∧ t.hw.ops = s.hw.ops)

/-- R254: an APPEND_KV from memory whose groups are there raises `LEN` of its layer by its tokens and completes. R274, R275: a commit of N
tokens raises every layer's `LEN` by N, an abort by none; both clear the tail and raise the epoch. A commit under another epoch leaves the
sequence's lengths and epoch. -/
def Obligations.TokensAppendedAndCommitted : Prop :=
  (∀ (s s1 : State) (c : Cmd) (x : Staged), s.Admits 0x04 c x → s.Fresh → specBit c = false → fiEn c = false →
    let p := x.part
    let q := sqidOf c
    (s.seq p q).hasTail ((s.desc p).layersM1 + 1) = false → s.slotRead p c ((s.seq p q).lenOf (layerOf c)) = false →
    s.needBlocks p q (layerOf c) ((s.seq p q).lenOf (layerOf c)) (countOf c) s.hw.nextOpid = .ok s1 →
    ∃ t, exec (.appendKv c) s = .next t ∧ s.Took t c ∧ (t.seq p q).lenOf (layerOf c) = (s.seq p q).lenOf (layerOf c) + countOf c
      ∧ (∀ l, l ≠ layerOf c → (t.seq p q).lenOf l = (s.seq p q).lenOf l) ∧ t.op s.hw.nextOpid = none)
    ∧ (∀ (s : State) (c : Cmd) (x : Staged),
        let p := x.part
        let q := sqidOf c
        let layers := (s.desc p).layersM1 + 1
        let ends (t : State) (n : Nat) : Prop := s.Took t c ∧ (t.seq p q).epoch = (s.seq p q).epoch + 1 ∧ (t.seq p q).tlen = []
          ∧ (∀ l, (t.seq p q).lenOf l = (s.seq p q).lenOf l + if l < layers then n else 0) ∧ t.hw.ops = s.hw.ops
        (s.Admits 0x08 c x → s.linkFull = false → (s.seq p q).epoch.toNat = specEpochOf c → ncommitOf c ≤ (s.seq p q).minTlen layers →
            ∃ t, exec (.specCommit c) s = .next t ∧ ends t (ncommitOf c))
          ∧ (s.Admits 0x08 c x → s.linkFull = false → (s.seq p q).epoch.toNat ≠ specEpochOf c →
            ∃ t, exec (.specCommit c) s = .next t ∧ s.Took t c ∧ (t.seq p q).epoch = (s.seq p q).epoch ∧ (t.seq p q).tlen = (s.seq p q).tlen
              ∧ (t.seq p q).len = (s.seq p q).len ∧ (t.seq p q).table = (s.seq p q).table)
          ∧ (s.Admits 0x09 c x → ∃ t, exec (.specAbort c) s = .next t ∧ ends t 0))

/-- R136, R143, R151, R156: an ATTEND becomes an operation in flight under the next tag, with its key range fixed and the groups of its keys
pinned; with no mask and no peer list every segment of its keys is placed, the i-th on the (i mod N)-th of the partition's clusters that no
held pair keeps. R159: an ATTEND_BWD becomes such an operation on those clusters, unless nothing is left to wait for and it has ended. R306: a
PREFILL becomes one on those clusters, with none of its tokens done. Their sequence keeps its lengths. -/
def Obligations.AttentionAdmitted : Prop :=
  ∀ (s : State) (c : Cmd) (x : Staged), s.Fresh →
    let p := x.part
    let q := sqidOf c
    let keys := s.keyCount p c
    let cs := s.freeClusters s.cfg.active p
    let pins := if denseUse c then [] else (s.seq p q).groups (s.desc p).tok keys
    (s.Admits 0x05 c x → s.linkFull = false → s.cover p q (s.keyBlocks p c keys) = .ready →
        (causalOf c = false → winOf c = false → bmOf c = false → namesPeer (s.blockOf p c) = false → 1 ≤ keys →
          ∃ t o, exec (.attend c) s = .next t ∧ s.Took t c ∧ t.op s.hw.nextOpid = some o ∧ o.cmd = c ∧ o.part = p ∧ o.st = .running ∧ o.keys = keys
            ∧ o.pins = pins ∧ o.place = (List.range ((keys + 1023) / 1024)).map (fun g => (g, cs.getD (g % cs.length) 0)) ∧ (t.seq p q).len = (s.seq p q).len)
        ∧ ∃ t, exec (.attend c) s = .next t ∧ s.Took t c ∧ (∀ o, t.op s.hw.nextOpid = some o → o.cmd = c ∧ o.part = p ∧ o.keys = keys ∧ o.pins = pins)
          ∧ (t.seq p q).len = (s.seq p q).len)
      ∧ (s.Admits 0x06 c x → s.linkFull = false → s.cover p q (s.keyBlocks p c keys) = .ready →
        ∃ t, exec (.attendBwd c) s = .next t ∧ s.Took t c
          ∧ (t.op s.hw.nextOpid = none ∨ ∃ o, t.op s.hw.nextOpid = some o ∧ o.cmd = c ∧ o.part = p ∧ o.keys = keys ∧ o.pins = pins ∧ o.clusters = clusterMask cs)
          ∧ (t.seq p q).len = (s.seq p q).len ∧ (t.seq p q).tlen = (s.seq p q).tlen)
      ∧ (s.Admits 0x07 c x → (s.seq p q).hasTail ((s.desc p).layersM1 + 1) = false →
        ((s.seq p q).lenOf (layerOf c) + nqOf c - 1) / (s.desc p).tok < 2 ^ (s.seq p q).btLog2 →
        ∃ t o, exec (.prefill c) s = .next t ∧ s.Took t c ∧ t.op s.hw.nextOpid = some o ∧ o.cmd = c ∧ o.part = p ∧ o.st = .running ∧ o.pos = 0
          ∧ o.clusters = clusterMask cs ∧ (t.seq p q).len = (s.seq p q).len)

/-- R255, R257, R261, R296: an ADMIT, FORK, RELEASE, ATTEND, ATTEND_BWD or PREFILL that stands in staging with nothing to wait for is taken in
one step: it leaves staging, uses the next operation tag and stages nothing else. ADMIT and FORK leave their new sequence in use, RELEASE leaves
its sequence FREE or RELEASING, ATTEND and PREFILL are in flight, ATTEND_BWD is in flight or has ended. -/
def Obligations.RingCommandsTaken : Prop :=
  ∀ (s : State) (c : Cmd) (x : Staged), s.linkFull = false →
    let p := x.part
    let q := sqidOf c
    let taken (i : Instr) (P : State → Prop) : Prop :=
      ∃ t, exec i s = .next t ∧ s.Took t c ∧ (∀ y ∈ t.hw.staged, ∃ z ∈ s.hw.staged, z.cmd = y.cmd ∧ z.cmd ≠ c) ∧ P t
    let flies (t : State) : Prop := ∃ o, t.op s.hw.nextOpid = some o ∧ o.cmd = c ∧ o.part = p
    let here := s.cover p q (s.keyBlocks p c (s.keyCount p c)) = .ready
    let parent := s.seq p q
    let es := parent.table.filter (fun e => e.1 * (s.desc p).tok < parent.maxLen ((s.desc p).layersM1 + 1))
    (s.Admits 0x01 c x → (s.pool p).fstate = .normal → s.resident < 16384 →
        taken (.admitSeq c) (fun t => (t.seq p q).st = .idle ∨ (t.seq p q).st = .active))
      ∧ (s.Admits 0x02 c x → s.Fresh → (∀ o ∈ s.hw.ops, o.cmd ≠ c) → parent.st ≠ .spilled →
        taken (.release c) (fun t => (t.seq p q).st = .free ∨ (t.seq p q).st = .releasing))
      ∧ (s.Admits 0x03 c x → s.resident < 16384 → (∀ e ∈ es, e.1 < 2 ^ btLog2Of c ∧ ∀ g, e.2 = some g → (s.pg p g).refcnt < 65535) →
        taken (.fork c) (fun t => (t.seq p (childOf c)).st = .idle ∨ (t.seq p (childOf c)).st = .active))
      ∧ (s.Admits 0x05 c x → s.Fresh → here → causalOf c = false → winOf c = false → bmOf c = false → namesPeer (s.blockOf p c) = false →
        1 ≤ s.keyCount p c → taken (.attend c) flies)
      ∧ (s.Admits 0x06 c x → s.Fresh → here → taken (.attendBwd c) (fun t => t.op s.hw.nextOpid = none ∨ flies t))
      ∧ (s.Admits 0x07 c x → s.Fresh → parent.hasTail ((s.desc p).layersM1 + 1) = false →
        (parent.lenOf (layerOf c) + nqOf c - 1) / (s.desc p).tok < 2 ^ parent.btLog2 → taken (.prefill c) flies)

/-- R238: a RUN_PROGRAM whose image is present and sound takes the idle pairs of its clusters, which load the image. R237, R238: when its
image is loaded, a pair starts at `ENTRY` with its registers empty, its banks swapped and the command at the start of its data memory.
Corner cases of images are log entry 88. -/
def Obligations.ProgramLoads : Prop :=
  (∀ (s : State) (c : Cmd) (x : Staged) (a : Nat), s.Admits 0x0F c x → s.Fresh → s.cfg.active.imageVa c = some a → s.judgeImage a = .ok →
    let h : BitVec 512 := BitVec.ofNat 512 (s.vaNat 16 a 64)
    let m := s.programClusters x.part c
    imageUnfitted s.part h = false → imageHeaderBad h = false → s.imageCrcBad a h = false → s.pairsIdle m = true →
    ∃ t o, exec (.runProgram c) s = .next t ∧ s.Took t c ∧ t.op s.hw.nextOpid = some o ∧ o.cmd = c ∧ o.part = x.part ∧ o.clusters = m ∧ o.loaded = false
      ∧ (∀ k, k ∈ pairsOf m → (t.pair k).op = some s.hw.nextOpid ∧ (t.pair k).st = .loading ∧ (t.pair k).part = x.part ∧ (t.pair k).dmem = (s.pair k).dmem)
      ∧ (∀ k, k ∉ pairsOf m → t.pair k = s.pair k) ∧ t.clusters = s.clusters)
    ∧ (∀ (s : State) (o : Op) (a k : Nat), s.fast = true → s.op o.opid = some o → opcodeOf o.cmd = 0x0F → o.loaded = false → o.st = .running → o.set.imageVa o.cmd = some a →
        k ∈ pairsOf o.clusters → o.ended = 0 →
        let h : BitVec 512 := BitVec.ofNat 512 (s.vaNat 16 a 64)
        ∃ t, exec (.imageLoadDone o.opid) s = .next t ∧ (t.op o.opid) = some { o with loaded := true } ∧ (t.pair k).st = .running
          ∧ (t.pair k).pc = BitVec.ofNat 14 (bits h 96 32) ∧ (t.pair k).codeLen = bits h 64 32 ∧ (t.pair k).bank = !(s.pair k).bank
          ∧ (t.pair k).g = [] ∧ (t.pair k).p = [] ∧ (t.pair k).d = []
          ∧ (argLenOf o.cmd = 0 → bits h 128 32 = 0 → ∀ i, i < 64 → byteAt (t.pair k).dmem i = BitVec.ofNat 8 (o.cmd.w.toNat / 256 ^ i))
          ∧ (∀ j, j ∉ pairsOf o.clusters → t.pair j = s.pair j) ∧ t.clusters = s.clusters ∧ t.mem = s.mem)


/-! Page groups and configurations -/

/-- R263, R265, R268: a group that an EVICT names starts its copy to a free cold slot, or is skipped; a COLD group that a RESTORE names
starts its copy to a free frame; an EXPORT pins its groups; an IMPORT creates its sequence with a new OPEN group. Each is in flight as the
next operation; the groups it does not name stay. Which blocks an EXPORT takes is the model's reading (log entry 45). -/
def Obligations.CopyCommands : Prop :=
  ∀ (s : State) (c : Cmd) (x : Staged) (g : Nat), s.Fresh →
    let p := x.part
    let q := sqidOf c
    let r := s.pg p g
    let named := ((s.seq p q).range (firstOf c) (nentOf c)).map Prod.snd = [g]
    let runs (t : State) : Prop := ∃ o, t.op s.hw.nextOpid = some o ∧ o.cmd = c ∧ o.part = p ∧ o.st = .running
    let others (t : State) : Prop := ∀ h, h ≠ g → t.pg p h = s.pg p h
    let ample := (s.pool p).fstate = .normal ∧ Tab.wf PgRec.free (s.pool p).recs ∧ (s.desc p).lowWm < s.avail p
    (∀ j ∈ (s.pool p).copyJobs, 0 < j.left) →
    (s.Admits 0x0A c x → named → r.evictable = true → s.freeSlots p ≠ [] → ∃ t slot, exec (.evict c) s = .next t ∧ s.Took t c ∧ runs t
        ∧ slot ∈ s.freeSlots p ∧ t.pg p g = { r with st := .evicting, copyTo := some slot, forCmd := some s.hw.nextOpid } ∧ others t)
      ∧ (s.Admits 0x0A c x → named → r.evictable = false → ∃ t, exec (.evict c) s = .next t ∧ s.Took t c ∧ t.op s.hw.nextOpid = none
        ∧ t.pg p g = r ∧ others t)
      ∧ (s.Admits 0x0B c x → named → r.st = .cold → s.mayFrame p q = true → s.freeFrames p ≠ [] → ample →
        ∃ t f, exec (.restore c) s = .next t ∧ s.Took t c ∧ runs t ∧ f ∈ s.freeFrames p
          ∧ t.pg p g = { r with st := .restoring, copyTo := some f, forCmd := some s.hw.nextOpid } ∧ others t)
      ∧ (s.Admits 0x0C c x → (s.exportRange p c).map Prod.snd = [g] → s.cover p q ((s.exportRange p c).map Prod.fst) = .ready → r.st ≠ .evicting →
        ∃ t, exec (.exportGroups c) s = .next t ∧ s.Took t c ∧ runs t ∧ (∀ o, t.op s.hw.nextOpid = some o → o.pins = [g] ∧ o.pos = 0)
          ∧ (t.pg p g).pins = r.pins + 1 ∧ { t.pg p g with pins := r.pins, lastUse := r.lastUse } = r ∧ others t)
      ∧ (s.Admits 0x0D c x → ngrpOf c = 1 → s.linkFull = false → s.resident < 16384 → s.freeIds p ≠ [] → s.freeFrames p ≠ [] → ample →
        ∃ t h, exec (.importGroups c) s = .next t ∧ s.Took t c ∧ runs t ∧ h ∈ s.freeIds p ∧ (t.seq p q).table = [(0, some h)] ∧ (t.seq p q).map = mapOf c
          ∧ (t.seq p q).len = [] ∧ (t.pg p h).st = .opened ∧ (t.pg p h).refcnt = 1 ∧ (t.pg p h).loc ∈ s.freeFrames p
          ∧ ∀ k, k ≠ h → t.pg p k = s.pg p k)

/-- R256, R259, R263, R265, R268, R440: the end of a copy. An evicted group is COLD in its slot; a restored one is FULL in its frame,
CORRUPT where its CRC fails; a full group's CRC is known; an EXPORT or IMPORT goes on to its next group and ends with its last; scrubbing
goes on to the next group and marks CORRUPT the one whose CRC fails; a copy-on-write copy takes the old group's place in the table, with
`FILL` the slots below the writer's N. A copy whose requests have not all returned (R307) does not end. How many
bytes a copy moves is the model's reading (log entry 44). -/
def Obligations.CopiesEnd : Prop :=
  ∀ (s : State) (p : Fin 16) (g : Nat) (opid : W32) (o : Op), s.fast = true →
    let r := s.pg p.val g
    let d := s.desc p.val
    let done : PgRec := { r with copyTo := none, forCmd := none }
    let ample := (s.pool p.val).fstate = .normal ∧ Tab.wf PgRec.free (s.pool p.val).recs ∧ d.lowWm ≤ s.avail p.val
    let free := ∀ j ∈ (s.pool p.val).copyJobs, ∀ x, s.op j.opid = some x → x.pins = []
    let runs := s.op opid = some o ∧ o.part = p.val ∧ o.st = .running ∧ o.begun = true ∧ o.hold = [] ∧ s.linkFull = false ∧ (s.judgeCopy o).1 = .ok
      ∧ s.flying (fun r => r.use = .opCopy opid) = false
    let next (total first : Nat) : Op := { o with pos := o.pos + 1, progress := progressWord (opcodeOf o.cmd) (1000 * (o.pos + 1) / total) 2 (first + (o.pos + 1)) }
    (s.copyOut p.val g = true → ∀ x, (r.st = .evicting → exec (.evictCopyDone p g x) s = .next s) ∧ (r.st = .restoring → exec (.restoreCopyDone p g x) s = .next s))
      ∧ (∀ slot, r.st = .evicting → r.copyTo = some slot → s.copyOut p.val g = false → r.refcnt ≠ 0 → ample → free → ∃ t, exec (.evictCopyDone p g .ok) s = .next t
        ∧ t.pg p.val g = { done with st := .cold, loc := slot } ∧ ∀ h, h ≠ g → t.pg p.val h = s.pg p.val h)
      ∧ (∀ f, r.st = .restoring → r.copyTo = some f → s.copyOut p.val g = false → r.refcnt ≠ 0 → free → ∃ t, exec (.restoreCopyDone p g .ok) s = .next t
        ∧ ((s.copyVa p.val (d.slotVa r.loc) (d.frameVa f) d.groupBytes).groupCrc p.val (d.frameVa f) = r.crc → t.pg p.val g = { done with st := .full, loc := f })
        ∧ ((s.copyVa p.val (d.slotVa r.loc) (d.frameVa f) d.groupBytes).groupCrc p.val (d.frameVa f) ≠ r.crc →
          (t.pg p.val g).st = .corrupt ∧ (t.pg p.val g).loc = f ∧ (t.pg p.val g).held = true ∧ (t.pg p.val g).hashed = false))
      ∧ (∀ j, (s.pool p.val).crcJobs = [j] → j.g = g → r.st = .full → ∃ t, exec (.crcComputeDone p g) s = .next t ∧ (t.pool p.val).crcJobs = []
        ∧ t.pg p.val g = { r with crc := s.groupCrc p.val (s.groupVa p.val r), crcOk := true, hashed := (t.pg p.val g).hashed, next := (t.pg p.val g).next }
        ∧ t.hw = s.hw ∧ t.clusters = s.clusters ∧ t.pairs = s.pairs)
      ∧ (runs → opcodeOf o.cmd = 0x0C → ∃ t, exec (.groupCopyDone opid .ok) s = .next t ∧ (∀ i, i ≠ opid → t.op i = s.op i)
        ∧ t.op opid = if o.pos + 1 = o.pins.length then none else some (next o.pins.length (firstOf o.cmd)))
      ∧ (runs → opcodeOf o.cmd = 0x0D → 0 < d.tok → ∃ t, exec (.groupCopyDone opid .ok) s = .next t ∧ (∀ i, i ≠ opid → t.op i = s.op i)
        ∧ (o.pos + 1 < ngrpOf o.cmd → t.op opid = some (next (ngrpOf o.cmd) 0))
        ∧ (o.pos + 1 = ngrpOf o.cmd → t.op opid = none ∧ ∀ l, l ≤ d.layersM1 → (ngrpOf o.cmd - 1) * d.tok < (t.seq p.val (sqidOf o.cmd)).lenOf l
            ∧ (t.seq p.val (sqidOf o.cmd)).lenOf l ≤ ngrpOf o.cmd * d.tok))
      ∧ ((s.pool p.val).scrubEn = true → g < d.pgIds → ∃ t, exec (.scrubGroup p g) s = .next t ∧ (t.pool p.val).scrubPos = (g + 1) % d.pgIds
        ∧ (r.st = .full → r.crcOk = true → r.pins = 0 → s.groupCrc p.val (s.groupVa p.val r) ≠ r.crc → (t.pg p.val g).st = .corrupt)
        ∧ (s.groupCrc p.val (s.groupVa p.val r) = r.crc → { t with pools := s.pools } = s ∧ ∀ h, t.pg p.val h = s.pg p.val h))
      ∧ (∀ old k, r.copyTo = some old → r.forCmd = some opid → s.op opid = some o → r.st = .opened → old ≠ g → opcodeOf o.cmd ≠ 0x04 → 2 ≤ (s.pg p.val old).refcnt →
        (s.seq p.val (sqidOf o.cmd)).table.find? (fun e => e.2 = some old) = some (k, some old) →
        ∃ t, exec (.cowCopyDone p g .ok) s = .next t
          ∧ t.pg p.val g = { done with fill := Nat.min d.tok ((s.seq p.val (sqidOf o.cmd)).n (d.layersM1 + 1) - k * d.tok) }
          ∧ t.pg p.val old = { s.pg p.val old with refcnt := (s.pg p.val old).refcnt - 1 }
          ∧ (t.seq p.val (sqidOf o.cmd)).entry k = some g ∧ t.hw.ops = s.hw.ops)

/-- R181, R315, R319 to R321: a SWAP whose epoch is another's, or whose shadow set is not valid, changes no set; one that passes sets
`BUSY`. At the switch point the sets are exchanged in one step, the configuration epoch rises by one and the role epoch of each moving
cluster too. A cluster that has reached its boundary is cleared. Which clusters move is the model's reading (log entry 87). -/
def Obligations.ConfigurationSwap : Prop :=
  ∀ (s : State),
    (∀ (c : Cmd) (x : Staged), s.Admits 0x0E c x → s.cfg.busy = false →
        (BitVec.ofNat 32 (expectEpochOf c) ≠ s.cfg.epoch.setWidth 32 ∨ s.cfg.shadow.unfitted s.part = true ∨ s.shadowValid = false →
          ∃ t, exec (.swap c) s = .next t ∧ s.Took t c ∧ t.cfg = s.cfg)
        ∧ (BitVec.ofNat 32 (expectEpochOf c) = s.cfg.epoch.setWidth 32 → s.cfg.shadow.unfitted s.part = false → s.shadowValid = true → s.lockHits = [] →
          ∃ t, exec (.swap c) s = .next t ∧ s.Took t c ∧ t.cfg.busy = true ∧ t.cfg.swapping = some ⟨c, s.hw.nextOpid, s.movingOf, false⟩
            ∧ t.cfg.active = s.cfg.active ∧ t.cfg.epoch = s.cfg.epoch ∧ t.clusters = s.clusters ∧ t.ras = s.ras)
        ∧ (BitVec.ofNat 32 (expectEpochOf c) = s.cfg.epoch.setWidth 32 → s.cfg.shadow.unfitted s.part = false → s.shadowValid = true → s.lockHits ≠ [] →
          ∃ t, exec (.swap c) s = .next t ∧ s.Took t c ∧ t.cfg = { s.cfg with lockViolP := t.cfg.lockViolP } ∧ (∀ p ∈ s.lockHits, t.cfg.lockViolP.getLsbD p = true)))
      ∧ (∀ (x : SwapInProgress), s.fast = true → s.cfg.swapping = some x → x.switched = false → s.atBoundary x.moving = true →
        ∃ t, exec .swapSwitchPoint s = .next t ∧ t.cfg.active = s.cfg.shadow ∧ t.cfg.shadow = s.cfg.active ∧ t.cfg.epoch = s.cfg.epoch + 1
          ∧ (x.moving ≠ 0 → t.cfg.busy = s.cfg.busy ∧ t.cfg.swapping = some { x with switched := true }) ∧ (x.moving = 0 → t.cfg.busy = false ∧ t.cfg.swapping = none)
          ∧ (∀ n, (t.cluster n).roleEpoch = (s.cluster n).roleEpoch + if x.moving.getLsbD n then 1 else 0)
          ∧ (∀ n, x.moving.getLsbD n = true → (t.cluster n).clearing = true))
      ∧ (∀ (n : Fin 32), s.fast = true → s.cfg.swapping = none → (s.cluster n.val).clearing = true → (s.cluster n.val).queue = [] → s.streamOut n.val = false →
        s.withdrawing n.val = false → ∃ t y, exec (.clusterClearDone n) s = .next t ∧ s.ClusterOnly t n.val y ∧ y.spm = [] ∧ y.handles = [] ∧ y.loops = []
          ∧ y.cache = [] ∧ y.rowRegs = [] ∧ y.tileBufs = [] ∧ y.clearing = false ∧ y.roleEpoch = (s.cluster n.val).roleEpoch
          ∧ y.cacheMib = (s.cluster n.val).cacheNext ∧ y.fieldRep = (s.cluster n.val).fieldRep ∧ y.colOut = (s.cluster n.val).colOut)


/-! Power, clocks and shares -/

/-- R376, R377: what the messages of the power manager do. GRANT sets G, at most the clusters in service, and raises `FLOOR_OVER` where the
floors come to more; RETURN gives lent shares back; FREQ asks for a new F; WAKE starts a wake; NO_STOP keeps the PLLs running. A reserved
type, or a field of the message that is not as it must be, makes the message ignored and logged. POWER goes out with the clusters whose
clocks run. Which of several lent shares a RETURN gives back first is the model's choice (log entry 34). -/
def Obligations.PowerMessages : Prop :=
  ∀ (s : State) (w : W32), s.boot.inReset = false → s.boot.fatal = false →
    let type := (w.extractLsb' 28 4).toNat
    let part := (w.extractLsb' 24 4).toNat
    let count := (w.extractLsb' 16 8).toNat
    let arg := (w.extractLsb' 0 16).toNat
    let g := Nat.min count (popcount s.boot.svc)
    let refused (c : Instr) : Prop := ∃ t, exec c s = .next t ∧ s.Notes t ⟨s.clk.tick, 0x0E, none, false, 0, 0xFF, 0, w, 0⟩
    (type = 1 → part = 0 → arg = 0 →
        (s.floorSum ≤ g → exec (.grant w) s = .next { s with weir := { s.weir with grant := some g } })
        ∧ (g < s.floorSum → ∃ t, exec (.grant w) s = .next t ∧ t.weir = { s.weir with grant := some g, floorOver := true } ∧ t.glob.irqPend.getLsbD 0 = true
            ∧ t.hw = s.hw ∧ t.clk = s.clk))
      ∧ (type = 2 → arg = 0 → count ≤ Tab.get 0 s.weir.lent part → (count = 0 → exec (.returnShares w) s = .next s)
        ∧ (∀ (sp n : Nat) (ns : List Nat) (o : Op), count = 1 → s.weir.recalls.head? = some sp → (s.pair sp).op = some o.opid → s.op o.opid = some o →
            (s.pair sp).part = part → o.part = part → (setList o.lent).filter (fun k => k / 4 = sp) = n :: ns →
            ∃ t, ∃ x : Op, exec (.returnShares w) s = .next t ∧ t.op o.opid = some { o with lent := x.lent, shares := x.shares }
              ∧ (∀ k, k < 32 → x.lent.getLsbD k = (o.lent.getLsbD k && decide (k ≠ n)) ∧ x.shares.getLsbD k = (o.shares.getLsbD k || decide (k = n)))
              ∧ Tab.get 0 t.weir.lent part = Tab.get 0 s.weir.lent part - 1 ∧ (∀ i, i ≠ o.opid → t.op i = s.op i)
              ∧ (ns = [] → (t.pair sp).lent = false ∧ (t.pair sp).recalled = false ∧ sp ∉ t.weir.recalls) ∧ (ns ≠ [] → t.pairs = s.pairs)))
      ∧ (type = 3 → part = 0 → count = 0 → 4 ≤ arg → arg ≤ 16 → ∃ t, exec (.freq w) s = .next t ∧ t.clk.freqNew = some (BitVec.ofNat 5 arg)
        ∧ t.clk.freq = s.clk.freq ∧ t = { s with clk := { s.clk with freqNew := t.clk.freqNew, pllABad := t.clk.pllABad, pllBBad := t.clk.pllBBad } }
        ∧ t.clk.pllABad = (s.clk.pllABad && !s.clk.activeB) ∧ t.clk.pllBBad = (s.clk.pllBBad && s.clk.activeB))
      ∧ (type = 4 → part = 0 → count = 0 → arg = 0 → ∀ c, c = WakeCause.message w ∨ c = .read ∨ c = .timeout →
        (s.clk.awake = true → exec (.wake c) s = .next s)
        ∧ (s.clk.awake = false → 2 ≤ s.boot.stage → exec (.wake c) s = .next { s with clk := { s.clk with waking := true } }))
      ∧ (type = 5 → part = 0 → count = 0 → arg ≤ 1 → exec (.noStop w) s = .next { s with clk := { s.clk with noStop := decide (arg = 1) } })
      ∧ (type = 0 ∨ 6 ≤ type → refused (.grant w) ∧ refused (.returnShares w) ∧ refused (.freq w) ∧ refused (.wake (.message w)) ∧ refused (.noStop w))
      ∧ (type = 1 → part ≠ 0 ∨ arg ≠ 0 → refused (.grant w)) ∧ (type = 2 → arg ≠ 0 ∨ Tab.get 0 s.weir.lent part < count → refused (.returnShares w))
      ∧ (type = 3 → part ≠ 0 ∨ count ≠ 0 ∨ arg < 4 ∨ 16 < arg → refused (.freq w)) ∧ (type = 4 → part ≠ 0 ∨ count ≠ 0 ∨ arg ≠ 0 → refused (.wake (.message w)))
      ∧ (type = 5 → part ≠ 0 ∨ count ≠ 0 ∨ 2 ≤ arg → refused (.noStop w))
      ∧ (∃ t m, exec .power s = .next t ∧ t.out.pm = s.out.pm ++ [m] ∧ m.extractLsb' 28 4 = 0xD ∧ (m.extractLsb' 16 8).toNat = popcount s.clk.clkOn
        ∧ (∀ p, p < 16 → (t.ptReg p).active = 0) ∧ t.clk = s.clk ∧ t.hw = s.hw)

/-- R371, R372, R373, R305, R381, R421, R422: the fast clock moves to the PLL locked to the new F; an idle block stops its PLLs and a wake
starts them; an idle cluster's clock stops and a requested one starts; loss of lock switches to the other PLL and marks the work in flight,
and without another PLL it is fatal, as are the absence of `REF_CLK` and a failed self-check; the tags of abandoned requests become free. -/
def Obligations.ClocksAndPlls : Prop :=
  ∀ (s : State) (n : Fin 32),
    let quiet := s.trc.mode ≠ 2 ∨ s.trc.stream.getLsbD 63 = false
    let mayStop := s.fast = true ∧ s.clk.clkOn.getLsbD n.val = true ∧ (s.cluster n.val).queue = [] ∧ s.trc.enable = false
    let stops (c : Instr) : Prop := ∃ t, exec c s = .next t ∧ (∀ k, k < 32 → t.clk.clkOn.getLsbD k = (s.clk.clkOn.getLsbD k && decide (k ≠ n.val)))
      ∧ t.clk.startReq.getLsbD n.val = false ∧ t.weir.prewoken.getLsbD n.val = false ∧ { t with clk := s.clk, weir := s.weir } = s
    let fatal (c : Instr) (cause : BitVec 3) : Prop := ∃ t, exec c s = .next t ∧ t.boot.fatal = true ∧ t.boot.fcause = cause ∧ t.clk.awake = false
      ∧ t.clk.clkOn = 0 ∧ t.ras.b = Nat.min 255 (s.ras.b + 1) ∧ (∀ k, (t.port k).rc = 0 ∧ (t.port k).wc = 0 ∧ (t.port k).wd = 0 ∧ (t.port k).waiting = [])
      ∧ t.hw = s.hw ∧ t.clusters = s.clusters ∧ t.pairs = s.pairs ∧ t.smu = s.smu
      ∧ (s.recorder.nodev = false → s.recorder.queue.length < 64 → ∃ r, t.recorder.queue = s.recorder.queue ++ [r] ∧ r.type = 0x10 ∧ r.cls = 4 ∧ t.mem = s.mem)
    (∀ f, s.fast = true → s.clk.freqNew = some f → ∃ m, m.extractLsb' 28 4 = 0xB ∧ (m.extractLsb' 0 16).toNat = f.toNat ∧ exec .freqSwitchDone s
          = .next { s with clk := { s.clk with freq := f, freqNew := none, activeB := !s.clk.activeB }, out := { s.out with pm := s.out.pm ++ [m] } })
      ∧ (s.fast = true → s.boot.stage = 4 → quiet → (s.blockIdle = false → exec .pllStop s = .next s)
        ∧ (s.blockIdle = true → ∃ t m, exec .pllStop s = .next t ∧ t.clk = { s.clk with awake := false, stoppedAt := s.clk.tick, idle := 0 }
            ∧ t.out = { s.out with pm := s.out.pm ++ [m] } ∧ m.extractLsb' 28 4 = 0xC ∧ m.extractLsb' 0 16 = 0 ∧ { t with clk := s.clk, trc := s.trc, out := s.out } = s))
      ∧ (s.boot.inReset = false → s.boot.fatal = false → s.clk.waking = true → 2 ≤ s.boot.stage → s.clk.wbuf = [] → s.clk.freqNew = none →
        ∃ t m, exec .pllAwake s = .next t ∧ t.clk = { s.clk with awake := true, waking := false, idle := 0 } ∧ t.out = { s.out with pm := s.out.pm ++ [m] }
          ∧ m.extractLsb' 28 4 = 0xC ∧ m.extractLsb' 0 16 = 1 ∧ { t with clk := s.clk, trc := s.trc, out := s.out } = s)
      ∧ (mayStop → s.shareOn n.val = false → stops (.clusterClockStop n) ∧ (s.weir.prewoken.getLsbD n.val = true → stops (.prewakeTimeout n)))
      ∧ (s.shareOn n.val = true → exec (.clusterClockStop n) s = .next s ∧ exec (.prewakeTimeout n) s = .next s)
      ∧ (s.fast = true → s.clk.startReq.getLsbD n.val = true → s.trc.enable = false → ∃ t, exec (.clusterClockStart n) s = .next t
        ∧ (s.clk.clkOn.getLsbD n.val = false → (∀ k, k < 32 → t.clk.clkOn.getLsbD k = (s.clk.clkOn.getLsbD k || decide (k = n.val)))
          ∧ t.clk.startReq.getLsbD n.val = false) ∧ { t with clk := s.clk } = s)
      ∧ (s.fast = true → (if s.clk.activeB then s.clk.pllABad else s.clk.pllBBad) = false → ∃ t, exec .pllLockLoss s = .next t
        ∧ t.clk = { s.clk with activeB := !s.clk.activeB, pllABad := s.clk.pllABad || !s.clk.activeB, pllBBad := s.clk.pllBBad || s.clk.activeB }
        ∧ t.hw.ops = s.hw.ops.map (fun o => { o with unverified := true }) ∧ { t with clk := s.clk, hw := { t.hw with ops := s.hw.ops } } = s)
      ∧ (s.fast = true → (if s.clk.activeB then s.clk.pllABad else s.clk.pllBBad) = true → fatal .pllLockLoss 1)
      ∧ (s.boot.inReset = false → s.boot.fatal = false → fatal .refClkAbsent 2 ∧ fatal .clockUnitSelfCheckFail 3)
      ∧ (s.boot.inReset = false → s.boot.quarantine = true → ∃ t, exec .resetTagQuarantineEnd s = .next t ∧ t.boot = { s.boot with quarantine := false }
        ∧ { t with ports := s.ports, boot := s.boot } = s ∧ ∀ k, (t.port k).reads = (s.port k).reads.filter (fun e => e.2.any (fun q => q.use != .abandoned))
          ∧ (t.port k).writes = (s.port k).writes.filter (fun e => e.2.any (fun q => q.use != .abandoned)))

/-- R303, R347, R378: a free share goes to the lowest of its operation's clusters in service that holds none, whose clock is asked to start;
a pair whose SWAIT has waited long enough lends the shares of its clusters, whose clocks stop, and LEND goes out, but not while a tile on them is being checked (R100); 5 µs after RECALL they
come back. Which cluster of an operation gets the share is the model's choice (log entry 33). -/
def Obligations.SharesAndLending : Prop :=
  ∀ (s : State) (sp : Fin 8) (o : Op), s.fast = true → s.op o.opid = some o →
    let mine (m : BitVec 32) : List Nat := (setList m).filter (fun n => n / 4 = sp.val)
    let x := s.pair sp.val
    (∀ (n : Nat) (ns : List Nat) (turn : Option (Nat × Nat)), s.nextGrant = some (o, turn) → s.swapPause = false → s.wanting o = n :: ns →
        (∀ y ∈ s.hw.ops, y.fin = false ∧ y.outq = [] ∧ opcodeOf y.cmd ≠ 0x04 ∧ opcodeOf y.cmd ≠ 0x06) →
        ∃ t y, exec .shareGrant s = .next t ∧ t.op o.opid = some { o with shares := y } ∧ (∀ k, k < 32 → y.getLsbD k = (o.shares.getLsbD k || decide (k = n)))
          ∧ (∀ i, i ≠ o.opid → t.op i = s.op i) ∧ (s.clk.clkOn.getLsbD n = false → n < 32 → t.clk.startReq.getLsbD n = true)
          ∧ (∀ p c, turn = some (p, c) → t.weir.rr = p ∧ t.weir.pfCount = c) ∧ t.clusters = s.clusters ∧ t.pairs = s.pairs)
      ∧ (∀ (w : SwaitSt), x.swait = some w → w.lent = false → x.op = some o.opid → s.cfg.active.lendThr x.part ≠ 0 → mine o.shares ≠ [] → s.trc.enable = false →
        ((∃ n ∈ mine o.shares, (s.cluster n).checking = true) → exec (.lend sp) s = .next s) ∧ ((∀ n ∈ mine o.shares, (s.cluster n).checking = false) → ∃ t, ∃ y : Op, ∃ m, exec (.lend sp) s = .next t ∧ t.op o.opid = some { o with shares := y.shares, lent := y.lent }
          ∧ (∀ k, k < 32 → y.shares.getLsbD k = (o.shares.getLsbD k && decide (k / 4 ≠ sp.val)) ∧ y.lent.getLsbD k = (o.lent.getLsbD k || (o.shares.getLsbD k && decide (k / 4 = sp.val))))
          ∧ t.out.pm = s.out.pm ++ [m] ∧ m.extractLsb' 28 4 = 9 ∧ (m.extractLsb' 16 8).toNat = (mine o.shares).length
          ∧ (∀ k, k < 32 → t.clk.clkOn.getLsbD k = (s.clk.clkOn.getLsbD k && !(o.shares.getLsbD k && decide (k / 4 = sp.val))))
          ∧ Tab.get 0 t.weir.lent o.part = Tab.get 0 s.weir.lent o.part + (mine o.shares).length
          ∧ t.pair sp.val = { x with lent := true, swait := some { w with lent := true } } ∧ (∀ k, k ≠ sp.val → t.pair k = s.pair k)))
      ∧ (sp.val ∈ s.weir.recalls → x.op = some o.opid → ∃ t, ∃ y : Op, exec (.recallExpiry sp) s = .next t ∧ t.op o.opid = some { o with shares := y.shares, lent := y.lent }
        ∧ (∀ k, k < 32 → y.lent.getLsbD k = (o.lent.getLsbD k && decide (k / 4 ≠ sp.val)) ∧ y.shares.getLsbD k = (o.shares.getLsbD k || (o.lent.getLsbD k && decide (k / 4 = sp.val))))
        ∧ sp.val ∉ t.weir.recalls ∧ Tab.get 0 t.weir.lent o.part = Tab.get 0 s.weir.lent o.part - (mine o.lent).length
        ∧ (t.pair sp.val).lent = false ∧ (t.pair sp.val).recalled = false ∧ (x.st = .waitRecall → (t.pair sp.val).st = .running) ∧ (∀ k, k ≠ sp.val → t.pair k = s.pair k))


/-! The metering unit -/

/-- R392 to R397: an event that the meter receives leaves the link; one whose CRC fails is dropped and is a tamper event, one out of order
is applied and is a tamper event; an increment is counted in whole units of its quantity with the residue carried, RESTART is a gap, an
acknowledgement ends its report and burns `LOGGED` of a SEAL report's slot. A glitch is a tamper event. `MEV_HOLD` keeps events in the
buffer and lets them go in order. The island's loss of power is logged and recorded. Every residency sample sends q 5 of each partition.
That every partition has its sample, and what the meter does with an event other than the one sent, are the model's readings (log entries
75, 80). -/
def Obligations.MeterLink : Prop :=
  ∀ (s : State) (e : LinkEv), s.part.optM = true → s.link.powered = true →
    let m := s.smu
    let key := e.part.toNat * 16 + e.q.toNat
    let unit := if e.q = 6 then 1000 else if e.q = 10 then 100 else 1
    let sum := Tab.get 0 m.residue key + e.inc.toNat
    let whole := e.crc = linkCrc e.seq e.part e.q e.inc
    let inOrder := ∀ q, m.lastSeq = some q → e.seq = q + 1
    let tampered (x y : Smu) : Prop := y.tamper.toNat = Nat.min (2 ^ 32 - 1) (x.tamper.toNat + 1) ∧ (∀ p, p < 16 → y.count p 11 = x.count p 11 + 1)
      ∧ (∀ p q, q < 16 → q ≠ 11 → y.count p q = x.count p q) ∧ { y with tamper := x.tamper, counts := x.counts } = x
    let link : Link := { s.link with wire := s.link.wire.tail }
    let becomes (c : Instr) (P : Smu → Prop) : Prop := ∃ t, exec c s = .next t ∧ t.link = link ∧ { t with link := s.link, smu := m } = s ∧ P t.smu
    (e.q.toNat < 14 → ¬ whole → becomes (.linkEvent e) (tampered m))
      ∧ (e.q.toNat < 12 → whole → inOrder → becomes (.linkEvent e) (fun y => y.count e.part.toNat e.q.toNat = m.count e.part.toNat e.q.toNat + BitVec.ofNat 64 (sum / unit)
        ∧ Tab.get 0 y.residue key = sum % unit ∧ (∀ k, k ≠ key → Tab.get 0 y.counts k = Tab.get 0 m.counts k ∧ Tab.get 0 y.residue k = Tab.get 0 m.residue k)
        ∧ { y with counts := m.counts, residue := m.residue, lastSeq := m.lastSeq } = m ∧ y.lastSeq = some e.seq))
      ∧ (e.q.toNat < 12 → e.q ≠ 11 → whole → ¬ inOrder → becomes (.linkEvent e) (fun y => y.tamper.toNat = Nat.min (2 ^ 32 - 1) (m.tamper.toNat + 1)
        ∧ y.count e.part.toNat e.q.toNat = m.count e.part.toNat e.q.toNat + BitVec.ofNat 64 (sum / unit) ∧ y.lastSeq = some e.seq))
      ∧ (e.q = 15 → whole → (∀ x ∈ m.seals, x.logged = true) →
        becomes (.restart e) (fun y => y = { m with gaps := y.gaps, gapFlags := 0xFFFF, lastSeq := none } ∧ y.gaps.toNat = Nat.min (2 ^ 32 - 1) (m.gaps.toNat + 1)))
      ∧ (e.q = 14 → whole → inOrder → ∀ r, m.reports = [r] → r.rnum = e.inc.setWidth 16 → becomes (.reportAck e) (fun y => y.reports = [] ∧ y.lastSeq = some e.seq
        ∧ y.tamper = m.tamper ∧ (∀ i x, y.seals[i]? = some x → ∃ z, m.seals[i]? = some z ∧ x.logged = (z.logged || (r.kind == 1 && decide (i = r.slot.toNat)))
          ∧ x.key = z.key ∧ x.ident = z.ident) ∧ y.seals.length = m.seals.length))
      ∧ (∃ t, exec .glitchTrip s = .next t ∧ { t with smu := m } = s ∧ tampered m t.smu)
      ∧ (exec (.mevHold true) s = .next { s with link := { s.link with hold := true } })
      ∧ (s.link.accum = [] → exec (.mevHold false) s = .next { s with link := { s.link with hold := false, wire := s.link.wire ++ s.link.buffer, buffer := [] } })
      ∧ (∃ t n, exec .meterIslandUnpowered s = .next t ∧ t.link = { s.link with powered := false } ∧ t.boot = { s.boot with meterOut := true } ∧ t.smu = m
        ∧ t.Logged s.ras.total n ∧ n.kind = 0x12 ∧ n.arg0 = 0 ∧ n.arg1 = BitVec.ofNat 64 s.link.buffer.length
        ∧ (s.recorder.nodev = false → s.recorder.queue.length < 64 → ∃ r, t.recorder.queue = s.recorder.queue ++ [r] ∧ r.type = 0x21))
      ∧ (s.boot.inReset = false → s.link.hold = false → s.link.buffer = [] → ∃ t es, exec .residencySample s = .next t ∧ t = { s with link := t.link }
        ∧ t.link.wire = s.link.wire ++ es ∧ es.map (fun x => (x.part.toNat, x.q.toNat, x.inc.toNat)) = (List.range 16).map (fun p => (p, 5, s.residentGroups p % 2 ^ 48))
        ∧ ∀ x ∈ es, x.crc = linkCrc x.seq x.part x.q x.inc)

/-- R398 to R401, R404 to R407: the meter port. A read of a low half keeps its high half for the read that follows; the staging words read 0
and an absent word has status 2; a write changes the nonce or the staging words alone; a bad frame is counted. The first write of `SMU_SEAL`
attempts the seal it names, a refused one is a tamper event, and a second write is a locked write. The end of a burn programs the next slot
and sends its report. A readout holds the counts of its partition. -/
def Obligations.MeterPort : Prop :=
  ∀ (s : State) (a : W16) (v : W32), s.part.optM = true → s.link.powered = true →
    let m := s.smu
    let answers (c : Instr) (status : Byte) (d : W32) (P : Smu → Prop) : Prop := ∃ t, exec c s = .next t ∧ t.out = { s.out with meter := s.out.meter ++ [(status, d)] }
      ∧ { t with out := s.out, smu := m } = s ∧ P t.smu
    let wide (p q : Nat) : List (Nat × W64) := [(0, m.serial), (6, m.time), (8, m.nonce), (0x1000 + 32 * p + 2 * q, m.count p q)]
    let word (k : Nat) : List (Nat × W32) := [(4, m.tamper), (5, m.gaps), (0x10 + k % 11, 0), (0x40 + k % 36, m.buffer.extractLsb' (32 * (k % 36)) 32)]
    let absent := (0x1B ≤ a.toNat ∧ a.toNat < 0x40) ∨ (0x64 ≤ a.toNat ∧ a.toNat < 0x1000) ∨ 0x1200 ≤ a.toNat ∨ (0xB ≤ a.toNat ∧ a.toNat < 0x10)
    let k := (v.extractLsb' 0 3).toNat
    let tampered (y : Smu) : Prop := y.tamper.toNat = Nat.min (2 ^ 32 - 1) (m.tamper.toNat + 1) ∧ ∀ p, p < 16 → y.count p 11 = m.count p 11 + 1
    (∀ p q, p < 16 → q < 12 → ∀ r ∈ wide p q,
        (a.toNat = r.1 → answers (.meterRead a) 0 (r.2.setWidth 32) (fun y => y = { m with latch := r.2.extractLsb' 32 32, lastRead := some r.1 }))
        ∧ (a.toNat = r.1 + 1 → answers (.meterRead a) 0 (if m.lastRead = some r.1 then m.latch else r.2.extractLsb' 32 32) (fun y => y = { m with lastRead := none })))
      ∧ (∀ k, ∀ r ∈ word k, a.toNat = r.1 → answers (.meterRead a) 0 r.2 (fun y => y = { m with lastRead := none }))
      ∧ (absent → answers (.meterRead a) 2 0 (fun y => y = { m with lastRead := none }) ∧ answers (.meterWrite a v) 2 0 (fun y => y = { m with lastRead := none }))
      ∧ (a = 8 → answers (.meterWrite a v) 0 0 (fun y => y = { m with nonce := m.nonce.extractLsb' 32 32 ++ v, lastRead := none }))
      ∧ (a = 9 → answers (.meterWrite a v) 0 0 (fun y => y = { m with nonce := v ++ m.nonce.setWidth 32, lastRead := none }))
      ∧ (0x10 ≤ a.toNat → a.toNat ≤ 0x1A → answers (.meterWrite a v) 0 0 (fun y => y = { m with staging := Tab.set 0 m.staging (a.toNat - 0x10) v, lastRead := none }))
      ∧ ([0, 1, 2, 4, 5, 6, 7].contains a.toNat = true ∨ (0x40 ≤ a.toNat ∧ a.toNat < 0x64) → answers (.meterWrite a v) 0 0 (fun y => y = { m with lastRead := none }))
      ∧ (answers .frameCrcOrOpcodeBad 1 0 (fun y => y = { m with frameErr := y.frameErr, lastRead := none } ∧ y.frameErr.toNat = Nat.min 255 (m.frameErr.toNat + 1)))
      ∧ (m.sealWritten = false → v.getLsbD 31 = false →
        answers (.smuSeal v) 0 0 (fun y => y = { m with sealWritten := true, sealGo := false, sealSlot := v.extractLsb' 0 3, lastRead := none }))
      ∧ (m.sealWritten = false → v.getLsbD 31 = true → k = m.seals.length → k < 8 → m.sealCode k = leBytes 4 (m.stage 9).toNat ++ leBytes 4 (m.stage 10).toNat →
        answers (.smuSeal v) 0 0 (fun y => y.sealBusy = true ∧ y.burning = some (m.stagedKey, m.stage 8) ∧ y.sealErr = m.sealErr ∧ y.tamper = m.tamper ∧ y.seals = m.seals))
      ∧ (m.sealWritten = false → v.getLsbD 31 = true → (k ≠ m.seals.length ∨ m.sealCode k ≠ leBytes 4 (m.stage 9).toNat ++ leBytes 4 (m.stage 10).toNat) →
        answers (.smuSeal v) 0 0 (fun y => tampered y ∧ y.burning = m.burning ∧ y.seals = m.seals
          ∧ (8 ≤ m.seals.length → y.sealErr = 2) ∧ (k = m.seals.length → y.sealErr = 3)
          ∧ (m.seals.length < 8 → m.sealCode k = leBytes 4 (m.stage 9).toNat ++ leBytes 4 (m.stage 10).toNat → y.sealErr = 1)))
      ∧ (m.sealWritten = true → ∃ t, exec (.smuSeal v) s = .next t ∧ t.out.meter = s.out.meter ++ [(3, 0)] ∧ tampered t.smu ∧ t.smu.seals = m.seals
        ∧ t.smu.burning = m.burning ∧ ((m.reports.filter (fun r => r.kind = 2)).length < 8 → t.smu.reports = m.reports ++ [⟨2, 0, m.rnum, 3, v, m.time⟩]
          ∧ t.out.mevSeal = s.out.mevSeal ++ [⟨2, 0, m.rnum, 3, v, m.time⟩])
        ∧ (8 ≤ (m.reports.filter (fun r => r.kind = 2)).length → t.smu.reports = m.reports ∧ t.out.mevSeal = s.out.mevSeal))
      ∧ (∀ key ident, m.burning = some (key, ident) → ∃ t, exec .sealBurnDone s = .next t ∧ t.smu.seals = m.seals ++ [⟨key, ident, false⟩] ∧ t.smu.burning = none
        ∧ t.smu.sealBusy = false ∧ t.smu.staging = [] ∧ t.smu.rnum = m.rnum + 1 ∧ t.out.mevSeal = s.out.mevSeal ++ [⟨1, BitVec.ofNat 3 m.seals.length, m.rnum, 0, ident, m.time⟩]
        ∧ { t with smu := m, out := s.out } = s)
      ∧ (m.roBusy = false → answers (.smuRoCtl v) 0 0 (fun y => y = { m with roPart := v.extractLsb' 0 4, roBusy := v.getLsbD 31, lastRead := none }))
      ∧ (m.roBusy = true → ∃ t, exec .readoutDone s = .next t ∧ { t with smu := m } = s ∧ t.smu.roBusy = false ∧ t.smu.roSeq = m.roSeq + 1
        ∧ t.smu.gapFlags.getLsbD m.roPart.toNat = false ∧ t.smu.counts = m.counts ∧ t.smu.seals = m.seals
        ∧ (let b (i n : Nat) : BitVec n := t.smu.buffer.extractLsb' (8 * i) n
           b 0 8 = 1 ∧ b 1 8 = m.roPart.setWidth 8 ∧ b 2 8 = (if m.seals = [] then 15 else BitVec.ofNat 8 (m.seals.length - 1)) ∧ b 4 32 = m.roSeq + 1 ∧ b 8 64 = m.serial
             ∧ b 16 64 = m.time ∧ b 24 64 = m.nonce ∧ (∀ q, q < 12 → b (32 + 8 * q) 64 = m.count m.roPart.toNat q) ∧ b 128 32 = m.gaps ∧ b 132 32 = m.tamper))

/-- R402, R403, R408, R409, R433: the meter's reports and stored copies. A SEAL report is queued for its permanent record, one whose slot is
recorded is acknowledged at once; a LOCK report is logged and acknowledged; a report with a bad CRC is dropped. Copies are written in turn
with `PSEQ` one higher, and a power-on reset takes up the newer valid one with one gap more; without a valid copy it is a tamper event. That
a slot already recorded is acknowledged at once is the model's reading (log entry 80). -/
def Obligations.MeterReports : Prop :=
  ∀ (s : State) (b : BitVec 224) (r : MReport), s.part.optM = true → s.link.powered = true →
    let m := s.smu
    let open_ := s.boot.inReset = false ∧ s.link.hold = false ∧ s.link.buffer = []
    let acks (t : State) : Prop := ∃ e, t.link = { s.link with seq := s.link.seq + 1, wire := s.link.wire ++ [e] } ∧ e.seq = s.link.seq ∧ e.q = 14
      ∧ e.inc = r.rnum.setWidth 48 ∧ e.crc = linkCrc e.seq e.part e.q e.inc
    let copy (b : Bool) : MeterCopy := if b then m.copyB.getD ⟨0, 0, 0, 0, 0, 0, [], false⟩ else m.copyA.getD ⟨0, 0, 0, 0, 0, 0, [], false⟩
    let takes (isB : Bool) : Prop := ∃ t, exec .smuPor s = .next t ∧ { t with smu := m } = s ∧ t.smu.counts = (copy isB).counts ∧ t.smu.tamper = (copy isB).tamper
      ∧ t.smu.time = (copy isB).time ∧ t.smu.gaps.toNat = Nat.min (2 ^ 32 - 1) ((copy isB).gaps.toNat + 1) ∧ t.smu.gapFlags = 0xFFFF ∧ t.smu.roSeq = (copy isB).roSeq
      ∧ t.smu.pseq = (copy isB).pseq ∧ t.smu.lastSeq = some (copy isB).seq ∧ t.smu.nocopy = false ∧ t.smu.sealWritten = false ∧ t.smu.sealErr = 0 ∧ t.smu.staging = []
      ∧ t.smu.nonce = 0 ∧ t.smu.reports = [] ∧ t.smu.serial = m.serial ∧ t.smu.seals = m.seals ∧ t.smu.copyA = m.copyA ∧ t.smu.copyB = m.copyB
    (reportOf b = none → exec (.sealReport b) s = .next s ∧ exec (.lockReport b) s = .next s)
      ∧ (reportOf b = some r → r.kind = 1 → open_ → s.recorder.nodev = false →
        (Tab.get (BitVec.allOnes 512) s.recorder.permanent (4096 + r.slot.toNat) ≠ BitVec.allOnes 512 → ∃ t, exec (.sealReport b) s = .next t ∧ acks t ∧ { t with link := s.link } = s)
        ∧ (Tab.get (BitVec.allOnes 512) s.recorder.permanent (4096 + r.slot.toNat) = BitVec.allOnes 512 → ∃ t x, exec (.sealReport b) s = .next t
            ∧ t.recorder.seals = s.recorder.seals.filter (fun y => y.1 != r.slot.toNat) ++ [(r.slot.toNat, x, r.rnum)] ∧ x.type = 0x30
            ∧ x.data.extractLsb' 0 8 = r.slot.setWidth 8 ∧ x.data.extractLsb' 32 32 = r.value ∧ x.data.extractLsb' 64 64 = r.stime
            ∧ { t with recorder := { t.recorder with seals := s.recorder.seals } } = s))
      ∧ (reportOf b = some r → r.kind = 2 → open_ → ∃ t e, exec (.lockReport b) s = .next t ∧ acks t ∧ t.Logged s.ras.total e ∧ e.kind = 1 ∧ e.unit = 0xC0
        ∧ e.arg0 = r.waddr.setWidth 32 ∧ e.arg1 = r.value.setWidth 64 ∧ t.recorder.lockRecs = (if s.recorder.lockRecs < 16 then s.recorder.lockRecs + 1 else s.recorder.lockRecs)
        ∧ t.smu = m ∧ t.hw = s.hw)
      ∧ (exec .sealReportResend s = .next { s with out := { s.out with mevSeal := s.out.mevSeal ++ m.reports.filter (fun r => r.kind = 1) } })
      ∧ (∃ t c, exec .meterPersist s = .next t ∧ { t with smu := m } = s ∧ c.valid = true ∧ c.pseq = m.pseq + 1 ∧ c.tamper = m.tamper ∧ c.time = m.time ∧ c.gaps = m.gaps
        ∧ c.roSeq = m.roSeq ∧ c.counts = m.counts ∧ (∀ q, m.lastSeq = some q → c.seq = q)
        ∧ t.smu = if m.nextB then { m with copyB := some c, nextB := false, pseq := m.pseq + 1 } else { m with copyA := some c, nextB := true, pseq := m.pseq + 1 })
      ∧ ((∀ x ∈ m.seals, x.logged = true) → ∀ ca cb : MeterCopy,
        (m.copyA = some ca → ca.valid = true → (m.copyB = none ∨ (m.copyB = some cb ∧ (cb.valid = false ∨ 2 ^ 31 ≤ (cb.pseq - ca.pseq).toNat))) → takes false)
        ∧ (m.copyB = some cb → cb.valid = true → (m.copyA = none ∨ (m.copyA = some ca ∧ (ca.valid = false ∨ (cb.pseq - ca.pseq).toNat < 2 ^ 31))) → takes true))
      ∧ ((∀ x ∈ m.seals, x.logged = true) → (∀ c, m.copyA = some c ∨ m.copyB = some c → c.valid = false) → ∃ t, exec .smuPor s = .next t ∧ { t with smu := m } = s
        ∧ t.smu.nocopy = true ∧ t.smu.tamper = 1 ∧ t.smu.gaps = 1 ∧ t.smu.seals = m.seals ∧ (∀ p q, q < 16 → t.smu.count p q = if p < 16 ∧ q = 11 then 1 else 0))


/-! Memory ports, fabric and peers -/

/-- R353, R355 to R357, R381: a credit return raises its count by one, to at most 255. A request goes out with a free tag of its kind against
its credits, a light-weight one before the others (R197), and none goes without. The return of a read and the completion of a write free the
tag, and an error is counted; a write's bytes land in memory and no other byte changes; what a write that met an error leaves in its own bytes
is open. The responses to requests abandoned by a reset free no tag. Which free tag a request takes, and that a light-weight request without
credits holds back the port, are the model's choices (log entries 26, 65). -/
def Obligations.MemoryPorts : Prop :=
  ∀ (s : State) (k : Fin 16), s.boot.inReset = false → s.boot.fatal = false →
    let p := s.port k.val
    let beats (r : Req) : Nat := (r.len + 127) / 128
    let lowest (t : Tab (Option Req)) (lo hi tag : Nat) : Prop := lo ≤ tag ∧ tag < hi ∧ Tab.get none t tag = none ∧ ∀ j, lo ≤ j → j < tag → Tab.get none t j ≠ none
    let free (r : Req) (tag : Nat) : Prop :=
      if r.wr then lowest p.writes (if r.use.cls.isSome then 0 else 16) 512 tag else lowest p.reads (if r.use.cls.isSome then 0 else 32) 1024 tag
    let backed (r : Req) : Prop := if r.wr then 1 ≤ p.wc ∧ beats r ≤ p.wd else 1 ≤ p.rc
    let sent (r : Req) (tag : Nat) (x : Port) : Port :=
      if r.wr then { x with wc := p.wc - 1, wd := p.wd - beats r, writes := Tab.set none p.writes tag (some r) }
      else { x with rc := p.rc - 1, reads := Tab.set none p.reads tag (some r) }
    (∃ t, exec (.readCommandCredit k) s = .next t ∧ s.PortOnly t k.val { p with rc := Nat.min 255 (p.rc + 1) })
      ∧ (∃ t, exec (.writeCommandCredit k) s = .next t ∧ s.PortOnly t k.val { p with wc := Nat.min 255 (p.wc + 1) })
      ∧ (∃ t, exec (.writeDataCredit k) s = .next t ∧ s.PortOnly t k.val { p with wd := Nat.min 255 (p.wd + 1) })
      ∧ (∀ (r : Req) (tag : Nat), s.fast = true → s.linkFull = false → s.lightNext k.val = none → p.waiting = [r] → r.part < 16 → r.use.cls = none →
        s.tr.acc.getLsbD 63 = false →
        (backed r → free r tag → ∃ t y, exec (.memoryRequestIssue k) s = .next t ∧ s.PortOnly t k.val y
          ∧ { y with rr := p.rr, deficit := p.deficit } = sent r tag { p with waiting := [] })
        ∧ (¬ backed r → exec (.memoryRequestIssue k) s = .next s))
      ∧ (∀ (r : Req) (tag : Nat), s.fast = true → s.linkFull = false → s.lightNext k.val = some (true, r) →
        (backed r → free r tag → ∃ t, exec (.memoryRequestIssue k) s = .next t ∧ t.port k.val = sent r tag p ∧ (∀ j, j ≠ k.val → t.port j = s.port j)
          ∧ { t with ports := s.ports } = { s with hw := { s.hw with light := s.hw.light.erase (true, r) } })
        ∧ (¬ backed r → exec (.memoryRequestIssue k) s = .next s))
      ∧ (∀ (r : Req) (tag : BitVec 10) (n e part : Nat), Tab.get none p.reads tag.toNat = some r → r.use = .stream n e part → s.part.optM = false →
        ∃ t, exec (.readReturn k tag 0) s = .next t ∧ t.port k.val = { p with reads := Tab.set none p.reads tag.toNat none } ∧ (∀ j, j ≠ k.val → t.port j = s.port j)
          ∧ t.mem = s.mem ∧ (∀ j, j ≠ n → t.cluster j = s.cluster j) ∧ t.pairs = s.pairs
          ∧ ((∀ q ∈ (s.cluster n).queue, q.tag ≠ e) → r.cache = false → t.clusters = s.clusters ∧ t.hw = s.hw))
      ∧ (∀ (r : Req) (tag : BitVec 10), Tab.get none p.reads tag.toNat = some r → s.part.optM = false →
        ((∃ n opid seg page, r.use = .builtin n opid seg page ∧ r.cache = false) ∨ (∃ g, r.use = .groupCopy g) ∨ (∃ opid, r.use = .opCopy opid)) →
        ∃ t, exec (.readReturn k tag 0) s = .next t ∧ s.PortOnly t k.val { p with reads := Tab.set none p.reads tag.toNat none })
      ∧ (∀ (r : Req) (tag : BitVec 9) (n e part : Nat), Tab.get none p.writes tag.toNat = some r → r.use = .stream n e part →
        ∃ t, exec (.writeCompletion k tag 0) s = .next t ∧ t.port k.val = { p with writes := Tab.set none p.writes tag.toNat none } ∧ (∀ j, j ≠ k.val → t.port j = s.port j)
          ∧ (∀ i, i < r.data.length → byteAt t.mem (r.pa + i) = r.data.getD i 0) ∧ (∀ a, a < r.pa ∨ r.pa + r.data.length ≤ a → byteAt t.mem a = byteAt s.mem a)
          ∧ (t.cluster n).queue = (s.cluster n).queue.map (fun q => if q.tag = e then { q with left := q.left - 1, landed := s.clk.tick } else q)
          ∧ (∀ j, j ≠ n → t.cluster j = s.cluster j) ∧ { t with ports := s.ports, clusters := s.clusters, mem := s.mem } = s)
      ∧ (∀ (r : Req) (tag : BitVec 10) (n e part : Nat) (stat : BitVec 2), Tab.get none p.reads tag.toNat = some r → r.use = .stream n e part → stat ≠ 0 →
        ∃ t, exec (.readReturn k tag stat) s = .next t ∧ (t.port k.val).errs.toNat = Nat.min 65535 (p.errs.toNat + 1) ∧ Tab.get none (t.port k.val).reads tag.toNat = none
          ∧ (∀ q, (s.cluster n).queue = [q] → q.tag = e →
            t.Logged s.ras.total ⟨s.clk.tick, 0x0A, some r.part, false, 2, BitVec.ofNat 8 (0x90 + k.val), q.opid, if stat = 1 then 1 else 2, BitVec.ofNat 64 r.va⟩))
      ∧ (∀ (r : Req) (tag : BitVec 9) (n e part : Nat) (stat : BitVec 2), Tab.get none p.writes tag.toNat = some r → r.use = .stream n e part → stat ≠ 0 →
        ∃ t, exec (.writeCompletion k tag stat) s = .next t ∧ (t.port k.val).errs.toNat = Nat.min 65535 (p.errs.toNat + 1) ∧ Tab.get none (t.port k.val).writes tag.toNat = none
          ∧ (∀ a, a < r.pa ∨ r.pa + r.len ≤ a → byteAt t.mem a = byteAt s.mem a)
          ∧ (∀ q, (s.cluster n).queue = [q] → q.tag = e →
            t.Logged s.ras.total ⟨s.clk.tick, 0x0A, some r.part, false, 2, BitVec.ofNat 8 (0x90 + k.val), q.opid, if stat = 1 then (if r.wr then 5 else 1) else (if r.wr then 6 else 2),
              BitVec.ofNat 64 r.va⟩))
      ∧ (∀ (r : Req), r.use = .abandoned → (∀ (tag : BitVec 10) (stat : BitVec 2), Tab.get none p.reads tag.toNat = some r → exec (.readReturn k tag stat) s = .next s)
        ∧ (∀ (tag : BitVec 9) (stat : BitVec 2), Tab.get none p.writes tag.toNat = some r → ∃ t, exec (.writeCompletion k tag stat) s = .next t
            ∧ Tab.get none (t.port k.val).writes tag.toNat ≠ none ∧ t.clusters = s.clusters ∧ t.hw = s.hw))

/-- R353, R355, R357: the six rows of a memory port, each in one step: a credit joins the port's count; the one request that waits leaves the
port's queue; a response to a stream's request gives its tag back. No other port changes. -/
def Obligations.PortRowsComplete : Prop :=
  ∀ (s : State) (k : Fin 16), s.boot.inReset = false → s.boot.fatal = false →
    let p := s.port k.val
    let others (t : State) : Prop := ∀ j, j ≠ k.val → t.port j = s.port j
    (∃ t, exec (.readCommandCredit k) s = .next t ∧ (t.port k.val).rc = Nat.min 255 (p.rc + 1) ∧ others t)
      ∧ (∃ t, exec (.writeCommandCredit k) s = .next t ∧ (t.port k.val).wc = Nat.min 255 (p.wc + 1) ∧ others t)
      ∧ (∃ t, exec (.writeDataCredit k) s = .next t ∧ (t.port k.val).wd = Nat.min 255 (p.wd + 1) ∧ others t)
      ∧ (∀ (r : Req) (tag : Nat), s.fast = true → s.linkFull = false → s.lightNext k.val = none → p.waiting = [r] → r.part < 16 → p.canSend r = some tag →
        ∃ t, exec (.memoryRequestIssue k) s = .next t ∧ (t.port k.val).waiting = [] ∧ others t
          ∧ (if r.wr then Tab.get none (t.port k.val).writes tag else Tab.get none (t.port k.val).reads tag) = some r)
      ∧ (∀ (r : Req) (tag : BitVec 10) (n e part : Nat), Tab.get none p.reads tag.toNat = some r → r.use = .stream n e part →
        ∃ t, exec (.readReturn k tag 0) s = .next t ∧ Tab.get none (t.port k.val).reads tag.toNat = none ∧ others t)
      ∧ (∀ (r : Req) (tag : BitVec 9) (n e part : Nat), Tab.get none p.writes tag.toNat = some r → r.use = .stream n e part →
        ∃ t, exec (.writeCompletion k tag 0) s = .next t ∧ Tab.get none (t.port k.val).writes tag.toNat = none ∧ others t)

/-- R358 to R362: a flit takes one credit of its in-port. One that arrives while the block sleeps, of a reserved kind, or of a FREE sequence
is discarded, counted and logged, and its credit returned; the flits of a tile that stands collect in staging up to `EOT`. Without a credit
no flit comes. Credits that a receiver returns raise an out-port's count, to at most 4,096. ARG1 of the entry of a discarded flit is the
model's reading (log entry 84). -/
def Obligations.FabricFlow : Prop :=
  ∀ (s : State) (f : Flit) (port : Fin 8) (cnt : BitVec 4), s.boot.inReset = false → s.boot.fatal = false → s.hw.ops = [] →
    let k := f.port.val
    let cred := Tab.get 0 s.fab.inCred k
    let tile : FTile := ⟨f.part.val, f.sqid, f.layer, leBytes (if f.eot = true ∧ f.bytes ≠ 0 then f.bytes.toNat else 128) f.data.toNat⟩
    let credited (t : State) (n : Nat) : Prop := (∀ j, j ≠ k → Tab.get 0 t.fab.inCred j = Tab.get 0 s.fab.inCred j) ∧ Tab.get 0 t.fab.inCred k = n
    let discards (cause : W32) (lost : Bool) : Prop := ∃ t e, exec (.flit f) s = .next t ∧ credited t cred ∧ t.fab.stagedT = s.fab.stagedT ∧ t.Logged s.ras.total e
      ∧ e.kind = 0x0D ∧ e.unit = BitVec.ofNat 8 (0xA0 + k) ∧ e.arg0 = cause ∧ e.part = some f.part.val
      ∧ t.glob = { s.glob with fabLost := t.glob.fabLost, fabBad := t.glob.fabBad } ∧ t.hw = s.hw ∧ t.clusters = s.clusters ∧ t.mem = s.mem
      ∧ t.glob.fabLost.toNat = (if lost then Nat.min 65535 (s.glob.fabLost.toNat + 1) else s.glob.fabLost.toNat)
      ∧ t.glob.fabBad.toNat = (if lost then s.glob.fabBad.toNat else Nat.min 65535 (s.glob.fabBad.toNat + 1)) ∧ (lost = true → 2 ≤ s.boot.stage → t.clk.waking = true)
    (f.kind ≠ 1 → cred = 0 → exec (.flit f) s = .next s)
      ∧ (f.kind ≠ 1 → 1 ≤ cred → cred ≤ 512 → s.clk.awake = false → discards 4 true)
      ∧ (f.kind ≠ 1 → 1 ≤ cred → cred ≤ 512 → s.clk.awake = true → f.kind ≠ 0 → discards 1 false)
      ∧ (f.kind = 0 → 1 ≤ cred → cred ≤ 512 → s.clk.awake = true → f.sot = true → Tab.get none s.fab.partialT k = none → (s.seq f.part.val f.sqid.toNat).st = .free → discards 2 false)
      ∧ (f.kind = 0 → 1 ≤ cred → s.clk.awake = true → f.sot = true → Tab.get none s.fab.partialT k = none → (s.seq f.part.val f.sqid.toNat).st ≠ .free →
        (∀ x ∈ s.hw.staged, fiEn x.cmd = false) → ∃ t, exec (.flit f) s = .next t ∧ credited t (cred - 1) ∧ { t with fab := s.fab } = s
          ∧ (f.eot = true → Tab.get [] t.fab.stagedT k = Tab.get [] s.fab.stagedT k ++ [(tile, 1)] ∧ Tab.get none t.fab.partialT k = none)
          ∧ (f.eot = false → t.fab.stagedT = s.fab.stagedT ∧ Tab.get none t.fab.partialT k = some (tile, 1, false)))
      ∧ (f.kind = 0 → 1 ≤ cred → s.clk.awake = true → f.sot = false → f.eot = false → ∀ (x : FTile) (n : Nat), Tab.get none s.fab.partialT k = some (x, n, false) → n < 511 →
        (s.seq x.part x.sqid.toNat).st ≠ .free → ∃ t, exec (.flit f) s = .next t ∧ credited t (cred - 1) ∧ { t with fab := s.fab } = s
          ∧ Tab.get none t.fab.partialT k = some ({ x with data := x.data ++ tile.data }, n + 1, false))
      ∧ (1 ≤ cnt.toNat → cnt.toNat ≤ 8 → ∃ t, exec (.fabricCredit port cnt) s = .next t
        ∧ Tab.get 0 t.fab.outCred port.val = Nat.min 4096 (Tab.get 0 s.fab.outCred port.val + cnt.toNat) ∧ (∀ j, j ≠ port.val → Tab.get 0 t.fab.outCred j = Tab.get 0 s.fab.outCred j)
        ∧ (Tab.get [] s.fab.outWait port.val = [] → t = { s with fab := { s.fab with outCred := t.fab.outCred } }))

/-- R154, R325, R363 to R366: messages of peers. CREDIT lets the block write one slot, and a partial that waits for one leaves as a WRITE against
it; WITHDRAW voids a window's credits and is acknowledged; ACK ends the fill of a slot, or the wait of the operation whose partial filled it;
NACK is counted and nothing is sent again; STALE restores the credit and the partial is sent again; the withdrawal of a window is complete at
WITHDRAW_ACK or its time-out. A WRITE lands in its slot and is acknowledged, or is returned STALE under another role epoch, or refused with
its reason. Without option P every message is refused with reason 3. In which order slots become full is the model's reading (log entry 85),
and so is which peer an operation's partials go to (log entry 129). -/
def Obligations.PeerMessages : Prop :=
  ∀ (s : State) (h : PeerHdr) (t : PTile) (w : W16), s.fast = true →
    let n := h.window.toNat / 256 % 32
    let c := s.cluster n
    let credit : PeerCredit := ⟨h.window, h.slot.toNat, h.bytes.toNat, h.srcId, h.epoch, h.opid⟩
    let held := s.peer.held.filter (fun y => !(y.window = credit.window && y.slot = credit.slot && y.peer = credit.peer)) ++ [credit]
    let answer (u : State) (type : Nat) (reason : Byte) : Prop := ∃ a, u.peer.sent = s.peer.sent ++ [(type, a, [])] ∧ a.reason = reason ∧ a.srcId = s.glob.peerId
      ∧ a.dstId = h.srcId ∧ a.window = h.window
    let nacks (m : Instr) (reason : Byte) : Prop := ∃ u, exec m s = .next u ∧ answer u 4 reason ∧ u.glob.nackSent.toNat = Nat.min (2 ^ 32 - 1) (s.glob.nackSent.toNat + 1)
      ∧ u.clusters = s.clusters ∧ u.hw = s.hw ∧ u.peer.windows = s.peer.windows ∧ u.peer.held = s.peer.held
    let here := s.part.optP = true ∧ s.glob.peerEnable = true
    let quiet := here ∧ ∀ o ∈ s.hw.ops, o.sends = false ∧ o.unacked = []
    let bytes := (tileBytes t).take h.bytes.toNat
    (s.part.optP = false → nacks (.credit h) 3 ∧ nacks (.write h t) 3 ∧ nacks (.ack h) 3 ∧ nacks (.nack h) 3 ∧ nacks (.stale h t) 3 ∧ nacks (.withdraw h) 3 ∧ nacks (.withdrawAck h) 3)
      ∧ (quiet → exec (.credit h) s = .next { s with peer := { s.peer with held := held } })
      ∧ (∀ (o : Op) (x : PTile), here → s.hw.ops = [o] → o.sends = true → o.outq = [] → o.sendq = [x] → o.unacked = [] → s.peer.held = [] →
        h.srcId = Config.freePeer o.opid.toNat → 40 + 4 * x.dim ≤ h.bytes.toNat → x.rows.length ≤ 64 → 32 + x.rows.length * (8 + 4 * x.dim) ≤ h.bytes.toNat →
        ∃ u a, exec (.credit h) s = .next u ∧ u.peer = { s.peer with sent := s.peer.sent ++ [(2, a, tileBytes { x with opid := h.opid })] } ∧ a.dstId = h.srcId
          ∧ a.window = h.window ∧ a.slot = h.slot ∧ a.epoch = h.epoch ∧ a.opid = h.opid ∧ u.hw = { s.hw with ops := [{ o with sendq := [], unacked := [(h.window, h.slot.toNat)] }] }
          ∧ u.clusters = s.clusters ∧ u.mem = s.mem)
      ∧ (∀ o : Op, here → s.hw.ops = [o] → o.unacked = [(h.window, h.slot.toNat)] → o.outq = [] → o.fin = false → (∀ k ∈ s.clusters, k.2.queue = []) →
        let s' : State := { s with hw := { s.hw with ops := [{ o with unacked := [] }] } }
        exec (.ack h) s = .next s' ∧ ∃ y, exec (.nack h) s = .next { s' with glob := { s.glob with nackRcvd := y } } ∧ y.toNat = Nat.min (2 ^ 32 - 1) (s.glob.nackRcvd.toNat + 1))
      ∧ (quiet → ∃ u, exec (.nack h) s = .next u ∧ u = { s with glob := { s.glob with nackRcvd := u.glob.nackRcvd } }
        ∧ u.glob.nackRcvd.toNat = Nat.min (2 ^ 32 - 1) (s.glob.nackRcvd.toNat + 1))
      ∧ (quiet → (s.op t.opid = none → exec (.stale h t) s = .next { s with peer := { s.peer with held := held } })
        ∧ (∀ o, s.op t.opid = some o → ∃ k, exec (.stale h t) s = .next { s with peer := { s.peer with held := held, resent := s.peer.resent ++ [(k, t)] } }))
      ∧ (here → ∃ u, exec (.withdraw h) s = .next u ∧ u.peer.held = s.peer.held.filter (fun x => !(x.window = h.window && x.peer = h.srcId)) ∧ answer u 7 0 ∧ { u with peer := s.peer } = s)
      ∧ (here → exec (.withdrawAck h) s = .next { s with peer := { s.peer with windows := s.peer.windows.filter (fun x => !(x.window = h.window && x.withdrawing)) } })
      ∧ (exec (.withdrawTimeout w) s = .next { s with peer := { s.peer with windows := s.peer.windows.filter (fun x => !(x.window = w && x.withdrawing)) } })
      ∧ (here → ∀ (k : Nat) (x : Cluster) (e : QEnt) (v : BitVec 512) (fl : Fill), s.clusters = [(k, x)] → x.queue = [e] → e.work = .sx v →
        (SDesc.ofBits v).kind = 5 → (SDesc.ofBits v).dstAddr = h.window.toNat → e.fills = [fl] → fl.slot = h.slot.toNat →
        ∃ u, exec (.ack h) s = .next u ∧ s.ClusterOnly u k { x with queue := [{ e with landed := s.clk.tick, fills := [] }] })
      ∧ (here → h.epoch ≠ c.roleEpoch ∨ c.clearing = true → ∃ u a, exec (.write h t) s = .next u ∧ u.peer.sent = s.peer.sent ++ [(5, a, tileBytes t)] ∧ a.dstId = h.srcId
        ∧ a.slot = h.slot ∧ a.window = h.window ∧ a.epoch = h.epoch ∧ (u.cluster n).stale.toNat = Nat.min (2 ^ 32 - 1) (c.stale.toNat + 1)
        ∧ { u.cluster n with stale := c.stale } = c ∧ (∀ j, j ≠ n → u.cluster j = s.cluster j) ∧ u.hw = s.hw ∧ u.peer.windows = s.peer.windows)
      ∧ (here → h.epoch = c.roleEpoch → c.clearing = false → (∀ x ∈ s.peer.windows, x.window ≠ h.window) → nacks (.write h t) 4)
      ∧ (∀ x : Win, here → h.epoch = c.roleEpoch → c.clearing = false → s.peer.windows = [x] → x.window = h.window →
        (x.sender ≠ h.srcId → nacks (.write h t) 4) ∧ (x.sender = h.srcId → x.withdrawing = true → nacks (.write h t) 5)
        ∧ (x.sender = h.srcId → x.withdrawing = false → h.slot.toNat ∉ x.credited → nacks (.write h t) 1)
        ∧ (x.sender = h.srcId → x.withdrawing = false → h.slot.toNat ∈ x.credited → x.slotBytes < h.bytes.toNat → nacks (.write h t) 2)
        ∧ (x.sender = h.srcId → x.withdrawing = false → h.slot.toNat ∈ x.credited → h.bytes.toNat ≤ x.slotBytes → s.op t.opid = none →
          let base := hStart (c.handle (h.window.toNat % 256)) + h.slot.toNat * hSlotBytes (c.handle (h.window.toNat % 256))
          ∃ u a rest, exec (.write h t) s = .next u ∧ u.peer.sent = s.peer.sent ++ (3, a, []) :: rest ∧ a.dstId = h.srcId ∧ a.window = h.window ∧ a.slot = h.slot ∧ a.opid = h.opid
            ∧ (∀ i, i < bytes.length → byteAt (u.cluster n).spm (base + i) = bytes.getD i 0)
            ∧ (∀ i, i < base ∨ base + bytes.length ≤ i → byteAt (u.cluster n).spm i = byteAt c.spm i) ∧ (∀ j, j ≠ n → u.cluster j = s.cluster j)
            ∧ u.glob.nackSent = s.glob.nackSent ∧ u.hw = s.hw ∧ u.mem = s.mem))


/-! Faults, records and test access -/

/-- R168, R182, R412 to R414, R422: what the scrubber finds. A single-bit error is corrected and counted; the fourth of a scratchpad row
maps the row to the next spare, and with no spare left the cluster is mapped out. A double-bit error repairs a scratchpad row whose cell
then is poisoned, drops a TLB or cache entry, ends a built-in operation that uses its cluster CHECK_FAILED, and in both copies of a
duplicated table is fatal. Memories that the rules give no action of their own are log entry 82. -/
def Obligations.SramErrors : Prop :=
  ∀ (s : State) (u : SramUnit) (addr : W32) (n : Fin 32) (bank : Fin 64) (row : Nat), s.boot.inReset = false → s.boot.fatal = false →
    let c := s.cluster n.val
    let key := bank.val * 1536 + row
    let k := s.sparesUsed n.val bank.val
    let seen := Tab.get 0 c.corrected key + 1
    let ce := Nat.min (2 ^ 32 - 1) (s.ras.ce + 1)
    let pad : SramUnit := .scratchpad n bank row
    let room := s.recorder.nodev = false ∧ s.recorder.queue.length < 64
    let used : Tab Nat := Tab.set 0 c.spares bank.val (Tab.get 0 c.spares bank.val + 1)
    let fixed : Cluster := { c with spares := used, fieldRep := Nat.min 65535 (c.fieldRep + 1), repairs := c.repairs ++ [(bank.val, row, k)], corrected := Tab.set 0 c.corrected key 0 }
    let repaired (t : State) (poisoned : List Nat) : Prop := t.cluster n.val = { fixed with poisoned := poisoned }
      ∧ (∀ j, j ≠ n.val → t.cluster j = s.cluster j)
      ∧ t.Logged s.ras.total ⟨s.clk.tick, 0x08, none, false, 1, BitVec.ofNat 8 n.val, 0, BitVec.ofNat 32 (bank.val + 64 * row), BitVec.ofNat 64 k⟩
      ∧ (room → ∃ r, t.recorder.queue = s.recorder.queue ++ [r] ∧ r.type = 0x15 ∧ r.cls = 1 ∧ t.mem = s.mem) ∧ t.hw = s.hw ∧ t.pairs = s.pairs
    exec (.sramScrub .clean) s = .next s
      ∧ ((∀ m b r, u ≠ .scratchpad m b r) → exec (.sramScrub (.single u addr)) s = .next { s with ras := { s.ras with ce := ce } })
      ∧ (seen < 4 → ∃ t, exec (.sramScrub (.single pad addr)) s = .next t ∧ t.ras = { s.ras with ce := ce }
        ∧ t.cluster n.val = { c with corrected := Tab.set 0 c.corrected key seen } ∧ { t with ras := s.ras, clusters := s.clusters } = s ∧ ∀ j, j ≠ n.val → t.cluster j = s.cluster j)
      ∧ (4 ≤ seen → k < 32 → ∃ t, exec (.sramScrub (.single pad addr)) s = .next t ∧ t.ras.ce = ce ∧ repaired t c.poisoned)
      ∧ (4 ≤ seen → 32 ≤ k → ∃ t, exec (.sramScrub (.single pad addr)) s = .next t ∧ t.ras.clOut.getLsbD n.val = true ∧ (s.ras.clOut.getLsbD n.val = false → t.boot.svc.getLsbD n.val = false))
      ∧ (k < 32 → ∃ t x, exec (.sramScrub (.double pad addr)) s = .next t ∧ t.ras.ce = s.ras.ce ∧ repaired t x
        ∧ x = if s.boot.svc.getLsbD n.val then c.poisoned ++ [cellAt bank.val row] else c.poisoned)
      ∧ (∀ j : Fin 16, ∃ t, exec (.sramScrub (.double (.tlb j) addr)) s = .next t ∧ { t with tr := { t.tr with tlbs := s.tr.tlbs } } = s
        ∧ Tab.get [] t.tr.tlbs j.val = (Tab.get [] s.tr.tlbs j.val).take addr.toNat ++ (Tab.get [] s.tr.tlbs j.val).drop (addr.toNat + 1)
        ∧ ∀ i, i ≠ j.val → Tab.get [] t.tr.tlbs i = Tab.get [] s.tr.tlbs i)
      ∧ (∃ t, exec (.sramScrub (.double (.cacheTag n) addr)) s = .next t ∧ s.ClusterOnly t n.val { c with cache := c.cache.take addr.toNat ++ c.cache.drop (addr.toNat + 1) })
      ∧ (∀ o, s.hw.ops = [o] → opcodeOf o.cmd ≠ 0x0F → o.st = .running → o.clusters.getLsbD n.val = true → ∃ t, exec (.sramScrub (.double (.clusterOther n) addr)) s = .next t
        ∧ t.hw.ops = [] ∧ t.Logged s.ras.total ⟨s.clk.tick, 0x09, some o.part, false, 2, BitVec.ofNat 8 n.val, o.opid, addr, 0⟩)
      ∧ (exec (.sramScrub (.double (.duplicated false) addr)) s = .next s)
      ∧ (∃ t, exec (.sramScrub (.double (.duplicated true) addr)) s = .next t ∧ t.boot.fatal = true ∧ t.boot.fcause = 5 ∧ t.clk.awake = false ∧ t.hw = s.hw ∧ t.clusters = s.clusters)

/-- R416 to R420, R438: a mismatch stops its pair until its self-test passes and a second within its last 1,000 operations maps it out; a
comparator or delay register that fails stops the pair, logs each operation it served, stops their partitions and maps the pair out with its
clusters; a passed self-test empties the list. The management pair's mismatch is logged, and its third failed self-test in a row is fatal. A
cluster that is mapped out leaves service, cleared, with its role epoch raised. The entries that a failed comparator makes, and their order,
are the model's reading (log entry 83). -/
def Obligations.PairAndClusterFaults : Prop :=
  ∀ (s : State) (sp : Fin 8) (n : Fin 32) (reason : Byte), s.fast = true → sp.val < s.nPairs → s.ras.pairOut.getLsbD sp.val = false →
    let x := s.pair sp.val
    let unit := BitVec.ofNat 8 (0x40 + sp.val)
    let fails (c : Instr) (kind : Nat) : Prop := ∃ t, exec c s = .next t ∧ (t.pair sp.val).lsFail = true ∧ (t.pair sp.val).st = .stopped
      ∧ t.ras.pairOut.getLsbD sp.val = true ∧ (∀ k, k ≠ sp.val → (t.pair k).lsFail = (s.pair k).lsFail) ∧ (∀ k, k < 4 → t.boot.svc.getLsbD (4 * sp.val + k) = false ∨ s.ras.clOut.getLsbD (4 * sp.val + k) = true)
      ∧ (∀ e, x.served = [e] → s.hw.ops = [] → e.part < 16 → t.ras.pstop.getLsbD e.part = true
        ∧ t.Logged s.ras.total ⟨s.clk.tick, 0x14, some e.part, false, 3, unit, e.opid, BitVec.ofNat 32 e.ring, BitVec.ofNat 64 e.idx.toNat⟩
        ∧ t.Logged (s.ras.total + 1) ⟨s.clk.tick, 0x13, none, false, 3, unit, 0, BitVec.ofNat 32 (sp.val + 8 * kind), x.lastTest⟩)
    (∃ t y, exec (.comparatorSelfTest (some sp) true) s = .next t ∧ s.PairOnly t sp.val y ∧ y.served = [] ∧ y.sinceTest = 0 ∧ y.lastTest = s.clk.tick ∧ y.testDue = false
        ∧ (x.testDue = true → x.st = .stopped → x.lsFail = false → y.st = if x.op.isSome then .running else .idle)
        ∧ (x.testDue = false ∨ x.st ≠ .stopped ∨ x.lsFail = true → y.st = x.st)
        ∧ { y with served := x.served, sinceTest := x.sinceTest, lastTest := x.lastTest, testDue := x.testDue, st := x.st } = x)
      ∧ fails (.comparatorSelfTest (some sp) false) 2 ∧ fails (.delayRegisterParityError sp) 3
      ∧ (exec (.comparatorSelfTest none true) s = .next { s with ras := { s.ras with mgmtFails := 0 } })
      ∧ (s.ras.mgmtFails < 2 → exec (.comparatorSelfTest none false) s = .next { s with ras := { s.ras with mgmtFails := s.ras.mgmtFails + 1 } })
      ∧ (2 ≤ s.ras.mgmtFails → ∃ t, exec (.comparatorSelfTest none false) s = .next t ∧ t.boot.fatal = true ∧ t.boot.fcause = 4)
      ∧ (∃ t, exec (.lockstepMismatch sp) s = .next t ∧ (t.pair sp.val).testDue = true ∧ (t.pair sp.val).st = .stopped
        ∧ (s.hw.ops = [] → t.Logged s.ras.total ⟨s.clk.tick, 0x13, none, false, 2, unit, 0, BitVec.ofNat 32 (sp.val + 8), x.lastTest⟩)
        ∧ (s.opsOfPair sp.val = [] → (∀ k ∈ x.mismatches, k + 1000 ≤ x.servedTotal) → { t with pairs := s.pairs, ras := s.ras } = s ∧ t.ras.pairOut = s.ras.pairOut)
        ∧ (∀ k ∈ x.mismatches, x.servedTotal < k + 1000 → t.ras.pairOut.getLsbD sp.val = true)
        ∧ (∀ o, s.hw.ops = [o] → x.op = some o.opid → opcodeOf o.cmd ≠ 0x0F → t.hw.ops = []))
      ∧ ((∀ y ∈ s.hw.staged, y.st = .backlog) → ∃ t, exec .mgmtPairMismatch s = .next t ∧ s.Notes t ⟨s.clk.tick, 0x18, none, false, 1, 0x80, 0, 0, 0⟩)
      ∧ (s.boot.svc.getLsbD n.val = true → s.ras.clOut.getLsbD n.val = false → 1 ≤ reason.toNat → reason.toNat ≤ 5 → (∀ o ∈ s.hw.ops, opcodeOf o.cmd = 0x0F → o.clusters.getLsbD n.val = false) →
        ∃ t, exec (.clMapout n reason) s = .next t ∧ (∀ k, k < 32 → t.ras.clOut.getLsbD k = (s.ras.clOut.getLsbD k || decide (k = n.val)) ∧ t.boot.svc.getLsbD k = (s.boot.svc.getLsbD k && decide (k ≠ n.val)))
          ∧ (t.cluster n.val).roleEpoch = (s.cluster n.val).roleEpoch + 1 ∧ (t.cluster n.val).spm = [] ∧ (t.cluster n.val).handles = [] ∧ (t.cluster n.val).queue = []
          ∧ (∀ k, k ≠ n.val → ∃ lines h m, t.cluster k = { s.cluster k with cache := lines, hits := h, misses := m }) ∧ t.clk.clkOn.getLsbD n.val = false
          ∧ t.Logged s.ras.total ⟨s.clk.tick, 0x07, none, false, 1, BitVec.ofNat 8 n.val, 0, BitVec.ofNat 32 (0x12 + reason.toNat * 2 ^ 16), 0⟩
          ∧ (s.recorder.nodev = false → s.recorder.queue.length < 64 → ∃ r, t.recorder.queue = s.recorder.queue ++ [r] ∧ r.type = 0x12))

/-- R384, R386, R429 to R434: TIME makes its record; the calendar time advances by one; a record that has been programmed is in the
circulating area and, while it has room, in the permanent area, under the next `RSEQ`, and leaves the queue. The instructions of the TAP
stand in its instruction register; an instrument in use makes records carry calendar time and is logged. That a boundary instruction counts
as an instrument in use and is logged is the model's choice (log entry 94). -/
def Obligations.RecordsAndTestAccess : Prop :=
  ∀ (s : State) (k : Fin 5),
    let r := s.recorder
    let selects (c : Instr) (ir : Byte) : Prop := exec c s = .next { s with tap := ⟨ir, none⟩, recorder := { r with testInUse := false } }
    let boundary (c : Instr) (ir : Byte) : Prop := ∃ t e, exec c s = .next t ∧ t.tap = ⟨ir, none⟩ ∧ t.recorder = { r with testInUse := true } ∧ t.Logged s.ras.total e
      ∧ e.kind = 0x10 ∧ e.cls = 0 ∧ t.ras.total = s.ras.total + 1 ∧ t.hw = s.hw ∧ t.clusters = s.clusters ∧ t.mem = s.mem
    (s.boot.inReset = false → r.nodev = false → r.queue.length < 64 → ∃ t x, exec .time s = .next t ∧ t = { s with recorder := { r with queue := r.queue ++ [x] } } ∧ x.type = 0x04
        ∧ x.cls = 0 ∧ x.data.extractLsb' 0 64 = r.utc ∧ x.calendar = (decide (s.boot.stage < 4) || r.testInUse || r.cal))
      ∧ (s.boot.inReset = false → exec .recUtcAdvance s = .next { s with recorder := { r with utc := r.utc + 1 } })
      ∧ (∀ (x : Rec) (q : List Rec), s.boot.inReset = false → r.nodev = false → r.seals = [] → r.queue = x :: q → r.repairFull = true →
        ∃ t w, exec .recordProgramDone s = .next t ∧ { t with recorder := r } = s ∧ t.recorder.queue = q ∧ t.recorder.rseq = r.rseq + 1
          ∧ Tab.get erasedSlot t.recorder.circulating r.nextCirc = w ∧ t.recorder.nextCirc = (r.nextCirc + 1) % 65600
          ∧ (r.nextPerm < 4096 → Tab.get erasedSlot t.recorder.permanent r.nextPerm = w ∧ t.recorder.nextPerm = r.nextPerm + 1)
          ∧ (4096 ≤ r.nextPerm → t.recorder.permanent = r.permanent)
          ∧ w.extractLsb' 0 32 = r.rseq ∧ w.extractLsb' 32 16 = x.type ∧ w.extractLsb' 128 256 = x.data ∧ w.extractLsb' 384 32 = x.opid ∧ w.extractLsb' 504 8 = 0x5A)
      ∧ (∀ (slot : Nat) (x : Rec) (rnum : W16) (l : List (Nat × Rec × W16)), s.boot.inReset = false → r.nodev = false → r.seals = (slot, x, rnum) :: l → s.part.optM = true →
        s.link.hold = false → s.link.powered = true → s.link.buffer = [] → ∃ t e, exec .recordProgramDone s = .next t ∧ t.recorder.seals = l ∧ t.recorder.queue = r.queue
          ∧ (Tab.get erasedSlot t.recorder.permanent (4096 + slot)).extractLsb' 32 16 = x.type ∧ t.link.wire = s.link.wire ++ [e] ∧ e.q = 14 ∧ e.inc = rnum.setWidth 48)
      ∧ selects .bypass 0xFF ∧ selects .idcode 0x01 ∧ selects .ijtagAccess 0x10 ∧ boundary .samplePreload 0x02 ∧ boundary .extest 0x03
      ∧ (s.tap.ir = 0x10 → ∃ t, exec (.testInstrument k) s = .next t ∧ t.tap = { s.tap with instrument := some k.val } ∧ t.recorder = { r with testInUse := true }
        ∧ t.Logged s.ras.total ⟨s.clk.tick, 0x10, none, false, 0, 0xFF, 0, BitVec.ofNat 32 (k.val + 1), 0⟩ ∧ t.hw = s.hw ∧ t.clusters = s.clusters ∧ t.mem = s.mem)
      ∧ (s.tap.ir ≠ 0x10 → exec (.testInstrument k) s = .next s)


/-! Clusters at work -/

/-- R77, R79, R218, R220, R221, R193, R344: the entry that a cluster's engine starts. LTW writes its loop table; a stream enrols on the signal it
waits for, or takes it where it is raised; an array entry without a loop table whose operands lie within their handles has its tiles, of at
most 512 vectors each, await their checks on the arrays that they take, and waits while no arrays are free. No entry starts where the cluster
may not work for its operation. An entry that has ended leaves the queue and the scoreboard. The stream unit issues the writes of a stream to
memory as the requests of one part. Which streams a waiting one holds up is the model's reading (log entry 60), and so are the cuts of an
operand of more than 512 vectors (log entry 122). -/
def Obligations.EntriesStartAndEnd : Prop :=
  ∀ (s : State) (n : Fin 32) (q : QEnt),
    let c := s.cluster n.val
    let may := c.queue = [q] ∧ q.st = .queued ∧ s.mayWork n.val q.opid = true
    let first : Iter := ⟨[], [0, 0, 0, 0]⟩
    (∀ e, c.queue = [q] → q.eng = e → s.mayWork n.val q.opid = false → exec (.entryStart n e) s = .next s)
      ∧ (∀ e, c.queue = [] → exec (.entryStart n e) s = .next s ∧ exec (.entryComplete n e) s = .next s)
      ∧ (∀ k w, may → q.eng = .control → q.work = .ltw k w →
        ∃ t, exec (.entryStart n .control) s = .next t ∧ s.ClusterOnly t n.val { c with loops := Tab.set 0 c.loops k w, queue := [{ q with st := .doneWork }] })
      ∧ (∀ v, may → q.eng = .stream → q.work = .sx v →
        let d := SDesc.ofBits v
        (d.waitEn = false → ∃ t, exec (.entryStart n .stream) s = .next t ∧ s.ClusterOnly t n.val { c with queue := [{ q with st := .started }] })
        ∧ (d.waitEn = true → s.isRaised d.waitSig = true → ∃ t, exec (.entryStart n .stream) s = .next t ∧ t.isRaised d.waitSig = false
            ∧ (t.cluster n.val).queue = [{ q with st := .started, sigTaken := true }] ∧ { t with sig := s.sig, clusters := s.clusters } = s)
        ∧ (d.waitEn = true → s.isRaised d.waitSig = false → ∃ t, exec (.entryStart n .stream) s = .next t ∧ t.sig.waiters = s.sig.waiters ++ [(d.waitSig, .stream n.val q.tag)]
            ∧ (t.cluster n.val).queue = [{ q with st := .started }] ∧ { t with sig := s.sig, clusters := s.clusters } = s))
      ∧ (∀ ew ds db dO gang pm acc rlb rls, may → q.pos = 0 → q.eng = .array → q.work = .mx ew ds db dO none gang pm acc rlb rls →
        mxIters c ew gang (TDesc.ofBits ds) (TDesc.ofBits db) none = ([first], none) →
        let rs := mxRanges c ew gang (TDesc.ofBits ds) (TDesc.ofBits db) [first]
        let place := c.mxPlace q.tag gang (2 ≤ acc && (TDesc.ofBits dO).loc = 7 && !ew)
        c.mayAccess rs = true → (place = none → exec (.entryStart n .array) s = .next s)
        ∧ (∀ arrays, place = some arrays → ∃ t xs, exec (.entryStart n .array) s = .next t ∧ (t.cluster n.val).queue = [{ q with st := .checking, pos := 1 }]
          ∧ (t.cluster n.val).tiles = c.tiles ++ xs ∧ (∀ x ∈ xs, x.tag = q.tag ∧ x.released = false ∧ x.failed = [] ∧ x.arrays = arrays ∧ x.opds.rows.length ≤ 512)
          ∧ (xs.map (fun x => x.opds.rows.length)).sum = (TDesc.ofBits db).rows
          ∧ (∃ y, y = (c.enter q.tag rs).runMx q.tag ew ds db dO gang pm acc arrays first ∧ t.cluster n.val = { y.1 with queue := (t.cluster n.val).queue }
            ∧ ∀ o, s.op q.opid = some o → ∃ o', t.op q.opid = some o' ∧ o'.sat = o.sat + y.2 ∧ o'.mac = true)
          ∧ (t.cluster n.val).spm = c.spm ∧ (∀ j, j ≠ n.val → t.cluster j = s.cluster j) ∧ t.mem = s.mem ∧ t.pairs = s.pairs))
      ∧ (∀ e, s.fast = true → c.queue = [q] → q.eng = e → c.entryDone q = true → releasesOf q.work = [] →
        (∀ v, q.work = .sx v → (SDesc.ofBits v).raiseEn = false ∧ (SDesc.ofBits v).rt = false) →
        (∀ o, s.op q.opid = some o → opcodeOf o.cmd ≠ 0x0F ∨ o.loaded = false ∨ (pairsOf o.clusters).all (fun k => o.ended.getLsbD k) = false) →
        ∃ t, exec (.entryComplete n e) s = .next t ∧ s.ClusterOnly t n.val { c with queue := [], sb := c.sb.filter (fun x => x.tag != q.tag) })
      ∧ (∀ v o, s.op q.opid = some o → s.mayWork n.val q.opid = true → c.queue = [q] → q.eng = .stream → q.st = .started → q.work = .sx v → q.pos = 0 → q.hold = [] → q.bad = none →
        s.linkFull = false → c.poisoned = [] → c.sb = [] → c.mayAccess (streamRanges c (SDesc.ofBits v)) = true →
        let d := SDesc.ofBits v
        let xs := d.elems false 0
        d.kind = 1 → d.waitEn = false → (∀ x ∈ xs, d.overflows c none x = false) → ∀ (va len : Nat), va = d.dstAddr + d.dstHi * 2 ^ 32 → len = (d.total * streamWidth d.fout + 7) / 8 →
        (s.judgeRuns q.part true [(va, len)] q.xl).1 = .ok → va % 512 + len ≤ 512 → 1 ≤ len → ∀ pa, s.streamPa q.xl q.part va = some pa →
        ∃ t r, exec (.streamIssue n) s = .next t ∧ (t.port (portOf pa)).waiting = (s.port (portOf pa)).waiting ++ [r] ∧ r.wr = true ∧ r.part = q.part ∧ r.va = va ∧ r.pa = pa
          ∧ r.len = len ∧ r.use = .stream n.val q.tag 0 ∧ r.data.length = len ∧ (t.cluster n.val).queue = [{ q with pos := 1, left := q.left + 1 }]
          ∧ t.mem = s.mem ∧ (∀ j, j ≠ portOf pa → t.port j = s.port j) ∧ (∀ j, j ≠ n.val → t.cluster j = s.cluster j))

/-- R81, R98 to R101, R118, R119, R414: a tile no check of which fails is released, to the vector engine or into its tile buffer, or hands its
accumulators on; one with a failing lane or uncorrectable data in an operand is computed again. Either way it counts as checked. A lane that is
mapped out makes no check. A rerun that agrees and passes charges each lane that failed, one that agrees and fails charges the lanes of both
runs, one that differs and passes charges the array's data and its own results are released, and one that differs and fails again ends the
operation CHECK_FAILED, as does uncorrectable data; a rerun counts among no checked tiles (log entry 125). The first tile of a built-in attention
operation that fails is rerun too, and keeps its place until then (log entry 130). The tile's rows and columns follow log entry 53. -/
def Obligations.TileChecks : Prop :=
  ∀ (s : State) (n : Fin 32) (x : TileSlot) (fs data sums column : List ArrayFault), s.fast = true →
    let c := s.cluster n.val
    let u := x.data fs
    let bad := x.opds.failing fs x.arrays c.lanesOut
    let checked (l : List Nat) (y : Cluster) : Prop := ∀ a, Tab.get 0 y.tilesChecked a = Tab.get 0 c.tilesChecked a + l.countP (fun b => b == a)
    let verdict (l : List Nat) (P : Cluster → Prop) : Prop := ∃ t y, exec (.tileVerdict n fs) s = .next t ∧ s.ClusterOnly t n.val y ∧ checked l y ∧ P y
    let gs := data ++ sums ++ column
    let again := x.opds.failing gs (x.arrays.map (rerunArray x.opds.gang)) c.lanesOut
    let z := x.data gs
    let charge (l : List (Nat × Nat)) : List Charge := l.map (fun p => ⟨p.1, Tab.get 0 c.tilesChecked p.1, false, p.2⟩)
    let reruns (P : State → Cluster → Prop) : Prop := ∃ t, exec (.abftRerunDone n data sums column) s = .next t ∧ P t (t.cluster n.val)
      ∧ (∀ j, j ≠ n.val → t.cluster j = s.cluster j)
    (c.tiles = [x] → x.released = false → x.rerun = false → (∀ p ∈ bad, p ∉ c.lanesOut)
        ∧ (bad = [] → x.poison = none → x.opds.yields = false →
            verdict x.arrays (fun y => y = { c with tiles := [], accs := c.accs ++ [⟨x.opds.gang, x.opds.results fs⟩], tilesChecked := y.tilesChecked }))
        ∧ (bad = [] → x.poison = none → x.opds.yields = true → x.tbuf = none →
            verdict x.arrays (fun y => y = { c with tiles := [{ u with released := true }], tilesChecked := y.tilesChecked }))
        ∧ (∀ b, bad = [] → x.poison = none → x.opds.yields = true → x.tbuf = some b → verdict x.arrays (fun y =>
            (∀ i, i < u.vals.length → Tab.get 0 y.tileBufs (b * 16384 + x.base + i)
              = if x.restart then u.vals.getD i 0 else toW32 (Fl.add (ofW32 (Tab.get 0 c.tileBufs (b * 16384 + x.base + i))) (ofW32 (u.vals.getD i 0))))
            ∧ (∀ i, i < b * 16384 + x.base ∨ b * 16384 + x.base + u.vals.length ≤ i → Tab.get 0 y.tileBufs i = Tab.get 0 c.tileBufs i)
            ∧ y = { c with tiles := [], tilesChecked := y.tilesChecked, tileBufs := y.tileBufs }))
        ∧ (bad ≠ [] ∨ x.poison ≠ none → verdict x.arrays (fun y => y = { c with tiles := [{ u with rerun := true, failed := bad }], tilesChecked := y.tilesChecked })))
      ∧ (c.tiles = [x] → x.rerun = true → x.released = false → x.opds.yields = true → x.accs = [] → x.tbuf = none → c.charges = [] → x.failed ≠ [] → x.failed.Nodup →
        (x.poison = none → z.vals = x.vals → again = [] → reruns (fun t y => y.tiles = [{ x with rerun := false, released := true }] ∧ y.charges = charge x.failed
            ∧ y.checkerFaults = Nat.min 65535 (c.checkerFaults + x.failed.length) ∧ y.dataFaults = c.dataFaults ∧ y.tilesChecked = c.tilesChecked ∧ t.hw = s.hw
            ∧ (∀ a l, x.failed = [(a, l)] → ∃ e, t.Logged s.ras.total e ∧ e.kind = 5 ∧ e.cls = 1 ∧ e.unit = BitVec.ofNat 8 n.val ∧ e.arg0 = BitVec.ofNat 32 (a + 4 * l))))
        ∧ (x.poison = none → z.vals = x.vals → again ≠ [] → reruns (fun t y => y.tiles = [{ x with rerun := false, released := true }] ∧ y.charges = charge (x.failed ++ again)
            ∧ y.checkerFaults = Nat.min 65535 (c.checkerFaults + x.failed.length + again.length) ∧ y.dataFaults = c.dataFaults ∧ t.hw = s.hw))
        ∧ (x.poison = none → z.vals ≠ x.vals → again = [] → reruns (fun t y => y.tiles = [{ z with rerun := false, released := true }]
            ∧ y.dataFaults = Nat.min 65535 (c.dataFaults + 1) ∧ y.checkerFaults = c.checkerFaults ∧ t.hw = s.hw
            ∧ (∀ a l, x.failed.head? = some (a, l) → ∃ e, t.Logged s.ras.total e ∧ e.kind = 6 ∧ e.cls = 1 ∧ e.unit = BitVec.ofNat 8 n.val ∧ e.arg0 = BitVec.ofNat 32 a)))
        ∧ (x.poison ≠ none ∨ (z.vals ≠ x.vals ∧ again ≠ []) → reruns (fun t y => y.tiles = [] ∧ y.checkFailed = Nat.min 255 (c.checkFailed + 1)
            ∧ (∀ q o, c.queue = [q] → q.tag = x.tag → s.op q.opid = some o → o.status = 0 → ∀ o', t.op q.opid = some o' → o'.status = 0x50 ∧ o'.ended = 0xFF))))
      ∧ (∀ o, c.tiles = [] → c.builtin = none → s.builtinOn n.val = some o → fs ≠ [] →
        verdict [0, 1, 2, 3] (fun y => y = { c with builtin := some (o.opid, fs), tilesChecked := y.tilesChecked }))

/-- R143, R146 to R148, R151, R153 to R155, R306, R325, R361: attention at work. A segment's partial is its node on its cluster; the home of
a node merges its children; a partial of another role epoch is counted stale and sent again, one that disagrees ends its operation, a duplicate
is dropped and logged, the rows of one that agrees join their node; a remote partial that does not come ends its operation ABORTED, and the
time-out does nothing where every one has come; a PREFILL that Weir admits appends its next chunk, and not while a SWAP pauses Weir; a command
bound to the fabric fires with its first tile and room for its first output, and keeps the counts of its firing. What becomes of partials that
do not fit is the model's reading (log entry 69), and so is which segments of a command with a peer list are remote (log entry 129). -/
def Obligations.AttentionRuns : Prop :=
  (∀ (s : State) (o : Op) (n : Fin 32) (p : PTile), s.op o.opid = some o →
    let node (t : State) (k j : Nat) : Option Node := (t.op o.opid).bind (fun x => x.node k j)
    let attends := opcodeOf o.cmd = 0x05 ∧ o.fin = false ∧ o.sends = false ∧ s.fast = true ∧ s.linkFull = false
    let rows := (shapeOf o.desc o.cmd).nq * (shapeOf o.desc o.cmd).hq
    (∀ seg home, attends → s.hw.ops = [o] → o.remote = [] → s.rerunning o home = false → s.readingSeg o.opid seg home = false → o.place = [(seg, home), (seg ^^^ 1, home)] → o.depth = 1 → o.nodes = [] → seg < 2 → s.mayWork home o.opid = true → s.inputFull o = true →
        (s.judgePages o (1024 * seg) (Nat.min o.keys (1024 * seg + 1024))).1 = .ok → ∃ t, exec (.segmentDone o.opid seg) s = .next t
          ∧ (∃ x, node t 0 seg = some x ∧ x.home = home ∧ x.rows.length = rows)
          ∧ (∀ x, t.op o.opid = some x → x.place = o.place ∧ x.keys = o.keys ∧ x.st = .running) ∧ t.clusters = s.clusters ∧ t.mem = s.mem)
      ∧ (∀ k j a b, attends → o.node k (2 * j) = some a → o.node k (2 * j + 1) = some b → o.node (k + 1) j = none → k + 1 < o.depth → o.covers (k + 1) (if j % 2 = 0 then j + 1 else j - 1) = true →
        s.mayWork a.home o.opid = true → s.rerunning o a.home = false → o.node o.depth 0 = none → j < 2 ^ 32 → ∃ t, exec (.merge o.opid (k + 1) j) s = .next t
          ∧ node t (k + 1) j = some ⟨List.zipWith (mergeRow o.training) a.rows b.rows, a.home⟩ ∧ t.clusters = s.clusters ∧ t.mem = s.mem ∧ ∀ i, i ≠ o.opid → t.op i = s.op i)
      ∧ (∀ epoch, s.fast = true → s.linkFull = false → epoch ≠ (s.cluster n.val).roleEpoch ∨ (s.cluster n.val).clearing = true → ∃ t y, exec (.partialTile n epoch p) s = .next t
        ∧ t.cluster n.val = { s.cluster n.val with stale := y } ∧ y.toNat = Nat.min (2 ^ 32 - 1) ((s.cluster n.val).stale.toNat + 1) ∧ (∀ j, j ≠ n.val → t.cluster j = s.cluster j)
        ∧ { t with clusters := s.clusters, peer := s.peer } = s ∧ (p.opid = o.opid → t.peer = { s.peer with resent := s.peer.resent ++ [(o.homeOf p.level p.node, p)] }))
      ∧ (∀ epoch, attends → epoch = (s.cluster n.val).roleEpoch → (s.cluster n.val).clearing = false → p.opid = o.opid → s.clPart n.val = o.part → p.level ≤ o.depth → o.covers p.level p.node = true →
        (o.tileDisagrees p = true → ∃ t, exec (.partialTile n epoch p) s = .next t ∧ t.op o.opid = none)
        ∧ (o.tileDisagrees p = false → o.hasRows p = true → ∃ t, exec (.partialTile n epoch p) s = .next t
            ∧ s.Notes t ⟨s.clk.tick, 0x0C, some o.part, false, 0, BitVec.ofNat 8 n.val, o.opid, 0, BitVec.ofNat 64 (p.level + 16 * p.node)⟩)
        ∧ (o.tileDisagrees p = false → o.hasRows p = false → (Tab.get [] o.parts (nodeKey p.level p.node)).length + p.rows.length < rows →
            ∃ t x, exec (.partialTile n epoch p) s = .next t ∧ t.op o.opid = some { o with parts := x } ∧ (∀ i, i ≠ o.opid → t.op i = s.op i) ∧ { t with hw := s.hw } = s
              ∧ Tab.get [] x (nodeKey p.level p.node) = Tab.get [] o.parts (nodeKey p.level p.node) ++ p.rows.mapIdx (fun i r => (p.rowBase + i, r))))
      ∧ ((∀ g ∈ o.remote, o.arrived g = true) → exec (.peerTmo o.opid) s = .next s)
      ∧ (∀ g ∈ o.remote, o.arrived g = false → opcodeOf o.cmd = 0x05 → o.fin = false → s.fast = true → ∃ t, exec (.peerTmo o.opid) s = .next t ∧ t.op o.opid = none ∧ ∀ i, i ≠ o.opid → t.op i = s.op i)
      ∧ (opcodeOf o.cmd = 0x07 → s.swapPause = true → exec (.prefillChunk o.opid) s = .next s)
      ∧ (∀ s1, opcodeOf o.cmd = 0x07 → s.fast = true → s.swapPause = false → s.linkFull = false → o.st = .running → o.hold = [] → o.shares ≠ 0 → o.pos < nqOf o.cmd →
        o.chunkReady = true → s.reading o.opid = false → (∀ m, s.rerunning o m = false) →
        let start := (s.seq o.part (sqidOf o.cmd)).lenOf (layerOf o.cmd)
        let k := Nat.min (chunkOf o.cmd) (nqOf o.cmd - o.pos)
        s.cover o.part (sqidOf o.cmd) (List.range ((start + (s.desc o.part).tok - 1) / (s.desc o.part).tok)) = .ready → s.slotRead o.part o.cmd start = false → s.copying o.part o.opid = false →
        s.needBlocks o.part (sqidOf o.cmd) (layerOf o.cmd) start k o.opid = .ok s1 → ∃ t, exec (.prefillChunk o.opid) s = .next t
          ∧ (t.seq o.part (sqidOf o.cmd)).lenOf (layerOf o.cmd) = start + k))
    ∧ (∀ (s : State) (x : Staged), s.serving = true → s.hw.staged = [x] → x.fired = false → s.upToWeir x = (true, s) → ∀ (ring : BitVec 14), ring.toNat = x.cmd.ring →
        let roomy := foEn x.cmd = true → firstFlits (s.desc x.part) x.cmd ≤ s.outFree (foOf x.cmd)
        let x' : Staged := { x with fired := true, firedFc := s.clk.fc, firedTick := s.clk.tick }
        let fired : State := { s with hw := { s.hw with staged := [x'] } }
        (fiEn x.cmd = false → foEn x.cmd = true → roomy → exec (.fire ring x.cmd.idx) s = .next fired)
        ∧ (¬ roomy → exec (.fire ring x.cmd.idx) s = .next s) ∧ (fiEn x.cmd = true → s.firstTile x = none → exec (.fire ring x.cmd.idx) s = .next s)
        ∧ (∀ y, fiEn x.cmd = true → roomy → s.firstTile x = some y → opcodeOf x.cmd = 0x0F → exec (.fire ring x.cmd.idx) s = .next fired)
        ∧ (∀ y, fiEn x.cmd = true → roomy → s.firstTile x = some y → opcodeOf x.cmd ≠ 0x0F → ∃ t, exec (.fire ring x.cmd.idx) s = .next t
            ∧ t.hw.staged = [{ x' with input := x.input ++ y.1.data }] ∧ Tab.get [] t.fab.stagedT (fiOf x.cmd) = (Tab.get [] s.fab.stagedT (fiOf x.cmd)).erase y
            ∧ { t with hw := { t.hw with staged := s.hw.staged }, fab := s.fab } = s))
end

