-- ==== Sys2Proof/Laws/State.lean ====
section
/-! SUPPORT. Each named update of the state, field by field: what it writes and that it writes nothing else. All true by rfl. -/

namespace Sys2Proof.Machine

@[simp] theorem State.setCluster_part (s : State) (n : Nat) (c : Cluster) : (s.setCluster n c).part = s.part := rfl
@[simp] theorem State.setCluster_clk (s : State) (n : Nat) (c : Cluster) : (s.setCluster n c).clk = s.clk := rfl
@[simp] theorem State.setCluster_boot (s : State) (n : Nat) (c : Cluster) : (s.setCluster n c).boot = s.boot := rfl
@[simp] theorem State.setCluster_cfg (s : State) (n : Nat) (c : Cluster) : (s.setCluster n c).cfg = s.cfg := rfl
@[simp] theorem State.setCluster_glob (s : State) (n : Nat) (c : Cluster) : (s.setCluster n c).glob = s.glob := rfl
@[simp] theorem State.setCluster_hw (s : State) (n : Nat) (c : Cluster) : (s.setCluster n c).hw = s.hw := rfl
@[simp] theorem State.setCluster_weir (s : State) (n : Nat) (c : Cluster) : (s.setCluster n c).weir = s.weir := rfl
@[simp] theorem State.setCluster_pools (s : State) (n : Nat) (c : Cluster) : (s.setCluster n c).pools = s.pools := rfl
@[simp] theorem State.setCluster_sig (s : State) (n : Nat) (c : Cluster) : (s.setCluster n c).sig = s.sig := rfl
@[simp] theorem State.setCluster_pt (s : State) (n : Nat) (c : Cluster) : (s.setCluster n c).pt = s.pt := rfl
@[simp] theorem State.setCluster_tr (s : State) (n : Nat) (c : Cluster) : (s.setCluster n c).tr = s.tr := rfl
@[simp] theorem State.setCluster_ports (s : State) (n : Nat) (c : Cluster) : (s.setCluster n c).ports = s.ports := rfl
@[simp] theorem State.setCluster_fab (s : State) (n : Nat) (c : Cluster) : (s.setCluster n c).fab = s.fab := rfl
@[simp] theorem State.setCluster_peer (s : State) (n : Nat) (c : Cluster) : (s.setCluster n c).peer = s.peer := rfl
@[simp] theorem State.setCluster_clusters (s : State) (n : Nat) (c : Cluster) : (s.setCluster n c).clusters = Tab.set Cluster.reset s.clusters n c := rfl
@[simp] theorem State.setCluster_pairs (s : State) (n : Nat) (c : Cluster) : (s.setCluster n c).pairs = s.pairs := rfl
@[simp] theorem State.setCluster_ras (s : State) (n : Nat) (c : Cluster) : (s.setCluster n c).ras = s.ras := rfl
@[simp] theorem State.setCluster_recorder (s : State) (n : Nat) (c : Cluster) : (s.setCluster n c).recorder = s.recorder := rfl
@[simp] theorem State.setCluster_trc (s : State) (n : Nat) (c : Cluster) : (s.setCluster n c).trc = s.trc := rfl
@[simp] theorem State.setCluster_link (s : State) (n : Nat) (c : Cluster) : (s.setCluster n c).link = s.link := rfl
@[simp] theorem State.setCluster_smu (s : State) (n : Nat) (c : Cluster) : (s.setCluster n c).smu = s.smu := rfl
@[simp] theorem State.setCluster_tap (s : State) (n : Nat) (c : Cluster) : (s.setCluster n c).tap = s.tap := rfl
@[simp] theorem State.setCluster_mem (s : State) (n : Nat) (c : Cluster) : (s.setCluster n c).mem = s.mem := rfl
@[simp] theorem State.setCluster_out (s : State) (n : Nat) (c : Cluster) : (s.setCluster n c).out = s.out := rfl
@[simp] theorem State.setCluster_freeCtr (s : State) (n : Nat) (c : Cluster) : (s.setCluster n c).freeCtr = s.freeCtr := rfl
@[simp] theorem State.setCluster_pending (s : State) (n : Nat) (c : Cluster) : (s.setCluster n c).pending = s.pending := rfl

@[simp] theorem State.setPair_part (s : State) (n : Nat) (c : Pair) : (s.setPair n c).part = s.part := rfl
@[simp] theorem State.setPair_clk (s : State) (n : Nat) (c : Pair) : (s.setPair n c).clk = s.clk := rfl
@[simp] theorem State.setPair_boot (s : State) (n : Nat) (c : Pair) : (s.setPair n c).boot = s.boot := rfl
@[simp] theorem State.setPair_cfg (s : State) (n : Nat) (c : Pair) : (s.setPair n c).cfg = s.cfg := rfl
@[simp] theorem State.setPair_glob (s : State) (n : Nat) (c : Pair) : (s.setPair n c).glob = s.glob := rfl
@[simp] theorem State.setPair_hw (s : State) (n : Nat) (c : Pair) : (s.setPair n c).hw = s.hw := rfl
@[simp] theorem State.setPair_weir (s : State) (n : Nat) (c : Pair) : (s.setPair n c).weir = s.weir := rfl
@[simp] theorem State.setPair_pools (s : State) (n : Nat) (c : Pair) : (s.setPair n c).pools = s.pools := rfl
@[simp] theorem State.setPair_sig (s : State) (n : Nat) (c : Pair) : (s.setPair n c).sig = s.sig := rfl
@[simp] theorem State.setPair_pt (s : State) (n : Nat) (c : Pair) : (s.setPair n c).pt = s.pt := rfl
@[simp] theorem State.setPair_tr (s : State) (n : Nat) (c : Pair) : (s.setPair n c).tr = s.tr := rfl
@[simp] theorem State.setPair_ports (s : State) (n : Nat) (c : Pair) : (s.setPair n c).ports = s.ports := rfl
@[simp] theorem State.setPair_fab (s : State) (n : Nat) (c : Pair) : (s.setPair n c).fab = s.fab := rfl
@[simp] theorem State.setPair_peer (s : State) (n : Nat) (c : Pair) : (s.setPair n c).peer = s.peer := rfl
@[simp] theorem State.setPair_clusters (s : State) (n : Nat) (c : Pair) : (s.setPair n c).clusters = s.clusters := rfl
@[simp] theorem State.setPair_pairs (s : State) (n : Nat) (c : Pair) : (s.setPair n c).pairs = Tab.set Pair.reset s.pairs n c := rfl
@[simp] theorem State.setPair_ras (s : State) (n : Nat) (c : Pair) : (s.setPair n c).ras = s.ras := rfl
@[simp] theorem State.setPair_recorder (s : State) (n : Nat) (c : Pair) : (s.setPair n c).recorder = s.recorder := rfl
@[simp] theorem State.setPair_trc (s : State) (n : Nat) (c : Pair) : (s.setPair n c).trc = s.trc := rfl
@[simp] theorem State.setPair_link (s : State) (n : Nat) (c : Pair) : (s.setPair n c).link = s.link := rfl
@[simp] theorem State.setPair_smu (s : State) (n : Nat) (c : Pair) : (s.setPair n c).smu = s.smu := rfl
@[simp] theorem State.setPair_tap (s : State) (n : Nat) (c : Pair) : (s.setPair n c).tap = s.tap := rfl
@[simp] theorem State.setPair_mem (s : State) (n : Nat) (c : Pair) : (s.setPair n c).mem = s.mem := rfl
@[simp] theorem State.setPair_out (s : State) (n : Nat) (c : Pair) : (s.setPair n c).out = s.out := rfl
@[simp] theorem State.setPair_freeCtr (s : State) (n : Nat) (c : Pair) : (s.setPair n c).freeCtr = s.freeCtr := rfl
@[simp] theorem State.setPair_pending (s : State) (n : Nat) (c : Pair) : (s.setPair n c).pending = s.pending := rfl

@[simp] theorem State.setPool_part (s : State) (p : Nat) (c : Pool) : (s.setPool p c).part = s.part := rfl
@[simp] theorem State.setPool_clk (s : State) (p : Nat) (c : Pool) : (s.setPool p c).clk = s.clk := rfl
@[simp] theorem State.setPool_boot (s : State) (p : Nat) (c : Pool) : (s.setPool p c).boot = s.boot := rfl
@[simp] theorem State.setPool_cfg (s : State) (p : Nat) (c : Pool) : (s.setPool p c).cfg = s.cfg := rfl
@[simp] theorem State.setPool_glob (s : State) (p : Nat) (c : Pool) : (s.setPool p c).glob = s.glob := rfl
@[simp] theorem State.setPool_hw (s : State) (p : Nat) (c : Pool) : (s.setPool p c).hw = s.hw := rfl
@[simp] theorem State.setPool_weir (s : State) (p : Nat) (c : Pool) : (s.setPool p c).weir = s.weir := rfl
@[simp] theorem State.setPool_pools (s : State) (p : Nat) (c : Pool) : (s.setPool p c).pools = Tab.set Pool.reset s.pools p c := rfl
@[simp] theorem State.setPool_sig (s : State) (p : Nat) (c : Pool) : (s.setPool p c).sig = s.sig := rfl
@[simp] theorem State.setPool_pt (s : State) (p : Nat) (c : Pool) : (s.setPool p c).pt = s.pt := rfl
@[simp] theorem State.setPool_tr (s : State) (p : Nat) (c : Pool) : (s.setPool p c).tr = s.tr := rfl
@[simp] theorem State.setPool_ports (s : State) (p : Nat) (c : Pool) : (s.setPool p c).ports = s.ports := rfl
@[simp] theorem State.setPool_fab (s : State) (p : Nat) (c : Pool) : (s.setPool p c).fab = s.fab := rfl
@[simp] theorem State.setPool_peer (s : State) (p : Nat) (c : Pool) : (s.setPool p c).peer = s.peer := rfl
@[simp] theorem State.setPool_clusters (s : State) (p : Nat) (c : Pool) : (s.setPool p c).clusters = s.clusters := rfl
@[simp] theorem State.setPool_pairs (s : State) (p : Nat) (c : Pool) : (s.setPool p c).pairs = s.pairs := rfl
@[simp] theorem State.setPool_ras (s : State) (p : Nat) (c : Pool) : (s.setPool p c).ras = s.ras := rfl
@[simp] theorem State.setPool_recorder (s : State) (p : Nat) (c : Pool) : (s.setPool p c).recorder = s.recorder := rfl
@[simp] theorem State.setPool_trc (s : State) (p : Nat) (c : Pool) : (s.setPool p c).trc = s.trc := rfl
@[simp] theorem State.setPool_link (s : State) (p : Nat) (c : Pool) : (s.setPool p c).link = s.link := rfl
@[simp] theorem State.setPool_smu (s : State) (p : Nat) (c : Pool) : (s.setPool p c).smu = s.smu := rfl
@[simp] theorem State.setPool_tap (s : State) (p : Nat) (c : Pool) : (s.setPool p c).tap = s.tap := rfl
@[simp] theorem State.setPool_mem (s : State) (p : Nat) (c : Pool) : (s.setPool p c).mem = s.mem := rfl
@[simp] theorem State.setPool_out (s : State) (p : Nat) (c : Pool) : (s.setPool p c).out = s.out := rfl
@[simp] theorem State.setPool_freeCtr (s : State) (p : Nat) (c : Pool) : (s.setPool p c).freeCtr = s.freeCtr := rfl
@[simp] theorem State.setPool_pending (s : State) (p : Nat) (c : Pool) : (s.setPool p c).pending = s.pending := rfl

@[simp] theorem State.setPt_part (s : State) (p : Nat) (c : Pt) : (s.setPt p c).part = s.part := rfl
@[simp] theorem State.setPt_clk (s : State) (p : Nat) (c : Pt) : (s.setPt p c).clk = s.clk := rfl
@[simp] theorem State.setPt_boot (s : State) (p : Nat) (c : Pt) : (s.setPt p c).boot = s.boot := rfl
@[simp] theorem State.setPt_cfg (s : State) (p : Nat) (c : Pt) : (s.setPt p c).cfg = s.cfg := rfl
@[simp] theorem State.setPt_glob (s : State) (p : Nat) (c : Pt) : (s.setPt p c).glob = s.glob := rfl
@[simp] theorem State.setPt_hw (s : State) (p : Nat) (c : Pt) : (s.setPt p c).hw = s.hw := rfl
@[simp] theorem State.setPt_weir (s : State) (p : Nat) (c : Pt) : (s.setPt p c).weir = s.weir := rfl
@[simp] theorem State.setPt_pools (s : State) (p : Nat) (c : Pt) : (s.setPt p c).pools = s.pools := rfl
@[simp] theorem State.setPt_sig (s : State) (p : Nat) (c : Pt) : (s.setPt p c).sig = s.sig := rfl
@[simp] theorem State.setPt_pt (s : State) (p : Nat) (c : Pt) : (s.setPt p c).pt = Tab.set Pt.reset s.pt p c := rfl
@[simp] theorem State.setPt_tr (s : State) (p : Nat) (c : Pt) : (s.setPt p c).tr = s.tr := rfl
@[simp] theorem State.setPt_ports (s : State) (p : Nat) (c : Pt) : (s.setPt p c).ports = s.ports := rfl
@[simp] theorem State.setPt_fab (s : State) (p : Nat) (c : Pt) : (s.setPt p c).fab = s.fab := rfl
@[simp] theorem State.setPt_peer (s : State) (p : Nat) (c : Pt) : (s.setPt p c).peer = s.peer := rfl
@[simp] theorem State.setPt_clusters (s : State) (p : Nat) (c : Pt) : (s.setPt p c).clusters = s.clusters := rfl
@[simp] theorem State.setPt_pairs (s : State) (p : Nat) (c : Pt) : (s.setPt p c).pairs = s.pairs := rfl
@[simp] theorem State.setPt_ras (s : State) (p : Nat) (c : Pt) : (s.setPt p c).ras = s.ras := rfl
@[simp] theorem State.setPt_recorder (s : State) (p : Nat) (c : Pt) : (s.setPt p c).recorder = s.recorder := rfl
@[simp] theorem State.setPt_trc (s : State) (p : Nat) (c : Pt) : (s.setPt p c).trc = s.trc := rfl
@[simp] theorem State.setPt_link (s : State) (p : Nat) (c : Pt) : (s.setPt p c).link = s.link := rfl
@[simp] theorem State.setPt_smu (s : State) (p : Nat) (c : Pt) : (s.setPt p c).smu = s.smu := rfl
@[simp] theorem State.setPt_tap (s : State) (p : Nat) (c : Pt) : (s.setPt p c).tap = s.tap := rfl
@[simp] theorem State.setPt_mem (s : State) (p : Nat) (c : Pt) : (s.setPt p c).mem = s.mem := rfl
@[simp] theorem State.setPt_out (s : State) (p : Nat) (c : Pt) : (s.setPt p c).out = s.out := rfl
@[simp] theorem State.setPt_freeCtr (s : State) (p : Nat) (c : Pt) : (s.setPt p c).freeCtr = s.freeCtr := rfl
@[simp] theorem State.setPt_pending (s : State) (p : Nat) (c : Pt) : (s.setPt p c).pending = s.pending := rfl

@[simp] theorem State.setPort_part (s : State) (k : Nat) (c : Port) : (s.setPort k c).part = s.part := rfl
@[simp] theorem State.setPort_clk (s : State) (k : Nat) (c : Port) : (s.setPort k c).clk = s.clk := rfl
@[simp] theorem State.setPort_boot (s : State) (k : Nat) (c : Port) : (s.setPort k c).boot = s.boot := rfl
@[simp] theorem State.setPort_cfg (s : State) (k : Nat) (c : Port) : (s.setPort k c).cfg = s.cfg := rfl
@[simp] theorem State.setPort_glob (s : State) (k : Nat) (c : Port) : (s.setPort k c).glob = s.glob := rfl
@[simp] theorem State.setPort_hw (s : State) (k : Nat) (c : Port) : (s.setPort k c).hw = s.hw := rfl
@[simp] theorem State.setPort_weir (s : State) (k : Nat) (c : Port) : (s.setPort k c).weir = s.weir := rfl
@[simp] theorem State.setPort_pools (s : State) (k : Nat) (c : Port) : (s.setPort k c).pools = s.pools := rfl
@[simp] theorem State.setPort_sig (s : State) (k : Nat) (c : Port) : (s.setPort k c).sig = s.sig := rfl
@[simp] theorem State.setPort_pt (s : State) (k : Nat) (c : Port) : (s.setPort k c).pt = s.pt := rfl
@[simp] theorem State.setPort_tr (s : State) (k : Nat) (c : Port) : (s.setPort k c).tr = s.tr := rfl
@[simp] theorem State.setPort_ports (s : State) (k : Nat) (c : Port) : (s.setPort k c).ports = Tab.set Port.reset s.ports k c := rfl
@[simp] theorem State.setPort_fab (s : State) (k : Nat) (c : Port) : (s.setPort k c).fab = s.fab := rfl
@[simp] theorem State.setPort_peer (s : State) (k : Nat) (c : Port) : (s.setPort k c).peer = s.peer := rfl
@[simp] theorem State.setPort_clusters (s : State) (k : Nat) (c : Port) : (s.setPort k c).clusters = s.clusters := rfl
@[simp] theorem State.setPort_pairs (s : State) (k : Nat) (c : Port) : (s.setPort k c).pairs = s.pairs := rfl
@[simp] theorem State.setPort_ras (s : State) (k : Nat) (c : Port) : (s.setPort k c).ras = s.ras := rfl
@[simp] theorem State.setPort_recorder (s : State) (k : Nat) (c : Port) : (s.setPort k c).recorder = s.recorder := rfl
@[simp] theorem State.setPort_trc (s : State) (k : Nat) (c : Port) : (s.setPort k c).trc = s.trc := rfl
@[simp] theorem State.setPort_link (s : State) (k : Nat) (c : Port) : (s.setPort k c).link = s.link := rfl
@[simp] theorem State.setPort_smu (s : State) (k : Nat) (c : Port) : (s.setPort k c).smu = s.smu := rfl
@[simp] theorem State.setPort_tap (s : State) (k : Nat) (c : Port) : (s.setPort k c).tap = s.tap := rfl
@[simp] theorem State.setPort_mem (s : State) (k : Nat) (c : Port) : (s.setPort k c).mem = s.mem := rfl
@[simp] theorem State.setPort_out (s : State) (k : Nat) (c : Port) : (s.setPort k c).out = s.out := rfl
@[simp] theorem State.setPort_freeCtr (s : State) (k : Nat) (c : Port) : (s.setPort k c).freeCtr = s.freeCtr := rfl
@[simp] theorem State.setPort_pending (s : State) (k : Nat) (c : Port) : (s.setPort k c).pending = s.pending := rfl

@[simp] theorem State.modCluster_part (s : State) (n : Nat) (f : Cluster → Cluster) : (s.modCluster n f).part = s.part := rfl
@[simp] theorem State.modCluster_clk (s : State) (n : Nat) (f : Cluster → Cluster) : (s.modCluster n f).clk = s.clk := rfl
@[simp] theorem State.modCluster_boot (s : State) (n : Nat) (f : Cluster → Cluster) : (s.modCluster n f).boot = s.boot := rfl
@[simp] theorem State.modCluster_cfg (s : State) (n : Nat) (f : Cluster → Cluster) : (s.modCluster n f).cfg = s.cfg := rfl
@[simp] theorem State.modCluster_glob (s : State) (n : Nat) (f : Cluster → Cluster) : (s.modCluster n f).glob = s.glob := rfl
@[simp] theorem State.modCluster_hw (s : State) (n : Nat) (f : Cluster → Cluster) : (s.modCluster n f).hw = s.hw := rfl
@[simp] theorem State.modCluster_weir (s : State) (n : Nat) (f : Cluster → Cluster) : (s.modCluster n f).weir = s.weir := rfl
@[simp] theorem State.modCluster_pools (s : State) (n : Nat) (f : Cluster → Cluster) : (s.modCluster n f).pools = s.pools := rfl
@[simp] theorem State.modCluster_sig (s : State) (n : Nat) (f : Cluster → Cluster) : (s.modCluster n f).sig = s.sig := rfl
@[simp] theorem State.modCluster_pt (s : State) (n : Nat) (f : Cluster → Cluster) : (s.modCluster n f).pt = s.pt := rfl
@[simp] theorem State.modCluster_tr (s : State) (n : Nat) (f : Cluster → Cluster) : (s.modCluster n f).tr = s.tr := rfl
@[simp] theorem State.modCluster_ports (s : State) (n : Nat) (f : Cluster → Cluster) : (s.modCluster n f).ports = s.ports := rfl
@[simp] theorem State.modCluster_fab (s : State) (n : Nat) (f : Cluster → Cluster) : (s.modCluster n f).fab = s.fab := rfl
@[simp] theorem State.modCluster_peer (s : State) (n : Nat) (f : Cluster → Cluster) : (s.modCluster n f).peer = s.peer := rfl
@[simp] theorem State.modCluster_clusters (s : State) (n : Nat) (f : Cluster → Cluster) : (s.modCluster n f).clusters = Tab.set Cluster.reset s.clusters n (f (s.cluster n)) := rfl
@[simp] theorem State.modCluster_pairs (s : State) (n : Nat) (f : Cluster → Cluster) : (s.modCluster n f).pairs = s.pairs := rfl
@[simp] theorem State.modCluster_ras (s : State) (n : Nat) (f : Cluster → Cluster) : (s.modCluster n f).ras = s.ras := rfl
@[simp] theorem State.modCluster_recorder (s : State) (n : Nat) (f : Cluster → Cluster) : (s.modCluster n f).recorder = s.recorder := rfl
@[simp] theorem State.modCluster_trc (s : State) (n : Nat) (f : Cluster → Cluster) : (s.modCluster n f).trc = s.trc := rfl
@[simp] theorem State.modCluster_link (s : State) (n : Nat) (f : Cluster → Cluster) : (s.modCluster n f).link = s.link := rfl
@[simp] theorem State.modCluster_smu (s : State) (n : Nat) (f : Cluster → Cluster) : (s.modCluster n f).smu = s.smu := rfl
@[simp] theorem State.modCluster_tap (s : State) (n : Nat) (f : Cluster → Cluster) : (s.modCluster n f).tap = s.tap := rfl
@[simp] theorem State.modCluster_mem (s : State) (n : Nat) (f : Cluster → Cluster) : (s.modCluster n f).mem = s.mem := rfl
@[simp] theorem State.modCluster_out (s : State) (n : Nat) (f : Cluster → Cluster) : (s.modCluster n f).out = s.out := rfl
@[simp] theorem State.modCluster_freeCtr (s : State) (n : Nat) (f : Cluster → Cluster) : (s.modCluster n f).freeCtr = s.freeCtr := rfl
@[simp] theorem State.modCluster_pending (s : State) (n : Nat) (f : Cluster → Cluster) : (s.modCluster n f).pending = s.pending := rfl

@[simp] theorem State.modPair_part (s : State) (n : Nat) (f : Pair → Pair) : (s.modPair n f).part = s.part := rfl
@[simp] theorem State.modPair_clk (s : State) (n : Nat) (f : Pair → Pair) : (s.modPair n f).clk = s.clk := rfl
@[simp] theorem State.modPair_boot (s : State) (n : Nat) (f : Pair → Pair) : (s.modPair n f).boot = s.boot := rfl
@[simp] theorem State.modPair_cfg (s : State) (n : Nat) (f : Pair → Pair) : (s.modPair n f).cfg = s.cfg := rfl
@[simp] theorem State.modPair_glob (s : State) (n : Nat) (f : Pair → Pair) : (s.modPair n f).glob = s.glob := rfl
@[simp] theorem State.modPair_hw (s : State) (n : Nat) (f : Pair → Pair) : (s.modPair n f).hw = s.hw := rfl
@[simp] theorem State.modPair_weir (s : State) (n : Nat) (f : Pair → Pair) : (s.modPair n f).weir = s.weir := rfl
@[simp] theorem State.modPair_pools (s : State) (n : Nat) (f : Pair → Pair) : (s.modPair n f).pools = s.pools := rfl
@[simp] theorem State.modPair_sig (s : State) (n : Nat) (f : Pair → Pair) : (s.modPair n f).sig = s.sig := rfl
@[simp] theorem State.modPair_pt (s : State) (n : Nat) (f : Pair → Pair) : (s.modPair n f).pt = s.pt := rfl
@[simp] theorem State.modPair_tr (s : State) (n : Nat) (f : Pair → Pair) : (s.modPair n f).tr = s.tr := rfl
@[simp] theorem State.modPair_ports (s : State) (n : Nat) (f : Pair → Pair) : (s.modPair n f).ports = s.ports := rfl
@[simp] theorem State.modPair_fab (s : State) (n : Nat) (f : Pair → Pair) : (s.modPair n f).fab = s.fab := rfl
@[simp] theorem State.modPair_peer (s : State) (n : Nat) (f : Pair → Pair) : (s.modPair n f).peer = s.peer := rfl
@[simp] theorem State.modPair_clusters (s : State) (n : Nat) (f : Pair → Pair) : (s.modPair n f).clusters = s.clusters := rfl
@[simp] theorem State.modPair_pairs (s : State) (n : Nat) (f : Pair → Pair) : (s.modPair n f).pairs = Tab.set Pair.reset s.pairs n (f (s.pair n)) := rfl
@[simp] theorem State.modPair_ras (s : State) (n : Nat) (f : Pair → Pair) : (s.modPair n f).ras = s.ras := rfl
@[simp] theorem State.modPair_recorder (s : State) (n : Nat) (f : Pair → Pair) : (s.modPair n f).recorder = s.recorder := rfl
@[simp] theorem State.modPair_trc (s : State) (n : Nat) (f : Pair → Pair) : (s.modPair n f).trc = s.trc := rfl
@[simp] theorem State.modPair_link (s : State) (n : Nat) (f : Pair → Pair) : (s.modPair n f).link = s.link := rfl
@[simp] theorem State.modPair_smu (s : State) (n : Nat) (f : Pair → Pair) : (s.modPair n f).smu = s.smu := rfl
@[simp] theorem State.modPair_tap (s : State) (n : Nat) (f : Pair → Pair) : (s.modPair n f).tap = s.tap := rfl
@[simp] theorem State.modPair_mem (s : State) (n : Nat) (f : Pair → Pair) : (s.modPair n f).mem = s.mem := rfl
@[simp] theorem State.modPair_out (s : State) (n : Nat) (f : Pair → Pair) : (s.modPair n f).out = s.out := rfl
@[simp] theorem State.modPair_freeCtr (s : State) (n : Nat) (f : Pair → Pair) : (s.modPair n f).freeCtr = s.freeCtr := rfl
@[simp] theorem State.modPair_pending (s : State) (n : Nat) (f : Pair → Pair) : (s.modPair n f).pending = s.pending := rfl

@[simp] theorem State.modPool_part (s : State) (p : Nat) (f : Pool → Pool) : (s.modPool p f).part = s.part := rfl
@[simp] theorem State.modPool_clk (s : State) (p : Nat) (f : Pool → Pool) : (s.modPool p f).clk = s.clk := rfl
@[simp] theorem State.modPool_boot (s : State) (p : Nat) (f : Pool → Pool) : (s.modPool p f).boot = s.boot := rfl
@[simp] theorem State.modPool_cfg (s : State) (p : Nat) (f : Pool → Pool) : (s.modPool p f).cfg = s.cfg := rfl
@[simp] theorem State.modPool_glob (s : State) (p : Nat) (f : Pool → Pool) : (s.modPool p f).glob = s.glob := rfl
@[simp] theorem State.modPool_hw (s : State) (p : Nat) (f : Pool → Pool) : (s.modPool p f).hw = s.hw := rfl
@[simp] theorem State.modPool_weir (s : State) (p : Nat) (f : Pool → Pool) : (s.modPool p f).weir = s.weir := rfl
@[simp] theorem State.modPool_pools (s : State) (p : Nat) (f : Pool → Pool) : (s.modPool p f).pools = Tab.set Pool.reset s.pools p (f (s.pool p)) := rfl
@[simp] theorem State.modPool_sig (s : State) (p : Nat) (f : Pool → Pool) : (s.modPool p f).sig = s.sig := rfl
@[simp] theorem State.modPool_pt (s : State) (p : Nat) (f : Pool → Pool) : (s.modPool p f).pt = s.pt := rfl
@[simp] theorem State.modPool_tr (s : State) (p : Nat) (f : Pool → Pool) : (s.modPool p f).tr = s.tr := rfl
@[simp] theorem State.modPool_ports (s : State) (p : Nat) (f : Pool → Pool) : (s.modPool p f).ports = s.ports := rfl
@[simp] theorem State.modPool_fab (s : State) (p : Nat) (f : Pool → Pool) : (s.modPool p f).fab = s.fab := rfl
@[simp] theorem State.modPool_peer (s : State) (p : Nat) (f : Pool → Pool) : (s.modPool p f).peer = s.peer := rfl
@[simp] theorem State.modPool_clusters (s : State) (p : Nat) (f : Pool → Pool) : (s.modPool p f).clusters = s.clusters := rfl
@[simp] theorem State.modPool_pairs (s : State) (p : Nat) (f : Pool → Pool) : (s.modPool p f).pairs = s.pairs := rfl
@[simp] theorem State.modPool_ras (s : State) (p : Nat) (f : Pool → Pool) : (s.modPool p f).ras = s.ras := rfl
@[simp] theorem State.modPool_recorder (s : State) (p : Nat) (f : Pool → Pool) : (s.modPool p f).recorder = s.recorder := rfl
@[simp] theorem State.modPool_trc (s : State) (p : Nat) (f : Pool → Pool) : (s.modPool p f).trc = s.trc := rfl
@[simp] theorem State.modPool_link (s : State) (p : Nat) (f : Pool → Pool) : (s.modPool p f).link = s.link := rfl
@[simp] theorem State.modPool_smu (s : State) (p : Nat) (f : Pool → Pool) : (s.modPool p f).smu = s.smu := rfl
@[simp] theorem State.modPool_tap (s : State) (p : Nat) (f : Pool → Pool) : (s.modPool p f).tap = s.tap := rfl
@[simp] theorem State.modPool_mem (s : State) (p : Nat) (f : Pool → Pool) : (s.modPool p f).mem = s.mem := rfl
@[simp] theorem State.modPool_out (s : State) (p : Nat) (f : Pool → Pool) : (s.modPool p f).out = s.out := rfl
@[simp] theorem State.modPool_freeCtr (s : State) (p : Nat) (f : Pool → Pool) : (s.modPool p f).freeCtr = s.freeCtr := rfl
@[simp] theorem State.modPool_pending (s : State) (p : Nat) (f : Pool → Pool) : (s.modPool p f).pending = s.pending := rfl

@[simp] theorem State.modPt_part (s : State) (p : Nat) (f : Pt → Pt) : (s.modPt p f).part = s.part := rfl
@[simp] theorem State.modPt_clk (s : State) (p : Nat) (f : Pt → Pt) : (s.modPt p f).clk = s.clk := rfl
@[simp] theorem State.modPt_boot (s : State) (p : Nat) (f : Pt → Pt) : (s.modPt p f).boot = s.boot := rfl
@[simp] theorem State.modPt_cfg (s : State) (p : Nat) (f : Pt → Pt) : (s.modPt p f).cfg = s.cfg := rfl
@[simp] theorem State.modPt_glob (s : State) (p : Nat) (f : Pt → Pt) : (s.modPt p f).glob = s.glob := rfl
@[simp] theorem State.modPt_hw (s : State) (p : Nat) (f : Pt → Pt) : (s.modPt p f).hw = s.hw := rfl
@[simp] theorem State.modPt_weir (s : State) (p : Nat) (f : Pt → Pt) : (s.modPt p f).weir = s.weir := rfl
@[simp] theorem State.modPt_pools (s : State) (p : Nat) (f : Pt → Pt) : (s.modPt p f).pools = s.pools := rfl
@[simp] theorem State.modPt_sig (s : State) (p : Nat) (f : Pt → Pt) : (s.modPt p f).sig = s.sig := rfl
@[simp] theorem State.modPt_pt (s : State) (p : Nat) (f : Pt → Pt) : (s.modPt p f).pt = Tab.set Pt.reset s.pt p (f (s.ptReg p)) := rfl
@[simp] theorem State.modPt_tr (s : State) (p : Nat) (f : Pt → Pt) : (s.modPt p f).tr = s.tr := rfl
@[simp] theorem State.modPt_ports (s : State) (p : Nat) (f : Pt → Pt) : (s.modPt p f).ports = s.ports := rfl
@[simp] theorem State.modPt_fab (s : State) (p : Nat) (f : Pt → Pt) : (s.modPt p f).fab = s.fab := rfl
@[simp] theorem State.modPt_peer (s : State) (p : Nat) (f : Pt → Pt) : (s.modPt p f).peer = s.peer := rfl
@[simp] theorem State.modPt_clusters (s : State) (p : Nat) (f : Pt → Pt) : (s.modPt p f).clusters = s.clusters := rfl
@[simp] theorem State.modPt_pairs (s : State) (p : Nat) (f : Pt → Pt) : (s.modPt p f).pairs = s.pairs := rfl
@[simp] theorem State.modPt_ras (s : State) (p : Nat) (f : Pt → Pt) : (s.modPt p f).ras = s.ras := rfl
@[simp] theorem State.modPt_recorder (s : State) (p : Nat) (f : Pt → Pt) : (s.modPt p f).recorder = s.recorder := rfl
@[simp] theorem State.modPt_trc (s : State) (p : Nat) (f : Pt → Pt) : (s.modPt p f).trc = s.trc := rfl
@[simp] theorem State.modPt_link (s : State) (p : Nat) (f : Pt → Pt) : (s.modPt p f).link = s.link := rfl
@[simp] theorem State.modPt_smu (s : State) (p : Nat) (f : Pt → Pt) : (s.modPt p f).smu = s.smu := rfl
@[simp] theorem State.modPt_tap (s : State) (p : Nat) (f : Pt → Pt) : (s.modPt p f).tap = s.tap := rfl
@[simp] theorem State.modPt_mem (s : State) (p : Nat) (f : Pt → Pt) : (s.modPt p f).mem = s.mem := rfl
@[simp] theorem State.modPt_out (s : State) (p : Nat) (f : Pt → Pt) : (s.modPt p f).out = s.out := rfl
@[simp] theorem State.modPt_freeCtr (s : State) (p : Nat) (f : Pt → Pt) : (s.modPt p f).freeCtr = s.freeCtr := rfl
@[simp] theorem State.modPt_pending (s : State) (p : Nat) (f : Pt → Pt) : (s.modPt p f).pending = s.pending := rfl

@[simp] theorem State.modPort_part (s : State) (k : Nat) (f : Port → Port) : (s.modPort k f).part = s.part := rfl
@[simp] theorem State.modPort_clk (s : State) (k : Nat) (f : Port → Port) : (s.modPort k f).clk = s.clk := rfl
@[simp] theorem State.modPort_boot (s : State) (k : Nat) (f : Port → Port) : (s.modPort k f).boot = s.boot := rfl
@[simp] theorem State.modPort_cfg (s : State) (k : Nat) (f : Port → Port) : (s.modPort k f).cfg = s.cfg := rfl
@[simp] theorem State.modPort_glob (s : State) (k : Nat) (f : Port → Port) : (s.modPort k f).glob = s.glob := rfl
@[simp] theorem State.modPort_hw (s : State) (k : Nat) (f : Port → Port) : (s.modPort k f).hw = s.hw := rfl
@[simp] theorem State.modPort_weir (s : State) (k : Nat) (f : Port → Port) : (s.modPort k f).weir = s.weir := rfl
@[simp] theorem State.modPort_pools (s : State) (k : Nat) (f : Port → Port) : (s.modPort k f).pools = s.pools := rfl
@[simp] theorem State.modPort_sig (s : State) (k : Nat) (f : Port → Port) : (s.modPort k f).sig = s.sig := rfl
@[simp] theorem State.modPort_pt (s : State) (k : Nat) (f : Port → Port) : (s.modPort k f).pt = s.pt := rfl
@[simp] theorem State.modPort_tr (s : State) (k : Nat) (f : Port → Port) : (s.modPort k f).tr = s.tr := rfl
@[simp] theorem State.modPort_ports (s : State) (k : Nat) (f : Port → Port) : (s.modPort k f).ports = Tab.set Port.reset s.ports k (f (s.port k)) := rfl
@[simp] theorem State.modPort_fab (s : State) (k : Nat) (f : Port → Port) : (s.modPort k f).fab = s.fab := rfl
@[simp] theorem State.modPort_peer (s : State) (k : Nat) (f : Port → Port) : (s.modPort k f).peer = s.peer := rfl
@[simp] theorem State.modPort_clusters (s : State) (k : Nat) (f : Port → Port) : (s.modPort k f).clusters = s.clusters := rfl
@[simp] theorem State.modPort_pairs (s : State) (k : Nat) (f : Port → Port) : (s.modPort k f).pairs = s.pairs := rfl
@[simp] theorem State.modPort_ras (s : State) (k : Nat) (f : Port → Port) : (s.modPort k f).ras = s.ras := rfl
@[simp] theorem State.modPort_recorder (s : State) (k : Nat) (f : Port → Port) : (s.modPort k f).recorder = s.recorder := rfl
@[simp] theorem State.modPort_trc (s : State) (k : Nat) (f : Port → Port) : (s.modPort k f).trc = s.trc := rfl
@[simp] theorem State.modPort_link (s : State) (k : Nat) (f : Port → Port) : (s.modPort k f).link = s.link := rfl
@[simp] theorem State.modPort_smu (s : State) (k : Nat) (f : Port → Port) : (s.modPort k f).smu = s.smu := rfl
@[simp] theorem State.modPort_tap (s : State) (k : Nat) (f : Port → Port) : (s.modPort k f).tap = s.tap := rfl
@[simp] theorem State.modPort_mem (s : State) (k : Nat) (f : Port → Port) : (s.modPort k f).mem = s.mem := rfl
@[simp] theorem State.modPort_out (s : State) (k : Nat) (f : Port → Port) : (s.modPort k f).out = s.out := rfl
@[simp] theorem State.modPort_freeCtr (s : State) (k : Nat) (f : Port → Port) : (s.modPort k f).freeCtr = s.freeCtr := rfl
@[simp] theorem State.modPort_pending (s : State) (k : Nat) (f : Port → Port) : (s.modPort k f).pending = s.pending := rfl

@[simp] theorem State.setRing_part (s : State) (r : Nat) (c : Ring) : (s.setRing r c).part = s.part := rfl
@[simp] theorem State.setRing_clk (s : State) (r : Nat) (c : Ring) : (s.setRing r c).clk = s.clk := rfl
@[simp] theorem State.setRing_boot (s : State) (r : Nat) (c : Ring) : (s.setRing r c).boot = s.boot := rfl
@[simp] theorem State.setRing_cfg (s : State) (r : Nat) (c : Ring) : (s.setRing r c).cfg = s.cfg := rfl
@[simp] theorem State.setRing_glob (s : State) (r : Nat) (c : Ring) : (s.setRing r c).glob = s.glob := rfl
@[simp] theorem State.setRing_hw (s : State) (r : Nat) (c : Ring) : (s.setRing r c).hw = { s.hw with rings := Tab.set Ring.reset s.hw.rings r c } := rfl
@[simp] theorem State.setRing_weir (s : State) (r : Nat) (c : Ring) : (s.setRing r c).weir = s.weir := rfl
@[simp] theorem State.setRing_pools (s : State) (r : Nat) (c : Ring) : (s.setRing r c).pools = s.pools := rfl
@[simp] theorem State.setRing_sig (s : State) (r : Nat) (c : Ring) : (s.setRing r c).sig = s.sig := rfl
@[simp] theorem State.setRing_pt (s : State) (r : Nat) (c : Ring) : (s.setRing r c).pt = s.pt := rfl
@[simp] theorem State.setRing_tr (s : State) (r : Nat) (c : Ring) : (s.setRing r c).tr = s.tr := rfl
@[simp] theorem State.setRing_ports (s : State) (r : Nat) (c : Ring) : (s.setRing r c).ports = s.ports := rfl
@[simp] theorem State.setRing_fab (s : State) (r : Nat) (c : Ring) : (s.setRing r c).fab = s.fab := rfl
@[simp] theorem State.setRing_peer (s : State) (r : Nat) (c : Ring) : (s.setRing r c).peer = s.peer := rfl
@[simp] theorem State.setRing_clusters (s : State) (r : Nat) (c : Ring) : (s.setRing r c).clusters = s.clusters := rfl
@[simp] theorem State.setRing_pairs (s : State) (r : Nat) (c : Ring) : (s.setRing r c).pairs = s.pairs := rfl
@[simp] theorem State.setRing_ras (s : State) (r : Nat) (c : Ring) : (s.setRing r c).ras = s.ras := rfl
@[simp] theorem State.setRing_recorder (s : State) (r : Nat) (c : Ring) : (s.setRing r c).recorder = s.recorder := rfl
@[simp] theorem State.setRing_trc (s : State) (r : Nat) (c : Ring) : (s.setRing r c).trc = s.trc := rfl
@[simp] theorem State.setRing_link (s : State) (r : Nat) (c : Ring) : (s.setRing r c).link = s.link := rfl
@[simp] theorem State.setRing_smu (s : State) (r : Nat) (c : Ring) : (s.setRing r c).smu = s.smu := rfl
@[simp] theorem State.setRing_tap (s : State) (r : Nat) (c : Ring) : (s.setRing r c).tap = s.tap := rfl
@[simp] theorem State.setRing_mem (s : State) (r : Nat) (c : Ring) : (s.setRing r c).mem = s.mem := rfl
@[simp] theorem State.setRing_out (s : State) (r : Nat) (c : Ring) : (s.setRing r c).out = s.out := rfl
@[simp] theorem State.setRing_freeCtr (s : State) (r : Nat) (c : Ring) : (s.setRing r c).freeCtr = s.freeCtr := rfl
@[simp] theorem State.setRing_pending (s : State) (r : Nat) (c : Ring) : (s.setRing r c).pending = s.pending := rfl

@[simp] theorem State.modRing_part (s : State) (r : Nat) (f : Ring → Ring) : (s.modRing r f).part = s.part := rfl
@[simp] theorem State.modRing_clk (s : State) (r : Nat) (f : Ring → Ring) : (s.modRing r f).clk = s.clk := rfl
@[simp] theorem State.modRing_boot (s : State) (r : Nat) (f : Ring → Ring) : (s.modRing r f).boot = s.boot := rfl
@[simp] theorem State.modRing_cfg (s : State) (r : Nat) (f : Ring → Ring) : (s.modRing r f).cfg = s.cfg := rfl
@[simp] theorem State.modRing_glob (s : State) (r : Nat) (f : Ring → Ring) : (s.modRing r f).glob = s.glob := rfl
@[simp] theorem State.modRing_hw (s : State) (r : Nat) (f : Ring → Ring) : (s.modRing r f).hw = { s.hw with rings := Tab.set Ring.reset s.hw.rings r (f (s.ring r)) } := rfl
@[simp] theorem State.modRing_weir (s : State) (r : Nat) (f : Ring → Ring) : (s.modRing r f).weir = s.weir := rfl
@[simp] theorem State.modRing_pools (s : State) (r : Nat) (f : Ring → Ring) : (s.modRing r f).pools = s.pools := rfl
@[simp] theorem State.modRing_sig (s : State) (r : Nat) (f : Ring → Ring) : (s.modRing r f).sig = s.sig := rfl
@[simp] theorem State.modRing_pt (s : State) (r : Nat) (f : Ring → Ring) : (s.modRing r f).pt = s.pt := rfl
@[simp] theorem State.modRing_tr (s : State) (r : Nat) (f : Ring → Ring) : (s.modRing r f).tr = s.tr := rfl
@[simp] theorem State.modRing_ports (s : State) (r : Nat) (f : Ring → Ring) : (s.modRing r f).ports = s.ports := rfl
@[simp] theorem State.modRing_fab (s : State) (r : Nat) (f : Ring → Ring) : (s.modRing r f).fab = s.fab := rfl
@[simp] theorem State.modRing_peer (s : State) (r : Nat) (f : Ring → Ring) : (s.modRing r f).peer = s.peer := rfl
@[simp] theorem State.modRing_clusters (s : State) (r : Nat) (f : Ring → Ring) : (s.modRing r f).clusters = s.clusters := rfl
@[simp] theorem State.modRing_pairs (s : State) (r : Nat) (f : Ring → Ring) : (s.modRing r f).pairs = s.pairs := rfl
@[simp] theorem State.modRing_ras (s : State) (r : Nat) (f : Ring → Ring) : (s.modRing r f).ras = s.ras := rfl
@[simp] theorem State.modRing_recorder (s : State) (r : Nat) (f : Ring → Ring) : (s.modRing r f).recorder = s.recorder := rfl
@[simp] theorem State.modRing_trc (s : State) (r : Nat) (f : Ring → Ring) : (s.modRing r f).trc = s.trc := rfl
@[simp] theorem State.modRing_link (s : State) (r : Nat) (f : Ring → Ring) : (s.modRing r f).link = s.link := rfl
@[simp] theorem State.modRing_smu (s : State) (r : Nat) (f : Ring → Ring) : (s.modRing r f).smu = s.smu := rfl
@[simp] theorem State.modRing_tap (s : State) (r : Nat) (f : Ring → Ring) : (s.modRing r f).tap = s.tap := rfl
@[simp] theorem State.modRing_mem (s : State) (r : Nat) (f : Ring → Ring) : (s.modRing r f).mem = s.mem := rfl
@[simp] theorem State.modRing_out (s : State) (r : Nat) (f : Ring → Ring) : (s.modRing r f).out = s.out := rfl
@[simp] theorem State.modRing_freeCtr (s : State) (r : Nat) (f : Ring → Ring) : (s.modRing r f).freeCtr = s.freeCtr := rfl
@[simp] theorem State.modRing_pending (s : State) (r : Nat) (f : Ring → Ring) : (s.modRing r f).pending = s.pending := rfl

@[simp] theorem State.putSeq_part (s : State) (p q : Nat) (c : Seq) : (s.putSeq p q c).part = s.part := rfl
@[simp] theorem State.putSeq_clk (s : State) (p q : Nat) (c : Seq) : (s.putSeq p q c).clk = s.clk := rfl
@[simp] theorem State.putSeq_boot (s : State) (p q : Nat) (c : Seq) : (s.putSeq p q c).boot = s.boot := rfl
@[simp] theorem State.putSeq_cfg (s : State) (p q : Nat) (c : Seq) : (s.putSeq p q c).cfg = s.cfg := rfl
@[simp] theorem State.putSeq_glob (s : State) (p q : Nat) (c : Seq) : (s.putSeq p q c).glob = s.glob := rfl
@[simp] theorem State.putSeq_hw (s : State) (p q : Nat) (c : Seq) : (s.putSeq p q c).hw = { s.hw with seqs := Tab.set Seq.free s.hw.seqs (seqKey p q) c } := rfl
@[simp] theorem State.putSeq_weir (s : State) (p q : Nat) (c : Seq) : (s.putSeq p q c).weir = s.weir := rfl
@[simp] theorem State.putSeq_pools (s : State) (p q : Nat) (c : Seq) : (s.putSeq p q c).pools = s.pools := rfl
@[simp] theorem State.putSeq_sig (s : State) (p q : Nat) (c : Seq) : (s.putSeq p q c).sig = s.sig := rfl
@[simp] theorem State.putSeq_pt (s : State) (p q : Nat) (c : Seq) : (s.putSeq p q c).pt = s.pt := rfl
@[simp] theorem State.putSeq_tr (s : State) (p q : Nat) (c : Seq) : (s.putSeq p q c).tr = s.tr := rfl
@[simp] theorem State.putSeq_ports (s : State) (p q : Nat) (c : Seq) : (s.putSeq p q c).ports = s.ports := rfl
@[simp] theorem State.putSeq_fab (s : State) (p q : Nat) (c : Seq) : (s.putSeq p q c).fab = s.fab := rfl
@[simp] theorem State.putSeq_peer (s : State) (p q : Nat) (c : Seq) : (s.putSeq p q c).peer = s.peer := rfl
@[simp] theorem State.putSeq_clusters (s : State) (p q : Nat) (c : Seq) : (s.putSeq p q c).clusters = s.clusters := rfl
@[simp] theorem State.putSeq_pairs (s : State) (p q : Nat) (c : Seq) : (s.putSeq p q c).pairs = s.pairs := rfl
@[simp] theorem State.putSeq_ras (s : State) (p q : Nat) (c : Seq) : (s.putSeq p q c).ras = s.ras := rfl
@[simp] theorem State.putSeq_recorder (s : State) (p q : Nat) (c : Seq) : (s.putSeq p q c).recorder = s.recorder := rfl
@[simp] theorem State.putSeq_trc (s : State) (p q : Nat) (c : Seq) : (s.putSeq p q c).trc = s.trc := rfl
@[simp] theorem State.putSeq_link (s : State) (p q : Nat) (c : Seq) : (s.putSeq p q c).link = s.link := rfl
@[simp] theorem State.putSeq_smu (s : State) (p q : Nat) (c : Seq) : (s.putSeq p q c).smu = s.smu := rfl
@[simp] theorem State.putSeq_tap (s : State) (p q : Nat) (c : Seq) : (s.putSeq p q c).tap = s.tap := rfl
@[simp] theorem State.putSeq_mem (s : State) (p q : Nat) (c : Seq) : (s.putSeq p q c).mem = s.mem := rfl
@[simp] theorem State.putSeq_out (s : State) (p q : Nat) (c : Seq) : (s.putSeq p q c).out = s.out := rfl
@[simp] theorem State.putSeq_freeCtr (s : State) (p q : Nat) (c : Seq) : (s.putSeq p q c).freeCtr = s.freeCtr := rfl
@[simp] theorem State.putSeq_pending (s : State) (p q : Nat) (c : Seq) : (s.putSeq p q c).pending = s.pending := rfl

@[simp] theorem State.modHw_part (s : State) (f : Hw → Hw) : (s.modHw f).part = s.part := rfl
@[simp] theorem State.modHw_clk (s : State) (f : Hw → Hw) : (s.modHw f).clk = s.clk := rfl
@[simp] theorem State.modHw_boot (s : State) (f : Hw → Hw) : (s.modHw f).boot = s.boot := rfl
@[simp] theorem State.modHw_cfg (s : State) (f : Hw → Hw) : (s.modHw f).cfg = s.cfg := rfl
@[simp] theorem State.modHw_glob (s : State) (f : Hw → Hw) : (s.modHw f).glob = s.glob := rfl
@[simp] theorem State.modHw_hw (s : State) (f : Hw → Hw) : (s.modHw f).hw = f s.hw := rfl
@[simp] theorem State.modHw_weir (s : State) (f : Hw → Hw) : (s.modHw f).weir = s.weir := rfl
@[simp] theorem State.modHw_pools (s : State) (f : Hw → Hw) : (s.modHw f).pools = s.pools := rfl
@[simp] theorem State.modHw_sig (s : State) (f : Hw → Hw) : (s.modHw f).sig = s.sig := rfl
@[simp] theorem State.modHw_pt (s : State) (f : Hw → Hw) : (s.modHw f).pt = s.pt := rfl
@[simp] theorem State.modHw_tr (s : State) (f : Hw → Hw) : (s.modHw f).tr = s.tr := rfl
@[simp] theorem State.modHw_ports (s : State) (f : Hw → Hw) : (s.modHw f).ports = s.ports := rfl
@[simp] theorem State.modHw_fab (s : State) (f : Hw → Hw) : (s.modHw f).fab = s.fab := rfl
@[simp] theorem State.modHw_peer (s : State) (f : Hw → Hw) : (s.modHw f).peer = s.peer := rfl
@[simp] theorem State.modHw_clusters (s : State) (f : Hw → Hw) : (s.modHw f).clusters = s.clusters := rfl
@[simp] theorem State.modHw_pairs (s : State) (f : Hw → Hw) : (s.modHw f).pairs = s.pairs := rfl
@[simp] theorem State.modHw_ras (s : State) (f : Hw → Hw) : (s.modHw f).ras = s.ras := rfl
@[simp] theorem State.modHw_recorder (s : State) (f : Hw → Hw) : (s.modHw f).recorder = s.recorder := rfl
@[simp] theorem State.modHw_trc (s : State) (f : Hw → Hw) : (s.modHw f).trc = s.trc := rfl
@[simp] theorem State.modHw_link (s : State) (f : Hw → Hw) : (s.modHw f).link = s.link := rfl
@[simp] theorem State.modHw_smu (s : State) (f : Hw → Hw) : (s.modHw f).smu = s.smu := rfl
@[simp] theorem State.modHw_tap (s : State) (f : Hw → Hw) : (s.modHw f).tap = s.tap := rfl
@[simp] theorem State.modHw_mem (s : State) (f : Hw → Hw) : (s.modHw f).mem = s.mem := rfl
@[simp] theorem State.modHw_out (s : State) (f : Hw → Hw) : (s.modHw f).out = s.out := rfl
@[simp] theorem State.modHw_freeCtr (s : State) (f : Hw → Hw) : (s.modHw f).freeCtr = s.freeCtr := rfl
@[simp] theorem State.modHw_pending (s : State) (f : Hw → Hw) : (s.modHw f).pending = s.pending := rfl

@[simp] theorem State.modClk_part (s : State) (f : Clk → Clk) : (s.modClk f).part = s.part := rfl
@[simp] theorem State.modClk_clk (s : State) (f : Clk → Clk) : (s.modClk f).clk = f s.clk := rfl
@[simp] theorem State.modClk_boot (s : State) (f : Clk → Clk) : (s.modClk f).boot = s.boot := rfl
@[simp] theorem State.modClk_cfg (s : State) (f : Clk → Clk) : (s.modClk f).cfg = s.cfg := rfl
@[simp] theorem State.modClk_glob (s : State) (f : Clk → Clk) : (s.modClk f).glob = s.glob := rfl
@[simp] theorem State.modClk_hw (s : State) (f : Clk → Clk) : (s.modClk f).hw = s.hw := rfl
@[simp] theorem State.modClk_weir (s : State) (f : Clk → Clk) : (s.modClk f).weir = s.weir := rfl
@[simp] theorem State.modClk_pools (s : State) (f : Clk → Clk) : (s.modClk f).pools = s.pools := rfl
@[simp] theorem State.modClk_sig (s : State) (f : Clk → Clk) : (s.modClk f).sig = s.sig := rfl
@[simp] theorem State.modClk_pt (s : State) (f : Clk → Clk) : (s.modClk f).pt = s.pt := rfl
@[simp] theorem State.modClk_tr (s : State) (f : Clk → Clk) : (s.modClk f).tr = s.tr := rfl
@[simp] theorem State.modClk_ports (s : State) (f : Clk → Clk) : (s.modClk f).ports = s.ports := rfl
@[simp] theorem State.modClk_fab (s : State) (f : Clk → Clk) : (s.modClk f).fab = s.fab := rfl
@[simp] theorem State.modClk_peer (s : State) (f : Clk → Clk) : (s.modClk f).peer = s.peer := rfl
@[simp] theorem State.modClk_clusters (s : State) (f : Clk → Clk) : (s.modClk f).clusters = s.clusters := rfl
@[simp] theorem State.modClk_pairs (s : State) (f : Clk → Clk) : (s.modClk f).pairs = s.pairs := rfl
@[simp] theorem State.modClk_ras (s : State) (f : Clk → Clk) : (s.modClk f).ras = s.ras := rfl
@[simp] theorem State.modClk_recorder (s : State) (f : Clk → Clk) : (s.modClk f).recorder = s.recorder := rfl
@[simp] theorem State.modClk_trc (s : State) (f : Clk → Clk) : (s.modClk f).trc = s.trc := rfl
@[simp] theorem State.modClk_link (s : State) (f : Clk → Clk) : (s.modClk f).link = s.link := rfl
@[simp] theorem State.modClk_smu (s : State) (f : Clk → Clk) : (s.modClk f).smu = s.smu := rfl
@[simp] theorem State.modClk_tap (s : State) (f : Clk → Clk) : (s.modClk f).tap = s.tap := rfl
@[simp] theorem State.modClk_mem (s : State) (f : Clk → Clk) : (s.modClk f).mem = s.mem := rfl
@[simp] theorem State.modClk_out (s : State) (f : Clk → Clk) : (s.modClk f).out = s.out := rfl
@[simp] theorem State.modClk_freeCtr (s : State) (f : Clk → Clk) : (s.modClk f).freeCtr = s.freeCtr := rfl
@[simp] theorem State.modClk_pending (s : State) (f : Clk → Clk) : (s.modClk f).pending = s.pending := rfl

@[simp] theorem State.modBoot_part (s : State) (f : Boot → Boot) : (s.modBoot f).part = s.part := rfl
@[simp] theorem State.modBoot_clk (s : State) (f : Boot → Boot) : (s.modBoot f).clk = s.clk := rfl
@[simp] theorem State.modBoot_boot (s : State) (f : Boot → Boot) : (s.modBoot f).boot = f s.boot := rfl
@[simp] theorem State.modBoot_cfg (s : State) (f : Boot → Boot) : (s.modBoot f).cfg = s.cfg := rfl
@[simp] theorem State.modBoot_glob (s : State) (f : Boot → Boot) : (s.modBoot f).glob = s.glob := rfl
@[simp] theorem State.modBoot_hw (s : State) (f : Boot → Boot) : (s.modBoot f).hw = s.hw := rfl
@[simp] theorem State.modBoot_weir (s : State) (f : Boot → Boot) : (s.modBoot f).weir = s.weir := rfl
@[simp] theorem State.modBoot_pools (s : State) (f : Boot → Boot) : (s.modBoot f).pools = s.pools := rfl
@[simp] theorem State.modBoot_sig (s : State) (f : Boot → Boot) : (s.modBoot f).sig = s.sig := rfl
@[simp] theorem State.modBoot_pt (s : State) (f : Boot → Boot) : (s.modBoot f).pt = s.pt := rfl
@[simp] theorem State.modBoot_tr (s : State) (f : Boot → Boot) : (s.modBoot f).tr = s.tr := rfl
@[simp] theorem State.modBoot_ports (s : State) (f : Boot → Boot) : (s.modBoot f).ports = s.ports := rfl
@[simp] theorem State.modBoot_fab (s : State) (f : Boot → Boot) : (s.modBoot f).fab = s.fab := rfl
@[simp] theorem State.modBoot_peer (s : State) (f : Boot → Boot) : (s.modBoot f).peer = s.peer := rfl
@[simp] theorem State.modBoot_clusters (s : State) (f : Boot → Boot) : (s.modBoot f).clusters = s.clusters := rfl
@[simp] theorem State.modBoot_pairs (s : State) (f : Boot → Boot) : (s.modBoot f).pairs = s.pairs := rfl
@[simp] theorem State.modBoot_ras (s : State) (f : Boot → Boot) : (s.modBoot f).ras = s.ras := rfl
@[simp] theorem State.modBoot_recorder (s : State) (f : Boot → Boot) : (s.modBoot f).recorder = s.recorder := rfl
@[simp] theorem State.modBoot_trc (s : State) (f : Boot → Boot) : (s.modBoot f).trc = s.trc := rfl
@[simp] theorem State.modBoot_link (s : State) (f : Boot → Boot) : (s.modBoot f).link = s.link := rfl
@[simp] theorem State.modBoot_smu (s : State) (f : Boot → Boot) : (s.modBoot f).smu = s.smu := rfl
@[simp] theorem State.modBoot_tap (s : State) (f : Boot → Boot) : (s.modBoot f).tap = s.tap := rfl
@[simp] theorem State.modBoot_mem (s : State) (f : Boot → Boot) : (s.modBoot f).mem = s.mem := rfl
@[simp] theorem State.modBoot_out (s : State) (f : Boot → Boot) : (s.modBoot f).out = s.out := rfl
@[simp] theorem State.modBoot_freeCtr (s : State) (f : Boot → Boot) : (s.modBoot f).freeCtr = s.freeCtr := rfl
@[simp] theorem State.modBoot_pending (s : State) (f : Boot → Boot) : (s.modBoot f).pending = s.pending := rfl

@[simp] theorem State.modCfg_part (s : State) (f : Cfg → Cfg) : (s.modCfg f).part = s.part := rfl
@[simp] theorem State.modCfg_clk (s : State) (f : Cfg → Cfg) : (s.modCfg f).clk = s.clk := rfl
@[simp] theorem State.modCfg_boot (s : State) (f : Cfg → Cfg) : (s.modCfg f).boot = s.boot := rfl
@[simp] theorem State.modCfg_cfg (s : State) (f : Cfg → Cfg) : (s.modCfg f).cfg = f s.cfg := rfl
@[simp] theorem State.modCfg_glob (s : State) (f : Cfg → Cfg) : (s.modCfg f).glob = s.glob := rfl
@[simp] theorem State.modCfg_hw (s : State) (f : Cfg → Cfg) : (s.modCfg f).hw = s.hw := rfl
@[simp] theorem State.modCfg_weir (s : State) (f : Cfg → Cfg) : (s.modCfg f).weir = s.weir := rfl
@[simp] theorem State.modCfg_pools (s : State) (f : Cfg → Cfg) : (s.modCfg f).pools = s.pools := rfl
@[simp] theorem State.modCfg_sig (s : State) (f : Cfg → Cfg) : (s.modCfg f).sig = s.sig := rfl
@[simp] theorem State.modCfg_pt (s : State) (f : Cfg → Cfg) : (s.modCfg f).pt = s.pt := rfl
@[simp] theorem State.modCfg_tr (s : State) (f : Cfg → Cfg) : (s.modCfg f).tr = s.tr := rfl
@[simp] theorem State.modCfg_ports (s : State) (f : Cfg → Cfg) : (s.modCfg f).ports = s.ports := rfl
@[simp] theorem State.modCfg_fab (s : State) (f : Cfg → Cfg) : (s.modCfg f).fab = s.fab := rfl
@[simp] theorem State.modCfg_peer (s : State) (f : Cfg → Cfg) : (s.modCfg f).peer = s.peer := rfl
@[simp] theorem State.modCfg_clusters (s : State) (f : Cfg → Cfg) : (s.modCfg f).clusters = s.clusters := rfl
@[simp] theorem State.modCfg_pairs (s : State) (f : Cfg → Cfg) : (s.modCfg f).pairs = s.pairs := rfl
@[simp] theorem State.modCfg_ras (s : State) (f : Cfg → Cfg) : (s.modCfg f).ras = s.ras := rfl
@[simp] theorem State.modCfg_recorder (s : State) (f : Cfg → Cfg) : (s.modCfg f).recorder = s.recorder := rfl
@[simp] theorem State.modCfg_trc (s : State) (f : Cfg → Cfg) : (s.modCfg f).trc = s.trc := rfl
@[simp] theorem State.modCfg_link (s : State) (f : Cfg → Cfg) : (s.modCfg f).link = s.link := rfl
@[simp] theorem State.modCfg_smu (s : State) (f : Cfg → Cfg) : (s.modCfg f).smu = s.smu := rfl
@[simp] theorem State.modCfg_tap (s : State) (f : Cfg → Cfg) : (s.modCfg f).tap = s.tap := rfl
@[simp] theorem State.modCfg_mem (s : State) (f : Cfg → Cfg) : (s.modCfg f).mem = s.mem := rfl
@[simp] theorem State.modCfg_out (s : State) (f : Cfg → Cfg) : (s.modCfg f).out = s.out := rfl
@[simp] theorem State.modCfg_freeCtr (s : State) (f : Cfg → Cfg) : (s.modCfg f).freeCtr = s.freeCtr := rfl
@[simp] theorem State.modCfg_pending (s : State) (f : Cfg → Cfg) : (s.modCfg f).pending = s.pending := rfl

@[simp] theorem State.modWeir_part (s : State) (f : Weir → Weir) : (s.modWeir f).part = s.part := rfl
@[simp] theorem State.modWeir_clk (s : State) (f : Weir → Weir) : (s.modWeir f).clk = s.clk := rfl
@[simp] theorem State.modWeir_boot (s : State) (f : Weir → Weir) : (s.modWeir f).boot = s.boot := rfl
@[simp] theorem State.modWeir_cfg (s : State) (f : Weir → Weir) : (s.modWeir f).cfg = s.cfg := rfl
@[simp] theorem State.modWeir_glob (s : State) (f : Weir → Weir) : (s.modWeir f).glob = s.glob := rfl
@[simp] theorem State.modWeir_hw (s : State) (f : Weir → Weir) : (s.modWeir f).hw = s.hw := rfl
@[simp] theorem State.modWeir_weir (s : State) (f : Weir → Weir) : (s.modWeir f).weir = f s.weir := rfl
@[simp] theorem State.modWeir_pools (s : State) (f : Weir → Weir) : (s.modWeir f).pools = s.pools := rfl
@[simp] theorem State.modWeir_sig (s : State) (f : Weir → Weir) : (s.modWeir f).sig = s.sig := rfl
@[simp] theorem State.modWeir_pt (s : State) (f : Weir → Weir) : (s.modWeir f).pt = s.pt := rfl
@[simp] theorem State.modWeir_tr (s : State) (f : Weir → Weir) : (s.modWeir f).tr = s.tr := rfl
@[simp] theorem State.modWeir_ports (s : State) (f : Weir → Weir) : (s.modWeir f).ports = s.ports := rfl
@[simp] theorem State.modWeir_fab (s : State) (f : Weir → Weir) : (s.modWeir f).fab = s.fab := rfl
@[simp] theorem State.modWeir_peer (s : State) (f : Weir → Weir) : (s.modWeir f).peer = s.peer := rfl
@[simp] theorem State.modWeir_clusters (s : State) (f : Weir → Weir) : (s.modWeir f).clusters = s.clusters := rfl
@[simp] theorem State.modWeir_pairs (s : State) (f : Weir → Weir) : (s.modWeir f).pairs = s.pairs := rfl
@[simp] theorem State.modWeir_ras (s : State) (f : Weir → Weir) : (s.modWeir f).ras = s.ras := rfl
@[simp] theorem State.modWeir_recorder (s : State) (f : Weir → Weir) : (s.modWeir f).recorder = s.recorder := rfl
@[simp] theorem State.modWeir_trc (s : State) (f : Weir → Weir) : (s.modWeir f).trc = s.trc := rfl
@[simp] theorem State.modWeir_link (s : State) (f : Weir → Weir) : (s.modWeir f).link = s.link := rfl
@[simp] theorem State.modWeir_smu (s : State) (f : Weir → Weir) : (s.modWeir f).smu = s.smu := rfl
@[simp] theorem State.modWeir_tap (s : State) (f : Weir → Weir) : (s.modWeir f).tap = s.tap := rfl
@[simp] theorem State.modWeir_mem (s : State) (f : Weir → Weir) : (s.modWeir f).mem = s.mem := rfl
@[simp] theorem State.modWeir_out (s : State) (f : Weir → Weir) : (s.modWeir f).out = s.out := rfl
@[simp] theorem State.modWeir_freeCtr (s : State) (f : Weir → Weir) : (s.modWeir f).freeCtr = s.freeCtr := rfl
@[simp] theorem State.modWeir_pending (s : State) (f : Weir → Weir) : (s.modWeir f).pending = s.pending := rfl

@[simp] theorem State.modRas_part (s : State) (f : Ras → Ras) : (s.modRas f).part = s.part := rfl
@[simp] theorem State.modRas_clk (s : State) (f : Ras → Ras) : (s.modRas f).clk = s.clk := rfl
@[simp] theorem State.modRas_boot (s : State) (f : Ras → Ras) : (s.modRas f).boot = s.boot := rfl
@[simp] theorem State.modRas_cfg (s : State) (f : Ras → Ras) : (s.modRas f).cfg = s.cfg := rfl
@[simp] theorem State.modRas_glob (s : State) (f : Ras → Ras) : (s.modRas f).glob = s.glob := rfl
@[simp] theorem State.modRas_hw (s : State) (f : Ras → Ras) : (s.modRas f).hw = s.hw := rfl
@[simp] theorem State.modRas_weir (s : State) (f : Ras → Ras) : (s.modRas f).weir = s.weir := rfl
@[simp] theorem State.modRas_pools (s : State) (f : Ras → Ras) : (s.modRas f).pools = s.pools := rfl
@[simp] theorem State.modRas_sig (s : State) (f : Ras → Ras) : (s.modRas f).sig = s.sig := rfl
@[simp] theorem State.modRas_pt (s : State) (f : Ras → Ras) : (s.modRas f).pt = s.pt := rfl
@[simp] theorem State.modRas_tr (s : State) (f : Ras → Ras) : (s.modRas f).tr = s.tr := rfl
@[simp] theorem State.modRas_ports (s : State) (f : Ras → Ras) : (s.modRas f).ports = s.ports := rfl
@[simp] theorem State.modRas_fab (s : State) (f : Ras → Ras) : (s.modRas f).fab = s.fab := rfl
@[simp] theorem State.modRas_peer (s : State) (f : Ras → Ras) : (s.modRas f).peer = s.peer := rfl
@[simp] theorem State.modRas_clusters (s : State) (f : Ras → Ras) : (s.modRas f).clusters = s.clusters := rfl
@[simp] theorem State.modRas_pairs (s : State) (f : Ras → Ras) : (s.modRas f).pairs = s.pairs := rfl
@[simp] theorem State.modRas_ras (s : State) (f : Ras → Ras) : (s.modRas f).ras = f s.ras := rfl
@[simp] theorem State.modRas_recorder (s : State) (f : Ras → Ras) : (s.modRas f).recorder = s.recorder := rfl
@[simp] theorem State.modRas_trc (s : State) (f : Ras → Ras) : (s.modRas f).trc = s.trc := rfl
@[simp] theorem State.modRas_link (s : State) (f : Ras → Ras) : (s.modRas f).link = s.link := rfl
@[simp] theorem State.modRas_smu (s : State) (f : Ras → Ras) : (s.modRas f).smu = s.smu := rfl
@[simp] theorem State.modRas_tap (s : State) (f : Ras → Ras) : (s.modRas f).tap = s.tap := rfl
@[simp] theorem State.modRas_mem (s : State) (f : Ras → Ras) : (s.modRas f).mem = s.mem := rfl
@[simp] theorem State.modRas_out (s : State) (f : Ras → Ras) : (s.modRas f).out = s.out := rfl
@[simp] theorem State.modRas_freeCtr (s : State) (f : Ras → Ras) : (s.modRas f).freeCtr = s.freeCtr := rfl
@[simp] theorem State.modRas_pending (s : State) (f : Ras → Ras) : (s.modRas f).pending = s.pending := rfl

@[simp] theorem State.modSmu_part (s : State) (f : Smu → Smu) : (s.modSmu f).part = s.part := rfl
@[simp] theorem State.modSmu_clk (s : State) (f : Smu → Smu) : (s.modSmu f).clk = s.clk := rfl
@[simp] theorem State.modSmu_boot (s : State) (f : Smu → Smu) : (s.modSmu f).boot = s.boot := rfl
@[simp] theorem State.modSmu_cfg (s : State) (f : Smu → Smu) : (s.modSmu f).cfg = s.cfg := rfl
@[simp] theorem State.modSmu_glob (s : State) (f : Smu → Smu) : (s.modSmu f).glob = s.glob := rfl
@[simp] theorem State.modSmu_hw (s : State) (f : Smu → Smu) : (s.modSmu f).hw = s.hw := rfl
@[simp] theorem State.modSmu_weir (s : State) (f : Smu → Smu) : (s.modSmu f).weir = s.weir := rfl
@[simp] theorem State.modSmu_pools (s : State) (f : Smu → Smu) : (s.modSmu f).pools = s.pools := rfl
@[simp] theorem State.modSmu_sig (s : State) (f : Smu → Smu) : (s.modSmu f).sig = s.sig := rfl
@[simp] theorem State.modSmu_pt (s : State) (f : Smu → Smu) : (s.modSmu f).pt = s.pt := rfl
@[simp] theorem State.modSmu_tr (s : State) (f : Smu → Smu) : (s.modSmu f).tr = s.tr := rfl
@[simp] theorem State.modSmu_ports (s : State) (f : Smu → Smu) : (s.modSmu f).ports = s.ports := rfl
@[simp] theorem State.modSmu_fab (s : State) (f : Smu → Smu) : (s.modSmu f).fab = s.fab := rfl
@[simp] theorem State.modSmu_peer (s : State) (f : Smu → Smu) : (s.modSmu f).peer = s.peer := rfl
@[simp] theorem State.modSmu_clusters (s : State) (f : Smu → Smu) : (s.modSmu f).clusters = s.clusters := rfl
@[simp] theorem State.modSmu_pairs (s : State) (f : Smu → Smu) : (s.modSmu f).pairs = s.pairs := rfl
@[simp] theorem State.modSmu_ras (s : State) (f : Smu → Smu) : (s.modSmu f).ras = s.ras := rfl
@[simp] theorem State.modSmu_recorder (s : State) (f : Smu → Smu) : (s.modSmu f).recorder = s.recorder := rfl
@[simp] theorem State.modSmu_trc (s : State) (f : Smu → Smu) : (s.modSmu f).trc = s.trc := rfl
@[simp] theorem State.modSmu_link (s : State) (f : Smu → Smu) : (s.modSmu f).link = s.link := rfl
@[simp] theorem State.modSmu_smu (s : State) (f : Smu → Smu) : (s.modSmu f).smu = f s.smu := rfl
@[simp] theorem State.modSmu_tap (s : State) (f : Smu → Smu) : (s.modSmu f).tap = s.tap := rfl
@[simp] theorem State.modSmu_mem (s : State) (f : Smu → Smu) : (s.modSmu f).mem = s.mem := rfl
@[simp] theorem State.modSmu_out (s : State) (f : Smu → Smu) : (s.modSmu f).out = s.out := rfl
@[simp] theorem State.modSmu_freeCtr (s : State) (f : Smu → Smu) : (s.modSmu f).freeCtr = s.freeCtr := rfl
@[simp] theorem State.modSmu_pending (s : State) (f : Smu → Smu) : (s.modSmu f).pending = s.pending := rfl

@[simp] theorem State.modTrc_part (s : State) (f : Trc → Trc) : (s.modTrc f).part = s.part := rfl
@[simp] theorem State.modTrc_clk (s : State) (f : Trc → Trc) : (s.modTrc f).clk = s.clk := rfl
@[simp] theorem State.modTrc_boot (s : State) (f : Trc → Trc) : (s.modTrc f).boot = s.boot := rfl
@[simp] theorem State.modTrc_cfg (s : State) (f : Trc → Trc) : (s.modTrc f).cfg = s.cfg := rfl
@[simp] theorem State.modTrc_glob (s : State) (f : Trc → Trc) : (s.modTrc f).glob = s.glob := rfl
@[simp] theorem State.modTrc_hw (s : State) (f : Trc → Trc) : (s.modTrc f).hw = s.hw := rfl
@[simp] theorem State.modTrc_weir (s : State) (f : Trc → Trc) : (s.modTrc f).weir = s.weir := rfl
@[simp] theorem State.modTrc_pools (s : State) (f : Trc → Trc) : (s.modTrc f).pools = s.pools := rfl
@[simp] theorem State.modTrc_sig (s : State) (f : Trc → Trc) : (s.modTrc f).sig = s.sig := rfl
@[simp] theorem State.modTrc_pt (s : State) (f : Trc → Trc) : (s.modTrc f).pt = s.pt := rfl
@[simp] theorem State.modTrc_tr (s : State) (f : Trc → Trc) : (s.modTrc f).tr = s.tr := rfl
@[simp] theorem State.modTrc_ports (s : State) (f : Trc → Trc) : (s.modTrc f).ports = s.ports := rfl
@[simp] theorem State.modTrc_fab (s : State) (f : Trc → Trc) : (s.modTrc f).fab = s.fab := rfl
@[simp] theorem State.modTrc_peer (s : State) (f : Trc → Trc) : (s.modTrc f).peer = s.peer := rfl
@[simp] theorem State.modTrc_clusters (s : State) (f : Trc → Trc) : (s.modTrc f).clusters = s.clusters := rfl
@[simp] theorem State.modTrc_pairs (s : State) (f : Trc → Trc) : (s.modTrc f).pairs = s.pairs := rfl
@[simp] theorem State.modTrc_ras (s : State) (f : Trc → Trc) : (s.modTrc f).ras = s.ras := rfl
@[simp] theorem State.modTrc_recorder (s : State) (f : Trc → Trc) : (s.modTrc f).recorder = s.recorder := rfl
@[simp] theorem State.modTrc_trc (s : State) (f : Trc → Trc) : (s.modTrc f).trc = f s.trc := rfl
@[simp] theorem State.modTrc_link (s : State) (f : Trc → Trc) : (s.modTrc f).link = s.link := rfl
@[simp] theorem State.modTrc_smu (s : State) (f : Trc → Trc) : (s.modTrc f).smu = s.smu := rfl
@[simp] theorem State.modTrc_tap (s : State) (f : Trc → Trc) : (s.modTrc f).tap = s.tap := rfl
@[simp] theorem State.modTrc_mem (s : State) (f : Trc → Trc) : (s.modTrc f).mem = s.mem := rfl
@[simp] theorem State.modTrc_out (s : State) (f : Trc → Trc) : (s.modTrc f).out = s.out := rfl
@[simp] theorem State.modTrc_freeCtr (s : State) (f : Trc → Trc) : (s.modTrc f).freeCtr = s.freeCtr := rfl
@[simp] theorem State.modTrc_pending (s : State) (f : Trc → Trc) : (s.modTrc f).pending = s.pending := rfl

@[simp] theorem State.modTr_part (s : State) (f : Tr → Tr) : (s.modTr f).part = s.part := rfl
@[simp] theorem State.modTr_clk (s : State) (f : Tr → Tr) : (s.modTr f).clk = s.clk := rfl
@[simp] theorem State.modTr_boot (s : State) (f : Tr → Tr) : (s.modTr f).boot = s.boot := rfl
@[simp] theorem State.modTr_cfg (s : State) (f : Tr → Tr) : (s.modTr f).cfg = s.cfg := rfl
@[simp] theorem State.modTr_glob (s : State) (f : Tr → Tr) : (s.modTr f).glob = s.glob := rfl
@[simp] theorem State.modTr_hw (s : State) (f : Tr → Tr) : (s.modTr f).hw = s.hw := rfl
@[simp] theorem State.modTr_weir (s : State) (f : Tr → Tr) : (s.modTr f).weir = s.weir := rfl
@[simp] theorem State.modTr_pools (s : State) (f : Tr → Tr) : (s.modTr f).pools = s.pools := rfl
@[simp] theorem State.modTr_sig (s : State) (f : Tr → Tr) : (s.modTr f).sig = s.sig := rfl
@[simp] theorem State.modTr_pt (s : State) (f : Tr → Tr) : (s.modTr f).pt = s.pt := rfl
@[simp] theorem State.modTr_tr (s : State) (f : Tr → Tr) : (s.modTr f).tr = f s.tr := rfl
@[simp] theorem State.modTr_ports (s : State) (f : Tr → Tr) : (s.modTr f).ports = s.ports := rfl
@[simp] theorem State.modTr_fab (s : State) (f : Tr → Tr) : (s.modTr f).fab = s.fab := rfl
@[simp] theorem State.modTr_peer (s : State) (f : Tr → Tr) : (s.modTr f).peer = s.peer := rfl
@[simp] theorem State.modTr_clusters (s : State) (f : Tr → Tr) : (s.modTr f).clusters = s.clusters := rfl
@[simp] theorem State.modTr_pairs (s : State) (f : Tr → Tr) : (s.modTr f).pairs = s.pairs := rfl
@[simp] theorem State.modTr_ras (s : State) (f : Tr → Tr) : (s.modTr f).ras = s.ras := rfl
@[simp] theorem State.modTr_recorder (s : State) (f : Tr → Tr) : (s.modTr f).recorder = s.recorder := rfl
@[simp] theorem State.modTr_trc (s : State) (f : Tr → Tr) : (s.modTr f).trc = s.trc := rfl
@[simp] theorem State.modTr_link (s : State) (f : Tr → Tr) : (s.modTr f).link = s.link := rfl
@[simp] theorem State.modTr_smu (s : State) (f : Tr → Tr) : (s.modTr f).smu = s.smu := rfl
@[simp] theorem State.modTr_tap (s : State) (f : Tr → Tr) : (s.modTr f).tap = s.tap := rfl
@[simp] theorem State.modTr_mem (s : State) (f : Tr → Tr) : (s.modTr f).mem = s.mem := rfl
@[simp] theorem State.modTr_out (s : State) (f : Tr → Tr) : (s.modTr f).out = s.out := rfl
@[simp] theorem State.modTr_freeCtr (s : State) (f : Tr → Tr) : (s.modTr f).freeCtr = s.freeCtr := rfl
@[simp] theorem State.modTr_pending (s : State) (f : Tr → Tr) : (s.modTr f).pending = s.pending := rfl

@[simp] theorem State.modSig_part (s : State) (f : Sig → Sig) : (s.modSig f).part = s.part := rfl
@[simp] theorem State.modSig_clk (s : State) (f : Sig → Sig) : (s.modSig f).clk = s.clk := rfl
@[simp] theorem State.modSig_boot (s : State) (f : Sig → Sig) : (s.modSig f).boot = s.boot := rfl
@[simp] theorem State.modSig_cfg (s : State) (f : Sig → Sig) : (s.modSig f).cfg = s.cfg := rfl
@[simp] theorem State.modSig_glob (s : State) (f : Sig → Sig) : (s.modSig f).glob = s.glob := rfl
@[simp] theorem State.modSig_hw (s : State) (f : Sig → Sig) : (s.modSig f).hw = s.hw := rfl
@[simp] theorem State.modSig_weir (s : State) (f : Sig → Sig) : (s.modSig f).weir = s.weir := rfl
@[simp] theorem State.modSig_pools (s : State) (f : Sig → Sig) : (s.modSig f).pools = s.pools := rfl
@[simp] theorem State.modSig_sig (s : State) (f : Sig → Sig) : (s.modSig f).sig = f s.sig := rfl
@[simp] theorem State.modSig_pt (s : State) (f : Sig → Sig) : (s.modSig f).pt = s.pt := rfl
@[simp] theorem State.modSig_tr (s : State) (f : Sig → Sig) : (s.modSig f).tr = s.tr := rfl
@[simp] theorem State.modSig_ports (s : State) (f : Sig → Sig) : (s.modSig f).ports = s.ports := rfl
@[simp] theorem State.modSig_fab (s : State) (f : Sig → Sig) : (s.modSig f).fab = s.fab := rfl
@[simp] theorem State.modSig_peer (s : State) (f : Sig → Sig) : (s.modSig f).peer = s.peer := rfl
@[simp] theorem State.modSig_clusters (s : State) (f : Sig → Sig) : (s.modSig f).clusters = s.clusters := rfl
@[simp] theorem State.modSig_pairs (s : State) (f : Sig → Sig) : (s.modSig f).pairs = s.pairs := rfl
@[simp] theorem State.modSig_ras (s : State) (f : Sig → Sig) : (s.modSig f).ras = s.ras := rfl
@[simp] theorem State.modSig_recorder (s : State) (f : Sig → Sig) : (s.modSig f).recorder = s.recorder := rfl
@[simp] theorem State.modSig_trc (s : State) (f : Sig → Sig) : (s.modSig f).trc = s.trc := rfl
@[simp] theorem State.modSig_link (s : State) (f : Sig → Sig) : (s.modSig f).link = s.link := rfl
@[simp] theorem State.modSig_smu (s : State) (f : Sig → Sig) : (s.modSig f).smu = s.smu := rfl
@[simp] theorem State.modSig_tap (s : State) (f : Sig → Sig) : (s.modSig f).tap = s.tap := rfl
@[simp] theorem State.modSig_mem (s : State) (f : Sig → Sig) : (s.modSig f).mem = s.mem := rfl
@[simp] theorem State.modSig_out (s : State) (f : Sig → Sig) : (s.modSig f).out = s.out := rfl
@[simp] theorem State.modSig_freeCtr (s : State) (f : Sig → Sig) : (s.modSig f).freeCtr = s.freeCtr := rfl
@[simp] theorem State.modSig_pending (s : State) (f : Sig → Sig) : (s.modSig f).pending = s.pending := rfl

@[simp] theorem State.modRecorder_part (s : State) (f : Recorder → Recorder) : (s.modRecorder f).part = s.part := rfl
@[simp] theorem State.modRecorder_clk (s : State) (f : Recorder → Recorder) : (s.modRecorder f).clk = s.clk := rfl
@[simp] theorem State.modRecorder_boot (s : State) (f : Recorder → Recorder) : (s.modRecorder f).boot = s.boot := rfl
@[simp] theorem State.modRecorder_cfg (s : State) (f : Recorder → Recorder) : (s.modRecorder f).cfg = s.cfg := rfl
@[simp] theorem State.modRecorder_glob (s : State) (f : Recorder → Recorder) : (s.modRecorder f).glob = s.glob := rfl
@[simp] theorem State.modRecorder_hw (s : State) (f : Recorder → Recorder) : (s.modRecorder f).hw = s.hw := rfl
@[simp] theorem State.modRecorder_weir (s : State) (f : Recorder → Recorder) : (s.modRecorder f).weir = s.weir := rfl
@[simp] theorem State.modRecorder_pools (s : State) (f : Recorder → Recorder) : (s.modRecorder f).pools = s.pools := rfl
@[simp] theorem State.modRecorder_sig (s : State) (f : Recorder → Recorder) : (s.modRecorder f).sig = s.sig := rfl
@[simp] theorem State.modRecorder_pt (s : State) (f : Recorder → Recorder) : (s.modRecorder f).pt = s.pt := rfl
@[simp] theorem State.modRecorder_tr (s : State) (f : Recorder → Recorder) : (s.modRecorder f).tr = s.tr := rfl
@[simp] theorem State.modRecorder_ports (s : State) (f : Recorder → Recorder) : (s.modRecorder f).ports = s.ports := rfl
@[simp] theorem State.modRecorder_fab (s : State) (f : Recorder → Recorder) : (s.modRecorder f).fab = s.fab := rfl
@[simp] theorem State.modRecorder_peer (s : State) (f : Recorder → Recorder) : (s.modRecorder f).peer = s.peer := rfl
@[simp] theorem State.modRecorder_clusters (s : State) (f : Recorder → Recorder) : (s.modRecorder f).clusters = s.clusters := rfl
@[simp] theorem State.modRecorder_pairs (s : State) (f : Recorder → Recorder) : (s.modRecorder f).pairs = s.pairs := rfl
@[simp] theorem State.modRecorder_ras (s : State) (f : Recorder → Recorder) : (s.modRecorder f).ras = s.ras := rfl
@[simp] theorem State.modRecorder_recorder (s : State) (f : Recorder → Recorder) : (s.modRecorder f).recorder = f s.recorder := rfl
@[simp] theorem State.modRecorder_trc (s : State) (f : Recorder → Recorder) : (s.modRecorder f).trc = s.trc := rfl
@[simp] theorem State.modRecorder_link (s : State) (f : Recorder → Recorder) : (s.modRecorder f).link = s.link := rfl
@[simp] theorem State.modRecorder_smu (s : State) (f : Recorder → Recorder) : (s.modRecorder f).smu = s.smu := rfl
@[simp] theorem State.modRecorder_tap (s : State) (f : Recorder → Recorder) : (s.modRecorder f).tap = s.tap := rfl
@[simp] theorem State.modRecorder_mem (s : State) (f : Recorder → Recorder) : (s.modRecorder f).mem = s.mem := rfl
@[simp] theorem State.modRecorder_out (s : State) (f : Recorder → Recorder) : (s.modRecorder f).out = s.out := rfl
@[simp] theorem State.modRecorder_freeCtr (s : State) (f : Recorder → Recorder) : (s.modRecorder f).freeCtr = s.freeCtr := rfl
@[simp] theorem State.modRecorder_pending (s : State) (f : Recorder → Recorder) : (s.modRecorder f).pending = s.pending := rfl

@[simp] theorem State.modLink_part (s : State) (f : Link → Link) : (s.modLink f).part = s.part := rfl
@[simp] theorem State.modLink_clk (s : State) (f : Link → Link) : (s.modLink f).clk = s.clk := rfl
@[simp] theorem State.modLink_boot (s : State) (f : Link → Link) : (s.modLink f).boot = s.boot := rfl
@[simp] theorem State.modLink_cfg (s : State) (f : Link → Link) : (s.modLink f).cfg = s.cfg := rfl
@[simp] theorem State.modLink_glob (s : State) (f : Link → Link) : (s.modLink f).glob = s.glob := rfl
@[simp] theorem State.modLink_hw (s : State) (f : Link → Link) : (s.modLink f).hw = s.hw := rfl
@[simp] theorem State.modLink_weir (s : State) (f : Link → Link) : (s.modLink f).weir = s.weir := rfl
@[simp] theorem State.modLink_pools (s : State) (f : Link → Link) : (s.modLink f).pools = s.pools := rfl
@[simp] theorem State.modLink_sig (s : State) (f : Link → Link) : (s.modLink f).sig = s.sig := rfl
@[simp] theorem State.modLink_pt (s : State) (f : Link → Link) : (s.modLink f).pt = s.pt := rfl
@[simp] theorem State.modLink_tr (s : State) (f : Link → Link) : (s.modLink f).tr = s.tr := rfl
@[simp] theorem State.modLink_ports (s : State) (f : Link → Link) : (s.modLink f).ports = s.ports := rfl
@[simp] theorem State.modLink_fab (s : State) (f : Link → Link) : (s.modLink f).fab = s.fab := rfl
@[simp] theorem State.modLink_peer (s : State) (f : Link → Link) : (s.modLink f).peer = s.peer := rfl
@[simp] theorem State.modLink_clusters (s : State) (f : Link → Link) : (s.modLink f).clusters = s.clusters := rfl
@[simp] theorem State.modLink_pairs (s : State) (f : Link → Link) : (s.modLink f).pairs = s.pairs := rfl
@[simp] theorem State.modLink_ras (s : State) (f : Link → Link) : (s.modLink f).ras = s.ras := rfl
@[simp] theorem State.modLink_recorder (s : State) (f : Link → Link) : (s.modLink f).recorder = s.recorder := rfl
@[simp] theorem State.modLink_trc (s : State) (f : Link → Link) : (s.modLink f).trc = s.trc := rfl
@[simp] theorem State.modLink_link (s : State) (f : Link → Link) : (s.modLink f).link = f s.link := rfl
@[simp] theorem State.modLink_smu (s : State) (f : Link → Link) : (s.modLink f).smu = s.smu := rfl
@[simp] theorem State.modLink_tap (s : State) (f : Link → Link) : (s.modLink f).tap = s.tap := rfl
@[simp] theorem State.modLink_mem (s : State) (f : Link → Link) : (s.modLink f).mem = s.mem := rfl
@[simp] theorem State.modLink_out (s : State) (f : Link → Link) : (s.modLink f).out = s.out := rfl
@[simp] theorem State.modLink_freeCtr (s : State) (f : Link → Link) : (s.modLink f).freeCtr = s.freeCtr := rfl
@[simp] theorem State.modLink_pending (s : State) (f : Link → Link) : (s.modLink f).pending = s.pending := rfl

@[simp] theorem State.modOut_part (s : State) (f : Out → Out) : (s.modOut f).part = s.part := rfl
@[simp] theorem State.modOut_clk (s : State) (f : Out → Out) : (s.modOut f).clk = s.clk := rfl
@[simp] theorem State.modOut_boot (s : State) (f : Out → Out) : (s.modOut f).boot = s.boot := rfl
@[simp] theorem State.modOut_cfg (s : State) (f : Out → Out) : (s.modOut f).cfg = s.cfg := rfl
@[simp] theorem State.modOut_glob (s : State) (f : Out → Out) : (s.modOut f).glob = s.glob := rfl
@[simp] theorem State.modOut_hw (s : State) (f : Out → Out) : (s.modOut f).hw = s.hw := rfl
@[simp] theorem State.modOut_weir (s : State) (f : Out → Out) : (s.modOut f).weir = s.weir := rfl
@[simp] theorem State.modOut_pools (s : State) (f : Out → Out) : (s.modOut f).pools = s.pools := rfl
@[simp] theorem State.modOut_sig (s : State) (f : Out → Out) : (s.modOut f).sig = s.sig := rfl
@[simp] theorem State.modOut_pt (s : State) (f : Out → Out) : (s.modOut f).pt = s.pt := rfl
@[simp] theorem State.modOut_tr (s : State) (f : Out → Out) : (s.modOut f).tr = s.tr := rfl
@[simp] theorem State.modOut_ports (s : State) (f : Out → Out) : (s.modOut f).ports = s.ports := rfl
@[simp] theorem State.modOut_fab (s : State) (f : Out → Out) : (s.modOut f).fab = s.fab := rfl
@[simp] theorem State.modOut_peer (s : State) (f : Out → Out) : (s.modOut f).peer = s.peer := rfl
@[simp] theorem State.modOut_clusters (s : State) (f : Out → Out) : (s.modOut f).clusters = s.clusters := rfl
@[simp] theorem State.modOut_pairs (s : State) (f : Out → Out) : (s.modOut f).pairs = s.pairs := rfl
@[simp] theorem State.modOut_ras (s : State) (f : Out → Out) : (s.modOut f).ras = s.ras := rfl
@[simp] theorem State.modOut_recorder (s : State) (f : Out → Out) : (s.modOut f).recorder = s.recorder := rfl
@[simp] theorem State.modOut_trc (s : State) (f : Out → Out) : (s.modOut f).trc = s.trc := rfl
@[simp] theorem State.modOut_link (s : State) (f : Out → Out) : (s.modOut f).link = s.link := rfl
@[simp] theorem State.modOut_smu (s : State) (f : Out → Out) : (s.modOut f).smu = s.smu := rfl
@[simp] theorem State.modOut_tap (s : State) (f : Out → Out) : (s.modOut f).tap = s.tap := rfl
@[simp] theorem State.modOut_mem (s : State) (f : Out → Out) : (s.modOut f).mem = s.mem := rfl
@[simp] theorem State.modOut_out (s : State) (f : Out → Out) : (s.modOut f).out = f s.out := rfl
@[simp] theorem State.modOut_freeCtr (s : State) (f : Out → Out) : (s.modOut f).freeCtr = s.freeCtr := rfl
@[simp] theorem State.modOut_pending (s : State) (f : Out → Out) : (s.modOut f).pending = s.pending := rfl

@[simp] theorem State.modFab_part (s : State) (f : Fab → Fab) : (s.modFab f).part = s.part := rfl
@[simp] theorem State.modFab_clk (s : State) (f : Fab → Fab) : (s.modFab f).clk = s.clk := rfl
@[simp] theorem State.modFab_boot (s : State) (f : Fab → Fab) : (s.modFab f).boot = s.boot := rfl
@[simp] theorem State.modFab_cfg (s : State) (f : Fab → Fab) : (s.modFab f).cfg = s.cfg := rfl
@[simp] theorem State.modFab_glob (s : State) (f : Fab → Fab) : (s.modFab f).glob = s.glob := rfl
@[simp] theorem State.modFab_hw (s : State) (f : Fab → Fab) : (s.modFab f).hw = s.hw := rfl
@[simp] theorem State.modFab_weir (s : State) (f : Fab → Fab) : (s.modFab f).weir = s.weir := rfl
@[simp] theorem State.modFab_pools (s : State) (f : Fab → Fab) : (s.modFab f).pools = s.pools := rfl
@[simp] theorem State.modFab_sig (s : State) (f : Fab → Fab) : (s.modFab f).sig = s.sig := rfl
@[simp] theorem State.modFab_pt (s : State) (f : Fab → Fab) : (s.modFab f).pt = s.pt := rfl
@[simp] theorem State.modFab_tr (s : State) (f : Fab → Fab) : (s.modFab f).tr = s.tr := rfl
@[simp] theorem State.modFab_ports (s : State) (f : Fab → Fab) : (s.modFab f).ports = s.ports := rfl
@[simp] theorem State.modFab_fab (s : State) (f : Fab → Fab) : (s.modFab f).fab = f s.fab := rfl
@[simp] theorem State.modFab_peer (s : State) (f : Fab → Fab) : (s.modFab f).peer = s.peer := rfl
@[simp] theorem State.modFab_clusters (s : State) (f : Fab → Fab) : (s.modFab f).clusters = s.clusters := rfl
@[simp] theorem State.modFab_pairs (s : State) (f : Fab → Fab) : (s.modFab f).pairs = s.pairs := rfl
@[simp] theorem State.modFab_ras (s : State) (f : Fab → Fab) : (s.modFab f).ras = s.ras := rfl
@[simp] theorem State.modFab_recorder (s : State) (f : Fab → Fab) : (s.modFab f).recorder = s.recorder := rfl
@[simp] theorem State.modFab_trc (s : State) (f : Fab → Fab) : (s.modFab f).trc = s.trc := rfl
@[simp] theorem State.modFab_link (s : State) (f : Fab → Fab) : (s.modFab f).link = s.link := rfl
@[simp] theorem State.modFab_smu (s : State) (f : Fab → Fab) : (s.modFab f).smu = s.smu := rfl
@[simp] theorem State.modFab_tap (s : State) (f : Fab → Fab) : (s.modFab f).tap = s.tap := rfl
@[simp] theorem State.modFab_mem (s : State) (f : Fab → Fab) : (s.modFab f).mem = s.mem := rfl
@[simp] theorem State.modFab_out (s : State) (f : Fab → Fab) : (s.modFab f).out = s.out := rfl
@[simp] theorem State.modFab_freeCtr (s : State) (f : Fab → Fab) : (s.modFab f).freeCtr = s.freeCtr := rfl
@[simp] theorem State.modFab_pending (s : State) (f : Fab → Fab) : (s.modFab f).pending = s.pending := rfl

@[simp] theorem State.modPeer_part (s : State) (f : Peer → Peer) : (s.modPeer f).part = s.part := rfl
@[simp] theorem State.modPeer_clk (s : State) (f : Peer → Peer) : (s.modPeer f).clk = s.clk := rfl
@[simp] theorem State.modPeer_boot (s : State) (f : Peer → Peer) : (s.modPeer f).boot = s.boot := rfl
@[simp] theorem State.modPeer_cfg (s : State) (f : Peer → Peer) : (s.modPeer f).cfg = s.cfg := rfl
@[simp] theorem State.modPeer_glob (s : State) (f : Peer → Peer) : (s.modPeer f).glob = s.glob := rfl
@[simp] theorem State.modPeer_hw (s : State) (f : Peer → Peer) : (s.modPeer f).hw = s.hw := rfl
@[simp] theorem State.modPeer_weir (s : State) (f : Peer → Peer) : (s.modPeer f).weir = s.weir := rfl
@[simp] theorem State.modPeer_pools (s : State) (f : Peer → Peer) : (s.modPeer f).pools = s.pools := rfl
@[simp] theorem State.modPeer_sig (s : State) (f : Peer → Peer) : (s.modPeer f).sig = s.sig := rfl
@[simp] theorem State.modPeer_pt (s : State) (f : Peer → Peer) : (s.modPeer f).pt = s.pt := rfl
@[simp] theorem State.modPeer_tr (s : State) (f : Peer → Peer) : (s.modPeer f).tr = s.tr := rfl
@[simp] theorem State.modPeer_ports (s : State) (f : Peer → Peer) : (s.modPeer f).ports = s.ports := rfl
@[simp] theorem State.modPeer_fab (s : State) (f : Peer → Peer) : (s.modPeer f).fab = s.fab := rfl
@[simp] theorem State.modPeer_peer (s : State) (f : Peer → Peer) : (s.modPeer f).peer = f s.peer := rfl
@[simp] theorem State.modPeer_clusters (s : State) (f : Peer → Peer) : (s.modPeer f).clusters = s.clusters := rfl
@[simp] theorem State.modPeer_pairs (s : State) (f : Peer → Peer) : (s.modPeer f).pairs = s.pairs := rfl
@[simp] theorem State.modPeer_ras (s : State) (f : Peer → Peer) : (s.modPeer f).ras = s.ras := rfl
@[simp] theorem State.modPeer_recorder (s : State) (f : Peer → Peer) : (s.modPeer f).recorder = s.recorder := rfl
@[simp] theorem State.modPeer_trc (s : State) (f : Peer → Peer) : (s.modPeer f).trc = s.trc := rfl
@[simp] theorem State.modPeer_link (s : State) (f : Peer → Peer) : (s.modPeer f).link = s.link := rfl
@[simp] theorem State.modPeer_smu (s : State) (f : Peer → Peer) : (s.modPeer f).smu = s.smu := rfl
@[simp] theorem State.modPeer_tap (s : State) (f : Peer → Peer) : (s.modPeer f).tap = s.tap := rfl
@[simp] theorem State.modPeer_mem (s : State) (f : Peer → Peer) : (s.modPeer f).mem = s.mem := rfl
@[simp] theorem State.modPeer_out (s : State) (f : Peer → Peer) : (s.modPeer f).out = s.out := rfl
@[simp] theorem State.modPeer_freeCtr (s : State) (f : Peer → Peer) : (s.modPeer f).freeCtr = s.freeCtr := rfl
@[simp] theorem State.modPeer_pending (s : State) (f : Peer → Peer) : (s.modPeer f).pending = s.pending := rfl

@[simp] theorem State.modGlob_part (s : State) (f : Glob → Glob) : (s.modGlob f).part = s.part := rfl
@[simp] theorem State.modGlob_clk (s : State) (f : Glob → Glob) : (s.modGlob f).clk = s.clk := rfl
@[simp] theorem State.modGlob_boot (s : State) (f : Glob → Glob) : (s.modGlob f).boot = s.boot := rfl
@[simp] theorem State.modGlob_cfg (s : State) (f : Glob → Glob) : (s.modGlob f).cfg = s.cfg := rfl
@[simp] theorem State.modGlob_glob (s : State) (f : Glob → Glob) : (s.modGlob f).glob = f s.glob := rfl
@[simp] theorem State.modGlob_hw (s : State) (f : Glob → Glob) : (s.modGlob f).hw = s.hw := rfl
@[simp] theorem State.modGlob_weir (s : State) (f : Glob → Glob) : (s.modGlob f).weir = s.weir := rfl
@[simp] theorem State.modGlob_pools (s : State) (f : Glob → Glob) : (s.modGlob f).pools = s.pools := rfl
@[simp] theorem State.modGlob_sig (s : State) (f : Glob → Glob) : (s.modGlob f).sig = s.sig := rfl
@[simp] theorem State.modGlob_pt (s : State) (f : Glob → Glob) : (s.modGlob f).pt = s.pt := rfl
@[simp] theorem State.modGlob_tr (s : State) (f : Glob → Glob) : (s.modGlob f).tr = s.tr := rfl
@[simp] theorem State.modGlob_ports (s : State) (f : Glob → Glob) : (s.modGlob f).ports = s.ports := rfl
@[simp] theorem State.modGlob_fab (s : State) (f : Glob → Glob) : (s.modGlob f).fab = s.fab := rfl
@[simp] theorem State.modGlob_peer (s : State) (f : Glob → Glob) : (s.modGlob f).peer = s.peer := rfl
@[simp] theorem State.modGlob_clusters (s : State) (f : Glob → Glob) : (s.modGlob f).clusters = s.clusters := rfl
@[simp] theorem State.modGlob_pairs (s : State) (f : Glob → Glob) : (s.modGlob f).pairs = s.pairs := rfl
@[simp] theorem State.modGlob_ras (s : State) (f : Glob → Glob) : (s.modGlob f).ras = s.ras := rfl
@[simp] theorem State.modGlob_recorder (s : State) (f : Glob → Glob) : (s.modGlob f).recorder = s.recorder := rfl
@[simp] theorem State.modGlob_trc (s : State) (f : Glob → Glob) : (s.modGlob f).trc = s.trc := rfl
@[simp] theorem State.modGlob_link (s : State) (f : Glob → Glob) : (s.modGlob f).link = s.link := rfl
@[simp] theorem State.modGlob_smu (s : State) (f : Glob → Glob) : (s.modGlob f).smu = s.smu := rfl
@[simp] theorem State.modGlob_tap (s : State) (f : Glob → Glob) : (s.modGlob f).tap = s.tap := rfl
@[simp] theorem State.modGlob_mem (s : State) (f : Glob → Glob) : (s.modGlob f).mem = s.mem := rfl
@[simp] theorem State.modGlob_out (s : State) (f : Glob → Glob) : (s.modGlob f).out = s.out := rfl
@[simp] theorem State.modGlob_freeCtr (s : State) (f : Glob → Glob) : (s.modGlob f).freeCtr = s.freeCtr := rfl
@[simp] theorem State.modGlob_pending (s : State) (f : Glob → Glob) : (s.modGlob f).pending = s.pending := rfl

/-- Log entries and counters reach the RAS unit only. -/
@[simp] theorem State.log_ras (s : State) (e : Tlog) :
    (s.log e).ras = { s.ras with log := Tab.set none s.ras.log (s.ras.total.toNat % Config.tlogMax) (some e), total := s.ras.total + 1 } := rfl
@[simp] theorem State.log_part (s : State) (e : Tlog) : (s.log e).part = s.part := rfl
@[simp] theorem State.log_clk (s : State) (e : Tlog) : (s.log e).clk = s.clk := rfl
@[simp] theorem State.log_boot (s : State) (e : Tlog) : (s.log e).boot = s.boot := rfl
@[simp] theorem State.log_cfg (s : State) (e : Tlog) : (s.log e).cfg = s.cfg := rfl
@[simp] theorem State.log_glob (s : State) (e : Tlog) : (s.log e).glob = s.glob := rfl
@[simp] theorem State.log_hw (s : State) (e : Tlog) : (s.log e).hw = s.hw := rfl
@[simp] theorem State.log_weir (s : State) (e : Tlog) : (s.log e).weir = s.weir := rfl
@[simp] theorem State.log_pools (s : State) (e : Tlog) : (s.log e).pools = s.pools := rfl
@[simp] theorem State.log_sig (s : State) (e : Tlog) : (s.log e).sig = s.sig := rfl
@[simp] theorem State.log_pt (s : State) (e : Tlog) : (s.log e).pt = s.pt := rfl
@[simp] theorem State.log_tr (s : State) (e : Tlog) : (s.log e).tr = s.tr := rfl
@[simp] theorem State.log_ports (s : State) (e : Tlog) : (s.log e).ports = s.ports := rfl
@[simp] theorem State.log_fab (s : State) (e : Tlog) : (s.log e).fab = s.fab := rfl
@[simp] theorem State.log_peer (s : State) (e : Tlog) : (s.log e).peer = s.peer := rfl
@[simp] theorem State.log_clusters (s : State) (e : Tlog) : (s.log e).clusters = s.clusters := rfl
@[simp] theorem State.log_pairs (s : State) (e : Tlog) : (s.log e).pairs = s.pairs := rfl
@[simp] theorem State.log_recorder (s : State) (e : Tlog) : (s.log e).recorder = s.recorder := rfl
@[simp] theorem State.log_trc (s : State) (e : Tlog) : (s.log e).trc = s.trc := rfl
@[simp] theorem State.log_link (s : State) (e : Tlog) : (s.log e).link = s.link := rfl
@[simp] theorem State.log_smu (s : State) (e : Tlog) : (s.log e).smu = s.smu := rfl
@[simp] theorem State.log_tap (s : State) (e : Tlog) : (s.log e).tap = s.tap := rfl
@[simp] theorem State.log_mem (s : State) (e : Tlog) : (s.log e).mem = s.mem := rfl
@[simp] theorem State.log_out (s : State) (e : Tlog) : (s.log e).out = s.out := rfl
@[simp] theorem State.log_freeCtr (s : State) (e : Tlog) : (s.log e).freeCtr = s.freeCtr := rfl
@[simp] theorem State.log_pending (s : State) (e : Tlog) : (s.log e).pending = s.pending := rfl

@[simp] theorem State.note_part (s : State) (k : W16) (p : Option Nat) (h : Bool) (c : BitVec 3) (u : Byte) (o : W32) (a0 a1 : Nat) :
    (s.note k p h c u o a0 a1).part = s.part := rfl
@[simp] theorem State.note_clk (s : State) (k : W16) (p : Option Nat) (h : Bool) (c : BitVec 3) (u : Byte) (o : W32) (a0 a1 : Nat) :
    (s.note k p h c u o a0 a1).clk = s.clk := rfl
@[simp] theorem State.note_boot (s : State) (k : W16) (p : Option Nat) (h : Bool) (c : BitVec 3) (u : Byte) (o : W32) (a0 a1 : Nat) :
    (s.note k p h c u o a0 a1).boot = s.boot := rfl
@[simp] theorem State.note_cfg (s : State) (k : W16) (p : Option Nat) (h : Bool) (c : BitVec 3) (u : Byte) (o : W32) (a0 a1 : Nat) :
    (s.note k p h c u o a0 a1).cfg = s.cfg := rfl
@[simp] theorem State.note_glob (s : State) (k : W16) (p : Option Nat) (h : Bool) (c : BitVec 3) (u : Byte) (o : W32) (a0 a1 : Nat) :
    (s.note k p h c u o a0 a1).glob = s.glob := rfl
@[simp] theorem State.note_hw (s : State) (k : W16) (p : Option Nat) (h : Bool) (c : BitVec 3) (u : Byte) (o : W32) (a0 a1 : Nat) :
    (s.note k p h c u o a0 a1).hw = s.hw := rfl
@[simp] theorem State.note_weir (s : State) (k : W16) (p : Option Nat) (h : Bool) (c : BitVec 3) (u : Byte) (o : W32) (a0 a1 : Nat) :
    (s.note k p h c u o a0 a1).weir = s.weir := rfl
@[simp] theorem State.note_pools (s : State) (k : W16) (p : Option Nat) (h : Bool) (c : BitVec 3) (u : Byte) (o : W32) (a0 a1 : Nat) :
    (s.note k p h c u o a0 a1).pools = s.pools := rfl
@[simp] theorem State.note_sig (s : State) (k : W16) (p : Option Nat) (h : Bool) (c : BitVec 3) (u : Byte) (o : W32) (a0 a1 : Nat) :
    (s.note k p h c u o a0 a1).sig = s.sig := rfl
@[simp] theorem State.note_pt (s : State) (k : W16) (p : Option Nat) (h : Bool) (c : BitVec 3) (u : Byte) (o : W32) (a0 a1 : Nat) :
    (s.note k p h c u o a0 a1).pt = s.pt := rfl
@[simp] theorem State.note_tr (s : State) (k : W16) (p : Option Nat) (h : Bool) (c : BitVec 3) (u : Byte) (o : W32) (a0 a1 : Nat) :
    (s.note k p h c u o a0 a1).tr = s.tr := rfl
@[simp] theorem State.note_ports (s : State) (k : W16) (p : Option Nat) (h : Bool) (c : BitVec 3) (u : Byte) (o : W32) (a0 a1 : Nat) :
    (s.note k p h c u o a0 a1).ports = s.ports := rfl
@[simp] theorem State.note_fab (s : State) (k : W16) (p : Option Nat) (h : Bool) (c : BitVec 3) (u : Byte) (o : W32) (a0 a1 : Nat) :
    (s.note k p h c u o a0 a1).fab = s.fab := rfl
@[simp] theorem State.note_peer (s : State) (k : W16) (p : Option Nat) (h : Bool) (c : BitVec 3) (u : Byte) (o : W32) (a0 a1 : Nat) :
    (s.note k p h c u o a0 a1).peer = s.peer := rfl
@[simp] theorem State.note_clusters (s : State) (k : W16) (p : Option Nat) (h : Bool) (c : BitVec 3) (u : Byte) (o : W32) (a0 a1 : Nat) :
    (s.note k p h c u o a0 a1).clusters = s.clusters := rfl
@[simp] theorem State.note_pairs (s : State) (k : W16) (p : Option Nat) (h : Bool) (c : BitVec 3) (u : Byte) (o : W32) (a0 a1 : Nat) :
    (s.note k p h c u o a0 a1).pairs = s.pairs := rfl
@[simp] theorem State.note_recorder (s : State) (k : W16) (p : Option Nat) (h : Bool) (c : BitVec 3) (u : Byte) (o : W32) (a0 a1 : Nat) :
    (s.note k p h c u o a0 a1).recorder = s.recorder := rfl
@[simp] theorem State.note_trc (s : State) (k : W16) (p : Option Nat) (h : Bool) (c : BitVec 3) (u : Byte) (o : W32) (a0 a1 : Nat) :
    (s.note k p h c u o a0 a1).trc = s.trc := rfl
@[simp] theorem State.note_link (s : State) (k : W16) (p : Option Nat) (h : Bool) (c : BitVec 3) (u : Byte) (o : W32) (a0 a1 : Nat) :
    (s.note k p h c u o a0 a1).link = s.link := rfl
@[simp] theorem State.note_smu (s : State) (k : W16) (p : Option Nat) (h : Bool) (c : BitVec 3) (u : Byte) (o : W32) (a0 a1 : Nat) :
    (s.note k p h c u o a0 a1).smu = s.smu := rfl
@[simp] theorem State.note_tap (s : State) (k : W16) (p : Option Nat) (h : Bool) (c : BitVec 3) (u : Byte) (o : W32) (a0 a1 : Nat) :
    (s.note k p h c u o a0 a1).tap = s.tap := rfl
@[simp] theorem State.note_mem (s : State) (k : W16) (p : Option Nat) (h : Bool) (c : BitVec 3) (u : Byte) (o : W32) (a0 a1 : Nat) :
    (s.note k p h c u o a0 a1).mem = s.mem := rfl
@[simp] theorem State.note_out (s : State) (k : W16) (p : Option Nat) (h : Bool) (c : BitVec 3) (u : Byte) (o : W32) (a0 a1 : Nat) :
    (s.note k p h c u o a0 a1).out = s.out := rfl
@[simp] theorem State.note_freeCtr (s : State) (k : W16) (p : Option Nat) (h : Bool) (c : BitVec 3) (u : Byte) (o : W32) (a0 a1 : Nat) :
    (s.note k p h c u o a0 a1).freeCtr = s.freeCtr := rfl
@[simp] theorem State.note_pending (s : State) (k : W16) (p : Option Nat) (h : Bool) (c : BitVec 3) (u : Byte) (o : W32) (a0 a1 : Nat) :
    (s.note k p h c u o a0 a1).pending = s.pending := rfl

@[simp] theorem State.draw_part (s : State) : s.draw.2.part = s.part := rfl
@[simp] theorem State.draw_clk (s : State) : s.draw.2.clk = s.clk := rfl
@[simp] theorem State.draw_boot (s : State) : s.draw.2.boot = s.boot := rfl
@[simp] theorem State.draw_cfg (s : State) : s.draw.2.cfg = s.cfg := rfl
@[simp] theorem State.draw_glob (s : State) : s.draw.2.glob = s.glob := rfl
@[simp] theorem State.draw_hw (s : State) : s.draw.2.hw = s.hw := rfl
@[simp] theorem State.draw_weir (s : State) : s.draw.2.weir = s.weir := rfl
@[simp] theorem State.draw_pools (s : State) : s.draw.2.pools = s.pools := rfl
@[simp] theorem State.draw_sig (s : State) : s.draw.2.sig = s.sig := rfl
@[simp] theorem State.draw_pt (s : State) : s.draw.2.pt = s.pt := rfl
@[simp] theorem State.draw_tr (s : State) : s.draw.2.tr = s.tr := rfl
@[simp] theorem State.draw_ports (s : State) : s.draw.2.ports = s.ports := rfl
@[simp] theorem State.draw_fab (s : State) : s.draw.2.fab = s.fab := rfl
@[simp] theorem State.draw_peer (s : State) : s.draw.2.peer = s.peer := rfl
@[simp] theorem State.draw_clusters (s : State) : s.draw.2.clusters = s.clusters := rfl
@[simp] theorem State.draw_pairs (s : State) : s.draw.2.pairs = s.pairs := rfl
@[simp] theorem State.draw_ras (s : State) : s.draw.2.ras = s.ras := rfl
@[simp] theorem State.draw_recorder (s : State) : s.draw.2.recorder = s.recorder := rfl
@[simp] theorem State.draw_trc (s : State) : s.draw.2.trc = s.trc := rfl
@[simp] theorem State.draw_link (s : State) : s.draw.2.link = s.link := rfl
@[simp] theorem State.draw_smu (s : State) : s.draw.2.smu = s.smu := rfl
@[simp] theorem State.draw_tap (s : State) : s.draw.2.tap = s.tap := rfl
@[simp] theorem State.draw_mem (s : State) : s.draw.2.mem = s.mem := rfl
@[simp] theorem State.draw_out (s : State) : s.draw.2.out = s.out := rfl
@[simp] theorem State.draw_pending (s : State) : s.draw.2.pending = s.pending := rfl
@[simp] theorem State.draw_freeCtr (s : State) : s.draw.2.freeCtr = s.freeCtr + 1 := rfl
@[simp] theorem State.draw_fst (s : State) : s.draw.1 = s.freeCtr := rfl

/-! Light-weight requests (R197) touch the list of those that wait, and nothing else -/

@[simp] theorem State.tagLight_hw (s : State) : s.tagLight.hw = { s.hw with light := lightTags s.lightHeld s.hw.light } := rfl
@[simp] theorem State.tagLight_part (s : State) : s.tagLight.part = s.part := rfl
@[simp] theorem State.tagLight_clk (s : State) : s.tagLight.clk = s.clk := rfl
@[simp] theorem State.tagLight_boot (s : State) : s.tagLight.boot = s.boot := rfl
@[simp] theorem State.tagLight_cfg (s : State) : s.tagLight.cfg = s.cfg := rfl
@[simp] theorem State.tagLight_glob (s : State) : s.tagLight.glob = s.glob := rfl
@[simp] theorem State.tagLight_weir (s : State) : s.tagLight.weir = s.weir := rfl
@[simp] theorem State.tagLight_pools (s : State) : s.tagLight.pools = s.pools := rfl
@[simp] theorem State.tagLight_sig (s : State) : s.tagLight.sig = s.sig := rfl
@[simp] theorem State.tagLight_pt (s : State) : s.tagLight.pt = s.pt := rfl
@[simp] theorem State.tagLight_tr (s : State) : s.tagLight.tr = s.tr := rfl
@[simp] theorem State.tagLight_ports (s : State) : s.tagLight.ports = s.ports := rfl
@[simp] theorem State.tagLight_fab (s : State) : s.tagLight.fab = s.fab := rfl
@[simp] theorem State.tagLight_peer (s : State) : s.tagLight.peer = s.peer := rfl
@[simp] theorem State.tagLight_clusters (s : State) : s.tagLight.clusters = s.clusters := rfl
@[simp] theorem State.tagLight_pairs (s : State) : s.tagLight.pairs = s.pairs := rfl
@[simp] theorem State.tagLight_ras (s : State) : s.tagLight.ras = s.ras := rfl
@[simp] theorem State.tagLight_recorder (s : State) : s.tagLight.recorder = s.recorder := rfl
@[simp] theorem State.tagLight_trc (s : State) : s.tagLight.trc = s.trc := rfl
@[simp] theorem State.tagLight_link (s : State) : s.tagLight.link = s.link := rfl
@[simp] theorem State.tagLight_smu (s : State) : s.tagLight.smu = s.smu := rfl
@[simp] theorem State.tagLight_tap (s : State) : s.tagLight.tap = s.tap := rfl
@[simp] theorem State.tagLight_mem (s : State) : s.tagLight.mem = s.mem := rfl
@[simp] theorem State.tagLight_out (s : State) : s.tagLight.out = s.out := rfl
@[simp] theorem State.tagLight_freeCtr (s : State) : s.tagLight.freeCtr = s.freeCtr := rfl
@[simp] theorem State.tagLight_pending (s : State) : s.tagLight.pending = s.pending := rfl

@[simp] theorem State.light_part (s : State) (k : LightCls) (aim : Aim) (wr : Bool) (space va n : Nat) :
    (s.light k aim wr space va n).part = s.part := rfl
@[simp] theorem State.light_clk (s : State) (k : LightCls) (aim : Aim) (wr : Bool) (space va n : Nat) :
    (s.light k aim wr space va n).clk = s.clk := rfl
@[simp] theorem State.light_boot (s : State) (k : LightCls) (aim : Aim) (wr : Bool) (space va n : Nat) :
    (s.light k aim wr space va n).boot = s.boot := rfl
@[simp] theorem State.light_cfg (s : State) (k : LightCls) (aim : Aim) (wr : Bool) (space va n : Nat) :
    (s.light k aim wr space va n).cfg = s.cfg := rfl
@[simp] theorem State.light_glob (s : State) (k : LightCls) (aim : Aim) (wr : Bool) (space va n : Nat) :
    (s.light k aim wr space va n).glob = s.glob := rfl
@[simp] theorem State.light_weir (s : State) (k : LightCls) (aim : Aim) (wr : Bool) (space va n : Nat) :
    (s.light k aim wr space va n).weir = s.weir := rfl
@[simp] theorem State.light_pools (s : State) (k : LightCls) (aim : Aim) (wr : Bool) (space va n : Nat) :
    (s.light k aim wr space va n).pools = s.pools := rfl
@[simp] theorem State.light_sig (s : State) (k : LightCls) (aim : Aim) (wr : Bool) (space va n : Nat) :
    (s.light k aim wr space va n).sig = s.sig := rfl
@[simp] theorem State.light_pt (s : State) (k : LightCls) (aim : Aim) (wr : Bool) (space va n : Nat) :
    (s.light k aim wr space va n).pt = s.pt := rfl
@[simp] theorem State.light_tr (s : State) (k : LightCls) (aim : Aim) (wr : Bool) (space va n : Nat) :
    (s.light k aim wr space va n).tr = s.tr := rfl
@[simp] theorem State.light_ports (s : State) (k : LightCls) (aim : Aim) (wr : Bool) (space va n : Nat) :
    (s.light k aim wr space va n).ports = s.ports := rfl
@[simp] theorem State.light_fab (s : State) (k : LightCls) (aim : Aim) (wr : Bool) (space va n : Nat) :
    (s.light k aim wr space va n).fab = s.fab := rfl
@[simp] theorem State.light_peer (s : State) (k : LightCls) (aim : Aim) (wr : Bool) (space va n : Nat) :
    (s.light k aim wr space va n).peer = s.peer := rfl
@[simp] theorem State.light_clusters (s : State) (k : LightCls) (aim : Aim) (wr : Bool) (space va n : Nat) :
    (s.light k aim wr space va n).clusters = s.clusters := rfl
@[simp] theorem State.light_pairs (s : State) (k : LightCls) (aim : Aim) (wr : Bool) (space va n : Nat) :
    (s.light k aim wr space va n).pairs = s.pairs := rfl
@[simp] theorem State.light_ras (s : State) (k : LightCls) (aim : Aim) (wr : Bool) (space va n : Nat) :
    (s.light k aim wr space va n).ras = s.ras := rfl
@[simp] theorem State.light_recorder (s : State) (k : LightCls) (aim : Aim) (wr : Bool) (space va n : Nat) :
    (s.light k aim wr space va n).recorder = s.recorder := rfl
@[simp] theorem State.light_trc (s : State) (k : LightCls) (aim : Aim) (wr : Bool) (space va n : Nat) :
    (s.light k aim wr space va n).trc = s.trc := rfl
@[simp] theorem State.light_link (s : State) (k : LightCls) (aim : Aim) (wr : Bool) (space va n : Nat) :
    (s.light k aim wr space va n).link = s.link := rfl
@[simp] theorem State.light_smu (s : State) (k : LightCls) (aim : Aim) (wr : Bool) (space va n : Nat) :
    (s.light k aim wr space va n).smu = s.smu := rfl
@[simp] theorem State.light_tap (s : State) (k : LightCls) (aim : Aim) (wr : Bool) (space va n : Nat) :
    (s.light k aim wr space va n).tap = s.tap := rfl
@[simp] theorem State.light_mem (s : State) (k : LightCls) (aim : Aim) (wr : Bool) (space va n : Nat) :
    (s.light k aim wr space va n).mem = s.mem := rfl
@[simp] theorem State.light_out (s : State) (k : LightCls) (aim : Aim) (wr : Bool) (space va n : Nat) :
    (s.light k aim wr space va n).out = s.out := rfl
@[simp] theorem State.light_freeCtr (s : State) (k : LightCls) (aim : Aim) (wr : Bool) (space va n : Nat) :
    (s.light k aim wr space va n).freeCtr = s.freeCtr := rfl
@[simp] theorem State.light_pending (s : State) (k : LightCls) (aim : Aim) (wr : Bool) (space va n : Nat) :
    (s.light k aim wr space va n).pending = s.pending := rfl

end Sys2Proof.Machine
end

