-- ==== Sys2Proof/Laws/Tab.lean ====
section
/-! SUPPORT. Laws of sparse tables and byte stores: what a write reads back as, and that every write keeps the canonical form. -/

namespace Sys2Proof

variable {α : Type}

@[simp] theorem Tab.get_nil (d : α) (i : Nat) : Tab.get d [] i = d := rfl

theorem Tab.wf_nil (d : α) : Tab.wf d ([] : Tab α) := ⟨List.Pairwise.nil, by simp⟩

theorem Tab.ne_of_mem_erase {t : Tab α} {i : Nat} {x : Nat × α} (h : x ∈ t.erase i) : x.1 ≠ i := by
  have := (List.mem_filter.1 h).2
  simpa using this

theorem Tab.get_absent (d : α) {t : Tab α} {i : Nat} (h : ∀ x ∈ t, x.1 ≠ i) : Tab.get d t i = d := by
  induction t with
  | nil => rfl
  | cons x t ih =>
    obtain ⟨k, w⟩ := x
    have hk : i ≠ k := fun e => h (k, w) (by simp) e.symm
    simpa [Tab.get, hk] using ih (fun x hx => h x (List.mem_cons_of_mem _ hx))

theorem Tab.get_erase_ne (d : α) (t : Tab α) {i j : Nat} (hij : j ≠ i) : Tab.get d (t.erase i) j = Tab.get d t j := by
  induction t with
  | nil => rfl
  | cons x t ih =>
    obtain ⟨k, w⟩ := x
    by_cases h : k = i
    · subst h; simpa [Tab.erase, Tab.get, hij] using ih
    · by_cases hj : j = k
      · subst hj; simp [Tab.erase, Tab.get, h]
      · simpa [Tab.erase, Tab.get, h, hj] using ih

theorem Tab.get_insert_self (d : α) {t : Tab α} {i : Nat} (h : ∀ x ∈ t, x.1 ≠ i) (v : α) : Tab.get d (t.insert i v) i = v := by
  induction t with
  | nil => simp [Tab.insert, Tab.get]
  | cons x t ih =>
    obtain ⟨k, w⟩ := x
    have hk : i ≠ k := fun e => h (k, w) (by simp) e.symm
    unfold Tab.insert
    split
    · simp [Tab.get]
    · simpa [Tab.get, hk] using ih (fun x hx => h x (List.mem_cons_of_mem _ hx))

theorem Tab.get_insert_ne (d : α) (t : Tab α) {i j : Nat} (hij : j ≠ i) (v : α) : Tab.get d (t.insert i v) j = Tab.get d t j := by
  induction t with
  | nil => simp [Tab.insert, Tab.get, hij]
  | cons x t ih =>
    obtain ⟨k, w⟩ := x
    unfold Tab.insert
    split
    · simp [Tab.get, hij]
    · by_cases hj : j = k
      · subst hj; simp [Tab.get]
      · simpa [Tab.get, hj] using ih

theorem Tab.erase_insert (t : Tab α) (i : Nat) (v : α) : (t.insert i v).erase i = t.erase i := by
  induction t with
  | nil => simp [Tab.insert, Tab.erase]
  | cons x t ih =>
    obtain ⟨k, w⟩ := x
    unfold Tab.insert
    split
    · simp [Tab.erase]
    · by_cases hk : k = i
      · subst hk; simpa [Tab.erase] using ih
      · simpa [Tab.erase, hk] using ih

theorem Tab.erase_erase (t : Tab α) (i : Nat) : (t.erase i).erase i = t.erase i := by
  simp [Tab.erase]

theorem Tab.mem_insert {t : Tab α} {i : Nat} {v : α} {x : Nat × α} (h : x ∈ t.insert i v) : x = (i, v) ∨ x ∈ t := by
  induction t with
  | nil => exact .inl (by simpa [Tab.insert] using h)
  | cons y t ih =>
    obtain ⟨k, w⟩ := y
    unfold Tab.insert at h
    split at h
    · exact List.mem_cons.1 h
    · rcases List.mem_cons.1 h with h | h
      · subst h; exact .inr (by simp)
      · exact (ih h).imp_right (List.mem_cons_of_mem _)

variable [DecidableEq α]

/-- Reading the key just written gives the value. -/
@[simp] theorem Tab.get_set_self (d : α) (t : Tab α) (i : Nat) (v : α) : Tab.get d (Tab.set d t i v) i = v := by
  unfold Tab.set
  split
  · next h => rw [h]; exact Tab.get_absent d (fun _ hx => Tab.ne_of_mem_erase hx)
  · exact Tab.get_insert_self d (fun _ hx => Tab.ne_of_mem_erase hx) v

/-- Reading any other key gives what it held. -/
theorem Tab.get_set_ne (d : α) (t : Tab α) {i j : Nat} (hij : j ≠ i) (v : α) : Tab.get d (Tab.set d t i v) j = Tab.get d t j := by
  unfold Tab.set
  split
  · exact Tab.get_erase_ne d t hij
  · rw [Tab.get_insert_ne d _ hij, Tab.get_erase_ne d t hij]

theorem Tab.get_set (d : α) (t : Tab α) (i j : Nat) (v : α) : Tab.get d (Tab.set d t i v) j = if j = i then v else Tab.get d t j := by
  split
  · next h => rw [h, Tab.get_set_self]
  · next h => exact Tab.get_set_ne d t h v

/-- The later of two writes of one key stands. -/
@[simp] theorem Tab.set_set (d : α) (t : Tab α) (i : Nat) (v w : α) : Tab.set d (Tab.set d t i v) i w = Tab.set d t i w := by
  have h : (Tab.set d t i v).erase i = t.erase i := by
    unfold Tab.set
    split
    · exact Tab.erase_erase t i
    · rw [Tab.erase_insert, Tab.erase_erase]
  rw [Tab.set, h, ← Tab.set]

theorem Tab.get_setAll (d : α) (g : Nat → α) (ks : List Nat) (t : Tab α) (i : Nat) :
    Tab.get d (ks.foldl (fun u k => Tab.set d u k (g k)) t) i = if i ∈ ks then g i else Tab.get d t i := by
  induction ks generalizing t with
  | nil => simp
  | cons k ks ih =>
    rw [List.foldl_cons, ih, Tab.get_set]
    by_cases h : i ∈ ks
    · simp [h]
    · by_cases hk : i = k <;> simp [h, hk]

/-- Applying `f`, which keeps the default, to every entry applies it to what every key holds. -/
theorem Tab.get_mapAll (d : α) {f : α → α} (hf : f d = d) (t : Tab α) (i : Nat) : Tab.get d (Tab.mapAll d f t) i = f (Tab.get d t i) := by
  rw [Tab.mapAll, Tab.get_setAll d (fun k => f (Tab.get d t k))]
  split
  · rfl
  · next h =>
    have e : Tab.get d t i = d := Tab.get_absent d (fun x hx he => h (List.mem_map.2 ⟨x, hx, he⟩))
    rw [e, hf]

omit [DecidableEq α] in
/-- The same where the listed entries are kept listed. -/
theorem Tab.get_map (d : α) {f : α → α} (hf : f d = d) (t : Tab α) (i : Nat) : Tab.get d (t.map (fun x => (x.1, f x.2))) i = f (Tab.get d t i) := by
  induction t with
  | nil => exact hf.symm
  | cons x t ih =>
    rw [List.map_cons, Tab.get, Tab.get, ih]
    split <;> rfl

omit [DecidableEq α] in
theorem Tab.insert_sorted {t : Tab α} (h : t.Pairwise (fun a b => a.1 < b.1)) {i : Nat} (hi : ∀ x ∈ t, x.1 ≠ i) (v : α) :
    (t.insert i v).Pairwise (fun a b => a.1 < b.1) := by
  induction t with
  | nil => simp [Tab.insert]
  | cons y t ih =>
    obtain ⟨k, w⟩ := y
    have hk := List.pairwise_cons.1 h
    have hne : k ≠ i := hi (k, w) (by simp)
    unfold Tab.insert
    split
    · next hlt =>
      refine List.pairwise_cons.2 ⟨fun z hz => ?_, h⟩
      rcases List.mem_cons.1 hz with rfl | hz
      · exact hlt
      · exact Nat.lt_trans hlt (hk.1 z hz)
    · next hge =>
      refine List.pairwise_cons.2 ⟨fun z hz => ?_, ih hk.2 (fun x hx => hi x (List.mem_cons_of_mem _ hx))⟩
      rcases Tab.mem_insert hz with rfl | hz
      · show k < i; omega
      · exact hk.1 z hz

/-- A write keeps the canonical form. -/
theorem Tab.set_wf {d : α} {t : Tab α} (h : Tab.wf d t) (i : Nat) (v : α) : Tab.wf d (Tab.set d t i v) := by
  have hs : (t.erase i).Pairwise (fun a b => a.1 < b.1) := h.1.filter _
  have hd : ∀ x ∈ t.erase i, x.2 ≠ d := fun x hx => h.2 x (List.mem_filter.1 hx).1
  unfold Tab.set
  split
  · exact ⟨hs, hd⟩
  · next hv =>
    refine ⟨Tab.insert_sorted hs (fun _ hx => Tab.ne_of_mem_erase hx) v, fun x hx => ?_⟩
    rcases Tab.mem_insert hx with rfl | hx
    · exact hv
    · exact hd x hx

namespace Machine

/-- Writing bytes keeps the canonical form. -/
theorem writeBytes_wf {m : Tab Byte} (h : Tab.wf 0 m) (a : Nat) (bs : List Byte) : Tab.wf 0 (writeBytes m a bs) := by
  induction bs generalizing m a with
  | nil => exact h
  | cons b bs ih => exact ih (Tab.set_wf h a b) (a + 1)

/-- A byte outside the written ones keeps its value. -/
theorem byteAt_writeBytes_out (m : Tab Byte) {a x : Nat} {bs : List Byte} (hx : x < a ∨ a + bs.length ≤ x) :
    byteAt (writeBytes m a bs) x = byteAt m x := by
  induction bs generalizing m a with
  | nil => rfl
  | cons b bs ih =>
    simp only [List.length_cons] at hx
    unfold writeBytes
    rw [ih _ (by omega)]
    exact Tab.get_set_ne 0 m (by omega) b

/-- Byte `i` of the written ones reads as written. -/
theorem byteAt_writeBytes_in (m : Tab Byte) {a i : Nat} {bs : List Byte} (hi : i < bs.length) :
    byteAt (writeBytes m a bs) (a + i) = bs[i] := by
  induction bs generalizing m a i with
  | nil => simp at hi
  | cons b bs ih =>
    unfold writeBytes
    cases i with
    | zero =>
      rw [byteAt_writeBytes_out _ (by omega)]
      exact Tab.get_set_self 0 m a b
    | succ i =>
      have := ih (Tab.set 0 m a b) (a := a + 1) (i := i) (by simpa using hi)
      simpa [Nat.add_assoc, Nat.add_comm 1 i] using this

/-- Bytes written read back. -/
theorem readBytes_writeBytes (m : Tab Byte) (a : Nat) (bs : List Byte) :
    readBytes (writeBytes m a bs) a bs.length = bs := by
  unfold readBytes
  apply List.ext_getElem
  · simp
  · intro i h1 h2
    simp only [List.getElem_map, List.getElem_range]
    exact byteAt_writeBytes_in m h2

/-- A number written reads back modulo its width. -/
theorem leNat_leBytes (n v : Nat) : leNat (leBytes n v) = v % 2 ^ (8 * n) := by
  induction n generalizing v with
  | zero => simp [leBytes, leNat, Nat.mod_one]
  | succ n ih =>
    simp only [leBytes, leNat, ih, BitVec.toNat_ofNat]
    rw [show 8 * (n + 1) = 8 + 8 * n by omega, Nat.pow_add, Nat.mod_mul]

@[simp] theorem length_leBytes (n v : Nat) : (leBytes n v).length = n := by
  induction n generalizing v with
  | zero => rfl
  | succ n ih => simp [leBytes, ih]

theorem readLe_writeLe (m : Tab Byte) (a n v : Nat) : readLe (writeLe m a n v) a n = v % 2 ^ (8 * n) := by
  have := readBytes_writeBytes m a (leBytes n v)
  rw [length_leBytes] at this
  rw [readLe, writeLe, this, leNat_leBytes]

/-! Bit fields -/

/-- Bit `i` after a field is replaced. -/
theorem getLsbD_setBits {n : Nat} (w : BitVec n) (lo len v i : Nat) :
    (setBits w lo len v).getLsbD i = if lo ≤ i ∧ i < lo + len ∧ i < n then v.testBit (i - lo) else w.getLsbD i := by
  unfold setBits
  dsimp only
  have hm : ∀ k, Nat.testBit (2 ^ len - 1) k = decide (k < len) := fun k => Nat.testBit_two_pow_sub_one ..
  simp only [BitVec.getLsbD_or, BitVec.getLsbD_and, BitVec.getLsbD_not, BitVec.getLsbD_shiftLeft, BitVec.getLsbD_ofNat, hm, Nat.testBit_mod_two_pow]
  by_cases hn : i < n
  · by_cases hlo : lo ≤ i
    · have h1 : i - lo < n := by omega
      have h3 : ¬ i < lo := by omega
      by_cases hl : i < lo + len
      · have h2 : i - lo < len := by omega
        simp [hn, hlo, hl, h1, h2, h3]
      · have h2 : ¬ i - lo < len := by omega
        simp [hn, hlo, hl, h1, h2, h3]
    · have : i < lo := by omega
      simp [hn, hlo, this]
  · have : w.getLsbD i = false := BitVec.getLsbD_of_ge _ _ (by omega)
    simp [hn, this]

/-- The field reads as written. -/
theorem extract_setBits_self {n : Nat} (w : BitVec n) {lo len : Nat} (v : Nat) (h : lo + len ≤ n) :
   (setBits w lo len v).extractLsb' lo len = BitVec.ofNat len v := by
  apply BitVec.eq_of_getLsbD_eq
  intro i hi
  rw [BitVec.getLsbD_extractLsb', getLsbD_setBits, if_pos (by omega), BitVec.getLsbD_ofNat, Nat.add_sub_cancel_left]

/-- A field outside it keeps its value. -/
theorem extract_setBits_out {n : Nat} (w : BitVec n) {lo len a k : Nat} (v : Nat) (h : a + k ≤ lo ∨ lo + len ≤ a) :
   (setBits w lo len v).extractLsb' a k = w.extractLsb' a k := by
  apply BitVec.eq_of_getLsbD_eq
  intro i hi
  rw [BitVec.getLsbD_extractLsb', getLsbD_setBits, if_neg (by omega), BitVec.getLsbD_extractLsb']

end Machine
end Sys2Proof
end

