-- ==== Sys2Proof/Laws/Access.lean ====
section
/-! SUPPORT. Each accessor after the update of its table: the entry written, the other entries, and two writes of one entry. -/

namespace Sys2Proof.Machine

@[simp] theorem State.cluster_setCluster_self (s : State) (n : Nat) (c : Cluster) : (s.setCluster n c).cluster n = c := Tab.get_set_self _ _ _ _
theorem State.cluster_setCluster_ne (s : State) {n k : Nat} (h : k ≠ n) (c : Cluster) : (s.setCluster n c).cluster k = s.cluster k := Tab.get_set_ne _ _ h _
@[simp] theorem State.setCluster_setCluster (s : State) (n : Nat) (c e : Cluster) : (s.setCluster n c).setCluster n e = s.setCluster n e := by
  simp [State.setCluster]
@[simp] theorem State.cluster_modCluster_self (s : State) (n : Nat) (f : Cluster → Cluster) : (s.modCluster n f).cluster n = f (s.cluster n) := Tab.get_set_self _ _ _ _
theorem State.cluster_modCluster_ne (s : State) {n k : Nat} (h : k ≠ n) (f : Cluster → Cluster) : (s.modCluster n f).cluster k = s.cluster k := Tab.get_set_ne _ _ h _
@[simp] theorem State.modCluster_setCluster (s : State) (n : Nat) (c : Cluster) (f : Cluster → Cluster) : (s.setCluster n c).modCluster n f = s.setCluster n (f c) := by
  simp [State.modCluster]

@[simp] theorem State.pair_setPair_self (s : State) (n : Nat) (c : Pair) : (s.setPair n c).pair n = c := Tab.get_set_self _ _ _ _
theorem State.pair_setPair_ne (s : State) {n k : Nat} (h : k ≠ n) (c : Pair) : (s.setPair n c).pair k = s.pair k := Tab.get_set_ne _ _ h _
@[simp] theorem State.setPair_setPair (s : State) (n : Nat) (c e : Pair) : (s.setPair n c).setPair n e = s.setPair n e := by
  simp [State.setPair]
@[simp] theorem State.pair_modPair_self (s : State) (n : Nat) (f : Pair → Pair) : (s.modPair n f).pair n = f (s.pair n) := Tab.get_set_self _ _ _ _
theorem State.pair_modPair_ne (s : State) {n k : Nat} (h : k ≠ n) (f : Pair → Pair) : (s.modPair n f).pair k = s.pair k := Tab.get_set_ne _ _ h _
@[simp] theorem State.modPair_setPair (s : State) (n : Nat) (c : Pair) (f : Pair → Pair) : (s.setPair n c).modPair n f = s.setPair n (f c) := by
  simp [State.modPair]

@[simp] theorem State.pool_setPool_self (s : State) (n : Nat) (c : Pool) : (s.setPool n c).pool n = c := Tab.get_set_self _ _ _ _
theorem State.pool_setPool_ne (s : State) {n k : Nat} (h : k ≠ n) (c : Pool) : (s.setPool n c).pool k = s.pool k := Tab.get_set_ne _ _ h _
@[simp] theorem State.setPool_setPool (s : State) (n : Nat) (c e : Pool) : (s.setPool n c).setPool n e = s.setPool n e := by
  simp [State.setPool]
@[simp] theorem State.pool_modPool_self (s : State) (n : Nat) (f : Pool → Pool) : (s.modPool n f).pool n = f (s.pool n) := Tab.get_set_self _ _ _ _
theorem State.pool_modPool_ne (s : State) {n k : Nat} (h : k ≠ n) (f : Pool → Pool) : (s.modPool n f).pool k = s.pool k := Tab.get_set_ne _ _ h _
@[simp] theorem State.modPool_setPool (s : State) (n : Nat) (c : Pool) (f : Pool → Pool) : (s.setPool n c).modPool n f = s.setPool n (f c) := by
  simp [State.modPool]

@[simp] theorem State.ptReg_setPt_self (s : State) (n : Nat) (c : Pt) : (s.setPt n c).ptReg n = c := Tab.get_set_self _ _ _ _
theorem State.ptReg_setPt_ne (s : State) {n k : Nat} (h : k ≠ n) (c : Pt) : (s.setPt n c).ptReg k = s.ptReg k := Tab.get_set_ne _ _ h _
@[simp] theorem State.setPt_setPt (s : State) (n : Nat) (c e : Pt) : (s.setPt n c).setPt n e = s.setPt n e := by
  simp [State.setPt]
@[simp] theorem State.ptReg_modPt_self (s : State) (n : Nat) (f : Pt → Pt) : (s.modPt n f).ptReg n = f (s.ptReg n) := Tab.get_set_self _ _ _ _
theorem State.ptReg_modPt_ne (s : State) {n k : Nat} (h : k ≠ n) (f : Pt → Pt) : (s.modPt n f).ptReg k = s.ptReg k := Tab.get_set_ne _ _ h _
@[simp] theorem State.modPt_setPt (s : State) (n : Nat) (c : Pt) (f : Pt → Pt) : (s.setPt n c).modPt n f = s.setPt n (f c) := by
  simp [State.modPt]

@[simp] theorem State.port_setPort_self (s : State) (n : Nat) (c : Port) : (s.setPort n c).port n = c := Tab.get_set_self _ _ _ _
theorem State.port_setPort_ne (s : State) {n k : Nat} (h : k ≠ n) (c : Port) : (s.setPort n c).port k = s.port k := Tab.get_set_ne _ _ h _
@[simp] theorem State.setPort_setPort (s : State) (n : Nat) (c e : Port) : (s.setPort n c).setPort n e = s.setPort n e := by
  simp [State.setPort]
@[simp] theorem State.port_modPort_self (s : State) (n : Nat) (f : Port → Port) : (s.modPort n f).port n = f (s.port n) := Tab.get_set_self _ _ _ _
theorem State.port_modPort_ne (s : State) {n k : Nat} (h : k ≠ n) (f : Port → Port) : (s.modPort n f).port k = s.port k := Tab.get_set_ne _ _ h _
@[simp] theorem State.modPort_setPort (s : State) (n : Nat) (c : Port) (f : Port → Port) : (s.setPort n c).modPort n f = s.setPort n (f c) := by
  simp [State.modPort]

@[simp] theorem State.ring_setRing_self (s : State) (n : Nat) (c : Ring) : (s.setRing n c).ring n = c := Tab.get_set_self _ _ _ _
theorem State.ring_setRing_ne (s : State) {n k : Nat} (h : k ≠ n) (c : Ring) : (s.setRing n c).ring k = s.ring k := Tab.get_set_ne _ _ h _
@[simp] theorem State.setRing_setRing (s : State) (n : Nat) (c e : Ring) : (s.setRing n c).setRing n e = s.setRing n e := by
  simp [State.setRing]
@[simp] theorem State.ring_modRing_self (s : State) (n : Nat) (f : Ring → Ring) : (s.modRing n f).ring n = f (s.ring n) := Tab.get_set_self _ _ _ _
theorem State.ring_modRing_ne (s : State) {n k : Nat} (h : k ≠ n) (f : Ring → Ring) : (s.modRing n f).ring k = s.ring k := Tab.get_set_ne _ _ h _
@[simp] theorem State.modRing_setRing (s : State) (n : Nat) (c : Ring) (f : Ring → Ring) : (s.setRing n c).modRing n f = s.setRing n (f c) := by
  simp [State.modRing]

@[simp] theorem State.seq_putSeq_self (s : State) (p q : Nat) (c : Seq) : (s.putSeq p q c).seq p q = c := Tab.get_set_self _ _ _ _

/-! A pair's registers (R200, R202) -/

@[simp] theorem Pair.readG_zero (x : Pair) : x.readG 0 = 0 := rfl
@[simp] theorem Pair.readP_zero (x : Pair) : x.readP 0 = true := rfl

/-- What a g register reads after a write of one: the value, or what it held; g0 reads 0. -/
theorem Pair.readG_writeG (x : Pair) (d k : Nat) (v : W64) : (x.writeG d v).readG k = if k = d ∧ d ≠ 0 then v else x.readG k := by
  by_cases hk : k = 0
  · subst hk
    rw [Pair.readG_zero, Pair.readG_zero, if_neg (by omega)]
  unfold Pair.writeG Pair.readG
  · by_cases hd : d = 0
    · simp [hd, hk]
    · by_cases e : k = d
      · subst e; simp [hk]
      · simp [hk, hd, e, Tab.get_set]

/-- What a p register reads after a write of one: p0 reads 1. -/
theorem Pair.readP_writeP (x : Pair) (d k : Nat) (v : Bool) : (x.writeP d v).readP k = if k = d ∧ d ≠ 0 then v else x.readP k := by
  by_cases hk : k = 0
  · subst hk
    rw [Pair.readP_zero, Pair.readP_zero, if_neg (by omega)]
  unfold Pair.writeP Pair.readP
  · by_cases hd : d = 0
    · simp [hd, hk]
    · by_cases e : k = d
      · subst e; simp [hk]
      · simp [hk, hd, e, Tab.get_set]

theorem Pair.readD_writeD (x : Pair) (d k : Nat) (v : DReg) : (x.writeD d v).readD k = if k = d then v else x.readD k := by
  unfold Pair.writeD Pair.readD
  exact Tab.get_set _ _ _ _ _

theorem Pair.writeG_eq (x : Pair) (d : Nat) (v : W64) : ∃ t, x.writeG d v = { x with g := t } := by
  unfold Pair.writeG
  split
  · exact ⟨x.g, rfl⟩
  · exact ⟨_, rfl⟩

theorem Pair.writeP_eq (x : Pair) (d : Nat) (v : Bool) : ∃ t, x.writeP d v = { x with p := t } := by
  unfold Pair.writeP
  split
  · exact ⟨x.p, rfl⟩
  · exact ⟨_, rfl⟩

end Sys2Proof.Machine
end

