-- ==== Sys2Proof/Laws/Issue.lean ====
section
/-! SUPPORT. What the issue of an instruction does (R204), case by case, and what the shared forms of the scalar classes (R206 to R208) do to
their pair. -/

namespace Sys2Proof.Machine

theorem State.setPair_only (s : State) (sp : Nat) (y : Pair) : s.PairOnly (s.setPair sp y) sp y :=
  ⟨State.pair_setPair_self s sp y, fun _ h => State.pair_setPair_ne s h y, rfl⟩

theorem State.setCluster_only (s : State) (n : Nat) (c : Cluster) : s.ClusterOnly (s.setCluster n c) n c :=
  ⟨State.cluster_setCluster_self s n c, fun _ h => State.cluster_setCluster_ne s h c, rfl⟩

theorem State.setPort_only (s : State) (k : Nat) (p : Port) : s.PortOnly (s.setPort k p) k p :=
  ⟨State.port_setPort_self s k p, fun _ h => State.port_setPort_ne s h p, rfl⟩

theorem Pair.retire_counted (x : Pair) (pc : BitVec 14) : x.Counted (x.retire pc) pc := by
  refine ⟨rfl, ?_, rfl⟩
  have h : Nat.min (2 ^ 32 - 1) (x.retired.toNat + 1) < 2 ^ 32 :=
    Nat.lt_of_le_of_lt (Nat.min_le_left _ _) (by decide)
  exact Nat.mod_eq_of_lt h

/-! Issue -/

theorem State.issue_stopped {s : State} {u : Issue} (h : s.canIssue u.sp.val = false) (f : State → Nat → Pair → Lz) : s.issue u f = s := by
  simp [State.issue, h]

theorem State.issue_guarded {s : State} {u : Issue} (h : s.canIssue u.sp.val = true)
    (hg : xor ((s.pair u.sp.val).readP u.pg.val) u.pn = false) (f : State → Nat → Pair → Lz) :
    s.issue u f = s.setPair u.sp.val ((s.pair u.sp.val).retire ((s.pair u.sp.val).pc + 1)) := by
  have hg' : (s.pair u.sp.val).guards u = false := hg
  simp [State.issue, h, hg']

theorem State.issue_runs {s : State} {u : Issue} (h : s.Runs u) (f : State → Nat → Pair → Lz) :
    s.issue u f = match f s u.sp.val (s.pair u.sp.val) with
      | .done t => t.modPair u.sp.val (fun y => y.retire ((s.pair u.sp.val).pc + 1))
      | .jump t pc => t.modPair u.sp.val (fun y => y.retire pc)
      | .exc c => s.raiseExc u.sp.val c
      | .wait t => t := by
  have hg : (s.pair u.sp.val).guards u = true := h.guard
  cases hf : f s u.sp.val (s.pair u.sp.val) <;> simp [State.issue, h.canIssue, hg, hf]

/-- An instruction that changes its pair and retires. -/
theorem State.issue_pair {s : State} {u : Issue} (h : s.Runs u) {f : State → Nat → Pair → Lz} {y : Pair}
    (hf : f s u.sp.val (s.pair u.sp.val) = .done (s.setPair u.sp.val y)) :
    s.issue u f = s.setPair u.sp.val (y.retire ((s.pair u.sp.val).pc + 1)) := by
  rw [State.issue_runs h, hf]
  exact State.modPair_setPair _ _ _ _

/-- An instruction that changes its pair and goes on at a target. -/
theorem State.issue_jump {s : State} {u : Issue} (h : s.Runs u) {f : State → Nat → Pair → Lz} {y : Pair} {pc : BitVec 14}
    (hf : f s u.sp.val (s.pair u.sp.val) = .jump (s.setPair u.sp.val y) pc) : s.issue u f = s.setPair u.sp.val (y.retire pc) := by
  rw [State.issue_runs h, hf]
  exact State.modPair_setPair _ _ _ _

/-- The form of every law of an instruction that changes its pair alone. -/
theorem State.PairBecomes.of {s t : State} {c : Instr} {u : Issue} {y : Pair} {P : Pair → Pair → Prop}
    (e : exec c s = .next t) (ht : t = s.setPair u.sp.val y) (hp : P (s.issuer u) y) : s.PairBecomes c u P :=
  ⟨t, y, e, by rw [ht]; exact State.setPair_only s u.sp.val y, hp⟩

/-! Registers -/

theorem Pair.wroteG (x : Pair) (pc : BitVec 14) (d : Fin 64) (v : W64) : x.WroteG ((x.writeG d.val v).retire pc) pc d v := by
  obtain ⟨t, e⟩ := Pair.writeG_eq x d.val v
  have hg : ∀ k : Fin 64, (x.writeG d.val v).readG k.val = if k = 0 then 0 else if k = d then v else x.readG k.val := by
    intro k
    rw [Pair.readG_writeG]
    by_cases hk : k = 0
    · subst hk
      rw [if_neg (fun h : (0 : Fin 64).val = d.val ∧ d.val ≠ 0 => h.2 h.1.symm)]; rfl
    · by_cases hd : k = d
      · subst hd
        simp only [hk, true_and, if_false, if_true]
        rw [if_pos]
        exact fun e => hk (Fin.ext e)
      · have : k.val ≠ d.val := fun e => hd (Fin.ext e)
        simp [hk, hd, this]
  have hc := Pair.retire_counted (x.writeG d.val v) pc
  exact ⟨⟨hc.pc, by rw [hc.retired, e], by rw [hc.instret, e]⟩, hg, by rw [e]; rfl⟩

theorem Pair.wroteP (x : Pair) (pc : BitVec 14) (d : Fin 16) (v : Bool) : x.WroteP ((x.writeP d.val v).retire pc) pc d v := by
  obtain ⟨t, e⟩ := Pair.writeP_eq x d.val v
  have hg : ∀ k : Fin 16, (x.writeP d.val v).readP k.val = if k = 0 then true else if k = d then v else x.readP k.val := by
    intro k
    rw [Pair.readP_writeP]
    by_cases hk : k = 0
    · subst hk
      rw [if_neg (fun h : (0 : Fin 16).val = d.val ∧ d.val ≠ 0 => h.2 h.1.symm)]; rfl
    · by_cases hd : k = d
      · subst hd
        simp only [hk, true_and, if_false, if_true]
        rw [if_pos]
        exact fun e => hk (Fin.ext e)
      · have : k.val ≠ d.val := fun e => hd (Fin.ext e)
        simp [hk, hd, this]
  have hc := Pair.retire_counted (x.writeP d.val v) pc
  exact ⟨⟨hc.pc, by rw [hc.retired, e], by rw [hc.instret, e]⟩, hg, by rw [e]; rfl⟩

theorem Pair.wroteD (x : Pair) (pc : BitVec 14) (d : Fin 32) (v : DReg) : x.WroteD ((x.writeD d.val v).retire pc) pc d v := by
  have hc := Pair.retire_counted (x.writeD d.val v) pc
  refine ⟨⟨hc.pc, hc.retired, hc.instret⟩, fun k => ?_, rfl⟩
  rw [show ((x.writeD d.val v).retire pc).readD k.val = (x.writeD d.val v).readD k.val from rfl, Pair.readD_writeD]
  simp only [Fin.ext_iff]

theorem Pair.retires (x : Pair) (pc : BitVec 14) : x.Retires (x.retire pc) pc := ⟨Pair.retire_counted x pc, rfl⟩

/-- Byte `i` of a little-endian number. -/
theorem leBytes_getElem {n v i : Nat} (h : i < (leBytes n v).length) : (leBytes n v)[i] = BitVec.ofNat 8 (v / 256 ^ i) := by
  induction n generalizing v i with
  | zero => simp [leBytes] at h
  | succ n ih =>
    cases i with
    | zero => simp [leBytes]
    | succ i =>
      simp only [leBytes, List.getElem_cons_succ]
      rw [ih]
      rw [Nat.div_div_eq_div_mul, Nat.pow_succ, Nat.mul_comm]

theorem Pair.stored (x : Pair) (pc : BitVec 14) (a n v : Nat) : x.Stored (({ x with dmem := writeLe x.dmem a n v } : Pair).retire pc) pc a n v := by
  have hc := Pair.retire_counted ({ x with dmem := writeLe x.dmem a n v } : Pair) pc
  refine ⟨⟨hc.pc, hc.retired, hc.instret⟩, fun i hi => ?_, fun i hi => ?_, rfl⟩
  · have h : i < (leBytes n v).length := by simpa using hi
    exact (byteAt_writeBytes_in x.dmem h).trans (leBytes_getElem h)
  · exact byteAt_writeBytes_out x.dmem (by simpa using hi)

/-! The shared forms -/

theorem State.alu_runs {s : State} {u : Issue} (h : s.Runs u) (d a : Fin 64) (b : SrcB) (f : W64 → W64 → W64) :
    s.alu u d a b f = s.setPair u.sp.val
      (((s.issuer u).writeG d.val (f ((s.issuer u).readG a.val) ((s.issuer u).srcB b))).retire ((s.issuer u).pc + 1)) :=
  State.issue_pair h rfl

theorem State.compare_runs {s : State} {u : Issue} (h : s.Runs u) (pd : Fin 16) (a : Fin 64) (b : SrcB) (f : W64 → W64 → Bool) :
    s.compare u pd a b f = s.setPair u.sp.val
      (((s.issuer u).writeP pd.val (f ((s.issuer u).readG a.val) ((s.issuer u).srcB b))).retire ((s.issuer u).pc + 1)) :=
  State.issue_pair h rfl

theorem State.predOp_runs {s : State} {u : Issue} (h : s.Runs u) (pd a b : Fin 16) (f : Bool → Bool → Bool) :
    s.predOp u pd a b f = s.setPair u.sp.val
      (((s.issuer u).writeP pd.val (f ((s.issuer u).readP a.val) ((s.issuer u).readP b.val))).retire ((s.issuer u).pc + 1)) :=
  State.issue_pair h rfl

/-- A load whose address is in range. -/
theorem State.load_runs {s : State} {u : Issue} (h : s.Runs u) (d a : Fin 64) (imm : W32) (n : Nat) (signed : Bool) {v : Nat}
    (hv : (s.issuer u).dataAddr a imm n n = some v) :
    s.load u d a imm n signed = s.setPair u.sp.val
      (((s.issuer u).writeG d.val (loadExt signed n (readLe (s.issuer u).data v n))).retire ((s.issuer u).pc + 1)) := by
  refine State.issue_pair h ?_
  show (match (s.issuer u).dataAddr a imm n n with | some v => _ | none => _) = _
  rw [hv]
  rfl

/-- A store whose address is in range. -/
theorem State.store_runs {s : State} {u : Issue} (h : s.Runs u) (d a : Fin 64) (imm : W32) (n : Nat) {v : Nat}
    (hv : (s.issuer u).dataAddr a imm n n = some v) :
    s.store u d a imm n = s.setPair u.sp.val
      (({ s.issuer u with dmem := writeLe (s.issuer u).dmem v n ((s.issuer u).readG d.val).toNat } : Pair).retire ((s.issuer u).pc + 1)) := by
  refine State.issue_pair h ?_
  show (match (s.issuer u).dataAddr a imm n n with | some v => _ | none => _) = _
  rw [hv]
  rfl

theorem Pair.dataAddr_ok {x : Pair} {a : Fin 64} {imm : W32} {align n : Nat} (h1 : (x.readG a.val + immVal imm).toNat % align = 0)
    (h2 : (x.readG a.val + immVal imm).toNat + n ≤ dmemSize) :
    x.dataAddr a imm align n = some (x.readG a.val + immVal imm).toNat := by
  unfold Pair.dataAddr
  exact if_pos ⟨h1, h2⟩

/-! Exceptions (R231, R232) -/

/-- The entry that `note` makes. -/
theorem State.note_logged (s : State) (kind : W16) (part : Option Nat) (host : Bool) (cls : BitVec 3) (unit : Byte) (opid : W32) (a0 a1 : Nat) :
    (s.note kind part host cls unit opid a0 a1).Logged s.ras.total
      ⟨s.clk.tick, kind, part, host, cls, unit, opid, BitVec.ofNat 32 a0, BitVec.ofNat 64 a1⟩ := by
  simp [State.Logged, State.note, State.log, State.modRas]

theorem State.op_opid {s : State} {opid : W32} {o : Op} (h : s.op opid = some o) : o.opid = opid := by
  simpa using List.find?_some h

/-- An operation replaced in the list is found under its tag. -/
theorem Op.find_replaced {l : List Op} {o y : Op} (hy : l.find? (fun x => x.opid = o.opid) = some y) :
    (l.map (fun x => if x.opid = o.opid then o else x)).find? (fun x => x.opid = o.opid) = some o := by
  induction l with
  | nil => simp at hy
  | cons z l ih =>
    by_cases hz : z.opid = o.opid
    · simp [hz]
    · rw [List.find?_cons_of_neg (by simpa using hz)] at hy
      rw [List.map_cons, if_neg hz, List.find?_cons_of_neg (by simpa using hz)]
      exact ih hy

theorem State.op_setOp {s : State} {o y : Op} (h : s.op o.opid = some y) : (s.setOp o).op o.opid = some o := Op.find_replaced h

theorem Op.fault_opid (o : Op) (status detail : Nat) (r : BitVec 96) : (o.fault status detail r).opid = o.opid := by
  unfold Op.fault; split <;> rfl

theorem Op.fault_cmd (o : Op) (status detail : Nat) (r : BitVec 96) : (o.fault status detail r).cmd = o.cmd := by
  unfold Op.fault; split <;> rfl

theorem Op.fault_status (o : Op) {status : Nat} (h : status < 256) (detail : Nat) (r : BitVec 96) :
    (o.fault status detail r).status.toNat = Nat.max o.status.toNat status := by
  unfold Op.fault
  split
  · next hl =>
    rw [show Nat.max o.status.toNat status = status from Nat.max_eq_right (Nat.le_of_lt hl)]
    simpa using Nat.mod_eq_of_lt h
  · next hl => exact (Nat.max_eq_left (Nat.le_of_not_lt hl)).symm

theorem State.progCheck_waits {s : State} {opid : W32} {o : Op} (ho : s.op opid = some o)
    (h : opcodeOf o.cmd ≠ 0x0F ∨ s.opQueued opid = true) : s.progCheck opid = s := by
  unfold State.progCheck
  rw [ho]
  rcases h with h | h <;> simp [h]

/-- An operation that does not end at once stops with the status. -/
theorem State.stopOp_waits {s : State} {opid : W32} {o : Op} (ho : s.op opid = some o)
    (h : opcodeOf o.cmd ≠ 0x0F ∨ s.opQueued opid = true) (status detail : Nat) (r : BitVec 96) :
    s.stopOp opid status detail r = s.setOp { o.fault status detail r with ended := 0xFF } := by
  unfold State.stopOp
  rw [ho]
  have hid : o.opid = opid := State.op_opid ho
  have hx : ({ o.fault status detail r with ended := 0xFF } : Op).opid = opid := (Op.fault_opid o _ _ _).trans hid
  refine State.progCheck_waits (o := { o.fault status detail r with ended := 0xFF }) ?_ ?_
  · conv_lhs => rw [← hx]
    exact State.op_setOp (y := o) (by rw [hx]; exact ho)
  · refine h.imp (fun h => ?_) (fun h => h)
    rwa [show ({ o.fault status detail r with ended := 0xFF } : Op).cmd = o.cmd from Op.fault_cmd o _ _ _]

/-- Fields of a word made of five, each within its width. -/
theorem packed_fields {v a b c d : Nat} (hv : v = 9223372036854775808 + a * 281474976710656 + b * 140737488355328 + c * 4294967296 + d)
    (ha : a < 256) (hb : b < 2) (hc : c < 16384) (hd : d < 4294967296) :
    v < 18446744073709551616 ∧ v / 9223372036854775808 % 2 = 1 ∧ v / 281474976710656 % 256 = a ∧ v / 140737488355328 % 2 = b
      ∧ v / 4294967296 % 16384 = c ∧ v % 4294967296 = d := by
  omega

theorem bit_eq {n : Nat} (w : BitVec n) (i : Nat) : bit w i = decide (w.toNat / 2 ^ i % 2 = 1) := by
  unfold bit
  rw [BitVec.getLsbD, Nat.testBit_eq_decide_div_mod_eq]

theorem bits_eq {n : Nat} (w : BitVec n) (lo len : Nat) : bits w lo len = w.toNat / 2 ^ lo % 2 ^ len := by
  simp only [bits, BitVec.extractLsb'_toNat, Nat.shiftRight_eq_div_pow]

theorem excWord_fields (code bank pc opid : Nat) :
    bit (excWord code bank pc opid) 63 = true ∧ bits (excWord code bank pc opid) 48 8 = code % 256
      ∧ bit (excWord code bank pc opid) 47 = decide (bank % 2 = 1) ∧ bits (excWord code bank pc opid) 32 14 = pc % 2 ^ 14
      ∧ bits (excWord code bank pc opid) 0 32 = opid % 2 ^ 32 := by
  have f := packed_fields (v := 2 ^ 63 + code % 256 * 2 ^ 48 + bank % 2 * 2 ^ 47 + pc % 2 ^ 14 * 2 ^ 32 + opid % 2 ^ 32) rfl
    (Nat.mod_lt code (by decide)) (Nat.mod_lt bank (by decide)) (Nat.mod_lt pc (by decide)) (Nat.mod_lt opid (by decide))
  have hw : (excWord code bank pc opid).toNat
      = 2 ^ 63 + code % 256 * 2 ^ 48 + bank % 2 * 2 ^ 47 + pc % 2 ^ 14 * 2 ^ 32 + opid % 2 ^ 32 :=
    (BitVec.toNat_ofNat _ _).trans (Nat.mod_eq_of_lt f.1)
  simp only [bit_eq, bits_eq, hw]
  refine ⟨decide_eq_true f.2.1, f.2.2.1, ?_, f.2.2.2.2.1, ?_⟩
  · exact decide_eq_decide.2 (by rw [show (_ : Nat) / 2 ^ 47 % 2 = bank % 2 from f.2.2.2.1])
  · rw [Nat.pow_zero, Nat.div_one]; exact f.2.2.2.2.2

/-- What marking an exception does, and whatever keeps the pairs, the log, the clusters and memory after it. -/
theorem State.markExc_raised (s : State) (sp code : Nat) {t : State} (hp : t.pairs = (s.markExc sp code (s.pair sp).pc.toNat).pairs)
    (hl : t.ras.log = (s.markExc sp code (s.pair sp).pc.toNat).ras.log) (hc : t.clusters = s.clusters) (hm : t.mem = s.mem) :
    s.Raised t sp code := by
  have e : t.pairs = if bit (s.pair sp).exc 63 then s.pairs
      else Tab.set Pair.reset s.pairs sp { s.pair sp with exc := excWord code (s.pair sp).bankNo (s.pair sp).pc.toNat ((s.pair sp).op.getD 0).toNat } := by
    rw [hp]
    by_cases hb : bit (s.pair sp).exc 63 = true <;> simp [State.markExc, State.note, hb]
  have l : t.Logged s.ras.total ⟨s.clk.tick, 0x03, some (s.pair sp).part, false, 2, BitVec.ofNat 8 (0x40 + sp), (s.pair sp).op.getD 0,
      BitVec.ofNat 32 (code + 2 ^ 8 * (if (s.pair sp).bank then 1 else 0) + 2 ^ 9 * (s.pair sp).pc.toNat), 0⟩ := by
    show Tab.get none t.ras.log _ = _
    rw [hl]
    by_cases hb : bit (s.pair sp).exc 63 = true <;> simp only [State.markExc, hb, if_true, if_false, Bool.false_eq_true]
    · exact State.note_logged s _ _ _ _ _ _ _ _
    · exact State.note_logged (s.setPair sp _) _ _ _ _ _ _ _ _
  have f := excWord_fields code (s.pair sp).bankNo (s.pair sp).pc.toNat ((s.pair sp).op.getD 0).toNat
  have hpair : t.pair sp = if bit (s.pair sp).exc 63 then s.pair sp
      else { s.pair sp with exc := excWord code (s.pair sp).bankNo (s.pair sp).pc.toNat ((s.pair sp).op.getD 0).toNat } := by
    show Tab.get _ t.pairs sp = _
    rw [e]
    split
    · rfl
    · exact Tab.get_set_self _ _ _ _
  refine ⟨fun h => ?_, fun h => ?_, ?_, fun k hk => ?_, l, hc, hm⟩
  · rw [hpair, h, if_neg Bool.false_ne_true]
    refine ⟨f.1, f.2.1, f.2.2.1.trans ?_, f.2.2.2.1.trans (Nat.mod_eq_of_lt (s.pair sp).pc.isLt), f.2.2.2.2.trans (Nat.mod_eq_of_lt (BitVec.isLt _))⟩
    unfold Pair.bankNo
    cases (s.pair sp).bank <;> rfl
  · rw [hpair, h, if_pos rfl]
  · rw [hpair]
    split <;> rfl
  · show Tab.get _ t.pairs k = _
    rw [e]
    split
    · rfl
    · exact Tab.get_set_ne _ _ hk _

/-- R231, R232: an exception, where the operation that the pair serves does not end at once. -/
theorem State.raiseExc_raised (s : State) (sp code : Nat)
    (h : ∀ opid o, (s.pair sp).op = some opid → s.op opid = some o → opcodeOf o.cmd ≠ 0x0F ∨ s.opQueued opid = true) :
    s.Raised (s.raiseExc sp code) sp code
      ∧ ∀ opid o, (s.pair sp).op = some opid → s.op opid = some o → ∃ o', (s.raiseExc sp code).op opid = some o' ∧ o'.ended = 0xFF
        ∧ o'.status.toNat = Nat.max o.status.toNat (if opcodeOf o.cmd = 0x0F then 0x22 else 0xF0) := by
  have hhw : (s.markExc sp code (s.pair sp).pc.toNat).hw = s.hw := by unfold State.markExc; dsimp only; split <;> rfl
  have hcl : (s.markExc sp code (s.pair sp).pc.toNat).clusters = s.clusters := by unfold State.markExc; dsimp only; split <;> rfl
  have hmem : (s.markExc sp code (s.pair sp).pc.toNat).mem = s.mem := by unfold State.markExc; dsimp only; split <;> rfl
  have hop : ∀ k, (s.markExc sp code (s.pair sp).pc.toNat).op k = s.op k := fun k => by unfold State.op; rw [hhw]
  cases ho : (s.pair sp).op.bind (s.markExc sp code (s.pair sp).pc.toNat).op with
  | none =>
    have e : s.raiseExc sp code = (s.markExc sp code (s.pair sp).pc.toNat).countL := by
      unfold State.raiseExc; dsimp only; rw [ho]
    rw [e]
    refine ⟨State.markExc_raised s sp code rfl rfl hcl hmem, fun opid o h1 h2 => ?_⟩
    rw [h1, Option.bind_some, hop, h2] at ho
    cases ho
  | some o =>
    obtain ⟨opid, h1, h2⟩ := Option.bind_eq_some_iff.1 ho
    rw [hop] at h2
    have hid := State.op_opid h2
    have hw := h opid o h1 h2
    have h2' : (s.markExc sp code (s.pair sp).pc.toNat).op o.opid = some o := by rw [hid, hop]; exact h2
    have hw' : opcodeOf o.cmd ≠ 0x0F ∨ (s.markExc sp code (s.pair sp).pc.toNat).opQueued o.opid = true := by
      rw [hid]; unfold State.opQueued; rw [hcl]; exact hw
    have e : s.raiseExc sp code = (s.markExc sp code (s.pair sp).pc.toNat).setOp
        { o.fault (if opcodeOf o.cmd = 0x0F then 0x22 else 0xF0) (0x80 + code) (excResult (s.pair sp) sp (s.pair sp).pc.toNat) with ended := 0xFF } := by
      unfold State.raiseExc; dsimp only; rw [ho]
      exact State.stopOp_waits h2' hw' _ _ _
    rw [e]
    refine ⟨State.markExc_raised s sp code rfl rfl hcl hmem, fun opid' o' h1' h2'' => ?_⟩
    rw [h1] at h1'
    cases h1'
    rw [h2] at h2''
    cases h2''
    refine ⟨{ o.fault (if opcodeOf o.cmd = 0x0F then 0x22 else 0xF0) (0x80 + code) (excResult (s.pair sp) sp (s.pair sp).pc.toNat) with ended := 0xFF },
      ?_, rfl, ?_⟩
    · have hx := Op.fault_opid o (if opcodeOf o.cmd = 0x0F then 0x22 else 0xF0) (0x80 + code) (excResult (s.pair sp) sp (s.pair sp).pc.toNat)
      conv_lhs => rw [← hid, ← hx]
      refine State.op_setOp (o := { o.fault _ _ _ with ended := 0xFF }) (y := o) ?_
      exact (congrArg _ hx).trans h2'
    · refine Op.fault_status o ?_ _ _
      split <;> decide

end Sys2Proof.Machine
end

