-- ==== Sys2Proof/Laws/Keeps.lean ====
section
/-! SUPPORT. `State.Keeps` as a preorder, and how each elementary update, fold and result type carries it. Each law says that what held from
`r` to the state before holds from `r` to the state after, so that the laws chain. -/

namespace Sys2Proof.Machine

theorem State.Keeps.refl (s : State) : s.Keeps s := ⟨⟨rfl, rfl, rfl, rfl, List.prefix_refl _, id, Nat.le_refl _⟩, Nat.le_refl _⟩

theorem State.Fixed.trans {r s t : State} (a : r.Fixed s) (b : s.Fixed t) : r.Fixed t :=
  ⟨b.part.trans a.part, b.queue.trans a.queue, b.serial.trans a.serial, b.transport.trans a.transport, a.seals.trans b.seals,
   fun h => b.mem (a.mem h), Nat.le_trans a.drawn b.drawn⟩

theorem State.Keeps.trans {r s t : State} (a : r.Keeps s) (b : s.Keeps t) : r.Keeps t :=
  ⟨a.toFixed.trans b.toFixed, Nat.le_trans a.tamper b.tamper⟩

/-- A new record that differs from `s` in fields outside the five that count. -/
theorem State.Keeps.with {r s : State} (h : r.Keeps s) {clk : Clk} {boot : Boot} {cfg : Cfg} {glob : Glob} {hw : Hw} {weir : Weir}
    {pools : Tab Pool} {sig : Sig} {pt : Tab Pt} {tr : Tr} {ports : Tab Port} {fab : Fab} {peer : Peer} {clusters : Tab Cluster}
    {pairs : Tab Pair} {ras : Ras} {recorder : Recorder} {trc : Trc} {link : Link} {tap : Tap} {out : Out} :
    r.Keeps ⟨s.part, clk, boot, cfg, glob, hw, weir, pools, sig, pt, tr, ports, fab, peer, clusters, pairs, ras, recorder, trc, link, s.smu,
      tap, s.mem, out, s.freeCtr, s.pending⟩ :=
  h.trans ⟨⟨rfl, rfl, rfl, rfl, List.prefix_refl _, id, Nat.le_refl _⟩, Nat.le_refl _⟩

/-- Free values drawn. -/
theorem State.Keeps.ctr {r s : State} (h : r.Keeps s) {n : Nat} (hn : s.freeCtr ≤ n) : r.Keeps { s with freeCtr := n } :=
  h.trans ⟨⟨rfl, rfl, rfl, rfl, List.prefix_refl _, id, hn⟩, Nat.le_refl _⟩

/-- Memory written in canonical form. -/
theorem State.Keeps.memSet {r s : State} (h : r.Keeps s) {m : Tab Byte} (hm : Tab.wf 0 s.mem → Tab.wf 0 m) : r.Keeps { s with mem := m } :=
  h.trans ⟨⟨rfl, rfl, rfl, rfl, List.prefix_refl _, hm, Nat.le_refl _⟩, Nat.le_refl _⟩

/-- What a change of the meter keeps. -/
structure Smu.Keeps (m n : Smu) : Prop where
  serial : n.serial = m.serial
  transport : n.transportKey = m.transportKey
  seals : m.burned <+: n.burned
  tamper : m.tamper.toNat ≤ n.tamper.toNat

theorem Smu.Keeps.refl (m : Smu) : m.Keeps m := ⟨rfl, rfl, List.prefix_refl _, Nat.le_refl _⟩

theorem Smu.Keeps.trans {l m n : Smu} (a : l.Keeps m) (b : m.Keeps n) : l.Keeps n :=
  ⟨b.serial.trans a.serial, b.transport.trans a.transport, a.seals.trans b.seals, Nat.le_trans a.tamper b.tamper⟩

theorem State.Keeps.smuSet {r s : State} (h : r.Keeps s) {m : Smu} (hm : s.smu.Keeps m) : r.Keeps { s with smu := m } :=
  h.trans ⟨⟨rfl, rfl, hm.serial, hm.transport, hm.seals, id, Nat.le_refl _⟩, hm.tamper⟩

theorem State.Keeps.fold {α : Type} {r s : State} {f : State → α → State} {xs : List α} (h : r.Keeps s)
    (hf : ∀ s x, r.Keeps s → r.Keeps (f s x)) : r.Keeps (xs.foldl f s) := by
  induction xs generalizing s with
  | nil => exact h
  | cons x xs ih => exact ih (hf s x h)

/-- A fold whose accumulator carries the state first. -/
theorem State.Keeps.fold1 {α β : Type} {r : State} {a : State × β} {f : State × β → α → State × β} {xs : List α} (h : r.Keeps a.1)
    (hf : ∀ a x, r.Keeps a.1 → r.Keeps (f a x).1) : r.Keeps (xs.foldl f a).1 := by
  induction xs generalizing a with
  | nil => exact h
  | cons x xs ih => exact ih (hf a x h)

/-- A fold whose accumulator carries the state second. -/
theorem State.Keeps.fold2 {α β : Type} {r : State} {a : β × State} {f : β × State → α → β × State} {xs : List α} (h : r.Keeps a.2)
    (hf : ∀ a x, r.Keeps a.2 → r.Keeps (f a x).2) : r.Keeps (xs.foldl f a).2 := by
  induction xs generalizing a with
  | nil => exact h
  | cons x xs ih => exact ih (hf a x h)

theorem State.Keeps.snd {α : Type} {r t : State} {x : α × State} {a : α} (e : x = (a, t)) (h : r.Keeps x.2) : r.Keeps t := by
  subst e; exact h

theorem State.Keeps.fst {α : Type} {r t : State} {x : State × α} {a : α} (e : x = (t, a)) (h : r.Keeps x.1) : r.Keeps t := by
  subst e; exact h

/-- A command's outcome is a next state that keeps what must be kept. -/
def Res.Keeps (r : State) (x : Res) : Prop := ∃ t, x = .next t ∧ r.Keeps t

theorem Res.Keeps.next {r t : State} (h : r.Keeps t) : Res.Keeps r (.next t) := ⟨t, rfl, h⟩

end Sys2Proof.Machine
end

