-- ==== Sys2Proof/Laws/KeepsOps.lean ====
section
/-! SUPPORT. `State.Keeps` for the operations of Machine/Ops.lean. -/

namespace Sys2Proof.Machine

theorem State.setCluster_keeps {z s : State} (h : z.Keeps s) (n : Nat) (c : Cluster) :
    z.Keeps (State.setCluster s n c) := by
  unfold State.setCluster
  repeat' first
    | with_reducible assumption | with_reducible apply State.Keeps.with

theorem State.modCluster_keeps {z s : State} (h : z.Keeps s) (n : Nat) (f : Cluster → Cluster) :
    z.Keeps (State.modCluster s n f) := by
  unfold State.modCluster
  repeat' first
    | with_reducible assumption | with_reducible apply State.setCluster_keeps

theorem State.setPair_keeps {z s : State} (h : z.Keeps s) (n : Nat) (c : Pair) :
    z.Keeps (State.setPair s n c) := by
  unfold State.setPair
  repeat' first
    | with_reducible assumption | with_reducible apply State.Keeps.with

theorem State.modPair_keeps {z s : State} (h : z.Keeps s) (n : Nat) (f : Pair → Pair) :
    z.Keeps (State.modPair s n f) := by
  unfold State.modPair
  repeat' first
    | with_reducible assumption | with_reducible apply State.setPair_keeps

theorem State.setPool_keeps {z s : State} (h : z.Keeps s) (p : Nat) (c : Pool) :
    z.Keeps (State.setPool s p c) := by
  unfold State.setPool
  repeat' first
    | with_reducible assumption | with_reducible apply State.Keeps.with

theorem State.modPool_keeps {z s : State} (h : z.Keeps s) (p : Nat) (f : Pool → Pool) :
    z.Keeps (State.modPool s p f) := by
  unfold State.modPool
  repeat' first
    | with_reducible assumption | with_reducible apply State.setPool_keeps

theorem State.setPt_keeps {z s : State} (h : z.Keeps s) (p : Nat) (c : Pt) :
    z.Keeps (State.setPt s p c) := by
  unfold State.setPt
  repeat' first
    | with_reducible assumption | with_reducible apply State.Keeps.with

theorem State.modPt_keeps {z s : State} (h : z.Keeps s) (p : Nat) (f : Pt → Pt) :
    z.Keeps (State.modPt s p f) := by
  unfold State.modPt
  repeat' first
    | with_reducible assumption | with_reducible apply State.setPt_keeps

theorem State.setPort_keeps {z s : State} (h : z.Keeps s) (k : Nat) (c : Port) :
    z.Keeps (State.setPort s k c) := by
  unfold State.setPort
  repeat' first
    | with_reducible assumption | with_reducible apply State.Keeps.with

theorem State.modPort_keeps {z s : State} (h : z.Keeps s) (k : Nat) (f : Port → Port) :
    z.Keeps (State.modPort s k f) := by
  unfold State.modPort
  repeat' first
    | with_reducible assumption | with_reducible apply State.setPort_keeps

theorem State.setRing_keeps {z s : State} (h : z.Keeps s) (r : Nat) (c : Ring) :
    z.Keeps (State.setRing s r c) := by
  unfold State.setRing
  repeat' first
    | with_reducible assumption | with_reducible apply State.Keeps.with

theorem State.modRing_keeps {z s : State} (h : z.Keeps s) (r : Nat) (f : Ring → Ring) :
    z.Keeps (State.modRing s r f) := by
  unfold State.modRing
  repeat' first
    | with_reducible assumption | with_reducible apply State.setRing_keeps

theorem State.putSeq_keeps {z s : State} (h : z.Keeps s) (p q : Nat) (c : Seq) :
    z.Keeps (State.putSeq s p q c) := by
  unfold State.putSeq
  repeat' first
    | with_reducible assumption | with_reducible apply State.Keeps.with

theorem State.modHw_keeps {z s : State} (h : z.Keeps s) (f : Hw → Hw) :
    z.Keeps (State.modHw s f) := by
  unfold State.modHw
  repeat' first
    | with_reducible assumption | with_reducible apply State.Keeps.with

theorem State.modClk_keeps {z s : State} (h : z.Keeps s) (f : Clk → Clk) :
    z.Keeps (State.modClk s f) := by
  unfold State.modClk
  repeat' first
    | with_reducible assumption | with_reducible apply State.Keeps.with

theorem State.modBoot_keeps {z s : State} (h : z.Keeps s) (f : Boot → Boot) :
    z.Keeps (State.modBoot s f) := by
  unfold State.modBoot
  repeat' first
    | with_reducible assumption | with_reducible apply State.Keeps.with

theorem State.modCfg_keeps {z s : State} (h : z.Keeps s) (f : Cfg → Cfg) :
    z.Keeps (State.modCfg s f) := by
  unfold State.modCfg
  repeat' first
    | with_reducible assumption | with_reducible apply State.Keeps.with

theorem State.modWeir_keeps {z s : State} (h : z.Keeps s) (f : Weir → Weir) :
    z.Keeps (State.modWeir s f) := by
  unfold State.modWeir
  repeat' first
    | with_reducible assumption | with_reducible apply State.Keeps.with

theorem State.modRas_keeps {z s : State} (h : z.Keeps s) (f : Ras → Ras) :
    z.Keeps (State.modRas s f) := by
  unfold State.modRas
  repeat' first
    | with_reducible assumption | with_reducible apply State.Keeps.with

theorem State.modSmu_keeps {z s : State} (h : z.Keeps s) (f : Smu → Smu) (hf : s.smu.Keeps (f s.smu)) : z.Keeps (s.modSmu f) := h.smuSet hf

theorem State.modTrc_keeps {z s : State} (h : z.Keeps s) (f : Trc → Trc) :
    z.Keeps (State.modTrc s f) := by
  unfold State.modTrc
  repeat' first
    | with_reducible assumption | with_reducible apply State.Keeps.with

theorem State.modTr_keeps {z s : State} (h : z.Keeps s) (f : Tr → Tr) :
    z.Keeps (State.modTr s f) := by
  unfold State.modTr
  repeat' first
    | with_reducible assumption | with_reducible apply State.Keeps.with

theorem State.modSig_keeps {z s : State} (h : z.Keeps s) (f : Sig → Sig) :
    z.Keeps (State.modSig s f) := by
  unfold State.modSig
  repeat' first
    | with_reducible assumption | with_reducible apply State.Keeps.with

theorem State.modRecorder_keeps {z s : State} (h : z.Keeps s) (f : Recorder → Recorder) :
    z.Keeps (State.modRecorder s f) := by
  unfold State.modRecorder
  repeat' first
    | with_reducible assumption | with_reducible apply State.Keeps.with

theorem State.modLink_keeps {z s : State} (h : z.Keeps s) (f : Link → Link) :
    z.Keeps (State.modLink s f) := by
  unfold State.modLink
  repeat' first
    | with_reducible assumption | with_reducible apply State.Keeps.with

theorem State.modOut_keeps {z s : State} (h : z.Keeps s) (f : Out → Out) :
    z.Keeps (State.modOut s f) := by
  unfold State.modOut
  repeat' first
    | with_reducible assumption | with_reducible apply State.Keeps.with

theorem State.modFab_keeps {z s : State} (h : z.Keeps s) (f : Fab → Fab) :
    z.Keeps (State.modFab s f) := by
  unfold State.modFab
  repeat' first
    | with_reducible assumption | with_reducible apply State.Keeps.with

theorem State.modPeer_keeps {z s : State} (h : z.Keeps s) (f : Peer → Peer) :
    z.Keeps (State.modPeer s f) := by
  unfold State.modPeer
  repeat' first
    | with_reducible assumption | with_reducible apply State.Keeps.with

theorem State.modGlob_keeps {z s : State} (h : z.Keeps s) (f : Glob → Glob) :
    z.Keeps (State.modGlob s f) := by
  unfold State.modGlob
  repeat' first
    | with_reducible assumption | with_reducible apply State.Keeps.with

theorem State.draw_keeps {z s : State} (h : z.Keeps s)  :
    z.Keeps (State.draw s).2 := by
  exact h.ctr (Nat.le_succ _)

theorem State.pick_keeps {z s : State} (h : z.Keeps s) (xs : List Nat) :
    z.Keeps (State.pick s xs).2 := by
  unfold State.pick
  repeat' first
    | with_reducible assumption | with_reducible apply State.draw_keeps
    | with_reducible refine State.Keeps.snd (by with_reducible assumption) ?_ | extract_lets | split

theorem State.log_keeps {z s : State} (h : z.Keeps s) (e : Tlog) :
    z.Keeps (State.log s e) := by
  unfold State.log
  repeat' first
    | with_reducible assumption | with_reducible apply State.modRas_keeps

theorem State.note_keeps {z s : State} (h : z.Keeps s) (kind : W16) (part : Option Nat) (host : Bool) (cls : BitVec 3) (unit : Byte) (opid : W32) (a0 a1 : Nat) :
    z.Keeps (State.note s kind part host cls unit opid a0 a1) := by
  unfold State.note
  repeat' first
    | with_reducible assumption | with_reducible apply State.log_keeps

theorem State.traceAt_keeps {z s : State} (h : z.Keeps s) (fc : BitVec 48) (tick : W64) (type : Nat) (part : Nat) (unit : Byte) (opid : W32) (a0 a1 : Nat) :
    z.Keeps (State.traceAt s fc tick type part unit opid a0 a1) := by
  unfold State.traceAt
  repeat' first
    | with_reducible assumption | extract_lets | split | dsimp +zetaDelta only | with_reducible apply State.Keeps.with

theorem State.trace_keeps {z s : State} (h : z.Keeps s) (type : Nat) (part : Nat) (unit : Byte) (opid : W32) (a0 a1 : Nat) :
    z.Keeps (State.trace s type part unit opid a0 a1) := by
  unfold State.trace
  repeat' first
    | with_reducible assumption | with_reducible apply State.traceAt_keeps

theorem State.drainTrace_keeps {z s : State} (h : z.Keeps s) :
    z.Keeps (State.drainTrace s) := by
  unfold State.drainTrace
  repeat' first
    | with_reducible assumption | with_reducible refine State.Keeps.fold ?_ (fun _ _ _ => ?_) | extract_lets | split | dsimp +zetaDelta only
    | with_reducible apply State.Keeps.with

theorem State.tlbTouch_keeps {z s : State} (h : z.Keeps s) (space va : Nat) :
    z.Keeps (State.tlbTouch s space va) := by
  unfold State.tlbTouch
  repeat' first
    | with_reducible assumption | with_reducible apply State.modTr_keeps | extract_lets | split

theorem State.touchOpd_keeps {z s : State} (h : z.Keeps s) (o : Opd) :
    z.Keeps (State.touchOpd s o) := by
  unfold State.touchOpd
  repeat' first
    | with_reducible assumption | with_reducible apply State.tlbTouch_keeps | with_reducible refine State.Keeps.fold ?_ (fun _ _ _ => ?_)
    | split

theorem State.vaWrite_keeps {z s : State} (h : z.Keeps s) (space va : Nat) (bs : List Byte) :
    z.Keeps (State.vaWrite s space va bs) := by
  unfold State.vaWrite
  refine State.Keeps.fold1 h (fun a x ha => ?_)
  split
  · exact ha.memSet (fun hm => writeBytes_wf hm _ _)
  · exact ha

theorem State.pushReq_keeps {z s : State} (h : z.Keeps s) (r : Req) :
    z.Keeps (State.pushReq s r) := by
  unfold State.pushReq
  repeat' first
    | with_reducible assumption | with_reducible apply State.modPort_keeps

theorem State.tagLight_keeps {z s : State} (h : z.Keeps s) :
    z.Keeps (State.tagLight s) := by
  unfold State.tagLight
  repeat' first
    | with_reducible assumption | with_reducible apply State.modHw_keeps

theorem State.light_keeps {z s : State} (h : z.Keeps s) (k : LightCls) (aim : Aim) (wr : Bool) (space va n : Nat) :
    z.Keeps (State.light s k aim wr space va n) := by
  unfold State.light
  repeat' first
    | with_reducible assumption | with_reducible apply State.modHw_keeps | with_reducible apply State.tagLight_keeps

theorem State.lightWrite_keeps {z s : State} (h : z.Keeps s) (k : LightCls) (aim : Aim) (space va : Nat) (bs : List Byte) :
    z.Keeps (State.lightWrite s k aim space va bs) := by
  unfold State.lightWrite
  repeat' first
    | with_reducible assumption | with_reducible apply State.vaWrite_keeps | with_reducible apply State.light_keeps

theorem State.setSeq_keeps {z s : State} (h : z.Keeps s) (p q : Nat) (c : Seq) :
    z.Keeps (State.setSeq s p q c) := by
  unfold State.setSeq
  repeat' first
    | with_reducible assumption | with_reducible apply State.putSeq_keeps | with_reducible apply State.vaWrite_keeps
    | with_reducible refine State.Keeps.fold ?_ (fun _ _ _ => ?_)

theorem State.modSeq_keeps {z s : State} (h : z.Keeps s) (p q : Nat) (f : Seq → Seq) :
    z.Keeps (State.modSeq s p q f) := by
  unfold State.modSeq
  repeat' first
    | with_reducible assumption | with_reducible apply State.setSeq_keeps

theorem State.sendIrq_keeps {z s : State} (h : z.Keeps s) (vec cause part info : Nat) :
    z.Keeps (State.sendIrq s vec cause part info) := by
  unfold State.sendIrq
  repeat' first
    | with_reducible assumption | with_reducible apply State.note_keeps | with_reducible apply State.lightWrite_keeps | extract_lets | split
    | dsimp +zetaDelta only | with_reducible apply State.Keeps.with

theorem State.irqPending_keeps {z s : State} (h : z.Keeps s) (b vec cause part info : Nat) :
    z.Keeps (State.irqPending s b vec cause part info) := by
  unfold State.irqPending
  repeat' first
    | with_reducible assumption | with_reducible apply State.sendIrq_keeps | split | with_reducible apply State.Keeps.with

theorem State.rasIrq_keeps {z s : State} (h : z.Keeps s) (cls n : Nat) :
    z.Keeps (State.rasIrq s cls n) := by
  unfold State.rasIrq
  repeat' first
    | with_reducible assumption | with_reducible apply State.irqPending_keeps

theorem State.evRecord_keeps {z s : State} (h : z.Keeps s) (r : Rec) :
    z.Keeps (State.evRecord s r) := by
  unfold State.evRecord
  repeat' first
    | with_reducible assumption | with_reducible apply State.modRecorder_keeps | with_reducible apply State.note_keeps
    | with_reducible apply State.rasIrq_keeps | extract_lets | split

theorem State.event_keeps {z s : State} (h : z.Keeps s) (type : W16) (cls : BitVec 3) (part : Option Nat) (opid : W32) (fs : List (Nat × Nat × Nat)) :
    z.Keeps (State.event s type cls part opid fs) := by
  unfold State.event
  repeat' first
    | with_reducible assumption | with_reducible apply State.evRecord_keeps

theorem State.countL_keeps {z s : State} (h : z.Keeps s) :
    z.Keeps (State.countL s) := by
  unfold State.countL
  repeat' first
    | with_reducible assumption | with_reducible apply State.modRas_keeps

theorem State.classPMark_keeps {z s : State} (h : z.Keeps s) (p kind addr n : Nat) :
    z.Keeps (State.classPMark s p kind addr n) := by
  unfold State.classPMark
  repeat' first
    | with_reducible assumption | with_reducible apply State.modRas_keeps | with_reducible apply State.rasIrq_keeps
    | with_reducible apply State.event_keeps

theorem State.classP_keeps {z s : State} (h : z.Keeps s) (p cause addr : Nat) :
    z.Keeps (State.classP s p cause addr) := by
  unfold State.classP
  repeat' first
    | with_reducible assumption | with_reducible apply State.note_keeps | with_reducible apply State.classPMark_keeps

theorem State.lockedWrite_keeps {z s : State} (h : z.Keeps s) (off : Nat) (v : W64) :
    z.Keeps (State.lockedWrite s off v) := by
  unfold State.lockedWrite
  repeat' first
    | with_reducible assumption | with_reducible apply State.modCfg_keeps | with_reducible apply State.modRecorder_keeps
    | with_reducible apply State.note_keeps | with_reducible apply State.event_keeps | extract_lets | split | dsimp +zetaDelta only

theorem State.pmOut_keeps {z s : State} (h : z.Keeps s) (type part count arg : Nat) :
    z.Keeps (State.pmOut s type part count arg) := by
  unfold State.pmOut
  repeat' first
    | with_reducible assumption | with_reducible apply State.modOut_keeps

theorem State.silencePorts_keeps {z s : State} (h : z.Keeps s) :
    z.Keeps (State.silencePorts s) := by
  unfold State.silencePorts
  repeat' first
    | with_reducible assumption | with_reducible apply State.Keeps.with

theorem State.enterFatal_keeps {z s : State} (h : z.Keeps s) (cause : Nat) :
    z.Keeps (State.enterFatal s cause) := by
  unfold State.enterFatal
  repeat' first
    | with_reducible assumption | with_reducible apply State.modClk_keeps | with_reducible apply State.modBoot_keeps
    | with_reducible apply State.modRas_keeps | with_reducible apply State.event_keeps | with_reducible apply State.pmOut_keeps
    | with_reducible apply State.silencePorts_keeps | extract_lets | split

theorem State.meterEvent_keeps {z s : State} (h : z.Keeps s) (p q inc : Nat) :
    z.Keeps (State.meterEvent s p q inc) := by
  unfold State.meterEvent
  repeat' first
    | with_reducible assumption | with_reducible apply State.modLink_keeps | split

theorem State.setRaised_keeps {z s : State} (h : z.Keeps s) (n : Nat) (b : Bool) :
    z.Keeps (State.setRaised s n b) := by
  unfold State.setRaised
  repeat' first
    | with_reducible assumption | with_reducible apply State.modSig_keeps

theorem State.setOp_keeps {z s : State} (h : z.Keeps s) (o : Op) :
    z.Keeps (State.setOp s o) := by
  unfold State.setOp
  repeat' first
    | with_reducible assumption | with_reducible apply State.modHw_keeps

theorem State.dropOp_keeps {z s : State} (h : z.Keeps s) (opid : W32) :
    z.Keeps (State.dropOp s opid) := by
  unfold State.dropOp
  repeat' first
    | with_reducible assumption | with_reducible apply State.modHw_keeps

theorem State.endSwait_keeps {z s : State} (h : z.Keeps s) (sp : Nat) (outcome : Nat) :
    z.Keeps (State.endSwait s sp outcome) := by
  unfold State.endSwait
  repeat' first
    | with_reducible assumption | with_reducible apply State.setPair_keeps | with_reducible apply State.modWeir_keeps
    | with_reducible apply State.trace_keeps | with_reducible apply State.pmOut_keeps | extract_lets | split

theorem State.releaseWaiter_keeps {z s : State} (h : z.Keeps s) (w : Waiter) :
    z.Keeps (State.releaseWaiter s w) := by
  unfold State.releaseWaiter
  repeat' first
    | with_reducible assumption | with_reducible apply State.modCluster_keeps | with_reducible apply State.modHw_keeps
    | with_reducible apply State.endSwait_keeps | split

theorem State.raise_keeps {z s : State} (h : z.Keeps s) (n : Nat) :
    z.Keeps (State.raise s n) := by
  unfold State.raise
  generalize List.map Prod.snd (List.filter (fun w : Nat × Waiter => decide (w.1 = n)) s.sig.waiters) = ws
  cases ws with
  | nil => exact State.setRaised_keeps h _ _
  | cons w ws => exact State.Keeps.fold (State.modSig_keeps h _) (fun _ _ h => State.releaseWaiter_keeps h _)

theorem State.await_keeps {z s : State} (h : z.Keeps s) (n : Nat) (w : Waiter) :
    z.Keeps (State.await s n w).2 := by
  unfold State.await
  repeat' first
    | with_reducible assumption | with_reducible apply State.modSig_keeps | with_reducible apply State.setRaised_keeps | split

theorem State.unwait_keeps {z s : State} (h : z.Keeps s) (w : Waiter) :
    z.Keeps (State.unwait s w) := by
  unfold State.unwait
  repeat' first
    | with_reducible assumption | with_reducible apply State.modSig_keeps

theorem State.recordWritten_keeps {z s : State} (h : z.Keeps s) (ring : Nat) (idx : W32) (raise : Option Nat) (irq : Bool) :
    z.Keeps (State.recordWritten s ring idx raise irq) := by
  unfold State.recordWritten
  repeat' first
    | with_reducible assumption | with_reducible apply State.setRing_keeps | with_reducible apply State.sendIrq_keeps
    | with_reducible apply State.raise_keeps | extract_lets | split | dsimp +zetaDelta only

theorem State.writeRecord_keeps {z s : State} (h : z.Keeps s) (ring : Nat) (idx : W32) (w : BitVec 256) (raise : Option Nat) (irq : Bool) :
    z.Keeps (State.writeRecord s ring idx w raise irq) := by
  unfold State.writeRecord
  repeat' first
    | with_reducible assumption | with_reducible apply State.modRing_keeps | with_reducible apply State.lightWrite_keeps
    | with_reducible apply State.classP_keeps | with_reducible apply State.recordWritten_keeps | extract_lets | split

theorem State.completeUnder_keeps {z s : State} (h : z.Keeps s) (set : CfgSet) (part : Nat) (c : Cmd) (x : Compl) :
    z.Keeps (State.completeUnder s set part c x) := by
  unfold State.completeUnder
  repeat' first
    | with_reducible assumption | with_reducible apply State.trace_keeps | with_reducible apply State.countL_keeps
    | with_reducible apply State.writeRecord_keeps | extract_lets | split

theorem State.completeCmd_keeps {z s : State} (h : z.Keeps s) (part : Nat) (c : Cmd) (x : Compl) :
    z.Keeps (State.completeCmd s part c x) := by
  unfold State.completeCmd
  repeat' first
    | with_reducible assumption | with_reducible apply State.completeUnder_keeps

theorem State.retryRecords_keeps {z s : State} (h : z.Keeps s) (ring : Nat) :
    z.Keeps (State.retryRecords s ring) := by
  unfold State.retryRecords
  repeat' first
    | with_reducible assumption | with_reducible apply State.modRing_keeps | with_reducible apply State.writeRecord_keeps
    | with_reducible refine State.Keeps.fold ?_ (fun _ _ _ => ?_)

end Sys2Proof.Machine
end

