-- ==== Sys2Proof/Laws/KeepsKv.lean ====
section
/-! SUPPORT. `State.Keeps` for the operations of Machine/Kv.lean. -/

namespace Sys2Proof.Machine

theorem State.setPg_keeps {z s : State} (h : z.Keeps s) (p g : Nat) (r : PgRec) :
    z.Keeps (State.setPg s p g r) := by
  unfold State.setPg
  repeat' first
    | with_reducible assumption | with_reducible apply State.modPool_keeps | with_reducible apply State.draw_keeps
    | with_reducible apply State.vaWrite_keeps

theorem State.modPg_keeps {z s : State} (h : z.Keeps s) (p g : Nat) (f : PgRec → PgRec) :
    z.Keeps (State.modPg s p g f) := by
  unfold State.modPg
  repeat' first
    | with_reducible assumption | with_reducible apply State.setPg_keeps

theorem State.setBucket_keeps {z s : State} (h : z.Keeps s) (p b g : Nat) :
    z.Keeps (State.setBucket s p b g) := by
  unfold State.setBucket
  repeat' first
    | with_reducible assumption | with_reducible apply State.modPool_keeps | with_reducible apply State.vaWrite_keeps

theorem State.unhash_keeps {z s : State} (h : z.Keeps s) (p g : Nat) :
    z.Keeps (State.unhash s p g) := by
  unfold State.unhash
  repeat' first
    | with_reducible assumption | with_reducible apply State.modPg_keeps | with_reducible apply State.setBucket_keeps | extract_lets | split
    | dsimp +zetaDelta only

theorem State.hashIn_keeps {z s : State} (h : z.Keeps s) (p g : Nat) :
    z.Keeps (State.hashIn s p g) := by
  unfold State.hashIn
  repeat' first
    | with_reducible assumption | with_reducible apply State.modPg_keeps | with_reducible apply State.setBucket_keeps | extract_lets | split

theorem State.freeGroup_keeps {z s : State} (h : z.Keeps s) (p g : Nat) :
    z.Keeps (State.freeGroup s p g) := by
  unfold State.freeGroup
  repeat' first
    | with_reducible assumption | with_reducible apply State.modPool_keeps | with_reducible apply State.setPg_keeps
    | with_reducible apply State.unhash_keeps | extract_lets | split

theorem State.clearPaused_keeps {z s : State} (h : z.Keeps s) (p : Nat) :
    z.Keeps (State.clearPaused s p) := by
  unfold State.clearPaused
  repeat' first
    | with_reducible assumption | with_reducible apply State.modHw_keeps

theorem State.judgeFamine_keeps {z s : State} (h : z.Keeps s) (p : Nat) :
    z.Keeps (State.judgeFamine s p) := by
  unfold State.judgeFamine
  repeat' first
    | with_reducible assumption | with_reducible apply State.modPool_keeps | with_reducible apply State.irqPending_keeps
    | with_reducible apply State.clearPaused_keeps | extract_lets | split

theorem State.unreferenced_keeps {z s : State} (h : z.Keeps s) (p g : Nat) :
    z.Keeps (State.unreferenced s p g) := by
  unfold State.unreferenced
  repeat' first
    | with_reducible assumption | with_reducible apply State.setPg_keeps | with_reducible apply State.modPg_keeps
    | with_reducible apply State.freeGroup_keeps | extract_lets | split

theorem State.dropRef_keeps {z s : State} (h : z.Keeps s) (p g : Nat) :
    z.Keeps (State.dropRef s p g) := by
  unfold State.dropRef
  repeat' first
    | with_reducible assumption | with_reducible apply State.modPg_keeps | with_reducible apply State.judgeFamine_keeps
    | with_reducible apply State.unreferenced_keeps | extract_lets | split

theorem State.reclaim_keeps {z s : State} (h : z.Keeps s) (p g : Nat) :
    z.Keeps (State.reclaim s p g) := by
  unfold State.reclaim
  repeat' first
    | with_reducible assumption | with_reducible apply State.freeGroup_keeps

theorem State.allocId_keeps {z s : State} (h : z.Keeps s) (p : Nat) :
    z.Keeps (State.allocId s p).2 := by
  unfold State.allocId
  repeat' first
    | with_reducible assumption | with_reducible apply State.pick_keeps | with_reducible apply State.setPg_keeps
    | with_reducible apply State.unhash_keeps | with_reducible apply State.reclaim_keeps
    | with_reducible refine State.Keeps.snd (by with_reducible assumption) ?_ | extract_lets | split

theorem State.allocFrame_keeps {z s : State} (h : z.Keeps s) (p : Nat) :
    z.Keeps (State.allocFrame s p).2 := by
  unfold State.allocFrame
  repeat' first
    | with_reducible assumption | with_reducible apply State.pick_keeps | with_reducible apply State.reclaim_keeps
    | with_reducible refine State.Keeps.snd (by with_reducible assumption) ?_ | extract_lets | split

theorem State.allocSlot_keeps {z s : State} (h : z.Keeps s) (p : Nat) :
    z.Keeps (State.allocSlot s p).2 := by
  unfold State.allocSlot
  repeat' first
    | with_reducible assumption | with_reducible apply State.pick_keeps | with_reducible apply State.setPg_keeps
    | with_reducible apply State.unhash_keeps | with_reducible refine State.Keeps.snd (by with_reducible assumption) ?_ | extract_lets
    | split

theorem State.pause_keeps {z s : State} (h : z.Keeps s) (p q : Nat) :
    z.Keeps (State.pause s p q) := by
  unfold State.pause
  repeat' first
    | with_reducible assumption | with_reducible apply State.modSeq_keeps | split

theorem State.blankTrailer_keeps {z s : State} (h : z.Keeps s) (p g : Nat) :
    z.Keeps (State.blankTrailer s p g) := by
  unfold State.blankTrailer
  repeat' first
    | with_reducible assumption | with_reducible apply State.vaWrite_keeps

theorem State.newGroup_keeps {z s : State} (h : z.Keeps s) (p q : Nat) :
    z.Keeps (State.newGroup s p q).2 := by
  unfold State.newGroup
  repeat' first
    | with_reducible assumption | with_reducible apply State.draw_keeps | with_reducible apply State.setPg_keeps
    | with_reducible apply State.judgeFamine_keeps | with_reducible apply State.allocId_keeps | with_reducible apply State.allocFrame_keeps
    | with_reducible apply State.blankTrailer_keeps | with_reducible refine State.Keeps.snd (by with_reducible assumption) ?_ | extract_lets
    | split

theorem State.cancelEvict_keeps {z s : State} (h : z.Keeps s) (p g : Nat) :
    z.Keeps (State.cancelEvict s p g) := by
  unfold State.cancelEvict
  repeat' first
    | with_reducible assumption | with_reducible apply State.modPool_keeps | with_reducible apply State.setPg_keeps | extract_lets | split

theorem State.pin_keeps {z s : State} (h : z.Keeps s) (p g : Nat) :
    z.Keeps (State.pin s p g) := by
  unfold State.pin
  repeat' first
    | with_reducible assumption | with_reducible apply State.modPg_keeps | with_reducible apply State.cancelEvict_keeps

theorem State.unpin_keeps {z s : State} (h : z.Keeps s) (p g : Nat) :
    z.Keeps (State.unpin s p g) := by
  unfold State.unpin
  repeat' first
    | with_reducible assumption | with_reducible apply State.modPool_keeps | with_reducible apply State.modPg_keeps
    | with_reducible apply State.judgeFamine_keeps | extract_lets | split

theorem State.clearFrom_keeps {z s : State} (h : z.Keeps s) (p q k : Nat) :
    z.Keeps (State.clearFrom s p q k) := by
  unfold State.clearFrom
  repeat' first
    | with_reducible assumption | with_reducible apply State.modSeq_keeps | with_reducible apply State.dropRef_keeps
    | with_reducible refine State.Keeps.fold ?_ (fun _ _ _ => ?_) | extract_lets | split

theorem State.fillBlock_keeps {z s : State} (h : z.Keeps s) (p q n k g : Nat) :
    z.Keeps (State.fillBlock s p q n k g) := by
  unfold State.fillBlock
  repeat' first
    | with_reducible assumption | with_reducible apply State.modPool_keeps | with_reducible apply State.setPg_keeps | extract_lets | split

theorem State.refill_keeps {z s : State} (h : z.Keeps s) (p q : Nat) :
    z.Keeps (State.refill s p q) := by
  unfold State.refill
  repeat' first
    | with_reducible assumption | with_reducible apply State.fillBlock_keeps | with_reducible refine State.Keeps.fold ?_ (fun _ _ _ => ?_)
    | extract_lets | split

theorem State.endTail_keeps {z s : State} (h : z.Keeps s) (p q n : Nat) :
    z.Keeps (State.endTail s p q n) := by
  unfold State.endTail
  repeat' first
    | with_reducible assumption | with_reducible apply State.modSeq_keeps | with_reducible apply State.clearFrom_keeps
    | with_reducible apply State.refill_keeps

theorem State.corruptHit_keeps {z s : State} (h : z.Keeps s) (p q k : Nat) :
    z.Keeps (State.corruptHit s p q k) := by
  unfold State.corruptHit
  repeat' first
    | with_reducible assumption | with_reducible apply State.modSeq_keeps | with_reducible apply State.clearFrom_keeps

theorem State.corrupt_keeps {z s : State} (h : z.Keeps s) (p g pos : Nat) (keepFrame : Bool) :
    z.Keeps (State.corrupt s p g pos keepFrame) := by
  unfold State.corrupt
  repeat' first
    | with_reducible assumption | with_reducible apply State.modPool_keeps | with_reducible apply State.note_keeps
    | with_reducible apply State.countL_keeps | with_reducible apply State.modPg_keeps | with_reducible apply State.unhash_keeps

theorem State.askCopy_keeps {z s : State} (h : z.Keeps s) (p : Nat) (u : ReqUse) (src dst n : Nat) :
    z.Keeps (State.askCopy s p u src dst n) := by
  unfold State.askCopy
  repeat' first
    | with_reducible assumption | with_reducible apply State.pushReq_keeps | with_reducible refine State.Keeps.fold ?_ (fun _ _ _ => ?_)
    | extract_lets | split

theorem State.startEvict_keeps {z s : State} (h : z.Keeps s) (p g : Nat) (forCmd : Option W32) :
    z.Keeps (State.startEvict s p g forCmd).2 := by
  unfold State.startEvict
  repeat' first
    | with_reducible assumption | with_reducible apply State.modPg_keeps | with_reducible apply State.allocSlot_keeps
    | with_reducible apply State.askCopy_keeps | with_reducible refine State.Keeps.snd (by with_reducible assumption) ?_ | extract_lets
    | split

theorem State.famineEvict_keeps {z s : State} (h : z.Keeps s) (fuel : Nat) (p : Nat) :
    z.Keeps (State.famineEvict fuel s p) := by
  induction fuel generalizing s with
  | zero => exact h
  | succ n ih =>
    unfold State.famineEvict
    split
    · exact h
    split
    · exact h
    split
    · exact ih (State.Keeps.snd ‹_› (State.startEvict_keeps h _ _ _))
    · exact h

theorem State.famineTails_keeps {z s : State} (h : z.Keeps s) (fuel : Nat) (p : Nat) :
    z.Keeps (State.famineTails fuel s p) := by
  induction fuel generalizing s with
  | zero => exact h
  | succ n ih =>
    unfold State.famineTails
    split
    · exact h
    split
    · exact h
    · exact ih (State.modPool_keeps (State.endTail_keeps h _ _ _) _ _)

theorem State.famineAct_keeps {z s : State} (h : z.Keeps s) (p : Nat) :
    z.Keeps (State.famineAct s p) := by
  unfold State.famineAct
  repeat' first
    | with_reducible assumption | with_reducible apply State.famineEvict_keeps | with_reducible apply State.famineTails_keeps | split

theorem State.hideSlots_keeps {z s : State} (h : z.Keeps s) (p va fill : Nat) :
    z.Keeps (State.hideSlots s p va fill) := by
  unfold State.hideSlots
  exact State.vaWrite_keeps (State.Keeps.fold (h.ctr (by omega)) (fun _ _ h => State.vaWrite_keeps h _ _ _)) _ _ _

theorem State.writeTrailer_keeps {z s : State} (h : z.Keeps s) (p g : Nat) :
    z.Keeps (State.writeTrailer s p g) := by
  unfold State.writeTrailer
  repeat' first
    | with_reducible assumption | with_reducible apply State.vaWrite_keeps

theorem State.takeUpPool_keeps {z s : State} (h : z.Keeps s) (p : Nat) :
    z.Keeps (State.takeUpPool s p) := by
  unfold State.takeUpPool
  repeat' first
    | with_reducible assumption | with_reducible apply State.modPool_keeps | with_reducible apply State.setPg_keeps
    | with_reducible apply State.judgeFamine_keeps | with_reducible refine State.Keeps.fold ?_ (fun _ _ _ => ?_) | extract_lets | split

end Sys2Proof.Machine
end

