-- ==== Sys2Proof/Laws/KeepsHw.lean ====
section
/-! SUPPORT. `State.Keeps` for the operations of Machine/Hw.lean. -/

namespace Sys2Proof.Machine

theorem State.unstage_keeps {z s : State} (h : z.Keeps s) (c : Cmd) :
    z.Keeps (State.unstage s c) := by
  unfold State.unstage
  repeat' first
    | with_reducible assumption | with_reducible apply State.modHw_keeps | with_reducible apply State.unwait_keeps

theorem State.modStaged_keeps {z s : State} (h : z.Keeps s) (c : Cmd) (f : Staged → Staged) :
    z.Keeps (State.modStaged s c f) := by
  unfold State.modStaged
  repeat' first
    | with_reducible assumption | with_reducible apply State.modHw_keeps

theorem State.finish_keeps {z s : State} (h : z.Keeps s) (p : Nat) (c : Cmd) (x : Compl) :
    z.Keeps (State.finish s p c x) := by
  unfold State.finish
  repeat' first
    | with_reducible assumption | with_reducible apply State.completeCmd_keeps | with_reducible apply State.unstage_keeps

theorem State.takeOpid_keeps {z s : State} (h : z.Keeps s) :
    z.Keeps (State.takeOpid s).2 := by
  unfold State.takeOpid
  repeat' first
    | with_reducible assumption | with_reducible apply State.modHw_keeps

theorem State.requestClock_keeps {z s : State} (h : z.Keeps s) (n : Nat) :
    z.Keeps (State.requestClock s n) := by
  unfold State.requestClock
  repeat' first
    | with_reducible assumption | with_reducible apply State.modClk_keeps | split

theorem State.startClock_keeps {z s : State} (h : z.Keeps s) (n : Nat) :
    z.Keeps (State.startClock s n) := by
  unfold State.startClock
  repeat' first
    | with_reducible assumption | with_reducible apply State.modClk_keeps | with_reducible apply State.trace_keeps | extract_lets | split

theorem State.stopClock_keeps {z s : State} (h : z.Keeps s) (n : Nat) :
    z.Keeps (State.stopClock s n) := by
  unfold State.stopClock
  repeat' first
    | with_reducible assumption | with_reducible apply State.modClk_keeps | with_reducible apply State.trace_keeps | extract_lets | split

theorem State.grantShares_keeps {z s : State} (h : z.Keeps s) (o : Op) (k : Nat) :
    z.Keeps (State.grantShares s o k) := by
  unfold State.grantShares
  repeat' first
    | with_reducible assumption | with_reducible apply State.modWeir_keeps | with_reducible apply State.setOp_keeps
    | with_reducible apply State.requestClock_keeps | with_reducible refine State.Keeps.fold ?_ (fun _ _ _ => ?_)

theorem State.oxbowAccess_keeps {z s : State} (h : z.Keeps s) (p q : Nat) (write : Bool) :
    z.Keeps (State.oxbowAccess s p q write).2 := by
  unfold State.oxbowAccess
  repeat' first
    | with_reducible assumption | with_reducible apply State.classP_keeps | extract_lets | split

theorem State.recordAccess_keeps {z s : State} (h : z.Keeps s) (p q : Nat) :
    z.Keeps (State.recordAccess s p q).2 := by
  unfold State.recordAccess
  repeat' first
    | with_reducible assumption | with_reducible apply State.light_keeps | with_reducible apply State.oxbowAccess_keeps
    | with_reducible refine State.Keeps.snd (by with_reducible assumption) ?_ | split

theorem State.spill_keeps {z s : State} (h : z.Keeps s) (p q : Nat) :
    z.Keeps (State.spill s p q) := by
  unfold State.spill
  repeat' first
    | with_reducible assumption | with_reducible apply State.lightWrite_keeps | with_reducible apply State.setSeq_keeps

theorem State.obtainSlot_keeps {z s : State} (h : z.Keeps s) (p keep : Nat) :
    z.Keeps (State.obtainSlot s p keep).2 := by
  unfold State.obtainSlot
  repeat' first
    | with_reducible assumption | with_reducible apply State.oxbowAccess_keeps | with_reducible apply State.spill_keeps
    | with_reducible refine State.Keeps.snd (by with_reducible assumption) ?_ | split

theorem State.unspill_keeps {z s : State} (h : z.Keeps s) (p q : Nat) :
    z.Keeps (State.unspill s p q) := by
  unfold State.unspill
  repeat' first
    | with_reducible assumption | with_reducible apply State.modSeq_keeps

theorem State.setBacklog_keeps {z s : State} (h : z.Keeps s) (p : Nat) (l : List Blog) :
    z.Keeps (State.setBacklog s p l) := by
  unfold State.setBacklog
  repeat' first
    | with_reducible assumption | with_reducible apply State.modHw_keeps | with_reducible apply State.lightWrite_keeps
    | with_reducible apply State.classP_keeps | with_reducible refine State.Keeps.fold ?_ (fun _ _ _ => ?_) | extract_lets | split

theorem State.recount_keeps {z s : State} (h : z.Keeps s) (p q : Nat) :
    z.Keeps (State.recount s p q) := by
  unfold State.recount
  repeat' first
    | with_reducible assumption | with_reducible apply State.setSeq_keeps | extract_lets | split

theorem State.recountFor_keeps {z s : State} (h : z.Keeps s) (p : Nat) (c : Cmd) :
    z.Keeps (State.recountFor s p c) := by
  unfold State.recountFor
  repeat' first
    | with_reducible assumption | with_reducible apply State.recount_keeps | extract_lets | split

theorem State.defer_keeps {z s : State} (h : z.Keeps s) (p : Nat) (c : Cmd) :
    z.Keeps (State.defer s p c) := by
  unfold State.defer
  repeat' first
    | with_reducible assumption | with_reducible apply State.modHw_keeps | with_reducible apply State.modStaged_keeps
    | with_reducible apply State.finish_keeps | with_reducible apply State.setBacklog_keeps | with_reducible apply State.recountFor_keeps
    | extract_lets | split

theorem State.servedBy_keeps {z s : State} (h : z.Keeps s) (o : Op) :
    z.Keeps (State.servedBy s o) := by
  unfold State.servedBy
  repeat' first
    | with_reducible assumption | with_reducible apply State.modPair_keeps | with_reducible refine State.Keeps.fold ?_ (fun _ _ _ => ?_)

theorem State.leaveLoans_keeps {z s : State} (h : z.Keeps s) (o : Op) (m : BitVec 32) :
    z.Keeps (State.leaveLoans s o m) := by
  unfold State.leaveLoans
  repeat' first
    | with_reducible assumption | with_reducible apply State.modWeir_keeps | with_reducible apply State.trace_keeps
    | with_reducible apply State.pmOut_keeps | with_reducible refine State.Keeps.fold ?_ (fun _ _ _ => ?_) | extract_lets | split
    | dsimp +zetaDelta only

theorem State.freePairs_keeps {z s : State} (h : z.Keeps s) (o : Op) :
    z.Keeps (State.freePairs s o) := by
  unfold State.freePairs
  repeat' first
    | with_reducible assumption | with_reducible apply State.setPair_keeps | with_reducible apply State.unwait_keeps
    | with_reducible refine State.Keeps.fold ?_ (fun _ _ _ => ?_) | extract_lets | split

theorem State.seqDone_keeps {z s : State} (h : z.Keeps s) (p q : Nat) :
    z.Keeps (State.seqDone s p q) := by
  unfold State.seqDone
  repeat' first
    | with_reducible assumption | with_reducible apply State.setSeq_keeps | extract_lets | split

theorem State.resumeRecord_keeps {z s : State} (h : z.Keeps s) (p : Nat) (w : BitVec 256) (sig : Option Nat) :
    z.Keeps (State.resumeRecord s p w sig) := by
  unfold State.resumeRecord
  repeat' first
    | with_reducible assumption | with_reducible apply State.setPt_keeps | with_reducible apply State.lightWrite_keeps
    | with_reducible apply State.irqPending_keeps | with_reducible apply State.classP_keeps | with_reducible apply State.raise_keeps
    | extract_lets | split

theorem State.retryResume_keeps {z s : State} (h : z.Keeps s) (p : Nat) :
    z.Keeps (State.retryResume s p) := by
  unfold State.retryResume
  repeat' first
    | with_reducible assumption | with_reducible apply State.modPt_keeps | with_reducible apply State.resumeRecord_keeps
    | with_reducible refine State.Keeps.fold ?_ (fun _ _ _ => ?_)

theorem State.releaseNow_keeps {z s : State} (h : z.Keeps s) (p q : Nat) :
    z.Keeps (State.releaseNow s p q) := by
  unfold State.releaseNow
  repeat' first
    | with_reducible assumption | with_reducible apply State.setSeq_keeps | with_reducible apply State.clearFrom_keeps

theorem State.showProgress_keeps {z s : State} (h : z.Keeps s) (p q : Nat) :
    z.Keeps (State.showProgress s p q) := by
  unfold State.showProgress
  repeat' first
    | with_reducible assumption | with_reducible apply State.modSeq_keeps | split

theorem State.dropCopies_keeps {z s : State} (h : z.Keeps s) (o : Op) :
    z.Keeps (State.dropCopies s o) := by
  unfold State.dropCopies
  repeat' first
    | with_reducible assumption | with_reducible apply State.modPg_keeps | with_reducible apply State.dropRef_keeps
    | with_reducible refine State.Keeps.fold ?_ (fun _ _ _ => ?_)

theorem State.freeOp_keeps {z s : State} (h : z.Keeps s) (o : Op) :
    z.Keeps (State.freeOp s o) := by
  unfold State.freeOp
  repeat' first
    | with_reducible assumption | with_reducible apply State.modPt_keeps | with_reducible apply State.dropOp_keeps
    | with_reducible apply State.unpin_keeps | with_reducible apply State.leaveLoans_keeps | with_reducible apply State.freePairs_keeps
    | with_reducible apply State.seqDone_keeps | with_reducible apply State.showProgress_keeps | with_reducible apply State.dropCopies_keeps
    | with_reducible refine State.Keeps.fold ?_ (fun _ _ _ => ?_) | extract_lets | split | dsimp +zetaDelta only

theorem State.endOp_keeps {z s : State} (h : z.Keeps s) (opid : W32) (status detail : Nat) (result : BitVec 96) :
    z.Keeps (State.endOp s opid status detail result) := by
  unfold State.endOp
  repeat' first
    | with_reducible assumption | with_reducible apply State.trace_keeps | with_reducible apply State.countL_keeps
    | with_reducible apply State.completeUnder_keeps | with_reducible apply State.servedBy_keeps
    | with_reducible apply State.resumeRecord_keeps | with_reducible apply State.freeOp_keeps | extract_lets | split | dsimp +zetaDelta only

theorem State.haltOp_keeps {z s : State} (h : z.Keeps s) (opid : W32) (va : Nat) :
    z.Keeps (State.haltOp s opid va) := by
  unfold State.haltOp
  repeat' first
    | with_reducible assumption | with_reducible apply State.modPair_keeps | with_reducible apply State.setOp_keeps
    | with_reducible apply State.completeUnder_keeps | with_reducible apply State.leaveLoans_keeps
    | with_reducible refine State.Keeps.fold ?_ (fun _ _ _ => ?_) | extract_lets | split

theorem State.kill_keeps {z s : State} (h : z.Keeps s) (p q va : Nat) :
    z.Keeps (State.kill s p q va) := by
  unfold State.kill
  repeat' first
    | with_reducible assumption | with_reducible apply State.modSeq_keeps | with_reducible apply State.finish_keeps
    | with_reducible apply State.endOp_keeps | with_reducible refine State.Keeps.fold ?_ (fun _ _ _ => ?_) | extract_lets | split

theorem State.translate_keeps {z s : State} (h : z.Keeps s) (p : Nat) (c : Cmd) :
    z.Keeps (State.translate s p c).2 := by
  unfold State.translate
  repeat' first
    | with_reducible assumption | with_reducible apply State.touchOpd_keeps | with_reducible refine State.Keeps.fold ?_ (fun _ _ _ => ?_)
    | extract_lets | split

theorem State.queueMiss_keeps {z s : State} (h : z.Keeps s) (p : Nat) (m : Miss) :
    z.Keeps (State.queueMiss s p m) := by
  unfold State.queueMiss
  repeat' first
    | with_reducible assumption | with_reducible apply State.modTr_keeps | extract_lets | split

theorem State.walkRead_keeps {z s : State} (h : z.Keeps s) (space page k : Nat) :
    z.Keeps (State.walkRead s space page k) := by
  unfold State.walkRead
  repeat' first
    | with_reducible assumption | with_reducible apply State.modHw_keeps | with_reducible apply State.tagLight_keeps
    | with_reducible apply State.light_keeps | split

theorem State.startWalks_keeps {z s : State} (h : z.Keeps s) (fuel : Nat) :
    z.Keeps (State.startWalks fuel s) := by
  induction fuel generalizing s with
  | zero => exact h
  | succ m ih =>
    unfold State.startWalks
    split
    · exact ih (State.walkRead_keeps (State.modTr_keeps h _) _ _ _)
    · exact h

theorem State.awaitWalk_keeps {z s : State} (h : z.Keeps s) (p : Nat) (c : Cmd) (va : Nat) :
    z.Keeps (State.awaitWalk s p c va) := by
  unfold State.awaitWalk
  repeat' first
    | with_reducible assumption | with_reducible apply State.modStaged_keeps | with_reducible apply State.queueMiss_keeps
    | with_reducible apply State.startWalks_keeps | extract_lets | split

theorem State.countIn_keeps {z s : State} (h : z.Keeps s) (o : Op) :
    z.Keeps (State.countIn s o) := by
  unfold State.countIn
  repeat' first
    | with_reducible assumption | with_reducible apply State.modSeq_keeps

theorem State.startOpAt_keeps {z s : State} (h : z.Keeps s) (o : Op) (fc : BitVec 48) (tick : W64) :
    z.Keeps (State.startOpAt s o fc tick) := by
  unfold State.startOpAt
  repeat' first
    | with_reducible assumption | with_reducible apply State.modHw_keeps | with_reducible apply State.modWeir_keeps
    | with_reducible apply State.traceAt_keeps | with_reducible apply State.countIn_keeps | extract_lets | split

theorem State.startOp_keeps {z s : State} (h : z.Keeps s) (o : Op) :
    z.Keeps (State.startOp s o) := by
  unfold State.startOp
  repeat' first
    | with_reducible assumption | with_reducible apply State.startOpAt_keeps

theorem State.haltCmd_keeps {z s : State} (h : z.Keeps s) (p : Nat) (c : Cmd) (va : Nat) :
    z.Keeps (State.haltCmd s p c va) := by
  unfold State.haltCmd
  repeat' first
    | with_reducible assumption | with_reducible apply State.unstage_keeps | with_reducible apply State.modStaged_keeps
    | with_reducible apply State.takeOpid_keeps | with_reducible apply State.haltOp_keeps | with_reducible apply State.startOp_keeps
    | with_reducible refine State.Keeps.snd (by with_reducible assumption) ?_ | extract_lets | split

theorem State.killCmd_keeps {z s : State} (h : z.Keeps s) (p : Nat) (c : Cmd) (va : Nat) :
    z.Keeps (State.killCmd s p c va) := by
  unfold State.killCmd
  repeat' first
    | with_reducible assumption | with_reducible apply State.finish_keeps | with_reducible apply State.kill_keeps | extract_lets | split

theorem State.residency_keeps {z s : State} (h : z.Keeps s) (p : Nat) (c : Cmd) :
    z.Keeps (State.residency s p c).2 := by
  unfold State.residency
  repeat' first
    | with_reducible assumption | with_reducible apply State.recordAccess_keeps | with_reducible apply State.obtainSlot_keeps
    | with_reducible apply State.unspill_keeps | with_reducible refine State.Keeps.snd (by with_reducible assumption) ?_ | extract_lets
    | split

theorem State.killFaulting_keeps {z s : State} (h : z.Keeps s) (p : Nat) (c : Cmd) (va : Nat) :
    z.Keeps (State.killFaulting s p c va) := by
  unfold State.killFaulting
  repeat' first
    | with_reducible assumption | with_reducible apply State.defer_keeps | with_reducible apply State.killCmd_keeps
    | with_reducible apply State.residency_keeps | with_reducible refine State.Keeps.snd (by with_reducible assumption) ?_ | split

theorem State.frontEnd_keeps {z s : State} (h : z.Keeps s) (p : Nat) (c : Cmd) :
    z.Keeps (State.frontEnd s p c) := by
  unfold State.frontEnd
  repeat' first
    | with_reducible assumption | with_reducible apply State.modStaged_keeps | with_reducible apply State.finish_keeps
    | with_reducible apply State.defer_keeps | with_reducible apply State.translate_keeps | with_reducible apply State.awaitWalk_keeps
    | with_reducible apply State.haltCmd_keeps | with_reducible apply State.residency_keeps | with_reducible apply State.killFaulting_keeps
    | with_reducible refine State.Keeps.snd (by with_reducible assumption) ?_ | split

theorem State.stage_keeps {z s : State} (h : z.Keeps s) (p : Nat) (c : Cmd) :
    z.Keeps (State.stage s p c) := by
  unfold State.stage
  repeat' first
    | with_reducible assumption | with_reducible apply State.modHw_keeps | with_reducible apply State.frontEnd_keeps

theorem State.present_keeps {z s : State} (h : z.Keeps s) (c : Cmd) :
    z.Keeps (State.present s c) := by
  unfold State.present
  repeat' first
    | with_reducible assumption | with_reducible apply State.setRing_keeps | with_reducible apply State.stage_keeps | extract_lets | split

theorem State.upToWeir_keeps {z s : State} (h : z.Keeps s) (x : Staged) :
    z.Keeps (State.upToWeir s x).2 := by
  unfold State.upToWeir
  repeat' first
    | with_reducible assumption | with_reducible apply State.await_keeps | with_reducible apply State.modStaged_keeps
    | with_reducible refine State.Keeps.snd (by with_reducible assumption) ?_ | extract_lets | split

theorem State.admissible_keeps {z s : State} (h : z.Keeps s) (x : Staged) :
    z.Keeps (State.admissible s x).2 := by
  unfold State.admissible
  repeat' first
    | with_reducible assumption | with_reducible apply State.stage_keeps | with_reducible apply State.upToWeir_keeps
    | with_reducible refine State.Keeps.snd (by with_reducible assumption) ?_ | extract_lets | split

theorem State.ringRow_keeps {z s : State} (h : z.Keeps s) (op : Nat) (c : Cmd) (effect : State → Nat → Cmd → State) (he : ∀ t p c, z.Keeps t → z.Keeps (effect t p c)) :
    z.Keeps (State.ringRow s op c effect) := by
  unfold State.ringRow
  repeat' first
    | with_reducible assumption | with_reducible apply he | with_reducible apply State.finish_keeps | with_reducible apply State.present_keeps
    | with_reducible apply State.admissible_keeps | with_reducible apply State.residency_keeps | with_reducible apply State.defer_keeps
    | with_reducible refine State.Keeps.snd (by with_reducible assumption) ?_ | extract_lets | split

theorem State.touchSeq_keeps {z s : State} (h : z.Keeps s) (p q : Nat) (opid : W32) (ring : Nat) :
    z.Keeps (State.touchSeq s p q opid ring) := by
  unfold State.touchSeq
  repeat' first
    | with_reducible assumption | with_reducible apply State.modSeq_keeps | split

theorem State.finishNow_keeps {z s : State} (h : z.Keeps s) (p : Nat) (c : Cmd) (epoch : W16) (x : Compl) :
    z.Keeps (State.finishNow s p c epoch x) := by
  unfold State.finishNow
  repeat' first
    | with_reducible assumption | with_reducible apply State.finish_keeps | with_reducible apply State.takeOpid_keeps
    | with_reducible apply State.touchSeq_keeps

end Sys2Proof.Machine
end

