-- ==== Sys2Proof/Laws/KeepsIssue.lean ====
section
/-! SUPPORT. `State.Keeps` for the operations of Machine/Issue.lean. -/

namespace Sys2Proof.Machine

/-- Every state that an issue outcome carries keeps what must be kept. -/
def Lz.Keeps (z : State) : Lz → Prop
  | .done s => z.Keeps s
  | .jump s _ => z.Keeps s
  | .exc _ => True
  | .wait s => z.Keeps s

theorem Lz.Keeps.done {z s : State} (h : z.Keeps s) : Lz.Keeps z (.done s) := h

theorem Lz.Keeps.jump {z s : State} (h : z.Keeps s) (pc : BitVec 14) : Lz.Keeps z (.jump s pc) := h

theorem Lz.Keeps.exc (z : State) (c : Nat) : Lz.Keeps z (.exc c) := trivial

theorem Lz.Keeps.wait {z s : State} (h : z.Keeps s) : Lz.Keeps z (.wait s) := h

theorem Lz.Keeps.ofDone {z s : State} {x : Lz} (e : x = .done s) (h : Lz.Keeps z x) : z.Keeps s := by subst e; exact h

theorem Lz.Keeps.ofJump {z s : State} {x : Lz} {pc : BitVec 14} (e : x = .jump s pc) (h : Lz.Keeps z x) : z.Keeps s := by subst e; exact h

theorem Lz.Keeps.ofWait {z s : State} {x : Lz} (e : x = .wait s) (h : Lz.Keeps z x) : z.Keeps s := by subst e; exact h

theorem State.progCheck_keeps {z s : State} (h : z.Keeps s) (opid : W32) :
    z.Keeps (State.progCheck s opid) := by
  unfold State.progCheck
  repeat' first
    | with_reducible assumption | with_reducible apply State.endOp_keeps | split

theorem State.stopOp_keeps {z s : State} (h : z.Keeps s) (opid : W32) (status detail : Nat) (result : BitVec 96) :
    z.Keeps (State.stopOp s opid status detail result) := by
  unfold State.stopOp
  repeat' first
    | with_reducible assumption | with_reducible apply State.setOp_keeps | with_reducible apply State.progCheck_keeps | split

theorem State.markExc_keeps {z s : State} (h : z.Keeps s) (sp code pc : Nat) :
    z.Keeps (State.markExc s sp code pc) := by
  unfold State.markExc
  repeat' first
    | with_reducible assumption | with_reducible apply State.setPair_keeps | with_reducible apply State.note_keeps | extract_lets | split

theorem State.raiseExc_keeps {z s : State} (h : z.Keeps s) (sp code : Nat) :
    z.Keeps (State.raiseExc s sp code) := by
  unfold State.raiseExc
  repeat' first
    | with_reducible assumption | with_reducible apply State.countL_keeps | with_reducible apply State.stopOp_keeps
    | with_reducible apply State.markExc_keeps | extract_lets | split

theorem State.issue_keeps {z s : State} (h : z.Keeps s) (i : Issue) (f : State → Nat → Pair → Lz) (hf : ∀ t n x, z.Keeps t → Lz.Keeps z (f t n x)) :
    z.Keeps (State.issue s i f) := by
  unfold State.issue
  extract_lets sp x
  split
  · exact h
  split
  · exact State.setPair_keeps h _ _
  have k := hf s sp x h
  split
  · next e => rw [e] at k; exact State.modPair_keeps k _ _
  · next e => rw [e] at k; exact State.modPair_keeps k _ _
  · exact State.raiseExc_keeps h _ _
  · next e => rw [e] at k; exact k

theorem State.alu_keeps {z s : State} (h : z.Keeps s) (i : Issue) (d a : Fin 64) (b : SrcB) (f : W64 → W64 → W64) :
    z.Keeps (State.alu s i d a b f) := by
  unfold State.alu
  repeat' first
    | with_reducible assumption | with_reducible apply State.setPair_keeps | with_reducible apply State.issue_keeps
    | with_reducible apply Lz.Keeps.done | with_reducible apply Lz.Keeps.jump | with_reducible apply Lz.Keeps.exc
    | with_reducible apply Lz.Keeps.wait | intro _ _ _ _

theorem State.compare_keeps {z s : State} (h : z.Keeps s) (i : Issue) (pd : Fin 16) (a : Fin 64) (b : SrcB) (f : W64 → W64 → Bool) :
    z.Keeps (State.compare s i pd a b f) := by
  unfold State.compare
  repeat' first
    | with_reducible assumption | with_reducible apply State.setPair_keeps | with_reducible apply State.issue_keeps
    | with_reducible apply Lz.Keeps.done | with_reducible apply Lz.Keeps.jump | with_reducible apply Lz.Keeps.exc
    | with_reducible apply Lz.Keeps.wait | intro _ _ _ _

theorem State.predOp_keeps {z s : State} (h : z.Keeps s) (i : Issue) (pd a b : Fin 16) (f : Bool → Bool → Bool) :
    z.Keeps (State.predOp s i pd a b f) := by
  unfold State.predOp
  repeat' first
    | with_reducible assumption | with_reducible apply State.setPair_keeps | with_reducible apply State.issue_keeps
    | with_reducible apply Lz.Keeps.done | with_reducible apply Lz.Keeps.jump | with_reducible apply Lz.Keeps.exc
    | with_reducible apply Lz.Keeps.wait | intro _ _ _ _

theorem State.load_keeps {z s : State} (h : z.Keeps s) (i : Issue) (d a : Fin 64) (imm : W32) (n : Nat) (signed : Bool) :
    z.Keeps (State.load s i d a imm n signed) := by
  unfold State.load
  repeat' first
    | with_reducible assumption | with_reducible apply State.setPair_keeps | with_reducible apply State.issue_keeps
    | with_reducible apply Lz.Keeps.done | with_reducible apply Lz.Keeps.jump | with_reducible apply Lz.Keeps.exc
    | with_reducible apply Lz.Keeps.wait | intro _ _ _ _ | intro _ _ _ | intro _ _ | split

theorem State.store_keeps {z s : State} (h : z.Keeps s) (i : Issue) (d a : Fin 64) (imm : W32) (n : Nat) :
    z.Keeps (State.store s i d a imm n) := by
  unfold State.store
  repeat' first
    | with_reducible assumption | with_reducible apply State.setPair_keeps | with_reducible apply State.issue_keeps
    | with_reducible apply Lz.Keeps.done | with_reducible apply Lz.Keeps.jump | with_reducible apply Lz.Keeps.exc
    | with_reducible apply Lz.Keeps.wait | intro _ _ _ _ | intro _ _ _ | intro _ _ | split

theorem Pair.target_keeps {z s : State} (h : z.Keeps s) (x : Pair) (tgt : BitVec 14) :
    Lz.Keeps z (Pair.target x s tgt) := by
  unfold Pair.target
  repeat' first
    | with_reducible assumption | with_reducible apply Lz.Keeps.done | with_reducible apply Lz.Keeps.jump | with_reducible apply Lz.Keeps.exc
    | with_reducible apply Lz.Keeps.wait | split

end Sys2Proof.Machine
end

