-- ==== Sys2Proof/Laws/KeepsLefiza.lean ====
section
/-! SUPPORT. `State.Keeps` for the operations of Machine/Lefiza.lean. -/

namespace Sys2Proof.Machine

theorem execAdd_keeps {z s : State} (h : z.Keeps s) (i : Issue) (d a : Fin 64) (b : SrcB) :
    Res.Keeps z (execAdd i d a b s) := by
  unfold execAdd
  repeat' first
    | with_reducible assumption | with_reducible apply State.alu_keeps | with_reducible apply Res.Keeps.next

theorem execSub_keeps {z s : State} (h : z.Keeps s) (i : Issue) (d a : Fin 64) (b : SrcB) :
    Res.Keeps z (execSub i d a b s) := by
  unfold execSub
  repeat' first
    | with_reducible assumption | with_reducible apply State.alu_keeps | with_reducible apply Res.Keeps.next

theorem execMul_keeps {z s : State} (h : z.Keeps s) (i : Issue) (d a : Fin 64) (b : SrcB) :
    Res.Keeps z (execMul i d a b s) := by
  unfold execMul
  repeat' first
    | with_reducible assumption | with_reducible apply State.alu_keeps | with_reducible apply Res.Keeps.next

theorem execMulhu_keeps {z s : State} (h : z.Keeps s) (i : Issue) (d a : Fin 64) (b : SrcB) :
    Res.Keeps z (execMulhu i d a b s) := by
  unfold execMulhu
  repeat' first
    | with_reducible assumption | with_reducible apply State.alu_keeps | with_reducible apply Res.Keeps.next

theorem execDivu_keeps {z s : State} (h : z.Keeps s) (i : Issue) (d a : Fin 64) (b : SrcB) :
    Res.Keeps z (execDivu i d a b s) := by
  unfold execDivu
  repeat' first
    | with_reducible assumption | with_reducible apply State.alu_keeps | with_reducible apply Res.Keeps.next

theorem execRemu_keeps {z s : State} (h : z.Keeps s) (i : Issue) (d a : Fin 64) (b : SrcB) :
    Res.Keeps z (execRemu i d a b s) := by
  unfold execRemu
  repeat' first
    | with_reducible assumption | with_reducible apply State.alu_keeps | with_reducible apply Res.Keeps.next

theorem execAnd_keeps {z s : State} (h : z.Keeps s) (i : Issue) (d a : Fin 64) (b : SrcB) :
    Res.Keeps z (execAnd i d a b s) := by
  unfold execAnd
  repeat' first
    | with_reducible assumption | with_reducible apply State.alu_keeps | with_reducible apply Res.Keeps.next

theorem execOr_keeps {z s : State} (h : z.Keeps s) (i : Issue) (d a : Fin 64) (b : SrcB) :
    Res.Keeps z (execOr i d a b s) := by
  unfold execOr
  repeat' first
    | with_reducible assumption | with_reducible apply State.alu_keeps | with_reducible apply Res.Keeps.next

theorem execXor_keeps {z s : State} (h : z.Keeps s) (i : Issue) (d a : Fin 64) (b : SrcB) :
    Res.Keeps z (execXor i d a b s) := by
  unfold execXor
  repeat' first
    | with_reducible assumption | with_reducible apply State.alu_keeps | with_reducible apply Res.Keeps.next

theorem execShl_keeps {z s : State} (h : z.Keeps s) (i : Issue) (d a : Fin 64) (b : SrcB) :
    Res.Keeps z (execShl i d a b s) := by
  unfold execShl
  repeat' first
    | with_reducible assumption | with_reducible apply State.alu_keeps | with_reducible apply Res.Keeps.next

theorem execShr_keeps {z s : State} (h : z.Keeps s) (i : Issue) (d a : Fin 64) (b : SrcB) :
    Res.Keeps z (execShr i d a b s) := by
  unfold execShr
  repeat' first
    | with_reducible assumption | with_reducible apply State.alu_keeps | with_reducible apply Res.Keeps.next

theorem execSar_keeps {z s : State} (h : z.Keeps s) (i : Issue) (d a : Fin 64) (b : SrcB) :
    Res.Keeps z (execSar i d a b s) := by
  unfold execSar
  repeat' first
    | with_reducible assumption | with_reducible apply State.alu_keeps | with_reducible apply Res.Keeps.next

theorem execMin_keeps {z s : State} (h : z.Keeps s) (i : Issue) (d a : Fin 64) (b : SrcB) :
    Res.Keeps z (execMin i d a b s) := by
  unfold execMin
  repeat' first
    | with_reducible assumption | with_reducible apply State.alu_keeps | with_reducible apply Res.Keeps.next

theorem execMax_keeps {z s : State} (h : z.Keeps s) (i : Issue) (d a : Fin 64) (b : SrcB) :
    Res.Keeps z (execMax i d a b s) := by
  unfold execMax
  repeat' first
    | with_reducible assumption | with_reducible apply State.alu_keeps | with_reducible apply Res.Keeps.next

theorem execMinu_keeps {z s : State} (h : z.Keeps s) (i : Issue) (d a : Fin 64) (b : SrcB) :
    Res.Keeps z (execMinu i d a b s) := by
  unfold execMinu
  repeat' first
    | with_reducible assumption | with_reducible apply State.alu_keeps | with_reducible apply Res.Keeps.next

theorem execMaxu_keeps {z s : State} (h : z.Keeps s) (i : Issue) (d a : Fin 64) (b : SrcB) :
    Res.Keeps z (execMaxu i d a b s) := by
  unfold execMaxu
  repeat' first
    | with_reducible assumption | with_reducible apply State.alu_keeps | with_reducible apply Res.Keeps.next

theorem execClz_keeps {z s : State} (h : z.Keeps s) (i : Issue) (d a : Fin 64) (b : SrcB) :
    Res.Keeps z (execClz i d a b s) := by
  unfold execClz
  repeat' first
    | with_reducible assumption | with_reducible apply State.alu_keeps | with_reducible apply Res.Keeps.next

theorem execPopc_keeps {z s : State} (h : z.Keeps s) (i : Issue) (d a : Fin 64) (b : SrcB) :
    Res.Keeps z (execPopc i d a b s) := by
  unfold execPopc
  repeat' first
    | with_reducible assumption | with_reducible apply State.alu_keeps | with_reducible apply Res.Keeps.next

theorem execMovi_keeps {z s : State} (h : z.Keeps s) (i : Issue) (d : Fin 64) (imm : W32) :
    Res.Keeps z (execMovi i d imm s) := by
  unfold execMovi
  repeat' first
    | with_reducible assumption | with_reducible apply State.alu_keeps | with_reducible apply Res.Keeps.next

theorem execMovhi_keeps {z s : State} (h : z.Keeps s) (i : Issue) (d : Fin 64) (imm : W32) :
    Res.Keeps z (execMovhi i d imm s) := by
  unfold execMovhi
  repeat' first
    | with_reducible assumption | with_reducible apply State.alu_keeps | with_reducible apply Res.Keeps.next

theorem execEq_keeps {z s : State} (h : z.Keeps s) (i : Issue) (pd : Fin 16) (a : Fin 64) (b : SrcB) :
    Res.Keeps z (execEq i pd a b s) := by
  unfold execEq
  repeat' first
    | with_reducible assumption | with_reducible apply State.compare_keeps | with_reducible apply Res.Keeps.next

theorem execNe_keeps {z s : State} (h : z.Keeps s) (i : Issue) (pd : Fin 16) (a : Fin 64) (b : SrcB) :
    Res.Keeps z (execNe i pd a b s) := by
  unfold execNe
  repeat' first
    | with_reducible assumption | with_reducible apply State.compare_keeps | with_reducible apply Res.Keeps.next

theorem execLt_keeps {z s : State} (h : z.Keeps s) (i : Issue) (pd : Fin 16) (a : Fin 64) (b : SrcB) :
    Res.Keeps z (execLt i pd a b s) := by
  unfold execLt
  repeat' first
    | with_reducible assumption | with_reducible apply State.compare_keeps | with_reducible apply Res.Keeps.next

theorem execLe_keeps {z s : State} (h : z.Keeps s) (i : Issue) (pd : Fin 16) (a : Fin 64) (b : SrcB) :
    Res.Keeps z (execLe i pd a b s) := by
  unfold execLe
  repeat' first
    | with_reducible assumption | with_reducible apply State.compare_keeps | with_reducible apply Res.Keeps.next

theorem execLtu_keeps {z s : State} (h : z.Keeps s) (i : Issue) (pd : Fin 16) (a : Fin 64) (b : SrcB) :
    Res.Keeps z (execLtu i pd a b s) := by
  unfold execLtu
  repeat' first
    | with_reducible assumption | with_reducible apply State.compare_keeps | with_reducible apply Res.Keeps.next

theorem execLeu_keeps {z s : State} (h : z.Keeps s) (i : Issue) (pd : Fin 16) (a : Fin 64) (b : SrcB) :
    Res.Keeps z (execLeu i pd a b s) := by
  unfold execLeu
  repeat' first
    | with_reducible assumption | with_reducible apply State.compare_keeps | with_reducible apply Res.Keeps.next

theorem execPand_keeps {z s : State} (h : z.Keeps s) (i : Issue) (pd : Fin 16) (a b : Fin 16) :
    Res.Keeps z (execPand i pd a b s) := by
  unfold execPand
  repeat' first
    | with_reducible assumption | with_reducible apply State.predOp_keeps | with_reducible apply Res.Keeps.next

theorem execPor_keeps {z s : State} (h : z.Keeps s) (i : Issue) (pd : Fin 16) (a b : Fin 16) :
    Res.Keeps z (execPor i pd a b s) := by
  unfold execPor
  repeat' first
    | with_reducible assumption | with_reducible apply State.predOp_keeps | with_reducible apply Res.Keeps.next

theorem execPxor_keeps {z s : State} (h : z.Keeps s) (i : Issue) (pd : Fin 16) (a b : Fin 16) :
    Res.Keeps z (execPxor i pd a b s) := by
  unfold execPxor
  repeat' first
    | with_reducible assumption | with_reducible apply State.predOp_keeps | with_reducible apply Res.Keeps.next

theorem execPfromg_keeps {z s : State} (h : z.Keeps s) (i : Issue) (pd : Fin 16) (a : Fin 64) :
    Res.Keeps z (execPfromg i pd a s) := by
  unfold execPfromg
  repeat' first
    | with_reducible assumption | with_reducible apply State.setPair_keeps | with_reducible apply State.issue_keeps
    | with_reducible apply Res.Keeps.next | with_reducible apply Lz.Keeps.done | with_reducible apply Lz.Keeps.jump
    | with_reducible apply Lz.Keeps.exc | with_reducible apply Lz.Keeps.wait | intro _ _ _ _

theorem execPtog_keeps {z s : State} (h : z.Keeps s) (i : Issue) (b : Fin 64) (a : Fin 16) :
    Res.Keeps z (execPtog i b a s) := by
  unfold execPtog
  repeat' first
    | with_reducible assumption | with_reducible apply State.setPair_keeps | with_reducible apply State.issue_keeps
    | with_reducible apply Res.Keeps.next | with_reducible apply Lz.Keeps.done | with_reducible apply Lz.Keeps.jump
    | with_reducible apply Lz.Keeps.exc | with_reducible apply Lz.Keeps.wait | intro _ _ _ _

theorem execLd8_keeps {z s : State} (h : z.Keeps s) (i : Issue) (d a : Fin 64) (imm : W32) :
    Res.Keeps z (execLd8 i d a imm s) := by
  unfold execLd8
  repeat' first
    | with_reducible assumption | with_reducible apply State.load_keeps | with_reducible apply Res.Keeps.next

theorem execLd16_keeps {z s : State} (h : z.Keeps s) (i : Issue) (d a : Fin 64) (imm : W32) :
    Res.Keeps z (execLd16 i d a imm s) := by
  unfold execLd16
  repeat' first
    | with_reducible assumption | with_reducible apply State.load_keeps | with_reducible apply Res.Keeps.next

theorem execLd32_keeps {z s : State} (h : z.Keeps s) (i : Issue) (d a : Fin 64) (imm : W32) :
    Res.Keeps z (execLd32 i d a imm s) := by
  unfold execLd32
  repeat' first
    | with_reducible assumption | with_reducible apply State.load_keeps | with_reducible apply Res.Keeps.next

theorem execLd64_keeps {z s : State} (h : z.Keeps s) (i : Issue) (d a : Fin 64) (imm : W32) :
    Res.Keeps z (execLd64 i d a imm s) := by
  unfold execLd64
  repeat' first
    | with_reducible assumption | with_reducible apply State.load_keeps | with_reducible apply Res.Keeps.next

theorem execLds8_keeps {z s : State} (h : z.Keeps s) (i : Issue) (d a : Fin 64) (imm : W32) :
    Res.Keeps z (execLds8 i d a imm s) := by
  unfold execLds8
  repeat' first
    | with_reducible assumption | with_reducible apply State.load_keeps | with_reducible apply Res.Keeps.next

theorem execLds16_keeps {z s : State} (h : z.Keeps s) (i : Issue) (d a : Fin 64) (imm : W32) :
    Res.Keeps z (execLds16 i d a imm s) := by
  unfold execLds16
  repeat' first
    | with_reducible assumption | with_reducible apply State.load_keeps | with_reducible apply Res.Keeps.next

theorem execLds32_keeps {z s : State} (h : z.Keeps s) (i : Issue) (d a : Fin 64) (imm : W32) :
    Res.Keeps z (execLds32 i d a imm s) := by
  unfold execLds32
  repeat' first
    | with_reducible assumption | with_reducible apply State.load_keeps | with_reducible apply Res.Keeps.next

theorem execSt8_keeps {z s : State} (h : z.Keeps s) (i : Issue) (d a : Fin 64) (imm : W32) :
    Res.Keeps z (execSt8 i d a imm s) := by
  unfold execSt8
  repeat' first
    | with_reducible assumption | with_reducible apply State.store_keeps | with_reducible apply Res.Keeps.next

theorem execSt16_keeps {z s : State} (h : z.Keeps s) (i : Issue) (d a : Fin 64) (imm : W32) :
    Res.Keeps z (execSt16 i d a imm s) := by
  unfold execSt16
  repeat' first
    | with_reducible assumption | with_reducible apply State.store_keeps | with_reducible apply Res.Keeps.next

theorem execSt32_keeps {z s : State} (h : z.Keeps s) (i : Issue) (d a : Fin 64) (imm : W32) :
    Res.Keeps z (execSt32 i d a imm s) := by
  unfold execSt32
  repeat' first
    | with_reducible assumption | with_reducible apply State.store_keeps | with_reducible apply Res.Keeps.next

theorem execSt64_keeps {z s : State} (h : z.Keeps s) (i : Issue) (d a : Fin 64) (imm : W32) :
    Res.Keeps z (execSt64 i d a imm s) := by
  unfold execSt64
  repeat' first
    | with_reducible assumption | with_reducible apply State.store_keeps | with_reducible apply Res.Keeps.next

theorem execB_keeps {z s : State} (h : z.Keeps s) (i : Issue) (tgt : BitVec 14) :
    Res.Keeps z (execB i tgt s) := by
  unfold execB
  repeat' first
    | with_reducible assumption | with_reducible apply Pair.target_keeps | with_reducible apply State.issue_keeps
    | with_reducible apply Res.Keeps.next | with_reducible apply State.Keeps.with | with_reducible apply Lz.Keeps.done
    | with_reducible apply Lz.Keeps.jump | with_reducible apply Lz.Keeps.exc | with_reducible apply Lz.Keeps.wait
    | with_reducible refine Lz.Keeps.ofDone (by with_reducible assumption) ?_
    | with_reducible refine Lz.Keeps.ofJump (by with_reducible assumption) ?_
    | with_reducible refine Lz.Keeps.ofWait (by with_reducible assumption) ?_ | intro _ _ _ _

theorem execBl_keeps {z s : State} (h : z.Keeps s) (i : Issue) (d : Fin 64) (tgt : BitVec 14) :
    Res.Keeps z (execBl i d tgt s) := by
  unfold execBl
  repeat' first
    | with_reducible assumption | with_reducible apply Pair.target_keeps | with_reducible apply State.setPair_keeps
    | with_reducible apply State.issue_keeps | with_reducible apply Res.Keeps.next | with_reducible apply Lz.Keeps.done
    | with_reducible apply Lz.Keeps.jump | with_reducible apply Lz.Keeps.exc | with_reducible apply Lz.Keeps.wait
    | with_reducible refine Lz.Keeps.ofDone (by with_reducible assumption) ?_
    | with_reducible refine Lz.Keeps.ofJump (by with_reducible assumption) ?_
    | with_reducible refine Lz.Keeps.ofWait (by with_reducible assumption) ?_ | intro _ _ _ _

theorem execBi_keeps {z s : State} (h : z.Keeps s) (i : Issue) (a : Fin 64) :
    Res.Keeps z (execBi i a s) := by
  unfold execBi
  repeat' first
    | with_reducible assumption | with_reducible apply Pair.target_keeps | with_reducible apply State.issue_keeps
    | with_reducible apply Res.Keeps.next | with_reducible apply Lz.Keeps.done | with_reducible apply Lz.Keeps.jump
    | with_reducible apply Lz.Keeps.exc | with_reducible apply Lz.Keeps.wait
    | with_reducible refine Lz.Keeps.ofDone (by with_reducible assumption) ?_
    | with_reducible refine Lz.Keeps.ofJump (by with_reducible assumption) ?_
    | with_reducible refine Lz.Keeps.ofWait (by with_reducible assumption) ?_ | intro _ _ _ _

theorem State.loadD_keeps {z s : State} (h : z.Keeps s) (i : Issue) (dd : Fin 32) (a : Fin 64) (imm : W32) (kind : BitVec 2) :
    z.Keeps (State.loadD s i dd a imm kind) := by
  unfold State.loadD
  repeat' first
    | with_reducible assumption | with_reducible apply State.setPair_keeps | with_reducible apply State.issue_keeps
    | with_reducible apply Lz.Keeps.done | with_reducible apply Lz.Keeps.jump | with_reducible apply Lz.Keeps.exc
    | with_reducible apply Lz.Keeps.wait | intro _ _ _ _ | intro _ _ _ | intro _ _ | split

theorem execDldt_keeps {z s : State} (h : z.Keeps s) (i : Issue) (dd : Fin 32) (a : Fin 64) (imm : W32) :
    Res.Keeps z (execDldt i dd a imm s) := by
  unfold execDldt
  repeat' first
    | with_reducible assumption | with_reducible apply State.loadD_keeps | with_reducible apply Res.Keeps.next

theorem execDlds_keeps {z s : State} (h : z.Keeps s) (i : Issue) (dd : Fin 32) (a : Fin 64) (imm : W32) :
    Res.Keeps z (execDlds i dd a imm s) := by
  unfold execDlds
  repeat' first
    | with_reducible assumption | with_reducible apply State.loadD_keeps | with_reducible apply Res.Keeps.next

theorem execDldl_keeps {z s : State} (h : z.Keeps s) (i : Issue) (dd : Fin 32) (a : Fin 64) :
    Res.Keeps z (execDldl i dd a s) := by
  unfold execDldl
  repeat' first
    | with_reducible assumption | with_reducible apply State.setPair_keeps | with_reducible apply State.draw_keeps
    | with_reducible apply State.issue_keeps | with_reducible refine State.Keeps.snd (by with_reducible assumption) ?_
    | with_reducible apply Res.Keeps.next | with_reducible apply Lz.Keeps.done | with_reducible apply Lz.Keeps.jump
    | with_reducible apply Lz.Keeps.exc | with_reducible apply Lz.Keeps.wait | intro _ _ _ _

theorem execDst_keeps {z s : State} (h : z.Keeps s) (i : Issue) (dd : Fin 32) (a : Fin 64) (imm : W32) :
    Res.Keeps z (execDst i dd a imm s) := by
  unfold execDst
  repeat' first
    | with_reducible assumption | with_reducible apply State.setPair_keeps | with_reducible apply State.issue_keeps
    | with_reducible apply Res.Keeps.next | with_reducible apply Lz.Keeps.done | with_reducible apply Lz.Keeps.jump
    | with_reducible apply Lz.Keeps.exc | with_reducible apply Lz.Keeps.wait | intro _ _ _ _ | intro _ _ _ | intro _ _ | split

theorem execDsetw_keeps {z s : State} (h : z.Keeps s) (i : Issue) (dd : Fin 32) (a : Fin 64) (imm : W32) :
    Res.Keeps z (execDsetw i dd a imm s) := by
  unfold execDsetw
  repeat' first
    | with_reducible assumption | with_reducible apply State.setPair_keeps | with_reducible apply State.issue_keeps
    | with_reducible apply Res.Keeps.next | with_reducible apply Lz.Keeps.done | with_reducible apply Lz.Keeps.jump
    | with_reducible apply Lz.Keeps.exc | with_reducible apply Lz.Keeps.wait | intro _ _ _ _

theorem execDgetw_keeps {z s : State} (h : z.Keeps s) (i : Issue) (dd : Fin 32) (a : Fin 64) (imm : W32) :
    Res.Keeps z (execDgetw i dd a imm s) := by
  unfold execDgetw
  repeat' first
    | with_reducible assumption | with_reducible apply State.setPair_keeps | with_reducible apply State.issue_keeps
    | with_reducible apply Res.Keeps.next | with_reducible apply Lz.Keeps.done | with_reducible apply Lz.Keeps.jump
    | with_reducible apply Lz.Keeps.exc | with_reducible apply Lz.Keeps.wait | intro _ _ _ _

theorem execDadda_keeps {z s : State} (h : z.Keeps s) (i : Issue) (dd : Fin 32) (a : Fin 64) :
    Res.Keeps z (execDadda i dd a s) := by
  unfold execDadda
  repeat' first
    | with_reducible assumption | with_reducible apply State.setPair_keeps | with_reducible apply State.issue_keeps
    | with_reducible apply Res.Keeps.next | with_reducible apply Lz.Keeps.done | with_reducible apply Lz.Keeps.jump
    | with_reducible apply Lz.Keeps.exc | with_reducible apply Lz.Keeps.wait | intro _ _ _ _ | intro _ _ _ | intro _ _ | split

theorem execDclr_keeps {z s : State} (h : z.Keeps s) (i : Issue) (dd : Fin 32) :
    Res.Keeps z (execDclr i dd s) := by
  unfold execDclr
  repeat' first
    | with_reducible assumption | with_reducible apply State.setPair_keeps | with_reducible apply State.issue_keeps
    | with_reducible apply Res.Keeps.next | with_reducible apply Lz.Keeps.done | with_reducible apply Lz.Keeps.jump
    | with_reducible apply Lz.Keeps.exc | with_reducible apply Lz.Keeps.wait | intro _ _ _ _

theorem execSwait_keeps {z s : State} (h : z.Keeps s) (i : Issue) (pd : Fin 16) (a b d : Fin 64) :
    Res.Keeps z (execSwait i pd a b d s) := by
  unfold execSwait
  repeat' first
    | with_reducible assumption | with_reducible apply State.setPair_keeps | with_reducible apply State.await_keeps
    | with_reducible apply State.issue_keeps | with_reducible refine State.Keeps.snd (by with_reducible assumption) ?_
    | with_reducible apply Res.Keeps.next | with_reducible apply Lz.Keeps.done | with_reducible apply Lz.Keeps.jump
    | with_reducible apply Lz.Keeps.exc | with_reducible apply Lz.Keeps.wait | intro _ _ _ _ | intro _ _ _ | intro _ _ | split

theorem execSraise_keeps {z s : State} (h : z.Keeps s) (i : Issue) (a : Fin 64) :
    Res.Keeps z (execSraise i a s) := by
  unfold execSraise
  repeat' first
    | with_reducible assumption | with_reducible apply State.raise_keeps | with_reducible apply State.issue_keeps
    | with_reducible apply Res.Keeps.next | with_reducible apply Lz.Keeps.done | with_reducible apply Lz.Keeps.jump
    | with_reducible apply Lz.Keeps.exc | with_reducible apply Lz.Keeps.wait | intro _ _ _ _ | intro _ _ _ | intro _ _ | split

theorem execSpoll_keeps {z s : State} (h : z.Keeps s) (i : Issue) (pd : Fin 16) (a : Fin 64) :
    Res.Keeps z (execSpoll i pd a s) := by
  unfold execSpoll
  repeat' first
    | with_reducible assumption | with_reducible apply State.setPair_keeps | with_reducible apply State.issue_keeps
    | with_reducible apply Res.Keeps.next | with_reducible apply Lz.Keeps.done | with_reducible apply Lz.Keeps.jump
    | with_reducible apply Lz.Keeps.exc | with_reducible apply Lz.Keeps.wait | intro _ _ _ _ | intro _ _ _ | intro _ _ | split

theorem execTfence_keeps {z s : State} (h : z.Keeps s) (i : Issue) (cmask : BitVec 4) :
    Res.Keeps z (execTfence i cmask s) := by
  unfold execTfence
  repeat' first
    | with_reducible assumption | with_reducible apply State.issue_keeps | with_reducible apply Res.Keeps.next
    | with_reducible apply Lz.Keeps.done | with_reducible apply Lz.Keeps.jump | with_reducible apply Lz.Keeps.exc
    | with_reducible apply Lz.Keeps.wait | intro _ _ _ _ | intro _ _ _ | intro _ _ | split

theorem execTmovd_keeps {z s : State} (h : z.Keeps s) (i : Issue) (d a b : Fin 64) :
    Res.Keeps z (execTmovd i d a b s) := by
  unfold execTmovd
  repeat' first
    | with_reducible assumption | with_reducible apply State.setPair_keeps | with_reducible apply State.issue_keeps
    | with_reducible apply Res.Keeps.next | with_reducible apply Lz.Keeps.done | with_reducible apply Lz.Keeps.jump
    | with_reducible apply Lz.Keeps.exc | with_reducible apply Lz.Keeps.wait | intro _ _ _ _ | intro _ _ _ | intro _ _ | extract_lets
    | split

theorem execTmovm_keeps {z s : State} (h : z.Keeps s) (i : Issue) (d a b : Fin 64) :
    Res.Keeps z (execTmovm i d a b s) := by
  unfold execTmovm
  repeat' first
    | with_reducible assumption | with_reducible apply State.setPair_keeps | with_reducible apply State.touchOpd_keeps
    | with_reducible apply State.haltOp_keeps | with_reducible apply State.issue_keeps | with_reducible apply Res.Keeps.next
    | with_reducible apply Lz.Keeps.done | with_reducible apply Lz.Keeps.jump | with_reducible apply Lz.Keeps.exc
    | with_reducible apply Lz.Keeps.wait | intro _ _ _ _ | intro _ _ _ | intro _ _ | extract_lets | split

theorem execTmovDone_keeps {z s : State} (h : z.Keeps s) (sp : Fin 8) :
    Res.Keeps z (execTmovDone sp s) := by
  unfold execTmovDone
  repeat' first
    | with_reducible assumption | with_reducible apply State.modPair_keeps | with_reducible apply Res.Keeps.next | split

theorem execIfenceSwap_keeps {z s : State} (h : z.Keeps s) (i : Issue) (tgt : BitVec 14) :
    Res.Keeps z (execIfenceSwap i tgt s) := by
  unfold execIfenceSwap
  repeat' first
    | with_reducible assumption | with_reducible apply State.setPair_keeps | with_reducible apply State.issue_keeps
    | with_reducible apply Res.Keeps.next | with_reducible apply Lz.Keeps.done | with_reducible apply Lz.Keeps.jump
    | with_reducible apply Lz.Keeps.exc | with_reducible apply Lz.Keeps.wait | intro _ _ _ _ | intro _ _ _ | intro _ _ | split

theorem execCsrr_keeps {z s : State} (h : z.Keeps s) (i : Issue) (d : Fin 64) (csr : BitVec 12) :
    Res.Keeps z (execCsrr i d csr s) := by
  unfold execCsrr
  repeat' first
    | with_reducible assumption | with_reducible apply State.setPair_keeps | with_reducible apply State.issue_keeps
    | with_reducible apply Res.Keeps.next | with_reducible apply Lz.Keeps.done | with_reducible apply Lz.Keeps.jump
    | with_reducible apply Lz.Keeps.exc | with_reducible apply Lz.Keeps.wait | intro _ _ _ _ | intro _ _ _ | intro _ _ | split

theorem execEndProg_keeps {z s : State} (h : z.Keeps s) (i : Issue) (a : Fin 64) :
    Res.Keeps z (execEndProg i a s) := by
  unfold execEndProg
  repeat' first
    | with_reducible assumption | with_reducible apply State.setOp_keeps | with_reducible apply State.progCheck_keeps
    | with_reducible apply State.issue_keeps | with_reducible apply Res.Keeps.next | with_reducible apply Lz.Keeps.done
    | with_reducible apply Lz.Keeps.jump | with_reducible apply Lz.Keeps.exc | with_reducible apply Lz.Keeps.wait | intro _ _ _ _
    | intro _ _ _ | intro _ _ | extract_lets | split

theorem execTrap_keeps {z s : State} (h : z.Keeps s) (i : Issue) (tgt : BitVec 14) :
    Res.Keeps z (execTrap i tgt s) := by
  unfold execTrap
  repeat' first
    | with_reducible assumption | with_reducible apply State.issue_keeps | with_reducible apply Res.Keeps.next
    | with_reducible apply Lz.Keeps.done | with_reducible apply Lz.Keeps.jump | with_reducible apply Lz.Keeps.exc
    | with_reducible apply Lz.Keeps.wait | intro _ _ _ _

theorem execNop_keeps {z s : State} (h : z.Keeps s) (i : Issue) :
    Res.Keeps z (execNop i s) := by
  unfold execNop
  repeat' first
    | with_reducible assumption | with_reducible apply State.issue_keeps | with_reducible apply Res.Keeps.next
    | with_reducible apply State.Keeps.with | with_reducible apply Lz.Keeps.done | with_reducible apply Lz.Keeps.jump
    | with_reducible apply Lz.Keeps.exc | with_reducible apply Lz.Keeps.wait | intro _ _ _ _

theorem execIllegalInstruction_keeps {z s : State} (h : z.Keeps s) (sp : Fin 8) (w : W64) :
    Res.Keeps z (execIllegalInstruction sp w s) := by
  unfold execIllegalInstruction
  repeat' first
    | with_reducible assumption | with_reducible apply State.modPair_keeps | with_reducible apply State.raiseExc_keeps
    | with_reducible apply Res.Keeps.next | split

end Sys2Proof.Machine
end

