-- ==== Sys2Proof/Laws/KeepsTensor.lean ====
section
/-! SUPPORT. `State.Keeps` for the operations of Machine/Tensor.lean. -/

namespace Sys2Proof.Machine

theorem State.enqueue_keeps {z s : State} (h : z.Keeps s) (sp : Nat) (x : Pair) (cmask : BitVec 4) (eng : Engine) (work : QWork) (xl : List TlbEnt) :
    z.Keeps (State.enqueue s sp x cmask eng work xl) := by
  unfold State.enqueue
  repeat' first
    | with_reducible assumption | with_reducible apply State.modCluster_keeps | with_reducible refine State.Keeps.fold ?_ (fun _ _ _ => ?_)

theorem State.issueTensor_keeps {z s : State} (h : z.Keeps s) (sp : Nat) (x : Pair) (cmask : BitVec 4) (eng : Engine) (work : QWork) (xl : List TlbEnt) :
    Lz.Keeps z (State.issueTensor s sp x cmask eng work xl) := by
  unfold State.issueTensor
  repeat' first
    | with_reducible assumption | with_reducible apply State.setPair_keeps | with_reducible apply State.enqueue_keeps
    | with_reducible apply Lz.Keeps.done | with_reducible apply Lz.Keeps.exc | with_reducible apply Lz.Keeps.wait | split

theorem State.mx_keeps {z s : State} (h : z.Keeps s) (i : Issue) (f : MxF) (ew : Bool) :
    z.Keeps (State.mx s i f ew) := by
  unfold State.mx
  repeat' first
    | with_reducible assumption | with_reducible apply State.issue_keeps | with_reducible apply State.issueTensor_keeps
    | with_reducible apply Lz.Keeps.done | with_reducible apply Lz.Keeps.jump | with_reducible apply Lz.Keeps.exc
    | with_reducible apply Lz.Keeps.wait | with_reducible refine Lz.Keeps.ofDone (by with_reducible assumption) ?_
    | with_reducible refine Lz.Keeps.ofJump (by with_reducible assumption) ?_
    | with_reducible refine Lz.Keeps.ofWait (by with_reducible assumption) ?_ | intro _ _ _ _ | intro _ _ _ | intro _ _ | extract_lets
    | split

theorem execMxrun_keeps {z s : State} (h : z.Keeps s) (i : Issue) (f : MxF) :
    Res.Keeps z (execMxrun i f s) := by
  unfold execMxrun
  repeat' first
    | with_reducible assumption | with_reducible apply State.mx_keeps | with_reducible apply Res.Keeps.next

theorem execMxew_keeps {z s : State} (h : z.Keeps s) (i : Issue) (f : MxF) :
    Res.Keeps z (execMxew i f s) := by
  unfold execMxew
  repeat' first
    | with_reducible assumption | with_reducible apply State.mx_keeps | with_reducible apply Res.Keeps.next

theorem execVrun_keeps {z s : State} (h : z.Keeps s) (i : Issue) (f : VxF) :
    Res.Keeps z (execVrun i f s) := by
  unfold execVrun
  repeat' first
    | with_reducible assumption | with_reducible apply State.modPair_keeps | with_reducible apply State.issue_keeps
    | with_reducible apply State.issueTensor_keeps | with_reducible apply Res.Keeps.next | with_reducible apply Lz.Keeps.done
    | with_reducible apply Lz.Keeps.jump | with_reducible apply Lz.Keeps.exc | with_reducible apply Lz.Keeps.wait
    | with_reducible refine Lz.Keeps.ofDone (by with_reducible assumption) ?_
    | with_reducible refine Lz.Keeps.ofJump (by with_reducible assumption) ?_
    | with_reducible refine Lz.Keeps.ofWait (by with_reducible assumption) ?_ | intro _ _ _ _ | intro _ _ _ | intro _ _ | extract_lets
    | split

theorem execSxq_keeps {z s : State} (h : z.Keeps s) (i : Issue) (dd : Fin 32) (cmask : BitVec 4) :
    Res.Keeps z (execSxq i dd cmask s) := by
  unfold execSxq
  repeat' first
    | with_reducible assumption | with_reducible apply State.touchOpd_keeps | with_reducible apply State.stopOp_keeps
    | with_reducible apply State.issue_keeps | with_reducible apply State.issueTensor_keeps
    | with_reducible refine State.Keeps.fold ?_ (fun _ _ _ => ?_) | with_reducible apply Res.Keeps.next | with_reducible apply Lz.Keeps.done
    | with_reducible apply Lz.Keeps.jump | with_reducible apply Lz.Keeps.exc | with_reducible apply Lz.Keeps.wait
    | with_reducible refine Lz.Keeps.ofDone (by with_reducible assumption) ?_
    | with_reducible refine Lz.Keeps.ofJump (by with_reducible assumption) ?_
    | with_reducible refine Lz.Keeps.ofWait (by with_reducible assumption) ?_ | intro _ _ _ _ | intro _ _ _ | intro _ _ | extract_lets
    | split | dsimp +zetaDelta only

theorem State.peerSend_keeps {z s : State} (h : z.Keeps s) (type : Nat) (h : PeerHdr) (data : List Byte) :
    z.Keeps (State.peerSend s type h data) := by
  unfold State.peerSend
  repeat' first
    | with_reducible assumption | with_reducible apply State.modPeer_keeps

theorem State.giveCredit_keeps {z s : State} (h : z.Keeps s) (w : W16) (slot : Nat) :
    z.Keeps (State.giveCredit s w slot) := by
  unfold State.giveCredit
  repeat' first
    | with_reducible assumption | with_reducible apply State.modPeer_keeps | with_reducible apply State.peerSend_keeps | extract_lets
    | split

theorem State.openWindow_keeps {z s : State} (h : z.Keeps s) (n h part : Nat) (opid : W32) :
    z.Keeps (State.openWindow s n h part opid) := by
  unfold State.openWindow
  repeat' first
    | with_reducible assumption | with_reducible apply State.modPeer_keeps | with_reducible apply State.draw_keeps
    | with_reducible apply State.giveCredit_keeps | with_reducible refine State.Keeps.fold ?_ (fun _ _ _ => ?_)
    | with_reducible refine State.Keeps.snd (by with_reducible assumption) ?_ | extract_lets | split

theorem State.closeWindow_keeps {z s : State} (h : z.Keeps s) (n h : Nat) :
    z.Keeps (State.closeWindow s n h) := by
  unfold State.closeWindow
  repeat' first
    | with_reducible assumption | with_reducible apply State.modPeer_keeps

theorem State.putHandle_keeps {z s : State} (h : z.Keeps s) (n h part : Nat) (opid : W32) (w : W64) :
    z.Keeps (State.putHandle s n h part opid w) := by
  unfold State.putHandle
  repeat' first
    | with_reducible assumption | with_reducible apply State.modCluster_keeps | with_reducible apply State.openWindow_keeps
    | with_reducible apply State.closeWindow_keeps

theorem State.clearRing_keeps {z s : State} (h : z.Keeps s) (n h : Nat) :
    z.Keeps (State.clearRing s n h) := by
  unfold State.clearRing
  repeat' first
    | with_reducible assumption | with_reducible apply State.modCluster_keeps | with_reducible apply State.modPeer_keeps
    | with_reducible apply State.giveCredit_keeps | with_reducible refine State.Keeps.fold ?_ (fun _ _ _ => ?_) | extract_lets | split

theorem execHset_keeps {z s : State} (h : z.Keeps s) (i : Issue) (h : Byte) (a : Fin 64) (cmask : BitVec 4) :
    Res.Keeps z (execHset i h a cmask s) := by
  unfold execHset
  repeat' first
    | with_reducible assumption | with_reducible apply State.setPair_keeps | with_reducible apply State.putHandle_keeps
    | with_reducible apply State.issue_keeps | with_reducible apply State.issueTensor_keeps | with_reducible apply Res.Keeps.next
    | with_reducible apply Lz.Keeps.done | with_reducible apply Lz.Keeps.jump | with_reducible apply Lz.Keeps.exc
    | with_reducible apply Lz.Keeps.wait | intro _ _ _ _ | intro _ _ _ | intro _ _
    | with_reducible refine State.Keeps.fold ?_ (fun _ _ _ => ?_) | extract_lets | split

theorem execHclr_keeps {z s : State} (h : z.Keeps s) (i : Issue) (h : Byte) (cmask : BitVec 4) :
    Res.Keeps z (execHclr i h cmask s) := by
  unfold execHclr
  repeat' first
    | with_reducible assumption | with_reducible apply State.setPair_keeps | with_reducible apply State.putHandle_keeps
    | with_reducible apply State.issue_keeps | with_reducible apply State.issueTensor_keeps | with_reducible apply Res.Keeps.next
    | with_reducible apply Lz.Keeps.done | with_reducible apply Lz.Keeps.jump | with_reducible apply Lz.Keeps.exc
    | with_reducible apply Lz.Keeps.wait | intro _ _ _ _ | intro _ _ _ | intro _ _
    | with_reducible refine State.Keeps.fold ?_ (fun _ _ _ => ?_) | extract_lets | split

theorem execRclr_keeps {z s : State} (h : z.Keeps s) (i : Issue) (h : Byte) (cmask : BitVec 4) :
    Res.Keeps z (execRclr i h cmask s) := by
  unfold execRclr
  repeat' first
    | with_reducible assumption | with_reducible apply State.modCluster_keeps | with_reducible apply State.setPair_keeps
    | with_reducible apply State.issue_keeps | with_reducible apply State.issueTensor_keeps | with_reducible apply Res.Keeps.next
    | with_reducible apply Lz.Keeps.done | with_reducible apply Lz.Keeps.jump | with_reducible apply Lz.Keeps.exc
    | with_reducible apply Lz.Keeps.wait | intro _ _ _ _ | intro _ _ _ | intro _ _
    | with_reducible refine State.Keeps.fold ?_ (fun _ _ _ => ?_) | extract_lets | split

theorem execLtw_keeps {z s : State} (h : z.Keeps s) (i : Issue) (dd : Fin 32) (a : Fin 64) (cmask : BitVec 4) :
    Res.Keeps z (execLtw i dd a cmask s) := by
  unfold execLtw
  repeat' first
    | with_reducible assumption | with_reducible apply State.issue_keeps | with_reducible apply State.issueTensor_keeps
    | with_reducible apply Res.Keeps.next | with_reducible apply Lz.Keeps.done | with_reducible apply Lz.Keeps.jump
    | with_reducible apply Lz.Keeps.exc | with_reducible apply Lz.Keeps.wait
    | with_reducible refine Lz.Keeps.ofDone (by with_reducible assumption) ?_
    | with_reducible refine Lz.Keeps.ofJump (by with_reducible assumption) ?_
    | with_reducible refine Lz.Keeps.ofWait (by with_reducible assumption) ?_ | intro _ _ _ _ | intro _ _ _ | intro _ _ | extract_lets
    | split

end Sys2Proof.Machine
end

