-- ==== Sys2Proof/Laws/KeepsMapOut.lean ====
section
/-! SUPPORT. `State.Keeps` for the operations of Machine/MapOut.lean. -/

namespace Sys2Proof.Machine

theorem State.withdraw_keeps {z s : State} (h : z.Keeps s) (n : Nat) :
    z.Keeps (State.withdraw s n) := by
  unfold State.withdraw
  repeat' first
    | with_reducible assumption | with_reducible apply State.modPeer_keeps | with_reducible apply State.peerSend_keeps
    | with_reducible refine State.Keeps.fold ?_ (fun _ _ _ => ?_)

theorem State.askRun_keeps {z s : State} (h : z.Keeps s) (o : Op) (n seg : Nat) (page : Option (Nat × Nat)) (va len : Nat) :
    z.Keeps (State.askRun s o n seg page va len) := by
  unfold State.askRun
  repeat' first
    | with_reducible assumption | with_reducible apply State.setCluster_keeps | with_reducible apply State.pushReq_keeps
    | with_reducible refine State.Keeps.fold ?_ (fun _ _ _ => ?_) | extract_lets | split

theorem State.askKeys_keeps {z s : State} (h : z.Keeps s) (o : Op) (n seg : Nat) (gs : List Nat) (lo hi : Nat) :
    z.Keeps (State.askKeys s o n seg gs lo hi) := by
  unfold State.askKeys
  repeat' first
    | with_reducible assumption | with_reducible apply State.askRun_keeps | with_reducible refine State.Keeps.fold ?_ (fun _ _ _ => ?_)

theorem State.askSegs_keeps {z s : State} (h : z.Keeps s) (o : Op) (ps : List (Nat × Nat)) :
    z.Keeps (State.askSegs s o ps) := by
  unfold State.askSegs
  repeat' first
    | with_reducible assumption | with_reducible apply State.askKeys_keeps | with_reducible refine State.Keeps.fold ?_ (fun _ _ _ => ?_)

theorem State.placeWaiting_keeps {z s : State} (h : z.Keeps s) (p : Nat) :
    z.Keeps (State.placeWaiting s p) := by
  unfold State.placeWaiting
  repeat' first
    | with_reducible assumption | with_reducible apply State.setOp_keeps | with_reducible apply State.askSegs_keeps
    | with_reducible refine State.Keeps.fold ?_ (fun _ _ _ => ?_) | extract_lets | split

theorem State.replaceAll_keeps {z s : State} (h : z.Keeps s) (m : BitVec 32) (p : Nat) :
    z.Keeps (State.replaceAll s m p) := by
  unfold State.replaceAll
  repeat' first
    | with_reducible assumption | with_reducible apply State.modHw_keeps | with_reducible apply State.placeWaiting_keeps

theorem State.mapOutNote_keeps {z s : State} (h : z.Keeps s) (type : W16) (unit reason : Nat) (data : List (Nat × Nat × Nat)) :
    z.Keeps (State.mapOutNote s type unit reason data) := by
  unfold State.mapOutNote
  repeat' first
    | with_reducible assumption | with_reducible apply State.note_keeps | with_reducible apply State.rasIrq_keeps
    | with_reducible apply State.event_keeps

theorem State.mapOutCluster_keeps {z s : State} (h : z.Keeps s) (n reason : Nat) :
    z.Keeps (State.mapOutCluster s n reason) := by
  unfold State.mapOutCluster
  repeat' first
    | with_reducible assumption | with_reducible apply State.modCluster_keeps | with_reducible apply State.modBoot_keeps
    | with_reducible apply State.modRas_keeps | with_reducible apply State.stopClock_keeps | with_reducible apply State.stopOp_keeps
    | with_reducible apply State.withdraw_keeps | with_reducible apply State.replaceAll_keeps | with_reducible apply State.mapOutNote_keeps
    | with_reducible refine State.Keeps.fold ?_ (fun _ _ _ => ?_) | extract_lets | split

theorem State.mapOutPair_keeps {z s : State} (h : z.Keeps s) (sp reason : Nat) :
    z.Keeps (State.mapOutPair s sp reason) := by
  unfold State.mapOutPair
  repeat' first
    | with_reducible assumption | with_reducible apply State.modRas_keeps | with_reducible apply State.mapOutNote_keeps
    | with_reducible apply State.mapOutCluster_keeps | with_reducible refine State.Keeps.fold ?_ (fun _ _ _ => ?_) | extract_lets | split

end Sys2Proof.Machine
end

