-- ==== Sys2Proof/Laws/KeepsEngines.lean ====
section
/-! SUPPORT. `State.Keeps` for the operations of Machine/Engines.lean. -/

namespace Sys2Proof.Machine

theorem State.entryFault_keeps {z s : State} (h : z.Keeps s) (n : Nat) (e : QEnt) (status detail : Nat) (result : BitVec 96) :
    z.Keeps (State.entryFault s n e status detail result) := by
  unfold State.entryFault
  repeat' first
    | with_reducible assumption | with_reducible apply State.modCluster_keeps | with_reducible apply State.stopOp_keeps

theorem State.uncorrectable_keeps {z s : State} (h : z.Keeps s) (n x : Nat) (e : QEnt) :
    z.Keeps (State.uncorrectable s n x e) := by
  unfold State.uncorrectable
  repeat' first
    | with_reducible assumption | with_reducible apply State.note_keeps | with_reducible apply State.entryFault_keeps

theorem State.overflow_keeps {z s : State} (h : z.Keeps s) (n : Nat) (e : QEnt) (t : Nat) (i : Iter) :
    z.Keeps (State.overflow s n e t i) := by
  unfold State.overflow
  repeat' first
    | with_reducible assumption | with_reducible apply State.entryFault_keeps

theorem State.modOp_keeps {z s : State} (h : z.Keeps s) (opid : W32) (f : Op → Op) :
    z.Keeps (State.modOp s opid f) := by
  unfold State.modOp
  repeat' first
    | with_reducible assumption | with_reducible apply State.setOp_keeps | split

theorem State.firstMac_keeps {z s : State} (h : z.Keeps s) (n : Nat) (opid : W32) :
    z.Keeps (State.firstMac s n opid) := by
  unfold State.firstMac
  repeat' first
    | with_reducible assumption | with_reducible apply State.trace_keeps | with_reducible apply State.setOp_keeps | split

theorem State.startMx_keeps {z s : State} (h : z.Keeps s) (n : Nat) (e : QEnt) (ew : Bool) (ds db dO : BitVec 512) (lt : Option Nat) (gang pm acc : Nat) :
    z.Keeps (State.startMx s n e ew ds db dO lt gang pm acc) := by
  unfold State.startMx
  repeat' first
    | with_reducible assumption | with_reducible apply State.setCluster_keeps | with_reducible apply State.overflow_keeps
    | with_reducible apply State.modOp_keeps | with_reducible apply State.firstMac_keeps
    | with_reducible refine State.Keeps.fold ?_ (fun _ _ _ => ?_) | extract_lets | split | dsimp +zetaDelta only

theorem State.startVx_keeps {z s : State} (h : z.Keeps s) (n : Nat) (e : QEnt) (v : VxOpds) (lt : Option Nat) :
    z.Keeps (State.startVx s n e v lt) := by
  unfold State.startVx
  repeat' first
    | with_reducible assumption | with_reducible apply State.setCluster_keeps | with_reducible apply State.uncorrectable_keeps
    | with_reducible apply State.overflow_keeps | with_reducible apply State.modOp_keeps
    | with_reducible refine State.Keeps.fold ?_ (fun _ _ _ => ?_) | extract_lets | split

theorem State.startSx_keeps {z s : State} (h : z.Keeps s) (n : Nat) (e : QEnt) (v : BitVec 512) :
    z.Keeps (State.startSx s n e v) := by
  unfold State.startSx
  repeat' first
    | with_reducible assumption | with_reducible apply State.modCluster_keeps | with_reducible apply State.await_keeps
    | with_reducible refine State.Keeps.snd (by with_reducible assumption) ?_ | extract_lets | split

theorem State.startLtw_keeps {z s : State} (h : z.Keeps s) (n : Nat) (e : QEnt) (t : Nat) (w : BitVec 1024) :
    z.Keeps (State.startLtw s n e t w) := by
  unfold State.startLtw
  repeat' first
    | with_reducible assumption | with_reducible apply State.setCluster_keeps | extract_lets | split

theorem State.startHandle_keeps {z s : State} (h : z.Keeps s) (n : Nat) (e : QEnt) :
    z.Keeps (State.startHandle s n e) := by
  unfold State.startHandle
  extract_lets done
  have hd : ∀ t, z.Keeps t → z.Keeps (done t) := fun t ht => State.modCluster_keeps ht _ _
  repeat' first
    | with_reducible assumption | with_reducible apply hd | with_reducible apply State.putHandle_keeps
    | with_reducible apply State.clearRing_keeps | split

theorem execEntryStart_keeps {z s : State} (h : z.Keeps s) (n : Fin 32) (e : Engine) :
    Res.Keeps z (execEntryStart n e s) := by
  unfold execEntryStart
  repeat' first
    | with_reducible assumption | with_reducible apply State.mx_keeps | with_reducible apply State.startMx_keeps
    | with_reducible apply State.startVx_keeps | with_reducible apply State.startSx_keeps | with_reducible apply State.startLtw_keeps
    | with_reducible apply State.startHandle_keeps | with_reducible apply Res.Keeps.next | split

theorem State.builtinVerdict_keeps {z s : State} (h : z.Keeps s) (n : Nat) (fs : List ArrayFault) :
    z.Keeps (State.builtinVerdict s n fs) := by
  unfold State.builtinVerdict
  repeat' first
    | with_reducible assumption | with_reducible apply State.setCluster_keeps | extract_lets | split

theorem execTileVerdict_keeps {z s : State} (h : z.Keeps s) (n : Fin 32) (fs : List ArrayFault) :
    Res.Keeps z (execTileVerdict n fs s) := by
  unfold execTileVerdict
  repeat' first
    | with_reducible assumption | with_reducible apply State.setCluster_keeps | with_reducible apply State.builtinVerdict_keeps
    | with_reducible apply Res.Keeps.next | extract_lets | split

theorem State.mapOutLane_keeps {z s : State} (h : z.Keeps s) (n array lane : Nat) :
    z.Keeps (State.mapOutLane s n array lane) := by
  unfold State.mapOutLane
  repeat' first
    | with_reducible assumption | with_reducible apply State.setCluster_keeps | with_reducible apply State.note_keeps
    | with_reducible apply State.rasIrq_keeps | with_reducible apply State.event_keeps | with_reducible apply State.mapOutCluster_keeps
    | extract_lets | split

theorem State.chargeLane_keeps {z s : State} (h : z.Keeps s) (n : Nat) (opid : W32) (array lane : Nat) :
    z.Keeps (State.chargeLane s n opid array lane) := by
  unfold State.chargeLane
  repeat' first
    | with_reducible assumption | with_reducible apply State.setCluster_keeps | with_reducible apply State.note_keeps
    | with_reducible apply State.mapOutLane_keeps | extract_lets | split

theorem State.chargeData_keeps {z s : State} (h : z.Keeps s) (n : Nat) (opid : W32) (array : Nat) :
    z.Keeps (State.chargeData s n opid array) := by
  unfold State.chargeData
  repeat' first
    | with_reducible assumption | with_reducible apply State.setCluster_keeps | with_reducible apply State.note_keeps
    | with_reducible apply State.mapOutCluster_keeps | extract_lets | split

theorem State.chargeLanes_keeps {z s : State} (h : z.Keeps s) (n : Nat) (opid : W32) (ls : List (Nat × Nat)) :
    z.Keeps (State.chargeLanes s n opid ls) := by
  unfold State.chargeLanes
  repeat' first
    | with_reducible assumption | with_reducible apply State.chargeLane_keeps | with_reducible refine State.Keeps.fold ?_ (fun _ _ _ => ?_)

theorem State.builtinRerun_keeps {z s : State} (h : z.Keeps s) (n : Nat) (fs : List ArrayFault) :
    z.Keeps (State.builtinRerun s n fs) := by
  unfold State.builtinRerun
  repeat' first
    | with_reducible assumption | with_reducible apply State.setCluster_keeps | with_reducible apply State.modCluster_keeps
    | with_reducible apply State.trace_keeps | with_reducible apply State.endOp_keeps | with_reducible apply State.chargeData_keeps
    | with_reducible apply State.chargeLanes_keeps | extract_lets | split | dsimp +zetaDelta only

theorem execAbftRerunDone_keeps {z s : State} (h : z.Keeps s) (n : Fin 32) (data sums column : List ArrayFault) :
    Res.Keeps z (execAbftRerunDone n data sums column s) := by
  unfold execAbftRerunDone
  repeat' first
    | with_reducible assumption | with_reducible apply State.chargeLane_keeps | with_reducible apply State.setCluster_keeps
    | with_reducible apply State.trace_keeps | with_reducible apply State.entryFault_keeps | with_reducible apply State.chargeData_keeps
    | with_reducible apply State.chargeLanes_keeps | with_reducible apply State.builtinRerun_keeps | with_reducible apply Res.Keeps.next
    | dsimp only | extract_lets | split

theorem State.release_keeps {z s : State} (h : z.Keeps s) (n h : Nat) :
    z.Keeps (State.release s n h) := by
  unfold State.release
  repeat' first
    | with_reducible assumption | with_reducible apply State.modCluster_keeps | with_reducible apply State.giveCredit_keeps | extract_lets
    | split

theorem State.streamEnd_keeps {z s : State} (h : z.Keeps s) (e : QEnt) (d : SDesc) :
    z.Keeps (State.streamEnd s e d) := by
  unfold State.streamEnd
  repeat' first
    | with_reducible assumption | with_reducible apply State.trace_keeps | with_reducible apply State.raise_keeps
    | with_reducible apply State.modOp_keeps | extract_lets | split | dsimp +zetaDelta only

theorem execEntryComplete_keeps {z s : State} (h : z.Keeps s) (n : Fin 32) (e : Engine) :
    Res.Keeps z (execEntryComplete n e s) := by
  unfold execEntryComplete
  repeat' first
    | with_reducible assumption | with_reducible apply State.setCluster_keeps | with_reducible apply State.progCheck_keeps
    | with_reducible apply State.release_keeps | with_reducible apply State.streamEnd_keeps
    | with_reducible refine State.Keeps.fold ?_ (fun _ _ _ => ?_) | with_reducible apply Res.Keeps.next | extract_lets | split

theorem execStallTimeout_keeps {z s : State} (h : z.Keeps s) (n : Fin 32) (e : Engine) :
    Res.Keeps z (execStallTimeout n e s) := by
  unfold execStallTimeout
  repeat' first
    | with_reducible assumption | with_reducible apply State.modCluster_keeps | with_reducible apply State.note_keeps
    | with_reducible apply State.progCheck_keeps | with_reducible apply State.entryFault_keeps | with_reducible apply Res.Keeps.next
    | extract_lets | split

end Sys2Proof.Machine
end

