-- ==== Sys2Proof/Laws/KeepsStreams.lean ====
section
/-! SUPPORT. `State.Keeps` for the operations of Machine/Streams.lean. -/

namespace Sys2Proof.Machine

/-- Every state that a stream's issue outcome carries keeps what must be kept. -/
def SxRes.Keeps (z : State) : SxRes → Prop
  | .ok s => z.Keeps s
  | .stall => True
  | .pause => True
  | .fault s => z.Keeps s

theorem SxRes.Keeps.ok {z s : State} (h : z.Keeps s) : SxRes.Keeps z (.ok s) := h
theorem SxRes.Keeps.fault {z s : State} (h : z.Keeps s) : SxRes.Keeps z (.fault s) := h
theorem SxRes.Keeps.stall (z : State) : SxRes.Keeps z .stall := trivial
theorem SxRes.Keeps.pause (z : State) : SxRes.Keeps z .pause := trivial
theorem SxRes.Keeps.ofOk {z s : State} {x : SxRes} (e : x = .ok s) (h : SxRes.Keeps z x) : z.Keeps s := by subst e; exact h
theorem SxRes.Keeps.ofFault {z s : State} {x : SxRes} (e : x = .fault s) (h : SxRes.Keeps z x) : z.Keeps s := by subst e; exact h

theorem State.askReads_keeps {z s : State} (h : z.Keeps s) (n part tag k : Nat) (cache : Bool) (xl : List TlbEnt) (rs : List (Nat × Nat)) :
    z.Keeps (State.askReads s n part tag k cache xl rs).2 := by
  unfold State.askReads
  refine State.Keeps.fold2 h (fun a x ha => ?_)
  have hs : ∀ c, z.Keeps (if cache = true then a.2.setCluster n c else a.2) := by
    intro c
    split
    · exact State.setCluster_keeps ha _ _
    · exact ha
  split
  next hit c _ =>
    extract_lets s1
    split
    · exact hs c
    · exact State.pushReq_keeps (hs c) _

theorem State.askWrites_keeps {z s : State} (h : z.Keeps s) (n part tag va : Nat) (xl : List TlbEnt) (bs : List Byte) :
    z.Keeps (State.askWrites s n part tag va xl bs).2 := by
  unfold State.askWrites
  exact State.Keeps.fold2 h (fun a x ha => State.pushReq_keeps ha _)

theorem State.land_keeps {z s : State} (h : z.Keeps s) (n : Nat) (e : QEnt) (d : SDesc) (k slot : Nat) (inp : List Byte) :
    z.Keeps (State.land s n e d k slot inp) := by
  unfold State.land
  repeat' first
    | with_reducible assumption | with_reducible apply State.setCluster_keeps | with_reducible apply State.modOp_keeps

theorem State.giveFlits_keeps {z s : State} (h : z.Keeps s) (k flits : Nat) :
    z.Keeps (State.giveFlits s k flits) := by
  unfold State.giveFlits
  repeat' first
    | with_reducible assumption | with_reducible apply State.modFab_keeps

/-- The state of a tile taken keeps what must be kept. -/
theorem State.takeTile_keeps {z s t : State} {x : FTile} (h : z.Keeps s) (k : Nat) (opid : W32) (e : s.takeTile k opid = some (x, t)) : z.Keeps t := by
  unfold State.takeTile at e
  extract_lets ts at e
  split at e
  · exact absurd e (by simp)
  · simp only [Option.some.injEq, Prod.mk.injEq] at e
    rw [← e.2]
    exact State.giveFlits_keeps (State.modFab_keeps h _) _ _

theorem State.sendTile_keeps {z s : State} (h : z.Keeps s) (k : Nat) (p : Nat) (c : Cmd) (owner : Nat × Nat) (bs : List Byte) :
    z.Keeps (State.sendTile s k p c owner bs) := by
  unfold State.sendTile
  repeat' first
    | with_reducible assumption | with_reducible apply State.modFab_keeps

theorem State.flitsLeave_keeps {z s : State} (h : z.Keeps s) (opid : W32) (k flits : Nat) (last : Bool) :
    z.Keeps (State.flitsLeave s opid k flits last) := by
  unfold State.flitsLeave
  repeat' first
    | with_reducible assumption | with_reducible apply State.trace_keeps | with_reducible apply State.setOp_keeps | extract_lets | split

theorem State.partIssued_keeps {z s : State} (h : z.Keeps s) (n : Nat) (e : QEnt) (d : SDesc) (left : Nat) :
    z.Keeps (State.partIssued s n e d left) := by
  unfold State.partIssued
  repeat' first
    | with_reducible assumption | with_reducible apply State.modCluster_keeps

theorem State.fillPart_keeps {z s : State} (h : z.Keeps s) (n : Nat) (e : QEnt) (d : SDesc) (inp : List Byte) (ask : State → Nat × State) (ha : ∀ t, z.Keeps t → z.Keeps (ask t).2) :
    z.Keeps (State.fillPart s n e d inp ask) := by
  unfold State.fillPart
  extract_lets c slot ring s1
  have h1 : z.Keeps s1 := by
    unfold s1
    split
    · exact State.setCluster_keeps h _ _
    · exact h
  have h2 := ha s1 h1
  split
  next k s2 e =>
    rw [e] at h2
    extract_lets s3
    have h3 : z.Keeps s3 := State.partIssued_keeps (State.modCluster_keeps h2 _ _) _ _ _ _
    split
    · exact State.land_keeps h3 _ _ _ _ _ _
    · exact h3

theorem State.movePart_keeps {z s : State} (h : z.Keeps s) (n : Nat) (e : QEnt) (d : SDesc) (xs : List (Nat × List Nat)) :
    SxRes.Keeps z (State.movePart s n e d xs) := by
  unfold State.movePart
  repeat' first
    | with_reducible assumption | with_reducible refine State.takeTile_keeps ?_ _ _ (by with_reducible assumption) | intro _ _
    | with_reducible apply State.modCluster_keeps | with_reducible apply State.modPeer_keeps | with_reducible apply State.pause_keeps
    | with_reducible apply State.peerSend_keeps | with_reducible apply State.entryFault_keeps | with_reducible apply State.modOp_keeps
    | with_reducible apply State.askReads_keeps | with_reducible apply State.askWrites_keeps | with_reducible apply State.sendTile_keeps
    | with_reducible apply State.flitsLeave_keeps | with_reducible apply State.partIssued_keeps | with_reducible apply State.fillPart_keeps
    | with_reducible apply SxRes.Keeps.ok | with_reducible apply SxRes.Keeps.stall | with_reducible apply SxRes.Keeps.pause
    | with_reducible apply SxRes.Keeps.fault | intro _ _ _ _ | intro _ _ _ | intro _ _
    | with_reducible refine State.Keeps.snd (by with_reducible assumption) ?_ | dsimp only | split

theorem State.issuePart_keeps {z s : State} (h : z.Keeps s) (n : Nat) (e : QEnt) (d : SDesc) :
    SxRes.Keeps z (State.issuePart s n e d) := by
  unfold State.issuePart
  repeat' first
    | with_reducible assumption | with_reducible apply State.setCluster_keeps | with_reducible apply State.pause_keeps
    | with_reducible apply State.entryFault_keeps | with_reducible apply State.uncorrectable_keeps | with_reducible apply State.movePart_keeps
    | with_reducible apply SxRes.Keeps.ok | with_reducible apply SxRes.Keeps.stall | with_reducible apply SxRes.Keeps.pause
    | with_reducible apply SxRes.Keeps.fault | with_reducible refine SxRes.Keeps.ofOk (by with_reducible assumption) ?_
    | with_reducible refine SxRes.Keeps.ofFault (by with_reducible assumption) ?_ | extract_lets | split

theorem State.issueStreams_keeps {z s : State} (h : z.Keeps s) (n : Nat) (es : List QEnt) :
    z.Keeps (State.issueStreams s n es) := by
  induction es generalizing s with
  | nil => exact h
  | cons e es ih =>
    unfold State.issueStreams
    split
    · extract_lets d
      split
      · exact h
      split
      · exact h
      split
      · exact ih h
      have k := State.issuePart_keeps h n e d
      split
      · next e => rw [e] at k; exact k
      · next e => rw [e] at k; exact k
      · exact h
      · exact ih h
    · exact ih h

theorem execStreamIssue_keeps {z s : State} (h : z.Keeps s) (n : Fin 32) :
    Res.Keeps z (execStreamIssue n s) := by
  unfold execStreamIssue
  repeat' first
    | with_reducible assumption | with_reducible apply State.issueStreams_keeps | with_reducible apply Res.Keeps.next

theorem State.countAccess_keeps {z s : State} (h : z.Keeps s) (r : Req) :
    z.Keeps (State.countAccess s r) := by
  unfold State.countAccess
  repeat' first
    | with_reducible assumption | with_reducible apply State.vaWrite_keeps | with_reducible apply State.modTr_keeps
    | with_reducible apply State.lightWrite_keeps | with_reducible apply State.sendIrq_keeps | extract_lets | split

theorem State.sendLight_keeps {z s : State} (h : z.Keeps s) (k : Nat) (x : Bool × Req) :
    z.Keeps (State.sendLight s k x) := by
  unfold State.sendLight
  repeat' first
    | with_reducible assumption | with_reducible apply State.setPort_keeps | with_reducible apply State.modHw_keeps
    | with_reducible apply State.light_keeps | extract_lets | split

theorem State.sendBulk_keeps {z s : State} (h : z.Keeps s) (k : Nat) :
    z.Keeps (State.sendBulk s k) := by
  unfold State.sendBulk
  repeat' first
    | with_reducible assumption | with_reducible apply State.setPort_keeps | with_reducible apply State.countAccess_keeps | extract_lets
    | split

theorem execMemoryRequestIssue_keeps {z s : State} (h : z.Keeps s) (k : Fin 16) :
    Res.Keeps z (execMemoryRequestIssue k s) := by
  unfold execMemoryRequestIssue
  repeat' first
    | with_reducible assumption | with_reducible apply State.setPort_keeps | with_reducible apply State.countAccess_keeps
    | with_reducible apply State.sendLight_keeps | with_reducible apply State.sendBulk_keeps | with_reducible apply Res.Keeps.next
    | extract_lets | split

theorem execReadCommandCredit_keeps {z s : State} (h : z.Keeps s) (k : Fin 16) :
    Res.Keeps z (execReadCommandCredit k s) := by
  unfold execReadCommandCredit
  repeat' first
    | with_reducible assumption | with_reducible apply State.modPort_keeps | with_reducible apply Res.Keeps.next | split

theorem execWriteCommandCredit_keeps {z s : State} (h : z.Keeps s) (k : Fin 16) :
    Res.Keeps z (execWriteCommandCredit k s) := by
  unfold execWriteCommandCredit
  repeat' first
    | with_reducible assumption | with_reducible apply State.modPort_keeps | with_reducible apply Res.Keeps.next | split

theorem execWriteDataCredit_keeps {z s : State} (h : z.Keeps s) (k : Fin 16) :
    Res.Keeps z (execWriteDataCredit k s) := by
  unfold execWriteDataCredit
  repeat' first
    | with_reducible assumption | with_reducible apply State.modPort_keeps | with_reducible apply Res.Keeps.next | split

theorem State.streamError_keeps {z s : State} (h : z.Keeps s) (n tag : Nat) (r : Req) (k : Nat) (stat : BitVec 2) :
    z.Keeps (State.streamError s n tag r k stat) := by
  unfold State.streamError
  repeat' first
    | with_reducible assumption | with_reducible apply State.note_keeps | with_reducible apply State.corrupt_keeps
    | with_reducible apply State.entryFault_keeps | extract_lets | split

theorem State.readBack_keeps {z s : State} (h : z.Keeps s) (n tag k : Nat) (err : Bool) :
    z.Keeps (State.readBack s n tag k err) := by
  unfold State.readBack
  repeat' first
    | with_reducible assumption | with_reducible apply State.modCluster_keeps | with_reducible apply State.land_keeps | extract_lets | split

theorem State.noteError_keeps {z s : State} (h : z.Keeps s) (r : Req) (k : Nat) (opid : W32) (stat : BitVec 2) :
    z.Keeps (State.noteError s r k opid stat) := by
  unfold State.noteError
  repeat' first
    | with_reducible assumption | with_reducible apply State.note_keeps

theorem State.builtinError_keeps {z s : State} (h : z.Keeps s) (opid : W32) (page : Option (Nat × Nat)) (r : Req) (k : Nat) (stat : BitVec 2) :
    z.Keeps (State.builtinError s opid page r k stat) := by
  unfold State.builtinError
  repeat' first
    | with_reducible assumption | with_reducible apply State.corruptHit_keeps | with_reducible apply State.corrupt_keeps
    | with_reducible apply State.endOp_keeps | with_reducible apply State.noteError_keeps | extract_lets | split

theorem State.lightError_keeps {z s : State} (h : z.Keeps s) (aim : Aim) (r : Req) (k : Nat) (stat : BitVec 2) :
    z.Keeps (State.lightError s aim r k stat) := by
  unfold State.lightError
  repeat' first
    | with_reducible assumption | with_reducible apply State.modTr_keeps | with_reducible apply State.classP_keeps
    | with_reducible apply State.finish_keeps | with_reducible apply State.endOp_keeps | with_reducible apply State.kill_keeps
    | with_reducible apply State.noteError_keeps | extract_lets | split

theorem State.walkOn_keeps {z s : State} (h : z.Keeps s) (aim : Aim) (space : Nat) :
    z.Keeps (State.walkOn s aim space) := by
  unfold State.walkOn
  repeat' first
    | with_reducible assumption | with_reducible apply State.walkRead_keeps | split

theorem State.readCounts_keeps {z s : State} (h : z.Keeps s) (r : Req) :
    z.Keeps (State.readCounts s r) := by
  unfold State.readCounts
  repeat' first
    | with_reducible assumption | with_reducible apply State.meterEvent_keeps | split

theorem State.readCached_keeps {z s : State} (h : z.Keeps s) (n : Nat) (r : Req) :
    z.Keeps (State.readCached s n r) := by
  unfold State.readCached
  repeat' first
    | with_reducible assumption | with_reducible apply State.modCluster_keeps | split

theorem execReadReturn_keeps {z s : State} (h : z.Keeps s) (k : Fin 16) (tag : BitVec 10) (stat : BitVec 2) :
    Res.Keeps z (execReadReturn k tag stat s) := by
  unfold execReadReturn
  repeat' first
    | with_reducible assumption | with_reducible apply State.modCluster_keeps | with_reducible apply State.meterEvent_keeps
    | with_reducible apply State.modPort_keeps | with_reducible apply State.tagLight_keeps | with_reducible apply State.light_keeps
    | with_reducible apply State.streamError_keeps | with_reducible apply State.readBack_keeps
    | with_reducible apply State.builtinError_keeps | with_reducible apply State.lightError_keeps | with_reducible apply State.walkOn_keeps
    | with_reducible apply State.readCounts_keeps | with_reducible apply State.readCached_keeps | with_reducible apply Res.Keeps.next
    | extract_lets | split

theorem State.scramble_keeps {z s : State} (h : z.Keeps s) (pa len : Nat) :
    z.Keeps (State.scramble s pa len) := by
  exact (h.memSet (fun hm => writeBytes_wf hm _ _)).ctr (Nat.le_add_right _ _)

theorem State.settleWrite_keeps {z s : State} (h : z.Keeps s) (r : Req) (stat : BitVec 2) : z.Keeps (s.settleWrite r stat) := by
  unfold State.settleWrite
  split
  · exact h.memSet (fun hm => writeBytes_wf hm _ _)
  · exact State.scramble_keeps h _ _

theorem execWriteCompletion_keeps {z s : State} (h : z.Keeps s) (k : Fin 16) (tag : BitVec 9) (stat : BitVec 2) :
    Res.Keeps z (execWriteCompletion k tag stat s) := by
  unfold execWriteCompletion
  repeat' first
    | with_reducible assumption | with_reducible apply State.modCluster_keeps | with_reducible apply State.modPort_keeps
    | with_reducible apply State.tagLight_keeps | with_reducible apply State.light_keeps | with_reducible apply State.streamError_keeps
    | with_reducible apply State.lightError_keeps | with_reducible apply State.scramble_keeps | with_reducible apply State.settleWrite_keeps
    | with_reducible apply Res.Keeps.next | extract_lets | split

end Sys2Proof.Machine
end

