-- ==== Sys2Proof/Laws/KeepsRings.lean ====
section
/-! SUPPORT. `State.Keeps` for the operations of Machine/Rings.lean. -/

namespace Sys2Proof.Machine

theorem State.enableRing_keeps {z s : State} (h : z.Keeps s) (v : W64) :
    z.Keeps (State.enableRing s v) := by
  unfold State.enableRing
  repeat' first
    | with_reducible assumption | with_reducible apply State.setRing_keeps | with_reducible apply State.takeUpPool_keeps | extract_lets
    | split

theorem State.disableRing_keeps {z s : State} (h : z.Keeps s) (v : W64) :
    z.Keeps (State.disableRing s v) := by
  unfold State.disableRing
  repeat' first
    | with_reducible assumption | with_reducible apply State.setRing_keeps | extract_lets | split

theorem State.ringBell_keeps {z s : State} (h : z.Keeps s) (n : Nat) (v : W64) :
    z.Keeps (State.ringBell s n v) := by
  unfold State.ringBell
  repeat' first
    | with_reducible assumption | with_reducible apply State.setRing_keeps | with_reducible apply State.note_keeps | extract_lets | split

theorem State.prewake_keeps {z s : State} (h : z.Keeps s) (p : Nat) (c : Cmd) :
    z.Keeps (State.prewake s p c) := by
  unfold State.prewake
  repeat' first
    | with_reducible assumption | with_reducible apply State.modWeir_keeps | with_reducible apply State.requestClock_keeps
    | with_reducible refine State.Keeps.fold ?_ (fun _ _ _ => ?_) | extract_lets | split

theorem State.fetchBlock_keeps {z s : State} (h : z.Keeps s) (p : Nat) (c : Cmd) :
    z.Keeps (State.fetchBlock s p c) := by
  unfold State.fetchBlock
  repeat' first
    | with_reducible assumption | with_reducible apply State.light_keeps | split

theorem State.fetchFrom_keeps {z s : State} (h : z.Keeps s) (n : Nat) :
    z.Keeps (State.fetchFrom s n) := by
  unfold State.fetchFrom
  repeat' first
    | with_reducible assumption | with_reducible apply State.setRing_keeps | with_reducible apply State.tlbTouch_keeps
    | with_reducible apply State.light_keeps | with_reducible apply State.classP_keeps | with_reducible apply State.stage_keeps
    | with_reducible apply State.prewake_keeps | with_reducible apply State.fetchBlock_keeps | extract_lets | split

theorem State.fetchNext_keeps {z s : State} (h : z.Keeps s) :
    z.Keeps (State.fetchNext s) := by
  unfold State.fetchNext
  repeat' first
    | with_reducible assumption | with_reducible apply State.modHw_keeps | with_reducible apply State.fetchFrom_keeps | extract_lets | split

theorem execCommandFetch_keeps {z s : State} (h : z.Keeps s) :
    Res.Keeps z (execCommandFetch s) := by
  unfold execCommandFetch
  repeat' first
    | with_reducible assumption | with_reducible apply State.fetchNext_keeps | with_reducible apply Res.Keeps.next | split

theorem State.retryBacklog_keeps {z s : State} (h : z.Keeps s) (p : Nat) :
    z.Keeps (State.retryBacklog s p) := by
  unfold State.retryBacklog
  repeat' first
    | with_reducible assumption | with_reducible apply State.modStaged_keeps | with_reducible apply State.setBacklog_keeps
    | with_reducible apply State.recountFor_keeps | with_reducible apply State.residency_keeps | with_reducible apply State.frontEnd_keeps
    | with_reducible refine State.Keeps.snd (by with_reducible assumption) ?_ | split

theorem execBacklogRetry_keeps {z s : State} (h : z.Keeps s) (p : Fin 16) :
    Res.Keeps z (execBacklogRetry p s) := by
  unfold execBacklogRetry
  repeat' first
    | with_reducible assumption | with_reducible apply State.retryBacklog_keeps | with_reducible apply Res.Keeps.next | split

end Sys2Proof.Machine
end

