-- ==== Sys2Proof/Laws/KeepsSequences.lean ====
section
/-! SUPPORT. `State.Keeps` for the operations of Machine/Sequences.lean. -/

namespace Sys2Proof.Machine

/-- Every state that the taking of groups answers keeps what must be kept. -/
def Need.Keeps (z : State) : Need → Prop
  | .ok s => z.Keeps s
  | .copying s => z.Keeps s
  | .wait => True
  | .famine => True
  | .overflow => True
  | .corrupt _ => True
  | .killed _ => True
  | .held _ => True

theorem Need.Keeps.ofOk {z s : State} {x : Need} (e : x = .ok s) (h : Need.Keeps z x) : z.Keeps s := by subst e; exact h

theorem Need.Keeps.ofCopying {z s : State} {x : Need} (e : x = .copying s) (h : Need.Keeps z x) : z.Keeps s := by subst e; exact h

theorem State.addRef_keeps {z s : State} (h : z.Keeps s) (p g : Nat) :
    z.Keeps (State.addRef s p g) := by
  unfold State.addRef
  repeat' first
    | with_reducible assumption | with_reducible apply State.modPg_keeps | with_reducible apply State.judgeFamine_keeps

theorem State.newSeq_keeps {z s : State} (h : z.Keeps s) (p q : Nat) (c : Cmd) (map prio bt prompt reused : Nat) (epoch : W16) :
    z.Keeps (State.newSeq s p q c map prio bt prompt reused epoch).2 := by
  unfold State.newSeq
  repeat' first
    | with_reducible assumption | with_reducible apply State.draw_keeps

theorem State.admitMap_keeps {z s : State} (h : z.Keeps s) (p : Nat) (c : Cmd) :
    z.Keeps (State.admitMap s p c).2 := by
  unfold State.admitMap
  repeat' first
    | with_reducible assumption | with_reducible apply State.modPool_keeps | with_reducible apply State.setSeq_keeps
    | with_reducible apply State.meterEvent_keeps | with_reducible apply State.addRef_keeps | with_reducible apply State.newSeq_keeps
    | with_reducible refine State.Keeps.fold ?_ (fun _ _ _ => ?_)

theorem State.admitSeq_keeps {z s : State} (h : z.Keeps s) (p : Nat) (c : Cmd) :
    z.Keeps (State.admitSeq s p c) := by
  unfold State.admitSeq
  repeat' first
    | with_reducible assumption | with_reducible apply State.obtainSlot_keeps | with_reducible apply State.defer_keeps
    | with_reducible apply State.finishNow_keeps | with_reducible apply State.admitMap_keeps
    | with_reducible refine State.Keeps.snd (by with_reducible assumption) ?_ | extract_lets | split

theorem execAdmit_keeps {z s : State} (h : z.Keeps s) (c : Cmd) :
    Res.Keeps z (execAdmit c s) := by
  unfold execAdmit
  repeat' first
    | with_reducible assumption | with_reducible apply State.ringRow_keeps | with_reducible apply State.admitSeq_keeps | intro _ _ _ _
    | intro _ _ _ | intro _ _ | with_reducible apply Res.Keeps.next

theorem State.admitOp_keeps {z s : State} (h : z.Keeps s) (p : Nat) (c : Cmd) :
    z.Keeps (State.admitOp s p c).2 := by
  unfold State.admitOp
  repeat' first
    | with_reducible assumption | with_reducible apply State.startOp_keeps | with_reducible apply State.unstage_keeps
    | with_reducible apply State.takeOpid_keeps | with_reducible apply State.startOpAt_keeps

theorem State.releaseSeq_keeps {z s : State} (h : z.Keeps s) (o : Op) :
    z.Keeps (State.releaseSeq s o) := by
  unfold State.releaseSeq
  repeat' first
    | with_reducible assumption | with_reducible apply State.finish_keeps | with_reducible apply State.takeOpid_keeps
    | with_reducible apply State.recordAccess_keeps | with_reducible apply State.releaseNow_keeps | with_reducible apply State.endOp_keeps

theorem State.admitRelease_keeps {z s : State} (h : z.Keeps s) (p : Nat) (c : Cmd) :
    z.Keeps (State.admitRelease s p c) := by
  unfold State.admitRelease
  repeat' first
    | with_reducible assumption | with_reducible apply State.modStaged_keeps | with_reducible apply State.modSeq_keeps
    | with_reducible apply State.recordAccess_keeps | with_reducible apply State.admitOp_keeps | with_reducible apply State.releaseSeq_keeps
    | with_reducible refine State.Keeps.snd (by with_reducible assumption) ?_ | extract_lets | split

theorem State.releaseReady_keeps {z s : State} (h : z.Keeps s) (o : Op) :
    z.Keeps (State.releaseReady s o) := by
  unfold State.releaseReady
  repeat' first
    | with_reducible assumption | with_reducible apply State.releaseSeq_keeps | split

theorem execRelease_keeps {z s : State} (h : z.Keeps s) (c : Cmd) :
    Res.Keeps z (execRelease c s) := by
  unfold execRelease
  repeat' first
    | with_reducible assumption | with_reducible apply State.releaseSeq_keeps | with_reducible apply State.ringRow_keeps
    | with_reducible apply State.admitRelease_keeps | with_reducible apply State.releaseReady_keeps | intro _ _ _ _ | intro _ _ _
    | intro _ _ | with_reducible apply Res.Keeps.next | split

theorem State.forkSeq_keeps {z s : State} (h : z.Keeps s) (p : Nat) (c : Cmd) :
    z.Keeps (State.forkSeq s p c) := by
  unfold State.forkSeq
  repeat' first
    | with_reducible assumption | with_reducible apply State.setSeq_keeps | with_reducible apply State.meterEvent_keeps
    | with_reducible apply State.obtainSlot_keeps | with_reducible apply State.defer_keeps | with_reducible apply State.finishNow_keeps
    | with_reducible apply State.addRef_keeps | with_reducible apply State.newSeq_keeps
    | with_reducible refine State.Keeps.fold ?_ (fun _ _ _ => ?_) | with_reducible refine State.Keeps.snd (by with_reducible assumption) ?_
    | extract_lets | split

theorem execFork_keeps {z s : State} (h : z.Keeps s) (c : Cmd) :
    Res.Keeps z (execFork c s) := by
  unfold execFork
  repeat' first
    | with_reducible assumption | with_reducible apply State.ringRow_keeps | with_reducible apply State.forkSeq_keeps | intro _ _ _ _
    | intro _ _ _ | intro _ _ | with_reducible apply Res.Keeps.next

theorem State.writeTok_keeps {z s : State} (h : z.Keeps s) (training : Bool) (p q l pos tok : Nat) (x : KvTok) :
    z.Keeps (State.writeTok s training p q l pos tok x).1 := by
  unfold State.writeTok
  repeat' first
    | with_reducible assumption | with_reducible apply State.vaWrite_keeps | extract_lets | split

theorem State.writeToks_keeps {z s : State} (h : z.Keeps s) (training : Bool) (p q l start : Nat) (toks : List Nat) (xs : List KvTok) :
    z.Keeps (State.writeToks s training p q l start toks xs).1 := by
  unfold State.writeToks
  exact State.Keeps.fold1 h (fun a x ha => State.writeTok_keeps ha _ _ _ _ _ _ _)

theorem State.takeBlocks_keeps {z s : State} (h : z.Keeps s) (p q n k : Nat) (opid : W32) :
    Need.Keeps z (State.takeBlocks s p q n k opid) := by
  induction n generalizing s k with
  | zero => unfold State.takeBlocks; split <;> exact h
  | succ n ih =>
    unfold State.takeBlocks
    split
    · split
      · exact ih h _
      · split
        · exact ih (State.modPg_keeps (State.Keeps.snd ‹_› (State.newGroup_keeps h _ _)) _ _ _) _
        · exact trivial
        · exact trivial
    · split
      · exact ih (State.modSeq_keeps (State.Keeps.snd ‹_› (State.newGroup_keeps h _ _)) _ _ _) _
      · exact trivial
      · exact trivial

theorem State.judgeNeed_keeps {z : State} {r : Need} (h : Need.Keeps z r) (s : State) (p q l : Nat) (ks : List Nat) (opid : W32) :
    Need.Keeps z (State.judgeNeed s p q l ks opid r) := by
  unfold State.judgeNeed
  extract_lets vs
  split
  · exact trivial
  · exact trivial
  · exact h

theorem State.needBlocks_keeps {z s : State} (h : z.Keeps s) (p q l start n : Nat) (opid : W32) :
    Need.Keeps z (State.needBlocks s p q l start n opid) := by
  unfold State.needBlocks
  extract_lets d k0 k1 ks held
  split
  · exact trivial
  split
  · exact trivial
  split
  · exact trivial
  have k := State.takeBlocks_keeps h p q (k1 - k0 + 1) k0 opid
  split
  · exact State.judgeNeed_keeps (r := .ok _) (Need.Keeps.ofOk ‹_› k) _ _ _ _ _ _
  · exact State.judgeNeed_keeps (r := .copying _) (Need.Keeps.ofCopying ‹_› k) _ _ _ _ _ _
  · exact k

theorem State.appendWrite_keeps {z s : State} (h : z.Keeps s) (opid : W32) :
    z.Keeps (State.appendWrite s opid) := by
  unfold State.appendWrite
  repeat' first
    | with_reducible assumption | with_reducible apply State.modSeq_keeps | with_reducible apply State.meterEvent_keeps
    | with_reducible apply State.setOp_keeps | with_reducible apply State.refill_keeps | with_reducible apply State.famineAct_keeps
    | with_reducible apply State.endOp_keeps | with_reducible apply State.writeToks_keeps
    | with_reducible refine State.Keeps.snd (by with_reducible assumption) ?_
    | with_reducible refine State.Keeps.fst (by with_reducible assumption) ?_ | extract_lets | split

theorem State.appendKv_keeps {z s : State} (h : z.Keeps s) (p : Nat) (c : Cmd) :
    z.Keeps (State.appendKv s p c) := by
  unfold State.appendKv
  repeat' first
    | with_reducible assumption | with_reducible apply State.pause_keeps | with_reducible apply State.corruptHit_keeps
    | with_reducible apply State.corrupt_keeps | with_reducible apply State.famineAct_keeps | with_reducible apply State.modStaged_keeps
    | with_reducible apply State.killCmd_keeps | with_reducible apply State.finishNow_keeps | with_reducible apply State.overflow_keeps
    | with_reducible apply State.admitOp_keeps | with_reducible apply State.needBlocks_keeps | with_reducible apply State.appendWrite_keeps
    | with_reducible refine State.Keeps.snd (by with_reducible assumption) ?_
    | with_reducible refine Need.Keeps.ofOk (by with_reducible assumption) ?_
    | with_reducible refine Need.Keeps.ofCopying (by with_reducible assumption) ?_ | extract_lets | split

theorem execAppendKv_keeps {z s : State} (h : z.Keeps s) (c : Cmd) :
    Res.Keeps z (execAppendKv c s) := by
  unfold execAppendKv
  repeat' first
    | with_reducible assumption | with_reducible apply State.ringRow_keeps | with_reducible apply State.appendKv_keeps | intro _ _ _ _
    | intro _ _ _ | intro _ _ | with_reducible apply Res.Keeps.next

theorem State.cowDone_keeps {z s : State} (h : z.Keeps s) (p q k old g : Nat) :
    z.Keeps (State.cowDone s p q k old g) := by
  unfold State.cowDone
  repeat' first
    | with_reducible assumption | with_reducible apply State.modPool_keeps | with_reducible apply State.vaWrite_keeps
    | with_reducible apply State.modSeq_keeps | with_reducible apply State.modPg_keeps | with_reducible apply State.dropRef_keeps

theorem State.trimEntries_keeps {z s : State} (h : z.Keeps s) (p q : Nat) :
    z.Keeps (State.trimEntries s p q) := by
  unfold State.trimEntries
  repeat' first
    | with_reducible assumption | with_reducible apply State.clearFrom_keeps

theorem State.cowFailed_keeps {z s : State} (h : z.Keeps s) (p g k : Nat) (o : Op) (old : Nat) (rd : Bool) (stat : BitVec 2) :
    z.Keeps (State.cowFailed s p g k o old rd stat) := by
  unfold State.cowFailed
  repeat' first
    | with_reducible assumption | with_reducible apply State.note_keeps | with_reducible apply State.modPg_keeps
    | with_reducible apply State.dropRef_keeps | with_reducible apply State.corruptHit_keeps | with_reducible apply State.corrupt_keeps
    | with_reducible apply State.endOp_keeps | with_reducible apply State.trimEntries_keeps | extract_lets | split

theorem execCowCopyDone_keeps {z s : State} (h : z.Keeps s) (p : Fin 16) (g : Nat) (r : CopyResult) :
    Res.Keeps z (execCowCopyDone p g r s) := by
  unfold execCowCopyDone
  repeat' first
    | with_reducible assumption | with_reducible apply State.appendWrite_keeps | with_reducible apply State.cowDone_keeps
    | with_reducible apply State.cowFailed_keeps | with_reducible apply Res.Keeps.next | extract_lets | split

theorem State.commit_keeps {z s : State} (h : z.Keeps s) (p : Nat) (c : Cmd) :
    z.Keeps (State.commit s p c) := by
  unfold State.commit
  repeat' first
    | with_reducible assumption | with_reducible apply State.meterEvent_keeps | with_reducible apply State.endTail_keeps
    | with_reducible apply State.finishNow_keeps | extract_lets | split

theorem execSpecCommit_keeps {z s : State} (h : z.Keeps s) (c : Cmd) :
    Res.Keeps z (execSpecCommit c s) := by
  unfold execSpecCommit
  repeat' first
    | with_reducible assumption | with_reducible apply State.ringRow_keeps | with_reducible apply State.commit_keeps | intro _ _ _ _
    | intro _ _ _ | intro _ _ | with_reducible apply Res.Keeps.next

theorem State.abort_keeps {z s : State} (h : z.Keeps s) (p : Nat) (c : Cmd) :
    z.Keeps (State.abort s p c) := by
  unfold State.abort
  repeat' first
    | with_reducible assumption | with_reducible apply State.endTail_keeps | with_reducible apply State.finishNow_keeps

theorem execSpecAbort_keeps {z s : State} (h : z.Keeps s) (c : Cmd) :
    Res.Keeps z (execSpecAbort c s) := by
  unfold execSpecAbort
  repeat' first
    | with_reducible assumption | with_reducible apply State.ringRow_keeps | with_reducible apply State.abort_keeps | intro _ _ _ _
    | intro _ _ _ | intro _ _ | with_reducible apply Res.Keeps.next

end Sys2Proof.Machine
end

