-- ==== Sys2Proof/Laws/KeepsCopies.lean ====
section
/-! SUPPORT. `State.Keeps` for the operations of Machine/Copies.lean. -/

namespace Sys2Proof.Machine

/-- The state of a cover that waits keeps what must be kept. -/
def Cover.Keeps (z : State) : Cover → Prop
  | .wait s => z.Keeps s
  | .ready => True
  | .corrupt _ => True
  | .famine => True

theorem Cover.Keeps.wait {z s : State} (h : z.Keeps s) : Cover.Keeps z (.wait s) := h

theorem Cover.Keeps.ready (z : State) : Cover.Keeps z .ready := trivial

theorem Cover.Keeps.famine (z : State) : Cover.Keeps z .famine := trivial

theorem Cover.Keeps.corrupt (z : State) (k : Nat) : Cover.Keeps z (.corrupt k) := trivial

theorem Cover.Keeps.ofWait {z s : State} {x : Cover} (e : x = .wait s) (h : Cover.Keeps z x) : z.Keeps s := by subst e; exact h

theorem State.startRestore_keeps {z s : State} (h : z.Keeps s) (p q g : Nat) (forCmd : Option W32) :
    z.Keeps (State.startRestore s p q g forCmd).2 := by
  unfold State.startRestore
  repeat' first
    | with_reducible assumption | with_reducible apply State.modPg_keeps | with_reducible apply State.judgeFamine_keeps
    | with_reducible apply State.allocFrame_keeps | with_reducible apply State.askCopy_keeps
    | with_reducible refine State.Keeps.snd (by with_reducible assumption) ?_ | extract_lets | split

theorem State.restoreAll_keeps {z s : State} (h : z.Keeps s) (p q : Nat) (gs : List Nat) :
    z.Keeps (State.restoreAll s p q gs).2 := by
  unfold State.restoreAll
  refine State.Keeps.fold2 h (fun a x ha => ?_)
  split
  · exact ha
  split
  · exact State.startRestore_keeps ha _ _ _ _
  · exact ha

theorem State.cover_keeps {z s : State} (h : z.Keeps s) (p q : Nat) (ks : List Nat) :
    Cover.Keeps z (State.cover s p q ks) := by
  unfold State.cover
  repeat' first
    | with_reducible assumption | with_reducible apply State.corrupt_keeps | with_reducible apply State.restoreAll_keeps
    | with_reducible apply State.cold_keeps | with_reducible apply Cover.Keeps.wait | with_reducible apply Cover.Keeps.ready
    | with_reducible apply Cover.Keeps.famine | with_reducible apply Cover.Keeps.corrupt
    | with_reducible refine State.Keeps.snd (by with_reducible assumption) ?_ | extract_lets | split

theorem State.waitCold_keeps {z s : State} (h : z.Keeps s) (c : Cmd) :
    z.Keeps (State.waitCold s c) := by
  unfold State.waitCold
  repeat' first
    | with_reducible assumption | with_reducible apply State.modStaged_keeps

theorem State.covered_keeps {z s : State} (h : z.Keeps s) (p : Nat) (c : Cmd) (ks : List Nat) (go : State → State) (hg : ∀ t, z.Keeps t → z.Keeps (go t)) :
    z.Keeps (State.covered s p c ks go) := by
  unfold State.covered
  repeat' first
    | with_reducible assumption | with_reducible apply hg | with_reducible apply State.pause_keeps | with_reducible apply State.corruptHit_keeps
    | with_reducible apply State.corrupt_keeps | with_reducible apply State.famineAct_keeps | with_reducible apply State.finishNow_keeps
    | with_reducible apply State.cover_keeps | with_reducible apply State.waitCold_keeps
    | with_reducible refine Cover.Keeps.ofWait (by with_reducible assumption) ?_
    | with_reducible refine State.Keeps.snd (by with_reducible assumption) ?_ | extract_lets | split

theorem State.settleJobs_keeps {z s : State} (h : z.Keeps s) (p : Nat) :
    z.Keeps (State.settleJobs s p) := by
  unfold State.settleJobs
  repeat' first
    | with_reducible assumption | with_reducible apply State.modPool_keeps | with_reducible apply State.endOp_keeps
    | with_reducible refine State.Keeps.fold ?_ (fun _ _ _ => ?_)

theorem State.copied_keeps {z s : State} (h : z.Keeps s) (p : Nat) (job : Option W32) (done other : Nat) :
    z.Keeps (State.copied s p job done other) := by
  unfold State.copied
  repeat' first
    | with_reducible assumption | with_reducible apply State.modPool_keeps | with_reducible apply State.settleJobs_keeps | split

theorem State.copyVa_keeps {z s : State} (h : z.Keeps s) (p src dst n : Nat) :
    z.Keeps (State.copyVa s p src dst n) := by
  unfold State.copyVa
  repeat' first
    | with_reducible assumption | with_reducible apply State.vaWrite_keeps

theorem State.copyError_keeps {z s : State} (h : z.Keeps s) (p : Nat) (opid : W32) (stat : BitVec 2) (wr : Bool) (va : Nat) :
    z.Keeps (State.copyError s p opid stat wr va) := by
  unfold State.copyError
  repeat' first
    | with_reducible assumption | with_reducible apply State.note_keeps

theorem State.evictAll_keeps {z s : State} (h : z.Keeps s) (p : Nat) (opid : W32) (gs : List Nat) :
    z.Keeps (State.evictAll s p opid gs).2 := by
  unfold State.evictAll
  refine State.Keeps.fold2 h (fun a x ha => ?_)
  split
  · split <;> exact State.Keeps.snd ‹_› (State.startEvict_keeps ha _ _ _)
  · exact ha

theorem State.admitEvict_keeps {z s : State} (h : z.Keeps s) (p : Nat) (c : Cmd) :
    z.Keeps (State.admitEvict s p c) := by
  unfold State.admitEvict
  repeat' first
    | with_reducible assumption | with_reducible apply State.modPool_keeps | with_reducible apply State.admitOp_keeps
    | with_reducible apply State.settleJobs_keeps | with_reducible apply State.evictAll_keeps

theorem execEvict_keeps {z s : State} (h : z.Keeps s) (c : Cmd) :
    Res.Keeps z (execEvict c s) := by
  unfold execEvict
  repeat' first
    | with_reducible assumption | with_reducible apply State.ringRow_keeps | with_reducible apply State.admitEvict_keeps | intro _ _ _ _
    | intro _ _ _ | intro _ _ | with_reducible apply Res.Keeps.next

theorem State.evicted_keeps {z s : State} (h : z.Keeps s) (p g slot : Nat) :
    z.Keeps (State.evicted s p g slot) := by
  unfold State.evicted
  repeat' first
    | with_reducible assumption | with_reducible apply State.cold_keeps | with_reducible apply State.modPool_keeps
    | with_reducible apply State.meterEvent_keeps | with_reducible apply State.setPg_keeps | with_reducible apply State.judgeFamine_keeps
    | with_reducible apply State.unreferenced_keeps | with_reducible apply State.copied_keeps | with_reducible apply State.copyVa_keeps
    | extract_lets | split

theorem execEvictCopyDone_keeps {z s : State} (h : z.Keeps s) (p : Fin 16) (g : Nat) (r : CopyResult) :
    Res.Keeps z (execEvictCopyDone p g r s) := by
  unfold execEvictCopyDone
  repeat' first
    | with_reducible assumption | with_reducible apply State.setPg_keeps | with_reducible apply State.judgeFamine_keeps
    | with_reducible apply State.unreferenced_keeps | with_reducible apply State.corrupt_keeps | with_reducible apply State.famineAct_keeps
    | with_reducible apply State.copied_keeps | with_reducible apply State.copyError_keeps | with_reducible apply State.evicted_keeps
    | with_reducible apply Res.Keeps.next | extract_lets | split

/-- A fold whose accumulator carries the state third. -/
theorem restoreFold_keeps {z : State} {f : Nat × Bool × State → Nat → Nat × Bool × State}
    (hf : ∀ a x, z.Keeps a.2.2 → z.Keeps (f a x).2.2) (xs : List Nat) (a : Nat × Bool × State) (ha : z.Keeps a.2.2) :
    z.Keeps (xs.foldl f a).2.2 := by
  induction xs generalizing a with
  | nil => exact ha
  | cons x xs ih => exact ih _ (hf a x ha)

theorem State.restoreRange_keeps {z s : State} (h : z.Keeps s) (p q : Nat) (opid : W32) (gs : List Nat) :
    z.Keeps (State.restoreRange s p q opid gs).2.2 := by
  unfold State.restoreRange
  refine restoreFold_keeps ?_ gs (0, false, s) h
  intro a x ha
  split
  · exact ha
  · split <;> exact State.Keeps.snd ‹_› (State.startRestore_keeps ha _ _ _ _)

theorem State.admitRestore_keeps {z s : State} (h : z.Keeps s) (p : Nat) (c : Cmd) :
    z.Keeps (State.admitRestore s p c) := by
  unfold State.admitRestore
  repeat' first
    | with_reducible assumption | with_reducible apply State.modPool_keeps | with_reducible apply State.pause_keeps
    | with_reducible apply State.famineAct_keeps | with_reducible apply State.modOp_keeps | with_reducible apply State.admitOp_keeps
    | with_reducible apply State.settleJobs_keeps | with_reducible apply State.restoreRange_keeps
    | with_reducible refine State.Keeps.snd (by with_reducible assumption) ?_ | extract_lets | split

theorem execRestore_keeps {z s : State} (h : z.Keeps s) (c : Cmd) :
    Res.Keeps z (execRestore c s) := by
  unfold execRestore
  repeat' first
    | with_reducible assumption | with_reducible apply State.ringRow_keeps | with_reducible apply State.admitRestore_keeps | intro _ _ _ _
    | intro _ _ _ | intro _ _ | with_reducible apply Res.Keeps.next

theorem State.rouse_keeps {z s : State} (h : z.Keeps s) (p : Nat) :
    z.Keeps (State.rouse s p) := by
  unfold State.rouse
  repeat' first
    | with_reducible assumption | with_reducible apply State.modHw_keeps

theorem State.restoreFailed_keeps {z s : State} (h : z.Keeps s) (p g va : Nat) :
    z.Keeps (State.restoreFailed s p g va) := by
  unfold State.restoreFailed
  repeat' first
    | with_reducible assumption | with_reducible apply State.endOp_keeps | with_reducible apply State.finishNow_keeps
    | with_reducible refine State.Keeps.fold ?_ (fun _ _ _ => ?_)

theorem State.restored_keeps {z s : State} (h : z.Keeps s) (p g f : Nat) :
    z.Keeps (State.restored s p g f) := by
  unfold State.restored
  repeat' first
    | with_reducible assumption | with_reducible apply State.modPool_keeps | with_reducible apply State.meterEvent_keeps
    | with_reducible apply State.setPg_keeps | with_reducible apply State.judgeFamine_keeps | with_reducible apply State.unreferenced_keeps
    | with_reducible apply State.corrupt_keeps | with_reducible apply State.copied_keeps | with_reducible apply State.copyVa_keeps
    | with_reducible apply State.rouse_keeps | extract_lets | split

theorem execRestoreCopyDone_keeps {z s : State} (h : z.Keeps s) (p : Fin 16) (g : Nat) (r : CopyResult) :
    Res.Keeps z (execRestoreCopyDone p g r s) := by
  unfold execRestoreCopyDone
  repeat' first
    | with_reducible assumption | with_reducible apply State.cold_keeps | with_reducible apply State.setPg_keeps
    | with_reducible apply State.judgeFamine_keeps | with_reducible apply State.unreferenced_keeps
    | with_reducible apply State.corrupt_keeps | with_reducible apply State.copied_keeps | with_reducible apply State.copyError_keeps
    | with_reducible apply State.rouse_keeps | with_reducible apply State.restoreFailed_keeps | with_reducible apply State.restored_keeps
    | with_reducible apply Res.Keeps.next | extract_lets | split

theorem execCrcComputeDone_keeps {z s : State} (h : z.Keeps s) (p : Fin 16) (g : Nat) :
    Res.Keeps z (execCrcComputeDone p g s) := by
  unfold execCrcComputeDone
  repeat' first
    | with_reducible assumption | with_reducible apply State.modPool_keeps | with_reducible apply State.setPg_keeps
    | with_reducible apply State.hashIn_keeps | with_reducible apply State.writeTrailer_keeps | with_reducible apply Res.Keeps.next
    | extract_lets | split

theorem execScrubGroup_keeps {z s : State} (h : z.Keeps s) (p : Fin 16) (g : Nat) :
    Res.Keeps z (execScrubGroup p g s) := by
  unfold execScrubGroup
  repeat' first
    | with_reducible assumption | with_reducible apply State.modPool_keeps | with_reducible apply State.judgeFamine_keeps
    | with_reducible apply State.corrupt_keeps | with_reducible apply Res.Keeps.next | extract_lets | split

theorem State.progressOf_keeps {z s : State} (h : z.Keeps s) (o : Op) (permille unit pos : Nat) :
    z.Keeps (State.progressOf s o permille unit pos) := by
  unfold State.progressOf
  repeat' first
    | with_reducible assumption | with_reducible apply State.modSeq_keeps | with_reducible apply State.progress_keeps
    | with_reducible apply State.setOp_keeps | with_reducible apply State.showProgress_keeps

theorem State.askGroup_keeps {z s : State} (h : z.Keeps s) (o : Op) :
    z.Keeps (State.askGroup s o) := by
  unfold State.askGroup
  repeat' first
    | with_reducible assumption | with_reducible apply State.askCopy_keeps | extract_lets | split

theorem State.beginExport_keeps {z s : State} (h : z.Keeps s) (o : Op) :
    z.Keeps (State.beginExport s o) := by
  unfold State.beginExport
  repeat' first
    | with_reducible assumption | with_reducible apply State.pin_keeps | with_reducible apply State.endOp_keeps
    | with_reducible apply State.settleJobs_keeps | with_reducible apply State.progressOf_keeps | with_reducible apply State.askGroup_keeps
    | with_reducible refine State.Keeps.fold ?_ (fun _ _ _ => ?_) | extract_lets | split

theorem State.admitExport_keeps {z s : State} (h : z.Keeps s) (p : Nat) (c : Cmd) :
    z.Keeps (State.admitExport s p c) := by
  unfold State.admitExport
  repeat' first
    | with_reducible assumption | with_reducible apply State.setOp_keeps | with_reducible apply State.pin_keeps
    | with_reducible apply State.endOp_keeps | with_reducible apply State.settleJobs_keeps | with_reducible apply State.progressOf_keeps
    | with_reducible apply State.admitOp_keeps | with_reducible apply State.covered_keeps | with_reducible apply State.beginExport_keeps
    | intro _ _ _ _ | intro _ _ _ | intro _ _

theorem execExportGroups_keeps {z s : State} (h : z.Keeps s) (c : Cmd) :
    Res.Keeps z (execExportGroups c s) := by
  unfold execExportGroups
  repeat' first
    | with_reducible assumption | with_reducible apply State.ringRow_keeps | with_reducible apply State.admitExport_keeps | intro _ _ _ _
    | intro _ _ _ | intro _ _ | with_reducible apply Res.Keeps.next

theorem State.importGroups_keeps {z s : State} (h : z.Keeps s) (p q n k : Nat) :
    z.Keeps (State.importGroups s p q n k).2 := by
  induction n generalizing s k with
  | zero => exact h
  | succ n ih =>
    unfold State.importGroups
    split
    · exact ih (State.modSeq_keeps (State.Keeps.snd ‹_› (State.newGroup_keeps h _ _)) _ _ _) _
    · exact State.newGroup_keeps h _ _

theorem State.importSeq_keeps {z s : State} (h : z.Keeps s) (p : Nat) (c : Cmd) :
    z.Keeps (State.importSeq s p c).2 := by
  unfold State.importSeq
  repeat' first
    | with_reducible assumption | with_reducible apply State.setSeq_keeps | with_reducible apply State.newSeq_keeps
    | with_reducible apply State.importGroups_keeps

theorem State.beginImport_keeps {z s : State} (h : z.Keeps s) (o : Op) :
    z.Keeps (State.beginImport s o) := by
  unfold State.beginImport
  repeat' first
    | with_reducible assumption | with_reducible apply State.meterEvent_keeps | with_reducible apply State.famineAct_keeps
    | with_reducible apply State.endOp_keeps | with_reducible apply State.progressOf_keeps | with_reducible apply State.askGroup_keeps
    | extract_lets | split

theorem State.admitImport_keeps {z s : State} (h : z.Keeps s) (p : Nat) (c : Cmd) :
    z.Keeps (State.admitImport s p c) := by
  unfold State.admitImport
  repeat' first
    | with_reducible assumption | with_reducible apply State.setSeq_keeps | with_reducible apply State.meterEvent_keeps
    | with_reducible apply State.endOp_keeps | with_reducible apply State.newSeq_keeps | with_reducible apply State.progressOf_keeps
    | with_reducible apply State.importGroups_keeps | with_reducible apply State.famineAct_keeps
    | with_reducible apply State.obtainSlot_keeps | with_reducible apply State.defer_keeps | with_reducible apply State.finishNow_keeps
    | with_reducible apply State.admitOp_keeps | with_reducible apply State.importSeq_keeps | with_reducible apply State.beginImport_keeps
    | with_reducible refine State.Keeps.snd (by with_reducible assumption) ?_ | extract_lets | split

theorem execImportGroups_keeps {z s : State} (h : z.Keeps s) (c : Cmd) :
    Res.Keeps z (execImportGroups c s) := by
  unfold execImportGroups
  repeat' first
    | with_reducible assumption | with_reducible apply State.ringRow_keeps | with_reducible apply State.admitImport_keeps | intro _ _ _ _
    | intro _ _ _ | intro _ _ | with_reducible apply Res.Keeps.next

theorem State.groupDone_keeps {z s : State} (h : z.Keeps s) (o : Op) (total first : Nat) :
    z.Keeps (State.groupDone s o total first) := by
  unfold State.groupDone
  repeat' first
    | with_reducible assumption | with_reducible apply State.setOp_keeps | with_reducible apply State.progressOf_keeps

theorem State.exportNext_keeps {z s : State} (h : z.Keeps s) (o : Op) (r : CopyResult) :
    z.Keeps (State.exportNext s o r) := by
  unfold State.exportNext
  repeat' first
    | with_reducible assumption | with_reducible apply State.vaWrite_keeps | with_reducible apply State.corruptHit_keeps
    | with_reducible apply State.corrupt_keeps | with_reducible apply State.hideSlots_keeps | with_reducible apply State.endOp_keeps
    | with_reducible apply State.copyVa_keeps | with_reducible apply State.copyError_keeps | with_reducible apply State.askGroup_keeps
    | with_reducible apply State.groupDone_keeps | extract_lets | split | dsimp +zetaDelta only

theorem State.importDone_keeps {z s : State} (h : z.Keeps s) (o : Op) :
    z.Keeps (State.importDone s o) := by
  unfold State.importDone
  repeat' first
    | with_reducible assumption | with_reducible apply State.draw_keeps | with_reducible apply State.modSeq_keeps
    | with_reducible apply State.meterEvent_keeps | with_reducible apply State.refill_keeps | with_reducible apply State.endOp_keeps

theorem State.importNext_keeps {z s : State} (h : z.Keeps s) (o : Op) (r : CopyResult) :
    z.Keeps (State.importNext s o r) := by
  unfold State.importNext
  repeat' first
    | with_reducible assumption | with_reducible apply State.corrupt_keeps | with_reducible apply State.releaseNow_keeps
    | with_reducible apply State.endOp_keeps | with_reducible apply State.copyVa_keeps | with_reducible apply State.copyError_keeps
    | with_reducible apply State.askGroup_keeps | with_reducible apply State.groupDone_keeps | with_reducible apply State.importDone_keeps
    | extract_lets | split | dsimp +zetaDelta only

theorem State.beginCopy_keeps {z s : State} (h : z.Keeps s) (o : Op) :
    z.Keeps (State.beginCopy s o) := by
  unfold State.beginCopy
  extract_lets p c
  split
  · exact State.endOp_keeps h _ _ _ _
  split
  · have k := State.cover_keeps h p (sqidOf c) (s.coverBlocks p c)
    split
    · exact State.beginExport_keeps h _
    · exact State.setOp_keeps (Cover.Keeps.ofWait ‹_› k) _
    · exact State.famineAct_keeps (State.endOp_keeps (State.pause_keeps h _ _) _ _ _ _) _
    · exact State.endOp_keeps (State.corruptHit_keeps h _ _ _) _ _ _ _
  split
  · exact h
  split
  · exact State.endOp_keeps h _ _ _ _
  split
  · exact State.Keeps.snd ‹_› (State.obtainSlot_keeps h _ _)
  next s0 e =>
    have k0 : z.Keeps s0 := State.Keeps.snd e (State.obtainSlot_keeps h _ _)
    split
    · exact State.endOp_keeps h _ _ _ _
    · exact State.famineAct_keeps (State.endOp_keeps h _ _ _ _) _
    · exact State.beginImport_keeps (State.countIn_keeps (State.Keeps.snd ‹_› (State.importSeq_keeps k0 _ _)) _) _

theorem execGroupCopyDone_keeps {z s : State} (h : z.Keeps s) (opid : W32) (r : CopyResult) :
    Res.Keeps z (execGroupCopyDone opid r s) := by
  unfold execGroupCopyDone
  repeat' first
    | with_reducible assumption | with_reducible apply State.haltOp_keeps | with_reducible apply State.exportNext_keeps
    | with_reducible apply State.importNext_keeps | with_reducible apply State.beginCopy_keeps | with_reducible apply Res.Keeps.next
    | extract_lets | split

end Sys2Proof.Machine
end

