-- ==== Sys2Proof/Laws/KeepsAttend.lean ====
section
/-! SUPPORT. `State.Keeps` for the operations of Machine/Attend.lean. -/

namespace Sys2Proof.Machine

theorem State.builtinReads_keeps {z s : State} (h : z.Keeps s) (p : Nat) :
    z.Keeps (State.builtinReads s p) := by
  unfold State.builtinReads
  repeat' first
    | with_reducible assumption | with_reducible apply State.draw_keeps | with_reducible apply State.meterEvent_keeps

theorem State.putRows_keeps {z s : State} (h : z.Keeps s) (o : Op) (addr row0 total dim : Nat) (x : OutParts) :
    z.Keeps (State.putRows s o addr row0 total dim x) := by
  unfold State.putRows
  repeat' first
    | with_reducible assumption | with_reducible apply State.vaWrite_keeps | extract_lets | split

theorem State.meterAttn_keeps {z s : State} (h : z.Keeps s) (o : Op) :
    z.Keeps (State.meterAttn s o) := by
  unfold State.meterAttn
  repeat' first
    | with_reducible assumption | with_reducible apply State.meterEvent_keeps | extract_lets | split | dsimp +zetaDelta only

theorem State.closeOp_keeps {z s : State} (h : z.Keeps s) (opid : W32) :
    z.Keeps (State.closeOp s opid) := by
  unfold State.closeOp
  repeat' first
    | with_reducible assumption | with_reducible apply State.setOp_keeps | with_reducible apply State.endOp_keeps
    | with_reducible apply State.meterAttn_keeps | extract_lets | split

theorem State.sendTiles_keeps {z s : State} (h : z.Keeps s) (fuel : Nat) (opid : W32) :
    z.Keeps (State.sendTiles fuel s opid) := by
  induction fuel generalizing s with
  | zero => exact h
  | succ m ih =>
    unfold State.sendTiles
    split
    · exact h
    split
    · exact h
    extract_lets k n room s1
    split
    · exact h
    · exact ih (State.flitsLeave_keeps (State.setOp_keeps (State.sendTile_keeps h _ _ _ _ _) _) _ _ _ _)

theorem State.drainOut_keeps {z s : State} (h : z.Keeps s) (opid : W32) :
    z.Keeps (State.drainOut s opid) := by
  unfold State.drainOut
  repeat' first
    | with_reducible assumption | with_reducible apply State.closeOp_keeps | with_reducible apply State.sendTiles_keeps | extract_lets
    | split

theorem State.writeRoot_keeps {z s : State} (h : z.Keeps s) (o : Op) (t0 n : Nat) (root : Option (List PRow)) (last : Bool) :
    z.Keeps (State.writeRoot s o t0 n root last) := by
  unfold State.writeRoot
  repeat' first
    | with_reducible assumption | with_reducible apply State.vaWrite_keeps | with_reducible apply State.setOp_keeps
    | with_reducible apply State.putRows_keeps | with_reducible apply State.drainOut_keeps | extract_lets | split | dsimp +zetaDelta only

theorem State.nodeDone_keeps {z s : State} (h : z.Keeps s) (o : Op) (k j : Nat) (x : Node) :
    z.Keeps (State.nodeDone s o k j x) := by
  unfold State.nodeDone
  repeat' first
    | with_reducible assumption | with_reducible apply State.setOp_keeps | with_reducible apply State.writeRoot_keeps | extract_lets | split

theorem State.pinned_keeps {z s : State} (h : z.Keeps s) (o : Op) (keys : Nat) (gs : List Nat) :
    z.Keeps (State.pinned s o keys gs).2 := by
  unfold State.pinned
  repeat' first
    | with_reducible assumption | with_reducible apply State.setOp_keeps | with_reducible apply State.pin_keeps
    | with_reducible apply State.settleJobs_keeps | with_reducible refine State.Keeps.fold ?_ (fun _ _ _ => ?_)

theorem State.share_keeps {z s : State} (h : z.Keeps s) (opid : W32) :
    z.Keeps (State.share s opid) := by
  unfold State.share
  repeat' first
    | with_reducible assumption | with_reducible apply State.grantShares_keeps | split

theorem State.sendPartials_keeps {z s : State} (h : z.Keeps s) (fuel : Nat) (opid : W32) :
    z.Keeps (State.sendPartials fuel s opid) := by
  induction fuel generalizing s with
  | zero => exact h
  | succ m ih =>
    unfold State.sendPartials
    split
    · exact h
    split
    · split
      · exact h
      · exact ih (State.peerSend_keeps (State.setOp_keeps (State.modPeer_keeps h _) _) _ _ _)
    · exact h

theorem State.sendOut_keeps {z s : State} (h : z.Keeps s) :
    z.Keeps (State.sendOut s) := by
  unfold State.sendOut
  repeat' first
    | with_reducible assumption | with_reducible apply State.drainOut_keeps | with_reducible apply State.sendPartials_keeps
    | with_reducible refine State.Keeps.fold ?_ (fun _ _ _ => ?_)

theorem State.partialOut_keeps {z s : State} (h : z.Keeps s) (o : Op) (seg : Nat) (x : Node) :
    z.Keeps (State.partialOut s o seg x) := by
  unfold State.partialOut
  repeat' first
    | with_reducible assumption | with_reducible apply State.setOp_keeps | with_reducible apply State.sendOut_keeps

theorem State.partialAcked_keeps {z s : State} (h : z.Keeps s) (h : PeerHdr) :
    z.Keeps (State.partialAcked s h) := by
  unfold State.partialAcked
  repeat' first
    | with_reducible assumption | with_reducible apply State.setOp_keeps | with_reducible apply State.drainOut_keeps | split

theorem State.admitAttend_keeps {z s : State} (h : z.Keeps s) (p : Nat) (c : Cmd) :
    z.Keeps (State.admitAttend s p c) := by
  unfold State.admitAttend
  repeat' first
    | with_reducible assumption | with_reducible apply State.setOp_keeps | with_reducible apply State.askSegs_keeps
    | with_reducible apply State.admitOp_keeps | with_reducible apply State.covered_keeps | with_reducible apply State.drainOut_keeps
    | with_reducible apply State.writeRoot_keeps | with_reducible apply State.pinned_keeps | with_reducible apply State.share_keeps
    | intro _ _ _ _ | intro _ _ _ | intro _ _ | with_reducible refine State.Keeps.snd (by with_reducible assumption) ?_ | extract_lets
    | split

theorem execAttend_keeps {z s : State} (h : z.Keeps s) (c : Cmd) :
    Res.Keeps z (execAttend c s) := by
  unfold execAttend
  repeat' first
    | with_reducible assumption | with_reducible apply State.ringRow_keeps | with_reducible apply State.admitAttend_keeps | intro _ _ _ _
    | intro _ _ _ | intro _ _ | with_reducible apply Res.Keeps.next

theorem State.yieldShare_keeps {z s : State} (h : z.Keeps s) (opid : W32) (n : Nat) :
    z.Keeps (State.yieldShare s opid n) := by
  unfold State.yieldShare
  repeat' first
    | with_reducible assumption | with_reducible apply State.setOp_keeps | split

theorem State.yieldShares_keeps {z s : State} (h : z.Keeps s) (opid : W32) :
    z.Keeps (State.yieldShares s opid) := by
  unfold State.yieldShares
  repeat' first
    | with_reducible assumption | with_reducible apply State.yieldShare_keeps | with_reducible refine State.Keeps.fold ?_ (fun _ _ _ => ?_)

theorem State.finishSegment_keeps {z s : State} (h : z.Keeps s) (o : Op) (seg n : Nat) :
    z.Keeps (State.finishSegment s o seg n) := by
  unfold State.finishSegment
  repeat' first
    | with_reducible assumption | with_reducible apply State.placeWaiting_keeps | with_reducible apply State.firstMac_keeps
    | with_reducible apply State.builtinReads_keeps | with_reducible apply State.nodeDone_keeps
    | with_reducible apply State.partialOut_keeps | with_reducible apply State.yieldShare_keeps | extract_lets | split

theorem execSegmentDone_keeps {z s : State} (h : z.Keeps s) (opid : W32) (seg : Nat) :
    Res.Keeps z (execSegmentDone opid seg s) := by
  unfold execSegmentDone
  repeat' first
    | with_reducible assumption | with_reducible apply State.kill_keeps | with_reducible apply State.finishSegment_keeps
    | with_reducible apply Res.Keeps.next | split

theorem execMerge_keeps {z s : State} (h : z.Keeps s) (opid : W32) (level node : Nat) :
    Res.Keeps z (execMerge opid level node s) := by
  unfold execMerge
  repeat' first
    | with_reducible assumption | with_reducible apply State.nodeDone_keeps | with_reducible apply Res.Keeps.next | split

theorem State.resend_keeps {z s : State} (h : z.Keeps s) (t : PTile) :
    z.Keeps (State.resend s t) := by
  unfold State.resend
  repeat' first
    | with_reducible assumption | with_reducible apply State.modPeer_keeps | split

theorem State.takeRows_keeps {z s : State} (h : z.Keeps s) (o : Op) (t : PTile) (n : Nat) :
    z.Keeps (State.takeRows s o t n) := by
  unfold State.takeRows
  repeat' first
    | with_reducible assumption | with_reducible apply State.setOp_keeps | with_reducible apply State.nodeDone_keeps | extract_lets | split

theorem State.partialAt_keeps {z s : State} (h : z.Keeps s) (n : Nat) (epoch : W16) (t : PTile) :
    z.Keeps (State.partialAt s n epoch t) := by
  unfold State.partialAt
  repeat' first
    | with_reducible assumption | with_reducible apply State.setCluster_keeps | with_reducible apply State.note_keeps
    | with_reducible apply State.endOp_keeps | with_reducible apply State.resend_keeps | with_reducible apply State.takeRows_keeps
    | extract_lets | split

theorem execPartialTile_keeps {z s : State} (h : z.Keeps s) (n : Fin 32) (epoch : W16) (t : PTile) :
    Res.Keeps z (execPartialTile n epoch t s) := by
  unfold execPartialTile
  repeat' first
    | with_reducible assumption | with_reducible apply State.partialAt_keeps | with_reducible apply Res.Keeps.next | split

theorem execPeerTmo_keeps {z s : State} (h : z.Keeps s) (opid : W32) :
    Res.Keeps z (execPeerTmo opid s) := by
  unfold execPeerTmo
  repeat' first
    | with_reducible assumption | with_reducible apply State.endOp_keeps | with_reducible apply Res.Keeps.next | split

theorem State.runBwd_keeps {z s : State} (h : z.Keeps s) (o : Op) :
    z.Keeps (State.runBwd s o) := by
  unfold State.runBwd
  repeat' first
    | with_reducible assumption | with_reducible apply State.setOp_keeps | with_reducible apply State.firstMac_keeps
    | with_reducible apply State.progressOf_keeps | with_reducible apply State.builtinReads_keeps | with_reducible apply State.putRows_keeps
    | with_reducible apply State.drainOut_keeps | extract_lets | split

theorem State.chunkAttend_keeps {z s : State} (h : z.Keeps s) (o : Op) (inp : List Byte) (t0 n pos keys : Nat) :
    z.Keeps (State.chunkAttend s o inp t0 n pos keys) := by
  unfold State.chunkAttend
  repeat' first
    | with_reducible assumption | with_reducible apply State.setOp_keeps | with_reducible apply State.pin_keeps
    | with_reducible apply State.unpin_keeps | with_reducible apply State.settleJobs_keeps | with_reducible apply State.progressOf_keeps
    | with_reducible apply State.writeRoot_keeps | with_reducible refine State.Keeps.fold ?_ (fun _ _ _ => ?_)

theorem State.chunkRun_keeps {z s : State} (h : z.Keeps s) (o : Op) (t0 n : Nat) :
    z.Keeps (State.chunkRun s o t0 n) := by
  unfold State.chunkRun
  repeat' first
    | with_reducible assumption | with_reducible apply State.yieldShare_keeps | with_reducible apply State.modSeq_keeps
    | with_reducible apply State.refill_keeps | with_reducible apply State.famineAct_keeps | with_reducible apply State.askKeys_keeps
    | with_reducible apply State.firstMac_keeps | with_reducible apply State.writeToks_keeps | with_reducible apply State.builtinReads_keeps
    | with_reducible apply State.yieldShares_keeps | with_reducible apply State.chunkAttend_keeps

theorem State.nextChunk_keeps {z s : State} (h : z.Keeps s) (o : Op) :
    z.Keeps (State.nextChunk s o) := by
  unfold State.nextChunk
  extract_lets c p q tok n start famine corrupt
  have hf : ∀ t, z.Keeps t → z.Keeps (famine t) := fun t ht => State.famineAct_keeps (State.endOp_keeps (State.pause_keeps ht _ _) _ _ _ _) _
  have hc : ∀ k, z.Keeps (corrupt k) := fun k => State.endOp_keeps (State.corruptHit_keeps h _ _ _) _ _ _ _
  have k := State.cover_keeps h p q (List.range (ceilDiv start tok))
  split
  · exact hc _
  · exact hf _ h
  · exact State.setOp_keeps (Cover.Keeps.ofWait ‹_› k) _
  split
  · exact h
  have kn := State.needBlocks_keeps h p q (layerOf c) start n o.opid
  split
  · exact h
  · exact h
  · exact State.kill_keeps h _ _ _
  · exact State.endOp_keeps h _ _ _ _
  · exact hf _ h
  · exact hc _
  · exact Need.Keeps.ofCopying ‹_› kn
  · exact State.chunkRun_keeps (Need.Keeps.ofOk ‹_› kn) _ _ _

theorem execPrefillChunk_keeps {z s : State} (h : z.Keeps s) (opid : W32) :
    Res.Keeps z (execPrefillChunk opid s) := by
  unfold execPrefillChunk
  repeat' first
    | with_reducible assumption | with_reducible apply State.nextChunk_keeps | with_reducible apply Res.Keeps.next | split

theorem State.admitPrefill_keeps {z s : State} (h : z.Keeps s) (p : Nat) (c : Cmd) :
    z.Keeps (State.admitPrefill s p c) := by
  unfold State.admitPrefill
  repeat' first
    | with_reducible assumption | with_reducible apply State.setOp_keeps | with_reducible apply State.finishNow_keeps
    | with_reducible apply State.admitOp_keeps | with_reducible apply State.progressOf_keeps | with_reducible apply State.share_keeps
    | with_reducible refine State.Keeps.snd (by with_reducible assumption) ?_ | extract_lets | split

theorem execPrefill_keeps {z s : State} (h : z.Keeps s) (c : Cmd) :
    Res.Keeps z (execPrefill c s) := by
  unfold execPrefill
  repeat' first
    | with_reducible assumption | with_reducible apply State.ringRow_keeps | with_reducible apply State.admitPrefill_keeps | intro _ _ _ _
    | intro _ _ _ | intro _ _ | with_reducible apply Res.Keeps.next

theorem State.progress_keeps {z s : State} (h : z.Keeps s) (opid : W32) :
    z.Keeps (State.progress s opid) := by
  unfold State.progress
  repeat' first
    | with_reducible assumption | with_reducible apply State.kill_keeps | with_reducible apply State.appendWrite_keeps
    | with_reducible apply State.runBwd_keeps | split

theorem State.progressAll_keeps {z s : State} (h : z.Keeps s) :
    z.Keeps (State.progressAll s) := by
  unfold State.progressAll
  repeat' first
    | with_reducible assumption | with_reducible apply State.drainOut_keeps | with_reducible apply State.progress_keeps
    | with_reducible refine State.Keeps.fold ?_ (fun _ _ _ => ?_)

theorem State.admitBwd_keeps {z s : State} (h : z.Keeps s) (p : Nat) (c : Cmd) :
    z.Keeps (State.admitBwd s p c) := by
  unfold State.admitBwd
  repeat' first
    | with_reducible assumption | with_reducible apply State.setOp_keeps | with_reducible apply State.askKeys_keeps
    | with_reducible apply State.admitOp_keeps | with_reducible apply State.covered_keeps | with_reducible apply State.progressOf_keeps
    | with_reducible apply State.pinned_keeps | with_reducible apply State.share_keeps | with_reducible apply State.progress_keeps
    | intro _ _ _ _ | intro _ _ _ | intro _ _ | with_reducible refine State.Keeps.snd (by with_reducible assumption) ?_ | extract_lets
    | split

theorem execAttendBwd_keeps {z s : State} (h : z.Keeps s) (c : Cmd) :
    Res.Keeps z (execAttendBwd c s) := by
  unfold execAttendBwd
  repeat' first
    | with_reducible assumption | with_reducible apply State.ringRow_keeps | with_reducible apply State.admitBwd_keeps | intro _ _ _ _
    | intro _ _ _ | intro _ _ | with_reducible apply Res.Keeps.next

theorem State.takeFirst_keeps {z s : State} (h : z.Keeps s) (x : Staged) (t : FTile × Nat) :
    z.Keeps (State.takeFirst s x t) := by
  unfold State.takeFirst
  repeat' first
    | with_reducible assumption | with_reducible apply State.modFab_keeps | with_reducible apply State.modStaged_keeps
    | with_reducible apply State.giveFlits_keeps | extract_lets | split

theorem State.fireCmd_keeps {z s : State} (h : z.Keeps s) (x : Staged) :
    z.Keeps (State.fireCmd s x) := by
  unfold State.fireCmd
  repeat' first
    | with_reducible assumption | with_reducible apply State.modStaged_keeps | with_reducible apply State.takeFirst_keeps | extract_lets
    | split

theorem execFire_keeps {z s : State} (h : z.Keeps s) (ring : BitVec 14) (idx : W32) :
    Res.Keeps z (execFire ring idx s) := by
  unfold execFire
  repeat' first
    | with_reducible assumption | with_reducible apply State.upToWeir_keeps | with_reducible apply State.fireCmd_keeps
    | with_reducible refine State.Keeps.snd (by with_reducible assumption) ?_ | with_reducible apply Res.Keeps.next | split

theorem State.feed_keeps {z s : State} (h : z.Keeps s) (k : Nat) (t : FTile × Nat) :
    z.Keeps (State.feed s k t) := by
  unfold State.feed
  repeat' first
    | with_reducible assumption | with_reducible apply State.modFab_keeps | with_reducible apply State.setOp_keeps
    | with_reducible apply State.modStaged_keeps | with_reducible apply State.giveFlits_keeps | extract_lets | split

theorem State.pullTiles_keeps {z s : State} (h : z.Keeps s) (k : Nat) :
    z.Keeps (State.pullTiles s k) := by
  unfold State.pullTiles
  repeat' first
    | with_reducible assumption | with_reducible apply State.progressAll_keeps | with_reducible apply State.feed_keeps
    | with_reducible refine State.Keeps.fold ?_ (fun _ _ _ => ?_)

end Sys2Proof.Machine
end

