-- ==== Sys2Proof/Laws/KeepsTranslation.lean ====
section
/-! SUPPORT. `State.Keeps` for the operations of Machine/Translation.lean. -/

namespace Sys2Proof.Machine

theorem State.queueMisses_keeps {z s : State} (h : z.Keeps s) (p : Nat) :
    z.Keeps (State.queueMisses s p) := by
  unfold State.queueMisses
  repeat' first
    | with_reducible assumption | with_reducible apply State.modTr_keeps | with_reducible apply State.startWalks_keeps
    | with_reducible apply State.awaitWalk_keeps | with_reducible refine State.Keeps.fold ?_ (fun _ _ _ => ?_)

theorem State.ringGoesOn_keeps {z s : State} (h : z.Keeps s) (n : Nat) :
    z.Keeps (State.ringGoesOn s n) := by
  unfold State.ringGoesOn
  repeat' first
    | with_reducible assumption | with_reducible apply State.modRing_keeps | with_reducible apply State.retryRecords_keeps | extract_lets
    | split

theorem State.missFails_keeps {z s : State} (h : z.Keeps s) (space : Nat) (m : Miss) :
    z.Keeps (State.missFails s space m) := by
  unfold State.missFails
  repeat' first
    | with_reducible assumption | with_reducible apply State.classP_keeps | with_reducible apply State.haltCmd_keeps
    | with_reducible apply State.killFaulting_keeps | split

theorem State.judgeMiss_keeps {z s : State} (h : z.Keeps s) (m : Miss) :
    z.Keeps (State.judgeMiss s m) := by
  unfold State.judgeMiss
  repeat' first
    | with_reducible assumption | with_reducible apply State.modRing_keeps | with_reducible apply State.retryRecords_keeps
    | with_reducible apply State.modStaged_keeps | with_reducible apply State.frontEnd_keeps | with_reducible apply State.ringGoesOn_keeps
    | extract_lets | split

theorem State.walkWait_keeps {z s : State} (h : z.Keeps s) (ms : List Miss) :
    z.Keeps (State.walkWait s ms) := by
  unfold State.walkWait
  repeat' first
    | with_reducible assumption | with_reducible apply State.modTr_keeps

theorem State.walkEnds_keeps {z s : State} (h : z.Keeps s) (w : Walker) :
    z.Keeps (State.walkEnds s w) := by
  unfold State.walkEnds
  repeat' first
    | with_reducible assumption | with_reducible apply State.modTr_keeps | with_reducible apply State.tlbTouch_keeps
    | with_reducible apply State.missFails_keeps | with_reducible apply State.judgeMiss_keeps | with_reducible apply State.walkWait_keeps
    | with_reducible refine State.Keeps.fold ?_ (fun _ _ _ => ?_) | extract_lets | split

theorem execWalkDone_keeps {z s : State} (h : z.Keeps s) (p : Fin 17) :
    Res.Keeps z (execWalkDone p s) := by
  unfold execWalkDone
  repeat' first
    | with_reducible assumption | with_reducible apply State.modTr_keeps | with_reducible apply State.tlbTouch_keeps
    | with_reducible apply State.judgeMiss_keeps | with_reducible apply State.startWalks_keeps
    | with_reducible apply State.queueMisses_keeps | with_reducible apply State.walkEnds_keeps | with_reducible apply Res.Keeps.next
    | with_reducible refine State.Keeps.fold ?_ (fun _ _ _ => ?_) | extract_lets | split

theorem State.imageFault_keeps {z s : State} (h : z.Keeps s) (p : Nat) (c : Cmd) (a : Nat) :
    z.Keeps (State.imageFault s p c a) := by
  unfold State.imageFault
  repeat' first
    | with_reducible assumption | with_reducible apply State.classP_keeps | with_reducible apply State.finish_keeps

theorem State.heldTooLong_keeps {z s : State} (h : z.Keeps s) (x : Staged) :
    z.Keeps (State.heldTooLong s x) := by
  unfold State.heldTooLong
  repeat' first
    | with_reducible assumption | with_reducible apply State.finish_keeps | with_reducible apply State.haltCmd_keeps | split

theorem execHeldTimeout_keeps {z s : State} (h : z.Keeps s) (ring : BitVec 14) (idx : W32) :
    Res.Keeps z (execHeldTimeout ring idx s) := by
  unfold execHeldTimeout
  repeat' first
    | with_reducible assumption | with_reducible apply State.haltCmd_keeps | with_reducible apply State.modPt_keeps
    | with_reducible apply State.setRing_keeps | with_reducible apply State.classP_keeps | with_reducible apply State.imageFault_keeps
    | with_reducible apply State.heldTooLong_keeps | with_reducible apply Res.Keeps.next | extract_lets | split

theorem State.pairsGoOn_keeps {z s : State} (h : z.Keeps s) (opid : W32) :
    z.Keeps (State.pairsGoOn s opid) := by
  unfold State.pairsGoOn
  repeat' first
    | with_reducible assumption | with_reducible apply State.modPair_keeps | with_reducible refine State.Keeps.fold ?_ (fun _ _ _ => ?_)
    | split

theorem State.clearHolds_keeps {z s : State} (h : z.Keeps s) (opid : W32) :
    z.Keeps (State.clearHolds s opid) := by
  unfold State.clearHolds
  repeat' first
    | with_reducible assumption | split | with_reducible apply State.Keeps.with

theorem State.resumeAdmit_keeps {z s : State} (h : z.Keeps s) (o : Op) :
    z.Keeps (State.resumeAdmit s o) := by
  unfold State.resumeAdmit
  repeat' first
    | with_reducible assumption | with_reducible apply State.obtainSlot_keeps | with_reducible apply State.endOp_keeps
    | with_reducible apply State.touchSeq_keeps | with_reducible apply State.admitMap_keeps
    | with_reducible refine State.Keeps.snd (by with_reducible assumption) ?_ | extract_lets | split

theorem State.resumeOp_keeps {z s : State} (h : z.Keeps s) (o : Op) :
    z.Keeps (State.resumeOp s o) := by
  unfold State.resumeOp
  repeat' first
    | with_reducible assumption | with_reducible apply State.note_keeps | with_reducible apply State.setOp_keeps
    | with_reducible apply State.askSegs_keeps | with_reducible apply State.share_keeps | with_reducible apply State.pairsGoOn_keeps
    | with_reducible apply State.clearHolds_keeps | with_reducible apply State.resumeAdmit_keeps | extract_lets | split

theorem State.releaseHeld_keeps {z s : State} (h : z.Keeps s) (o : Op) :
    z.Keeps (State.releaseHeld s o) := by
  unfold State.releaseHeld
  repeat' first
    | with_reducible assumption | with_reducible apply State.freeOp_keeps | extract_lets | dsimp +zetaDelta only
    | with_reducible apply State.Keeps.with

theorem State.writeResume_keeps {z s : State} (h : z.Keeps s) (p : Nat) (v : W64) :
    z.Keeps (State.writeResume s p v) := by
  unfold State.writeResume
  repeat' first
    | with_reducible assumption | with_reducible apply State.modPt_keeps | with_reducible apply State.note_keeps
    | with_reducible apply State.resumeOp_keeps | with_reducible apply State.releaseHeld_keeps | extract_lets | split

theorem State.dropTlb_keeps {z s : State} (h : z.Keeps s) (r : InvReq) :
    z.Keeps (State.dropTlb s r) := by
  unfold State.dropTlb
  repeat' first
    | with_reducible assumption | with_reducible apply State.modTr_keeps

theorem State.unstageTranslations_keeps {z s : State} (h : z.Keeps s) (r : InvReq) :
    z.Keeps (State.unstageTranslations s r) := by
  unfold State.unstageTranslations
  repeat' first
    | with_reducible assumption | with_reducible apply State.modHw_keeps | with_reducible apply State.queueMisses_keeps

theorem State.carryUnmap_keeps {z s : State} (h : z.Keeps s) (r : InvReq) :
    z.Keeps (State.carryUnmap s r) := by
  unfold State.carryUnmap
  repeat' first
    | with_reducible assumption | with_reducible apply State.haltOp_keeps | with_reducible apply State.kill_keeps
    | with_reducible apply State.stopOp_keeps | with_reducible apply State.entryFault_keeps
    | with_reducible refine State.Keeps.fold ?_ (fun _ _ _ => ?_) | extract_lets | split

theorem State.carryHold_keeps {z s : State} (h : z.Keeps s) (r : InvReq) :
    z.Keeps (State.carryHold s r) := by
  unfold State.carryHold
  repeat' first
    | with_reducible assumption | with_reducible apply State.modCluster_keeps | with_reducible apply State.modHw_keeps
    | with_reducible refine State.Keeps.fold ?_ (fun _ _ _ => ?_)

theorem State.rewalkOp_keeps {z s : State} (h : z.Keeps s) (o : Op) (va : Nat) :
    z.Keeps (State.rewalkOp s o va) := by
  unfold State.rewalkOp
  repeat' first
    | with_reducible assumption | with_reducible apply State.setOp_keeps | with_reducible apply State.haltOp_keeps
    | with_reducible apply State.kill_keeps | extract_lets | split

theorem State.rewalkStream_keeps {z s : State} (h : z.Keeps s) (n : Nat) (e : QEnt) (va : Nat) :
    z.Keeps (State.rewalkStream s n e va) := by
  unfold State.rewalkStream
  repeat' first
    | with_reducible assumption | with_reducible apply State.modCluster_keeps | with_reducible apply State.entryFault_keeps | extract_lets
    | split

theorem State.rewalkRing_keeps {z s : State} (h : z.Keeps s) (n : Nat) :
    z.Keeps (State.rewalkRing s n) := by
  unfold State.rewalkRing
  repeat' first
    | with_reducible assumption | with_reducible apply State.queueMiss_keeps | with_reducible apply State.startWalks_keeps
    | with_reducible apply State.ringGoesOn_keeps | extract_lets | split

theorem State.carryResolve_keeps {z s : State} (h : z.Keeps s) (r : InvReq) :
    z.Keeps (State.carryResolve s r) := by
  unfold State.carryResolve
  repeat' first
    | with_reducible assumption | with_reducible apply State.modTr_keeps | with_reducible apply State.modHw_keeps
    | with_reducible apply State.setBacklog_keeps | with_reducible apply State.retryResume_keeps
    | with_reducible apply State.queueMisses_keeps | with_reducible apply State.resumeOp_keeps | with_reducible apply State.rewalkOp_keeps
    | with_reducible apply State.rewalkStream_keeps | with_reducible apply State.rewalkRing_keeps
    | with_reducible refine State.Keeps.fold ?_ (fun _ _ _ => ?_) | extract_lets | split

theorem State.carryOut_keeps {z s : State} (h : z.Keeps s) (r : InvReq) :
    z.Keeps (State.carryOut s r) := by
  unfold State.carryOut
  repeat' first
    | with_reducible assumption | with_reducible apply State.dropTlb_keeps | with_reducible apply State.unstageTranslations_keeps
    | with_reducible apply State.carryUnmap_keeps | with_reducible apply State.carryHold_keeps
    | with_reducible apply State.carryResolve_keeps | split

theorem State.writeInv_keeps {z s : State} (h : z.Keeps s) (v : W64) :
    z.Keeps (State.writeInv s v) := by
  unfold State.writeInv
  repeat' first
    | with_reducible assumption | with_reducible apply State.modTr_keeps | with_reducible apply State.carryOut_keeps | extract_lets | split

theorem execInvalidationDone_keeps {z s : State} (h : z.Keeps s) :
    Res.Keeps z (execInvalidationDone s) := by
  unfold execInvalidationDone
  repeat' first
    | with_reducible assumption | with_reducible apply State.modTr_keeps | with_reducible apply State.carryOut_keeps
    | with_reducible apply Res.Keeps.next | extract_lets | split

theorem execHoldTimeout_keeps {z s : State} (h : z.Keeps s) (opid : W32) :
    Res.Keeps z (execHoldTimeout opid s) := by
  unfold execHoldTimeout
  repeat' first
    | with_reducible assumption | with_reducible apply State.haltOp_keeps | with_reducible apply Res.Keeps.next | split

theorem State.builtinBudget_keeps {z s : State} (h : z.Keeps s) (o : Op) (sp : Nat) :
    z.Keeps (State.builtinBudget s o sp) := by
  unfold State.builtinBudget
  repeat' first
    | with_reducible assumption | with_reducible apply State.setPair_keeps | with_reducible apply State.draw_keeps
    | with_reducible apply State.note_keeps | with_reducible refine State.Keeps.snd (by with_reducible assumption) ?_ | extract_lets | split

theorem State.expire_keeps {z s : State} (h : z.Keeps s) (o : Op) :
    z.Keeps (State.expire s o) := by
  unfold State.expire
  repeat' first
    | with_reducible assumption | with_reducible apply State.modSeq_keeps | with_reducible apply State.endOp_keeps
    | with_reducible apply State.stopOp_keeps | with_reducible apply State.markExc_keeps | with_reducible apply State.builtinBudget_keeps
    | with_reducible refine State.Keeps.fold ?_ (fun _ _ _ => ?_) | extract_lets | split

theorem execBudgetExpiry_keeps {z s : State} (h : z.Keeps s) (opid : W32) :
    Res.Keeps z (execBudgetExpiry opid s) := by
  unfold execBudgetExpiry
  repeat' first
    | with_reducible assumption | with_reducible apply State.expire_keeps | with_reducible apply Res.Keeps.next | split

end Sys2Proof.Machine
end

