-- ==== Sys2Proof/Laws/KeepsMeter.lean ====
section
/-! SUPPORT. `State.Keeps` for the operations of Machine/Meter.lean. -/

namespace Sys2Proof.Machine

theorem Smu.addCount_keeps {l m : Smu} (h : l.Keeps m) (p q k : Nat) : l.Keeps (m.addCount p q k) :=
  h.trans ⟨rfl, rfl, List.prefix_refl _, Nat.le_refl _⟩

theorem bump_le {n : Nat} (w : BitVec n) (k : Nat) : w.toNat ≤ (bump w k).toNat := by
  have hw := w.isLt
  have e : (bump w k).toNat = Nat.min (2 ^ n - 1) (w.toNat + k) := by
    unfold bump
    rw [BitVec.toNat_ofNat]
    exact Nat.mod_eq_of_lt (Nat.lt_of_le_of_lt (Nat.min_le_left _ _) (by omega))
  rw [e]
  exact Nat.le_min.2 ⟨by omega, by omega⟩

/-- Counts added leave the rest of the meter as it was. -/
theorem Smu.addCounts_keeps (xs : List Nat) (m : Smu) :
    m.Keeps (xs.foldl (fun m p => Smu.addCount m p 11 1) m) ∧ (xs.foldl (fun m p => Smu.addCount m p 11 1) m).tamper = m.tamper := by
  induction xs generalizing m with
  | nil => exact ⟨Smu.Keeps.refl m, rfl⟩
  | cons x xs ih => exact ⟨(Smu.addCount_keeps (Smu.Keeps.refl m) x 11 1).trans (ih _).1, (ih _).2⟩

theorem Smu.tamperEvent_keeps {l m : Smu} (h : l.Keeps m) : l.Keeps m.tamperEvent := by
  unfold Smu.tamperEvent
  have k := Smu.addCounts_keeps (List.range 16) m
  revert k
  generalize (List.range 16).foldl (fun m p => Smu.addCount m p 11 1) m = x
  intro k
  have hx := h.trans k.1
  exact ⟨hx.serial, hx.transport, hx.seals, Nat.le_trans h.tamper (bump_le _ _)⟩

theorem Smu.apply_keeps (m : Smu) (p q inc : Nat) : m.Keeps (m.apply p q inc) := by
  unfold Smu.apply
  split
  · exact Smu.Keeps.refl m
  · exact ⟨rfl, rfl, List.prefix_refl _, Nat.le_refl _⟩

theorem Smu.gap_keeps (m : Smu) : m.Keeps m.gap := ⟨rfl, rfl, List.prefix_refl _, Nat.le_refl _⟩

/-- Burning a `LOGGED` fuse leaves keys and identifiers. -/
theorem sealsLogged (xs : List SealSlot) (f : SealSlot × Nat → SealSlot) (hf : ∀ y, (f y).key = y.1.key ∧ (f y).ident = y.1.ident) (n : Nat) :
    ((xs.zipIdx n).map f).map (fun y => (y.key, y.ident)) = xs.map (fun y => (y.key, y.ident)) := by
  induction xs generalizing n with
  | nil => rfl
  | cons x xs ih =>
    simp only [List.zipIdx_cons, List.map_cons, List.cons.injEq]
    exact ⟨by rw [(hf _).1, (hf _).2], ih _⟩

theorem Smu.acked_keeps (m : Smu) (r : W16) : m.Keeps (m.acked r) := by
  unfold Smu.acked
  split
  · exact Smu.Keeps.refl m
  · next x _ =>
    refine ⟨rfl, rfl, ?_, Nat.le_refl _⟩
    unfold Smu.burned
    dsimp only
    split
    · rw [sealsLogged _ _ (fun y => by split <;> exact ⟨rfl, rfl⟩)]
    · exact List.prefix_refl _

theorem Smu.trySeal_keeps (m : Smu) (k : Nat) : m.Keeps (m.trySeal k) := by
  unfold Smu.trySeal
  extract_lets e
  split
  · exact ⟨rfl, rfl, List.prefix_refl _, Nat.le_refl _⟩
  · exact Smu.tamperEvent_keeps ⟨rfl, rfl, List.prefix_refl _, Nat.le_refl _⟩

theorem Smu.write_keeps (m : Smu) (a : Nat) (v : W32) : m.Keeps (m.write a v) := by
  unfold Smu.write
  repeat' split
  all_goals exact ⟨rfl, rfl, List.prefix_refl _, Nat.le_refl _⟩

theorem Smu.persist_keeps (m : Smu) : m.Keeps m.persist := by
  unfold Smu.persist
  extract_lets c
  split <;> exact ⟨rfl, rfl, List.prefix_refl _, Nat.le_refl _⟩

theorem Smu.readout_keeps (m : Smu) : m.Keeps m.readout := ⟨rfl, rfl, List.prefix_refl _, Nat.le_refl _⟩

theorem State.sendReport_keeps {z s : State} (h : z.Keeps s) (kind : Byte) (slot : Nat) (waddr : W16) (value : W32) :
    z.Keeps (State.sendReport s kind slot waddr value) := by
  unfold State.sendReport
  exact State.modOut_keeps (State.modSmu_keeps h _ ⟨rfl, rfl, List.prefix_refl _, Nat.le_refl _⟩) _

theorem State.resendSeals_keeps {z s : State} (h : z.Keeps s)  :
    z.Keeps (State.resendSeals s) := by
  unfold State.resendSeals
  repeat' first
    | with_reducible assumption | with_reducible apply State.modOut_keeps | with_reducible apply State.sendReport_keeps
    | with_reducible refine State.Keeps.fold ?_ (fun _ _ _ => ?_) | split

theorem State.received_keeps {z s : State} (h : z.Keeps s) (e : LinkEv) (f : Smu → Smu) (hf : ∀ m : Smu, m.Keeps (f m)) :
    z.Keeps (State.received s e f) := by
  unfold State.received
  have h1 : z.Keeps (s.modLink (fun l => { l with wire := l.wire.tail })) := State.modLink_keeps h _
  revert h1
  generalize s.modLink (fun l => { l with wire := l.wire.tail }) = s1
  intro h1
  dsimp only
  split
  · exact State.modSmu_keeps h1 _ (Smu.tamperEvent_keeps (Smu.Keeps.refl _))
  · have hm : s1.smu.Keeps (if (s1.smu.lastSeq.any (fun q => e.seq != q + 1) && e.q != 0xF) = true then s1.smu.tamperEvent else s1.smu) := by
      split
      · exact Smu.tamperEvent_keeps (Smu.Keeps.refl _)
      · exact Smu.Keeps.refl _
    have k := hm.trans (hf _)
    exact h1.smuSet ⟨k.serial, k.transport, k.seals, k.tamper⟩

theorem execLinkEvent_keeps {z s : State} (h : z.Keeps s) (e : LinkEv) :
    Res.Keeps z (execLinkEvent e s) := by
  unfold execLinkEvent
  refine Res.Keeps.next ?_
  split
  · exact State.received_keeps h _ _ (fun m => Smu.apply_keeps m _ _ _)
  · exact h

theorem execRestart_keeps {z s : State} (h : z.Keeps s) (e : LinkEv) :
    Res.Keeps z (execRestart e s) := by
  unfold execRestart
  refine Res.Keeps.next ?_
  split
  · have k := State.received_keeps h e Smu.gap Smu.gap_keeps
    extract_lets s1
    split
    · exact State.resendSeals_keeps k
    · exact k
  · exact h

theorem execReportAck_keeps {z s : State} (h : z.Keeps s) (e : LinkEv) :
    Res.Keeps z (execReportAck e s) := by
  unfold execReportAck
  refine Res.Keeps.next ?_
  split
  · exact State.received_keeps h _ _ (fun m => Smu.acked_keeps m _)
  · exact h

theorem execMevHold_keeps {z s : State} (h : z.Keeps s) (b : Bool) :
    Res.Keeps z (execMevHold b s) := by
  unfold execMevHold
  repeat' first
    | with_reducible assumption | with_reducible apply State.modLink_keeps | with_reducible apply Res.Keeps.next | split

theorem execMeterIslandUnpowered_keeps {z s : State} (h : z.Keeps s)  :
    Res.Keeps z (execMeterIslandUnpowered s) := by
  unfold execMeterIslandUnpowered
  repeat' first
    | with_reducible assumption | with_reducible apply State.modBoot_keeps | with_reducible apply State.modLink_keeps
    | with_reducible apply State.note_keeps | with_reducible apply State.event_keeps | with_reducible apply Res.Keeps.next | extract_lets | split

theorem execResidencySample_keeps {z s : State} (h : z.Keeps s)  :
    Res.Keeps z (execResidencySample s) := by
  unfold execResidencySample
  repeat' first
    | with_reducible assumption | with_reducible apply State.meterEvent_keeps | with_reducible apply Res.Keeps.next
    | with_reducible refine State.Keeps.fold ?_ (fun _ _ _ => ?_) | split

theorem State.ackReport_keeps {z s : State} (h : z.Keeps s) (rnum : W16) :
    z.Keeps (State.ackReport s rnum) := by
  unfold State.ackReport
  repeat' first
    | with_reducible assumption | with_reducible apply State.modLink_keeps

theorem State.acceptSeal_keeps {z s : State} (h : z.Keeps s) (r : MReport) :
    z.Keeps (State.acceptSeal s r) := by
  unfold State.acceptSeal
  repeat' first
    | with_reducible assumption | with_reducible apply State.modRecorder_keeps | with_reducible apply State.ackReport_keeps | extract_lets
    | split

theorem execSealReport_keeps {z s : State} (h : z.Keeps s) (b : BitVec 224) :
    Res.Keeps z (execSealReport b s) := by
  unfold execSealReport
  repeat' first
    | with_reducible assumption | with_reducible apply State.acceptSeal_keeps | with_reducible apply Res.Keeps.next | split

theorem State.acceptLock_keeps {z s : State} (h : z.Keeps s) (r : MReport) :
    z.Keeps (State.acceptLock s r) := by
  unfold State.acceptLock
  repeat' first
    | with_reducible assumption | with_reducible apply State.modRecorder_keeps | with_reducible apply State.note_keeps
    | with_reducible apply State.event_keeps | with_reducible apply State.ackReport_keeps | extract_lets | split

theorem execLockReport_keeps {z s : State} (h : z.Keeps s) (b : BitVec 224) :
    Res.Keeps z (execLockReport b s) := by
  unfold execLockReport
  repeat' first
    | with_reducible assumption | with_reducible apply State.acceptLock_keeps | with_reducible apply Res.Keeps.next | split

theorem execSealReportResend_keeps {z s : State} (h : z.Keeps s)  :
    Res.Keeps z (execSealReportResend s) := by
  unfold execSealReportResend
  repeat' first
    | with_reducible assumption | with_reducible apply State.modOut_keeps | with_reducible apply Res.Keeps.next | split

theorem execGlitchTrip_keeps {z s : State} (h : z.Keeps s)  :
    Res.Keeps z (execGlitchTrip s) := by
  unfold execGlitchTrip
  refine Res.Keeps.next ?_
  split
  · exact State.modSmu_keeps h _ (Smu.tamperEvent_keeps (Smu.Keeps.refl _))
  · exact h

theorem execMeterPersist_keeps {z s : State} (h : z.Keeps s)  :
    Res.Keeps z (execMeterPersist s) := by
  unfold execMeterPersist
  refine Res.Keeps.next ?_
  split
  · exact State.modSmu_keeps h _ (Smu.persist_keeps _)
  · exact h

theorem State.respond_keeps {z s : State} (h : z.Keeps s) (status : Byte) (data : W32) (read : Option Nat) :
    z.Keeps (State.respond s status data read) := by
  unfold State.respond
  exact State.modOut_keeps (State.modSmu_keeps h _ ⟨rfl, rfl, List.prefix_refl _, Nat.le_refl _⟩) _

theorem State.portRead_keeps {z s : State} (h : z.Keeps s) (a : Nat) :
    z.Keeps (State.portRead s a) := by
  unfold State.portRead
  split
  · exact State.respond_keeps (State.modSmu_keeps h _ ⟨rfl, rfl, List.prefix_refl _, Nat.le_refl _⟩) _ _ _
  · split
    · exact State.respond_keeps h _ _ _
    · exact State.respond_keeps h _ _ _
    · exact State.respond_keeps h _ _ _

theorem execMeterRead_keeps {z s : State} (h : z.Keeps s) (addr : W16) :
    Res.Keeps z (execMeterRead addr s) := by
  unfold execMeterRead
  repeat' first
    | with_reducible assumption | with_reducible apply State.portRead_keeps | with_reducible apply Res.Keeps.next | split

theorem execFrameCrcOrOpcodeBad_keeps {z s : State} (h : z.Keeps s)  :
    Res.Keeps z (execFrameCrcOrOpcodeBad s) := by
  unfold execFrameCrcOrOpcodeBad
  refine Res.Keeps.next ?_
  split
  · exact State.respond_keeps (State.modSmu_keeps h _ ⟨rfl, rfl, List.prefix_refl _, Nat.le_refl _⟩) _ _ _
  · exact h

theorem execMeterWrite_keeps {z s : State} (h : z.Keeps s) (addr : W16) (v : W32) :
    Res.Keeps z (execMeterWrite addr v s) := by
  unfold execMeterWrite
  refine Res.Keeps.next ?_
  split
  · exact h
  split
  · exact State.respond_keeps (State.modSmu_keeps h _ (Smu.write_keeps _ _ _)) _ _ _
  · exact State.respond_keeps h _ _ _

theorem State.meterLocked_keeps {z s : State} (h : z.Keeps s) (waddr : W16) (v : W32) :
    z.Keeps (State.meterLocked s waddr v) := by
  unfold State.meterLocked
  extract_lets s1 s2
  have h1 : z.Keeps s1 := State.modSmu_keeps h _ (Smu.tamperEvent_keeps (Smu.Keeps.refl _))
  have h2 : z.Keeps s2 := by
    unfold s2
    split
    · exact State.sendReport_keeps h1 _ _ _ _
    · exact h1
  exact State.respond_keeps h2 _ _ _

theorem execSmuSeal_keeps {z s : State} (h : z.Keeps s) (v : W32) :
    Res.Keeps z (execSmuSeal v s) := by
  unfold execSmuSeal
  refine Res.Keeps.next ?_
  split
  · exact h
  split
  · exact State.meterLocked_keeps h _ _
  · extract_lets s1
    have h1 : z.Keeps s1 := State.modSmu_keeps h _ ⟨rfl, rfl, List.prefix_refl _, Nat.le_refl _⟩
    refine State.respond_keeps ?_ _ _ _
    split
    · exact State.modSmu_keeps h1 _ (Smu.trySeal_keeps _ _)
    · exact h1

theorem execSealBurnDone_keeps {z s : State} (h : z.Keeps s)  :
    Res.Keeps z (execSealBurnDone s) := by
  unfold execSealBurnDone
  refine Res.Keeps.next ?_
  split
  · extract_lets n s1
    refine State.sendReport_keeps (State.modSmu_keeps h _ ⟨rfl, rfl, ?_, Nat.le_refl _⟩) _ _ _ _
    simp [Smu.burned]
  · exact h

theorem execSmuRoCtl_keeps {z s : State} (h : z.Keeps s) (v : W32) :
    Res.Keeps z (execSmuRoCtl v s) := by
  unfold execSmuRoCtl
  refine Res.Keeps.next ?_
  split
  · exact State.respond_keeps (State.modSmu_keeps h _ ⟨rfl, rfl, List.prefix_refl _, Nat.le_refl _⟩) _ _ _
  · exact h

theorem execReadoutDone_keeps {z s : State} (h : z.Keeps s)  :
    Res.Keeps z (execReadoutDone s) := by
  unfold execReadoutDone
  refine Res.Keeps.next ?_
  split
  · exact State.modSmu_keeps h _ (Smu.readout_keeps _)
  · exact h

end Sys2Proof.Machine
end

