-- ==== Sys2Proof/Laws/KeepsTrouble.lean ====
section
/-! SUPPORT. `State.Keeps` for the operations of Machine/Trouble.lean. -/

namespace Sys2Proof.Machine

theorem State.failOp_keeps {z s : State} (h : z.Keeps s) (opid : W32) (status detail : Nat) (result : BitVec 96) :
    z.Keeps (State.failOp s opid status detail result) := by
  unfold State.failOp
  repeat' first
    | with_reducible assumption | with_reducible apply State.endOp_keeps | with_reducible apply State.stopOp_keeps | split

theorem State.repairRow_keeps {z s : State} (h : z.Keeps s) (n bank row : Nat) :
    z.Keeps (State.repairRow s n bank row) := by
  unfold State.repairRow
  repeat' first
    | with_reducible assumption | with_reducible apply State.modCluster_keeps | with_reducible apply State.note_keeps
    | with_reducible apply State.event_keeps | with_reducible apply State.mapOutCluster_keeps | extract_lets | split

theorem State.correct_keeps {z s : State} (h : z.Keeps s) (u : SramUnit) :
    z.Keeps (State.correct s u) := by
  unfold State.correct
  repeat' first
    | with_reducible assumption | with_reducible apply State.modCluster_keeps | with_reducible apply State.modRas_keeps
    | with_reducible apply State.repairRow_keeps | extract_lets | split

theorem State.uncorrectableIn_keeps {z s : State} (h : z.Keeps s) (unit : Nat) (addr : W32) (ops : List Op) :
    z.Keeps (State.uncorrectableIn s unit addr ops) := by
  unfold State.uncorrectableIn
  repeat' first
    | with_reducible assumption | with_reducible apply State.note_keeps | with_reducible apply State.failOp_keeps
    | with_reducible refine State.Keeps.fold ?_ (fun _ _ _ => ?_) | extract_lets | split

theorem State.doubleError_keeps {z s : State} (h : z.Keeps s) (u : SramUnit) (addr : W32) :
    z.Keeps (State.doubleError s u addr) := by
  unfold State.doubleError
  repeat' first
    | with_reducible assumption | with_reducible apply State.modCluster_keeps | with_reducible apply State.modPair_keeps
    | with_reducible apply State.modTr_keeps | with_reducible apply State.enterFatal_keeps | with_reducible apply State.kill_keeps
    | with_reducible apply State.repairRow_keeps | with_reducible apply State.uncorrectableIn_keeps | extract_lets | split

theorem execSramScrub_keeps {z s : State} (h : z.Keeps s) (f : SramFinding) :
    Res.Keeps z (execSramScrub f s) := by
  unfold execSramScrub
  repeat' first
    | with_reducible assumption | with_reducible apply State.correct_keeps | with_reducible apply State.doubleError_keeps
    | with_reducible apply Res.Keeps.next | split

theorem State.pairFailure_keeps {z s : State} (h : z.Keeps s) (sp kind : Nat) :
    z.Keeps (State.pairFailure s sp kind) := by
  unfold State.pairFailure
  repeat' first
    | with_reducible assumption | with_reducible apply State.setPair_keeps | with_reducible apply State.modHw_keeps
    | with_reducible apply State.note_keeps | with_reducible apply State.rasIrq_keeps | with_reducible apply State.event_keeps
    | with_reducible apply State.classPMark_keeps | with_reducible apply State.mapOutPair_keeps
    | with_reducible refine State.Keeps.fold ?_ (fun _ _ _ => ?_)

theorem State.testPassed_keeps {z s : State} (h : z.Keeps s) (sp : Nat) :
    z.Keeps (State.testPassed s sp) := by
  unfold State.testPassed
  repeat' first
    | with_reducible assumption | with_reducible apply State.modPair_keeps

theorem execComparatorSelfTest_keeps {z s : State} (h : z.Keeps s) (u : Option (Fin 8)) (pass : Bool) :
    Res.Keeps z (execComparatorSelfTest u pass s) := by
  unfold execComparatorSelfTest
  repeat' first
    | with_reducible assumption | with_reducible apply State.modRas_keeps | with_reducible apply State.enterFatal_keeps
    | with_reducible apply State.pairFailure_keeps | with_reducible apply State.testPassed_keeps | with_reducible apply Res.Keeps.next
    | split

theorem execDelayRegisterParityError_keeps {z s : State} (h : z.Keeps s) (sp : Fin 8) :
    Res.Keeps z (execDelayRegisterParityError sp s) := by
  unfold execDelayRegisterParityError
  repeat' first
    | with_reducible assumption | with_reducible apply State.pairFailure_keeps | with_reducible apply Res.Keeps.next | split

theorem State.mismatch_keeps {z s : State} (h : z.Keeps s) (sp : Nat) :
    z.Keeps (State.mismatch s sp) := by
  unfold State.mismatch
  repeat' first
    | with_reducible assumption | with_reducible apply State.setPair_keeps | with_reducible apply State.note_keeps
    | with_reducible apply State.mapOutPair_keeps | with_reducible apply State.failOp_keeps
    | with_reducible refine State.Keeps.fold ?_ (fun _ _ _ => ?_) | dsimp only | extract_lets | split

theorem execLockstepMismatch_keeps {z s : State} (h : z.Keeps s) (sp : Fin 8) :
    Res.Keeps z (execLockstepMismatch sp s) := by
  unfold execLockstepMismatch
  repeat' first
    | with_reducible assumption | with_reducible apply State.mismatch_keeps | with_reducible apply Res.Keeps.next | split

theorem State.refetch_keeps {z s : State} (h : z.Keeps s) (x : Staged) :
    z.Keeps (State.refetch s x) := by
  unfold State.refetch
  repeat' first
    | with_reducible assumption | with_reducible apply State.modStaged_keeps | with_reducible apply State.frontEnd_keeps

theorem execMgmtPairMismatch_keeps {z s : State} (h : z.Keeps s) :
    Res.Keeps z (execMgmtPairMismatch s) := by
  unfold execMgmtPairMismatch
  repeat' first
    | with_reducible assumption | with_reducible apply State.note_keeps | with_reducible apply State.refetch_keeps
    | with_reducible refine State.Keeps.fold ?_ (fun _ _ _ => ?_) | with_reducible apply Res.Keeps.next | extract_lets | split

theorem execClMapout_keeps {z s : State} (h : z.Keeps s) (n : Fin 32) (reason : Byte) :
    Res.Keeps z (execClMapout n reason s) := by
  unfold execClMapout
  repeat' first
    | with_reducible assumption | with_reducible apply State.mapOutCluster_keeps | with_reducible apply Res.Keeps.next | split

theorem State.repairFullCheck_keeps {z s : State} (h : z.Keeps s) (r : Rec) :
    z.Keeps (State.repairFullCheck s r) := by
  unfold State.repairFullCheck
  repeat' first
    | with_reducible assumption | with_reducible apply State.modRecorder_keeps | with_reducible apply State.rasIrq_keeps | split

theorem State.programSeal_keeps {z s : State} (h : z.Keeps s) (slot : Nat) (r : Rec) (rnum : W16) :
    z.Keeps (State.programSeal s slot r rnum) := by
  unfold State.programSeal
  repeat' first
    | with_reducible assumption | with_reducible apply State.modRecorder_keeps | with_reducible apply State.ackReport_keeps

theorem execRecordProgramDone_keeps {z s : State} (h : z.Keeps s) :
    Res.Keeps z (execRecordProgramDone s) := by
  unfold execRecordProgramDone
  repeat' first
    | with_reducible assumption | with_reducible apply State.modRecorder_keeps | with_reducible apply State.repairFullCheck_keeps
    | with_reducible apply State.programSeal_keeps | with_reducible apply Res.Keeps.next | split

theorem execTime_keeps {z s : State} (h : z.Keeps s) :
    Res.Keeps z (execTime s) := by
  unfold execTime
  repeat' first
    | with_reducible assumption | with_reducible apply State.event_keeps | with_reducible apply Res.Keeps.next | split

theorem execRecUtcAdvance_keeps {z s : State} (h : z.Keeps s) :
    Res.Keeps z (execRecUtcAdvance s) := by
  unfold execRecUtcAdvance
  repeat' first
    | with_reducible assumption | with_reducible apply State.modRecorder_keeps | with_reducible apply Res.Keeps.next | split

theorem State.restoreRecorder_keeps {z s : State} (h : z.Keeps s) (axId : W64) :
    z.Keeps (State.restoreRecorder s axId) := by
  unfold State.restoreRecorder
  repeat' first
    | with_reducible assumption | with_reducible apply State.modClk_keeps | with_reducible apply State.modRecorder_keeps
    | with_reducible refine State.Keeps.fold ?_ (fun _ _ _ => ?_) | dsimp only | extract_lets | split

theorem State.streamBlock_keeps {z s : State} (h : z.Keeps s) :
    z.Keeps (State.streamBlock s) := by
  unfold State.streamBlock
  repeat' first
    | with_reducible assumption | with_reducible apply State.modTrc_keeps | with_reducible apply State.vaWrite_keeps | extract_lets | split

theorem State.streamTick_keeps {z s : State} (h : z.Keeps s) :
    z.Keeps (State.streamTick s) := by
  unfold State.streamTick
  repeat' first
    | with_reducible assumption | with_reducible apply State.modTrc_keeps | with_reducible apply State.streamBlock_keeps | extract_lets
    | split

theorem State.streamAll_keeps {z s : State} (h : z.Keeps s) (fuel : Nat) :
    z.Keeps (State.streamAll fuel s) := by
  induction fuel generalizing s with
  | zero => exact h
  | succ n ih =>
    unfold State.streamAll
    split
    · exact State.modTrc_keeps h _
    · exact ih (State.streamBlock_keeps h)

end Sys2Proof.Machine
end

