-- ==== Sys2Proof/Laws/KeepsFabric.lean ====
section
/-! SUPPORT. `State.Keeps` for the operations of Machine/Fabric.lean. -/

namespace Sys2Proof.Machine

theorem State.startWake_keeps {z s : State} (h : z.Keeps s) :
    z.Keeps (State.startWake s) := by
  unfold State.startWake
  repeat' first
    | with_reducible assumption | with_reducible apply State.modClk_keeps | with_reducible apply State.stage_keeps | split

theorem State.discardFlit_keeps {z s : State} (h : z.Keeps s) (k cause part arg : Nat) :
    z.Keeps (State.discardFlit s k cause part arg) := by
  unfold State.discardFlit
  repeat' first
    | with_reducible assumption | with_reducible apply State.modGlob_keeps | with_reducible apply State.note_keeps
    | with_reducible apply State.giveFlits_keeps | extract_lets | split

theorem State.setPartial_keeps {z s : State} (h : z.Keeps s) (k : Nat) (t : Option InTile) :
    z.Keeps (State.setPartial s k t) := by
  unfold State.setPartial
  repeat' first
    | with_reducible assumption | with_reducible apply State.modFab_keeps

theorem State.stageFlit_keeps {z s : State} (h : z.Keeps s) (f : Flit) (t : InTile) :
    z.Keeps (State.stageFlit s f t) := by
  unfold State.stageFlit
  repeat' first
    | with_reducible assumption | with_reducible apply State.modFab_keeps | with_reducible apply State.pullTiles_keeps
    | with_reducible apply State.discardFlit_keeps | with_reducible apply State.setPartial_keeps
    | with_reducible refine State.Keeps.fold ?_ (fun _ _ _ => ?_) | extract_lets | split

theorem State.dropUnfinished_keeps {z s : State} (h : z.Keeps s) (f : Flit) :
    z.Keeps (State.dropUnfinished s f) := by
  unfold State.dropUnfinished
  repeat' first
    | with_reducible assumption | with_reducible apply State.giveFlits_keeps | split

theorem State.takeFlit_keeps {z s : State} (h : z.Keeps s) (f : Flit) :
    z.Keeps (State.takeFlit s f) := by
  unfold State.takeFlit
  repeat' first
    | with_reducible assumption | with_reducible apply State.modFab_keeps | with_reducible apply State.startWake_keeps
    | with_reducible apply State.discardFlit_keeps | with_reducible apply State.setPartial_keeps
    | with_reducible apply State.stageFlit_keeps | with_reducible apply State.dropUnfinished_keeps | extract_lets | split

theorem execFlit_keeps {z s : State} (h : z.Keeps s) (f : Flit) :
    Res.Keeps z (execFlit f s) := by
  unfold execFlit
  repeat' first
    | with_reducible assumption | with_reducible apply State.takeFlit_keeps | with_reducible apply Res.Keeps.next | split

theorem State.flitAcked_keeps {z s : State} (h : z.Keeps s) (k : Nat) :
    z.Keeps (State.flitAcked s k) := by
  unfold State.flitAcked
  repeat' first
    | with_reducible assumption | with_reducible apply State.modCluster_keeps | with_reducible apply State.modFab_keeps | extract_lets
    | split

theorem execFabricCredit_keeps {z s : State} (h : z.Keeps s) (port : Fin 8) (cnt : BitVec 4) :
    Res.Keeps z (execFabricCredit port cnt s) := by
  unfold execFabricCredit
  repeat' first
    | with_reducible assumption | with_reducible apply State.modFab_keeps | with_reducible apply State.progressAll_keeps
    | with_reducible apply State.flitAcked_keeps | with_reducible refine State.Keeps.fold ?_ (fun _ _ _ => ?_)
    | with_reducible apply Res.Keeps.next | extract_lets | split

theorem State.nack_keeps {z s : State} (h : z.Keeps s) (h : PeerHdr) (reason : Nat) :
    z.Keeps (State.nack s h reason) := by
  unfold State.nack
  repeat' first
    | with_reducible assumption | with_reducible apply State.modGlob_keeps | with_reducible apply State.peerSend_keeps

theorem State.refuseWrite_keeps {z s : State} (h : z.Keeps s) (h : PeerHdr) (reason : Nat) :
    z.Keeps (State.refuseWrite s h reason) := by
  unfold State.refuseWrite
  repeat' first
    | with_reducible assumption | with_reducible apply State.note_keeps | with_reducible apply State.nack_keeps

theorem State.peerMsg_keeps {z s : State} (h : z.Keeps s) (h : PeerHdr) (n : Nat) (w : Bool) (f : State → State) (hf : ∀ t, z.Keeps t → z.Keeps (f t)) :
    z.Keeps (State.peerMsg s h n w f) := by
  unfold State.peerMsg
  repeat' first
    | with_reducible assumption | with_reducible apply hf | with_reducible apply State.modGlob_keeps | with_reducible apply State.note_keeps
    | with_reducible apply State.startWake_keeps | with_reducible apply State.nack_keeps | with_reducible apply State.refuseWrite_keeps
    | with_reducible refine State.Keeps.fold ?_ (fun _ _ _ => ?_) | with_reducible refine State.Keeps.snd (by with_reducible assumption) ?_
    | split

theorem State.takeCredit_keeps {z s : State} (h : z.Keeps s) (h : PeerHdr) :
    z.Keeps (State.takeCredit s h) := by
  unfold State.takeCredit
  repeat' first
    | with_reducible assumption | with_reducible apply State.modPeer_keeps

theorem execCredit_keeps {z s : State} (h : z.Keeps s) (h : PeerHdr) :
    Res.Keeps z (execCredit h s) := by
  unfold execCredit
  repeat' first
    | with_reducible assumption | with_reducible apply State.sendOut_keeps | with_reducible apply State.peerMsg_keeps
    | with_reducible apply State.takeCredit_keeps | intro _ _ _ _ | intro _ _ _ | intro _ _ | with_reducible apply Res.Keeps.next

theorem State.landSlots_keeps {z s : State} (h : z.Keeps s) (fuel : Nat) (n h : Nat) :
    z.Keeps (State.landSlots fuel s n h) := by
  induction fuel generalizing s with
  | zero => exact h
  | succ m ih =>
    unfold State.landSlots
    extract_lets w slot
    split
    · split
      · exact ih (State.modCluster_keeps (State.modPeer_keeps h _) _ _)
      · exact h
    · exact h

theorem State.consume_keeps {z s : State} (h : z.Keeps s) (n h : Nat) (epoch : W16) (t : PTile) :
    z.Keeps (State.consume s n h epoch t) := by
  unfold State.consume
  repeat' first
    | with_reducible assumption | with_reducible apply State.release_keeps | with_reducible apply State.partialAt_keeps | split

theorem State.landWrite_keeps {z s : State} (h : z.Keeps s) (h : PeerHdr) (t : PTile) (x : Win) :
    z.Keeps (State.landWrite s h t x) := by
  unfold State.landWrite
  repeat' first
    | with_reducible assumption | with_reducible apply State.setCluster_keeps | with_reducible apply State.modPeer_keeps
    | with_reducible apply State.peerSend_keeps | with_reducible apply State.landSlots_keeps | with_reducible apply State.consume_keeps

theorem State.takeWrite_keeps {z s : State} (h : z.Keeps s) (h : PeerHdr) (t : PTile) :
    z.Keeps (State.takeWrite s h t) := by
  unfold State.takeWrite
  repeat' first
    | with_reducible assumption | with_reducible apply State.setCluster_keeps | with_reducible apply State.peerSend_keeps
    | with_reducible apply State.refuseWrite_keeps | with_reducible apply State.landWrite_keeps | extract_lets | split

theorem execWrite_keeps {z s : State} (h : z.Keeps s) (h : PeerHdr) (t : PTile) :
    Res.Keeps z (execWrite h t s) := by
  unfold execWrite
  repeat' first
    | with_reducible assumption | with_reducible apply State.peerMsg_keeps | with_reducible apply State.takeWrite_keeps | intro _ _ _ _
    | intro _ _ _ | intro _ _ | with_reducible apply Res.Keeps.next

theorem State.takeAck_keeps {z s : State} (h : z.Keeps s) (h : PeerHdr) :
    z.Keeps (State.takeAck s h) := by
  unfold State.takeAck
  repeat' first
    | with_reducible assumption | with_reducible apply State.modCluster_keeps | with_reducible apply State.partialAcked_keeps | extract_lets
    | split

theorem execAck_keeps {z s : State} (h : z.Keeps s) (h : PeerHdr) :
    Res.Keeps z (execAck h s) := by
  unfold execAck
  repeat' first
    | with_reducible assumption | with_reducible apply State.peerMsg_keeps | with_reducible apply State.takeAck_keeps | intro _ _ _ _
    | intro _ _ _ | intro _ _ | with_reducible apply Res.Keeps.next

theorem execNack_keeps {z s : State} (h : z.Keeps s) (h : PeerHdr) :
    Res.Keeps z (execNack h s) := by
  unfold execNack
  repeat' first
    | with_reducible assumption | with_reducible apply State.modGlob_keeps | with_reducible apply State.partialAcked_keeps
    | with_reducible apply State.peerMsg_keeps | intro _ _ _ _ | intro _ _ _ | intro _ _ | with_reducible apply Res.Keeps.next

theorem State.returned_keeps {z s : State} (h : z.Keeps s) (h : PeerHdr) (t : PTile) :
    z.Keeps (State.returned s h t) := by
  unfold State.returned
  repeat' first
    | with_reducible assumption | with_reducible apply State.setOp_keeps | with_reducible apply State.sendOut_keeps
    | with_reducible apply State.resend_keeps | split

theorem execStale_keeps {z s : State} (h : z.Keeps s) (h : PeerHdr) (t : PTile) :
    Res.Keeps z (execStale h t s) := by
  unfold execStale
  repeat' first
    | with_reducible assumption | with_reducible apply State.resend_keeps | with_reducible apply State.peerMsg_keeps
    | with_reducible apply State.takeCredit_keeps | with_reducible apply State.returned_keeps | intro _ _ _ _ | intro _ _ _ | intro _ _
    | with_reducible apply Res.Keeps.next

theorem State.takeWithdraw_keeps {z s : State} (h : z.Keeps s) (h : PeerHdr) :
    z.Keeps (State.takeWithdraw s h) := by
  unfold State.takeWithdraw
  repeat' first
    | with_reducible assumption | with_reducible apply State.modPeer_keeps | with_reducible apply State.peerSend_keeps

theorem execWithdraw_keeps {z s : State} (h : z.Keeps s) (h : PeerHdr) :
    Res.Keeps z (execWithdraw h s) := by
  unfold execWithdraw
  repeat' first
    | with_reducible assumption | with_reducible apply State.peerMsg_keeps | with_reducible apply State.takeWithdraw_keeps | intro _ _ _ _
    | intro _ _ _ | intro _ _ | with_reducible apply Res.Keeps.next

theorem State.withdrawn_keeps {z s : State} (h : z.Keeps s) (w : W16) :
    z.Keeps (State.withdrawn s w) := by
  unfold State.withdrawn
  repeat' first
    | with_reducible assumption | with_reducible apply State.modPeer_keeps

theorem execWithdrawAck_keeps {z s : State} (h : z.Keeps s) (h : PeerHdr) :
    Res.Keeps z (execWithdrawAck h s) := by
  unfold execWithdrawAck
  repeat' first
    | with_reducible assumption | with_reducible apply State.peerMsg_keeps | with_reducible apply State.withdrawn_keeps | intro _ _ _ _
    | intro _ _ _ | intro _ _ | with_reducible apply Res.Keeps.next

theorem execWithdrawTimeout_keeps {z s : State} (h : z.Keeps s) (window : W16) :
    Res.Keeps z (execWithdrawTimeout window s) := by
  unfold execWithdrawTimeout
  repeat' first
    | with_reducible assumption | with_reducible apply State.withdrawn_keeps | with_reducible apply Res.Keeps.next | split

end Sys2Proof.Machine
end

