-- ==== Sys2Proof/Laws/KeepsPower.lean ====
section
/-! SUPPORT. `State.Keeps` for the operations of Machine/Power.lean. -/

namespace Sys2Proof.Machine

theorem execShareGrant_keeps {z s : State} (h : z.Keeps s) :
    Res.Keeps z (execShareGrant s) := by
  unfold execShareGrant
  repeat' first
    | with_reducible assumption | with_reducible apply State.modWeir_keeps | with_reducible apply State.grantShares_keeps
    | with_reducible apply State.progressAll_keeps | with_reducible apply Res.Keeps.next | extract_lets | split

theorem State.lendPair_keeps {z s : State} (h : z.Keeps s) (sp : Nat) (o : Op) (w : SwaitSt) :
    z.Keeps (State.lendPair s sp o w) := by
  unfold State.lendPair
  repeat' first
    | with_reducible assumption | with_reducible apply State.setPair_keeps | with_reducible apply State.modWeir_keeps
    | with_reducible apply State.trace_keeps | with_reducible apply State.pmOut_keeps | with_reducible apply State.setOp_keeps
    | with_reducible apply State.stopClock_keeps | with_reducible refine State.Keeps.fold ?_ (fun _ _ _ => ?_)

theorem execLend_keeps {z s : State} (h : z.Keeps s) (sp : Fin 8) :
    Res.Keeps z (execLend sp s) := by
  unfold execLend
  repeat' first
    | with_reducible assumption | with_reducible apply State.lendPair_keeps | with_reducible apply Res.Keeps.next | extract_lets | split

theorem State.takeBack_keeps {z s : State} (h : z.Keeps s) (sp k : Nat) :
    z.Keeps (State.takeBack s sp k) := by
  unfold State.takeBack
  repeat' first
    | with_reducible assumption | with_reducible apply State.setPair_keeps | with_reducible apply State.modWeir_keeps
    | with_reducible apply State.setOp_keeps | with_reducible apply State.requestClock_keeps
    | with_reducible refine State.Keeps.fold ?_ (fun _ _ _ => ?_) | extract_lets | split

theorem State.endLoans_keeps {z s : State} (h : z.Keeps s) (sp : Nat) : z.Keeps (s.endLoans sp) :=
  State.Keeps.fold (State.modWeir_keeps h _) (fun _ _ h => State.modWeir_keeps h _)

theorem execRecallExpiry_keeps {z s : State} (h : z.Keeps s) (sp : Fin 8) :
    Res.Keeps z (execRecallExpiry sp s) := by
  unfold execRecallExpiry
  repeat' first
    | with_reducible assumption | with_reducible apply State.takeBack_keeps | with_reducible apply State.endLoans_keeps
    | with_reducible apply Res.Keeps.next | split

theorem State.pmIn_keeps {z s : State} (h : z.Keeps s) (w : W32) (t : Nat) (ok : Bool) (f : State → State) (hf : ∀ t, z.Keeps t → z.Keeps (f t)) :
    z.Keeps (State.pmIn s w t ok f) := by
  unfold State.pmIn
  repeat' first
    | with_reducible assumption | with_reducible apply hf | with_reducible apply State.note_keeps
    | with_reducible refine State.Keeps.snd (by with_reducible assumption) ?_ | split

theorem State.takeGrant_keeps {z s : State} (h : z.Keeps s) (count : Nat) :
    z.Keeps (State.takeGrant s count) := by
  unfold State.takeGrant
  repeat' first
    | with_reducible assumption | with_reducible apply State.modWeir_keeps | with_reducible apply State.irqPending_keeps | extract_lets
    | split

theorem execGrant_keeps {z s : State} (h : z.Keeps s) (w : W32) :
    Res.Keeps z (execGrant w s) := by
  unfold execGrant
  repeat' first
    | with_reducible assumption | with_reducible apply State.pmIn_keeps | with_reducible apply State.takeGrant_keeps | intro _ _ _ _
    | intro _ _ _ | intro _ _ | with_reducible apply Res.Keeps.next

theorem State.giveBack_keeps {z s : State} (h : z.Keeps s) (p : Nat) (l : List Nat) (k : Nat) : z.Keeps (s.giveBack p l k).2 := by
  induction l generalizing s k with
  | nil => exact h
  | cons sp sps ih =>
    unfold State.giveBack
    extract_lets x n
    refine ih ?_ _
    split
    · exact h
    · exact State.takeBack_keeps h _ _

theorem State.giveLoans_keeps {z s : State} (h : z.Keeps s) (p k : Nat) : z.Keeps (s.giveLoans p k).2 := by
  unfold State.giveLoans
  extract_lets n
  split
  · exact h
  · with_reducible apply State.modWeir_keeps h

theorem State.takeReturn_keeps {z s : State} (h : z.Keeps s) (p k : Nat) : z.Keeps (s.takeReturn p k) :=
  State.giveBack_keeps (State.giveLoans_keeps (State.giveBack_keeps h _ _ _) _ _) _ _ _

theorem execReturnShares_keeps {z s : State} (h : z.Keeps s) (w : W32) :
    Res.Keeps z (execReturnShares w s) := by
  unfold execReturnShares
  exact Res.Keeps.next (State.pmIn_keeps h _ _ _ _ (fun t ht => State.takeReturn_keeps ht _ _))

theorem execFreq_keeps {z s : State} (h : z.Keeps s) (w : W32) :
    Res.Keeps z (execFreq w s) := by
  unfold execFreq
  repeat' first
    | with_reducible assumption | with_reducible apply State.modClk_keeps | with_reducible apply State.pmIn_keeps | intro _ _ _ _
    | intro _ _ _ | intro _ _ | with_reducible apply Res.Keeps.next

theorem execFreqSwitchDone_keeps {z s : State} (h : z.Keeps s) :
    Res.Keeps z (execFreqSwitchDone s) := by
  unfold execFreqSwitchDone
  repeat' first
    | with_reducible assumption | with_reducible apply State.modClk_keeps | with_reducible apply State.pmOut_keeps
    | with_reducible apply Res.Keeps.next | split

theorem execWake_keeps {z s : State} (h : z.Keeps s) (c : WakeCause) :
    Res.Keeps z (execWake c s) := by
  unfold execWake
  repeat' first
    | with_reducible assumption | with_reducible apply State.startWake_keeps | with_reducible apply State.pmIn_keeps | intro _ _ _ _
    | intro _ _ _ | intro _ _ | with_reducible apply Res.Keeps.next | split

theorem execNoStop_keeps {z s : State} (h : z.Keeps s) (w : W32) :
    Res.Keeps z (execNoStop w s) := by
  unfold execNoStop
  repeat' first
    | with_reducible assumption | with_reducible apply State.modClk_keeps | with_reducible apply State.pmIn_keeps | intro _ _ _ _
    | intro _ _ _ | intro _ _ | with_reducible apply Res.Keeps.next

theorem State.powerReport_keeps {z s : State} (h : z.Keeps s) :
    z.Keeps (State.powerReport s) := by
  unfold State.powerReport
  repeat' first
    | with_reducible assumption | with_reducible apply State.modPt_keeps | with_reducible apply State.draw_keeps
    | with_reducible apply State.pmOut_keeps | with_reducible apply State.meterEvent_keeps
    | with_reducible refine State.Keeps.fold ?_ (fun _ _ _ => ?_)

theorem execPower_keeps {z s : State} (h : z.Keeps s) :
    Res.Keeps z (execPower s) := by
  unfold execPower
  repeat' first
    | with_reducible assumption | with_reducible apply State.powerReport_keeps | with_reducible apply Res.Keeps.next | split

theorem execClusterClockStop_keeps {z s : State} (h : z.Keeps s) (n : Fin 32) :
    Res.Keeps z (execClusterClockStop n s) := by
  unfold execClusterClockStop
  repeat' first
    | with_reducible assumption | with_reducible apply State.modWeir_keeps | with_reducible apply State.stopClock_keeps
    | with_reducible apply Res.Keeps.next | split

theorem execClusterClockStart_keeps {z s : State} (h : z.Keeps s) (n : Fin 32) :
    Res.Keeps z (execClusterClockStart n s) := by
  unfold execClusterClockStart
  repeat' first
    | with_reducible assumption | with_reducible apply State.startClock_keeps | with_reducible apply Res.Keeps.next | split

theorem execPrewakeTimeout_keeps {z s : State} (h : z.Keeps s) (n : Fin 32) :
    Res.Keeps z (execPrewakeTimeout n s) := by
  unfold execPrewakeTimeout
  repeat' first
    | with_reducible assumption | with_reducible apply State.modWeir_keeps | with_reducible apply State.stopClock_keeps
    | with_reducible apply Res.Keeps.next | split

theorem execPllStop_keeps {z s : State} (h : z.Keeps s) :
    Res.Keeps z (execPllStop s) := by
  unfold execPllStop
  repeat' first
    | with_reducible assumption | with_reducible apply State.modClk_keeps | with_reducible apply State.trace_keeps
    | with_reducible apply State.pmOut_keeps | with_reducible apply State.stage_keeps | with_reducible apply State.streamAll_keeps
    | with_reducible apply Res.Keeps.next | extract_lets | split | dsimp +zetaDelta only

theorem execPllLockLoss_keeps {z s : State} (h : z.Keeps s) :
    Res.Keeps z (execPllLockLoss s) := by
  unfold execPllLockLoss
  repeat' first
    | with_reducible assumption | with_reducible apply State.modHw_keeps | with_reducible apply State.modClk_keeps
    | with_reducible apply State.enterFatal_keeps | with_reducible apply Res.Keeps.next | extract_lets | split

theorem execRefClkAbsent_keeps {z s : State} (h : z.Keeps s) :
    Res.Keeps z (execRefClkAbsent s) := by
  unfold execRefClkAbsent
  repeat' first
    | with_reducible assumption | with_reducible apply State.enterFatal_keeps | with_reducible apply Res.Keeps.next | split

theorem execClockUnitSelfCheckFail_keeps {z s : State} (h : z.Keeps s) :
    Res.Keeps z (execClockUnitSelfCheckFail s) := by
  unfold execClockUnitSelfCheckFail
  repeat' first
    | with_reducible assumption | with_reducible apply State.enterFatal_keeps | with_reducible apply Res.Keeps.next | split

theorem execResetTagQuarantineEnd_keeps {z s : State} (h : z.Keeps s) :
    Res.Keeps z (execResetTagQuarantineEnd s) := by
  unfold execResetTagQuarantineEnd
  repeat' first
    | with_reducible assumption | with_reducible apply Res.Keeps.next | extract_lets | split | dsimp +zetaDelta only
    | with_reducible apply State.Keeps.with

theorem execSignalTimeout_keeps {z s : State} (h : z.Keeps s) (sp : Fin 8) :
    Res.Keeps z (execSignalTimeout sp s) := by
  unfold execSignalTimeout
  repeat' first
    | with_reducible assumption | with_reducible apply State.endSwait_keeps | with_reducible apply State.unwait_keeps
    | with_reducible apply Res.Keeps.next | split

end Sys2Proof.Machine
end

