-- ==== Sys2Proof/Laws/KeepsSwap.lean ====
section
/-! SUPPORT. `State.Keeps` for the operations of Machine/Swap.lean. -/

namespace Sys2Proof.Machine

theorem State.swapLocked_keeps {z s : State} (h : z.Keeps s) (w p : Nat) :
    z.Keeps (State.swapLocked s w p) := by
  unfold State.swapLocked
  repeat' first
    | with_reducible assumption | with_reducible apply State.modCfg_keeps | with_reducible apply State.modRecorder_keeps
    | with_reducible apply State.note_keeps | with_reducible apply State.event_keeps | extract_lets | split

theorem State.swapEnds_keeps {z s : State} (h : z.Keeps s) (p : Nat) (c : Cmd) (status detail : Nat) :
    z.Keeps (State.swapEnds s p c status detail) := by
  unfold State.swapEnds
  repeat' first
    | with_reducible assumption | with_reducible apply State.finish_keeps | with_reducible apply State.takeOpid_keeps

theorem State.underShadow_keeps {z s : State} (h : z.Keeps s) (p : Nat) :
    z.Keeps (State.underShadow s p) := by
  unfold State.underShadow
  repeat' first
    | with_reducible assumption | extract_lets | split | dsimp +zetaDelta only | with_reducible apply State.Keeps.with

theorem State.copyTables_keeps {z s : State} (h : z.Keeps s) :
    z.Keeps (State.copyTables s) := by
  unfold State.copyTables
  repeat' first
    | with_reducible assumption | with_reducible apply State.modCfg_keeps

theorem State.judgeSwap_keeps {z s : State} (h : z.Keeps s) (p : Nat) (c : Cmd) :
    z.Keeps (State.judgeSwap s p c) := by
  unfold State.judgeSwap
  repeat' first
    | with_reducible assumption | with_reducible apply State.modCfg_keeps | with_reducible apply State.unstage_keeps
    | with_reducible apply State.takeOpid_keeps | with_reducible apply State.swapLocked_keeps | with_reducible apply State.swapEnds_keeps
    | with_reducible apply State.copyTables_keeps | with_reducible refine State.Keeps.fold ?_ (fun _ _ _ => ?_)
    | with_reducible refine State.Keeps.snd (by with_reducible assumption) ?_ | extract_lets | split

theorem execSwap_keeps {z s : State} (h : z.Keeps s) (c : Cmd) :
    Res.Keeps z (execSwap c s) := by
  unfold execSwap
  repeat' first
    | with_reducible assumption | with_reducible apply State.ringRow_keeps | with_reducible apply State.judgeSwap_keeps | intro _ _ _ _
    | intro _ _ _ | intro _ _ | with_reducible apply Res.Keeps.next

theorem State.completeSwap_keeps {z s : State} (h : z.Keeps s) (x : SwapInProgress) :
    z.Keeps (State.completeSwap s x) := by
  unfold State.completeSwap
  repeat' first
    | with_reducible assumption | with_reducible apply State.modPair_keeps | with_reducible apply State.modCfg_keeps
    | with_reducible apply State.completeCmd_keeps | with_reducible refine State.Keeps.fold ?_ (fun _ _ _ => ?_)

theorem State.swapCheck_keeps {z s : State} (h : z.Keeps s) :
    z.Keeps (State.swapCheck s) := by
  unfold State.swapCheck
  repeat' first
    | with_reducible assumption | with_reducible apply State.completeSwap_keeps | split

theorem State.takeRoot_keeps {z s : State} (h : z.Keeps s) (p : Nat) :
    z.Keeps (State.takeRoot s p) := by
  unfold State.takeRoot
  repeat' first
    | with_reducible assumption | with_reducible apply State.modHw_keeps | with_reducible apply State.modCfg_keeps
    | with_reducible apply State.modTr_keeps | with_reducible apply State.queueMisses_keeps

theorem State.moveCluster_keeps {z s : State} (h : z.Keeps s) (n : Nat) :
    z.Keeps (State.moveCluster s n) := by
  unfold State.moveCluster
  repeat' first
    | with_reducible assumption | with_reducible apply State.modCluster_keeps | with_reducible apply State.withdraw_keeps

theorem State.resize_keeps {z s : State} (h : z.Keeps s) (n : Nat) :
    z.Keeps (State.resize s n) := by
  unfold State.resize
  repeat' first
    | with_reducible assumption | with_reducible apply State.setCluster_keeps | with_reducible apply State.withdraw_keeps | extract_lets
    | split

theorem State.renewPool_keeps {z s : State} (h : z.Keeps s) (old : CfgSet) (p : Nat) :
    z.Keeps (State.renewPool s old p) := by
  unfold State.renewPool
  repeat' first
    | with_reducible assumption | with_reducible apply State.modPool_keeps | split

theorem State.switch_keeps {z s : State} (h : z.Keeps s) (x : SwapInProgress) :
    z.Keeps (State.switch s x) := by
  unfold State.switch
  repeat' first
    | with_reducible assumption | with_reducible apply State.modHw_keeps | with_reducible apply State.modCfg_keeps
    | with_reducible apply State.trace_keeps | with_reducible apply State.judgeFamine_keeps | with_reducible apply State.leaveLoans_keeps
    | with_reducible apply State.replaceAll_keeps | with_reducible apply State.swapCheck_keeps | with_reducible apply State.takeRoot_keeps
    | with_reducible apply State.moveCluster_keeps | with_reducible apply State.resize_keeps | with_reducible apply State.renewPool_keeps
    | with_reducible refine State.Keeps.fold ?_ (fun _ _ _ => ?_)

theorem execSwapSwitchPoint_keeps {z s : State} (h : z.Keeps s) :
    Res.Keeps z (execSwapSwitchPoint s) := by
  unfold execSwapSwitchPoint
  repeat' first
    | with_reducible assumption | with_reducible apply State.switch_keeps | with_reducible apply Res.Keeps.next | split

theorem execClusterClearDone_keeps {z s : State} (h : z.Keeps s) (n : Fin 32) :
    Res.Keeps z (execClusterClearDone n s) := by
  unfold execClusterClearDone
  repeat' first
    | with_reducible assumption | with_reducible apply State.setCluster_keeps | with_reducible apply State.swapCheck_keeps
    | with_reducible apply Res.Keeps.next | extract_lets | split

theorem State.startProgram_keeps {z s : State} (h : z.Keeps s) (p : Nat) (c : Cmd) :
    z.Keeps (State.startProgram s p c) := by
  unfold State.startProgram
  repeat' first
    | with_reducible assumption | with_reducible apply State.modPair_keeps | with_reducible apply State.setOp_keeps
    | with_reducible apply State.admitOp_keeps | with_reducible apply State.share_keeps
    | with_reducible refine State.Keeps.fold ?_ (fun _ _ _ => ?_) | with_reducible refine State.Keeps.snd (by with_reducible assumption) ?_
    | extract_lets | split

theorem State.runProgram_keeps {z s : State} (h : z.Keeps s) (p : Nat) (c : Cmd) :
    z.Keeps (State.runProgram s p c) := by
  unfold State.runProgram
  repeat' first
    | with_reducible assumption | with_reducible apply State.finish_keeps | with_reducible apply State.imageFault_keeps
    | with_reducible apply State.startProgram_keeps | extract_lets | split

theorem execRunProgram_keeps {z s : State} (h : z.Keeps s) (c : Cmd) :
    Res.Keeps z (execRunProgram c s) := by
  unfold execRunProgram
  repeat' first
    | with_reducible assumption | with_reducible apply State.ringRow_keeps | with_reducible apply State.runProgram_keeps | intro _ _ _ _
    | intro _ _ _ | intro _ _ | with_reducible apply Res.Keeps.next

theorem State.imageLoaded_keeps {z s : State} (h : z.Keeps s) (o : Op) (a : Nat) :
    z.Keeps (State.imageLoaded s o a) := by
  unfold State.imageLoaded
  repeat' first
    | with_reducible assumption | with_reducible apply State.load_keeps | with_reducible apply State.modPair_keeps
    | with_reducible apply State.setOp_keeps | with_reducible apply State.progCheck_keeps
    | with_reducible refine State.Keeps.fold ?_ (fun _ _ _ => ?_)

theorem execImageLoadDone_keeps {z s : State} (h : z.Keeps s) (opid : W32) :
    Res.Keeps z (execImageLoadDone opid s) := by
  unfold execImageLoadDone
  repeat' first
    | with_reducible assumption | with_reducible apply State.imageLoaded_keeps | with_reducible apply Res.Keeps.next | split

end Sys2Proof.Machine
end

