-- ==== Sys2Proof/Laws/KeepsResets.lean ====
section
/-! SUPPORT. `State.Keeps` for the operations of Machine/Resets.lean. -/

namespace Sys2Proof.Machine

theorem State.cold_keeps {z s : State} (h : z.Keeps s)  :
    z.Keeps (State.cold s) := by
  exact h.with

theorem execColdReset_keeps {z s : State} (h : z.Keeps s) :
    Res.Keeps z (execColdReset s) := by
  unfold execColdReset
  repeat' first
    | with_reducible assumption | with_reducible apply State.cold_keeps | with_reducible apply Res.Keeps.next

theorem State.blockReset_keeps {z s : State} (h : z.Keeps s) (kind : ResetKind) (last : BitVec 2) :
    z.Keeps (State.blockReset s kind last) := by
  exact h.with

theorem State.startBlockReset_keeps {z s : State} (h : z.Keeps s) (kind : ResetKind) (last : BitVec 2) :
    z.Keeps (State.startBlockReset s kind last) := by
  unfold State.startBlockReset
  repeat' first
    | with_reducible assumption | with_reducible apply State.cold_keeps | with_reducible apply State.blockReset_keeps | split

theorem execBlockReset_keeps {z s : State} (h : z.Keeps s) :
    Res.Keeps z (execBlockReset s) := by
  unfold execBlockReset
  repeat' first
    | with_reducible assumption | with_reducible apply State.startBlockReset_keeps | with_reducible apply Res.Keeps.next

theorem State.ownerLost_keeps {z s : State} (h : z.Keeps s) (w : Waiter) :
    z.Keeps (State.ownerLost s w) := by
  unfold State.ownerLost
  repeat' first
    | with_reducible assumption | with_reducible apply State.modCluster_keeps | with_reducible apply State.endSwait_keeps
    | with_reducible apply State.finish_keeps | split

theorem State.resetSignals_keeps {z s : State} (h : z.Keeps s) (p : Nat) :
    z.Keeps (State.resetSignals s p) := by
  unfold State.resetSignals
  repeat' first
    | with_reducible assumption | with_reducible apply State.modSig_keeps | with_reducible apply State.ownerLost_keeps
    | with_reducible refine State.Keeps.fold ?_ (fun _ _ _ => ?_)

theorem State.stopRings_keeps {z s : State} (h : z.Keeps s) (p : Nat) :
    z.Keeps (State.stopRings s p) := by
  unfold State.stopRings
  repeat' first
    | with_reducible assumption | with_reducible apply State.modHw_keeps

theorem State.dropWaiters_keeps {z s : State} (h : z.Keeps s) (p : Nat) :
    z.Keeps (State.dropWaiters s p) := by
  unfold State.dropWaiters
  repeat' first
    | with_reducible assumption | with_reducible apply State.modSig_keeps

theorem State.dropOps_keeps {z s : State} (h : z.Keeps s) (p : Nat) :
    z.Keeps (State.dropOps s p) := by
  unfold State.dropOps
  repeat' first
    | with_reducible assumption | with_reducible apply State.modWeir_keeps | with_reducible apply State.modPt_keeps
    | with_reducible apply State.dropOp_keeps | with_reducible apply State.leaveLoans_keeps | with_reducible apply State.freePairs_keeps
    | with_reducible refine State.Keeps.fold ?_ (fun _ _ _ => ?_) | extract_lets | dsimp +zetaDelta only
    | with_reducible apply State.Keeps.with

theorem State.dropStaged_keeps {z s : State} (h : z.Keeps s) (p : Nat) :
    z.Keeps (State.dropStaged s p) := by
  unfold State.dropStaged
  repeat' first
    | with_reducible assumption | with_reducible apply State.modHw_keeps | with_reducible apply State.modCfg_keeps
    | with_reducible apply State.modTr_keeps | with_reducible apply State.light_keeps | extract_lets | split

theorem State.dropContexts_keeps {z s : State} (h : z.Keeps s) (p : Nat) :
    z.Keeps (State.dropContexts s p) := by
  unfold State.dropContexts
  repeat' first
    | with_reducible assumption | with_reducible apply State.modPool_keeps | with_reducible apply State.modHw_keeps

theorem State.startPartReset_keeps {z s : State} (h : z.Keeps s) (p : Nat) :
    z.Keeps (State.startPartReset s p) := by
  unfold State.startPartReset
  repeat' first
    | with_reducible assumption | with_reducible apply State.modCfg_keeps | with_reducible apply State.note_keeps
    | with_reducible apply State.classPMark_keeps | with_reducible apply State.withdraw_keeps
    | with_reducible apply State.resetSignals_keeps | with_reducible apply State.stopRings_keeps
    | with_reducible apply State.dropWaiters_keeps | with_reducible apply State.dropOps_keeps | with_reducible apply State.dropStaged_keeps
    | with_reducible apply State.dropContexts_keeps | with_reducible refine State.Keeps.fold ?_ (fun _ _ _ => ?_) | extract_lets | split

theorem State.writePartCtl_keeps {z s : State} (h : z.Keeps s) (v : W64) :
    z.Keeps (State.writePartCtl s v) := by
  unfold State.writePartCtl
  repeat' first
    | with_reducible assumption | with_reducible apply State.modCfg_keeps | with_reducible apply State.startPartReset_keeps
    | with_reducible refine State.Keeps.fold ?_ (fun _ _ _ => ?_)

theorem State.finishPartReset_keeps {z s : State} (h : z.Keeps s) (p : Nat) :
    z.Keeps (State.finishPartReset s p) := by
  unfold State.finishPartReset
  repeat' first
    | with_reducible assumption | with_reducible apply State.modCluster_keeps | with_reducible apply State.modCfg_keeps
    | with_reducible apply State.modRas_keeps | with_reducible apply State.swapCheck_keeps
    | with_reducible refine State.Keeps.fold ?_ (fun _ _ _ => ?_) | extract_lets | split | dsimp +zetaDelta only
    | with_reducible apply State.Keeps.with

theorem execPartitionResetDone_keeps {z s : State} (h : z.Keeps s) (p : Fin 16) :
    Res.Keeps z (execPartitionResetDone p s) := by
  unfold execPartitionResetDone
  repeat' first
    | with_reducible assumption | with_reducible apply State.finishPartReset_keeps | with_reducible apply Res.Keeps.next | split

theorem State.ignoredWrite_keeps {z s : State} (h : z.Keeps s) (part : Option Nat) (off : Nat) (v : W64) :
    z.Keeps (State.ignoredWrite s part off v) := by
  unfold State.ignoredWrite
  repeat' first
    | with_reducible assumption | with_reducible apply State.note_keeps

theorem State.writeKill_keeps {z s : State} (h : z.Keeps s) (p off : Nat) (v : W64) :
    z.Keeps (State.writeKill s p off v) := by
  unfold State.writeKill
  repeat' first
    | with_reducible assumption | with_reducible apply State.modPt_keeps | with_reducible apply State.kill_keeps
    | with_reducible apply State.ignoredWrite_keeps | extract_lets | split

end Sys2Proof.Machine
end

