-- ==== Sys2Proof/Laws/KeepsHostPort.lean ====
section
/-! SUPPORT. `State.Keeps` for the operations of Machine/HostPort.lean. -/

namespace Sys2Proof.Machine

theorem State.writeConfig_keeps {z s : State} (h : z.Keeps s) (off : Nat) (m v : W64) :
    z.Keeps (State.writeConfig s off m v) := by
  unfold State.writeConfig
  repeat' first
    | with_reducible assumption | with_reducible apply State.modCfg_keeps | split

theorem State.writePartLock_keeps {z s : State} (h : z.Keeps s) (v : W64) :
    z.Keeps (State.writePartLock s v) := by
  unfold State.writePartLock
  repeat' first
    | with_reducible assumption | with_reducible apply State.modCfg_keeps | with_reducible apply State.lockedWrite_keeps | extract_lets
    | split

theorem State.writePeerCtl_keeps {z s : State} (h : z.Keeps s) (v : W64) :
    z.Keeps (State.writePeerCtl s v) := by
  unfold State.writePeerCtl
  repeat' first
    | with_reducible assumption | with_reducible apply State.modGlob_keeps | with_reducible apply State.lockedWrite_keeps | extract_lets
    | split

theorem State.writeGlobal_keeps {z s : State} (h : z.Keeps s) (off : Nat) (v : W64) :
    z.Keeps (State.writeGlobal s off v) := by
  unfold State.writeGlobal
  repeat' first
    | with_reducible assumption | with_reducible apply State.modCfg_keeps | with_reducible apply State.modGlob_keeps
    | with_reducible apply State.writePartCtl_keeps | with_reducible apply State.writePartLock_keeps
    | with_reducible apply State.writePeerCtl_keeps | split

theorem State.writePower_keeps {z s : State} (h : z.Keeps s) (off : Nat) (v : W64) :
    z.Keeps (State.writePower s off v) := by
  unfold State.writePower
  repeat' first
    | with_reducible assumption | with_reducible apply State.modClk_keeps | with_reducible apply State.startBlockReset_keeps
    | with_reducible apply State.ignoredWrite_keeps | split

theorem State.writeRas_keeps {z s : State} (h : z.Keeps s) (off : Nat) (v : W64) :
    z.Keeps (State.writeRas s off v) := by
  unfold State.writeRas
  repeat' first
    | with_reducible assumption | with_reducible apply State.modRas_keeps | with_reducible apply State.modRecorder_keeps | split

theorem State.writeTrace_keeps {z s : State} (h : z.Keeps s) (off : Nat) (v : W64) :
    z.Keeps (State.writeTrace s off v) := by
  unfold State.writeTrace
  repeat' first
    | with_reducible assumption | with_reducible apply State.modTrc_keeps | with_reducible apply State.trace_keeps | split

theorem State.writeTr_keeps {z s : State} (h : z.Keeps s) (off : Nat) (v : W64) :
    z.Keeps (State.writeTr s off v) := by
  unfold State.writeTr
  repeat' first
    | with_reducible assumption | with_reducible apply State.modTr_keeps | with_reducible apply State.lockedWrite_keeps
    | with_reducible apply State.writeInv_keeps | split

theorem State.writeRingField_keeps {z s : State} (h : z.Keeps s) (f : Ring → Ring) :
    z.Keeps (State.writeRingField s f) := by
  unfold State.writeRingField
  repeat' first
    | with_reducible assumption | with_reducible apply State.modRing_keeps

theorem State.writeHw_keeps {z s : State} (h : z.Keeps s) (off : Nat) (v : W64) :
    z.Keeps (State.writeHw s off v) := by
  unfold State.writeHw
  repeat' first
    | with_reducible assumption | with_reducible apply State.modRing_keeps | with_reducible apply State.modHw_keeps
    | with_reducible apply State.modWeir_keeps | with_reducible apply State.lockedWrite_keeps | with_reducible apply State.enableRing_keeps
    | with_reducible apply State.disableRing_keeps | with_reducible apply State.ringBell_keeps
    | with_reducible apply State.writeRingField_keeps | split

theorem State.writeSig_keeps {z s : State} (h : z.Keeps s) (p : Nat) (v : W64) :
    z.Keeps (State.writeSig s p v) := by
  unfold State.writeSig
  repeat' first
    | with_reducible assumption | with_reducible apply State.modSig_keeps | with_reducible apply State.setRaised_keeps
    | with_reducible apply State.raise_keeps | with_reducible apply State.ignoredWrite_keeps | extract_lets | split

theorem State.writePt_keeps {z s : State} (h : z.Keeps s) (p o : Nat) (v : W64) :
    z.Keeps (State.writePt s p o v) := by
  unfold State.writePt
  repeat' first
    | with_reducible assumption | with_reducible apply State.modPool_keeps | with_reducible apply State.modPt_keeps
    | with_reducible apply State.retryResume_keeps | with_reducible apply State.writeResume_keeps
    | with_reducible apply State.writeKill_keeps | with_reducible apply State.writeSig_keeps | split

theorem State.writePair_keeps {z s : State} (h : z.Keeps s) (off : Nat) (v : W64) :
    z.Keeps (State.writePair s off v) := by
  unfold State.writePair
  repeat' first
    | with_reducible assumption | with_reducible apply State.modPair_keeps | extract_lets | split

theorem State.applyWrite_keeps {z s : State} (h : z.Keeps s) (off : Nat) (v : W64) :
    z.Keeps (State.applyWrite s off v) := by
  unfold State.applyWrite
  repeat' first
    | with_reducible assumption | with_reducible apply State.writeConfig_keeps | with_reducible apply State.writeGlobal_keeps
    | with_reducible apply State.writePower_keeps | with_reducible apply State.writeRas_keeps | with_reducible apply State.writeTrace_keeps
    | with_reducible apply State.writeTr_keeps | with_reducible apply State.writeHw_keeps | with_reducible apply State.writePt_keeps
    | with_reducible apply State.writePair_keeps | split

theorem State.hostWrite_keeps {z s : State} (h : z.Keeps s) (off : Nat) (v : W64) :
    z.Keeps (State.hostWrite s off v) := by
  unfold State.hostWrite
  repeat' first
    | with_reducible assumption | with_reducible apply State.modClk_keeps | with_reducible apply State.modOut_keeps
    | with_reducible apply State.startWake_keeps | with_reducible apply State.applyWrite_keeps | split

theorem State.applyBuffered_keeps {z s : State} (h : z.Keeps s) :
    z.Keeps (State.applyBuffered s) := by
  unfold State.applyBuffered
  repeat' first
    | with_reducible assumption | with_reducible apply State.modClk_keeps | with_reducible apply State.applyWrite_keeps
    | with_reducible refine State.Keeps.fold ?_ (fun _ _ _ => ?_)

theorem execRegWrite_keeps {z s : State} (h : z.Keeps s) (off : BitVec 24) (v : W64) :
    Res.Keeps z (execRegWrite off v s) := by
  unfold execRegWrite
  repeat' first
    | with_reducible assumption | with_reducible apply State.hostWrite_keeps | with_reducible apply Res.Keeps.next

theorem execConfigWrite_keeps {z s : State} (h : z.Keeps s) (off : BitVec 24) (v : W64) :
    Res.Keeps z (execConfigWrite off v s) := by
  unfold execConfigWrite
  repeat' first
    | with_reducible assumption | with_reducible apply State.hostWrite_keeps | with_reducible apply Res.Keeps.next | split

theorem execAxPartLock_keeps {z s : State} (h : z.Keeps s) (v : W64) :
    Res.Keeps z (execAxPartLock v s) := by
  unfold execAxPartLock
  repeat' first
    | with_reducible assumption | with_reducible apply State.hostWrite_keeps | with_reducible apply Res.Keeps.next

theorem execRasPstop_keeps {z s : State} (h : z.Keeps s) (v : W64) :
    Res.Keeps z (execRasPstop v s) := by
  unfold execRasPstop
  repeat' first
    | with_reducible assumption | with_reducible apply State.hostWrite_keeps | with_reducible apply Res.Keeps.next

theorem execRingEnable_keeps {z s : State} (h : z.Keeps s) (v : W64) :
    Res.Keeps z (execRingEnable v s) := by
  unfold execRingEnable
  repeat' first
    | with_reducible assumption | with_reducible apply State.hostWrite_keeps | with_reducible apply Res.Keeps.next | split

theorem execRingDisable_keeps {z s : State} (h : z.Keeps s) (v : W64) :
    Res.Keeps z (execRingDisable v s) := by
  unfold execRingDisable
  repeat' first
    | with_reducible assumption | with_reducible apply State.hostWrite_keeps | with_reducible apply Res.Keeps.next | split

theorem execDoorbell_keeps {z s : State} (h : z.Keeps s) (r : BitVec 14) (v : W64) :
    Res.Keeps z (execDoorbell r v s) := by
  unfold execDoorbell
  repeat' first
    | with_reducible assumption | with_reducible apply State.hostWrite_keeps | with_reducible apply Res.Keeps.next

theorem execUnmap_keeps {z s : State} (h : z.Keeps s) (v : W64) :
    Res.Keeps z (execUnmap v s) := by
  unfold execUnmap
  repeat' first
    | with_reducible assumption | with_reducible apply State.hostWrite_keeps | with_reducible apply Res.Keeps.next | split

theorem execHold_keeps {z s : State} (h : z.Keeps s) (v : W64) :
    Res.Keeps z (execHold v s) := by
  unfold execHold
  repeat' first
    | with_reducible assumption | with_reducible apply State.hostWrite_keeps | with_reducible apply Res.Keeps.next | split

theorem execResolve_keeps {z s : State} (h : z.Keeps s) (v : W64) :
    Res.Keeps z (execResolve v s) := by
  unfold execResolve
  repeat' first
    | with_reducible assumption | with_reducible apply State.hostWrite_keeps | with_reducible apply Res.Keeps.next | split

theorem execPtSigSelect_keeps {z s : State} (h : z.Keeps s) (p : Fin 16) (v : W64) :
    Res.Keeps z (execPtSigSelect p v s) := by
  unfold execPtSigSelect
  repeat' first
    | with_reducible assumption | with_reducible apply State.hostWrite_keeps | with_reducible apply Res.Keeps.next | split

theorem execPtSigRaise_keeps {z s : State} (h : z.Keeps s) (p : Fin 16) (v : W64) :
    Res.Keeps z (execPtSigRaise p v s) := by
  unfold execPtSigRaise
  repeat' first
    | with_reducible assumption | with_reducible apply State.hostWrite_keeps | with_reducible apply Res.Keeps.next | split

theorem execPtSigClear_keeps {z s : State} (h : z.Keeps s) (p : Fin 16) (v : W64) :
    Res.Keeps z (execPtSigClear p v s) := by
  unfold execPtSigClear
  repeat' first
    | with_reducible assumption | with_reducible apply State.hostWrite_keeps | with_reducible apply Res.Keeps.next | split

theorem execPtResumeResume_keeps {z s : State} (h : z.Keeps s) (p : Fin 16) (v : W64) :
    Res.Keeps z (execPtResumeResume p v s) := by
  unfold execPtResumeResume
  repeat' first
    | with_reducible assumption | with_reducible apply State.hostWrite_keeps | with_reducible apply Res.Keeps.next | split

theorem execPtResumeRelease_keeps {z s : State} (h : z.Keeps s) (p : Fin 16) (v : W64) :
    Res.Keeps z (execPtResumeRelease p v s) := by
  unfold execPtResumeRelease
  repeat' first
    | with_reducible assumption | with_reducible apply State.hostWrite_keeps | with_reducible apply Res.Keeps.next | split

theorem execPtKill_keeps {z s : State} (h : z.Keeps s) (p : Fin 16) (v : W64) :
    Res.Keeps z (execPtKill p v s) := by
  unfold execPtKill
  repeat' first
    | with_reducible assumption | with_reducible apply State.hostWrite_keeps | with_reducible apply Res.Keeps.next | split

theorem execRstCtlBlock_keeps {z s : State} (h : z.Keeps s) (v : W64) :
    Res.Keeps z (execRstCtlBlock v s) := by
  unfold execRstCtlBlock
  repeat' first
    | with_reducible assumption | with_reducible apply State.hostWrite_keeps | with_reducible apply Res.Keeps.next | split

theorem execPartitionReset_keeps {z s : State} (h : z.Keeps s) (v : W64) :
    Res.Keeps z (execPartitionReset v s) := by
  unfold execPartitionReset
  repeat' first
    | with_reducible assumption | with_reducible apply State.hostWrite_keeps | with_reducible apply Res.Keeps.next | split

theorem execTrcMark_keeps {z s : State} (h : z.Keeps s) (v : W64) :
    Res.Keeps z (execTrcMark v s) := by
  unfold execTrcMark
  repeat' first
    | with_reducible assumption | with_reducible apply State.hostWrite_keeps | with_reducible apply Res.Keeps.next

theorem execFlush_keeps {z s : State} (h : z.Keeps s) (v : W64) :
    Res.Keeps z (execFlush v s) := by
  unfold execFlush
  repeat' first
    | with_reducible assumption | with_reducible apply State.hostWrite_keeps | with_reducible apply Res.Keeps.next | split

end Sys2Proof.Machine
end

