-- ==== Sys2Proof/Laws/KeepsBringup.lean ====
section
/-! SUPPORT. `State.Keeps` for the operations of Machine/Bringup.lean. -/

namespace Sys2Proof.Machine

theorem State.stageRecord_keeps {z s : State} (h : z.Keeps s) :
    z.Keeps (State.stageRecord s) := by
  unfold State.stageRecord
  repeat' first
    | with_reducible assumption | with_reducible apply State.event_keeps

theorem State.findDevice_keeps {z s : State} (h : z.Keeps s) (ok : Bool) :
    z.Keeps (State.findDevice s ok) := by
  unfold State.findDevice
  repeat' first
    | with_reducible assumption | with_reducible apply State.modBoot_keeps | with_reducible apply State.modRecorder_keeps
    | with_reducible apply State.restoreRecorder_keeps | with_reducible apply State.cold_keeps | extract_lets | split

theorem State.resetRecord_keeps {z s : State} (h : z.Keeps s) :
    z.Keeps (State.resetRecord s) := by
  unfold State.resetRecord
  repeat' first
    | with_reducible assumption | with_reducible apply State.event_keeps | with_reducible apply State.cold_keeps | split

theorem State.restartEvent_keeps {z s : State} (h : z.Keeps s) :
    z.Keeps (State.restartEvent s) := by
  unfold State.restartEvent
  repeat' first
    | with_reducible assumption | with_reducible apply State.modLink_keeps | with_reducible apply State.cold_keeps | split

theorem State.beginS1_keeps {z s : State} (h : z.Keeps s) (r : BringUp) :
    z.Keeps (State.beginS1 s r) := by
  unfold State.beginS1
  repeat' first
    | with_reducible assumption | with_reducible apply State.stage_keeps | with_reducible apply State.modBoot_keeps
    | with_reducible apply State.enterFatal_keeps | with_reducible apply State.stageRecord_keeps
    | with_reducible apply State.findDevice_keeps | with_reducible apply State.resetRecord_keeps
    | with_reducible apply State.restartEvent_keeps | extract_lets | split

theorem execResetRelease_keeps {z s : State} (h : z.Keeps s) (r : BringUp) :
    Res.Keeps z (execResetRelease r s) := by
  unfold execResetRelease
  repeat' first
    | with_reducible assumption | with_reducible apply State.beginS1_keeps | with_reducible apply Res.Keeps.next | split

theorem State.endS2_keeps {z s : State} (h : z.Keeps s) :
    z.Keeps (State.endS2 s) := by
  unfold State.endS2
  repeat' first
    | with_reducible assumption | with_reducible apply State.stage_keeps | with_reducible apply State.modBoot_keeps
    | with_reducible apply State.rasIrq_keeps | with_reducible apply State.stageRecord_keeps | split

theorem State.skipWaves_keeps {z s : State} (h : z.Keeps s) (fuel : Nat) :
    z.Keeps (State.skipWaves fuel s) := by
  induction fuel generalizing s with
  | zero => exact h
  | succ n ih =>
    unfold State.skipWaves
    extract_lets w
    split
    · exact State.endS2_keeps h
    split
    · exact ih (State.modBoot_keeps h _)
    · exact h

theorem State.takeFreq_keeps {z s : State} (h : z.Keeps s) :
    z.Keeps (State.takeFreq s) := by
  unfold State.takeFreq
  repeat' first
    | with_reducible assumption | with_reducible apply State.modClk_keeps | with_reducible apply State.pmOut_keeps | split

theorem execS1End_keeps {z s : State} (h : z.Keeps s) :
    Res.Keeps z (execS1End s) := by
  unfold execS1End
  repeat' first
    | with_reducible assumption | with_reducible apply State.modClk_keeps | with_reducible apply State.modBoot_keeps
    | with_reducible apply State.stage_keeps | with_reducible apply State.applyBuffered_keeps | with_reducible apply State.stageRecord_keeps
    | with_reducible apply State.skipWaves_keeps | with_reducible apply State.takeFreq_keeps | with_reducible apply Res.Keeps.next
    | extract_lets | split

theorem State.reapplyRepairs_keeps {z s : State} (h : z.Keeps s) (n : Nat) :
    z.Keeps (State.reapplyRepairs s n) := by
  unfold State.reapplyRepairs
  repeat' first
    | with_reducible assumption | with_reducible apply State.modCluster_keeps | with_reducible apply State.cold_keeps
    | with_reducible refine State.Keeps.fold ?_ (fun _ _ _ => ?_) | split

theorem State.tested_keeps {z s : State} (h : z.Keeps s) (n : Nat) (fails : Bool) :
    z.Keeps (State.tested s n fails) := by
  unfold State.tested
  repeat' first
    | with_reducible assumption | with_reducible apply State.modBoot_keeps | with_reducible apply State.mapOutCluster_keeps | split

theorem State.endWave_keeps {z s : State} (h : z.Keeps s) (fail : BitVec 8) :
    z.Keeps (State.endWave s fail) := by
  unfold State.endWave
  repeat' first
    | with_reducible assumption | with_reducible apply State.modBoot_keeps | with_reducible apply State.skipWaves_keeps
    | with_reducible apply State.reapplyRepairs_keeps | with_reducible apply State.tested_keeps
    | with_reducible refine State.Keeps.fold ?_ (fun _ _ _ => ?_)

theorem execS2WaveEnd_keeps {z s : State} (h : z.Keeps s) (fail : BitVec 8) :
    Res.Keeps z (execS2WaveEnd fail s) := by
  unfold execS2WaveEnd
  repeat' first
    | with_reducible assumption | with_reducible apply State.stage_keeps | with_reducible apply State.endWave_keeps
    | with_reducible apply Res.Keeps.next | split

theorem execS3End_keeps {z s : State} (h : z.Keeps s) (fail : BitVec 32) :
    Res.Keeps z (execS3End fail s) := by
  unfold execS3End
  repeat' first
    | with_reducible assumption | with_reducible apply State.modBoot_keeps | with_reducible apply State.stage_keeps
    | with_reducible apply State.mapOutCluster_keeps | with_reducible apply State.stageRecord_keeps
    | with_reducible refine State.Keeps.fold ?_ (fun _ _ _ => ?_) | with_reducible apply Res.Keeps.next | extract_lets | split

theorem State.comeAwake_keeps {z s : State} (h : z.Keeps s) :
    z.Keeps (State.comeAwake s) := by
  unfold State.comeAwake
  repeat' first
    | with_reducible assumption | with_reducible apply State.modClk_keeps | with_reducible apply State.trace_keeps
    | with_reducible apply State.pmOut_keeps | with_reducible apply State.applyBuffered_keeps | with_reducible apply State.takeFreq_keeps

theorem execPllAwake_keeps {z s : State} (h : z.Keeps s) :
    Res.Keeps z (execPllAwake s) := by
  unfold execPllAwake
  repeat' first
    | with_reducible assumption | with_reducible apply State.stage_keeps | with_reducible apply State.comeAwake_keeps
    | with_reducible apply Res.Keeps.next | split

theorem State.tapSelect_keeps {z s : State} (h : z.Keeps s) (ir : Byte) (use : Bool) :
    z.Keeps (State.tapSelect s ir use) := by
  unfold State.tapSelect
  repeat' first
    | with_reducible assumption | with_reducible apply State.Keeps.with

theorem State.boundaryNote_keeps {z s : State} (h : z.Keeps s) :
    z.Keeps (State.boundaryNote s) := by
  unfold State.boundaryNote
  repeat' first
    | with_reducible assumption | with_reducible apply State.draw_keeps | with_reducible apply State.note_keeps

theorem execBypass_keeps {z s : State} (h : z.Keeps s) :
    Res.Keeps z (execBypass s) := by
  unfold execBypass
  repeat' first
    | with_reducible assumption | with_reducible apply State.tapSelect_keeps | with_reducible apply Res.Keeps.next

theorem execIdcode_keeps {z s : State} (h : z.Keeps s) :
    Res.Keeps z (execIdcode s) := by
  unfold execIdcode
  repeat' first
    | with_reducible assumption | with_reducible apply State.tapSelect_keeps | with_reducible apply Res.Keeps.next

theorem execSamplePreload_keeps {z s : State} (h : z.Keeps s) :
    Res.Keeps z (execSamplePreload s) := by
  unfold execSamplePreload
  repeat' first
    | with_reducible assumption | with_reducible apply State.tapSelect_keeps | with_reducible apply State.boundaryNote_keeps
    | with_reducible apply Res.Keeps.next

theorem execExtest_keeps {z s : State} (h : z.Keeps s) :
    Res.Keeps z (execExtest s) := by
  unfold execExtest
  repeat' first
    | with_reducible assumption | with_reducible apply State.tapSelect_keeps | with_reducible apply State.boundaryNote_keeps
    | with_reducible apply Res.Keeps.next

theorem execIjtagAccess_keeps {z s : State} (h : z.Keeps s) :
    Res.Keeps z (execIjtagAccess s) := by
  unfold execIjtagAccess
  repeat' first
    | with_reducible assumption | with_reducible apply State.tapSelect_keeps | with_reducible apply Res.Keeps.next

theorem execTestInstrument_keeps {z s : State} (h : z.Keeps s) (k : Fin 5) :
    Res.Keeps z (execTestInstrument k s) := by
  unfold execTestInstrument
  repeat' first
    | with_reducible assumption | with_reducible apply State.note_keeps | with_reducible apply Res.Keeps.next | split
    | with_reducible apply State.Keeps.with

end Sys2Proof.Machine
end

