-- ==== Sys2Proof/Laws/KeepsTick.lean ====
section
/-! SUPPORT. `State.Keeps` for the operations of Machine/Tick.lean. -/

namespace Sys2Proof.Machine

theorem State.meterTick_keeps {z s : State} (h : z.Keeps s)  :
    z.Keeps (State.meterTick s) := by
  unfold State.meterTick
  split
  · exact State.modSmu_keeps h _ ⟨rfl, rfl, List.prefix_refl _, Nat.le_refl _⟩
  · exact h

theorem State.countActive_keeps {z s : State} (h : z.Keeps s) :
    z.Keeps (State.countActive s) := by
  unfold State.countActive
  repeat' first
    | with_reducible assumption | with_reducible apply State.modPt_keeps | with_reducible refine State.Keeps.fold ?_ (fun _ _ _ => ?_)
    | extract_lets | split

theorem State.countWaits_keeps {z s : State} (h : z.Keeps s) :
    z.Keeps (State.countWaits s) := by
  unfold State.countWaits
  repeat' first
    | with_reducible assumption | with_reducible apply State.modWeir_keeps | with_reducible refine State.Keeps.fold ?_ (fun _ _ _ => ?_)

theorem State.sendDemand_keeps {z s : State} (h : z.Keeps s) :
    z.Keeps (State.sendDemand s) := by
  unfold State.sendDemand
  repeat' first
    | with_reducible assumption | with_reducible apply State.modWeir_keeps | with_reducible apply State.pmOut_keeps | extract_lets | split

theorem State.countFull_keeps {z s : State} (h : z.Keeps s) :
    z.Keeps (State.countFull s) := by
  unfold State.countFull
  repeat' first
    | with_reducible assumption | with_reducible apply State.modPort_keeps | with_reducible refine State.Keeps.fold ?_ (fun _ _ _ => ?_)

theorem State.fastTick_keeps {z s : State} (h : z.Keeps s) :
    z.Keeps (State.fastTick s) := by
  unfold State.fastTick
  repeat' first
    | with_reducible assumption | with_reducible apply State.drainTrace_keeps | with_reducible apply State.streamTick_keeps
    | with_reducible apply State.modClk_keeps | with_reducible apply State.famineAct_keeps | with_reducible apply State.progressAll_keeps
    | with_reducible apply State.countActive_keeps | with_reducible apply State.countWaits_keeps
    | with_reducible apply State.sendDemand_keeps | with_reducible apply State.countFull_keeps
    | with_reducible refine State.Keeps.fold ?_ (fun _ _ _ => ?_) | extract_lets | split

theorem State.traceTick_keeps {z s : State} (h : z.Keeps s) :
    z.Keeps (State.traceTick s) := by
  unfold State.traceTick
  repeat' first
    | with_reducible assumption | with_reducible apply State.drainTrace_keeps | with_reducible apply State.streamTick_keeps | split

theorem State.tickOnce_keeps {z s : State} (h : z.Keeps s) :
    z.Keeps (State.tickOnce s) := by
  unfold State.tickOnce
  repeat' first
    | with_reducible assumption | with_reducible apply State.modClk_keeps | with_reducible apply State.meterTick_keeps
    | with_reducible apply State.fastTick_keeps | with_reducible apply State.traceTick_keeps | extract_lets | split

end Sys2Proof.Machine
end

