-- ==== Sys2Proof/Laws/KeepsExec.lean ====
section
/-! SUPPORT. Every command answers a next state that keeps what must be kept (`State.Keeps`); the meter's power-on reset keeps all of it but
the tamper count (R409). Whole-machine laws of `exec` and `step`. -/

namespace Sys2Proof.Machine

/-- Every command but the meter's power-on reset. -/
theorem exec_keeps {z s : State} (h : z.Keeps s) (c : Instr) (hc : c ≠ .smuPor) : Res.Keeps z (exec c s) := by
  cases c with
  | coldReset => exact execColdReset_keeps h
  | blockReset => exact execBlockReset_keeps h
  | resetRelease => exact execResetRelease_keeps h _
  | s1End => exact execS1End_keeps h
  | s2WaveEnd => exact execS2WaveEnd_keeps h _
  | s3End => exact execS3End_keeps h _
  | rstCtlBlock => exact execRstCtlBlock_keeps h _
  | partitionReset => exact execPartitionReset_keeps h _
  | partitionResetDone => exact execPartitionResetDone_keeps h _
  | ptKill => exact execPtKill_keeps h _ _
  | smuPor => exact absurd rfl hc
  | regWrite => exact execRegWrite_keeps h _ _
  | configWrite => exact execConfigWrite_keeps h _ _
  | axPartLock => exact execAxPartLock_keeps h _
  | rasPstop => exact execRasPstop_keeps h _
  | ringEnable => exact execRingEnable_keeps h _
  | ringDisable => exact execRingDisable_keeps h _
  | doorbell => exact execDoorbell_keeps h _ _
  | commandFetch => exact execCommandFetch_keeps h
  | backlogRetry => exact execBacklogRetry_keeps h _
  | admitSeq => exact execAdmit_keeps h _
  | release => exact execRelease_keeps h _
  | fork => exact execFork_keeps h _
  | appendKv => exact execAppendKv_keeps h _
  | attend => exact execAttend_keeps h _
  | attendBwd => exact execAttendBwd_keeps h _
  | prefill => exact execPrefill_keeps h _
  | prefillChunk => exact execPrefillChunk_keeps h _
  | specCommit => exact execSpecCommit_keeps h _
  | specAbort => exact execSpecAbort_keeps h _
  | evict => exact execEvict_keeps h _
  | restore => exact execRestore_keeps h _
  | exportGroups => exact execExportGroups_keeps h _
  | importGroups => exact execImportGroups_keeps h _
  | swap => exact execSwap_keeps h _
  | swapSwitchPoint => exact execSwapSwitchPoint_keeps h
  | clusterClearDone => exact execClusterClearDone_keeps h _
  | runProgram => exact execRunProgram_keeps h _
  | imageLoadDone => exact execImageLoadDone_keeps h _
  | shareGrant => exact execShareGrant_keeps h
  | fire => exact execFire_keeps h _ _
  | prewakeTimeout => exact execPrewakeTimeout_keeps h _
  | entryStart => exact execEntryStart_keeps h _ _
  | tileVerdict => exact execTileVerdict_keeps h _ _
  | abftRerunDone => exact execAbftRerunDone_keeps h _ _ _ _
  | entryComplete => exact execEntryComplete_keeps h _ _
  | segmentDone => exact execSegmentDone_keeps h _ _
  | partialTile => exact execPartialTile_keeps h _ _ _
  | merge => exact execMerge_keeps h _ _ _
  | peerTmo => exact execPeerTmo_keeps h _
  | streamIssue => exact execStreamIssue_keeps h _
  | memoryRequestIssue => exact execMemoryRequestIssue_keeps h _
  | readCommandCredit => exact execReadCommandCredit_keeps h _
  | writeCommandCredit => exact execWriteCommandCredit_keeps h _
  | writeDataCredit => exact execWriteDataCredit_keeps h _
  | readReturn => exact execReadReturn_keeps h _ _ _
  | writeCompletion => exact execWriteCompletion_keeps h _ _ _
  | walkDone => exact execWalkDone_keeps h _
  | heldTimeout => exact execHeldTimeout_keeps h _ _
  | unmap => exact execUnmap_keeps h _
  | hold => exact execHold_keeps h _
  | resolve => exact execResolve_keeps h _
  | invalidationDone => exact execInvalidationDone_keeps h
  | holdTimeout => exact execHoldTimeout_keeps h _
  | stallTimeout => exact execStallTimeout_keeps h _ _
  | budgetExpiry => exact execBudgetExpiry_keeps h _
  | ptResumeResume => exact execPtResumeResume_keeps h _ _
  | ptResumeRelease => exact execPtResumeRelease_keeps h _ _
  | ptSigSelect => exact execPtSigSelect_keeps h _ _
  | ptSigRaise => exact execPtSigRaise_keeps h _ _
  | ptSigClear => exact execPtSigClear_keeps h _ _
  | signalTimeout => exact execSignalTimeout_keeps h _
  | lend => exact execLend_keeps h _
  | recallExpiry => exact execRecallExpiry_keeps h _
  | grant => exact execGrant_keeps h _
  | returnShares => exact execReturnShares_keeps h _
  | freq => exact execFreq_keeps h _
  | freqSwitchDone => exact execFreqSwitchDone_keeps h
  | wake => exact execWake_keeps h _
  | pllAwake => exact execPllAwake_keeps h
  | noStop => exact execNoStop_keeps h _
  | pllStop => exact execPllStop_keeps h
  | power => exact execPower_keeps h
  | clusterClockStop => exact execClusterClockStop_keeps h _
  | clusterClockStart => exact execClusterClockStart_keeps h _
  | pllLockLoss => exact execPllLockLoss_keeps h
  | refClkAbsent => exact execRefClkAbsent_keeps h
  | clockUnitSelfCheckFail => exact execClockUnitSelfCheckFail_keeps h
  | resetTagQuarantineEnd => exact execResetTagQuarantineEnd_keeps h
  | flit => exact execFlit_keeps h _
  | fabricCredit => exact execFabricCredit_keeps h _ _
  | credit => exact execCredit_keeps h _
  | write => exact execWrite_keeps h _ _
  | ack => exact execAck_keeps h _
  | nack => exact execNack_keeps h _
  | stale => exact execStale_keeps h _ _
  | withdraw => exact execWithdraw_keeps h _
  | withdrawAck => exact execWithdrawAck_keeps h _
  | withdrawTimeout => exact execWithdrawTimeout_keeps h _
  | evictCopyDone => exact execEvictCopyDone_keeps h _ _ _
  | restoreCopyDone => exact execRestoreCopyDone_keeps h _ _ _
  | cowCopyDone => exact execCowCopyDone_keeps h _ _ _
  | crcComputeDone => exact execCrcComputeDone_keeps h _ _
  | groupCopyDone => exact execGroupCopyDone_keeps h _ _
  | scrubGroup => exact execScrubGroup_keeps h _ _
  | sramScrub => exact execSramScrub_keeps h _
  | comparatorSelfTest => exact execComparatorSelfTest_keeps h _ _
  | lockstepMismatch => exact execLockstepMismatch_keeps h _
  | mgmtPairMismatch => exact execMgmtPairMismatch_keeps h
  | clMapout => exact execClMapout_keeps h _ _
  | time => exact execTime_keeps h
  | recUtcAdvance => exact execRecUtcAdvance_keeps h
  | residencySample => exact execResidencySample_keeps h
  | recordProgramDone => exact execRecordProgramDone_keeps h
  | trcMark => exact execTrcMark_keeps h _
  | flush => exact execFlush_keeps h _
  | mevHold => exact execMevHold_keeps h _
  | sealReport => exact execSealReport_keeps h _
  | lockReport => exact execLockReport_keeps h _
  | linkEvent => exact execLinkEvent_keeps h _
  | restart => exact execRestart_keeps h _
  | reportAck => exact execReportAck_keeps h _
  | sealReportResend => exact execSealReportResend_keeps h
  | glitchTrip => exact execGlitchTrip_keeps h
  | meterPersist => exact execMeterPersist_keeps h
  | meterRead => exact execMeterRead_keeps h _
  | meterWrite => exact execMeterWrite_keeps h _ _
  | smuSeal => exact execSmuSeal_keeps h _
  | sealBurnDone => exact execSealBurnDone_keeps h
  | smuRoCtl => exact execSmuRoCtl_keeps h _
  | readoutDone => exact execReadoutDone_keeps h
  | bypass => exact execBypass_keeps h
  | idcode => exact execIdcode_keeps h
  | samplePreload => exact execSamplePreload_keeps h
  | extest => exact execExtest_keeps h
  | ijtagAccess => exact execIjtagAccess_keeps h
  | testInstrument => exact execTestInstrument_keeps h _
  | add => exact execAdd_keeps h _ _ _ _
  | sub => exact execSub_keeps h _ _ _ _
  | mul => exact execMul_keeps h _ _ _ _
  | mulhu => exact execMulhu_keeps h _ _ _ _
  | divu => exact execDivu_keeps h _ _ _ _
  | remu => exact execRemu_keeps h _ _ _ _
  | and => exact execAnd_keeps h _ _ _ _
  | or => exact execOr_keeps h _ _ _ _
  | xor => exact execXor_keeps h _ _ _ _
  | shl => exact execShl_keeps h _ _ _ _
  | shr => exact execShr_keeps h _ _ _ _
  | sar => exact execSar_keeps h _ _ _ _
  | min => exact execMin_keeps h _ _ _ _
  | max => exact execMax_keeps h _ _ _ _
  | minu => exact execMinu_keeps h _ _ _ _
  | maxu => exact execMaxu_keeps h _ _ _ _
  | clz => exact execClz_keeps h _ _ _ _
  | popc => exact execPopc_keeps h _ _ _ _
  | movi => exact execMovi_keeps h _ _ _
  | movhi => exact execMovhi_keeps h _ _ _
  | eq => exact execEq_keeps h _ _ _ _
  | ne => exact execNe_keeps h _ _ _ _
  | lt => exact execLt_keeps h _ _ _ _
  | le => exact execLe_keeps h _ _ _ _
  | ltu => exact execLtu_keeps h _ _ _ _
  | leu => exact execLeu_keeps h _ _ _ _
  | pand => exact execPand_keeps h _ _ _ _
  | por => exact execPor_keeps h _ _ _ _
  | pxor => exact execPxor_keeps h _ _ _ _
  | pfromg => exact execPfromg_keeps h _ _ _
  | ptog => exact execPtog_keeps h _ _ _
  | ld8 => exact execLd8_keeps h _ _ _ _
  | ld16 => exact execLd16_keeps h _ _ _ _
  | ld32 => exact execLd32_keeps h _ _ _ _
  | ld64 => exact execLd64_keeps h _ _ _ _
  | lds8 => exact execLds8_keeps h _ _ _ _
  | lds16 => exact execLds16_keeps h _ _ _ _
  | lds32 => exact execLds32_keeps h _ _ _ _
  | st8 => exact execSt8_keeps h _ _ _ _
  | st16 => exact execSt16_keeps h _ _ _ _
  | st32 => exact execSt32_keeps h _ _ _ _
  | st64 => exact execSt64_keeps h _ _ _ _
  | b => exact execB_keeps h _ _
  | bl => exact execBl_keeps h _ _ _
  | bi => exact execBi_keeps h _ _
  | dldt => exact execDldt_keeps h _ _ _ _
  | dlds => exact execDlds_keeps h _ _ _ _
  | dldl => exact execDldl_keeps h _ _ _
  | dst => exact execDst_keeps h _ _ _ _
  | dsetw => exact execDsetw_keeps h _ _ _ _
  | dgetw => exact execDgetw_keeps h _ _ _ _
  | dadda => exact execDadda_keeps h _ _ _
  | dclr => exact execDclr_keeps h _ _
  | mxrun => exact execMxrun_keeps h _ _
  | mxew => exact execMxew_keeps h _ _
  | vrun => exact execVrun_keeps h _ _
  | sxq => exact execSxq_keeps h _ _ _
  | hset => exact execHset_keeps h _ _ _ _
  | hclr => exact execHclr_keeps h _ _ _
  | ltw => exact execLtw_keeps h _ _ _ _
  | rclr => exact execRclr_keeps h _ _ _
  | swait => exact execSwait_keeps h _ _ _ _ _
  | sraise => exact execSraise_keeps h _ _
  | spoll => exact execSpoll_keeps h _ _ _
  | tfence => exact execTfence_keeps h _ _
  | tmovd => exact execTmovd_keeps h _ _ _ _
  | tmovm => exact execTmovm_keeps h _ _ _ _
  | tmovDone => exact execTmovDone_keeps h _
  | ifenceSwap => exact execIfenceSwap_keeps h _ _
  | csrr => exact execCsrr_keeps h _ _ _
  | endProg => exact execEndProg_keeps h _ _
  | trap i tgt => exact execTrap_keeps h i tgt
  | nop => exact execNop_keeps h _
  | meterIslandUnpowered => exact execMeterIslandUnpowered_keeps h
  | delayRegisterParityError => exact execDelayRegisterParityError_keeps h _
  | frameCrcOrOpcodeBad => exact execFrameCrcOrOpcodeBad_keeps h
  | illegalInstruction => exact execIllegalInstruction_keeps h _ _

/-- The meter's power-up keeps its fuses. -/
theorem Smu.powerUp_fuses (m : Smu) :
    m.powerUp.serial = m.serial ∧ m.powerUp.transportKey = m.transportKey ∧ m.burned <+: m.powerUp.burned := by
  unfold Smu.powerUp
  split
  · exact ⟨rfl, rfl, List.prefix_refl _⟩
  · have k := Smu.tamperEvent_keeps (Smu.Keeps.refl (Smu.gap { m.cleared with nocopy := true }))
    exact ⟨k.serial, k.transport, k.seals⟩

theorem execSmuPor_fixed (s : State) : ∃ t, execSmuPor s = .next t ∧ s.Fixed t := by
  unfold execSmuPor
  refine ⟨_, rfl, ?_⟩
  split
  · exact (State.Keeps.refl s).toFixed
  · have h1 : s.Fixed (s.modSmu Smu.powerUp) :=
      ⟨rfl, rfl, (Smu.powerUp_fuses _).1, (Smu.powerUp_fuses _).2.1, (Smu.powerUp_fuses _).2.2, id, Nat.le_refl _⟩
    have h2 := State.resendSeals_keeps (State.Keeps.refl (s.modSmu Smu.powerUp))
    refine h1.trans (State.Keeps.toFixed ?_)
    extract_lets s1 s2
    split
    · exact h2
    · exact State.modLink_keeps (State.event_keeps (State.note_keeps (State.modBoot_keeps h2 _) _ _ _ _ _ _ _ _) _ _ _ _ _) _

/-- Every command answers a next state that keeps the fixed things. -/
theorem exec_fixed (c : Instr) (s : State) : ∃ t, exec c s = .next t ∧ s.Fixed t := by
  by_cases hc : c = .smuPor
  · subst hc; exact execSmuPor_fixed s
  · obtain ⟨t, e, k⟩ := exec_keeps (State.Keeps.refl s) c hc
    exact ⟨t, e, k.toFixed⟩

/-- A step takes the front command. -/
theorem step_cons {s : State} {c : Instr} {rest : List Instr} (h : s.pending = c :: rest) : step s = exec c { s with pending := rest } := by
  unfold step
  rw [h]

/-- A step of an idle block is one tick. -/
theorem step_nil {s : State} (h : s.pending = []) : step s = .next s.tickOnce := by
  unfold step
  rw [h]

end Sys2Proof.Machine
end

