-- ==== Sys2Proof/Laws/Tensor.lean ====
section
/-! SUPPORT. Laws of tensor issue (R212, R219): the clusters that a mask names, a fold over clusters, and the queues after `enqueue`. -/

namespace Sys2Proof.Machine

/-- The clusters that `CMASK` names for a pair. -/
theorem mem_maskClusters (sp : Nat) (cmask : BitVec 4) (n : Nat) : n ∈ maskClusters sp cmask ↔ n / 4 = sp ∧ cmask.getLsbD (n % 4) = true := by
  unfold maskClusters setList
  simp only [List.mem_map, List.mem_filter, List.mem_range]
  constructor
  · rintro ⟨k, ⟨hk, hb⟩, rfl⟩
    refine ⟨by omega, ?_⟩
    rw [show (4 * sp + k) % 4 = k by omega]; exact hb
  · rintro ⟨rfl, hb⟩
    exact ⟨n % 4, ⟨by omega, hb⟩, by omega⟩


theorem nodup_maskClusters (sp : Nat) (cmask : BitVec 4) : (maskClusters sp cmask).Nodup := by
  unfold maskClusters setList
  refine List.Nodup.map (fun a b h => by simpa using h) (List.nodup_range.filter _)

/-- A fold that changes each cluster of a list once. -/
theorem State.foldl_modCluster (f : State → Nat → Cluster → Cluster) (hf : ∀ s t : State, s.clk = t.clk → f s = f t) (ns : List Nat) (hn : ns.Nodup) (s : State) :
    let t := ns.foldl (fun s n => s.modCluster n (f s n)) s
    (∀ n, t.cluster n = if n ∈ ns then f s n (s.cluster n) else s.cluster n) ∧ {t with clusters := s.clusters} = s := by
  induction ns generalizing s with
  | nil => exact ⟨fun n => by simp, rfl⟩
  | cons m ns ih =>
    have hm := List.nodup_cons.1 hn
    obtain ⟨h1, h2⟩ := ih hm.2 (s.modCluster m (f s m))
    refine ⟨fun n => ?_, ?_⟩
    · refine (h1 n).trans ?_
      have e : f (s.modCluster m (f s m)) = f s := hf _ _ rfl
      by_cases hnm : n = m
      · subst hnm
        simp [hm.1]
      · simp [hnm, e, State.cluster_modCluster_ne s hnm]
    · have := congrArg (fun t : State => { t with clusters := s.clusters }) h2
      exact this

/-- What `enqueue` does: the named queues get the entry, and nothing else changes. -/
theorem State.enqueue_spec (s : State) (sp : Nat) (x : Pair) (cmask : BitVec 4) (eng : Engine) (work : QWork) :
   let t := s.enqueue sp x cmask eng work
   (∀ n, ((n / 4 = sp ∧ cmask.getLsbD (n % 4) = true) → (t.cluster n).queue = (s.cluster n).queue ++ [newEnt (s.cluster n).nextTag (x.op.getD 0) sp x.part eng work s.clk.tick])
          ∧ (¬ (n / 4 = sp ∧ cmask.getLsbD (n % 4) = true) → (t.cluster n).queue = (s.cluster n).queue)
          ∧ { t.cluster n with queue := (s.cluster n).queue, nextTag := (s.cluster n).nextTag } = s.cluster n) ∧ {t with clusters := s.clusters} = s := by
  have := State.foldl_modCluster (fun s n c => { c with queue := c.queue ++ [newEnt c.nextTag (x.op.getD 0) sp x.part eng work s.clk.tick], nextTag := (c.nextTag + 1) % 65536 }) (fun s t h => by funext _ c; simp [h]) (maskClusters sp cmask) (nodup_maskClusters sp cmask) s
  obtain ⟨h1, h2⟩ := this
  refine ⟨fun n => ?_, h2⟩
  have h := h1 n
  change (s.enqueue sp x cmask eng work).cluster n = _ at h
  dsimp only
  rw [h]
  by_cases hm : n ∈ maskClusters sp cmask
  · have := (mem_maskClusters sp cmask n).1 hm
    rw [if_pos hm]
    exact ⟨fun _ => rfl, fun h => absurd this h, rfl⟩
  · have : ¬ _ := fun h => hm ((mem_maskClusters sp cmask n).2 h)
    rw [if_neg hm]
    exact ⟨fun h => absurd h this, fun _ => rfl, rfl⟩

end Sys2Proof.Machine
end

