-- ==== Sys2Proof/Tests/Slice0.lean ====
section
/-! SUPPORT. Tests: ill-formed operands are refused, single commands do what the spec's own examples and rules say, and every statement of
Certificates/Slice0/Obligations.lean with hypotheses has concrete states and operands that meet them. -/

namespace Sys2Proof.Tests

set_option Elab.async false

open Sys2Proof Sys2Proof.Machine

/-! Small states -/

/-- A 64-byte command from its fields: byte offset and value. -/
def cmd (op sqid : Nat) (fs : List (Nat × Nat)) : Cmd :=
  ⟨0, 0, BitVec.ofNat 512 (op + sqid * 2 ^ 16 + (fs.map (fun f => f.2 * 2 ^ (8 * f.1))).sum)⟩

/-- Page 0 of the spaces of partition 0 and of the global space, mapped to physical page 0. -/
def page0 (space : Nat) : TlbEnt := ⟨space, 0, 0, true, true, false⟩

/-- Partition 0 enabled with every cluster, signals 0 to 15, and a pool of 8 frames of one 16-token page (R243). -/
def set0 : CfgSet :=
  ⟨[(0x210, 0xFFFFFFFF), (0x100000, 0x8000000008000000), (0x100010, 0x8000000000001009), (0x100018, 0x100000), (0x100080, 0x100000), (0x100088, 0x0000000800000008),
    (0x100090, 0x200000), (0x100098, 0x210000), (0x1000A0, 0x300000), (0x1000A8, 0x0000000100000008), (0x1000B0, 0x0022020000000004),
    (0x1000B8, 0x0000000200000A00), (0x1000C0, 0x0000000100000004)], [], []⟩

/-- The block in full service under `set0`. -/
def live : State :=
  let s := State.reset
  let clk : Clk := { s.clk with awake := true, clkOn := 0xFFFFFFFF }
  let boot : Boot := { s.boot with s1Started := true, stage := 4, svc := 0xFFFFFFFF, quarantine := false }
  let cfg : Cfg := { s.cfg with active := set0 }
  { s with clk := clk, boot := boot, cfg := cfg, tr := { s.tr with tlbs := [(0, [page0 0, page0 16])] } }

/-- An operation in flight. -/
def opOf (opid : W32) (c : Cmd) : Op := newOp opid 0 c set0 0 0 0

def progCmd : Cmd := cmd 0x0F 0 [(24, 0xF)]

/-- A program runs on clusters 0 to 3, on pair 0 alone. -/
def progOp : Op := { opOf 5 progCmd with clusters := 0xF, shares := 0xF, loaded := true }

def pairSet (x : Pair) (s : State) : State := { s with pairs := [(0, x)] }

def prog : State :=
  let x := Pair.reset
  let x : Pair := { x with st := .running, op := some 5, part := 0, codeLen := 16, g := [(1, 7), (2, 0xFFFFFFFFFFFFFFF9), (3, 64)], p := [(1, true)] }
  let x : Pair := { x with d := [(1, ⟨1, 0x1234567800, 0⟩), (2, ⟨2, 0x4000, 0⟩), (3, ⟨3, 0, 5⟩)] }
  let x : Pair := { x with dmem := [(0, 0x81), (1, 0x92), (2, 0xA3), (7, 0xF8), (64, 0x77)] }
  pairSet x { live with hw := { live.hw with ops := [progOp] } }

/-- The program with another pair that waits on signal 7. -/
def waiting : State :=
  let w : SwaitSt := ⟨7, 4, 2, 100, 0, false⟩
  let y : Pair := { Pair.reset with st := .waitSig, swait := some w }
  { prog with pairs := prog.pairs ++ [(1, y)], sig := { Sig.reset with waiters := [(7, .pair 1)] } }

/-- A TMOV of two words to bank 1 is on its way. -/
def moving : State :=
  let x := prog.pair 0
  let x : Pair := { x with claimed := true, tmovs := [⟨true, 3, [1, 2]⟩] }
  pairSet x prog

/-- The program with tensor operands in d4 (handle 1), d5 (queue), d6 (a stream from handle 1 to memory) and d7 (handle 1 in I8), on a handle that is set. -/
def tensor : State :=
  let x := prog.pair 0
  let x : Pair := { x with d := [(3, ⟨3, 0, 5⟩), (4, ⟨1, 1, 0⟩), (5, ⟨1, 7 * 2 ^ 44, 0⟩), (6, ⟨2, 1 + 2 ^ 64 + 2 ^ 67 + 0x4000 * 2 ^ 96, 0⟩), (7, ⟨1, 1 + 4 * 2 ^ 32, 0⟩)] }
  let c : Cluster := { Cluster.reset with handles := [(1, 0x8000000000000000)] }
  { pairSet x prog with clusters := [(0, c), (1, c), (2, c), (3, c)] }

/-- Sleeping, fatal, in reset, just released. -/
def asleep : State := { live with clk := { live.clk with awake := false } }
def fatal : State := { asleep with boot := { live.boot with fatal := true } }
def inReset : State := { asleep with boot := { live.boot with inReset := true } }

/-- Ring 0 of 8 slots (R283), in service with a command waiting; its command slots at 0x10000, its completion slots at 0x11000. -/
def ring0 : Ring := { Ring.reset with base := 0x10000, cbase := 0x11000, enable := true, log2n := 3, tail := 1 }
def ringed : State := { live with hw := { live.hw with rings := [(0, ring0)] } }

/-- A command stands in staging, ready. -/
def stagedOf (c : Cmd) : Staged := ⟨0, c, .ready, 0, [], false, false, 0, 0, none, []⟩
def withStaged (c : Cmd) (s : State) : State :=
  let r : Ring := { ring0 with fetched := 1 }
  { s with hw := { s.hw with staged := [stagedOf c], rings := [(0, r)] } }

/-- An image of one instruction (R237) at 0x700000, as image 32. -/
def imageMem : List Host.Cell :=
  let crc := crc32 (List.replicate 40 0 ++ leBytes 8 0xB000000000000000)
  writeLe (writeLe [] 0x700000 64 (0x315A464C + 2 ^ 32 + 2 ^ 64 + crc.toNat * 2 ^ 160)) 0x700040 8 0xB000000000000000

def imaged : State :=
  let set : CfgSet := { set0 with words := Tab.set 0 set0.words 0x1000 0x8000000000700000 }
  { live with mem := imageMem, cfg := { live.cfg with active := set } }

def u0 : Issue := ⟨0, 0, false⟩

/-! Witnesses. For each statement with hypotheses: concrete states and operands that meet them, clause by clause, at boundary values where
a clause has a range. A clause whose hypotheses are its statement's own common ones has no line of its own. -/

theorem runs_prog : prog.Runs u0 := ⟨by decide +kernel, by decide +kernel⟩

/-- A guard of p2 = 0, negated. -/
theorem runs_negated : prog.Runs ⟨0, 2, true⟩ := ⟨by decide +kernel, by decide +kernel⟩

theorem open_live : live.HostOpen := ⟨by decide +kernel, by decide +kernel, by decide +kernel⟩
theorem open_ringed : ringed.HostOpen := ⟨by decide +kernel, by decide +kernel, by decide +kernel⟩

theorem witness_StepRunsFrontCommand : { live with pending := [.commandFetch, .blockReset] }.pending = Instr.commandFetch :: [.blockReset] := rfl

theorem witness_EveryCommandAnswers : imaged.memOk ∧ imaged.mem ≠ [] := by decide +kernel

theorem witness_EveryRunIsSafe : imaged.memOk := by decide +kernel

theorem witness_TamperCountNeverFalls : (∃ t, step { live with pending := [.commandFetch] } = .next t)
    ∧ { live with pending := [.commandFetch] }.pending.head? ≠ some .smuPor := ⟨⟨_, rfl⟩, by decide +kernel⟩

theorem witness_ScalarResults : prog.Runs u0 ∧ prog.Runs ⟨0, 2, true⟩ := ⟨runs_prog, runs_negated⟩

theorem witness_PredicatesAndBranches : prog.Runs u0 ∧ (15 : BitVec 14).toNat < (prog.issuer u0).codeLen
    ∧ (((prog.issuer u0).readG 1).setWidth 14).toNat < (prog.issuer u0).codeLen := ⟨runs_prog, by decide +kernel⟩

/-- The highest address of each width. -/
theorem witness_LoadsAndStores : prog.Runs u0 ∧ ∀ x ∈ [(1, 0x1FFFF), (2, 0x1FFFE), (4, 0x1FFFC), (8, 0x1FFF8)],
    let A := ((prog.issuer u0).readG 0 + (BitVec.ofNat 32 x.2).signExtend 64).toNat
    A % x.1 = 0 ∧ A + x.1 ≤ 0x20000 := ⟨runs_prog, by decide +kernel⟩

theorem witness_IssueConditions : (Instr.nop ⟨0, 2, false⟩).issueOf = some ⟨0, 2, false⟩ ∧ prog.canIssue 0 = true
    ∧ xor ((prog.pair 0).readP 2) false = false ∧ waiting.canIssue 1 = false := by decide +kernel

/-- DLDT, DLDS and DST at the highest address; DADDA of a tensor and of a stream descriptor. -/
theorem witness_DescriptorResults : prog.Runs u0
    ∧ (let A := ((prog.issuer u0).readG 0 + (0x1FFC0 : W32).signExtend 64).toNat
      A % 64 = 0 ∧ A + 64 ≤ 0x20000) ∧ ((prog.issuer u0).readD 1).kind = 1 ∧ ((prog.issuer u0).readD 2).kind = 2 := ⟨runs_prog, by decide +kernel⟩

/-- The program has an entry queued on cluster 0. -/
def queued : State := { prog with clusters := [(0, { Cluster.reset with queue := [newEnt 0 5 0 0 .control (.ltw 0 0) 0] })] }

theorem runs_queued : queued.Runs u0 := ⟨by decide +kernel, by decide +kernel⟩

/-- The lowest bad address of each width, a branch just past the image, a CSR number without register, the illegal word of all-zero fields. -/
theorem witness_Exceptions : queued.Runs u0
    ∧ (∀ opid o, (queued.issuer u0).op = some opid → queued.op opid = some o → opcodeOf o.cmd ≠ 0x0F ∨ queued.opQueued opid = true)
    ∧ (∀ x ∈ [(1, 0x20000), (2, 1), (2, 0x20000), (4, 1), (4, 0x20000), (8, 4), (8, 0x20000), (64, 32), (64, 0x20000)],
      let A := ((queued.issuer u0).readG 0 + (BitVec.ofNat 32 x.2).signExtend 64).toNat
      A % x.1 ≠ 0 ∨ 0x20000 < A + x.1)
    ∧ 0x20000 < ((queued.issuer u0).readG 0 + (0x1FFC1 : W32).signExtend 64).toNat + 64
    ∧ (queued.issuer u0).codeLen ≤ (16 : BitVec 14).toNat ∧ (queued.issuer u0).codeLen ≤ (((queued.issuer u0).readG 2).setWidth 14).toNat
    ∧ ((queued.issuer u0).readD 3).kind ≠ 1 ∧ ((queued.issuer u0).readD 3).kind ≠ 2 ∧ (queued.issuer u0).claimed = false
    ∧ (3 : BitVec 12).toNat ∉ [0x000, 0x001, 0x002, 0x010, 0x011, 0x012, 0x013, 0x014, 0x015, 0x016, 0x020, 0x030]
    ∧ illegalWord 0xF000000000000000 = true ∧ xor ((queued.issuer u0).readP (bits (0xF000000000000000 : W64) 56 4)) (bit (0xF000000000000000 : W64) 55) = true := by
  refine ⟨runs_queued, ?_, by decide +kernel⟩
  intro opid o h _
  have e : opid = 5 := (Option.some.inj h).symm
  subst e
  exact .inr (by decide +kernel)

/-- The first and the last signal of the partition's range; one that stands raised. -/
def signalled (k : Nat) (up : Bool) : State :=
  let x := prog.pair 0
  let x : Pair := { x with g := [(1, BitVec.ofNat 64 k)] }
  { pairSet x prog with sig := { Sig.reset with raised := if up then [(k, true)] else [] } }

theorem witness_SignalInstructions : (∀ k ∈ [0, 15], ∀ up, (signalled k up).Runs u0)
    ∧ ∀ k ∈ [0, 15], ∀ up, let s := signalled k up
      let x := s.issuer u0
      (x.readG 1).toNat = k ∧ k < 65536 ∧ s.cfg.active.mayWait x.part k = true ∧ s.cfg.active.owns x.part k = true ∧ s.isRaised k = up
        ∧ ∀ w ∈ s.sig.waiters, w.1 ≠ k := ⟨fun k h up => by
      have all : ∀ k ∈ [0, 15], ∀ up, (signalled k up).canIssue 0 = true ∧ xor (((signalled k up).pair 0).readP 0) false = true := by decide +kernel
      exact ⟨(all k h up).1, (all k h up).2⟩, by decide +kernel⟩

/-- Pair 1 waits on signal 7, which pair 0 raises. -/
theorem witness_WaitsEnd : let w : SwaitSt := ⟨7, 4, 2, 100, 0, false⟩
    waiting.Runs u0 ∧ waiting.fast = true ∧ (waiting.pair 1).swait = some w ∧ w.lent = false ∧ (waiting.pair 1).st = .waitSig ∧ w.timeout ≠ 0
      ∧ ((waiting.issuer u0).readG 1).toNat < 65536 ∧ w.sig = ((waiting.issuer u0).readG 1).toNat
      ∧ waiting.cfg.active.owns (waiting.issuer u0).part w.sig = true ∧ waiting.sig.waiters = [(w.sig, .pair 1)] ∧ u0.sp ≠ 1 :=
  ⟨⟨by decide +kernel, by decide +kernel⟩, by decide +kernel⟩

/-- g1 names bank 1 at word 3, g2 an address, g3 a length. -/
def mover (a n : Nat) : State :=
  let x := prog.pair 0
  let x : Pair := { x with g := [(1, 0x4003), (2, BitVec.ofNat 64 a), (3, BitVec.ofNat 64 n)] }
  pairSet x prog

/-- The pair claims bank 1 and has a TMOV of two words on its way, or none. -/
def claimed (ms : List TmovSt) : State :=
  let x := prog.pair 0
  let x : Pair := { x with claimed := true, tmovs := ms }
  pairSet x prog

theorem witness_ProgramMemory :
    (∃ k : Fin 4, (1 : BitVec 4).getLsbD k.val = true ∧ ∃ e ∈ (queued.cluster (4 * 0 + k.val)).queue, e.sp = 0)
      ∧ (¬ ∃ k : Fin 4, (2 : BitVec 4).getLsbD k.val = true ∧ ∃ e ∈ (queued.cluster (4 * 0 + k.val)).queue, e.sp = 0)
      ∧ (∀ y ∈ [(64, 16), (0x1FF80, 128)], let s := mover y.1 y.2
        let x := s.issuer u0
        (x.readG 1).getLsbD 14 ≠ x.bank ∧ y.2 ≠ 0 ∧ y.2 % 8 = 0 ∧ (x.readG 1).toNat % 16384 + y.2 / 8 ≤ 16384 ∧ (x.readG 2).toNat % 64 = 0
          ∧ (x.readG 2).toNat + y.2 ≤ 0x20000 ∧ (s.judgeOpd ⟨x.part, .other, false, (x.readG 2).toNat, y.2⟩).1 = .ok ∧ (x.readG 3).toNat = y.2)
      ∧ moving.fast = true ∧ (moving.pair 0).tmovs = [⟨true, 3, [1, 2]⟩]
      ∧ ((claimed []).issuer u0).claimed = true ∧ ((claimed []).issuer u0).tmovs = [] ∧ (moving.issuer u0).claimed = true ∧ (moving.issuer u0).tmovs ≠ [] := by
  decide +kernel

theorem runs_moving : (mover 64 16).Runs u0 ∧ (mover 0x1FF80 128).Runs u0 ∧ (claimed []).Runs u0 ∧ moving.Runs u0 :=
  ⟨⟨by decide +kernel, by decide +kernel⟩, ⟨by decide +kernel, by decide +kernel⟩, ⟨by decide +kernel, by decide +kernel⟩, by decide +kernel, by decide +kernel⟩

theorem witness_CsrsAndEnd : queued.Runs u0 ∧ (queued.issuer u0).op = some 5 ∧ queued.op 5 = some progOp ∧ queued.opQueued 5 = true
    ∧ ((queued.issuer u0).readG 0).toNat % 256 = 0 ∧ ((queued.issuer u0).readG 1).toNat % 256 ≠ 0 := ⟨runs_queued, by decide +kernel⟩

theorem runs_tensor : tensor.Runs u0 := ⟨by decide +kernel, by decide +kernel⟩

/-- Handle 1 is a ring with moving counters. -/
def ringHandle : State :=
  let c : Cluster := { Cluster.reset with handles := [(1, 0x90100000003FFFF5)] }
  { tensor with clusters := [(0, c), (1, c), (2, c), (3, c)] }

theorem ready_of {s : State} {u : Issue} {m : BitVec 4}
    (h : s.clusterBad u.sp.val m = false ∧ (s.issuer u).recalled = false ∧ s.linkFull = false ∧ s.queueFull u.sp.val m = false) : s.TensorReady u m :=
  ⟨h.1, .inl h.2.1, h.2.2.2, h.2.2.1⟩

/-- MXRUN, MXEW, VRUN, SXQ, LTW and HSET on one cluster and on all four, HCLR and RCLR of a ring; the loop table at the highest address. -/
theorem witness_TensorIssue : tensor.Runs u0 ∧ tensor.TensorReady u0 1 ∧ tensor.TensorReady u0 15 ∧ ringHandle.Runs u0 ∧ ringHandle.TensorReady u0 5
    ∧ (hKind ((ringHandle.issuer u0).readG 0) ≠ 2
      ∧ (∀ n ∈ maskClusters 0 5, handleBad (ringHandle.cluster n) 5 (handleWord ((ringHandle.issuer u0).readG 0) ||| ((ringHandle.issuer u0).readG 0 &&& 15)) = false)
      ∧ ∀ n ∈ maskClusters 0 5, (ringHandle.cluster n).names 1 = false ∧ hRing ((ringHandle.cluster n).handle 1) = true)
    ∧ (let x := tensor.issuer u0
      (∀ m ∈ [1, 15], ∀ ew, let k : Fin 32 := if ew then 7 else 4
        let f : MxF := ⟨k, k, 5, none, 0, 0, 0, false, false, m⟩
        x.loopRef f.lt = some none ∧ mxBad tensor.part ew f (x.readD k.val) (x.readD k.val) (x.readD 5) none = none ∧ tensor.loopBadIn (maskClusters 0 m) none = false
          ∧ ∀ n ∈ maskClusters 0 m, mxHandleBad (tensor.cluster n).seen ew f (TDesc.ofBits (x.readD k.val).v) (TDesc.ofBits (x.readD k.val).v) false = false)
      ∧ (∀ m ∈ [1, 15], let f : VxF := ⟨0x100, 5, 4, 4, 4, true, true, false, none, m⟩
        x.loopRef f.lt = some none ∧ 8 * f.chain.toNat + 40 ≤ 0x20000
          ∧ vxBad tensor.part f (BitVec.ofNat 320 (readLe x.data (8 * f.chain.toNat) 40)) (x.readD 5) (x.readD 4) (x.readD 4) (x.readD 4) = none
          ∧ ∀ n ∈ maskClusters 0 m, vxHandleBad (tensor.cluster n).seen false false
            (VxOpds.of (BitVec.ofNat 320 (readLe x.data (8 * f.chain.toNat) 40)) (x.readD 5).v (x.readD 4).v (some (x.readD 4).v) (some (x.readD 4).v) ((List.range 64).map x.readG) 0) = false)
      ∧ ((x.readD 6).kind = 2 ∧ tensor.sxBad (tensor.setOf x) x.part (x.readD 6).v = none ∧ (tensor.judgeStream (maskClusters 0 15) x.part (SDesc.ofBits (x.readD 6).v)).1 = .ok
        ∧ ∀ n ∈ maskClusters 0 15, (tensor.cluster n).seen.listOk (SDesc.ofBits (x.readD 6).v) = true)
      ∧ (x.readD 3).kind = 3 ∧ (x.readG 0).toNat % 128 = 0 ∧ (x.readG 0).toNat + 128 ≤ 0x20000) :=
  ⟨runs_tensor, ready_of (by decide +kernel), ready_of (by decide +kernel), ⟨by decide +kernel, by decide +kernel⟩, ready_of (by decide +kernel), by decide +kernel,
    by decide +kernel, by decide +kernel, by decide +kernel, by decide +kernel⟩

/-- HSET of a linear handle and of a ring, HCLR and RCLR stand at the head of cluster 0's control queue; 63 and 64 scoreboard entries are live. -/
def handleEnt (w : QWork) : QEnt := newEnt 0 5 0 0 .control w 0
def handling (w : QWork) (k : Nat) : State :=
  let c : Cluster := { ringHandle.cluster 0 with queue := [handleEnt w], sb := List.replicate k ⟨false, 0, 0, 0, 9⟩ }
  { ringHandle with clusters := [(0, c)] }

theorem witness_HandleWrites :
    (∀ x ∈ [(QWork.hset 2 0x8000000000000000, 64), (.hset 2 0x9070807E40000000, 63), (.hset 2 0x9070807E40000000, 64), (.hclr 1, 0), (.rclr 1, 0)],
      ((handling x.1 x.2).cluster 0).starting .control = some (handleEnt x.1) ∧ (handling x.1 x.2).mayWork 0 5 = true)
    ∧ hRing 0x8000000000000000 = false ∧ hRing 0x9070807E40000000 = true
    ∧ ¬ 64 ≤ (((handling (.hclr 1) 63).cluster 0).sb.filter (fun x => x.tag != ringTag 2)).length
    ∧ 64 ≤ (((handling (.hclr 1) 64).cluster 0).sb.filter (fun x => x.tag != ringTag 2)).length := by decide +kernel

theorem witness_RegisterWrites : live.HostOpen ∧ ringed.HostOpen := ⟨open_live, open_ringed⟩

/-- The edges of the reserved ranges; a full write buffer is no hypothesis of these. -/
theorem witness_HostWritesIgnored : live.HostOpen
    ∧ (∀ off ∈ [0x800, 0x87F, 0x20110, 0x2012F, 0x30040, 0x3005F, 0xB0100, 0xB01FF, 0x500000, 0x8FFFFF, 0x980000, 0xFFFFFF, 0x4],
      (0x800 ≤ off ∧ off < 0x880) ∨ (0x20110 ≤ off ∧ off < 0x20130) ∨ (0x30040 ≤ off ∧ off < 0x30060) ∨ (0xB0100 ≤ off ∧ off < 0xB0200)
        ∨ (0x500000 ≤ off ∧ off < 0x900000) ∨ 0x980000 ≤ off ∨ off % 8 ≠ 0)
    ∧ inReset.boot.inReset = true ∧ fatal.boot.inReset = false ∧ fatal.boot.fatal = true ∧ asleep.boot.inReset = false ∧ asleep.boot.fatal = false
    ∧ asleep.clk.awake = false ∧ asleep.clk.wbuf.length < 64 ∧ 2 ≤ asleep.boot.stage ∧ ∀ off ∈ [0xFFFF, 0x20000], ¬ (0x10000 ≤ off ∧ off < 0x20000) :=
  ⟨open_live, by decide +kernel⟩

/-- The write-once registers unwritten and written; lock bits clear and set. -/
def lockedState : State :=
  { live with tr := { live.tr with groot := some 0 }, hw := { live.hw with oxbow := some 0, backlogBase := some 0 }, cfg := { live.cfg with partLock := 0x21 } }

theorem witness_LockedRegisters : live.HostOpen ∧ lockedState.HostOpen ∧ live.tr.groot.isSome = false ∧ lockedState.tr.groot.isSome = true
    ∧ live.hw.oxbow.isSome = false ∧ lockedState.hw.oxbow.isSome = true ∧ live.hw.backlogBase.isSome = false ∧ lockedState.hw.backlogBase.isSome = true
    ∧ lockedState.recorder.queue.length < 64 ∧ lockedState.cfg.partLock &&& (1 : W64).setWidth 16 ≠ 0 ∧ live.cfg.partLock &&& (1 : W64).setWidth 16 = 0 :=
  ⟨open_live, ⟨by decide +kernel, by decide +kernel, by decide +kernel⟩, by decide +kernel⟩

/-- A configuration swap holds the shadow set. -/
def busyState : State := { live with cfg := { live.cfg with busy := true } }
def viewState : State := { live with cfg := { live.cfg with view := true } }

theorem witness_ConfigurationWrites : live.HostOpen ∧ busyState.HostOpen ∧ viewState.HostOpen ∧ live.cfg.busy = false ∧ live.cfg.view = false
    ∧ busyState.cfg.busy = true ∧ viewState.cfg.busy = false ∧ viewState.cfg.view = true :=
  ⟨open_live, ⟨by decide +kernel, by decide +kernel, by decide +kernel⟩, ⟨by decide +kernel, by decide +kernel, by decide +kernel⟩, by decide +kernel⟩

/-- Ring 0 with the given indices; the doorbell's bounds: TAIL equal to both indices, N past DONE, one more than that, and behind FETCHED. -/
def ringAt (fetched done : W32) : State := { live with hw := { live.hw with rings := [(0, { ring0 with fetched := fetched, done := done })] } }

theorem witness_RingsAndDoorbells : ringed.HostOpen ∧ live.HostOpen ∧ (0x8000000000000000 : W64).getLsbD 63 = true ∧ (0 : W64).getLsbD 63 = false
    ∧ (live.ring live.hw.ringSel.toNat).enable = false ∧ (ringed.ring ringed.hw.ringSel.toNat).enable = true
    ∧ (∀ x ∈ [(0, true), (8, true), (9, false), (0xFFFFFFFF, false)], let tail : W32 := BitVec.ofNat 32 x.1
      (decide ((tail - (ringed.ring 0).fetched).toNat < 2 ^ 31) && decide ((tail - (ringed.ring 0).done).toNat ≤ 2 ^ (ringed.ring 0).log2n.toNat)) = x.2)
    ∧ (ringAt 1 0).ring 0 ≠ (ringAt 1 1).ring 0 ∧ ((ringAt 1 0).ring 0).enable = true ∧ ((ringAt 1 1).ring 0).enable = true := ⟨open_ringed, open_live, by decide +kernel⟩

/-- A RELEASE of sequence 3 waits in partition 0's backlog. -/
def release3 : Cmd := cmd 2 3 []
def inBacklog : State :=
  let s := withStaged release3 live
  { s with hw := { s.hw with staged := [{ stagedOf release3 with st := .backlog }], backlogs := [(0, [⟨0, 0, 0⟩])] } }

theorem witness_FetchAndBacklog : live.serving = true ∧ (∀ e ∈ live.hw.rings, live.fetchable e.2 = false)
    ∧ ringed.serving = true ∧ ringed.hw.rings = [(0, ring0)] ∧ ringed.fetchable ring0 = true
    ∧ ringed.judgeStruct ring0.space false (ring0.base.toNat + 64 * (ring0.fetched.toNat % ring0.n)) 64 = .ok
    ∧ live.backlog 0 = [] ∧ inBacklog.serving = true ∧ inBacklog.backlog 0 = [⟨0, 0, 0⟩]
    ∧ inBacklog.hw.staged.find? (fun y => y.part = 0 && y.st = .backlog && y.cmd.ring = 0 && y.cmd.idx = 0) = some { stagedOf release3 with st := .backlog }
    ∧ (∀ y ∈ inBacklog.hw.staged, y.st ≠ .ready ∧ y.retried = none) ∧ inBacklog.stagedCount 0 < 256 ∧ inBacklog.residency 0 release3 = (true, inBacklog) := by decide +kernel

/-- The last signal of the partition's range and the first beyond it; each `OP`. -/
theorem witness_SignalRegister : live.HostOpen ∧ (∀ v ∈ [0, 15], live.cfg.active.owns 0 v = true) ∧ live.cfg.active.owns 0 16 = false
    ∧ (∀ op ∈ [0, 1, 2, 3], (BitVec.ofNat 64 (15 + 2 ^ 16 * op)).extractLsb' 16 2 = BitVec.ofNat 2 op ∧ (BitVec.ofNat 64 (15 + 2 ^ 16 * op)).toNat % 65536 = 15)
    ∧ ∀ w ∈ live.sig.waiters, w.1 ≠ 15 := ⟨open_live, by decide +kernel⟩

/-- Operation 9, an EVICT, is held; with and without a resume ring. -/
def held (ring : Bool) : State :=
  let pt : Pt := { Pt.reset with rring := 0x8000000000000000 }
  { live with hw := { live.hw with rings := [(0, ring0)], ops := [{ opOf 9 (cmd 0x0A 3 []) with st := .held, faultVa := 0x100 }] }, pt := if ring then [(0, pt)] else [] }

theorem witness_ResumeRegister : (held true).HostOpen ∧ (held false).HostOpen ∧ (held true).heldOp 0 8 = none
    ∧ (∀ r, (held r).heldOp 0 9 = some { opOf 9 (cmd 0x0A 3 []) with st := .held, faultVa := 0x100 })
    ∧ ((held true).ptReg 0).rring.getLsbD 63 = true ∧ ((held false).ptReg 0).rring.getLsbD 63 = false
    ∧ ((held true).judgeOpd ⟨0, .other, false, 0x100, 1⟩).1 = .ok ∧ [0x0A, 0x0B, 0x0C, 0x0D].contains (opcodeOf (cmd 0x0A 3 [])) = true :=
  ⟨⟨by decide +kernel, by decide +kernel, by decide +kernel⟩, ⟨by decide +kernel, by decide +kernel, by decide +kernel⟩, by decide +kernel⟩

/-- Trace captures type 0x0E of partition 0. -/
def traced : State := { live with trc := { live.trc with enable := true, types := 0x4000, parts := 1 } }

theorem witness_TraceRegisters : traced.HostOpen ∧ live.HostOpen ∧ traced.trc.enable = true ∧ traced.trc.mode ≠ 1 ∧ traced.trc.types.getLsbD 0x0E = true
    ∧ traced.trc.parts.getLsbD 0 = true ∧ traced.trc.staging.length < 64 ∧ live.trc.enable = false :=
  ⟨⟨by decide +kernel, by decide +kernel, by decide +kernel⟩, open_live, by decide +kernel⟩

/-- One tick before the operating time rises. -/
def lateTick (s : State) : State := { s with clk := { s.clk with tick := 6249999 } }

theorem witness_IdleTicks : (lateTick asleep).pending = [] ∧ (lateTick asleep).fast = false ∧ (lateTick live).pending = [] ∧ (lateTick live).fast = true
    ∧ (lateTick live).hw.ops = [] ∧ ∀ p, p < 16 → ((lateTick live).pool p).fstate = .normal := by decide +kernel

theorem witness_ResetState : live.boot.stage ≤ 4 ∧ State.reset.boot.stage ≤ 4 := by decide +kernel

theorem witness_ColdReset : ringed.recorder.queue = [] ∧ ringed.recorder.seals = [] := by decide +kernel

theorem witness_BlockReset : ¬ (ringed.boot.inReset = true ∧ ringed.boot.kind = .cold) ∧ ringed.boot.inReset = false
    ∧ (0xB10C000000000001 : W64).getLsbD 0 = true ∧ (0xB10C000000000001 : W64).extractLsb' 48 16 = 0xB10C
    ∧ (1 : W64).getLsbD 0 = true ∧ (1 : W64).extractLsb' 48 16 ≠ 0xB10C := by decide +kernel

/-- Stage S1 under way; stage S2 at wave `k`; stage S3. -/
def inS1 : State := { State.reset with boot := { State.reset.boot with s1Started := true } }
def inS2 (k : Nat) (svc : BitVec 32) : State := { live with boot := { live.boot with stage := 2, wave := k, svc := svc } }
def inS3 : State := { live with boot := { live.boot with stage := 3, reduced := true } }

theorem witness_BringUpStages : State.reset.boot.s1Started = false ∧ State.reset.boot.fatal = false
    ∧ inS1.boot.inReset = false ∧ inS1.boot.s1Started = true ∧ inS1.boot.stage = 1 ∧ inS1.boot.fatal = false ∧ inS1.clk.wbuf = [] ∧ inS1.ras.clOut = 0
    ∧ (∀ k ∈ [0, 3], (inS2 k 0).fast = true ∧ (inS2 k 0).boot.stage = 2 ∧ (inS2 k 0).boot.bootFail = false ∧ (inS2 k 0).boot.wave < (inS2 k 0).waves
      ∧ ∀ j, j < 8 → (inS2 k 0).ras.clOut.getLsbD (8 * k + j) = false)
    ∧ (inS2 3 0).boot.wave + 1 = (inS2 3 0).waves ∧ (inS2 0 0).boot.wave + 1 < (inS2 0 0).waves ∧ inS3.fast = true ∧ inS3.boot.stage = 3 := by decide +kernel

/-- Partition 0 is being reset; a pair of partition 1 waits on partition 0's signal 7. -/
def inPartReset : State :=
  let c : Cluster := { Cluster.reset with roleEpoch := 5, spm := [(1, 1)], fieldRep := 2 }
  { prog with cfg := { prog.cfg with resetting := 1 }, ras := { prog.ras with pstop := 1 }, clusters := [(2, c)] }
def foreignWait : State :=
  let w : SwaitSt := ⟨7, 4, 2, 100, 0, false⟩
  let y : Pair := { Pair.reset with st := .waitSig, swait := some w, part := 1 }
  { live with pairs := [(1, y)], sig := { Sig.reset with waiters := [(7, .pair 1)], raised := [(3, true)] } }

theorem witness_PartitionReset : live.HostOpen ∧ foreignWait.HostOpen ∧ live.cfg.resetting.getLsbD 0 = false ∧ (∀ w ∈ live.sig.waiters, live.cfg.active.holds 0 w.1 = false)
    ∧ foreignWait.cfg.resetting.getLsbD 0 = false ∧ foreignWait.sig.waiters = [(7, .pair 1)] ∧ foreignWait.cfg.active.holds 0 7 = true
    ∧ (foreignWait.pair 1).part ≠ 0 ∧ (foreignWait.pair 1).swait = some ⟨7, 4, 2, 100, 0, false⟩
    ∧ live.boot.inReset = false ∧ live.boot.fatal = false ∧ live.cfg.swapping = none ∧ inPartReset.boot.inReset = false ∧ inPartReset.boot.fatal = false
    ∧ inPartReset.cfg.swapping = none ∧ inPartReset.cfg.resetting.getLsbD 0 = true ∧ inPartReset.drains 0 = false
    ∧ ∀ n ∈ inPartReset.clustersOf inPartReset.cfg.active 0, inPartReset.withdrawing n = false :=
  ⟨open_live, ⟨by decide +kernel, by decide +kernel, by decide +kernel⟩, by decide +kernel⟩

/-- Sequence 3 is ACTIVE with operation 9; sequence 4 is FREE. -/
def working : State :=
  let q : Seq := { Seq.free with st := .active, map := 0x400000, btLog2 := 6 }
  { prog with hw := { prog.hw with seqs := [(3, q)], ops := prog.hw.ops ++ [opOf 9 (cmd 5 3 [])] } }

theorem witness_SequenceKill : working.HostOpen ∧ (0x8000000000000003 : W64).getLsbD 63 = true ∧ (0x8000000000000003 : W64).toNat % 16384 = 3
    ∧ (working.seq 0 3).st ≠ .free ∧ (working.seq 0 3).st ≠ .spilled ∧ (0x8000000000000004 : W64).getLsbD 63 = true ∧ (working.seq 0 4).st = .free :=
  ⟨⟨by decide +kernel, by decide +kernel, by decide +kernel⟩, by decide +kernel⟩

/-- One invalidation at the head of the queue, with and without a read outstanding to its range; eight of them; a ring that waits for its page. -/
def invalidating : State := { live with tr := { live.tr with invQ := [⟨0, 0, 0, 1⟩], invIssued := 3, invDone := 2 } }
def invalidatingBusy : State :=
  let p : Port := { Port.reset with reads := [(33, some ⟨false, 0, 0, 0, 64, .stream 0 0 0, false, []⟩)] }
  { invalidating with ports := [(1, p)] }
def invalidatingFull : State := { live with tr := { live.tr with invQ := List.replicate 8 ⟨0, 0, 0, 1⟩ } }
def miss3 : Miss := ⟨3, 0, 0, 0⟩
def walking : State :=
  let r : Ring := { ring0 with waits := true }
  let s : State := { ringed with hw := { ringed.hw with rings := [(0, r)] }, tr := { live.tr with walkers := [⟨0, [miss3], false⟩], tlbs := [] } }
  { s with cfg := { live.cfg with rootInUse := [(0, 0x8000000000001000)] }, mem := [(4096, 0x0F), (4099, 0x40)] }

theorem witness_TranslationQueues : live.HostOpen ∧ (5 * 2 ^ 25 + 2 ^ 61 : W64).extractLsb' 60 2 ≠ 3 ∧ 8 ≤ invalidatingFull.tr.invQ.length
    ∧ invalidating.tr.invQ ≠ [] ∧ invalidating.tr.invQ.length < 8 ∧ live.tr.invQ = [] ∧ invalidating.fast = true ∧ invalidating.tr.invQ = [⟨0, 0, 0, 1⟩]
    ∧ invalidating.outstanding ⟨0, 0, 0, 1⟩ = false ∧ invalidatingBusy.fast = true ∧ (0 : BitVec 2) ≠ 2 ∧ invalidatingBusy.outstanding ⟨0, 0, 0, 1⟩ = true
    ∧ live.tr.walkers = [] ∧ walking.fast = true ∧ walking.tr.walkers = [⟨0, [miss3], false⟩] ∧ walking.flying (fun r => r.ofWalk 0 3) = false
    ∧ (∀ q, q < 17 → Tab.get [] walking.tr.misses q = []) ∧ (∀ x ∈ walking.hw.staged, x.st ≠ .rewalk) ∧ (walking.ring 0).waits = true ∧ (walking.ring 0).unwritten = [] ∧ (∀ x ∈ walking.tlb 3, ¬ (x.space = 0 ∧ x.page = 3)) := ⟨open_live, by decide +kernel⟩

theorem witness_TranslationQueues_walk : ∃ e, walk walking.mem (walking.rootOf 0) 0 (3 * 2 ^ 25) = .ok e := ⟨_, by rfl⟩

/-- A command waits for a held page; a ring waits for its page; an EVICT is paused by HOLD; every page of partition 0 and of the global space is
held, a resume record waits for one, and a command of the backlog waits for the record of its spilled sequence. -/
def attend3 : Cmd := cmd 5 3 [(20, 1), (56, 0x600000)]
def heldPage : State :=
  let s := withStaged attend3 live
  { s with hw := { s.hw with staged := [{ stagedOf attend3 with st := .heldPage, va := 0x1234 }], seqs := [(3, { Seq.free with st := .idle, map := 0x400000, btLog2 := 6 })] } }
def heldRing : State := { ringed with hw := { ringed.hw with rings := [(0, { ring0 with waits := true, fetched := 4 })] } }
def pausedOp : Op := { opOf 9 (cmd 0x0A 3 []) with hold := [0x555] }
def paused : State := { prog with hw := { prog.hw with ops := prog.hw.ops ++ [pausedOp] } }

def heldSpace (s : State) : State :=
  { s with tr := { s.tr with tlbs := [], groot := some 0x8000000000001000 }, cfg := { s.cfg with rootInUse := [(0, 0x8000000000001000)] }, mem := [(4096, 0x10)] }
def heldResume : State := { heldSpace ringed with pt := [(0, { Pt.reset with rring := 0x8000000000000000, rringWait := [(0, none)] })] }
def heldBacklog : State :=
  let s := heldSpace inBacklog
  { s with hw := { s.hw with oxbow := some 0x8000000000000000, seqs := [(3, { Seq.free with st := .spilled })] } }

theorem witness_HeldPages : heldPage.fast = true
    ∧ heldPage.hw.staged.find? (fun y => y.cmd.ring = 0 && y.cmd.idx = 0) = some { stagedOf attend3 with st := .heldPage, va := 0x1234 }
    ∧ (∀ o ∈ heldPage.hw.ops, o.opid ≠ heldPage.hw.nextOpid) ∧ heldPage.hw.ops.countP (fun o => o.part = 0 && o.st = .held) < 64
    ∧ paused.fast = true ∧ paused.op 9 = some pausedOp ∧ paused.pausedAt pausedOp = some 0x555 ∧ pausedOp.st ≠ .held
    ∧ paused.hw.ops.countP (fun o => o.part = 0 && o.st = .held) < 64
    ∧ heldRing.fast = true ∧ (∀ x ∈ heldRing.hw.staged, ¬ (x.cmd.ring = 0 ∧ x.cmd.idx = 4)) ∧ (heldRing.ring 0).waits = true ∧ (heldRing.ring 0).fetched = 4
    ∧ ringed.fast = true ∧ (∀ x ∈ ringed.hw.staged, ¬ (x.cmd.ring = 0 ∧ x.cmd.idx = 0)) ∧ (ringed.ring 0).waits = false ∧ (ringed.ring 0).unwritten = []
    ∧ ringed.resumeWaits 0 = none ∧ heldResume.fast = true ∧ (heldResume.resumeWaits 0).isSome = true ∧ (heldResume.ring 0).waits = false
    ∧ (heldResume.ring 0).unwritten = [] ∧ (∀ x ∈ heldResume.hw.staged, ¬ (x.cmd.ring = 0 ∧ x.cmd.idx = 0)) ∧ heldBacklog.fast = true
    ∧ heldBacklog.hw.staged.find? (fun y => y.cmd.ring = 0 && y.cmd.idx = 0) = some { stagedOf release3 with st := .backlog }
    ∧ (heldBacklog.oxbowWaits 0 release3 <|> heldBacklog.backlogWaits 0).isSome = true := by
  decide +kernel

/-- A ring that finds no free scoreboard entry is stalled; an LTW is not. -/
theorem witness_OperationTimeouts : let ring : QWork := .hset 2 0x9070807E40000000
    let s := handling ring 64
    s.fast = true ∧ ((s.cluster 0).queue.find? (fun x => x.eng = .control && s.stalled 0 x)) = some (handleEnt ring)
    ∧ (∀ q ∈ (queued.cluster 0).queue, q.eng = .control → queued.stalled 0 q = false)
    ∧ paused.boot.inReset = false ∧ paused.boot.fatal = false ∧ paused.op 9 = some pausedOp ∧ opcodeOf pausedOp.cmd ≠ 0x0F ∧ paused.op 5 = some progOp := by decide +kernel

theorem witness_CompletionRecord : let s := withStaged release3 live
    s.serving = true ∧ opcodeOf release3 = 0x02 ∧ s.stagedFor release3 = some (stagedOf release3) ∧ (∀ o ∈ s.hw.ops, o.cmd ≠ release3)
      ∧ s.admissible (stagedOf release3) = (true, s) ∧ (s.seq 0 (sqidOf release3)).st = .free ∧ raiseEn release3 = false ∧ irqBit release3 = false
      ∧ (s.ring 0).cbase.toNat % 4096 = 0 ∧ s.judgeStruct (s.ring 0).space true ((s.ring 0).cbase.toNat + 32 * (0 % 2 ^ (s.ring 0).log2n.toNat)) 32 = .ok
      ∧ s.paOf (s.ring 0).space ((s.ring 0).cbase.toNat + 32 * (0 % 2 ^ (s.ring 0).log2n.toNat)) = some 0x11000 ∧ (s.ring 0).done = release3.idx ∧ (s.ring 0).written = [] := by
  decide +kernel

/-- A state passes every wait before admission, as one closed check. -/
theorem admits_of {s : State} {op : Nat} {c : Cmd} {x : Staged}
    (h : s.serving = true ∧ opcodeOf c = op ∧ s.stagedFor c = some x ∧ s.admissible x = (true, s) ∧ s.seqCheck x.part c = none ∧ s.residency x.part c = (true, s)) :
    s.Admits op c x := ⟨h.1, h.2.1, h.2.2.1, h.2.2.2.1, h.2.2.2.2.1, h.2.2.2.2.2⟩

theorem get_of_all {α : Type} (P : α → Prop) (d : α) (t : Tab α) (hd : P d) (ht : ∀ e ∈ t, P e.2) (k : Nat) : P (Tab.get d t k) := by
  induction t with
  | nil => exact hd
  | cons e t ih =>
    simp only [Tab.get]
    split
    · exact ht e (List.mem_cons_self ..)
    · exact ih (fun x hx => ht x (List.mem_cons_of_mem _ hx))

theorem fresh_of {s : State} (h : (∀ o ∈ s.hw.ops, o.opid ≠ s.hw.nextOpid) ∧ ∀ e ∈ s.pools, ∀ j ∈ e.2.copyJobs, j.opid ≠ s.hw.nextOpid) : s.Fresh :=
  ⟨h.1, fun p => get_of_all (fun x => ∀ j ∈ x.copyJobs, j.opid ≠ s.hw.nextOpid) Pool.reset s.pools (by intro j hj; cases hj) h.2 p⟩

/-- An ADMIT with a prompt of 40 tokens, and one with none; a RELEASE and a FORK of an IDLE sequence 3 with 5 tokens in group 2. -/
def admit3 : Cmd := cmd 1 3 [(16, 0x400000), (24, 40), (28, 16 * 6 + 2), (56, 0x500000)]
def admitEmpty3 : Cmd := cmd 1 3 [(16, 0x400000), (28, 16 * 6 + 2)]
def fork3 : Cmd := cmd 3 3 [(16, 7), (24, 0x500000), (32, 16 * 6 + 2)]
def idle3 : Seq := { Seq.free with st := .idle, map := 0x400000, btLog2 := 6, len := [(0, 5)], table := [(0, some 2)] }
def group2 : PgRec := { PgRec.free with st := .opened, fill := 5, refcnt := 1, loc := 1 }
def withSeq (q : Seq) (r : PgRec) (s : State) : State :=
  { s with hw := { s.hw with seqs := [(3, q)] }, pools := [(0, { Pool.reset with taken := true, recs := [(2, r)] })] }

/-- A RELEASE of sequence 3 finds an operation of it; it waits for that operation, or no longer. -/
def releaseBusy : State :=
  let s := withSeq { idle3 with st := .active, inflight := 1 } group2 live
  withStaged release3 { s with hw := { s.hw with ops := [opOf 9 attend3] } }
def releasing (busy : Bool) : State :=
  let s := withSeq { idle3 with st := .releasing, inflight := 1 } group2 live
  { s with hw := { s.hw with ops := [opOf 8 release3] ++ (if busy then [opOf 9 attend3] else []), rings := [(0, { ring0 with fetched := 1 })] } }

theorem witness_SequencesAdmittedAndForked :
    (withStaged admit3 live).Admits 1 admit3 (stagedOf admit3) ∧ (withStaged admitEmpty3 live).Admits 1 admitEmpty3 (stagedOf admitEmpty3)
      ∧ (withStaged release3 (withSeq idle3 group2 live)).Admits 2 release3 (stagedOf release3)
      ∧ (withStaged fork3 (withSeq idle3 group2 live)).Admits 3 fork3 (stagedOf fork3) ∧ (withStaged admit3 live).linkFull = false
      ∧ ((withStaged admit3 live).pool 0).fstate = .normal ∧ (withStaged admit3 live).resident < 16384
      ∧ (withStaged admit3 live).backlogCount 0 3 = 0
      ∧ (let s := withStaged release3 (withSeq idle3 group2 live)
        s.seqBusy 0 3 = false ∧ (s.seq 0 3).st ≠ .spilled)
      ∧ (releaseBusy.seqBusy 0 3 = true ∧ (releaseBusy.seq 0 3).st ≠ .spilled ∧ ∀ o ∈ releaseBusy.hw.ops, o.cmd ≠ release3)
      ∧ (∀ b, (releasing b).serving = true ∧ (releasing b).hw.ops.find? (fun o => o.cmd = release3) = some (opOf 8 release3)
        ∧ (releasing b).op 8 = some (opOf 8 release3) ∧ (releasing b).seqBusy 0 3 = b)
      ∧ (let s := withStaged fork3 (withSeq idle3 group2 live)
        s.linkFull = false ∧ s.resident < 16384 ∧ s.backlogCount 0 (childOf fork3) = 0 ∧ ∀ e ∈ (s.seq 0 3).table.filter (fun e => e.1 * (s.desc 0).tok < (s.seq 0 3).maxLen ((s.desc 0).layersM1 + 1)),
          e.1 < 2 ^ btLog2Of fork3 ∧ e.2 = some 2 ∧ (s.pg 0 2).refcnt < 65535) :=
  ⟨admits_of (by decide +kernel), admits_of (by decide +kernel), admits_of (by decide +kernel), admits_of (by decide +kernel), by decide +kernel⟩

theorem witness_SequencesAdmittedAndForked_waits : releaseBusy.Admits 2 release3 (stagedOf release3) ∧ releaseBusy.Fresh :=
  ⟨admits_of (by decide +kernel), fresh_of (by decide +kernel)⟩

/-- APPEND_KV of two tokens; SPEC_COMMIT of two tentative tokens of three under the right epoch and a wrong one; SPEC_ABORT. -/
def append3 : Cmd := cmd 4 3 [(16, 2), (56, 0x600000)]
def commit3 : Cmd := cmd 8 3 [(10, 0), (16, 2)]
def commitWrong3 : Cmd := cmd 8 3 [(10, 1), (16, 2)]
def abort3 : Cmd := cmd 9 3 []
def tail3 : Seq := { idle3 with tlen := [(0, 3)] }
def appending : State := withStaged append3 (withSeq idle3 group2 live)
def tailed (c : Cmd) : State := withStaged c (withSeq tail3 group2 live)

theorem witness_TokensAppendedAndCommitted :
    appending.Admits 4 append3 (stagedOf append3) ∧ appending.Fresh ∧ (tailed commit3).Admits 8 commit3 (stagedOf commit3)
      ∧ (tailed commitWrong3).Admits 8 commitWrong3 (stagedOf commitWrong3) ∧ (tailed abort3).Admits 9 abort3 (stagedOf abort3)
      ∧ (specBit append3 = false ∧ fiEn append3 = false ∧ (appending.seq 0 3).hasTail ((appending.desc 0).layersM1 + 1) = false
        ∧ appending.slotRead 0 append3 ((appending.seq 0 3).lenOf (layerOf append3)) = false)
      ∧ (match appending.needBlocks 0 3 (layerOf append3) ((appending.seq 0 3).lenOf (layerOf append3)) (countOf append3) appending.hw.nextOpid with | .ok _ => true | _ => false) = true
      ∧ (tailed commit3).linkFull = false ∧ ((tailed commit3).seq 0 3).epoch.toNat = specEpochOf commit3
      ∧ ncommitOf commit3 ≤ ((tailed commit3).seq 0 3).minTlen ((live.desc 0).layersM1 + 1) ∧ ((tailed commitWrong3).seq 0 3).epoch.toNat ≠ specEpochOf commitWrong3 :=
  ⟨admits_of (by decide +kernel), fresh_of (by decide +kernel), admits_of (by decide +kernel), admits_of (by decide +kernel), admits_of (by decide +kernel),
    by decide +kernel, by decide +kernel, by decide +kernel⟩

/-- ATTEND_FWD, ATTEND_BWD and PREFILL of sequence 3. -/
def attendBwd3 : Cmd := cmd 6 3 [(20, 1), (56, 0x600000)]
def prefill3 : Cmd := cmd 7 3 [(20, 4), (56, 0x600000)]
def attending (c : Cmd) : State := withStaged c (withSeq idle3 group2 live)

theorem witness_AttentionAdmitted : (∀ c ∈ [attend3, attendBwd3, prefill3], (attending c).Fresh)
    ∧ (attending attend3).Admits 5 attend3 (stagedOf attend3) ∧ (attending attendBwd3).Admits 6 attendBwd3 (stagedOf attendBwd3)
    ∧ (attending prefill3).Admits 7 prefill3 (stagedOf prefill3) ∧ (attending attend3).linkFull = false
    ∧ (attending attend3).cover 0 3 ((attending attend3).keyBlocks 0 attend3 ((attending attend3).keyCount 0 attend3)) = .ready
    ∧ (causalOf attend3 = false ∧ winOf attend3 = false ∧ bmOf attend3 = false ∧ namesPeer ((attending attend3).blockOf 0 attend3) = false ∧ 1 ≤ (attending attend3).keyCount 0 attend3 ∧ (attending attendBwd3).linkFull = false)
    ∧ (attending attendBwd3).cover 0 3 ((attending attendBwd3).keyBlocks 0 attendBwd3 ((attending attendBwd3).keyCount 0 attendBwd3)) = .ready
    ∧ ((attending prefill3).seq 0 3).hasTail ((live.desc 0).layersM1 + 1) = false
    ∧ (((attending prefill3).seq 0 3).lenOf (layerOf prefill3) + nqOf prefill3 - 1) / (live.desc 0).tok < 2 ^ ((attending prefill3).seq 0 3).btLog2 := by
  refine ⟨fun c h => fresh_of ?_, admits_of (by decide +kernel), admits_of (by decide +kernel), admits_of (by decide +kernel), by decide +kernel, by decide +kernel, by decide +kernel, by decide +kernel,
    by decide +kernel, by decide +kernel⟩
  revert c; decide +kernel

/-- The same states, of commands that are taken in one step. -/
theorem witness_RingCommandsTaken : (withStaged admit3 live).Admits 1 admit3 (stagedOf admit3) ∧ (withStaged release3 (withSeq idle3 group2 live)).Admits 2 release3 (stagedOf release3)
    ∧ (withStaged release3 (withSeq idle3 group2 live)).Fresh ∧ (withStaged fork3 (withSeq idle3 group2 live)).Admits 3 fork3 (stagedOf fork3)
    ∧ (withStaged admit3 live).linkFull = false ∧ ((withStaged admit3 live).pool 0).fstate = .normal ∧ (withStaged admit3 live).resident < 16384
    ∧ ((withStaged release3 (withSeq idle3 group2 live)).linkFull = false ∧ ((withStaged release3 (withSeq idle3 group2 live)).seq 0 3).st ≠ .spilled
      ∧ (∀ o ∈ (withStaged release3 (withSeq idle3 group2 live)).hw.ops, o.cmd ≠ release3) ∧ (attending attend3).linkFull = false
      ∧ namesPeer ((attending attend3).blockOf 0 attend3) = false) :=
  ⟨admits_of (by decide +kernel), admits_of (by decide +kernel), fresh_of (by decide +kernel), admits_of (by decide +kernel), by decide +kernel, by decide +kernel, by decide +kernel,
    by decide +kernel⟩

/-- RUN_PROGRAM of the one-instruction image, and the state after it, in which its pairs load. -/
def run32 : Cmd := cmd 0x0F 0 [(16, 32), (24, 0x13)]
def starting : State := withStaged run32 imaged
def loading : State := match exec (.runProgram run32) starting with | .next t => t | _ => live
def loadOp : Op := loading.hw.ops.getD 0 progOp

theorem witness_ProgramLoads : starting.Admits 0x0F run32 (stagedOf run32) ∧ starting.Fresh ∧ starting.cfg.active.imageVa run32 = some 0x700000
    ∧ starting.judgeImage 0x700000 = .ok ∧ imageUnfitted starting.part (BitVec.ofNat 512 (starting.vaNat 16 0x700000 64)) = false
    ∧ imageHeaderBad (BitVec.ofNat 512 (starting.vaNat 16 0x700000 64)) = false ∧ starting.imageCrcBad 0x700000 (BitVec.ofNat 512 (starting.vaNat 16 0x700000 64)) = false
    ∧ starting.pairsIdle (starting.programClusters 0 run32) = true
    ∧ loading.fast = true ∧ loading.op loadOp.opid = some loadOp ∧ opcodeOf loadOp.cmd = 0x0F ∧ loadOp.loaded = false ∧ loadOp.st = .running
    ∧ loadOp.set.imageVa loadOp.cmd = some 0x700000 ∧ 0 ∈ pairsOf loadOp.clusters ∧ loadOp.ended = 0 ∧ argLenOf loadOp.cmd = 0
    ∧ bits (BitVec.ofNat 512 (loading.vaNat 16 0x700000 64)) 128 32 = 0 :=
  ⟨admits_of (by decide +kernel), fresh_of (by decide +kernel), by decide +kernel⟩

/-- Group 2 FULL in frame 1, or COLD in slot 3; commands that name it. -/
def full2 : PgRec := { group2 with st := .full, fill := 16, crcOk := true }
def cold2 : PgRec := { full2 with st := .cold, loc := 3 }
def seq16 : Seq := { idle3 with len := [(0, 16)] }
def evict3 : Cmd := cmd 0x0A 3 [(16, 0), (20, 1)]
def restore3 : Cmd := cmd 0x0B 3 [(16, 0), (20, 1)]
def export3 : Cmd := cmd 0x0C 3 [(16, 0), (20, 1), (56, 0x600000)]
def import3 (n : Nat) : Cmd := cmd 0x0D 3 [(16, n), (24, 0x400000), (32, 16 * 6), (56, 0x600000)]
def copying (c : Cmd) (r : PgRec) : State := withStaged c (withSeq seq16 r live)
def importing (n : Nat) : State := withStaged (import3 n) live

/-- The pool is ample for a new copy. -/
def ampleOk (s : State) (p : Nat) : Prop := (s.pool p).fstate = .normal ∧ Tab.wf PgRec.free (s.pool p).recs ∧ (s.desc p).lowWm < s.avail p

theorem witness_CopyCommands :
    (copying evict3 full2).Fresh ∧ (copying evict3 group2).Fresh ∧ (copying restore3 cold2).Fresh ∧ (copying export3 full2).Fresh ∧ (importing 1).Fresh
      ∧ (copying evict3 full2).Admits 0x0A evict3 (stagedOf evict3) ∧ (copying evict3 group2).Admits 0x0A evict3 (stagedOf evict3)
      ∧ (copying restore3 cold2).Admits 0x0B restore3 (stagedOf restore3) ∧ (copying export3 full2).Admits 0x0C export3 (stagedOf export3)
      ∧ (importing 1).Admits 0x0D (import3 1) (stagedOf (import3 1))
      ∧ (((copying evict3 full2).seq 0 3).range (firstOf evict3) (nentOf evict3)).map Prod.snd = [2] ∧ ((copying evict3 full2).pg 0 2).evictable = true
      ∧ (copying evict3 full2).freeSlots 0 ≠ [] ∧ ((copying evict3 group2).pg 0 2).evictable = false
      ∧ (∀ j ∈ ((copying evict3 full2).pool 0).copyJobs, 0 < j.left) ∧ ((copying restore3 cold2).pg 0 2).st = .cold ∧ (copying restore3 cold2).mayFrame 0 3 = true
      ∧ (copying restore3 cold2).freeFrames 0 ≠ [] ∧ ((copying export3 full2).exportRange 0 export3).map Prod.snd = [2]
      ∧ (copying export3 full2).cover 0 3 (((copying export3 full2).exportRange 0 export3).map Prod.fst) = .ready ∧ ((copying export3 full2).pg 0 2).st ≠ .evicting
      ∧ ngrpOf (import3 1) = 1 ∧ (importing 1).linkFull = false ∧ (importing 1).resident < 16384 ∧ (importing 1).freeIds 0 ≠ [] ∧ (importing 1).freeFrames 0 ≠ []
      ∧ ampleOk (copying restore3 cold2) 0 ∧ ampleOk (importing 1) 0 :=
  ⟨fresh_of (by decide +kernel), fresh_of (by decide +kernel), fresh_of (by decide +kernel), fresh_of (by decide +kernel), fresh_of (by decide +kernel),
    admits_of (by decide +kernel), admits_of (by decide +kernel), admits_of (by decide +kernel), admits_of (by decide +kernel), admits_of (by decide +kernel),
    by decide +kernel, by decide +kernel, by decide +kernel, by decide +kernel, by decide +kernel, by decide +kernel, by decide +kernel, by decide +kernel,
    by decide +kernel, by decide +kernel, by decide +kernel, by decide +kernel, by decide +kernel, by decide +kernel, by decide +kernel, by decide +kernel,
    by unfold ampleOk; decide +kernel, by unfold ampleOk; decide +kernel⟩

/-- Group 2 on its way to its slot, to its frame under any CRC, with its CRC to be known, being scrubbed; an EXPORT and IMPORTs in flight; a PREFILL whose
shared group 2 is being copied to group 4. -/
def holding (r : PgRec) : State := withSeq seq16 r live
def evicting : State := holding { full2 with st := .evicting, copyTo := some 3 }
def restoring (c : W32) : State := holding { cold2 with st := .restoring, copyTo := some 1, crc := c }
def crcPending : State :=
  let s := holding { full2 with crcOk := false }
  { s with pools := [(0, { s.pool 0 with crcJobs := [⟨2, 3, 0⟩] })] }
def scrubbing (c : W32) : State :=
  let s := holding { full2 with crc := c }
  { s with pools := [(0, { s.pool 0 with scrubEn := true })] }
def exported : State := match exec (.exportGroups export3) (copying export3 full2) with | .next t => { t with ports := [], hw := { t.hw with light := [] } } | _ => live
def imported (n : Nat) : State := { live with hw := { live.hw with ops := [{ opOf 1 (import3 n) with begun := true }] } }
/-- A copy of group 2 is still under way. -/
def underWay (s : State) : State := { s with ports := [(1, { Port.reset with reads := [(33, some ⟨false, 0, 0, 0, 64, .groupCopy 2, false, []⟩)] })] }
def cowOp : Op := { opOf 9 prefill3 with clusters := 0xF }
def shared : State :=
  let s := withSeq idle3 group2 live
  let old : PgRec := { full2 with st := .opened, fill := 5, refcnt := 2, crcOk := false }
  let new : PgRec := { group2 with fill := 0, loc := 5, copyTo := some 2, forCmd := some 9 }
  { s with hw := { s.hw with ops := [cowOp] }, pools := [(0, { s.pool 0 with recs := [(2, old), (4, new)] })] }

/-- A copy command goes on. -/
def copyRuns (s : State) (opcode : Nat) : Bool :=
  s.hw.ops.any (fun o => opcodeOf o.cmd == opcode && o.part == 0 && o.st == .running && o.begun && o.hold == [] && !s.linkFull && (s.judgeCopy o).1 == .ok
    && !s.flying (fun r => r.use = .opCopy o.opid))

theorem witness_CopiesEnd : evicting.fast = true ∧ (evicting.pg 0 2).st = .evicting ∧ (evicting.pg 0 2).copyTo = some 3 ∧ (evicting.pg 0 2).refcnt ≠ 0
    ∧ (evicting.pool 0).fstate = .normal ∧ Tab.wf PgRec.free (evicting.pool 0).recs ∧ (evicting.desc 0).lowWm ≤ evicting.avail 0
    ∧ (evicting.pool 0).copyJobs = [] ∧ evicting.copyOut 0 2 = false ∧ (underWay evicting).copyOut 0 2 = true ∧ (underWay evicting).fast = true
    ∧ ((underWay evicting).pg 0 2).st = .evicting ∧ (underWay (restoring 0)).copyOut 0 2 = true ∧ ((underWay (restoring 0)).pg 0 2).st = .restoring ∧ (∀ k ∈ [0, 1], let c := BitVec.ofNat 32 k
      (restoring c).fast = true ∧ ((restoring c).pg 0 2).st = .restoring
      ∧ ((restoring c).pg 0 2).copyTo = some 1 ∧ (restoring c).copyOut 0 2 = false ∧ ((restoring c).pg 0 2).refcnt ≠ 0 ∧ ((restoring c).pool 0).copyJobs = [])
    ∧ crcPending.fast = true ∧ (crcPending.pool 0).crcJobs = [⟨2, 3, 0⟩] ∧ (crcPending.pg 0 2).st = .full
    ∧ exported.fast = true ∧ copyRuns exported 0x0C = true ∧ (imported 1).fast = true ∧ copyRuns (imported 1) 0x0D = true ∧ copyRuns (imported 2) 0x0D = true
    ∧ 0 < (live.desc 0).tok ∧ (∀ k ∈ [0, 1], let c := BitVec.ofNat 32 k
      (scrubbing c).fast = true ∧ ((scrubbing c).pool 0).scrubEn = true ∧ ((scrubbing c).pg 0 2).st = .full
      ∧ ((scrubbing c).pg 0 2).crcOk = true ∧ ((scrubbing c).pg 0 2).pins = 0) ∧ 2 < (live.desc 0).pgIds
    ∧ (shared.fast = true ∧ (shared.pg 0 4).copyTo = some 2 ∧ (shared.pg 0 4).forCmd = some 9 ∧ shared.op 9 = some cowOp ∧ (shared.pg 0 4).st = .opened
      ∧ opcodeOf cowOp.cmd ≠ 0x04 ∧ 2 ≤ (shared.pg 0 2).refcnt ∧ (shared.seq 0 3).table.find? (fun e => e.2 = some 2) = some (0, some 2)) := by decide +kernel

/-- SWAPs with the right and a wrong expected epoch, over a valid shadow set, an invalid one and one that changes a locked partition. -/
def swap (e : Nat) : Cmd := cmd 0x0E 0 [(16, e)]
def shadowed (x : CfgSet) (lock : W16) (c : Cmd) : State := withStaged c { live with cfg := { live.cfg with shadow := x, partLock := lock } }
def setFewer : CfgSet := { set0 with words := Tab.set 0 set0.words 0x210 0xFFFF }
def setBad : CfgSet := { set0 with words := Tab.set 0 set0.words 0x100080 0x100001 }
def swapping (m : BitVec 32) : State :=
  let s := { live with cfg := { live.cfg with shadow := setFewer } }
  { s with cfg := { s.cfg with busy := true, swapping := some ⟨swap 0, 1, m, false⟩ } }
def clearing : State :=
  let c : Cluster := { Cluster.reset with clearing := true, spm := [(0, 1)], cacheNext := 2, roleEpoch := 9 }
  { live with clusters := [(1, c)] }

theorem witness_ConfigurationSwap :
    (shadowed setFewer 0 (swap 0)).Admits 0x0E (swap 0) (stagedOf (swap 0)) ∧ (shadowed setBad 0 (swap 0)).Admits 0x0E (swap 0) (stagedOf (swap 0))
      ∧ (shadowed setFewer 1 (swap 0)).Admits 0x0E (swap 0) (stagedOf (swap 0)) ∧ (shadowed setFewer 0 (swap 1)).Admits 0x0E (swap 1) (stagedOf (swap 1))
      ∧ (let s := shadowed setFewer 0 (swap 0)
        s.cfg.busy = false ∧ BitVec.ofNat 32 (expectEpochOf (swap 0)) = s.cfg.epoch.setWidth 32 ∧ s.cfg.shadow.unfitted s.part = false ∧ s.shadowValid = true ∧ s.lockHits = []
          ∧ BitVec.ofNat 32 (expectEpochOf (swap 1)) ≠ s.cfg.epoch.setWidth 32)
      ∧ (shadowed setBad 0 (swap 0)).shadowValid = false ∧ (shadowed setFewer 1 (swap 0)).lockHits ≠ [] ∧ (shadowed setFewer 1 (swap 0)).shadowValid = true
      ∧ (∀ k ∈ [0, 0xFFFF0000], let m := BitVec.ofNat 32 k
        (swapping m).fast = true ∧ (swapping m).cfg.swapping = some ⟨swap 0, 1, m, false⟩ ∧ (swapping m).atBoundary m = true)
      ∧ clearing.fast = true ∧ clearing.cfg.swapping = none ∧ (clearing.cluster 1).clearing = true ∧ (clearing.cluster 1).queue = [] ∧ clearing.streamOut 1 = false
      ∧ clearing.withdrawing 1 = false :=
  ⟨admits_of (by decide +kernel), admits_of (by decide +kernel), admits_of (by decide +kernel), admits_of (by decide +kernel), by decide +kernel⟩

/-- A message of the power manager from its fields. Floors that come to more than the grant; a program whose last one or two lent shares
return. -/
def message (t p c a : Nat) : W32 := BitVec.ofNat 32 (t * 2 ^ 28 + p * 2 ^ 24 + c * 2 ^ 16 + a)
def floored : State :=
  let set : CfgSet := { set0 with words := Tab.set 0 set0.words 0x100000 (0x8000000008000000 + (8 <<< 35)) }
  { live with cfg := { live.cfg with active := set } }
def lentOut (lent shares : BitVec 32) (n : Nat) : State :=
  let x := prog.pair 0
  let x : Pair := { x with lent := true, recalled := true, st := .waitRecall }
  let s : State := { prog with pairs := [(0, x)], weir := { prog.weir with lent := [(0, n)], recalls := [0] } }
  { s with hw := { prog.hw with ops := [{ progOp with lent := lent, shares := shares }] } }

theorem witness_PowerMessages : live.boot.inReset = false ∧ live.boot.fatal = false ∧ live.floorSum ≤ 0 ∧ 4 < floored.floorSum
    ∧ (∀ x ∈ [(lentOut 0x3 0xC 2, 0, [1]), (lentOut 0x1 0xE 1, 0, [])], ∃ o, x.1.op 5 = some o ∧ x.1.weir.recalls.head? = some 0 ∧ (x.1.pair 0).op = some 5
      ∧ (x.1.pair 0).part = 0 ∧ o.part = 0 ∧ (setList o.lent).filter (fun k => k / 4 = 0) = x.2.1 :: x.2.2 ∧ 1 ≤ Tab.get 0 x.1.weir.lent 0)
    ∧ asleep.clk.awake = false ∧ 2 ≤ asleep.boot.stage ∧ live.clk.awake = true
    ∧ (∀ x ∈ [(1, 0, 255, 0), (2, 15, 1, 0), (3, 0, 0, 4), (3, 0, 0, 16), (4, 0, 0, 0), (5, 0, 0, 1), (6, 0, 0, 0), (15, 0, 0, 0), (0, 0, 0, 0), (1, 1, 0, 0), (3, 0, 0, 3),
        (3, 0, 0, 17), (4, 0, 0, 1), (5, 0, 0, 2)], let w := message x.1 x.2.1 x.2.2.1 x.2.2.2
      (w.extractLsb' 28 4).toNat = x.1 ∧ (w.extractLsb' 24 4).toNat = x.2.1 ∧ (w.extractLsb' 16 8).toNat = x.2.2.1 ∧ (w.extractLsb' 0 16).toNat = x.2.2.2) := by
  refine ⟨by decide +kernel, by decide +kernel, by decide +kernel, by decide +kernel, ?_, by decide +kernel, by decide +kernel, by decide +kernel, by decide +kernel⟩
  intro x h
  fin_cases h
  · exact ⟨{ progOp with lent := 0x3, shares := 0xC }, by decide +kernel⟩
  · exact ⟨{ progOp with lent := 0x1, shares := 0xE }, by decide +kernel⟩

/-- A new F locked, the block idle, a wake under way, a clock asked to start or pre-woken, requests abandoned by a reset, one PLL bad. -/
def newFreq : State := { live with clk := { live.clk with freqNew := some 8 } }
def allIdle : State := { live with clk := { live.clk with clkOn := 0 } }
def waking : State := { asleep with clk := { asleep.clk with waking := true } }
def startWanted : State := { live with clk := { live.clk with clkOn := 0xFFFFFFFE, startReq := 1 } }
def prewoken : State := { live with weir := { live.weir with prewoken := 1 } }
def quarantined : State :=
  let p : Port := { Port.reset with reads := [(33, some ⟨false, 0, 0, 0, 64, .abandoned, false, []⟩), (34, some ⟨false, 0, 0, 0, 64, .stream 0 0 0, false, []⟩)] }
  { live with boot := { live.boot with quarantine := true }, ports := [(1, p)] }
def onePll : State := { prog with clk := { prog.clk with pllBBad := true } }

theorem witness_ClocksAndPlls : newFreq.fast = true ∧ newFreq.clk.freqNew = some 8 ∧ live.fast = true ∧ live.boot.stage = 4
    ∧ (live.trc.mode ≠ 2 ∨ live.trc.stream.getLsbD 63 = false) ∧ prog.blockIdle = false ∧ prog.fast = true ∧ prog.boot.stage = 4 ∧ allIdle.blockIdle = true
    ∧ (waking.boot.inReset = false ∧ waking.boot.fatal = false ∧ waking.clk.waking = true ∧ 2 ≤ waking.boot.stage ∧ waking.clk.wbuf = [] ∧ waking.clk.freqNew = none)
    ∧ (∀ n ∈ [0, 31], prewoken.clk.clkOn.getLsbD n = true ∧ (prewoken.cluster n).queue = [] ∧ prewoken.shareOn n = false) ∧ prewoken.trc.enable = false
    ∧ prewoken.weir.prewoken.getLsbD 0 = true ∧ prog.shareOn 0 = true ∧ startWanted.clk.startReq.getLsbD 0 = true ∧ startWanted.clk.clkOn.getLsbD 0 = false
    ∧ (if prog.clk.activeB then prog.clk.pllABad else prog.clk.pllBBad) = false ∧ (if onePll.clk.activeB then onePll.clk.pllABad else onePll.clk.pllBBad) = true
    ∧ live.boot.inReset = false ∧ live.boot.fatal = false ∧ live.recorder.nodev = false ∧ live.recorder.queue.length < 64
    ∧ quarantined.boot.inReset = false ∧ quarantined.boot.quarantine = true := by decide +kernel

/-- The program holds three of its four shares; its pair may lend; lent shares are recalled. -/
def needy : Op := { progOp with shares := 0x7 }
def wanting : State := { prog with hw := { prog.hw with ops := [needy] }, clk := { prog.clk with clkOn := 7 } }
def lending : State :=
  let w : SwaitSt := ⟨7, 4, 2, 100, 0, false⟩
  let x := prog.pair 0
  let x : Pair := { x with st := .waitSig, swait := some w }
  let set : CfgSet := { set0 with words := Tab.set 0 set0.words 0x100020 1 }
  { prog with pairs := [(0, x)], cfg := { prog.cfg with active := set } }

theorem witness_SharesAndLending : wanting.fast = true ∧ wanting.op 5 = some needy ∧ (wanting.nextGrant.map (fun y => y.1)) = some needy ∧ wanting.swapPause = false
    ∧ wanting.wanting needy = [3] ∧ (∀ y ∈ wanting.hw.ops, y.fin = false ∧ y.outq = [] ∧ opcodeOf y.cmd ≠ 0x04 ∧ opcodeOf y.cmd ≠ 0x06)
    ∧ lending.fast = true ∧ lending.op 5 = some progOp ∧ (lending.pair 0).swait = some ⟨7, 4, 2, 100, 0, false⟩ ∧ (lending.pair 0).op = some 5
    ∧ (setList progOp.shares).filter (fun n => n / 4 = 0) ≠ [] ∧ lending.trc.enable = false ∧ lending.cfg.active.lendThr (lending.pair 0).part ≠ 0
    ∧ (lentOut 0x3 0xC 2).fast = true ∧ 0 ∈ (lentOut 0x3 0xC 2).weir.recalls ∧ ((lentOut 0x3 0xC 2).pair 0).op = some 5 ∧ ((lentOut 0x3 0xC 2).pair 0).st = .waitRecall := by
  decide +kernel

/-- The event `q` of partition 2 with increment `inc`, and the meter that expects sequence number 5 next. -/
def event (seq q inc : Nat) : LinkEv := ⟨BitVec.ofNat 16 seq, 2, BitVec.ofNat 4 q, BitVec.ofNat 48 inc, linkCrc (BitVec.ofNat 16 seq) 2 (BitVec.ofNat 4 q) (BitVec.ofNat 48 inc)⟩
def metered (e : LinkEv) (f : Smu → Smu) : State :=
  { live with link := { live.link with wire := [e, event 6 1 1] }, smu := f { live.smu with lastSeq := some 4, residue := [(38, 500)], counts := [(33, 4)] } }

theorem witness_MeterLink : (metered (event 5 6 2999) id).part.optM = true ∧ (metered (event 5 6 2999) id).link.powered = true
    ∧ (∀ q ∈ [0, 6, 10, 11, 13, 14, 15], (event 5 q 150).crc = linkCrc (event 5 q 150).seq (event 5 q 150).part (event 5 q 150).q (event 5 q 150).inc)
    ∧ (∀ q ∈ [0, 11], (event 5 q 1).q.toNat < 12) ∧ (event 5 13 1).q.toNat < 14 ∧ ¬ (0 = linkCrc 5 2 1 7)
    ∧ (∀ y, (metered (event 5 6 2999) id).smu.lastSeq = some y → (event 5 6 2999).seq = y + 1)
    ∧ ¬ (∀ y, (metered (event 7 1 7) id).smu.lastSeq = some y → (event 7 1 7).seq = y + 1)
    ∧ (∀ x ∈ (metered (event 5 15 0) id).smu.seals, x.logged = true) ∧ (event 5 15 0).q = 15 ∧ (event 5 14 9).q = 14
    ∧ (metered (event 5 14 9) (fun m => { m with reports := [⟨1, 0, 9, 0, 5, 0⟩] })).smu.reports = [⟨1, 0, 9, 0, 5, 0⟩] ∧ (9 : W16) = (event 5 14 9).inc.setWidth 16
    ∧ live.link.accum = [] ∧ live.boot.inReset = false ∧ live.link.hold = false ∧ live.link.buffer = [] := by
  refine ⟨by decide +kernel, by decide +kernel, by decide +kernel, by decide +kernel, by decide +kernel, by decide +kernel, ?_, ?_, by decide +kernel⟩
  · intro y h
    have e : y = 4 := (Option.some.inj h).symm
    subst e
    decide +kernel
  · intro h
    exact absurd (h 4 rfl) (by decide +kernel)

/-- A meter whose staging words hold the code of its next seal; one that burns; one with eight seals; one in readout. -/
def meterOf (f : Smu → Smu) : State := { live with smu := f { live.smu with serial := 0x1122334455667788, tamper := 3, counts := [(1, 0x123456789ABCDEF0), (33, 4)], latch := 77 } }
def sealing : State :=
  let code := (meterOf id).smu.sealCode 0
  meterOf (fun m => { m with staging := [(9, BitVec.ofNat 32 (leNat (code.take 4))), (10, BitVec.ofNat 32 (leNat (code.drop 4)))] })

def eightSeals : State := meterOf (fun m => { m with seals := List.replicate 8 ⟨0, 0, true⟩ })
/-- The right code for slot 1 while slot 0 is the next. -/
def wrongSlot : State :=
  let code := (meterOf id).smu.sealCode 1
  meterOf (fun m => { m with staging := [(9, BitVec.ofNat 32 (leNat (code.take 4))), (10, BitVec.ofNat 32 (leNat (code.drop 4)))] })

theorem witness_MeterPort : (meterOf id).part.optM = true ∧ (meterOf id).link.powered = true
    ∧ (∀ a ∈ [0x1B, 0x3F, 0x64, 0xFFF, 0x1200, 0xFFFF, 0xB, 0xF], (0x1B ≤ a ∧ a < 0x40) ∨ (0x64 ≤ a ∧ a < 0x1000) ∨ 0x1200 ≤ a ∨ (0xB ≤ a ∧ a < 0x10))
    ∧ (∀ a ∈ [0, 1, 4, 5, 6, 7, 8, 9, 0x10, 0x1A, 0x40, 0x63, 0x1000, 0x11F7], ¬ ((0x1B ≤ a ∧ a < 0x40) ∨ (0x64 ≤ a ∧ a < 0x1000) ∨ 0x1200 ≤ a ∨ (0xB ≤ a ∧ a < 0x10)))
    ∧ 0x1000 + 32 * 15 + 2 * 11 + 1 = 0x11F7 ∧ (meterOf id).smu.sealWritten = false ∧ (0 : W32).getLsbD 31 = false ∧ (0x80000000 : W32).getLsbD 31 = true
    ∧ ((0x80000000 : W32).extractLsb' 0 3).toNat = sealing.smu.seals.length ∧ sealing.smu.sealWritten = false
    ∧ ((0x80000001 : W32).extractLsb' 0 3).toNat ≠ sealing.smu.seals.length
    ∧ (meterOf (fun m => { m with sealWritten := true })).smu.sealWritten = true ∧ (meterOf (fun m => { m with burning := some (5, 6) })).smu.burning = some (5, 6)
    ∧ (meterOf (fun m => { m with roBusy := true })).smu.roBusy = true ∧ (meterOf id).smu.roBusy = false
    ∧ ((0x80000000 : W32).extractLsb' 0 3).toNat ≠ eightSeals.smu.seals.length ∧ 8 ≤ eightSeals.smu.seals.length ∧ ((meterOf id).smu.reports.filter (fun r => r.kind = 2)).length < 8
    ∧ 8 ≤ (List.replicate 8 (⟨2, 0, 9, 3, 0x55, 77⟩ : MReport)).length := by decide +kernel

/-- The reports as they lie on the wire, and stored copies of the meter. -/
def wireOf (r : MReport) : BitVec 224 :=
  let v := r.kind.toNat + r.slot.toNat * 2 ^ 8 + r.rnum.toNat * 2 ^ 16 + r.waddr.toNat * 2 ^ 32 + r.value.toNat * 2 ^ 64 + r.stime.toNat * 2 ^ 128
  BitVec.ofNat 224 (v + (crc32c (leBytes 24 v)).toNat * 2 ^ 192)
def sealReport : MReport := ⟨1, 2, 9, 0, 0x55, 77⟩
def lockReport : MReport := ⟨2, 0, 9, 3, 0x55, 77⟩
def copyOf (pseq : W32) (valid : Bool) : MeterCopy := ⟨pseq, 3, 99, 1, 2, 8, [(1, 4)], valid⟩

theorem witness_MeterReports : reportOf (0 : BitVec 224) = none ∧ reportOf (wireOf sealReport) = some sealReport ∧ sealReport.kind = 1
    ∧ reportOf (wireOf lockReport) = some lockReport ∧ lockReport.kind = 2 ∧ live.part.optM = true ∧ live.link.powered = true
    ∧ live.boot.inReset = false ∧ live.link.hold = false ∧ live.link.buffer = [] ∧ live.recorder.nodev = false
    ∧ Tab.get (BitVec.allOnes 512) live.recorder.permanent 4098 = BitVec.allOnes 512
    ∧ Tab.get (BitVec.allOnes 512) [(4098, 5)] 4098 ≠ BitVec.allOnes 512 ∧ (∀ x ∈ live.smu.seals, x.logged = true)
    ∧ (∀ y ∈ [(8, 9, true), (0xFFFFFFFF, 0, true), (8, 8, true), (9, 8, false), (0, 0x80000000, false), (0, 0x7FFFFFFF, true)],
      decide (((copyOf (BitVec.ofNat 32 y.2.1) true).pseq - (copyOf (BitVec.ofNat 32 y.1) true).pseq).toNat < 2 ^ 31) = y.2.2)
    ∧ (copyOf 8 true).valid = true ∧ (copyOf 8 false).valid = false ∧ (∀ c, live.smu.copyA = some c ∨ live.smu.copyB = some c → c.valid = false) := by
  refine ⟨by decide +kernel, by decide +kernel, by decide +kernel, by decide +kernel, by decide +kernel, by decide +kernel, by decide +kernel, by decide +kernel,
    by decide +kernel, by decide +kernel, by decide +kernel, by decide +kernel, by decide +kernel, by decide +kernel, by decide +kernel, by decide +kernel, by decide +kernel, ?_⟩
  intro c h
  rcases h with h | h <;> cases h

/-- A stream part of 200 bytes waits at port 1, or is in flight there, with `c` command credits and `d` write data credits. -/
def request (w : Bool) (u : ReqUse) : Req := ⟨w, 0, 0x1000, 0x1000, 200, u, false, if w then List.replicate 200 7 else []⟩
def atPort (w : Bool) (c d : Nat) : State := { live with ports := [(1, { Port.reset with rc := c, wc := c, wd := d, waiting := [request w (.stream 0 3 0)] })] }
def inFlight (u : ReqUse) : State :=
  let p : Port := { Port.reset with reads := [(33, some (request false u))], writes := [(17, some (request true u))] }
  let e : QEnt := { newEnt 3 5 0 0 .stream (.sx 0) 0 with st := .started, left := 1 }
  { live with part := { Part.reset with optM := false }, ports := [(1, p)], clusters := [(0, { Cluster.reset with queue := [e] })] }

/-- A light-weight request of port 1 with its tag. -/
def lightReq (w : Bool) : Req := ⟨w, 0, 0x200, 0x200, 64, .light .fetch .nothing, false, []⟩
def lightAt (w : Bool) (c d : Nat) : State := { live with hw := { live.hw with light := [(true, lightReq w)] }, ports := [(1, { Port.reset with rc := c, wc := c, wd := d })] }

theorem witness_MemoryPorts_light : (∀ w, (lightAt w 1 2).lightNext 1 = some (true, lightReq w) ∧ (lightAt w 1 2).fast = true ∧ (lightAt w 1 2).linkFull = false
      ∧ Tab.get none ((lightAt w 1 2).port 1).reads 0 = none ∧ Tab.get none ((lightAt w 1 2).port 1).writes 0 = none ∧ (lightReq w).use.cls.isSome = true)
    ∧ 1 ≤ ((lightAt true 1 1).port 1).wc ∧ ((lightReq true).len + 127) / 128 ≤ ((lightAt true 1 1).port 1).wd ∧ ((lightAt false 0 0).port 1).rc = 0
    ∧ ∀ u ∈ [ReqUse.builtin 0 9 0 none, .groupCopy 2, .opCopy 9], Tab.get none ((inFlight u).port 1).reads 33 = some (request false u) ∧ (request false u).cache = false := by
  decide +kernel

theorem witness_PortRowsComplete : live.boot.inReset = false ∧ live.boot.fatal = false ∧ live.fast = true ∧ live.linkFull = false
    ∧ (∀ w, (atPort w 1 2).lightNext 1 = none ∧ ((atPort w 1 2).port 1).waiting = [request w (.stream 0 3 0)]
      ∧ ((atPort w 1 2).port 1).canSend (request w (.stream 0 3 0)) = some (if w then 16 else 32))
    ∧ Tab.get none ((inFlight (.stream 0 3 0)).port 1).reads 33 = some (request false (.stream 0 3 0))
    ∧ Tab.get none ((inFlight (.stream 0 3 0)).port 1).writes 17 = some (request true (.stream 0 3 0)) := by decide +kernel

theorem witness_MemoryPorts : live.boot.inReset = false ∧ live.boot.fatal = false ∧ live.linkFull = false ∧ live.fast = true ∧ live.tr.acc.getLsbD 63 = false
    ∧ (∀ w, ((atPort w 1 2).port 1).waiting = [request w (.stream 0 3 0)] ∧ (request w (.stream 0 3 0)).part < 16 ∧ (atPort w 1 2).lightNext 1 = none
      ∧ (request w (.stream 0 3 0)).use.cls = none) ∧ (request false (.stream 0 3 0)).wr = false
    ∧ (request true (.stream 0 3 0)).wr = true ∧ ((request true (.stream 0 3 0)).len + 127) / 128 = 2
    ∧ 1 ≤ ((atPort true 1 2).port 1).wc ∧ 2 ≤ ((atPort true 1 2).port 1).wd ∧ ((atPort true 0 2).port 1).wc = 0 ∧ ((atPort true 1 1).port 1).wd < 2
    ∧ 1 ≤ ((atPort false 1 0).port 1).rc ∧ ((atPort false 0 0).port 1).rc = 0
    ∧ (∀ t ∈ [32, 33], t < 1024 ∧ Tab.get none ((atPort false 1 0).port 1).reads t = none)
    ∧ Tab.get none ((inFlight (.stream 0 3 0)).port 1).reads 33 = some (request false (.stream 0 3 0))
    ∧ Tab.get none ((inFlight (.stream 0 3 0)).port 1).writes 17 = some (request true (.stream 0 3 0)) ∧ (inFlight (.stream 0 3 0)).part.optM = false
    ∧ (request true (.stream 0 3 0)).use = .stream 0 3 0 ∧ (1 : BitVec 2) ≠ 0
    ∧ Tab.get none ((inFlight .abandoned).port 1).reads 33 = some (request false .abandoned) ∧ (request true .abandoned).use = .abandoned := by decide +kernel

/-- A flit on in-port 1 for sequence 3 or 4, which is FREE; an in-port without credits; a tile half received. -/
def flit (kind : BitVec 2) (sot eot : Bool) (sq : BitVec 14) : Flit := ⟨1, 0x8877, kind, sot, eot, 0, sq, 2, 0, 9⟩
def receiving (f : Fab → Fab) : State := { live with hw := { live.hw with seqs := [(3, idle3)] }, fab := f live.fab }
def halfTile : FTile := ⟨0, 3, 2, [1, 2, 3]⟩

theorem witness_FabricFlow : (receiving id).boot.inReset = false ∧ (receiving id).boot.fatal = false ∧ (receiving id).hw.ops = [] ∧ (flit 0 true true 3).kind ≠ 1
    ∧ Tab.get 0 (receiving (fun f => { f with inCred := [] })).fab.inCred 1 = 0 ∧ 1 ≤ Tab.get 0 (receiving id).fab.inCred 1 ∧ Tab.get 0 (receiving id).fab.inCred 1 ≤ 512
    ∧ asleep.clk.awake = false ∧ asleep.hw.ops = [] ∧ 1 ≤ Tab.get 0 asleep.fab.inCred 1 ∧ (receiving id).clk.awake = true ∧ (∀ k ∈ [2, 3], k ≠ 0 ∧ k ≠ 1 ∧ k < 4)
    ∧ Tab.get none (receiving id).fab.partialT 1 = none ∧ ((receiving id).seq 0 4).st = .free ∧ ((receiving id).seq 0 3).st ≠ .free
    ∧ (∀ x ∈ (receiving id).hw.staged, fiEn x.cmd = false)
    ∧ Tab.get none (receiving (fun f => { f with partialT := [(1, some (halfTile, 510, false))] })).fab.partialT 1 = some (halfTile, 510, false)
    ∧ (∀ n ∈ [1, 8], 1 ≤ (BitVec.ofNat 4 n).toNat ∧ (BitVec.ofNat 4 n).toNat ≤ 8) := by decide +kernel

/-- A message for slot 0 of window 0x101 (cluster 1, handle 1), the cluster with a peer ring there, and the window as this block granted it. -/
def header (src : BitVec 12) (ep : W16) (bytes : W32) : PeerHdr := ⟨0, src, 5, 0x101, 0, 0, ep, 9, bytes⟩
def peerTile : PTile := ⟨77, 3, 2, 0, false, 0, 0, 32, [⟨1, 2, List.replicate 32 3⟩]⟩
def window (credited : List Nat) (wd : Bool) : Win := ⟨0x101, 8, 0, 5, [], credited, 4096, wd⟩
def peerCluster : Cluster := { Cluster.reset with handles := [(1, 0xA010100200000000)], roleEpoch := 6 }
def peered (ws : List Win) (c : Cluster) : State := { live with glob := { live.glob with peerEnable := true, peerId := 0x33 }, peer := { live.peer with windows := ws }, clusters := [(1, c)] }
def sending : Cluster :=
  let v : BitVec 512 := 5 * 2 ^ 64 + 0x101 * 2 ^ 96
  let e : QEnt := { newEnt 3 5 0 0 .stream (.sx v) 0 with st := .started, fills := [⟨0, 0, 0, false⟩] }
  { peerCluster with queue := [e] }

/-- An attention operation that computes for a peer: a partial waits for a credit, or one waits for its acknowledgement. -/
def forPeer (queue : List PTile) (sent : List (W16 × Nat)) : Op := { opOf 9 attend3 with sends := true, sendq := queue, unacked := sent }
def peerOp (o : Op) : State :=
  let s := peered [] peerCluster
  { s with hw := { s.hw with ops := [o] } }

theorem witness_PeerMessages_partials : (peerOp (forPeer [peerTile] [])).fast = true ∧ (peerOp (forPeer [peerTile] [])).part.optP = true
    ∧ (peerOp (forPeer [peerTile] [])).glob.peerEnable = true ∧ (peerOp (forPeer [peerTile] [])).hw.ops = [forPeer [peerTile] []]
    ∧ (forPeer [peerTile] []).outq = [] ∧ (peerOp (forPeer [peerTile] [])).peer.held = [] ∧ (header (Config.freePeer 9) 6 168).srcId = Config.freePeer (forPeer [peerTile] []).opid.toNat
    ∧ 40 + 4 * peerTile.dim ≤ (header 8 6 168).bytes.toNat ∧ 32 + peerTile.rows.length * (8 + 4 * peerTile.dim) = (header 8 6 168).bytes.toNat
    ∧ (forPeer [] [(0x101, 0)]).unacked = [((header 8 6 100).window, (header 8 6 100).slot.toNat)] ∧ (forPeer [] [(0x101, 0)]).fin = false
    ∧ ∀ k ∈ (peerOp (forPeer [] [(0x101, 0)])).clusters, k.2.queue = [] := by
  refine ⟨by decide +kernel, by decide +kernel, by decide +kernel, rfl, rfl, rfl, rfl, by decide +kernel, by decide +kernel, by decide +kernel, rfl, by decide +kernel⟩

theorem witness_PeerMessages : (peered [] peerCluster).fast = true ∧ { Part.reset with optP := false }.optP = false ∧ (peered [] peerCluster).part.optP = true
    ∧ (peered [] peerCluster).glob.peerEnable = true ∧ (peered [] peerCluster).op 77 = none ∧ (∀ o ∈ (peered [] peerCluster).hw.ops, o.sends = false ∧ o.unacked = []) ∧ (header 8 6 100).window.toNat / 256 % 32 = 1
    ∧ (peered [] sending).clusters = [(1, sending)] ∧ sending.queue.map (fun e => (e.fills, e.work)) = [([⟨0, 0, 0, false⟩], .sx (5 * 2 ^ 64 + 0x101 * 2 ^ 96))]
    ∧ (SDesc.ofBits (5 * 2 ^ 64 + 0x101 * 2 ^ 96)).kind = 5 ∧ (SDesc.ofBits (5 * 2 ^ 64 + 0x101 * 2 ^ 96)).dstAddr = (header 8 6 100).window.toNat
    ∧ (header 8 5 100).epoch ≠ peerCluster.roleEpoch ∧ { peerCluster with clearing := true }.clearing = true ∧ (header 8 6 100).epoch = peerCluster.roleEpoch
    ∧ peerCluster.clearing = false ∧ (∀ x ∈ (peered [] peerCluster).peer.windows, x.window ≠ 0x101) ∧ (peered [window [0] false] peerCluster).peer.windows = [window [0] false]
    ∧ (window [0] false).window = (header 8 6 100).window ∧ (window [0] false).sender ≠ (header 7 6 100).srcId ∧ (window [0] false).sender = (header 8 6 100).srcId
    ∧ (window [0] true).withdrawing = true ∧ (window [0] false).withdrawing = false ∧ (header 8 6 100).slot.toNat ∉ (window [] false).credited
    ∧ (header 8 6 100).slot.toNat ∈ (window [0] false).credited ∧ (window [0] false).slotBytes < (header 8 6 4097).bytes.toNat
    ∧ (header 8 6 4096).bytes.toNat ≤ (window [0] false).slotBytes := by decide +kernel

/-- Row 5 of bank 1 of cluster 1, corrected `n` times before, with `k` spares of the bank used; a built-in operation on the cluster. -/
def scrubbed (n k : Nat) : State :=
  let c : Cluster := { Cluster.reset with corrected := if n = 0 then [] else [(1 * 1536 + 5, n)], spares := if k = 0 then [] else [(1, k)], cache := [(1, 2), (3, 4)] }
  { live with clusters := [(1, c)] }
def usingOne : State := { live with hw := { live.hw with ops := [{ opOf 9 attend3 with clusters := 2 }] } }

theorem witness_SramErrors : live.boot.inReset = false ∧ live.boot.fatal = false ∧ live.recorder.nodev = false ∧ live.recorder.queue.length < 64
    ∧ (∀ n ∈ [0, 2], Tab.get 0 ((scrubbed n 0).cluster 1).corrected (1 * 1536 + 5) + 1 < 4) ∧ 4 ≤ Tab.get 0 ((scrubbed 3 0).cluster 1).corrected (1 * 1536 + 5) + 1
    ∧ (scrubbed 3 31).sparesUsed 1 1 < 32 ∧ 32 ≤ (scrubbed 3 32).sparesUsed 1 1 ∧ live.ras.clOut.getLsbD 1 = false ∧ live.boot.svc.getLsbD 1 = true
    ∧ usingOne.hw.ops = [{ opOf 9 attend3 with clusters := 2 }] ∧ opcodeOf attend3 ≠ 0x0F ∧ (opOf 9 attend3).st = .running ∧ (2 : BitVec 32).getLsbD 1 = true := by
  decide +kernel

theorem witness_SramErrors_other : ∀ m b r, (SramUnit.other) ≠ .scratchpad m b r := by intro m b r; simp

/-- Pair 1 with an operation that it served, stopped for its test, with a mismatch long ago and a recent one, or serving operation 9. -/
def tested (f : Pair → Pair) : State := { live with pairs := [(1, f { Pair.reset with served := [⟨0, 0, 4, 9⟩], sinceTest := 4, servedTotal := 2000 })] }

theorem witness_PairAndClusterFaults : (tested id).fast = true ∧ 1 < (tested id).nPairs ∧ (tested id).ras.pairOut.getLsbD 1 = false ∧ (tested id).hw.ops = []
    ∧ ((tested id).pair 1).served = [⟨0, 0, 4, 9⟩] ∧ ((tested id).pair 1).testDue = false
    ∧ (let x := (tested (fun x => { x with testDue := true, st := .stopped })).pair 1
      x.testDue = true ∧ x.st = .stopped ∧ x.lsFail = false) ∧ (tested id).ras.mgmtFails < 2 ∧ 2 ≤ { live.ras with mgmtFails := 2 }.mgmtFails
    ∧ (tested id).opsOfPair 1 = [] ∧ (∀ k ∈ ((tested (fun x => { x with mismatches := [1000] })).pair 1).mismatches, k + 1000 ≤ 2000)
    ∧ (∀ k ∈ ((tested (fun x => { x with mismatches := [1001] })).pair 1).mismatches, 2000 < k + 1000)
    ∧ ((tested (fun x => { x with op := some 9 })).pair 1).op = some (opOf 9 attend3).opid ∧ opcodeOf (opOf 9 attend3).cmd ≠ 0x0F
    ∧ (∀ y ∈ inBacklog.hw.staged, y.st = .backlog) ∧ inBacklog.fast = true
    ∧ live.boot.svc.getLsbD 31 = true ∧ live.ras.clOut.getLsbD 31 = false ∧ (∀ o ∈ live.hw.ops, opcodeOf o.cmd = 0x0F → o.clusters.getLsbD 31 = false)
    ∧ live.recorder.nodev = false ∧ live.recorder.queue.length < 64 := by decide +kernel

/-- A record waits, the permanent area empty or full; a SEAL record waits; the TAP in IJTAG_ACCESS. -/
def record (type : W16) : Rec := { type := type, cls := 0, part := none, data := 0x1234, opid := 9, calendar := false, utcSet := false, time := 5, entry := 0 }
def recording (f : Recorder → Recorder) : State := { live with recorder := f { live.recorder with repairFull := true } }

theorem witness_RecordsAndTestAccess : live.boot.inReset = false ∧ live.recorder.nodev = false ∧ live.recorder.queue.length < 64
    ∧ (let r := (recording (fun r => { r with queue := [record 4], nextPerm := 4095 })).recorder
      r.nodev = false ∧ r.seals = [] ∧ r.queue = [record 4] ∧ r.repairFull = true ∧ r.nextPerm < 4096)
    ∧ 4096 ≤ (recording (fun r => { r with queue := [record 4], nextPerm := 4096 })).recorder.nextPerm
    ∧ (recording (fun r => { r with seals := [(2, record 0x30, 9)] })).recorder.seals = [(2, record 0x30, 9)] ∧ live.part.optM = true ∧ live.link.hold = false
    ∧ live.link.powered = true ∧ live.link.buffer = [] ∧ { live with tap := ⟨0x10, none⟩ }.tap.ir = 0x10 ∧ live.tap.ir ≠ 0x10 := by decide +kernel

/-- A tile of two vectors and one column, all ones, awaits its checks on cluster 0: for the vector engine, or for tile buffer 2 with and without
restart; or it hands its accumulators on. -/
def ones (yields : Bool) : TileOpds :=
  { ew := false, gang := 0, pm := 0, pack := 1, rows := [[flOne], [flOne]], cols := [[flOne]], rInt := false, cInt := false, carry := none, yields := yields }
def slot (tb : Option Nat) (rs : Bool) (yields : Bool) : TileSlot :=
  { rows := 2, cols := 1, vals := if yields then [0x3F800000, 0x3F800000] else [], released := false, tag := 3, tbuf := tb, restart := rs, base := 0, arrays := [0],
    opds := ones yields, accs := if yields then [] else [flOne, flOne], poison := none, rerun := false, failed := [] }

/-- One entry on cluster 0: LTW, a stream of four elements to memory with or without a signal to wait for, an array entry. -/
def entry (e : Engine) (w : QWork) : QEnt := newEnt 3 5 0 0 e w 0
def toMemory : BitVec 512 := 1 + 2 ^ 64 + 2 ^ 67 + 3 * 2 ^ 128 + 0x4000 * 2 ^ 96
def onSignal : BitVec 512 := toMemory + 2 ^ 432 + 3 * 2 ^ 400
def mxWork : QWork := .mx false 1 1 (7 * 2 ^ 44) none 0 0 0 false false
def oneEntry (q : QEnt) : State :=
  let c : Cluster := { tensor.cluster 0 with queue := [q], spm := [(0, 0x11), (1, 0x22), (2, 0x80), (3, 0x3F), (4, 9)] }
  { tensor with clusters := [(0, c)] }

theorem witness_EntriesStartAndEnd :
    (∀ q ∈ [entry .control (.ltw 4 77), entry .stream (.sx toMemory), entry .stream (.sx onSignal), entry .array mxWork],
      ((oneEntry q).cluster 0).queue = [q] ∧ q.st = .queued ∧ (oneEntry q).mayWork 0 q.opid = true)
    ∧ { oneEntry (entry .control (.ltw 4 77)) with clk := { live.clk with clkOn := 0 } }.mayWork 0 5 = false ∧ (tensor.cluster 0).queue = []
    ∧ (SDesc.ofBits toMemory).waitEn = false ∧ (SDesc.ofBits onSignal).waitEn = true ∧ (oneEntry (entry .stream (.sx onSignal))).isRaised (SDesc.ofBits onSignal).waitSig = false
    ∧ { tensor with sig := { Sig.reset with raised := [(3, true)] } }.isRaised (SDesc.ofBits onSignal).waitSig = true
    ∧ (let c := (oneEntry (entry .array mxWork)).cluster 0
      let first : Iter := ⟨[], [0, 0, 0, 0]⟩
      mxIters c false 0 (TDesc.ofBits 1) (TDesc.ofBits 1) none = ([first], none) ∧ c.mayAccess (mxRanges c false 0 (TDesc.ofBits 1) (TDesc.ofBits 1) [first]) = true
        ∧ c.mxPlace 3 0 false = some [0] ∧ (let ts := (List.range 4).map (fun i => { slot none false true with tag := 9, arrays := [i] })
          { c with tiles := ts }.mxPlace 3 0 false = none))
    ∧ (let q : QEnt := { entry .control (.ltw 4 77) with st := .doneWork }
      (oneEntry q).fast = true ∧ ((oneEntry q).cluster 0).entryDone q = true ∧ releasesOf q.work = [] ∧ (oneEntry q).op 5 = some progOp
        ∧ (pairsOf progOp.clusters).all (fun k => progOp.ended.getLsbD k) = false)
    ∧ (let q : QEnt := { entry .stream (.sx toMemory) with st := .started }
      let s := oneEntry q
      let c := s.cluster 0
      let d := SDesc.ofBits toMemory
      let len := (d.total * streamWidth d.fout + 7) / 8
      s.op q.opid = some progOp ∧ s.mayWork 0 q.opid = true ∧ q.st = .started ∧ q.pos = 0 ∧ q.hold = [] ∧ q.bad = none ∧ s.linkFull = false ∧ c.poisoned = [] ∧ c.sb = []
        ∧ c.mayAccess (streamRanges c d) = true ∧ d.kind = 1 ∧ (∀ x ∈ d.elems false 0, d.overflows c none x = false) ∧ d.dstAddr + d.dstHi * 2 ^ 32 = 0x4000 ∧ len = 16
        ∧ (s.judgeRuns q.part true [(0x4000, len)] q.xl).1 = .ok ∧ 0x4000 % 512 + len ≤ 512 ∧ 1 ≤ len ∧ s.streamPa q.xl q.part 0x4000 = some 0x4000) := by decide +kernel

/-- Cluster 0 with one tile, and its state under rerun after lane (0, 64) failed with data `fs`. -/
def checking (x : TileSlot) (out : List (Nat × Nat)) : State :=
  let q : QEnt := { entry .array mxWork with st := .checking }
  let c : Cluster := { tensor.cluster 0 with queue := [q], tiles := [x], tileBufs := [(2 * 16384, 0x3F800000)], lanesOut := out }
  { tensor with clusters := [(0, c)] }
def rerun (fs : List ArrayFault) : TileSlot := { (slot none false true).data fs with rerun := true, failed := [(0, 64)] }
def badSum (x : W32) : List ArrayFault := [.chunk 0 0 0 0 x]
def badLane : List ArrayFault := [.lane ⟨3, 64⟩ 0x41000000]
def lanesOf (fs : List ArrayFault) : List (Nat × Nat) := (ones true).failing fs [3] []

theorem witness_TileChecks :
    (∀ x ∈ [slot none false true, slot (some 2) true true, slot (some 2) false true, slot none false false, rerun []],
      (checking x []).fast = true ∧ ((checking x []).cluster 0).tiles = [x] ∧ x.released = false ∧ ((checking x []).cluster 0).charges = [] ∧ x.poison = none
        ∧ x.opds.failing [] x.arrays [] = [])
    ∧ (slot (some 2) true true).tbuf = some 2 ∧ (slot none false false).opds.yields = false ∧ (ones true).failing (badSum 0x40A00000) [0] [] = [(0, 64), (0, 0)]
    ∧ (ones true).failing (badSum 0x40A00000) [0] [(0, 64)] = [(0, 0)] ∧ { slot none false true with poison := some 7 }.poison ≠ none
    ∧ (checking (rerun []) []).op 5 = some progOp ∧ progOp.status = 0 ∧ (rerun []).rerun = true ∧ (rerun []).accs = [] ∧ (rerun []).tbuf = none ∧ (rerun []).opds.yields = true
    ∧ (rerun []).failed = [(0, 64)] ∧ (rerun []).arrays.map (rerunArray 0) = [3] ∧ ((rerun []).data []).vals = (rerun []).vals ∧ lanesOf [] = []
    ∧ ((rerun []).data badLane).vals = (rerun []).vals ∧ lanesOf badLane = [(3, 64)]
    ∧ ((rerun (badSum 0x40A00000)).data []).vals ≠ (rerun (badSum 0x40A00000)).vals
    ∧ ((rerun (badSum 0x40A00000)).data (badSum 0x41200000)).vals ≠ (rerun (badSum 0x40A00000)).vals ∧ lanesOf (badSum 0x41200000) ≠ [] := by decide +kernel

/-- Attention in flight: two segments on cluster 2, or three on clusters 2 to 4 with the partials of the first two; two rows; a PREFILL. -/
def row1 : PRow := ⟨0, 0x3F800000, List.replicate 32 0x3F800000⟩
def node1 (home : Nat) : Node := ⟨[row1], home⟩
def twoSegments : Op := { opOf 9 attend3 with keys := 1025, place := [(1, 2), (0, 2)], clusters := 0xFF, shares := 0xFF }
def threeSegments : Op := { opOf 9 attend3 with keys := 2049, place := [(0, 2), (1, 3), (2, 4)], clusters := 0xFF, shares := 0xFF, nodes := [(0, some (node1 2)), (1, some (node1 3))] }
def twoRows : Op := { opOf 9 (cmd 5 3 [(20, 2), (56, 0x600000)]) with keys := 1025, place := [(1, 2), (0, 2)], clusters := 0xFF, shares := 0xFF }
def seq1025 : Seq := { Seq.free with st := .active, map := 0x400000, btLog2 := 10, len := [(0, 1025)], table := (List.range 65).map (fun k => (k, some 2)), inflight := 1 }
def attended (o : Op) : State :=
  let r : PgRec := { PgRec.free with st := .full, fill := 16, refcnt := 1, loc := 1, pins := 1 }
  { live with hw := { live.hw with ops := [o], seqs := [(3, seq1025)] }, pools := [(0, { Pool.reset with taken := true, recs := [(2, r)] })] }
def partialOf (row : Nat) (cols : Nat) : PTile := ⟨9, 3, 0, 0, false, 0, row, cols, [row1]⟩
def prefilling : Op := { opOf 9 prefill3 with clusters := 0xFF, shares := 0xFF }
def filling : State :=
  let s := withSeq { idle3 with st := .active, inflight := 1 } group2 live
  { s with hw := { s.hw with ops := [prefilling] } }
/-- ATTEND_FWD with output to the fabric, with input from it, with both, and a RUN_PROGRAM with input; a tile and `cr` credits are there. -/
def bound (flags : Nat) (op : Nat) : Cmd := cmd op 3 [(1, flags), (20, 1), (8, 2), (56, 0x600000)]
def binding (c : Cmd) (tile : Bool) (cr : Nat) : State :=
  let s := withStaged c (attended twoSegments)
  { s with hw := { s.hw with ops := [], rings := [(0, ring0)] }, fab := { s.fab with outCred := [(0, cr)], stagedT := if tile then [(0, [(⟨0, 3, 2, [1, 2, 3]⟩, 1)])] else [] } }

/-- Segment 1 of `twoSegments` is a peer's; its partial has not come, or has. -/
def remoteOne (come : Bool) : Op := { twoSegments with remote := [1], nodes := if come then [(1, some (node1 2))] else [] }

theorem witness_AttentionRuns :
    (∀ o ∈ [twoSegments, threeSegments, twoRows], opcodeOf o.cmd = 0x05 ∧ o.fin = false ∧ o.sends = false ∧ (attended o).fast = true ∧ (attended o).linkFull = false
      ∧ (attended o).op 9 = some o)
    ∧ (attended twoSegments).hw.ops = [twoSegments] ∧ twoSegments.remote = [] ∧ (attended twoSegments).rerunning twoSegments 2 = false
    ∧ (∀ g ∈ [0, 1], twoSegments.place = [(1, 2), (0, 2)] ∧ (attended twoSegments).mayWork 2 9 = true ∧ (attended twoSegments).inputFull twoSegments = true
      ∧ (attended twoSegments).readingSeg 9 g 2 = false
      ∧ ((attended twoSegments).judgePages twoSegments (1024 * g) (Nat.min 1025 (1024 * g + 1024))).1 = .ok) ∧ twoSegments.depth = 1 ∧ twoSegments.nodes = []
    ∧ threeSegments.node 0 0 = some (node1 2) ∧ threeSegments.node 0 1 = some (node1 3) ∧ threeSegments.node 1 0 = none ∧ 1 < threeSegments.depth ∧ threeSegments.covers 1 1 = true
    ∧ (attended threeSegments).mayWork 2 9 = true ∧ (attended threeSegments).rerunning threeSegments 2 = false ∧ threeSegments.node threeSegments.depth 0 = none
    ∧ (3 : W16) ≠ ((attended twoSegments).cluster 2).roleEpoch ∧ (0 : W16) = ((attended twoSegments).cluster 2).roleEpoch ∧ ((attended twoSegments).cluster 2).clearing = false
    ∧ (attended twoSegments).clPart 2 = twoSegments.part
    ∧ (partialOf 0 32).opid = 9 ∧ (partialOf 0 32).level ≤ twoSegments.depth ∧ twoSegments.covers 0 0 = true ∧ twoSegments.tileDisagrees (partialOf 0 48) = true
    ∧ twoSegments.tileDisagrees (partialOf 0 32) = false ∧ { twoRows with parts := [(0, [(1, row1)])] }.hasRows (partialOf 1 32) = true
    ∧ twoRows.hasRows (partialOf 0 32) = false ∧ (Tab.get [] twoRows.parts (nodeKey 0 0)).length + 1 < (shapeOf twoRows.desc twoRows.cmd).nq * (shapeOf twoRows.desc twoRows.cmd).hq
    ∧ (attended (remoteOne true)).op 9 = some (remoteOne true) ∧ (∀ g ∈ (remoteOne true).remote, (remoteOne true).arrived g = true)
    ∧ (attended (remoteOne false)).op 9 = some (remoteOne false) ∧ (remoteOne false).remote = [1] ∧ (remoteOne false).arrived 1 = false := by decide +kernel

/-- The first tile of `twoSegments` fails on cluster 2. -/
theorem witness_TileChecks_builtin : (attended twoSegments).fast = true ∧ ((attended twoSegments).cluster 2).tiles = [] ∧ ((attended twoSegments).cluster 2).builtin = none
    ∧ (attended twoSegments).builtinOn 2 = some twoSegments := by decide +kernel

theorem witness_AttentionRuns_prefill : filling.op 9 = some prefilling ∧ opcodeOf prefilling.cmd = 0x07 ∧ filling.fast = true ∧ filling.linkFull = false ∧ prefilling.st = .running
    ∧ prefilling.hold = [] ∧ prefilling.shares ≠ 0 ∧ prefilling.pos < nqOf prefilling.cmd ∧ prefilling.chunkReady = true ∧ filling.swapPause = false
    ∧ filling.reading 9 = false ∧ filling.clusters = [] ∧ { filling with cfg := (swapping 0).cfg }.swapPause = true
    ∧ filling.cover 0 3 (List.range ((5 + 15) / 16)) = .ready ∧ (filling.seq 0 3).lenOf (layerOf prefilling.cmd) = 5 ∧ filling.slotRead 0 prefilling.cmd 5 = false
    ∧ filling.copying 0 9 = false
    ∧ (match filling.needBlocks 0 3 (layerOf prefilling.cmd) 5 (Nat.min (chunkOf prefilling.cmd) (nqOf prefilling.cmd - prefilling.pos)) 9 with | .ok _ => true | _ => false) = true := by
  decide +kernel

theorem witness_AttentionRuns_fire :
    (∀ c ∈ [bound 0x40 5, bound 0x20 5, bound 0x60 5, bound 0x20 0x0F], (binding c true 100).serving = true ∧ (binding c true 100).hw.staged = [stagedOf c] ∧ (stagedOf c).fired = false
      ∧ (binding c true 100).upToWeir (stagedOf c) = (true, binding c true 100))
    ∧ fiEn (bound 0x40 5) = false ∧ foEn (bound 0x40 5) = true ∧ fiEn (bound 0x20 5) = true ∧ foEn (bound 0x20 5) = false ∧ fiEn (bound 0x60 5) = true ∧ foEn (bound 0x60 5) = true
    ∧ firstFlits (live.desc 0) (bound 0x60 5) ≤ (binding (bound 0x60 5) true 100).outFree 0 ∧ ¬ firstFlits (live.desc 0) (bound 0x60 5) ≤ (binding (bound 0x60 5) true 0).outFree 0
    ∧ (binding (bound 0x20 5) false 100).firstTile (stagedOf (bound 0x20 5)) = none ∧ ((binding (bound 0x20 5) true 100).firstTile (stagedOf (bound 0x20 5))).isSome = true
    ∧ ((binding (bound 0x20 0x0F) true 100).firstTile (stagedOf (bound 0x20 0x0F))).isSome = true := by
  refine ⟨?_, by decide +kernel⟩
  decide +kernel

/-! Ill-formed operands, one for each check of WellFormed.lean. -/

theorem test_wf_ring_command : (Instr.release release3).wf = true ∧ (Instr.fork release3).wf = false ∧ (Instr.release { release3 with ring := 16384 }).wf = false := by decide +kernel

theorem test_wf_group : (Instr.scrubGroup 0 0xFFFFFE).wf = true ∧ (Instr.scrubGroup 0 0xFFFFFF).wf = false := by decide

theorem test_wf_segment : (Instr.segmentDone 5 8191).wf = true ∧ (Instr.segmentDone 5 8192).wf = false := by decide

theorem test_wf_node : (Instr.merge 5 13 0).wf = true ∧ (Instr.merge 5 13 1).wf = false ∧ (Instr.merge 5 14 0).wf = false ∧ (Instr.merge 5 0 0).wf = false := by decide

theorem test_wf_tile : (partialOf 0 32).wf = true ∧ (partialOf 0 48).wf = false ∧ { partialOf 0 32 with rows := [] }.wf = false
    ∧ { partialOf 0 32 with dim := 16 }.wf = false ∧ { partialOf 0 32 with dim := 272 }.wf = false ∧ { partialOf 0 32 with rows := List.replicate 65 row1 }.wf = false := by
  decide +kernel

theorem test_wf_offset : (Instr.regWrite 0x308 0).wf = true ∧ (Instr.regWrite 0x30C 0).wf = false ∧ (Instr.configWrite 0x204 0).wf = false := by decide

theorem test_wf_message : (Instr.grant (message 1 0 4 0)).wf = true ∧ (Instr.grant (message 2 0 4 0)).wf = false ∧ (Instr.wake (.message (message 5 0 0 0))).wf = false := by
  decide +kernel

theorem test_wf_matrix : (Instr.mxrun u0 ⟨0, 0, 0, none, 0, 3, 0, false, false, 1⟩).wf = false ∧ (Instr.mxrun u0 ⟨0, 0, 0, none, 0, 2, 0, false, false, 1⟩).wf = true := by decide

theorem test_wf_scrub : (Instr.sramScrub (.single (.scratchpad 0 0 1535) 0)).wf = true ∧ (Instr.sramScrub (.single (.scratchpad 0 0 1536) 0)).wf = false := by decide

theorem test_wf_link : (Instr.linkEvent (event 5 13 1)).wf = true ∧ (Instr.linkEvent (event 5 14 1)).wf = false ∧ (Instr.restart (event 5 14 1)).wf = false
    ∧ (Instr.reportAck (event 5 15 1)).wf = false := by decide +kernel

theorem test_wf_meter : (Instr.meterWrite 3 0).wf = false ∧ (Instr.meterWrite 0xA 0).wf = false ∧ (Instr.meterWrite 8 0).wf = true := by decide

/-- The table gives no row any bits. -/
theorem test_no_word : decodeTableWord 8 0x02 = none ∧ live.withFetchWord 8 0x02 = live := ⟨rfl, rfl⟩

/-! Words of steering-pair programs, field by field from R204, R205, R214 and R216 -/

/-- R204: class, guard, its inversion and `OP`, bits 63:48 of a word. -/
def upper (cls pg : BitVec 4) (pn : BitVec 1) (op : BitVec 7) : BitVec 16 := cls ++ pg ++ pn ++ op

/-- R206: MULHU g5 ← g6 × g7, under p2 inverted. -/
theorem test_word_mulhu : lefizaOf 3 (upper 0x0 2 1 0x03 ++ (5#6 ++ 6#6 ++ 7#6 ++ 0#30)) = .mulhu ⟨3, 2, true⟩ 5 6 (.reg 7) := by decide
/-- R207: LTU p4 from g9 and an immediate: `OP` bit 6. -/
theorem test_word_ltu : lefizaOf 0 (upper 0x2 0 0 0x44 ++ (4#4 ++ 0#2 ++ 9#6 ++ 0#4 ++ 0x80000001#32)) = .ltu ⟨0, 0, false⟩ 4 9 (.imm 0x80000001) := by
  decide
/-- R208: LDS16. -/
theorem test_word_lds16 : lefizaOf 1 (upper 0x3 0 0 0x05 ++ (11#6 ++ 12#6 ++ 0#4 ++ 0x00000104#32)) = .lds16 ⟨1, 0, false⟩ 11 12 0x104 := by decide
/-- R214: MXRUN with every field its own value. -/
theorem test_word_mxrun : lefizaOf 2 (upper 0x6 1 0 0x01 ++ (17#5 ++ 9#5 ++ 30#5 ++ 0x25#6 ++ 2#2 ++ 1#2 ++ 3#2 ++ 1#1 ++ 0#1 ++ 0xA#4 ++ 0#15))
    = .mxrun ⟨2, 1, false⟩ ⟨17, 9, 30, some 5, 2, 1, 3, true, false, 0xA⟩ := by decide
/-- R216: VRUN with every field its own value. -/
theorem test_word_vrun : lefizaOf 0 (upper 0x7 0 0 0x01 ++ (0x1234#14 ++ 3#5 ++ 4#5 ++ 5#5 ++ 6#5 ++ 1#1 ++ 0#1 ++ 1#1 ++ 0x05#6 ++ 0x6#4 ++ 0#1))
    = .vrun ⟨0, 0, false⟩ ⟨0x1234, 3, 4, 5, 6, true, false, true, none, 0x6⟩ := by decide
/-- R223: SWAIT names `PD`, `A`, `B` and `D`. -/
theorem test_word_swait : lefizaOf 7 (upper 0xA 0 0 0x01 ++ (1#4 ++ 0#2 ++ 2#6 ++ 3#6 ++ 4#6 ++ 0#24)) = .swait ⟨7, 0, false⟩ 1 2 3 4 := by decide
/-- R241: CSRR. -/
theorem test_word_csrr : lefizaOf 0 (upper 0xB 0 0 0x04 ++ (8#6 ++ 0#14 ++ 0x005#12 ++ 0#16)) = .csrr ⟨0, 0, false⟩ 8 0x005 := by decide
/-- R205, R231: a bit that no field of its class uses makes a word illegal. -/
theorem test_word_reserved : lefizaOf 0 (upper 0x8 0 0 0x01 ++ (2#5 ++ 0xF#4 ++ 1#39)) = .illegalInstruction 0 (upper 0x8 0 0 0x01 ++ (2#5 ++ 0xF#4 ++ 1#39)) := by
  decide

/-! Numbers: the worked examples of spec/02_number_formats.md. -/

/-- The table of CF8 conversions: 1.0625, 0.1 and 0.01 (as W32), 700, 920, 1,000, −0.001. -/
theorem test_cf8 : [0x3F880000, 0x3DCCCCCD, 0x3C23D70A, 0x442F0000, 0x44660000, 0x447A0000, 0xBA83126F].map (fun w : W32 => toCF8 false (ofW32 w))
    = [⟨0x30, false, false⟩, ⟨0x15, false, false⟩, ⟨0x03, false, false⟩, ⟨0x7B, false, false⟩, ⟨0x7E, false, false⟩, ⟨0x7E, true, false⟩, ⟨0x80, false, true⟩] := by decide +kernel

/-- One W1 key block: 2.9, −1.3, 0.74, −0.25, 0.0 and 1.75 in I4 with an E8S scale. -/
theorem test_key_block : quantBlock false .i4 .e8s ([0x4039999A, 0xBFA66666, 0x3F3D70A4, 0xBE800000, 0, 0x3FE00000].map ofW32)
    = ⟨0x7E, [0x6, 0xD, 0x1, 0x0, 0x0, 0x4], 0, 1, false⟩ := by decide +kernel

/-- They pack as 0xD6, 0x01, 0x40. -/
theorem test_pack : packCodes 4 [0x6, 0xD, 0x1, 0x0, 0x0, 0x4] = [0xD6, 0x01, 0x40] := by decide +kernel

/-- P2 of 3.140625 and 0.5 in chunks whose largest elements give Eb 1 and 0: 52,690,944 × 2^−25. -/
theorem test_slices : slices 14 1 (.fin false 201 (-6)) = [100, 64] ∧ slices 14 0 (.fin false 1 (-1)) = [32, 0]
    ∧ toW32 (splitChunk .p2 false false [.fin false 201 (-6), zero] [.fin false 1 (-1), flOne]) = toW32 (.fin false 52690944 (-25)) := by decide +kernel

/-- R123, R124: EXP of 0 is 1; RCP of 3 and SQRT of 9 are correctly rounded. -/
theorem test_functions : sfn .exp zero = flOne ∧ toW32 (sfn .rcp (.fin false 3 0)) = 0x3EAAAAAB ∧ toW32 (sfn .sqrt (.fin false 9 0)) = 0x40400000 := by decide +kernel

/-! Layouts: the worked examples of spec/04, 06 and 08. -/

/-- The W1 decode output: RFN, RCP, rs1 to rs4; MUL by row register 4. -/
theorem test_chain : Stage.ofWord 0x240400C0 = ⟨0x09, 0, 0, 4, 0, 1, 4, false, false, 0⟩ ∧ Stage.ofWord 0x0C500200 = ⟨3, 0, 5, 0, 0, 4, 0, false, false, 0⟩ := by decide +kernel

/-- The ring of lines 256 to 319 in 8 slots of 8 lines. -/
theorem test_ring_handle : let w : W64 := 0x9070807E40000000
    hValid w = true ∧ hKind w = 1 ∧ hPitch w = 64 ∧ hSlots w = 8 ∧ hSlotBytes w = 8 * 4096 ∧ hBytes w = 64 * 4096 ∧ hStart w = 256 * 4096
      ∧ handleBad Cluster.reset 5 w = false := by decide +kernel

/-- The W1 page: I4 with E8S scales per 16 elements, T 64, H 4, D 112. -/
theorem test_page : let d : PoolDesc := { set0.pool 0 with tok := 64, hkv := 4, dim := 112, kfmt := 5, vfmt := 5, kscale := 1, vscale := 1, kblk := 16, vblk := 16, layersM1 := 35, layerStride := 32768 }
    d.kd = 14336 ∧ d.vd = 14336 ∧ d.ksz = 1792 ∧ d.vsz = 1792 ∧ d.pageSize = 32256 ∧ d.trailer = 1179648 := by decide +kernel

/-! Codes: check values of the named algorithms. -/

theorem test_crc32c : crc32c [0x31, 0x32, 0x33, 0x34, 0x35, 0x36, 0x37, 0x38, 0x39] = 0xE3069283 := by decide +kernel

theorem test_sha256 : (sha256 [0x61, 0x62, 0x63]).take 8 = [0xBA, 0x78, 0x16, 0xBF, 0x8F, 0x01, 0xCF, 0xEA] := by decide +kernel

/-! Single commands. -/

/-- The state after a command. -/
def after (c : Instr) (s : State) : State := match exec c s with | .next t => t | _ => s

/-- R206: ADD wraps; an immediate is sign-extended; a write of g0 is discarded (R200). -/
theorem test_add : ((after (.add u0 2 1 (.reg 2)) prog).pair 0).readG 2 = 0 ∧ ((after (.add u0 0 1 (.imm 5)) prog).pair 0).readG 0 = 0 := by decide +kernel

/-- R206: SAR of −7 by 65 shifts by 1 and keeps the sign; division by 0. -/
theorem test_sar : ((after (.sar u0 4 2 (.imm 65)) prog).pair 0).readG 4 = 0xFFFFFFFFFFFFFFFC := by decide +kernel
theorem test_divu : ((after (.divu u0 4 1 (.reg 0)) prog).pair 0).readG 4 = 0xFFFFFFFFFFFFFFFF ∧ ((after (.remu u0 4 1 (.reg 0)) prog).pair 0).readG 4 = 7 := by decide +kernel

/-- R208, R21: the lowest byte of data memory is the lowest of the word. -/
theorem test_ld32 : ((after (.ld32 u0 4 0 0) prog).pair 0).readG 4 = 0xA39281 ∧ ((after (.lds8 u0 4 0 7) prog).pair 0).readG 4 = 0xFFFFFFFFFFFFFFF8 := by decide +kernel

/-- R231: a store past data memory raises 0x02 and stores nothing. -/
theorem test_st_fault : bits ((after (.st64 u0 1 0 0x1FFFC) prog).pair 0).exc 48 8 = 0x02 ∧ ((after (.st64 u0 1 0 0x1FFFC) prog).pair 0).dmem = (prog.pair 0).dmem := by decide +kernel

/-- R204: a false guard. -/
theorem test_guard : ((after (.movi ⟨0, 1, true⟩ 4 9) prog).pair 0).readG 4 = 0 ∧ ((after (.movi ⟨0, 1, true⟩ 4 9) prog).pair 0).pc = (prog.pair 0).pc + 1 := by decide +kernel

/-- R285: a doorbell one past N is refused and flagged. -/
theorem test_doorbell : ((after (.doorbell 0 9) ringed).ring 0).badBell = true ∧ ((after (.doorbell 0 8) ringed).ring 0).tail = 8 := by decide +kernel

/-- R315: a write-once register takes one write. -/
theorem test_write_once : (after (.regWrite 0x40000 0) (after (.regWrite 0x40000 0x8000000000001009) live)).readReg 0x40000 = 0x8000000000001009 := by decide +kernel

/-- R376: GRANT of 255 shares gives the clusters in service. -/
theorem test_grant : (after (.grant (message 1 0 255 0)) live).weir.grant = some 32 := by decide +kernel

/-- R396: q 6 counts in thousands; 500 stood over, so 2,999 more give 3 and leave 499. -/
theorem test_link_event : (after (.linkEvent (event 5 6 2999)) (metered (event 5 6 2999) id)).smu.count 2 6 = 3
    ∧ Tab.get 0 (after (.linkEvent (event 5 6 2999)) (metered (event 5 6 2999) id)).smu.residue 38 = 499 := by decide +kernel

/-- R292: the completion record of a RELEASE of a FREE sequence. -/
theorem test_completion : (readBytes (after (.release release3) (withStaged release3 live)).mem 0x11000 4) = [0x22, 0x02, 0x01, 0x03] := by decide +kernel

/-- R238: the pairs of a RUN_PROGRAM load, then run from ENTRY. -/
theorem test_run_program : (loading.pair 0).st = .loading ∧ ((after (.imageLoadDone loadOp.opid) loading).pair 0).st = .running := by decide +kernel

theorem witness_MeterPort_slot : wrongSlot.smu.sealCode 1 = leBytes 4 (wrongSlot.smu.stage 9).toNat ++ leBytes 4 (wrongSlot.smu.stage 10).toNat
    ∧ wrongSlot.smu.seals.length = 0 := by decide +kernel

theorem witness_MeterPort_seal : sealing.smu.sealCode 0 = leBytes 4 (sealing.smu.stage 9).toNat ++ leBytes 4 (sealing.smu.stage 10).toNat := by decide +kernel

end Sys2Proof.Tests
end

section
/-! SUPPORT. Runs of any length (R21): every step answers, and memory stays canonical. -/

namespace Sys2Proof.Machine

/-- Every step, a command or a tick, answers a next state and keeps memory canonical. -/
theorem step_next_memOk (s : State) (hs : s.memOk) : ∃ t, step s = .next t ∧ t.memOk := by
  cases hq : s.pending with
  | nil => exact ⟨_, step_nil hq, (State.tickOnce_keeps (State.Keeps.refl s)).mem hs⟩
  | cons c rest =>
    obtain ⟨t, ht, hfix⟩ := exec_fixed c { s with pending := rest }
    exact ⟨t, (step_cons hq).trans ht, hfix.mem hs⟩

/-- Settles O3, by induction on the length of the run: `step_next_memOk` gives each next step. -/
theorem everyRunIsSafe : Obligations.EveryRunIsSafe := by
  intro k
  induction k with
  | zero => exact fun _ hs => hs
  | succ k ih =>
    intro s hs
    obtain ⟨t, ht, hmem⟩ := step_next_memOk s hs
    exact ⟨hs, t, ht, ih t hmem⟩

end Sys2Proof.Machine
end

section
/-! SUPPORT. Host writes by the state of the block and by offset: what is ignored, what is buffered (R9, R19, R350 to R352, R381, R422). -/

namespace Sys2Proof.Machine

/-! Offsets that hold no writable register (R9, R19) -/

theorem cfgMask_unaligned (s32 : Bool) {off : Nat} (h : off % 8 ≠ 0) : cfgMask s32 off = none := by
  simp [cfgMask, h]

theorem partWindow_eq_none {off : Nat} (h : off < 0x100000 ∨ 0x500000 ≤ off) : partWindow off = none :=
  if_neg (by omega)

/-- Between `AX_CLASSIGN` and `AX_IMG`, and past `AX_IMG` outside the partition windows, no register is one of the configuration set. -/
theorem cfgMask_eq_none (s32 : Bool) {off : Nat} (h : 0x300 ≤ off) (h' : off < 0x1000 ∨ 0x1100 ≤ off)
    (hw : off < 0x100000 ∨ 0x500000 ≤ off) : cfgMask s32 off = none := by
  unfold cfgMask
  split
  · rfl
  · rw [if_neg (by omega), if_neg (by omega), if_neg (by omega), if_neg (by simp; omega), partWindow_eq_none hw]

theorem State.applyWrite_unaligned (s : State) {off : Nat} (h : off % 8 ≠ 0) (v : W64) : s.applyWrite off v = s := by
  simp [State.applyWrite, cfgMask_unaligned _ h, h]

/-- Outside the configuration set and the partition windows an aligned write goes to the unit of its range (R458). -/
theorem State.applyWrite_unit (s : State) {off : Nat} (h : 0x300 ≤ off) (h' : off < 0x1000 ∨ 0x1100 ≤ off)
    (hw : off < 0x100000 ∨ 0x500000 ≤ off) (ha : off % 8 = 0) (v : W64) :
    s.applyWrite off v =
      if off < 0x10000 then s.writeGlobal off v
      else if off < 0x20000 then s.writePower off v
      else if off < 0x30000 then s.writeRas off v
      else if off < 0x40000 then s.writeTrace off v
      else if off < 0x50000 then s.writeTr off v
      else if off < 0x100000 then s.writeHw off v
      else if 0x900000 ≤ off ∧ off < 0x980000 then s.writePair off v
      else s := by
  simp [State.applyWrite, cfgMask_eq_none _ h h' hw, ha, partWindow_eq_none hw]

theorem State.writeGlobal_ports (s : State) {off : Nat} (h : 0x800 ≤ off ∧ off < 0x880) (v : W64) : s.writeGlobal off v = s := by
  unfold State.writeGlobal
  split
  any_goals omega
  rfl

theorem State.writeRas_entry (s : State) {off : Nat} (h : 0x20110 ≤ off ∧ off < 0x20130) (v : W64) : s.writeRas off v = s := by
  unfold State.writeRas
  split
  any_goals omega
  rfl

theorem State.writeTrace_record (s : State) {off : Nat} (h : 0x30040 ≤ off ∧ off < 0x30060) (v : W64) : s.writeTrace off v = s := by
  unfold State.writeTrace
  split
  any_goals omega
  rfl

theorem State.writeHw_seqView (s : State) {off : Nat} (h : 0xB0100 ≤ off ∧ off < 0xB0200) (v : W64) : s.writeHw off v = s := by
  unfold State.writeHw
  split
  any_goals omega
  exact if_neg (by omega)

/-- The read-only registers of the unit ranges (R9, R458). -/
def readOnlyRegs : List Nat :=
  [0x0, 0x8, 0x10, 0x18, 0x108, 0x908, 0xA00, 0x10000, 0x10028, 0x20000, 0x20010, 0x20018, 0x20100, 0x20210, 0x20218, 0x30010, 0x30028, 0x40028,
    0xA0020, 0xC0010]

theorem State.applyWrite_readOnly (s : State) {off : Nat} (h : off ∈ readOnlyRegs) (v : W64) : s.applyWrite off v = s := by
  fin_cases h <;> rfl

/-- The ranges without a writable register: port counters, a log entry, a trace record, the record view, the debug windows of the clusters,
and what lies past the last window (R19, R458). -/
def readOnlyRange (off : Nat) : Prop :=
  (0x800 ≤ off ∧ off < 0x880) ∨ (0x20110 ≤ off ∧ off < 0x20130) ∨ (0x30040 ≤ off ∧ off < 0x30060) ∨ (0xB0100 ≤ off ∧ off < 0xB0200)
    ∨ (0x500000 ≤ off ∧ off < 0x900000) ∨ 0x980000 ≤ off

theorem State.applyWrite_readOnlyRange (s : State) {off : Nat} (h : readOnlyRange off) (v : W64) : s.applyWrite off v = s := by
  by_cases ha : off % 8 = 0
  case neg => exact s.applyWrite_unaligned ha v
  rw [readOnlyRange] at h
  rw [s.applyWrite_unit (by omega) (by omega) (by omega) ha]
  obtain h | h | h | h | h | h := h
  · rw [if_pos (by omega), s.writeGlobal_ports h]
  · rw [if_neg (by omega), if_neg (by omega), if_pos (by omega), s.writeRas_entry h]
  · rw [if_neg (by omega), if_neg (by omega), if_neg (by omega), if_pos (by omega), s.writeTrace_record h]
  · rw [if_neg (by omega), if_neg (by omega), if_neg (by omega), if_neg (by omega), if_neg (by omega), if_pos (by omega), s.writeHw_seqView h]
  · iterate 7 rw [if_neg (by omega)]
  · iterate 7 rw [if_neg (by omega)]

theorem State.readReg_reserved (s : State) {off : Nat} (h : 0x980000 ≤ off ∨ off % 8 ≠ 0) : s.readReg off = 0 := by
  by_cases ha : off % 8 = 0
  · have hw : off < 0x100000 ∨ 0x500000 ≤ off := by omega
    rw [State.readReg, if_neg (by simp [ha]), cfgMask_eq_none _ (by omega) (by omega) hw, if_neg (by decide), partWindow_eq_none hw]
    dsimp only
    iterate 6 rw [if_neg (by omega)]
    rw [if_neg (by simp; omega), if_neg (by simp; omega)]
  · simp [State.readReg, ha]

/-! The host port by the state of the block (R350 to R352, R381, R422) -/

theorem powerRange_eq_false {off : Nat} (h : ¬ (0x10000 ≤ off ∧ off < 0x20000)) : powerRange off = false := decide_eq_false h

/-- An open port applies every write at once. -/
theorem State.hostWrite_open {s : State} (h : s.HostOpen) (off : Nat) (v : W64) : s.hostWrite off v = s.applyWrite off v := by
  simp [State.hostWrite, h.released, h.alive, h.awake]

theorem exec_regWrite_open {s : State} (h : s.HostOpen) (off : BitVec 24) (v : W64) :
    exec (.regWrite off v) s = .next (s.applyWrite off.toNat v) :=
  congrArg Host.Outcome.next (State.hostWrite_open h off.toNat v)

theorem exec_regWrite_inReset {s : State} (h : s.boot.inReset = true) (off : BitVec 24) (v : W64) :
    exec (.regWrite off v) s = .next { s with out := { s.out with hcErr := s.out.hcErr + 1 } } :=
  congrArg Host.Outcome.next (if_pos h)

theorem exec_regWrite_fatal {s : State} (hr : s.boot.inReset = false) (hf : s.boot.fatal = true) (off : BitVec 24)
    (hp : ¬ (0x10000 ≤ off.toNat ∧ off.toNat < 0x20000)) (v : W64) : exec (.regWrite off v) s = .next s := by
  refine congrArg Host.Outcome.next ?_
  simp [State.hostWrite, hr, hf, powerRange_eq_false hp]

/-- A write that the buffer takes stands at its end, and the wake begins. -/
theorem exec_regWrite_asleep {s : State} (hr : s.boot.inReset = false) (hf : s.boot.fatal = false) (ha : s.clk.awake = false) (off : BitVec 24)
    (hp : ¬ (0x10000 ≤ off.toNat ∧ off.toNat < 0x20000)) (hn : s.clk.wbuf.length < 64) (v : W64) :
    exec (.regWrite off v) s = .next (s.modClk (fun c => { c with wbuf := c.wbuf ++ [(off, v)] })).startWake := by
  refine congrArg Host.Outcome.next ?_
  simp [State.hostWrite, hr, hf, ha, powerRange_eq_false hp, hn]

/-- A wake sets `waking` after bring-up stage S1 where the block sleeps in service, and touches nothing else. -/
theorem State.startWake_eq (s : State) : ∃ w, s.startWake = s.modClk (fun c => { c with waking := w }) := by
  unfold State.startWake
  split
  · exact ⟨s.clk.waking, rfl⟩
  · exact ⟨true, rfl⟩

theorem State.startWake_waking {s : State} (hr : s.boot.inReset = false) (hf : s.boot.fatal = false) (ha : s.clk.awake = false)
    (hs : 2 ≤ s.boot.stage) : s.startWake.clk.waking = true := by
  have hstage : ¬ s.boot.stage ≤ 1 := by omega
  simp [State.startWake, State.creditable, State.on, hr, hf, ha, hstage]

theorem State.hostRead_inReset {s : State} (h : s.boot.inReset = true) (off : Nat) : s.hostRead off = (0, true) := if_pos h

theorem State.hostRead_fatal {s : State} (hr : s.boot.inReset = false) (hf : s.boot.fatal = true) {off : Nat}
    (h : ¬ (0x10000 ≤ off ∧ off < 0x30000)) : s.hostRead off = (0, false) := by
  have hout : decide (0x10000 ≤ off ∧ off < 0x30000) = false := decide_eq_false h
  simp [State.hostRead, hr, hf, hout]

/-- Settles O18: the ignored offsets by `applyWrite`'s own ranges, the rest by the cases of `hostWrite`. -/
theorem hostWritesIgnored : Obligations.HostWritesIgnored := by
  refine ⟨fun s off v ho => ⟨fun h => ?_, fun h => s.readReg_reserved h⟩, fun s off v => ⟨fun hr => ?_, fun hr hf hp => ?_, fun hr hf ha hp hn => ?_⟩⟩
  · rw [exec_regWrite_open ho]
    refine congrArg Host.Outcome.next ?_
    by_cases ha : off.toNat % 8 = 0
    case neg => exact s.applyWrite_unaligned ha v
    obtain h | h := h
    · exact s.applyWrite_readOnly (List.contains_iff_mem.1 h) v
    · exact s.applyWrite_readOnlyRange (by rw [readOnlyRange]; omega) v
  · exact ⟨exec_regWrite_inReset hr off v, State.hostRead_inReset hr off.toNat⟩
  · exact ⟨exec_regWrite_fatal hr hf off hp v, fun hras => State.hostRead_fatal hr hf (by omega)⟩
  · obtain ⟨w, hw⟩ := (s.modClk (fun c => { c with wbuf := c.wbuf ++ [(off, v)] })).startWake_eq
    refine ⟨_, exec_regWrite_asleep hr hf ha off hp hn v, ?_, fun hs => State.startWake_waking hr hf ha hs, ?_⟩
    · rw [hw]; rfl
    · rw [hw]; rfl

end Sys2Proof.Machine
end

section
/-! SUPPORT. The W1C bit of `TR_INV_STS` (R18, R339): cleared as written while the invalidation queue holds what R336 lets it hold, and not
otherwise. -/

namespace Sys2Proof.Machine

/-! A 1 clears `OVF` of `TR_INV_STS` (R18, R339) -/

/-- The bits of `TR_INV_STS`: `OVF` has bit 4 to itself while `QUEUED` fits its 4 bits. -/
theorem getLsbD_invStatus {s : State} (hq : s.tr.invQ.length < 16) {i : Nat} (hi : i < 64) :
    (s.readReg 0x40010).getLsbD i = if i < 4 then s.tr.invQ.length.testBit i else if i = 4 then s.tr.invOvf
      else (s.tr.invDone.toNat * 2 ^ 35 + s.tr.invIssued.toNat * 2 ^ 11).testBit (i - 5) := by
  have ho : flag64 s.tr.invOvf < 2 ^ 1 := by cases s.tr.invOvf <;> decide
  have hread : s.readReg 0x40010 = BitVec.ofNat 64
      (2 ^ 4 * (2 ^ 1 * (s.tr.invDone.toNat * 2 ^ 35 + s.tr.invIssued.toNat * 2 ^ 11) + flag64 s.tr.invOvf) + s.tr.invQ.length) := by
    change word [(40, s.tr.invDone.toNat), (16, s.tr.invIssued.toNat), (4, flag64 s.tr.invOvf), (0, s.tr.invQ.length)] = _
    refine congrArg (BitVec.ofNat 64) ?_
    simp only [List.map_cons, List.map_nil, List.sum_cons, List.sum_nil]
    omega
  rw [hread, BitVec.getLsbD_ofNat, Nat.testBit_two_pow_mul_add _ hq, Nat.testBit_two_pow_mul_add _ ho]
  by_cases h4 : i = 4
  · subst h4
    cases s.tr.invOvf <;> rfl
  · have hsub : i - 4 - 1 = i - 5 := by omega
    have hlow : i - 4 < 1 ↔ i < 4 := by omega
    by_cases hl : i < 4 <;> simp [hi, h4, hl, hlow, hsub]

/-- While the queue of R336 holds no more requests than it can, a 1 in bit 4 of a write clears `OVF` and a 0 leaves it, and nothing else changes. -/
theorem exec_regWrite_invStatus {s : State} (ho : s.HostOpen) (hq : s.tr.invQ.length ≤ Config.invMax) (v : W64) :
    ∃ t, exec (.regWrite 0x40010 v) s = .next t ∧ t.readReg 0x40010 = s.readReg 0x40010 &&& ~~~(v &&& 0x10)
      ∧ t = { s with tr := { s.tr with invOvf := t.tr.invOvf } } := by
  have hq' : s.tr.invQ.length < 16 := Nat.lt_of_le_of_lt hq (by decide)
  refine ⟨s.writeTr 0x40010 v, exec_regWrite_open ho _ v, ?_, rfl⟩
  apply BitVec.eq_of_getLsbD_eq
  intro i hi
  rw [getLsbD_invStatus (s := s.writeTr 0x40010 v) hq' hi, BitVec.getLsbD_and, getLsbD_invStatus hq' hi, BitVec.getLsbD_not, BitVec.getLsbD_and]
  by_cases h4 : i = 4
  · subst h4
    simp [State.writeTr, bit]
  · have hmask : (0x10 : W64).getLsbD i = false := by
      rw [show (0x10 : W64) = BitVec.twoPow 64 4 from rfl, BitVec.getLsbD_twoPow]
      simp [Ne.symm h4]
    simp only [State.writeTr, State.modTr_tr, hmask, h4, hi, Bool.and_false, Bool.not_false, Bool.and_true, decide_true, if_false]

/-- A block that takes host writes, with `OVF` set and 16 requests in the invalidation queue: a state of the model's type, though R336 lets 8
stand there. -/
def overfullInvQueue : State :=
  { State.reset with
    clk := { State.reset.clk with awake := true }
    tr := { State.reset.tr with invOvf := true, invQ := List.replicate 16 ⟨0, 0, 0, 0⟩ } }

theorem overfullInvQueue_hostOpen : overfullInvQueue.HostOpen := ⟨rfl, rfl, rfl⟩

/-- The 16 requests carry into bit 4, which so reads 0 beside an `OVF` of 1. -/
theorem readReg_overfullInvQueue : overfullInvQueue.readReg 0x40010 = 0x20 := by decide +kernel

/-- A write of 1 to `OVF` takes its share of the sum away, and bit 4 reads 1. -/
theorem regWrite_overfullInvQueue : ∃ t, exec (.regWrite 0x40010 0x10) overfullInvQueue = .next t ∧ t.readReg 0x40010 = 0x10 :=
  ⟨_, rfl, by decide +kernel⟩

/-- Refutes O17: it ranges over states whose invalidation queue holds more than `QUEUED` can show. With 16 requests there and `OVF` set, 0x10
written to `TR_INV_STS` turns a read of 0x20 into one of 0x10. Up to the queue's limit that clause holds: `exec_regWrite_invStatus`. -/
theorem not_registerWrites : ¬ Obligations.RegisterWrites := by
  rintro ⟨-, hclears⟩
  obtain ⟨-, -, -, -, ⟨t, ht, hread, -⟩, -⟩ := hclears overfullInvQueue 0x10 overfullInvQueue_hostOpen
  obtain ⟨u, hu, huread⟩ := regWrite_overfullInvQueue
  obtain rfl : t = u := Host.Outcome.next.inj (ht.symm.trans hu)
  rw [readReg_overfullInvQueue, huread] at hread
  exact absurd hread (by decide)

end Sys2Proof.Machine
end

section
/-! SUPPORT. Tiles and their checks (R98 to R101): what a release, a charge and the end of a rerun do to the cluster. -/

namespace Sys2Proof.Machine

/-! Trace records, and entries that stand in a queue -/

/-- A trace record changes the trace unit alone. -/
theorem State.trace_eq (s : State) (type part : Nat) (unit : Byte) (opid : W32) (a0 a1 : Nat) :
    ∃ x, s.trace type part unit opid a0 a1 = s.modTrc (fun _ => x) := by
  unfold State.trace State.traceAt
  dsimp only
  split
  · exact ⟨s.trc, rfl⟩
  · split <;> exact ⟨_, rfl⟩

theorem Tab.mem_insert_self {α : Type} (t : Tab α) (i : Nat) (v : α) : (i, v) ∈ t.insert i v := by
  induction t with
  | nil => exact List.mem_singleton.2 rfl
  | cons x t ih =>
    unfold Tab.insert
    split
    · exact List.mem_cons_self
    · exact List.mem_cons_of_mem _ ih

theorem Tab.mem_set_self {α : Type} [DecidableEq α] {d v : α} (hv : v ≠ d) (t : Tab α) (i : Nat) : (i, v) ∈ Tab.set d t i v := by
  rw [Tab.set, if_neg hv]
  exact Tab.mem_insert_self _ i v

/-- An entry that a cluster is given keeps its operation queued. -/
theorem State.opQueued_setCluster (s : State) (n : Nat) {c : Cluster} {e : QEnt} {opid : W32} (he : e ∈ c.queue) (ho : e.opid = opid) :
    (s.setCluster n c).opQueued opid = true := by
  have hc : c ≠ Cluster.reset := by
    rintro rfl
    exact absurd he List.not_mem_nil
  exact List.any_eq_true.2 ⟨(n, c), Tab.mem_set_self hc _ n, List.any_eq_true.2 ⟨e, he, decide_eq_true ho⟩⟩

/-- The entries that a fault of the first entry of its tag discards are others. -/
theorem Cluster.mem_cutAfter {c : Cluster} {e : QEnt} (he : c.queue.find? (fun x => x.tag = e.tag) = some e) : e ∈ (c.cutAfter e).queue := by
  have hd : (c.queue.dropWhile (fun x => x.tag != e.tag)).head? = some e := by
    rw [← he, List.find?_eq_head?_dropWhile_not]
    simp only [bne, beq_eq_decide]
  refine List.mem_append_right _ (List.mem_filter.2 ⟨List.mem_of_mem_head? hd, ?_⟩)
  simp

/-- R233: a fault of a queued entry changes the queue of its cluster and stops its operation, which goes on to wait for the entry. -/
theorem State.entryFault_queued {s : State} {n : Nat} {e : QEnt} (he : (s.cluster n).queue.find? (fun x => x.tag = e.tag) = some e)
    (status detail : Nat) (r : BitVec 96) :
    ∃ q t, s.entryFault n e status detail r = t ∧ t.cluster n = { s.cluster n with queue := q } ∧ (∀ j, j ≠ n → t.cluster j = s.cluster j)
      ∧ ∀ o, s.op e.opid = some o → t.op e.opid = some { o.fault status detail r with ended := 0xFF } := by
  let c := ((s.cluster n).cutAfter e).modEnt e.tag (fun x => { x with bad := some (BitVec.ofNat 8 status) })
  have hq : (s.setCluster n c).opQueued e.opid = true :=
    State.opQueued_setCluster s n (List.mem_map.2 ⟨e, Cluster.mem_cutAfter he, if_pos rfl⟩) rfl
  have hself : (s.setCluster n c).cluster n = { s.cluster n with queue := c.queue } := State.cluster_setCluster_self s n c
  have hother (j : Nat) (hj : j ≠ n) : (s.setCluster n c).cluster j = s.cluster j := State.cluster_setCluster_ne s hj c
  cases ho : s.op e.opid with
  | none =>
    refine ⟨c.queue, s.setCluster n c, ?_, hself, hother, fun o h => absurd h (by simp)⟩
    change State.stopOp (s.setCluster n c) _ _ _ _ = _
    rw [State.stopOp, show (s.setCluster n c).op e.opid = none from ho]
  | some o =>
    refine ⟨c.queue, _, State.stopOp_waits (s := s.setCluster n c) ho (Or.inr hq) status detail r, hself, hother, fun o' h => ?_⟩
    obtain rfl := Option.some.inj h
    have hid : ({ o.fault status detail r with ended := 0xFF } : Op).opid = e.opid := (Op.fault_opid o status detail r).trans (State.op_opid ho)
    rw [← hid]
    exact State.op_setOp (y := o) ((congrArg s.op hid).trans ho)

/-- R233: a status that is the first of its operation. -/
theorem Op.fault_first {o : Op} (ho : o.status = 0) {status : Nat} (hs : 0 < status) (detail : Nat) (r : BitVec 96) :
    (o.fault status detail r).status = BitVec.ofNat 8 status := by
  rw [Op.fault, if_pos (by rw [ho]; exact hs)]

/-! Counts and lists -/

theorem nodup_eraseDups {α : Type} [BEq α] [LawfulBEq α] : ∀ l : List α, l.eraseDups.Nodup
  | [] => by simp
  | a :: l => by
    rw [List.eraseDups_cons]
    exact List.nodup_cons.2 ⟨by simp, nodup_eraseDups _⟩
  termination_by l => l.length
  decreasing_by exact Nat.lt_succ_of_le (List.length_filter_le _ _)

/-- A bounded counter bumped at least once. -/
theorem bumpTo_iterate (max x : Nat) (k : Nat) : (fun y => bumpTo max y)^[k + 1] x = Nat.min max (x + (k + 1)) := by
  induction k with
  | zero => rfl
  | succ k ih =>
    rw [Function.iterate_succ_apply', ih]
    change min max (min max _ + 1) = min max _
    omega

/-- Key by key, a run of writes of values that each depend on what their own key held. -/
theorem Tab.get_foldl_zipIdx {α β : Type} [DecidableEq α] (d : α) (f : β → α → α) (a : Nat) (vs : List β) (k : Nat) (t : Tab α) (j : Nat) :
    Tab.get d ((vs.zipIdx k).foldl (fun m p => Tab.set d m (a + p.2) (f p.1 (Tab.get d m (a + p.2)))) t) j
      = if h : a + k ≤ j ∧ j - (a + k) < vs.length then f (vs[j - (a + k)]'h.2) (Tab.get d t j) else Tab.get d t j := by
  induction vs generalizing k t with
  | nil => simp
  | cons v vs ih =>
    rw [List.zipIdx_cons, List.foldl_cons, ih (k + 1), Tab.get_set]
    by_cases hj : j = a + k
    · subst hj
      simp
    · by_cases hlt : a + (k + 1) ≤ j
      · have e : j - (a + k) = j - (a + (k + 1)) + 1 := by omega
        simp [hj, hlt, e, show a + k ≤ j by omega]
      · simp [hj, hlt, show ¬ a + k ≤ j by omega]

/-! The verdict of a tile (R98, R99, R118, R119) -/

/-- R101: the tile counts once for each of its arrays. -/
theorem Cluster.get_countTile (c : Cluster) (l : List Nat) (a : Nat) :
    Tab.get 0 (c.countTile l).tilesChecked a = Tab.get 0 c.tilesChecked a + l.countP (fun b => b == a) := by
  induction l generalizing c with
  | nil => rfl
  | cons b l ih =>
    refine (ih { c with tilesChecked := Tab.set 0 c.tilesChecked b (Tab.get 0 c.tilesChecked b + 1) }).trans ?_
    rw [Tab.get_set, List.countP_cons]
    by_cases h : a = b
    · subst h
      simp
      omega
    · simp [h, Ne.symm h]

/-- R101: no lane that is mapped out fails a check. -/
theorem TileOpds.failing_in (t : TileOpds) (fs : List ArrayFault) (arrays : List Nat) {out : List (Nat × Nat)} {p : Nat × Nat}
    (hp : p ∈ t.failing fs arrays out) : p ∉ out := by
  obtain ⟨x, hx, rfl⟩ := List.mem_map.1 (List.mem_eraseDups.1 hp)
  have h := (List.mem_filter.1 hx).2
  simp only [Bool.and_eq_true, Bool.not_eq_true', List.contains_eq_mem, decide_eq_false_iff_not] at h
  exact h.1

/-- A tile that stands alone has no tile before it. -/
theorem Cluster.queueHeld_alone {c : Cluster} {x : TileSlot} (hc : c.tiles = [x]) : c.queueHeld x = false := by
  simp [Cluster.queueHeld, hc]

theorem Cluster.putTile_alone {c : Cluster} {x : TileSlot} (hc : c.tiles = [x]) (u : TileSlot) : c.putTile x u = { c with tiles := [u] } := by
  simp [Cluster.putTile, hc]

/-- R81: a tile without results hands its accumulators on. -/
theorem Cluster.releaseTile_hands {c : Cluster} {x : TileSlot} (hc : c.tiles = [x]) (hy : x.opds.yields = false) :
    c.releaseTile x = { c with tiles := [], accs := c.accs ++ [⟨x.opds.gang, x.accs⟩] } := by
  simp [Cluster.releaseTile, hc, hy]

/-- R118: a tile of the array's queue may be taken by the vector engine. -/
theorem Cluster.releaseTile_queued {c : Cluster} {x : TileSlot} (hc : c.tiles = [x]) (hy : x.opds.yields = true) (hb : x.tbuf = none) :
    c.releaseTile x = { c with tiles := [{ x with released := true }] } := by
  simp [Cluster.releaseTile, hc, hy, hb]

/-- What a tile's result makes of the place in its tile buffer (R119). -/
def TileSlot.added (x : TileSlot) (v old : W32) : W32 := if x.restart then v else toW32 (Fl.add (ofW32 old) (ofW32 v))

/-- R119: a tile in shared mode joins its tile buffer, result by result. -/
theorem Cluster.releaseTile_buffered {c : Cluster} {x : TileSlot} (hc : c.tiles = [x]) (hy : x.opds.yields = true) {b : Nat} (hb : x.tbuf = some b) :
    c.releaseTile x = { c with tiles := [], tileBufs := x.vals.zipIdx.foldl (fun m p => Tab.set 0 m (b * 16384 + x.base + p.2)
      (x.added p.1 (Tab.get 0 m (b * 16384 + x.base + p.2)))) c.tileBufs } := by
  simp [Cluster.releaseTile, hc, hy, hb, TileSlot.added]

section
variable {s : State} {n : Fin 32} {fs : List ArrayFault} {x : TileSlot}

/-- R99: a tile that passes is released. -/
theorem exec_tileVerdict_passes (hf : s.fast = true) (hc : (s.cluster n.val).tiles = [x]) (hl : x.released = false) (hr : x.rerun = false)
    (hb : x.opds.failing fs x.arrays (s.cluster n.val).lanesOut = []) (hp : x.poison = none) {y : Cluster}
    (hy : Cluster.releaseTile { (s.cluster n.val).countTile x.arrays with tiles := [x.data fs] } (x.data fs) = y) :
    exec (.tileVerdict n fs) s = .next (s.setCluster n.val y) := by
  rw [← hy, ← Cluster.putTile_alone (c := (s.cluster n.val).countTile x.arrays) hc]
  change execTileVerdict n fs s = _
  have hb' : x.opds.failing fs x.arrays ((s.cluster n.val).countTile x.arrays).lanesOut = [] := hb
  simp [execTileVerdict, hc, hl, hr, hf, Cluster.queueHeld_alone hc, hb', hp]

/-- R99, R414: a tile that fails a check, or has uncorrectable data in an operand, is rerun. -/
theorem exec_tileVerdict_fails (hf : s.fast = true) (hc : (s.cluster n.val).tiles = [x]) (hl : x.released = false) (hr : x.rerun = false)
    (h : x.opds.failing fs x.arrays (s.cluster n.val).lanesOut ≠ [] ∨ x.poison ≠ none) :
    exec (.tileVerdict n fs) s = .next (s.setCluster n.val { (s.cluster n.val).countTile x.arrays with
      tiles := [{ x.data fs with rerun := true, failed := x.opds.failing fs x.arrays (s.cluster n.val).lanesOut }] }) := by
  rw [← Cluster.putTile_alone (c := (s.cluster n.val).countTile x.arrays) hc]
  change execTileVerdict n fs s = _
  have hno : ¬ (x.opds.failing fs x.arrays ((s.cluster n.val).countTile x.arrays).lanesOut = [] ∧ x.poison = none) :=
    fun hand => h.elim (· hand.1) (· hand.2)
  simp only [execTileVerdict, hc, hl, hr, hf, Cluster.queueHeld_alone hc, List.find?_cons, Bool.not_false, Bool.not_true, Bool.or_self,
    Bool.false_eq_true, if_false, Bool.and_eq_true, List.isEmpty_iff, Option.isNone_iff_eq_none, if_neg hno]
  rfl

/-- R100, log entry 130: a fault in the first tile of a built-in operation on a cluster without tiles keeps it for a rerun. -/
theorem exec_tileVerdict_builtin {o : Op} (hf : s.fast = true) (hc : (s.cluster n.val).tiles = []) (hb : (s.cluster n.val).builtin = none)
    (ho : s.builtinOn n.val = some o) (hfs : fs ≠ []) :
    exec (.tileVerdict n fs) s = .next (s.setCluster n.val { (s.cluster n.val).countTile [0, 1, 2, 3] with builtin := some (o.opid, fs) }) := by
  change execTileVerdict n fs s = _
  simp [execTileVerdict, hc, hf, State.builtinVerdict, ho, hb, hfs]

end

/-! Charges (R100, R101) -/

/-- R101: the cluster with checker faults charged to lanes. -/
def Cluster.withLanes (c : Cluster) (ls : List (Nat × Nat)) : Cluster :=
  { c with charges := c.charges ++ ls.map (fun p => ⟨p.1, Tab.get 0 c.tilesChecked p.1, false, p.2⟩),
           checkerFaults := (fun k => bumpTo 0xFFFF k)^[ls.length] c.checkerFaults }

theorem Cluster.withLanes_nil (c : Cluster) : c.withLanes [] = c := by simp [Cluster.withLanes]

theorem Cluster.withLanes_cons (c : Cluster) (l : Nat × Nat) (ls : List (Nat × Nat)) : (c.withLanes [l]).withLanes ls = c.withLanes (l :: ls) := by
  simp [Cluster.withLanes]

/-- R101: a lane counts no more faults than it has charges. -/
theorem Cluster.charged_le (c : Cluster) (array lane : Nat) :
    c.charged array false lane ≤ (c.charges.map (fun x => (x.array, x.lane))).count (array, lane) := by
  rw [List.count, List.countP_map]
  refine List.countP_mono_left (fun x _ hx => ?_)
  simp only [Bool.and_eq_true, decide_eq_true_eq, Bool.or_eq_true, Bool.false_eq_true, false_or] at hx
  simp [hx.1.1.1, hx.1.2]

/-- R101: a lane with fewer than three faults is charged and stays. -/
theorem State.chargeLane_spared {s : State} {n : Nat} (opid : W32) {array lane : Nat}
    (h : ((s.cluster n).withLanes [(array, lane)]).charged array false lane < 3) :
    s.chargeLane n opid array lane = (s.setCluster n ((s.cluster n).withLanes [(array, lane)])).note 0x05 none false 1 (BitVec.ofNat 8 n) opid
      (array + 4 * lane) 0 := by
  unfold State.chargeLane
  exact if_neg (Nat.not_le.2 h)

/-- `t` has cluster `n` as `c`, and every other cluster and Headwater as in `s`. -/
structure State.Charged (s t : State) (n : Nat) (c : Cluster) : Prop where
  self : t.cluster n = c
  other : ∀ j, j ≠ n → t.cluster j = s.cluster j
  hw : t.hw = s.hw

/-- R101: lanes of which none comes to three faults are charged, and nothing is mapped out. -/
theorem State.chargeLanes_spared {n : Nat} (opid : W32) (ls : List (Nat × Nat)) (s : State)
    (h : ∀ p, ((s.cluster n).charges.map (fun x => (x.array, x.lane)) ++ ls).count p ≤ 2) :
    s.Charged (s.chargeLanes n opid ls) n ((s.cluster n).withLanes ls) := by
  induction ls generalizing s with
  | nil => exact ⟨(Cluster.withLanes_nil _).symm, fun _ _ => rfl, rfl⟩
  | cons l ls ih =>
    have hl : ((s.cluster n).withLanes [l]).charges.map (fun x => (x.array, x.lane)) ++ ls = (s.cluster n).charges.map (fun x => (x.array, x.lane)) ++ l :: ls := by
      simp [Cluster.withLanes]
    have hspared : ((s.cluster n).withLanes [l]).charged l.1 false l.2 < 3 := by
      refine Nat.lt_of_le_of_lt ((Cluster.charged_le _ _ _).trans ?_) (Nat.lt_succ_self 2)
      exact ((List.sublist_append_left _ ls).count_le _).trans (hl ▸ h (l.1, l.2))
    have hone := State.chargeLane_spared opid hspared
    have hself : (s.chargeLane n opid l.1 l.2).cluster n = (s.cluster n).withLanes [l] := by
      rw [hone]
      exact State.cluster_setCluster_self s n _
    obtain ⟨h1, h2, h3⟩ := ih (s.chargeLane n opid l.1 l.2) (fun p => by rw [hself, hl]; exact h p)
    refine ⟨h1.trans ?_, fun j hj => (h2 j hj).trans ?_, h3.trans ?_⟩
    · rw [hself, Cluster.withLanes_cons]
    · rw [hone]
      exact State.cluster_setCluster_ne s hj _
    · rw [hone]
      rfl

/-- R101: the cluster with a data fault charged to an array. -/
def Cluster.withData (c : Cluster) (array : Nat) : Cluster :=
  { c with charges := c.charges ++ [⟨array, Tab.get 0 c.tilesChecked array, true, 0⟩], dataFaults := bumpTo 0xFFFF c.dataFaults }

/-- R101: the first charge against an array maps nothing out. -/
theorem State.chargeData_first {s : State} {n : Nat} (opid : W32) (array : Nat) (h : (s.cluster n).charges = []) :
    s.chargeData n opid array
      = (s.setCluster n ((s.cluster n).withData array)).note 0x06 none false 1 (BitVec.ofNat 8 n) opid array 0 := by
  have hone : ((s.cluster n).withData array).charges.length < 3 := by simp [Cluster.withData, h]
  unfold State.chargeData
  exact if_neg (Nat.not_le.2 (Nat.lt_of_le_of_lt List.countP_le_length hone))

/-! The end of a rerun (R100) -/

section
variable {s : State} {n : Fin 32} {data sums column : List ArrayFault} {x : TileSlot}

/-- R100: a rerun with faults `fs` gives the data of the first run. -/
def TileSlot.agrees (x : TileSlot) (fs : List ArrayFault) : Bool := (x.data fs).vals = x.vals && (x.data fs).accs = x.accs

/-- R100: results alone decide where the tile hands no accumulators on. -/
theorem TileSlot.agrees_of_yields {x : TileSlot} (hy : x.opds.yields = true) (ha : x.accs = []) (fs : List ArrayFault) :
    x.agrees fs = decide ((x.data fs).vals = x.vals) := by
  have h : (x.data fs).accs = x.accs := (if_pos hy).trans ha.symm
  simp [TileSlot.agrees, h]

/-- R100: what stands after a rerun that is released: the tile `out`, beside a trace record. -/
def State.rerunReleased (s : State) (n : Nat) (x out : TileSlot) (tr : Trc) : State :=
  (s.modTrc (fun _ => tr)).setCluster n (((s.cluster n).putTile x out).releaseTile out)

/-- R100, row 1: a rerun that agrees and passes. -/
theorem exec_abftRerunDone_agrees_passes (hf : s.fast = true) (hc : (s.cluster n.val).tiles = [x]) (hr : x.rerun = true) (hp : x.poison.isSome = false)
    (hv : x.agrees (data ++ sums ++ column) = true)
    (hb : x.opds.failing (data ++ sums ++ column) (x.arrays.map (rerunArray x.opds.gang)) (s.cluster n.val).lanesOut = []) :
    ∃ opid tr, exec (.abftRerunDone n data sums column) s
      = .next ((s.rerunReleased n.val x { x with rerun := false } tr).chargeLanes n.val opid x.failed) := by
  change ∃ opid tr, execAbftRerunDone n data sums column s = _
  rw [TileSlot.agrees] at hv
  simp only [execAbftRerunDone, hc, hr, hf, hp, hv, hb, List.find?_cons, rerunRow, List.isEmpty_nil, if_true, Bool.false_eq_true, if_false]
  obtain ⟨tr, htr⟩ := State.trace_eq s 0x0C _ _ _ _ _
  rw [htr]
  exact ⟨_, tr, rfl⟩

/-- R100, row 2: a rerun that agrees and fails. -/
theorem exec_abftRerunDone_agrees_fails (hf : s.fast = true) (hc : (s.cluster n.val).tiles = [x]) (hr : x.rerun = true) (hp : x.poison.isSome = false)
    (hv : x.agrees (data ++ sums ++ column) = true) {bad : List (Nat × Nat)}
    (hb : x.opds.failing (data ++ sums ++ column) (x.arrays.map (rerunArray x.opds.gang)) (s.cluster n.val).lanesOut = bad) (hne : bad ≠ []) :
    ∃ opid tr, exec (.abftRerunDone n data sums column) s
      = .next ((s.rerunReleased n.val x { x with rerun := false } tr).chargeLanes n.val opid (x.failed ++ bad)) := by
  change ∃ opid tr, execAbftRerunDone n data sums column s = _
  rw [TileSlot.agrees] at hv
  have hpass : bad.isEmpty = false := List.isEmpty_eq_false_iff.2 hne
  simp only [execAbftRerunDone, hc, hr, hf, hp, hv, hb, hpass, List.find?_cons, rerunRow, if_true, Bool.false_eq_true, if_false]
  obtain ⟨tr, htr⟩ := State.trace_eq s 0x0C _ _ _ _ _
  rw [htr]
  exact ⟨_, tr, congrArg Host.Outcome.next List.foldl_append.symm⟩

/-- R100, row 3: a rerun that differs and passes. -/
theorem exec_abftRerunDone_differs_passes (hf : s.fast = true) (hc : (s.cluster n.val).tiles = [x]) (hr : x.rerun = true) (hp : x.poison.isSome = false)
    (hv : x.agrees (data ++ sums ++ column) = false)
    (hb : x.opds.failing (data ++ sums ++ column) (x.arrays.map (rerunArray x.opds.gang)) (s.cluster n.val).lanesOut = []) :
    ∃ opid tr, exec (.abftRerunDone n data sums column) s
      = .next ((s.rerunReleased n.val x { x.data (data ++ sums ++ column) with rerun := false } tr).chargeData n.val opid
          (x.failed.headD (x.arrays.headD 0, 0)).1) := by
  change ∃ opid tr, execAbftRerunDone n data sums column s = _
  rw [TileSlot.agrees] at hv
  simp only [execAbftRerunDone, hc, hr, hf, hp, hv, hb, List.find?_cons, rerunRow, List.isEmpty_nil, if_true, Bool.false_eq_true, if_false]
  obtain ⟨tr, htr⟩ := State.trace_eq s 0x0C _ _ _ _ _
  rw [htr]
  exact ⟨_, tr, rfl⟩

/-- R100, row 4, and R414: a rerun that differs and fails, or whose operand is uncorrectable, releases nothing and is a fault of its entry. -/
theorem exec_abftRerunDone_ends (hf : s.fast = true) (hc : (s.cluster n.val).tiles = [x]) (hr : x.rerun = true)
    (h : x.poison.isSome = true ∨ x.agrees (data ++ sums ++ column) = false
      ∧ x.opds.failing (data ++ sums ++ column) (x.arrays.map (rerunArray x.opds.gang)) (s.cluster n.val).lanesOut ≠ []) :
    ∃ tr u r, u = (s.modTrc (fun _ => tr)).setCluster n.val
          { s.cluster n.val with tiles := [], checkFailed := bumpTo 0xFF (s.cluster n.val).checkFailed }
      ∧ exec (.abftRerunDone n data sums column) s = .next (match (s.cluster n.val).queue.find? (fun e => e.tag = x.tag) with
        | some e => u.entryFault n.val e 0x50 0x11 r
        | none => u) := by
  change ∃ tr u r, _ ∧ execAbftRerunDone n data sums column s = _
  rw [TileSlot.agrees] at h
  have hrow : (if x.poison.isSome then 4 else rerunRow ((x.data (data ++ sums ++ column)).vals = x.vals && (x.data (data ++ sums ++ column)).accs = x.accs)
      (x.opds.failing (data ++ sums ++ column) (x.arrays.map (rerunArray x.opds.gang)) (s.cluster n.val).lanesOut).isEmpty) = 4 := by
    obtain hp | ⟨hv, hb⟩ := h
    · exact if_pos hp
    · rw [hv, List.isEmpty_eq_false_iff.2 hb]
      exact ite_self 4
  simp only [execAbftRerunDone, hc, hr, hf, hrow, List.find?_cons, List.erase_cons_head]
  obtain ⟨tr, htr⟩ := State.trace_eq s 0x0C _ _ _ _ _
  rw [htr]
  exact ⟨tr, _, _, rfl, rfl⟩

end

/-! What a rerun leaves (R100, R101) -/

/-- The tile of a rerun that stood alone for the vector engine is released. -/
theorem State.rerunReleased_charged (s : State) (n : Nat) {x out : TileSlot} (tr : Trc) (hc : (s.cluster n).tiles = [x]) (hy : out.opds.yields = true)
    (hb : out.tbuf = none) :
    s.Charged (s.rerunReleased n x out tr) n { s.cluster n with tiles := [{ out with released := true }] } := by
  have hput := Cluster.putTile_alone hc out
  refine ⟨(State.cluster_setCluster_self _ _ _).trans ?_, fun j hj => State.cluster_setCluster_ne _ hj _, rfl⟩
  rw [hput, Cluster.releaseTile_queued rfl hy hb]

theorem State.Charged.trans {r s t : State} {n : Nat} {c d : Cluster} (a : r.Charged s n c) (b : s.Charged t n d) : r.Charged t n d :=
  ⟨b.self, fun j hj => (b.other j hj).trans (a.other j hj), b.hw.trans a.hw⟩

/-- R100: the lanes of two runs charge no lane more than twice. -/
theorem count_append_le_two {l m : List (Nat × Nat)} (hl : l.Nodup) (hm : m.Nodup) (p : Nat × Nat) : (l ++ m).count p ≤ 2 := by
  rw [List.count_append]
  have h1 := List.nodup_iff_count_le_one.1 hl p
  have h2 := List.nodup_iff_count_le_one.1 hm p
  omega

theorem TileOpds.nodup_failing (t : TileOpds) (fs : List ArrayFault) (arrays : List Nat) (out : List (Nat × Nat)) :
    (t.failing fs arrays out).Nodup := nodup_eraseDups _

/-- R101: the fields of a cluster without charges once lanes are charged. -/
theorem Cluster.withLanes_fresh {c : Cluster} (hc : c.charges = []) {ls : List (Nat × Nat)} (hls : ls ≠ []) :
    (c.withLanes ls).charges = ls.map (fun p => ⟨p.1, Tab.get 0 c.tilesChecked p.1, false, p.2⟩)
      ∧ (c.withLanes ls).checkerFaults = Nat.min 65535 (c.checkerFaults + ls.length) := by
  obtain ⟨k, hk⟩ := Nat.exists_eq_succ_of_ne_zero (mt List.length_eq_zero_iff.1 hls)
  refine ⟨by simp [Cluster.withLanes, hc], ?_⟩
  rw [Cluster.withLanes, hk]
  exact bumpTo_iterate _ _ _

/-- R101: a released rerun charges lanes that were not charged before. -/
theorem State.rerunReleased_chargeLanes (s : State) (n : Nat) {x out : TileSlot} (tr : Trc) (opid : W32) {l m : List (Nat × Nat)}
    (hc : (s.cluster n).tiles = [x]) (hy : out.opds.yields = true) (hb : out.tbuf = none) (hch : (s.cluster n).charges = []) (hl : l.Nodup) (hm : m.Nodup) :
    s.Charged ((s.rerunReleased n x out tr).chargeLanes n opid (l ++ m)) n
      ({ s.cluster n with tiles := [{ out with released := true }] }.withLanes (l ++ m)) := by
  have hrel := s.rerunReleased_charged n tr hc hy hb
  refine hrel.trans ?_
  rw [← hrel.self]
  refine State.chargeLanes_spared opid (l ++ m) _ (fun p => ?_)
  rw [hrel.self, hch]
  exact count_append_le_two hl hm p

/-- R101: the entry of the trouble log for a lane charged alone. -/
theorem State.chargeLanes_logged {s : State} {n : Nat} (opid : W32) (hch : (s.cluster n).charges = []) {ls : List (Nat × Nat)} {array lane : Nat}
    (hls : ls = [(array, lane)]) :
    ∃ e, (s.chargeLanes n opid ls).Logged s.ras.total e ∧ e.kind = 5 ∧ e.cls = 1 ∧ e.unit = BitVec.ofNat 8 n
      ∧ e.arg0 = BitVec.ofNat 32 (array + 4 * lane) := by
  subst hls
  have hone : ((s.cluster n).withLanes [(array, lane)]).charges.length < 3 := by simp [Cluster.withLanes, hch]
  have heq : s.chargeLanes n opid [(array, lane)] = _ := State.chargeLane_spared opid (Nat.lt_of_le_of_lt List.countP_le_length hone)
  rw [heq]
  exact ⟨_, State.note_logged _ _ _ _ _ _ _ _ _, rfl, rfl, rfl, rfl⟩

/-- R99, R119: the tile buffer after a tile in shared mode joined it. -/
theorem TileSlot.get_added (x : TileSlot) (a : Nat) (t : Tab W32) :
    let u := x.vals.zipIdx.foldl (fun m p => Tab.set 0 m (a + p.2) (x.added p.1 (Tab.get 0 m (a + p.2)))) t
    (∀ i, i < x.vals.length → Tab.get 0 u (a + i) = x.added (x.vals.getD i 0) (Tab.get 0 t (a + i)))
      ∧ ∀ i, i < a ∨ a + x.vals.length ≤ i → Tab.get 0 u i = Tab.get 0 t i := by
  refine ⟨fun i hi => (Tab.get_foldl_zipIdx 0 x.added a x.vals 0 t _).trans ?_, fun i hi => (Tab.get_foldl_zipIdx 0 x.added a x.vals 0 t _).trans (dif_neg ?_)⟩
  · rw [dif_pos (by omega)]
    simp [hi]
  · omega

section
variable {s : State} {n : Fin 32} {data sums column : List ArrayFault} {x : TileSlot}

theorem State.rerunReleased_ras (s : State) (n : Nat) (x out : TileSlot) (tr : Trc) : (s.rerunReleased n x out tr).ras = s.ras := rfl

/-- R100, row 1: the lanes of the first run are charged, and the results released. -/
theorem abftRerunDone_agrees_passes (hf : s.fast = true) (hc : (s.cluster n.val).tiles = [x]) (hr : x.rerun = true) (hy : x.opds.yields = true)
    (ht : x.tbuf = none) (hch : (s.cluster n.val).charges = []) (hnd : x.failed.Nodup) (hp : x.poison.isSome = false)
    (hv : x.agrees (data ++ sums ++ column) = true)
    (hb : x.opds.failing (data ++ sums ++ column) (x.arrays.map (rerunArray x.opds.gang)) (s.cluster n.val).lanesOut = []) :
    ∃ t, exec (.abftRerunDone n data sums column) s = .next t
      ∧ s.Charged t n.val ({ s.cluster n.val with tiles := [{ x with rerun := false, released := true }] }.withLanes x.failed)
      ∧ ∀ a l, x.failed = [(a, l)] → ∃ e, t.Logged s.ras.total e ∧ e.kind = 5 ∧ e.cls = 1 ∧ e.unit = BitVec.ofNat 8 n.val
        ∧ e.arg0 = BitVec.ofNat 32 (a + 4 * l) := by
  obtain ⟨opid, tr, he⟩ := exec_abftRerunDone_agrees_passes hf hc hr hp hv hb
  have hrel := s.rerunReleased_charged n.val (out := { x with rerun := false }) tr hc hy ht
  have hlanes := s.rerunReleased_chargeLanes n.val (out := { x with rerun := false }) tr opid hc hy ht hch hnd List.nodup_nil
  rw [List.append_nil] at hlanes
  refine ⟨_, he, hlanes, fun a l hal => ?_⟩
  rw [← State.rerunReleased_ras s n.val x { x with rerun := false } tr]
  exact State.chargeLanes_logged opid (by rw [hrel.self]; exact hch) hal

/-- R100, row 2: the lanes of both runs are charged, and the results released. -/
theorem abftRerunDone_agrees_fails (hf : s.fast = true) (hc : (s.cluster n.val).tiles = [x]) (hr : x.rerun = true) (hy : x.opds.yields = true)
    (ht : x.tbuf = none) (hch : (s.cluster n.val).charges = []) (hnd : x.failed.Nodup) (hp : x.poison.isSome = false)
    (hv : x.agrees (data ++ sums ++ column) = true)
    (hb : x.opds.failing (data ++ sums ++ column) (x.arrays.map (rerunArray x.opds.gang)) (s.cluster n.val).lanesOut ≠ []) :
    ∃ t, exec (.abftRerunDone n data sums column) s = .next t
      ∧ s.Charged t n.val ({ s.cluster n.val with tiles := [{ x with rerun := false, released := true }] }.withLanes
          (x.failed ++ x.opds.failing (data ++ sums ++ column) (x.arrays.map (rerunArray x.opds.gang)) (s.cluster n.val).lanesOut)) := by
  obtain ⟨opid, tr, he⟩ := exec_abftRerunDone_agrees_fails hf hc hr hp hv rfl hb
  exact ⟨_, he, s.rerunReleased_chargeLanes n.val (out := { x with rerun := false }) tr opid hc hy ht hch hnd (TileOpds.nodup_failing _ _ _ _)⟩

/-- R100, row 3: the array's data is charged, and the results of the rerun are released. -/
theorem abftRerunDone_differs_passes (hf : s.fast = true) (hc : (s.cluster n.val).tiles = [x]) (hr : x.rerun = true) (hy : x.opds.yields = true)
    (ht : x.tbuf = none) (hch : (s.cluster n.val).charges = []) (hp : x.poison.isSome = false) (hv : x.agrees (data ++ sums ++ column) = false)
    (hb : x.opds.failing (data ++ sums ++ column) (x.arrays.map (rerunArray x.opds.gang)) (s.cluster n.val).lanesOut = []) :
    ∃ t, exec (.abftRerunDone n data sums column) s = .next t
      ∧ s.Charged t n.val ({ s.cluster n.val with tiles := [{ x.data (data ++ sums ++ column) with rerun := false, released := true }] }.withData
          (x.failed.headD (x.arrays.headD 0, 0)).1)
      ∧ ∀ a l, x.failed.head? = some (a, l) → ∃ e, t.Logged s.ras.total e ∧ e.kind = 6 ∧ e.cls = 1 ∧ e.unit = BitVec.ofNat 8 n.val
        ∧ e.arg0 = BitVec.ofNat 32 a := by
  obtain ⟨opid, tr, he⟩ := exec_abftRerunDone_differs_passes hf hc hr hp hv hb
  have hrel := s.rerunReleased_charged n.val (out := { x.data (data ++ sums ++ column) with rerun := false }) tr hc hy ht
  rw [State.chargeData_first opid _ ((congrArg Cluster.charges hrel.self).trans hch), hrel.self] at he
  refine ⟨_, he, hrel.trans ⟨State.cluster_setCluster_self _ _ _, fun j hj => State.cluster_setCluster_ne _ hj _, rfl⟩, fun a l hal => ?_⟩
  rw [← State.rerunReleased_ras s n.val x { x.data (data ++ sums ++ column) with rerun := false } tr, List.headD_eq_head?_getD, hal]
  exact ⟨_, State.note_logged _ _ _ _ _ _ _ _ _, rfl, rfl, rfl, rfl⟩

/-- R100, row 4, and R414: the tile goes, and the operation of its entry ends CHECK_FAILED. -/
theorem abftRerunDone_ends (hf : s.fast = true) (hc : (s.cluster n.val).tiles = [x]) (hr : x.rerun = true)
    (h : x.poison.isSome = true ∨ x.agrees (data ++ sums ++ column) = false
      ∧ x.opds.failing (data ++ sums ++ column) (x.arrays.map (rerunArray x.opds.gang)) (s.cluster n.val).lanesOut ≠ []) :
    ∃ t, exec (.abftRerunDone n data sums column) s = .next t ∧ (t.cluster n.val).tiles = []
      ∧ (t.cluster n.val).checkFailed = bumpTo 0xFF (s.cluster n.val).checkFailed ∧ (∀ j, j ≠ n.val → t.cluster j = s.cluster j)
      ∧ ∀ q o, (s.cluster n.val).queue = [q] → q.tag = x.tag → s.op q.opid = some o → o.status = 0 →
        ∀ o', t.op q.opid = some o' → o'.status = 0x50 ∧ o'.ended = 0xFF := by
  obtain ⟨tr, u, r, hu, he⟩ := exec_abftRerunDone_ends hf hc hr h
  have hself : u.cluster n.val = { s.cluster n.val with tiles := [], checkFailed := bumpTo 0xFF (s.cluster n.val).checkFailed } := by
    rw [hu]; exact State.cluster_setCluster_self _ _ _
  have hother (j : Nat) (hj : j ≠ n.val) : u.cluster j = s.cluster j := by rw [hu]; exact State.cluster_setCluster_ne _ hj _
  cases hq : (s.cluster n.val).queue.find? (fun e => e.tag = x.tag) with
  | none =>
    rw [hq] at he
    refine ⟨u, he, by rw [hself], by rw [hself], hother, fun q o hqueue hqtag => ?_⟩
    rw [hqueue] at hq
    simp [hqtag] at hq
  | some e =>
    rw [hq] at he
    have hqe : (u.cluster n.val).queue.find? (fun y => y.tag = e.tag) = some e := by
      rw [hself, show e.tag = x.tag by simpa using List.find?_some hq]
      exact hq
    obtain ⟨qs, t, ht, htself, htother, hop⟩ := State.entryFault_queued hqe 0x50 0x11 r
    refine ⟨t, he.trans (congrArg _ ht), by rw [htself, hself], by rw [htself, hself], fun j hj => (htother j hj).trans (hother j hj),
      fun q o hqueue _ ho hst o' ho' => ?_⟩
    have hqe' : e = q := List.mem_singleton.1 (hqueue ▸ List.mem_of_find?_eq_some hq)
    obtain rfl := Option.some.inj (ho'.symm.trans (hqe' ▸ hop o (by rw [hu, hqe']; exact ho)))
    exact ⟨Op.fault_first hst (by decide) _ _, rfl⟩

end

/-- Settles O59: a verdict by the way of its tile's release, a rerun by the rows of its outcome; no lane comes to three charges, so none is mapped
out. -/
theorem tileChecks : Obligations.TileChecks := by
  unfold Obligations.TileChecks
  intro s n x fs data sums column hf c u bad checked verdict gs again z charge reruns
  have hsound (hp : x.poison = none) : x.poison.isSome = false := Option.isSome_eq_false_iff.2 (Option.isNone_iff_eq_none.2 hp)
  have hagrees (hy : x.opds.yields = true) (hacc : x.accs = []) : x.agrees gs = decide (z.vals = x.vals) := TileSlot.agrees_of_yields hy hacc gs
  refine ⟨fun hc hl hr => ⟨fun p hp => x.opds.failing_in fs x.arrays hp, fun hb hp hy => ?_, fun hb hp hy ht => ?_, fun b hb hp hy ht => ?_, fun h => ?_⟩,
    fun hc hr hl hy hacc ht hch hfail hnd => ⟨fun hp hv hb => ?_, fun hp hv hb => ?_, fun hp hv hb => ?_, fun h => ?_⟩, fun o hc hb ho hfs => ?_⟩
  · have haccs : u.accs = x.opds.results fs := if_neg (by rw [hy]; decide)
    have he := exec_tileVerdict_passes hf hc hl hr hb hp (Cluster.releaseTile_hands (x := u) rfl hy)
    exact ⟨_, _, he, State.setCluster_only _ _ _, c.get_countTile x.arrays, by rw [← haccs]; rfl⟩
  · have he := exec_tileVerdict_passes hf hc hl hr hb hp (Cluster.releaseTile_queued (x := u) rfl hy ht)
    exact ⟨_, _, he, State.setCluster_only _ _ _, c.get_countTile x.arrays, rfl⟩
  · have he := exec_tileVerdict_passes hf hc hl hr hb hp (Cluster.releaseTile_buffered (x := u) rfl hy ht)
    obtain ⟨hin, hout⟩ := u.get_added (b * 16384 + x.base) c.tileBufs
    exact ⟨_, _, he, State.setCluster_only _ _ _, c.get_countTile x.arrays, hin, hout, rfl⟩
  · have he := exec_tileVerdict_fails hf hc hl hr h
    exact ⟨_, _, he, State.setCluster_only _ _ _, c.get_countTile x.arrays, rfl⟩
  · obtain ⟨t, he, ht, hlog⟩ := abftRerunDone_agrees_passes hf hc hr hy ht hch hnd (hsound hp) ((hagrees hy hacc).trans (decide_eq_true hv)) hb
    obtain ⟨hcharges, hfaults⟩ := Cluster.withLanes_fresh (c := { c with tiles := [{ x with rerun := false, released := true }] }) hch hfail
    refine ⟨t, he, ?_, ht.other⟩
    rw [ht.self]
    exact ⟨rfl, hcharges, hfaults, rfl, rfl, ht.hw, hlog⟩
  · obtain ⟨t, he, ht⟩ := abftRerunDone_agrees_fails hf hc hr hy ht hch hnd (hsound hp) ((hagrees hy hacc).trans (decide_eq_true hv)) hb
    obtain ⟨hcharges, hfaults⟩ := Cluster.withLanes_fresh (c := { c with tiles := [{ x with rerun := false, released := true }] })
      hch (List.append_ne_nil_of_left_ne_nil hfail again)
    refine ⟨t, he, ?_, ht.other⟩
    rw [ht.self]
    exact ⟨rfl, hcharges, hfaults.trans (by rw [List.length_append, Nat.add_assoc]), rfl, ht.hw⟩
  · obtain ⟨t, he, ht, hlog⟩ := abftRerunDone_differs_passes hf hc hr hy ht hch (hsound hp) ((hagrees hy hacc).trans (decide_eq_false hv)) hb
    refine ⟨t, he, ?_, ht.other⟩
    rw [ht.self]
    exact ⟨rfl, rfl, rfl, ht.hw, hlog⟩
  · have h' : x.poison.isSome = true ∨ x.agrees gs = false ∧ again ≠ [] :=
      h.imp Option.isSome_iff_ne_none.2 (And.imp_left fun hv => (hagrees hy hacc).trans (decide_eq_false hv))
    obtain ⟨t, he, htiles, hcount, hother, hop⟩ := abftRerunDone_ends hf hc hr h'
    exact ⟨t, he, ⟨htiles, hcount, hop⟩, hother⟩
  · have he := exec_tileVerdict_builtin hf hc hb ho hfs
    exact ⟨_, _, he, State.setCluster_only _ _ _, c.get_countTile [0, 1, 2, 3], rfl⟩

end Sys2Proof.Machine
end

section
/-! SUPPORT. Queue entries of a cluster (R77, R193, R218 to R221, R344): how an entry that stands alone in its queue starts, ends, and issues the
writes of a stream to memory. -/

namespace Sys2Proof.Machine

/-! An entry alone in its queue -/

theorem Cluster.ahead_alone {c : Cluster} {q : QEnt} (hc : c.queue = [q]) : c.ahead q = [] := by
  simp [Cluster.ahead, hc]

theorem Cluster.modEnt_alone {c : Cluster} {q : QEnt} (hc : c.queue = [q]) (f : QEnt → QEnt) : c.modEnt q.tag f = { c with queue := [f q] } := by
  simp [Cluster.modEnt, hc]

/-- R193, R220: nothing ahead in the queue holds an entry that stands alone. -/
theorem Cluster.awaitsControl_alone {c : Cluster} {q : QEnt} (hc : c.queue = [q]) : c.awaitsControl q = false := by
  rw [Cluster.awaitsControl, Cluster.ahead_alone hc]
  rfl

theorem Cluster.aheadHolds_alone {c : Cluster} {q : QEnt} (hc : c.queue = [q]) (rs : List Rng) : c.aheadHolds q rs = false := by
  rw [Cluster.aheadHolds, Cluster.ahead_alone hc]
  rfl

theorem Cluster.mayBegin_alone {c : Cluster} {q : QEnt} (hc : c.queue = [q]) (rs : List Rng) : c.mayBegin q rs = c.mayAccess rs := by
  have hbuf : c.tbufHolds q = false := by
    rw [Cluster.tbufHolds, Cluster.ahead_alone hc]
    rfl
  simp [Cluster.mayBegin, hbuf, Cluster.awaitsControl_alone hc, Cluster.aheadHolds_alone hc]

/-! The start of an entry (R220) -/

theorem Cluster.mem_of_starting {c : Cluster} {e : Engine} {q : QEnt} (h : c.starting e = some q) : q ∈ c.queue := by
  unfold Cluster.starting at h
  split at h
  · exact List.mem_of_find?_eq_some h
  · exact List.mem_of_find?_eq_some h

theorem Cluster.starting_alone {c : Cluster} {q : QEnt} (hc : c.queue = [q]) (hq : q.st = .queued) : c.starting q.eng = some q := by
  unfold Cluster.starting Cluster.nextOf Cluster.firstOf
  split <;> simp [hc, hq]

section
variable {s : State} {n : Fin 32} {q : QEnt}

/-- R220, R303: no entry starts where none of the queue may work. -/
theorem exec_entryStart_idle (h : ∀ q ∈ (s.cluster n.val).queue, s.mayWork n.val q.opid = false) (e : Engine) :
    exec (.entryStart n e) s = .next s := by
  change execEntryStart n e s = _
  unfold execEntryStart
  cases hs : (s.cluster n.val).starting e with
  | none => rfl
  | some q => simp [h q (Cluster.mem_of_starting hs)]

/-- R218: the table of an LTW is written. -/
theorem exec_entryStart_ltw (hc : (s.cluster n.val).queue = [q]) (hq : q.st = .queued) (hm : s.mayWork n.val q.opid = true) {k : Nat} {w : BitVec 1024}
    (hw : q.work = .ltw k w) :
    exec (.entryStart n q.eng) s = .next (s.setCluster n.val
      { s.cluster n.val with loops := Tab.set 0 (s.cluster n.val).loops k w, queue := [{ q with st := .doneWork }] }) := by
  change execEntryStart n q.eng s = _
  simp [execEntryStart, Cluster.starting_alone hc hq, hm, hw, State.startLtw, hc, Cluster.modEnt]

/-- R193: what a stream that starts does first. -/
theorem exec_entryStart_sx (hc : (s.cluster n.val).queue = [q]) (hq : q.st = .queued) (hm : s.mayWork n.val q.opid = true) {e : Engine} (he : q.eng = e)
    {v : BitVec 512} (hw : q.work = .sx v) {u : State} (hu : u = s.setCluster n.val { s.cluster n.val with queue := [{ q with st := .started }] }) :
    exec (.entryStart n e) s = .next (if (SDesc.ofBits v).waitEn then
      if s.isRaised (SDesc.ofBits v).waitSig then (u.setRaised (SDesc.ofBits v).waitSig false).modCluster n.val (fun c => c.takeSig q.tag none)
      else u.modSig (fun g => { g with waiters := g.waiters ++ [((SDesc.ofBits v).waitSig, .stream n.val q.tag)] })
      else u) := by
  have hstart : s.modCluster n.val (fun c => c.modEnt q.tag (fun x => { x with st := .started })) = u := by
    rw [hu, State.modCluster, Cluster.modEnt_alone hc]
  have hraised : u.isRaised (SDesc.ofBits v).waitSig = s.isRaised (SDesc.ofBits v).waitSig := by rw [hu]; rfl
  subst he
  change execEntryStart n q.eng s = _
  simp only [execEntryStart, Cluster.starting_alone hc hq, hm, hw, State.startSx, Cluster.awaitsControl_alone hc, hstart, State.await, hraised,
    Bool.not_true, Bool.false_eq_true, if_false]
  cases (SDesc.ofBits v).waitEn
  · rfl
  · cases s.isRaised (SDesc.ofBits v).waitSig <;> rfl

/-- R344: a stream that finds its signal raised takes it. -/
theorem exec_entryStart_sx_takes (hc : (s.cluster n.val).queue = [q]) (hq : q.st = .queued) (hm : s.mayWork n.val q.opid = true) {e : Engine}
    (he : q.eng = e) {v : BitVec 512} (hw : q.work = .sx v) (hwait : (SDesc.ofBits v).waitEn = true) (hraised : s.isRaised (SDesc.ofBits v).waitSig = true) :
    ∃ t, exec (.entryStart n e) s = .next t ∧ t.isRaised (SDesc.ofBits v).waitSig = false
      ∧ (t.cluster n.val).queue = [{ q with st := .started, sigTaken := true }] ∧ { t with sig := s.sig, clusters := s.clusters } = s := by
  obtain ⟨u, hu⟩ : ∃ u, u = s.setCluster n.val { s.cluster n.val with queue := [{ q with st := .started }] } := ⟨_, rfl⟩
  have hstart := exec_entryStart_sx hc hq hm he hw hu
  rw [if_pos hwait, if_pos hraised] at hstart
  have hcluster : (u.setRaised (SDesc.ofBits v).waitSig false).cluster n.val = { s.cluster n.val with queue := [{ q with st := .started }] } := by
    rw [hu]
    exact State.cluster_setCluster_self s n.val _
  refine ⟨_, hstart, Tab.get_set_self false u.sig.raised _ false, ?_, by rw [hu]; simp only [State.modCluster, State.setCluster, State.setRaised, State.modSig]⟩
  rw [State.cluster_modCluster_self, hcluster]
  simp [Cluster.takeSig]

/-- R344: one that does not waits for it. -/
theorem exec_entryStart_sx_enrols (hc : (s.cluster n.val).queue = [q]) (hq : q.st = .queued) (hm : s.mayWork n.val q.opid = true) {e : Engine}
    (he : q.eng = e) {v : BitVec 512} (hw : q.work = .sx v) (hwait : (SDesc.ofBits v).waitEn = true) (hraised : s.isRaised (SDesc.ofBits v).waitSig = false) :
    ∃ t, exec (.entryStart n e) s = .next t ∧ t.sig.waiters = s.sig.waiters ++ [((SDesc.ofBits v).waitSig, .stream n.val q.tag)]
      ∧ (t.cluster n.val).queue = [{ q with st := .started }] ∧ { t with sig := s.sig, clusters := s.clusters } = s := by
  have hstart := exec_entryStart_sx hc hq hm he hw rfl
  rw [if_pos hwait, if_neg (by rw [hraised]; decide)] at hstart
  exact ⟨_, hstart, rfl, congrArg Cluster.queue (State.cluster_setCluster_self s n.val _), by simp only [State.setCluster, State.modSig]⟩

end

/-! Array entries (R76 to R81) -/

/-- R81: taking the accumulators of a reduction leaves the rest of the cluster. -/
theorem Cluster.takeAccs_eq (c : Cluster) (gang : Nat) : ∃ l, (c.takeAccs gang).2 = { c with accs := l } := by
  unfold Cluster.takeAccs
  split
  · exact ⟨_, rfl⟩
  · exact ⟨c.accs, rfl⟩

/-- R76: passing stationary sets through the registers changes these alone. -/
theorem Cluster.selectStat_eq (c : Cluster) (arrays : List Nat) (t : TileOpds) : ∃ st, c.selectStat arrays t = { c with stationary := st } := by
  unfold Cluster.selectStat
  generalize arrays.zipIdx = l
  induction l generalizing c with
  | nil => exact ⟨c.stationary, rfl⟩
  | cons x l ih =>
    obtain ⟨st, h⟩ := ih (c.modStat x.1 (fun r => (t.statSets x.2).foldl StatRegs.select r))
    exact ⟨st, h⟩

/-- R77: the cuts of an operand hold at most 512 vectors each. -/
theorem le_of_mem_tileCuts {rows : Nat} {cut : Nat × Nat} (h : cut ∈ tileCuts rows) : cut.2 ≤ 512 := by
  obtain ⟨i, -, rfl⟩ := List.mem_map.1 h
  exact Nat.min_le_left _ _

/-- R77: the cuts of an operand hold its vectors. -/
theorem sum_tileCuts (rows : Nat) : ((tileCuts rows).map Prod.snd).sum = rows := by
  have hsum (k : Nat) : ((List.range k).map (fun i => Nat.min 512 (rows - 512 * i))).sum = min (512 * k) rows := by
    induction k with
    | zero => simp
    | succ k ih =>
      rw [List.range_succ, List.map_append, List.sum_append, ih]
      change min (512 * k) rows + (min 512 (rows - 512 * k) + 0) = _
      omega
  rw [tileCuts, List.map_map]
  refine (hsum _).trans (Nat.min_eq_right ?_)
  unfold ceilDiv
  omega

/-- What array tiles joining a cluster leave alone, and what they are: `ts` have joined, each as `P` says. -/
structure Cluster.Joined (c d : Cluster) (P : TileSlot → Prop) (ts : List TileSlot) : Prop where
  tiles : d.tiles = c.tiles ++ ts
  each : ∀ t ∈ ts, P t
  queue : d.queue = c.queue
  spm : d.spm = c.spm

/-- A run of steps, each of which adds one tile of the vectors of its cut. -/
theorem Cluster.joined_foldl {f : Cluster × Nat → Nat × Nat → Cluster × Nat} {P : TileSlot → Prop} {cuts : List (Nat × Nat)}
    (hf : ∀ x : Cluster × Nat, ∀ cut ∈ cuts, ∃ t : TileSlot, x.1.Joined (f x cut).1 P [t] ∧ t.opds.rows.length = cut.2) {rows : Nat}
    (hrows : (cuts.map Prod.snd).sum = rows) (x : Cluster × Nat) :
    ∃ ts, x.1.Joined (cuts.foldl f x).1 P ts ∧ (ts.map (fun t => t.opds.rows.length)).sum = rows := by
  induction cuts generalizing x rows with
  | nil => exact ⟨[], ⟨by simp, by simp, rfl, rfl⟩, hrows⟩
  | cons cut cuts ih =>
    obtain ⟨t, ht, hlen⟩ := hf x cut List.mem_cons_self
    obtain ⟨ts, hts, hsum⟩ := ih (fun x cut h => hf x cut (List.mem_cons_of_mem _ h)) rfl (f x cut)
    refine ⟨t :: ts, ⟨?_, ?_, hts.queue.trans ht.queue, hts.spm.trans ht.spm⟩, by rw [List.map_cons, List.sum_cons, hsum, hlen, ← hrows]; rfl⟩
    · exact hts.tiles.trans (by rw [ht.tiles, List.append_assoc, List.singleton_append])
    · exact List.forall_mem_cons.2 ⟨ht.each t (List.mem_singleton.2 rfl), hts.each⟩

/-- R77, R99: one iteration of an array entry leaves its tiles to await their checks. -/
theorem Cluster.runMx_joined (c : Cluster) (tag : Nat) (ew : Bool) (ds db dO : BitVec 512) (gang pm acc : Nat) (arrays : List Nat) (it : Iter) :
    ∃ ts, c.Joined (c.runMx tag ew ds db dO gang pm acc arrays it).1
        (fun t => t.tag = tag ∧ t.released = false ∧ t.failed = [] ∧ t.arrays = arrays ∧ t.opds.rows.length ≤ 512) ts
      ∧ (ts.map (fun t => t.opds.rows.length)).sum = (TDesc.ofBits db).rows := by
  refine Cluster.joined_foldl (fun x cut hcut => ?_) (sum_tileCuts _) (c, 0)
  generalize hy : (if (TDesc.ofBits dO).loc != 7 || ew || acc ≤ 1 then ((none : Option (List Fl)), x.1) else x.1.takeAccs gang) = y
  have haccs : ∃ l, y.2 = { x.1 with accs := l } := by
    rw [← hy]
    split
    · exact ⟨x.1.accs, rfl⟩
    · exact x.1.takeAccs_eq gang
  obtain ⟨carry, c'⟩ := y
  obtain ⟨l, rfl⟩ := haccs
  dsimp only
  generalize hops : tileOpds { x.1 with accs := l } ew gang pm _ _ _ _ cut.1 cut.2 carry _ = ops
  have hlen : ops.rows.length = cut.2 := by rw [← hops, tileOpds, List.length_map, List.length_range]
  obtain ⟨st, hst⟩ := Cluster.selectStat_eq { x.1 with accs := l } arrays ops
  rw [hst]
  refine ⟨_, ⟨rfl, fun t ht => ?_, rfl, rfl⟩, hlen⟩
  obtain rfl := List.mem_singleton.1 ht
  exact ⟨rfl, rfl, rfl, rfl, hlen.trans_le (le_of_mem_tileCuts hcut)⟩

/-- R442: the count of an operation's first product leaves the clusters, memory and the pairs, and marks the operation. -/
theorem State.firstMac_spec (s : State) (n : Nat) (opid : W32) :
    ∃ h tr, s.firstMac n opid = (s.modHw (fun _ => h)).modTrc (fun _ => tr)
      ∧ ∀ o, s.op opid = some o → (s.firstMac n opid).op opid = some { o with mac := true } := by
  unfold State.firstMac
  cases ho : s.op opid with
  | none => exact ⟨s.hw, s.trc, rfl, fun o h => absurd h (by simp)⟩
  | some o =>
    by_cases hm : o.mac = true
    · refine ⟨s.hw, s.trc, by simp only [hm]; rfl, fun o' h => ?_⟩
      obtain rfl := Option.some.inj h
      simp only [hm, if_true]
      rw [ho, ← hm]
    · obtain ⟨tr, htr⟩ := State.trace_eq (s.setOp { o with mac := true }) 0x02 o.part (BitVec.ofNat 8 n) opid n 0
      simp only [hm, if_false, Bool.false_eq_true, htr]
      refine ⟨_, tr, rfl, fun o' h => ?_⟩
      obtain rfl := Option.some.inj h
      have hid := State.op_opid ho
      exact hid ▸ State.op_setOp (s := s) (o := { o with mac := true }) (y := o) (by rw [hid]; exact ho)

/-- An operation replaced by one of the same tag. -/
theorem State.op_modOp {s : State} {opid : W32} {o : Op} (ho : s.op opid = some o) {f : Op → Op} (hf : (f o).opid = o.opid) :
    (s.modOp opid f).op opid = some (f o) := by
  have hid := State.op_opid ho
  rw [State.modOp, ho]
  exact hid ▸ hf ▸ State.op_setOp (s := s) (o := f o) (y := o) (by rw [hf, hid]; exact ho)

theorem State.modOp_eq (s : State) (opid : W32) (f : Op → Op) : ∃ h, s.modOp opid f = s.modHw (fun _ => h) := by
  unfold State.modOp
  split
  · exact ⟨_, rfl⟩
  · exact ⟨s.hw, rfl⟩

/-- R68, R442: what saturates is counted, and the operation has multiplied; clusters, memory and pairs stay. -/
theorem State.countMac_spec (s : State) (n : Nat) (opid : W32) (sat : Nat) :
    ∃ h tr, (s.modOp opid (fun o => o.count sat 0 0)).firstMac n opid = (s.modHw (fun _ => h)).modTrc (fun _ => tr)
      ∧ ∀ o, s.op opid = some o → ∃ o', ((s.modOp opid (fun o => o.count sat 0 0)).firstMac n opid).op opid = some o' ∧ o'.sat = o.sat + sat ∧ o'.mac = true := by
  obtain ⟨h, hmod⟩ := s.modOp_eq opid (fun o => o.count sat 0 0)
  obtain ⟨h', tr, hmac, hop⟩ := (s.modOp opid (fun o => o.count sat 0 0)).firstMac_spec n opid
  exact ⟨h', tr, by rw [hmac, hmod]; rfl, fun o ho => ⟨_, hop _ (State.op_modOp ho rfl), rfl, rfl⟩⟩

section
variable {s : State} {n : Fin 32} {q : QEnt} {ew : Bool} {ds db dO : BitVec 512} {gang pm acc : Nat} {rlb rls : Bool} {it : Iter}

/-- R220: an array entry of one iteration, with its ranges free, waits while no arrays are. -/
theorem exec_entryStart_mx_waits (hc : (s.cluster n.val).queue = [q]) (hq : q.st = .queued) (hpos : q.pos = 0) (hm : s.mayWork n.val q.opid = true)
    (hw : q.work = .mx ew ds db dO none gang pm acc rlb rls)
    (hits : mxIters (s.cluster n.val) ew gang (TDesc.ofBits ds) (TDesc.ofBits db) none = ([it], none))
    (hacc : (s.cluster n.val).mayAccess (mxRanges (s.cluster n.val) ew gang (TDesc.ofBits ds) (TDesc.ofBits db) [it]) = true)
    (hp : (s.cluster n.val).mxPlace q.tag gang (2 ≤ acc && (TDesc.ofBits dO).loc = 7 && !ew) = none) :
    exec (.entryStart n q.eng) s = .next s := by
  change execEntryStart n q.eng s = _
  have hp' (rs : List Rng) : ((s.cluster n.val).enter q.tag rs).mxPlace q.tag gang (2 ≤ acc && (TDesc.ofBits dO).loc = 7 && !ew) = none := hp
  simp [execEntryStart, Cluster.starting_alone hc hq, hm, hw, State.startMx, hits, hq, hpos, Cluster.mayBegin_alone hc, hacc, MxRun.step, hp']

/-- R79, R99, R220: once it takes its arrays, its tiles await their checks. -/
theorem exec_entryStart_mx_runs (hc : (s.cluster n.val).queue = [q]) (hq : q.st = .queued) (hpos : q.pos = 0) (hm : s.mayWork n.val q.opid = true)
    (hw : q.work = .mx ew ds db dO none gang pm acc rlb rls)
    (hits : mxIters (s.cluster n.val) ew gang (TDesc.ofBits ds) (TDesc.ofBits db) none = ([it], none))
    (hacc : (s.cluster n.val).mayAccess (mxRanges (s.cluster n.val) ew gang (TDesc.ofBits ds) (TDesc.ofBits db) [it]) = true) {arrays : List Nat}
    (hp : (s.cluster n.val).mxPlace q.tag gang (2 ≤ acc && (TDesc.ofBits dO).loc = 7 && !ew) = some arrays) {y : Cluster × Nat}
    (hy : y = ((s.cluster n.val).enter q.tag (mxRanges (s.cluster n.val) ew gang (TDesc.ofBits ds) (TDesc.ofBits db) [it])).runMx q.tag ew ds db dO
      gang pm acc arrays it) :
    exec (.entryStart n q.eng) s = .next (((s.setCluster n.val (y.1.modEnt q.tag (fun x => { x with st := .checking, pos := x.pos + 1 }))).modOp q.opid
      (fun o => o.count y.2 0 0)).firstMac n.val q.opid) := by
  change execEntryStart n q.eng s = _
  have hp' (rs : List Rng) : ((s.cluster n.val).enter q.tag rs).mxPlace q.tag gang (2 ≤ acc && (TDesc.ofBits dO).loc = 7 && !ew) = some arrays := hp
  simp [execEntryStart, Cluster.starting_alone hc hq, hm, hw, State.startMx, hits, hq, hpos, Cluster.mayBegin_alone hc, hacc, MxRun.step, hp',
    Cluster.loadNext, ← hy]

/-- R77, R79, R99: what the start of such an entry leaves. -/
theorem exec_entryStart_mx_spec (hc : (s.cluster n.val).queue = [q]) (hq : q.st = .queued) (hpos : q.pos = 0) (hm : s.mayWork n.val q.opid = true)
    (hw : q.work = .mx ew ds db dO none gang pm acc rlb rls)
    (hits : mxIters (s.cluster n.val) ew gang (TDesc.ofBits ds) (TDesc.ofBits db) none = ([it], none))
    (hacc : (s.cluster n.val).mayAccess (mxRanges (s.cluster n.val) ew gang (TDesc.ofBits ds) (TDesc.ofBits db) [it]) = true) {arrays : List Nat}
    (hp : (s.cluster n.val).mxPlace q.tag gang (2 ≤ acc && (TDesc.ofBits dO).loc = 7 && !ew) = some arrays) {y : Cluster × Nat}
    (hy : y = ((s.cluster n.val).enter q.tag (mxRanges (s.cluster n.val) ew gang (TDesc.ofBits ds) (TDesc.ofBits db) [it])).runMx q.tag ew ds db dO
      gang pm acc arrays it) :
    ∃ t, exec (.entryStart n q.eng) s = .next t ∧ t.cluster n.val = { y.1 with queue := [{ q with st := .checking, pos := 1 }] }
      ∧ (∀ o, s.op q.opid = some o → ∃ o', t.op q.opid = some o' ∧ o'.sat = o.sat + y.2 ∧ o'.mac = true)
      ∧ (∀ j, j ≠ n.val → t.cluster j = s.cluster j) ∧ t.mem = s.mem ∧ t.pairs = s.pairs := by
  have hyq : y.1.queue = [q] := by
    obtain ⟨ts, hts, -⟩ := Cluster.runMx_joined _ q.tag ew ds db dO gang pm acc arrays it
    rw [hy]
    exact hts.queue.trans hc
  have hrun := exec_entryStart_mx_runs hc hq hpos hm hw hits hacc hp hy
  rw [Cluster.modEnt_alone hyq, hpos] at hrun
  obtain ⟨h, tr, he, hop⟩ := (s.setCluster n.val { y.1 with queue := [{ q with st := .checking, pos := 0 + 1 }] }).countMac_spec n.val q.opid y.2
  rw [he] at hrun hop
  exact ⟨_, hrun, State.cluster_setCluster_self _ _ _, hop, fun j hj => State.cluster_setCluster_ne s hj _, rfl, rfl⟩

end

/-! The end of an entry (R221) -/

section
variable {s : State} {n : Fin 32} {q : QEnt}

theorem exec_entryComplete_empty (hc : (s.cluster n.val).queue = []) (e : Engine) : exec (.entryComplete n e) s = .next s := by
  change execEntryComplete n e s = _
  simp [execEntryComplete, hc]

/-- R199, R343: a stream without a signal to raise and without a deadline ends without more. -/
theorem State.streamEnd_quiet (s : State) (q : QEnt) {d : SDesc} (hr : d.raiseEn = false) (ht : d.rt = false) : s.streamEnd q d = s := by
  simp [State.streamEnd, hr, ht]

/-- R238: a program some pair of which has still to end goes on, and so does any other operation. -/
theorem State.progCheck_on {s : State} {opid : W32} (h : ∀ o, s.op opid = some o →
    opcodeOf o.cmd ≠ 0x0F ∨ o.loaded = false ∨ (pairsOf o.clusters).all (fun k => o.ended.getLsbD k) = false) : s.progCheck opid = s := by
  cases ho : s.op opid with
  | none => rw [State.progCheck, ho]
  | some o =>
    have hbit : (fun k => bit o.ended k) = fun k => o.ended.getLsbD k := rfl
    obtain h | h | h := h o ho <;> simp [State.progCheck, ho, h, hbit]

/-- R221: an entry alone in its queue that gives back no slot leaves the queue and the scoreboard. -/
theorem exec_entryComplete_alone (hf : s.fast = true) (hc : (s.cluster n.val).queue = [q]) (hd : (s.cluster n.val).entryDone q = true)
    (hrel : releasesOf q.work = []) (hsx : ∀ v, q.work = .sx v → (SDesc.ofBits v).raiseEn = false ∧ (SDesc.ofBits v).rt = false)
    (hop : ∀ o, s.op q.opid = some o → opcodeOf o.cmd ≠ 0x0F ∨ o.loaded = false ∨ (pairsOf o.clusters).all (fun k => o.ended.getLsbD k) = false) :
    exec (.entryComplete n q.eng) s = .next (s.setCluster n.val
      { s.cluster n.val with queue := [], sb := (s.cluster n.val).sb.filter (fun x => x.tag != q.tag) }) := by
  change execEntryComplete n q.eng s = _
  have hprog (c : Cluster) : (s.setCluster n.val c).progCheck q.opid = s.setCluster n.val c := State.progCheck_on hop
  cases hw : q.work with
  | sx v =>
    obtain ⟨hr, ht⟩ := hsx v hw
    simp [execEntryComplete, hc, hd, hf, hw, releasesOf, State.streamEnd_quiet _ q hr ht, hprog]
  | _ =>
    rw [hw] at hrel
    simp [execEntryComplete, hc, hd, hf, hw, hrel, hprog]

end

/-! The writes of a stream to memory (R189, R193) -/

/-- A fold that puts one element on its list for each of those it takes. -/
theorem length_foldl_cons {α β : Type} {f : List Nat × β → α → List Nat × β} (hf : ∀ a x, (f a x).1.length = a.1.length + 1) (xs : List α)
    (a : List Nat × β) : (xs.foldl f a).1.length = a.1.length + xs.length := by
  induction xs generalizing a with
  | nil => rfl
  | cons x xs ih =>
    rw [List.foldl_cons, ih, hf, List.length_cons]
    omega

/-- R185: a part has a code for each of its elements. -/
theorem State.length_partCodes (s : State) (training : Bool) (c : Cluster) (part : Nat) (xl : List TlbEnt) (inp : List Byte) (d : SDesc)
    (xs : List (Nat × List Nat)) : (s.partCodes training c part xl inp d xs).codes.length = xs.length := by
  unfold State.partCodes
  rw [List.length_reverse, length_foldl_cons (fun a x => ?_), List.length_nil, Nat.zero_add]
  split <;> rfl

theorem length_packCodes (w : Nat) (cs : List Nat) : (packCodes w cs).length = (cs.length * w + 7) / 8 := length_leBytes _ _

theorem SDesc.length_elems (d : SDesc) : (d.elems false 0).length = d.total := by simp [SDesc.elems]

/-- R189: a range that crosses no 512-byte address is one request. -/
theorem requestsOf_one (fuel : Nat) {va n : Nat} (hn : 1 ≤ n) (h : va % 512 + n ≤ 512) : requestsOf (fuel + 2) va n = [(va, n)] := by
  have hk : Nat.min n (512 - va % 512) = n := Nat.min_eq_left (by omega)
  have hn0 : n ≠ 0 := by omega
  simp [requestsOf, cutRange, hn0, hk]

/-- R354: a request joins the port of its address, and no other. -/
theorem State.waiting_pushReq (s : State) (r : Req) : ((s.pushReq r).port (portOf r.pa)).waiting = (s.port (portOf r.pa)).waiting ++ [r] :=
  congrArg Port.waiting (State.port_modPort_self s (portOf r.pa) _)

theorem State.port_pushReq_ne (s : State) (r : Req) {j : Nat} (hj : j ≠ portOf r.pa) : (s.pushReq r).port j = s.port j := State.port_modPort_ne s hj _

/-- R189, R354: the one write of such a range. -/
theorem State.askWrites_one (s : State) (n part tag : Nat) (xl : List TlbEnt) {va : Nat} {bs : List Byte} (hn : 1 ≤ bs.length)
    (h : va % 512 + bs.length ≤ 512) {pa : Nat} (hpa : s.streamPa xl part va = some pa) :
    s.askWrites n part tag va xl bs = (1, s.pushReq ⟨true, part, va, pa, bs.length, .stream n tag 0, false, bs⟩) := by
  simp [State.askWrites, requestsOf_one _ hn h, hpa]

/-- R185: a stream to memory is one part. -/
theorem Cluster.streamParts_toMemory (c : Cluster) {d : SDesc} (hk : d.kind = 1) : c.streamParts d = 1 := by
  simp [Cluster.streamParts, SDesc.toSpm, hk]

/-- R192: where no element overflows, all are good. -/
theorem SDesc.goodElems_all {d : SDesc} {c : Cluster} {slot : Option Nat} {xs : List (Nat × List Nat)} (h : ∀ x ∈ xs, d.overflows c slot x = false) :
    d.goodElems c slot xs = (xs, none) := by
  have htake : xs.takeWhile (fun x => !d.overflows c slot x) = xs := List.takeWhile_eq_self_iff.2 (fun x hx => by simp [h x hx])
  have hfind : xs.find? (d.overflows c slot) = none := List.find?_eq_none.2 (fun x hx => by simp [h x hx])
  rw [SDesc.goodElems, htake, hfind, Option.map_none]

section
variable {s : State} {n : Nat} {q : QEnt} {d : SDesc} {pa : Nat}

/-- R189: the transfer of a stream to memory whose pages serve, within one block of 512 bytes. -/
theorem State.movePart_toMemory (hk : d.kind = 1) (xs : List (Nat × List Nat)) {va len : Nat} (hva : va = d.dstAddr + d.dstHi * 2 ^ 32)
    (hlen : len = (xs.length * streamWidth d.fout + 7) / 8) (hj : (s.judgeRuns q.part true [(va, len)] q.xl).1 = .ok) (hone : 1 ≤ len)
    (hblock : va % 512 + len ≤ 512) (hpa : s.streamPa q.xl q.part va = some pa) :
    ∃ bs f, bs.length = len ∧ s.movePart n q d xs
      = .ok (((s.pushReq ⟨true, q.part, va, pa, len, .stream n q.tag 0, false, bs⟩).modOp q.opid f).partIssued n q d 1) := by
  subst hva
  obtain ⟨r, hr⟩ : ∃ r, s.partCodes (((s.op q.opid).map Op.training).getD false) (s.cluster n) q.part q.xl [] d xs = r := ⟨_, rfl⟩
  have hbs : (packCodes (streamWidth d.fout) r.codes).length = len := by
    rw [length_packCodes, ← hr, State.length_partCodes, hlen]
  obtain ⟨a, hj'⟩ : ∃ a, s.judgeRuns q.part true [(d.dstAddr + d.dstHi * 2 ^ 32, len)] q.xl = (.ok, a) := ⟨_, Prod.ext hj rfl⟩
  have hask := s.askWrites_one n q.part q.tag q.xl (bs := packCodes (streamWidth d.fout) r.codes) (hbs ▸ hone) (hbs ▸ hblock) hpa
  rw [hbs] at hask
  refine ⟨packCodes (streamWidth d.fout) r.codes, fun o => o.count r.sat r.flush 0, hbs, ?_⟩
  simp only [State.movePart, hk, hr, hbs, hj', hask]

/-- R172, R193: the part of a stream to memory that stands alone, with its ranges free and no element out of range, is moved. -/
theorem State.issuePart_toMemory (hc : (s.cluster n).queue = [q]) (hpos : q.pos = 0) (hsb : (s.cluster n).sb = []) (hpoison : (s.cluster n).poisoned = [])
    (hacc : (s.cluster n).mayAccess (streamRanges (s.cluster n) d) = true) (hk : d.kind = 1)
    (hgood : ∀ x ∈ d.elems false 0, d.overflows (s.cluster n) none x = false) :
    s.issuePart n q d = (s.setCluster n ((s.cluster n).enter q.tag (streamRanges (s.cluster n) d))).movePart n q d (d.elems false 0) := by
  have hspm : d.toSpm = false := by simp [SDesc.toSpm, hk]
  have hslot : d.slotOpt (s.cluster n) = none := by simp [SDesc.slotOpt, hspm]
  have hless : s.slotless (s.cluster n) d = false := by simp [State.slotless, hspm, hk]
  have hown (rs : List Rng) : (s.cluster n).ownConflict q.tag rs = false := by simp [Cluster.ownConflict, hsb]
  have hclean (rs : List Rng) : (s.cluster n).poison rs = none := by simp [Cluster.poison, hpoison]
  simp [State.issuePart, hslot, hless, hown, hclean, hpos, hsb, hk, hacc, Cluster.aheadHolds_alone hc, SDesc.goodElems_all hgood]

/-- R193: the stream unit issues the part of a stream that stands alone. -/
theorem State.issueStreams_alone {v : BitVec 512} {t : State} (hst : q.st = .started) (hw : q.work = .sx v) (hwait : (SDesc.ofBits v).waitEn = false)
    (hlink : s.linkFull = false) (hbad : q.bad = none) (hhold : q.hold = []) (hpos : q.pos = 0) (hk : (SDesc.ofBits v).kind = 1)
    (hm : s.mayWork n q.opid = true) (hi : s.issuePart n q (SDesc.ofBits v) = .ok t) : s.issueStreams n [q] = t := by
  simp [State.issueStreams, hw, hst, hwait, hlink, hbad, hhold, hpos, Cluster.streamParts_toMemory _ hk, hm, hi]

/-- R174, R193: a part counts as issued in its entry alone. -/
theorem State.partIssued_alone (hc : (s.cluster n).queue = [q]) (d : SDesc) (left : Nat) :
    ∃ c, s.partIssued n q d left = s.setCluster n c ∧ c.queue = [{ q with pos := q.pos + 1, left := q.left + left }] := by
  refine ⟨_, rfl, ?_⟩
  simp only [Cluster.modEnt_alone hc]
  split <;> rfl

/-- R189, R193: a stream to memory that stands alone issues its write and counts as issued. -/
theorem exec_streamIssue_toMemory {n : Fin 32} {v : BitVec 512} (hm : s.mayWork n.val q.opid = true) (hc : (s.cluster n.val).queue = [q])
    (heng : q.eng = .stream) (hst : q.st = .started) (hw : q.work = .sx v) (hpos : q.pos = 0) (hhold : q.hold = []) (hbad : q.bad = none)
    (hlink : s.linkFull = false) (hpoison : (s.cluster n.val).poisoned = []) (hsb : (s.cluster n.val).sb = [])
    (hacc : (s.cluster n.val).mayAccess (streamRanges (s.cluster n.val) (SDesc.ofBits v)) = true) (hk : (SDesc.ofBits v).kind = 1)
    (hwait : (SDesc.ofBits v).waitEn = false) (hgood : ∀ x ∈ (SDesc.ofBits v).elems false 0, (SDesc.ofBits v).overflows (s.cluster n.val) none x = false)
    {va len : Nat} (hva : va = (SDesc.ofBits v).dstAddr + (SDesc.ofBits v).dstHi * 2 ^ 32)
    (hlen : len = ((SDesc.ofBits v).total * streamWidth (SDesc.ofBits v).fout + 7) / 8) (hj : (s.judgeRuns q.part true [(va, len)] q.xl).1 = .ok)
    (hblock : va % 512 + len ≤ 512) (hone : 1 ≤ len) (hpa : s.streamPa q.xl q.part va = some pa) :
    ∃ t r, exec (.streamIssue n) s = .next t ∧ r = ⟨true, q.part, va, pa, len, .stream n.val q.tag 0, false, r.data⟩ ∧ r.data.length = len
      ∧ (t.port (portOf pa)).waiting = (s.port (portOf pa)).waiting ++ [r] ∧ (∀ j, j ≠ portOf pa → t.port j = s.port j)
      ∧ (t.cluster n.val).queue = [{ q with pos := 1, left := q.left + 1 }] ∧ (∀ j, j ≠ n.val → t.cluster j = s.cluster j) ∧ t.mem = s.mem := by
  obtain ⟨u, hu⟩ : ∃ u, u = s.setCluster n.val ((s.cluster n.val).enter q.tag (streamRanges (s.cluster n.val) (SDesc.ofBits v))) := ⟨_, rfl⟩
  have hother {j : Nat} (hne : j ≠ n.val) : u.cluster j = s.cluster j := by rw [hu, State.cluster_setCluster_ne _ hne]
  have huq : (u.cluster n.val).queue = [q] := by
    rw [hu, State.cluster_setCluster_self]
    exact hc
  have hports : u.ports = s.ports := by rw [hu, State.setCluster]
  have hmem : u.mem = s.mem := by rw [hu, State.setCluster]
  obtain ⟨bs, f, hbs, hmove⟩ := State.movePart_toMemory (s := u) (n := n.val) hk ((SDesc.ofBits v).elems false 0) hva
    (by rw [SDesc.length_elems]; exact hlen) (by rw [hu]; exact hj) hone hblock (by rw [hu]; exact hpa)
  obtain ⟨r, hr⟩ : ∃ r : Req, r = ⟨true, q.part, va, pa, len, .stream n.val q.tag 0, false, bs⟩ := ⟨_, rfl⟩
  obtain ⟨h, hmod⟩ := State.modOp_eq (u.pushReq r) q.opid f
  obtain ⟨c, hissued, hcq⟩ := State.partIssued_alone (s := (u.pushReq r).modHw (fun _ => h)) (n := n.val) huq (SDesc.ofBits v) 1
  have hi : s.issuePart n.val q (SDesc.ofBits v) = .ok (((u.pushReq r).modHw (fun _ => h)).setCluster n.val c) := by
    rw [State.issuePart_toMemory hc hpos hsb hpoison hacc hk hgood, ← hu, hmove, ← hr, hmod, hissued]
  have hrun := State.issueStreams_alone hst hw hwait hlink hbad hhold hpos hk hm hi
  have hfilter : (s.cluster n.val).queue.filter (fun e => e.eng = .stream) = [q] := by simp [hc, heng]
  have hport (j : Nat) : (((u.pushReq r).modHw (fun _ => h)).setCluster n.val c).port j = (u.pushReq r).port j := rfl
  have hsame (j : Nat) : u.port j = s.port j := by rw [State.port, State.port, hports]
  have hpa' : r.pa = pa := by rw [hr]
  refine ⟨((u.pushReq r).modHw (fun _ => h)).setCluster n.val c, r, ?_, by rw [hr], by rw [hr]; exact hbs, ?_, fun j hne => ?_, ?_, fun j hne => ?_, hmem⟩
  · change Host.Outcome.next (s.issueStreams n.val _) = _
    rw [hfilter, hrun]
  · rw [hport, ← hpa', State.waiting_pushReq, hsame]
  · rw [hport, State.port_pushReq_ne u r (hpa' ▸ hne), hsame]
  · rw [State.cluster_setCluster_self, hcq, hpos]
  · rw [State.cluster_setCluster_ne _ hne]
    exact hother hne

end

/-- Settles O58: each kind of entry by what its start, its end or its issue does where it stands alone in its queue. -/
theorem entriesStartAndEnd : Obligations.EntriesStartAndEnd := by
  unfold Obligations.EntriesStartAndEnd
  intro s n q c may first
  refine ⟨fun e hc _ hm => ?_, fun e hc => ⟨?_, exec_entryComplete_empty hc e⟩, fun k w hmay he hw => ?_, fun v hmay he hw => ?_, ?_,
    fun e hf hc he hd hrel hsx hop => ?_, ?_⟩
  · refine exec_entryStart_idle (fun x hx => ?_) e
    obtain rfl := List.mem_singleton.1 (hc ▸ hx)
    exact hm
  · exact exec_entryStart_idle (fun x hx => absurd (hc ▸ hx) List.not_mem_nil) e
  · obtain ⟨hc, hq, hm⟩ := hmay
    exact ⟨_, he ▸ exec_entryStart_ltw hc hq hm hw, State.setCluster_only _ _ _⟩
  · obtain ⟨hc, hq, hm⟩ := hmay
    refine ⟨fun hwait => ?_, exec_entryStart_sx_takes hc hq hm he hw, exec_entryStart_sx_enrols hc hq hm he hw⟩
    have hstart := exec_entryStart_sx hc hq hm he hw rfl
    rw [if_neg (by rw [hwait]; decide)] at hstart
    exact ⟨_, hstart, State.setCluster_only _ _ _⟩
  · intro ew ds db dO gang pm acc rlb rls hmay hpos he hw hits rs place hacc
    obtain ⟨hc, hq, hm⟩ := hmay
    refine ⟨fun hp => he ▸ exec_entryStart_mx_waits hc hq hpos hm hw hits hacc hp, fun arrays hp => ?_⟩
    obtain ⟨t, hstart, hself, hop, hother, hmem, hpairs⟩ := exec_entryStart_mx_spec hc hq hpos hm hw hits hacc hp rfl
    obtain ⟨xs, hxs, hsum⟩ := (c.enter q.tag rs).runMx_joined q.tag ew ds db dO gang pm acc arrays first
    refine ⟨t, xs, he ▸ hstart, by rw [hself], by rw [hself]; exact hxs.tiles, fun x hx => ?_, hsum, ⟨_, rfl, by rw [hself], hop⟩,
      by rw [hself]; exact hxs.spm, hother, hmem, hpairs⟩
    exact hxs.each x hx
  · exact ⟨_, he ▸ exec_entryComplete_alone hf hc hd hrel hsx hop, State.setCluster_only _ _ _⟩
  · intro v o _ hm hc heng hst hw hpos hhold hbad hlink hpoison hsb hacc d xs hk hwait hgood va len hva hlen hj hblock hone pa hpa
    obtain ⟨t, r, he, hr, hdata, hport, hports, hqueue, hclusters, hmem⟩ := exec_streamIssue_toMemory hm hc heng hst hw hpos hhold hbad hlink hpoison hsb
      hacc hk hwait hgood hva hlen hj hblock hone hpa
    rw [hr] at hport
    exact ⟨t, _, he, hport, rfl, rfl, rfl, rfl, rfl, rfl, hdata, hqueue, hmem, hports, hclusters⟩

end Sys2Proof.Machine
end

section
/-! SUPPORT. Shares and clocks (R303, R347, R372, R378): sets of clusters as words, what a clock's start and stop change, and what a grant, a
loan and the end of a recall leave. -/

namespace Sys2Proof.Machine

/-! Sets of clusters -/

theorem getLsbD_oneHot {w : Nat} (i : Nat) {k : Nat} (hk : k < w) : (oneHot w i).getLsbD k = decide (k = i) := by
  rw [oneHot, ← BitVec.twoPow_eq, BitVec.getLsbD_twoPow]
  by_cases h : k = i
  · simp [h, h ▸ hk]
  · simp [h, Ne.symm h]

theorem getLsbD_foldl_oneHot {w : Nat} (ns : List Nat) (m : BitVec w) {k : Nat} (hk : k < w) :
    (ns.foldl (fun m n => m ||| oneHot w n) m).getLsbD k = (m.getLsbD k || decide (k ∈ ns)) := by
  induction ns generalizing m with
  | nil => simp
  | cons n ns ih =>
    rw [List.foldl_cons, ih, BitVec.getLsbD_or, getLsbD_oneHot n hk, Bool.or_assoc, ← Bool.decide_or]
    simp only [List.mem_cons]

theorem getLsbD_putBit_false {w : Nat} (m : BitVec w) (i : Nat) {k : Nat} (hk : k < w) :
    (putBit m i false).getLsbD k = (m.getLsbD k && decide (k ≠ i)) := by
  change (m &&& ~~~(oneHot w i)).getLsbD k = _
  simp only [BitVec.getLsbD_and, BitVec.getLsbD_not, hk, decide_true, Bool.true_and, getLsbD_oneHot i hk, decide_not]

theorem mem_setList {w : Nat} {m : BitVec w} {k : Nat} (hk : k < w) : k ∈ setList m ↔ m.getLsbD k = true := by
  simp [setList, hk]

theorem nodup_setList {w : Nat} (m : BitVec w) : (setList m).Nodup := List.nodup_range.filter _

/-- The clusters of a word that pair `sp` drives (R203). -/
def pairClusters (m : BitVec 32) (sp : Nat) : List Nat := (setList m).filter (fun n => n / 4 = sp)

theorem mem_pairClusters {m : BitVec 32} {sp k : Nat} (hk : k < 32) : k ∈ pairClusters m sp ↔ m.getLsbD k = true ∧ k / 4 = sp := by
  simp [pairClusters, mem_setList hk]

theorem pairClusters_lt {m : BitVec 32} {sp k : Nat} (h : k ∈ pairClusters m sp) : k < 32 :=
  List.mem_range.1 (List.mem_filter.1 (List.mem_filter.1 h).1).1

/-- R203: a pair drives four clusters. -/
theorem length_pairClusters_le (m : BitVec 32) (sp : Nat) : (pairClusters m sp).length ≤ 4 := by
  have hsub : pairClusters m sp ⊆ List.range' (4 * sp) 4 := by
    intro k hk
    have hd : k / 4 = sp := by simpa using (List.mem_filter.1 hk).2
    exact List.mem_range'_1.2 (by omega)
  exact ((nodup_setList m).filter _ |>.subperm hsub).length_le

/-- The mask of a pair's clusters in a word. -/
theorem getLsbD_clusterMask (m : BitVec 32) (sp : Nat) {k : Nat} (hk : k < 32) :
    (clusterMask (pairClusters m sp)).getLsbD k = (m.getLsbD k && decide (k / 4 = sp)) := by
  rw [clusterMask, getLsbD_foldl_oneHot _ _ hk, decide_eq_decide.2 (mem_pairClusters hk), Bool.decide_and, Bool.decide_eq_true]
  simp

/-! Cluster clocks (R372) -/

/-- Asking for clocks changes the clock unit alone. -/
theorem State.requestClocks_eq (ns : List Nat) (s : State) : ∃ c, ns.foldl State.requestClock s = s.modClk (fun _ => c) := by
  induction ns generalizing s with
  | nil => exact ⟨s.clk, rfl⟩
  | cons n ns ih =>
    obtain ⟨c, hc⟩ := ih (s.requestClock n)
    refine ⟨c, hc.trans ?_⟩
    unfold State.requestClock
    split <;> rfl

/-- R372: the start of a clock that is off is requested. -/
theorem State.startReq_requestClock {s : State} {n : Nat} (hoff : s.clk.clkOn.getLsbD n = false) (hn : n < 32) :
    (s.requestClock n).clk.startReq.getLsbD n = true := by
  rw [State.requestClock, if_neg (by rw [bit, hoff]; decide)]
  simp [getLsbD_oneHot n hn]

theorem State.trace_off {s : State} (h : s.trc.enable = false) (type part : Nat) (unit : Byte) (opid : W32) (a0 a1 : Nat) :
    s.trace type part unit opid a0 a1 = s := by
  simp [State.trace, State.traceAt, h]

/-- R372: with tracing off, a stopped clock changes the clock unit alone, and is off. -/
theorem State.stopClock_eq {s : State} (h : s.trc.enable = false) (n : Nat) :
    ∃ c, s.stopClock n = s.modClk (fun _ => c) ∧ ∀ k, k < 32 → c.clkOn.getLsbD k = (s.clk.clkOn.getLsbD k && decide (k ≠ n)) := by
  unfold State.stopClock
  by_cases hon : s.clk.clkOn.getLsbD n = true
  · simp only [bit, hon, Bool.not_true, Bool.false_eq_true, if_false, State.trace_off (s := s.modClk _) h]
    exact ⟨_, rfl, fun k hk => getLsbD_putBit_false _ n hk⟩
  · simp only [bit, hon, Bool.not_false, if_true]
    refine ⟨_, rfl, fun k hk => ?_⟩
    by_cases hkn : k = n
    · simp [hkn, hon]
    · simp [hkn]

theorem State.stopClocks_eq (ns : List Nat) {s : State} (h : s.trc.enable = false) :
    ∃ c, ns.foldl State.stopClock s = s.modClk (fun _ => c) ∧ ∀ k, k < 32 → c.clkOn.getLsbD k = (s.clk.clkOn.getLsbD k && !decide (k ∈ ns)) := by
  induction ns generalizing s with
  | nil => exact ⟨s.clk, rfl, by simp⟩
  | cons n ns ih =>
    obtain ⟨c, hc, hbits⟩ := State.stopClock_eq h n
    obtain ⟨c', hc', hbits'⟩ := ih (s := s.modClk (fun _ => c)) h
    refine ⟨c', by rw [List.foldl_cons, hc, hc']; rfl, fun k hk => ?_⟩
    rw [hbits' k hk, State.modClk_clk, hbits k hk]
    by_cases hkn : k = n <;> simp [hkn]

/-! Operations -/

theorem State.op_of_hw {s t : State} (h : t.hw = s.hw) (i : W32) : t.op i = s.op i := by rw [State.op, State.op, h]

/-- Replacing an operation leaves those of other tags. -/
theorem Op.find_replaced_ne {l : List Op} {o : Op} {i : W32} (h : i ≠ o.opid) :
    (l.map (fun x => if x.opid = o.opid then o else x)).find? (fun x => x.opid = i) = l.find? (fun x => x.opid = i) := by
  induction l with
  | nil => rfl
  | cons z l ih =>
    by_cases hz : z.opid = o.opid
    · simpa [hz, Ne.symm h] using ih
    · rw [List.map_cons, if_neg hz, List.find?_cons, List.find?_cons, ih]

theorem State.op_setOp_ne (s : State) {o : Op} {i : W32} (h : i ≠ o.opid) : (s.setOp o).op i = s.op i := Op.find_replaced_ne h

/-- R361: an operation with no output to send, not yet done, that neither appends nor runs backward, does nothing by itself. -/
def Op.Idle (o : Op) : Prop := o.fin = false ∧ o.outq = [] ∧ opcodeOf o.cmd ≠ 0x04 ∧ opcodeOf o.cmd ≠ 0x06

theorem State.progress_idle {s : State} {i : W32} (h : ∀ o, s.op i = some o → o.Idle) : s.progress i = s := by
  unfold State.progress
  cases ho : s.op i with
  | none => rfl
  | some o =>
    obtain ⟨-, -, happend, hbwd⟩ := h o ho
    dsimp only
    split
    · rfl
    · split
      · exact absurd ‹_› happend
      · exact absurd ‹_› hbwd
      · rfl

theorem State.drainOut_idle {s : State} {i : W32} (h : ∀ o, s.op i = some o → o.Idle) : s.drainOut i = s := by
  unfold State.drainOut
  cases ho : s.op i with
  | none => rfl
  | some o =>
    obtain ⟨hfin, hout, -, -⟩ := h o ho
    have hsend : s.sendTiles (o.outq.length + 1) i = s := by simp [State.sendTiles, ho, hout]
    simp [hsend, ho, hfin]

/-- R361: where every operation is idle, none goes on. -/
theorem State.progressAll_idle {s : State} (h : ∀ o ∈ s.hw.ops, o.Idle) : s.progressAll = s := by
  have hidle : ∀ i o, s.op i = some o → o.Idle := fun i o ho => h o (List.mem_of_find?_eq_some ho)
  unfold State.progressAll
  generalize s.hw.ops.map (fun o => o.opid) = is
  induction is with
  | nil => rfl
  | cons i is ih => rw [List.foldl_cons, State.progress_idle (hidle i), State.drainOut_idle (hidle i), ih]

/-! The grant of a share (R303) -/

theorem State.wanting_cons {s : State} {o : Op} {n : Nat} {ns : List Nat} (h : s.wanting o = n :: ns) :
    (setList (o.clusters &&& ~~~o.shares &&& ~~~o.lent)).filter s.inService = n :: ns := by
  unfold State.wanting at h
  split at h
  · exact h
  · exact absurd h (by simp)

/-- R303, R372: one share goes to the lowest cluster that wants it, whose clock is asked for. -/
theorem State.grantShares_one {s : State} {o : Op} {n : Nat} {ns : List Nat} (h : s.wanting o = n :: ns) :
    s.grantShares o 1 = ((s.setOp { o with shares := o.shares ||| oneHot 32 n }).requestClock n).modWeir
      (fun w => { w with prewoken := w.prewoken &&& ~~~(o.shares ||| oneHot 32 n) }) := by
  simp only [State.grantShares, State.wanting_cons h, List.take_succ_cons, List.take_zero, List.foldl_cons, List.foldl_nil]

/-- Replacing an operation by an idle one leaves idle operations. -/
theorem State.idle_setOp {s : State} (h : ∀ y ∈ s.hw.ops, y.Idle) {o : Op} (ho : o.Idle) : ∀ y ∈ (s.setOp o).hw.ops, y.Idle := by
  intro y hy
  obtain ⟨x, hx, rfl⟩ := List.mem_map.1 hy
  split
  · exact ho
  · exact h x hx

/-- What the grant of a share to `o` makes of `s`, with the turn that it counts in (R303). -/
def State.granted (s : State) (o : Op) (turn : Option (Nat × Nat)) : State :=
  match turn with
  | some t => (s.grantShares o 1).modWeir (fun w => { w with rr := t.1, pfCount := t.2 })
  | none => s.grantShares o 1

/-- R303: the grant reaches operations, the clock unit and Weir only. -/
theorem State.granted_eq {s : State} {o : Op} {n : Nat} {ns : List Nat} (h : s.wanting o = n :: ns) (turn : Option (Nat × Nat)) :
    ∃ w, s.granted o turn = ((s.setOp { o with shares := o.shares ||| oneHot 32 n }).requestClock n).modWeir (fun _ => w)
      ∧ ∀ p c, turn = some (p, c) → w.rr = p ∧ w.pfCount = c := by
  unfold State.granted
  rw [State.grantShares_one h]
  cases turn with
  | none => exact ⟨_, rfl, fun p c h => absurd h (by simp)⟩
  | some x =>
    refine ⟨_, rfl, fun p c h => ?_⟩
    obtain rfl := Option.some.inj h
    exact ⟨rfl, rfl⟩

theorem exec_shareGrant {s : State} {o : Op} {turn : Option (Nat × Nat)} (hf : s.fast = true) (hg : s.nextGrant = some (o, turn))
    (hp : s.swapPause = false) : exec .shareGrant s = .next (s.granted o turn).progressAll := by
  change execShareGrant s = _
  rw [execShareGrant, hg, hf, hp]
  rfl

/-- R303, R361: the grant where no operation can go on by itself. -/
theorem exec_shareGrant_idle {s : State} {o : Op} {n : Nat} {ns : List Nat} {turn : Option (Nat × Nat)} (hf : s.fast = true)
    (hg : s.nextGrant = some (o, turn)) (hp : s.swapPause = false) (hw : s.wanting o = n :: ns) (ho : s.op o.opid = some o)
    (hidle : ∀ y ∈ s.hw.ops, y.Idle) :
    ∃ c w, exec .shareGrant s = .next (((s.setOp { o with shares := o.shares ||| oneHot 32 n }).modClk (fun _ => c)).modWeir (fun _ => w))
      ∧ (s.clk.clkOn.getLsbD n = false → n < 32 → c.startReq.getLsbD n = true) ∧ ∀ p k, turn = some (p, k) → w.rr = p ∧ w.pfCount = k := by
  obtain ⟨w, heq, hturn⟩ := State.granted_eq hw turn
  obtain ⟨c, hclk⟩ := (s.setOp { o with shares := o.shares ||| oneHot 32 n }).requestClocks_eq [n]
  rw [List.foldl_cons, List.foldl_nil] at hclk
  have hrun := State.progressAll_idle (s := s.granted o turn) (fun y hy => by
    rw [heq, hclk] at hy
    have hidle' : Op.Idle { o with shares := o.shares ||| oneHot 32 n } := hidle o (List.mem_of_find?_eq_some ho)
    exact State.idle_setOp hidle hidle' y hy)
  refine ⟨c, w, by rw [exec_shareGrant hf hg hp, hrun, heq, hclk], fun hoff hn => ?_, hturn⟩
  have hreq := State.startReq_requestClock (s := s.setOp { o with shares := o.shares ||| oneHot 32 n }) hoff hn
  rwa [hclk] at hreq

/-! Lending (R347, R378) -/

/-- The shares of pair `sp`'s clusters lent (R347). -/
def Op.lending (o : Op) (sp : Nat) : Op :=
  { o with shares := o.shares &&& ~~~clusterMask (pairClusters o.shares sp), lent := o.lent ||| clusterMask (pairClusters o.shares sp) }

/-- The shares of pair `sp`'s clusters back (R347). -/
def Op.recalling (o : Op) (sp : Nat) : Op :=
  { o with lent := o.lent &&& ~~~clusterMask (pairClusters o.lent sp), shares := o.shares ||| clusterMask (pairClusters o.lent sp) }

/-- A word without the clusters of pair `sp`. -/
theorem getLsbD_without_pair (m : BitVec 32) (sp : Nat) {k : Nat} (hk : k < 32) :
    (m &&& ~~~clusterMask (pairClusters m sp)).getLsbD k = (m.getLsbD k && decide (k / 4 ≠ sp)) := by
  rw [BitVec.getLsbD_and, BitVec.getLsbD_not, getLsbD_clusterMask m sp hk]
  cases m.getLsbD k <;> simp [hk]

theorem getLsbD_with_pair (m a : BitVec 32) (sp : Nat) {k : Nat} (hk : k < 32) :
    (a ||| clusterMask (pairClusters m sp)).getLsbD k = (a.getLsbD k || (m.getLsbD k && decide (k / 4 = sp))) := by
  rw [BitVec.getLsbD_or, getLsbD_clusterMask m sp hk]

/-- R376: a message of the power manager, as a number. -/
theorem toNat_pmWord {type count : Nat} (ht : type < 16) (hc : count < 256) (part : Nat) :
    (pmWord type part count 0).toNat = type * 2 ^ 28 + part % 16 * 2 ^ 24 + count * 2 ^ 16 := by
  rw [pmWord, BitVec.toNat_ofNat, Nat.mod_eq_of_lt hc, Nat.zero_mod, Nat.add_zero]
  exact Nat.mod_eq_of_lt (by omega)

/-- R376: the type and the count of such a message. -/
theorem pmWord_type {type count : Nat} (ht : type < 16) (hc : count < 256) (part : Nat) :
    ((pmWord type part count 0).extractLsb' 28 4).toNat = type := by
  rw [BitVec.extractLsb'_toNat, toNat_pmWord ht hc, Nat.shiftRight_eq_div_pow]
  omega

theorem pmWord_count {type count : Nat} (ht : type < 16) (hc : count < 256) (part : Nat) :
    ((pmWord type part count 0).extractLsb' 16 8).toNat = count := by
  rw [BitVec.extractLsb'_toNat, toNat_pmWord ht hc, Nat.shiftRight_eq_div_pow]
  omega
/-- R347: nothing is lent while a tile on the pair's clusters is being checked (R100). -/
theorem exec_lend_checking {s : State} {sp : Fin 8} {o : Op} {w : SwaitSt} (hf : s.fast = true) (hw : (s.pair sp.val).swait = some w)
    (hop : (s.pair sp.val).op.bind s.op = some o)
    (hc : ∃ n ∈ pairClusters o.shares sp.val, (s.cluster n).checking = true) : exec (.lend sp) s = .next s := by
  obtain ⟨n, hn, hc⟩ := hc
  obtain ⟨hmem, hd⟩ := List.mem_filter.1 hn
  have hany : (setList o.shares).any (fun n => n / 4 = sp.val && (s.cluster n).checking) = true :=
    List.any_eq_true.2 ⟨n, hmem, by rw [hd, hc]; rfl⟩
  change execLend sp s = _
  simp only [execLend, hw, hop, hf, hany, Bool.or_true, if_true]

theorem exec_lend {s : State} {sp : Fin 8} {o : Op} {w : SwaitSt} (hf : s.fast = true) (hw : (s.pair sp.val).swait = some w) (hl : w.lent = false)
    (hop : (s.pair sp.val).op.bind s.op = some o) (hthr : s.cfg.active.lendThr (s.pair sp.val).part ≠ 0) (hmine : pairClusters o.shares sp.val ≠ [])
    (hc : ∀ n ∈ pairClusters o.shares sp.val, (s.cluster n).checking = false) : exec (.lend sp) s = .next (s.lendPair sp.val o w) := by
  have hempty : ((setList o.shares).filter (fun n => n / 4 = sp.val)).isEmpty = false :=
    List.isEmpty_eq_false_iff.2 hmine
  have hany : (setList o.shares).any (fun n => n / 4 = sp.val && (s.cluster n).checking) = false := by
    refine List.any_eq_false.2 (fun n hn => ?_)
    by_cases hd : n / 4 = sp.val
    · simp [hd, hc n (List.mem_filter.2 ⟨hn, by simpa using hd⟩)]
    · simp [hd]
  change execLend sp s = _
  simp only [execLend, hw, hop, hf, hl, hthr, hempty, hany, decide_false, Bool.or_false, Bool.false_eq_true, if_false]

/-- Weir's counts of `k` shares of partition `p` lent at once (R347). -/
def Weir.lendCounted (v : Weir) (p k : Nat) : Weir :=
  { v with lent := Tab.set 0 v.lent p (Tab.get 0 v.lent p + k), lends := Tab.set 0 v.lends p (bumpTo 0xFFFFFFFF (Tab.get 0 v.lends p)) }

/-- R347: the pair whose shares are lent while its SWAIT `w` goes on. -/
def Pair.lendFor (x : Pair) (w : SwaitSt) : Pair := { x with lent := true, swait := some { w with lent := true } }

theorem State.lendPair_steps (s : State) (sp : Nat) (o : Op) (w : SwaitSt) :
    s.lendPair sp o w = (((((pairClusters o.shares sp).foldl State.stopClock (s.setOp (o.lending sp))).pmOut 0x9 o.part
        (pairClusters o.shares sp).length 0).trace 0x0B o.part (BitVec.ofNat 8 (0x40 + sp)) o.opid 0 (pairClusters o.shares sp).length).modWeir
        (fun v => v.lendCounted o.part (pairClusters o.shares sp).length)).setPair sp ((s.pair sp).lendFor w) :=
  rfl

/-- R347: what lending changes: the operation, the clocks of the pair's clusters, which stop, the message, Weir's counts and the pair. -/
theorem State.lendPair_eq {s : State} {o : Op} (sp : Nat) (w : SwaitSt) (htrc : s.trc.enable = false) :
    ∃ c, s.lendPair sp o w = ((((s.setOp (o.lending sp)).modClk (fun _ => c)).pmOut 0x9 o.part (pairClusters o.shares sp).length 0).modWeir
        (fun v => v.lendCounted o.part (pairClusters o.shares sp).length)).setPair sp ((s.pair sp).lendFor w)
      ∧ ∀ k, k < 32 → c.clkOn.getLsbD k = (s.clk.clkOn.getLsbD k && !(o.shares.getLsbD k && decide (k / 4 = sp))) := by
  obtain ⟨c, hc, hbits⟩ := State.stopClocks_eq (pairClusters o.shares sp) (s := s.setOp (o.lending sp)) htrc
  refine ⟨c, by rw [State.lendPair_steps, hc, State.trace_off (by exact htrc)], fun k hk => ?_⟩
  rw [hbits k hk, decide_eq_decide.2 (mem_pairClusters hk), Bool.decide_and, Bool.decide_eq_true]
  rfl

/-! The end of a recall (R347, R378) -/

/-- R347: once all the lent shares of the pair are back, none is left. -/
theorem pairClusters_without_pair (m : BitVec 32) (sp : Nat) : pairClusters (m &&& ~~~clusterMask (pairClusters m sp)) sp = [] := by
  refine List.eq_nil_iff_forall_not_mem.2 (fun k hk => ?_)
  have hlt := pairClusters_lt hk
  obtain ⟨hbit, hpair⟩ := (mem_pairClusters hlt).1 hk
  rw [getLsbD_without_pair m sp hlt] at hbit
  simp [hpair] at hbit

/-- R347: Weir's loans of pair `sp` of `k` shares of partition `p` have come back. -/
def Weir.returned (v : Weir) (sp p k : Nat) : Weir :=
  { v with lent := Tab.set 0 v.lent p (Tab.get 0 v.lent p - k), recalls := v.recalls.filter (· != sp) }

/-- R347: a pair whose loan has ended. -/
def Pair.unlent (x : Pair) : Pair := { x with lent := false, recalled := false, st := if x.st = .waitRecall then .running else x.st }

/-- R347: four shares taken back are all that a pair has lent. -/
theorem State.takeBack_all {s : State} {sp : Nat} {o : Op} (hop : (s.pair sp).op.bind s.op = some o) :
    ∃ c, s.takeBack sp 4 = (((s.setOp (o.recalling sp)).modClk (fun _ => c)).modWeir
      (fun v => v.returned sp o.part (pairClusters o.lent sp).length)).setPair sp (s.pair sp).unlent := by
  obtain ⟨c, hc⟩ := State.requestClocks_eq (pairClusters o.lent sp) (s.setOp (o.recalling sp))
  have htake : (lentOf o sp).take 4 = pairClusters o.lent sp := List.take_of_length_le (length_pairClusters_le o.lent sp)
  have hleft : (lentOf (o.recalling sp) sp).isEmpty = true := List.isEmpty_iff.2 (pairClusters_without_pair o.lent sp)
  refine ⟨c, ?_⟩
  rw [State.takeBack, hop]
  dsimp only
  rw [htake]
  change (if !(lentOf (o.recalling sp) sp).isEmpty then (_ : State) else _) = _
  rw [hleft]
  change (((((pairClusters o.lent sp).foldl State.requestClock (s.setOp (o.recalling sp))).modWeir _).modWeir _).setPair sp _) = _
  rw [hc]
  rfl

theorem exec_recallExpiry {s : State} {sp : Fin 8} (hf : s.fast = true) (hr : sp.val ∈ s.weir.recalls) :
    exec (.recallExpiry sp) s = .next (s.takeBack sp.val 4) := by
  change execRecallExpiry sp s = _
  rw [execRecallExpiry, hf, List.contains_iff_mem.2 hr]
  rfl

/-- Settles O47: the grant, the loan and the end of the recall, each by what it leaves of the operations, the clocks, Weir and the pairs. -/
theorem sharesAndLending : Obligations.SharesAndLending := by
  unfold Obligations.SharesAndLending
  intro s sp o hf ho mine x
  refine ⟨fun n ns turn hg hp hw hidle => ?_, fun w hw hl hop hthr hmine htrc => ⟨fun hc => ?_, fun hc => ?_⟩, fun hr hop => ?_⟩
  · obtain ⟨c, v, he, hclk, hturn⟩ := exec_shareGrant_idle hf hg hp hw ho hidle
    refine ⟨_, o.shares ||| oneHot 32 n, he, State.op_setOp (o := { o with shares := o.shares ||| oneHot 32 n }) ho, fun k hk => ?_,
      fun i hi => State.op_setOp_ne s (o := { o with shares := o.shares ||| oneHot 32 n }) hi, hclk, hturn, rfl, rfl⟩
    rw [BitVec.getLsbD_or, getLsbD_oneHot n hk]
  · exact exec_lend_checking hf hw (by rw [hop]; exact ho) hc
  · obtain ⟨c, he, hbits⟩ := State.lendPair_eq (s := s) (o := o) sp.val w htrc
    have hcount : (pairClusters o.shares sp.val).length < 256 := (length_pairClusters_le o.shares sp.val).trans_lt (by decide)
    have hexec := exec_lend hf hw hl (by rw [hop]; exact ho) hthr hmine hc
    rw [he] at hexec
    exact ⟨_, o.lending sp.val, _, hexec, State.op_setOp (o := o.lending sp.val) ho,
      fun k hk => ⟨getLsbD_without_pair o.shares sp.val hk, getLsbD_with_pair o.shares o.lent sp.val hk⟩, rfl,
      BitVec.eq_of_toNat_eq (pmWord_type (by decide) hcount o.part), pmWord_count (by decide) hcount o.part, hbits, Tab.get_set_self _ _ _ _,
      State.pair_setPair_self _ _ _, fun k hk => State.pair_setPair_ne _ hk _⟩
  · obtain ⟨c, he⟩ := State.takeBack_all (s := s) (sp := sp.val) (o := o) (by rw [hop]; exact ho)
    have hexec := exec_recallExpiry hf hr
    rw [he] at hexec
    refine ⟨_, o.recalling sp.val, hexec, State.op_setOp (o := o.recalling sp.val) ho,
      fun k hk => ⟨getLsbD_without_pair o.lent sp.val hk, getLsbD_with_pair o.lent o.shares sp.val hk⟩, by simp [Weir.returned],
      Tab.get_set_self _ _ _ _, ?_, ?_, ?_, fun k hk => State.pair_setPair_ne _ hk _⟩
    · rw [State.pair_setPair_self]; rfl
    · rw [State.pair_setPair_self]; rfl
    · intro hst
      rw [State.pair_setPair_self]
      exact if_pos hst

end Sys2Proof.Machine
end

section
/-! SUPPORT. ATTEND beside a held operation (R156, R234, R263): the copy jobs that it settles may end an operation that held a pair. -/

namespace Sys2Proof.Machine

/-- An ATTEND of sequence 3 over 5 keys of dense tensors: it pins no group, and settles the copy jobs of its partition all the same. -/
def attendDense : Cmd := ⟨0, 0, 0x05 ||| 3#512 <<< 16 ||| 1#512 <<< 160 ||| 2#512 <<< 312 ||| 5#512 <<< 320⟩

/-- Partition 0 enabled with every cluster. -/
def onePartition : CfgSet := ⟨[(0x210, 0xFFFFFFFF), (0x100000, 0x8000000008000000)], [], []⟩

/-- An EVICT of sequence 4 that is held and keeps pair 0. -/
def heldEvict : Op := { newOp 9 0 ⟨0, 0, 0x0A ||| 4#512 <<< 16⟩ onePartition 0 0 0 with st := .held, clusters := 0xF }

def attendStaged : Staged := ⟨0, attendDense, .ready, 0, [], false, false, 0, 0, none, []⟩

/-- The block in full service with the ATTEND in staging, beside the EVICT: its copies have ended and its job stands. -/
def attendBesideHeld : State :=
  { State.reset with
    clk := { State.reset.clk with awake := true, clkOn := 0xFFFFFFFF }
    boot := { State.reset.boot with s1Started := true, stage := 4, svc := 0xFFFFFFFF, quarantine := false }
    cfg := { State.reset.cfg with active := onePartition }
    hw := { State.reset.hw with staged := [attendStaged], ops := [heldEvict], seqs := [(3, { Seq.free with st := .idle })] }
    pools := [(0, { Pool.reset with copyJobs := [⟨9, heldEvict.cmd, 0, 0, 0⟩] })] }

theorem attendBesideHeld_admits : attendBesideHeld.Admits 0x05 attendDense attendStaged :=
  ⟨by decide +kernel, by decide +kernel, by decide +kernel, by decide +kernel, by decide +kernel, by decide +kernel⟩

/-- The jobs of a pool that is not listed are none. -/
theorem attendBesideHeld_fresh : attendBesideHeld.Fresh := by
  refine ⟨by decide +kernel, fun p j hj => ?_⟩
  have hjob : j ∈ [(⟨9, heldEvict.cmd, 0, 0, 0⟩ : CopyJob)] := by
    by_cases hp : p = 0
    · subst hp
      exact hj
    · have hpool : attendBesideHeld.pool p = Pool.reset := by
        simp [State.pool, attendBesideHeld, Tab.get, hp]
      rw [hpool] at hj
      exact absurd hj List.not_mem_nil
  rw [List.mem_singleton.1 hjob]
  decide +kernel

/-- The command's masks and keys allow the clause's placement. -/
theorem attendBesideHeld_keys : attendBesideHeld.linkFull = false
    ∧ attendBesideHeld.cover attendStaged.part (sqidOf attendDense)
      (attendBesideHeld.keyBlocks attendStaged.part attendDense (attendBesideHeld.keyCount attendStaged.part attendDense)) = .ready
    ∧ causalOf attendDense = false ∧ winOf attendDense = false ∧ bmOf attendDense = false
    ∧ namesPeer (attendBesideHeld.blockOf attendStaged.part attendDense) = false ∧ 1 ≤ attendBesideHeld.keyCount attendStaged.part attendDense := by decide +kernel

/-- Before the command is admitted, its one segment would go to cluster 4, the first that no held pair keeps. -/
theorem attendBesideHeld_place :
    let cs := attendBesideHeld.freeClusters attendBesideHeld.cfg.active attendStaged.part
    (List.range ((attendBesideHeld.keyCount attendStaged.part attendDense + 1023) / 1024)).map (fun g => (g, cs.getD (g % cs.length) 0)) = [(0, 4)] := by
  decide +kernel

/-- The EVICT completes while the ATTEND is admitted, and its pair is free when the segment is placed. -/
theorem attend_attendBesideHeld : ∃ t, exec (.attend attendDense) attendBesideHeld = .next t
    ∧ (t.op attendBesideHeld.hw.nextOpid).map Op.place = some [(0, 0)] :=
  ⟨_, rfl, by decide +kernel⟩

/-- Refutes O39: it ranges over states in which a copy job without copies left belongs to a held operation with a pair of its own. Settling the jobs
of the partition ends that operation, so that the one segment goes to cluster 0 and not to cluster 4, the first that was free before. -/
theorem not_attentionAdmitted : ¬ Obligations.AttentionAdmitted := by
  intro h
  obtain ⟨hlink, hcover, hcausal, hwin, hbm, hpeer, hkeys⟩ := attendBesideHeld_keys
  obtain ⟨hplaced, -⟩ := (h attendBesideHeld attendDense attendStaged attendBesideHeld_fresh).1 attendBesideHeld_admits hlink hcover
  obtain ⟨t, o, ht, -, ho, -, -, -, -, -, hplace, -⟩ := hplaced hcausal hwin hbm hpeer hkeys
  obtain ⟨u, hu, huplace⟩ := attend_attendBesideHeld
  obtain rfl : t = u := Host.Outcome.next.inj (ht.symm.trans hu)
  rw [ho, Option.map_some, hplace] at huplace
  exact absurd (attendBesideHeld_place.symm.trans (Option.some.inj huplace)) (by decide)

end Sys2Proof.Machine
end

section
/-! SUPPORT. Messages of peers (R363 to R366): what a message does while peer traffic is in service, partials that go out against credits, and
how a WRITE lands in its window. -/

namespace Sys2Proof.Machine

/-! Messages in and out of service (R366) -/

theorem State.fast_creditable {s : State} (h : s.fast = true) : s.creditable = true := by
  simp only [State.fast, Bool.and_eq_true, Bool.not_eq_true'] at h
  simp [State.creditable, State.on, h]

theorem State.fast_awake {s : State} (h : s.fast = true) : s.clk.awake = true := by
  simp only [State.fast, Bool.and_eq_true] at h
  exact h.1.1

/-- R366: with option P, while peer traffic is in service, a message does what its row says. -/
theorem State.peerMsg_here {s : State} (hf : s.fast = true) (hp : s.part.optP = true ∧ s.glob.peerEnable = true) (h : PeerHdr) (n : Nat) (w : Bool)
    (f : State → State) : s.peerMsg h n w f = f s := by
  obtain ⟨hopt, hen⟩ := hp
  simp [State.peerMsg, State.fast_creditable hf, State.fast_awake hf, hopt, hen]

/-- R17, R366: without option P a message is refused. -/
theorem State.peerMsg_absent {s : State} (hf : s.fast = true) (hp : s.part.optP = false) (h : PeerHdr) (n : Nat) (w : Bool) (f : State → State) :
    s.peerMsg h n w f = if w then s.refuseWrite h 3 else s.nack h 3 := by
  simp [State.peerMsg, State.fast_creditable hf, State.fast_awake hf, hp]

theorem toNat_bump {n : Nat} (w : BitVec n) (k : Nat) : (bump w k).toNat = Nat.min (2 ^ n - 1) (w.toNat + k) := by
  have hpos : 0 < 2 ^ n := Nat.two_pow_pos n
  have hle : Nat.min (2 ^ n - 1) (w.toNat + k) ≤ 2 ^ n - 1 := Nat.min_le_left _ _
  rw [bump, BitVec.toNat_ofNat, Nat.mod_eq_of_lt (by omega)]

/-- R363, R364: what a refusal of the message of header `h` leaves: NACK goes back with its reason, and is counted. -/
structure State.Refused (s u : State) (h : PeerHdr) (reason : Byte) : Prop where
  sent : ∃ a, u.peer.sent = s.peer.sent ++ [(4, a, [])] ∧ a.reason = reason ∧ a.srcId = s.glob.peerId ∧ a.dstId = h.srcId ∧ a.window = h.window
  count : u.glob.nackSent.toNat = Nat.min (2 ^ 32 - 1) (s.glob.nackSent.toNat + 1)
  clusters : u.clusters = s.clusters
  hw : u.hw = s.hw
  windows : u.peer.windows = s.peer.windows
  held : u.peer.held = s.peer.held

theorem State.nack_refused (s : State) (h : PeerHdr) (reason : Nat) : s.Refused (s.nack h reason) h (BitVec.ofNat 8 reason) :=
  ⟨⟨_, rfl, rfl, rfl, rfl, rfl⟩, toNat_bump _ 1, rfl, rfl, rfl, rfl⟩

theorem State.refuseWrite_refused (s : State) (h : PeerHdr) (reason : Nat) : s.Refused (s.refuseWrite h reason) h (BitVec.ofNat 8 reason) :=
  ⟨⟨_, rfl, rfl, rfl, rfl, rfl⟩, toNat_bump _ 1, rfl, rfl, rfl, rfl⟩

/-! Partials against credits (R154, R364) -/

/-- Where no operation computes for a peer, none is sent. -/
theorem State.sendOut_quiet {s : State} (h : ∀ o ∈ s.hw.ops, o.sends = false) : s.sendOut = s := by
  have hnone : s.hw.ops.filter Op.sends = [] := List.filter_eq_nil_iff.2 (fun o ho => by simp [h o ho])
  rw [State.sendOut, hnone]
  rfl

/-- A refusal or an acknowledgement of a slot that no operation waits for does nothing more. -/
theorem State.partialAcked_quiet {s : State} (hq : ∀ o ∈ s.hw.ops, o.unacked = []) (h : PeerHdr) : s.partialAcked h = s := by
  have hnone : s.hw.ops.find? (fun o => o.unacked.contains (h.window, h.slot.toNat)) = none :=
    List.find?_eq_none.2 (fun o ho => by simp [hq o ho])
  rw [State.partialAcked, hnone]

/-- An operation with nothing queued for an out-port sends nothing there. -/
theorem State.sendTiles_nil {s : State} {o : Op} {opid : W32} (ho : s.op opid = some o) (hq : o.outq = []) (fuel : Nat) :
    s.sendTiles fuel opid = s := by
  cases fuel with
  | zero => rfl
  | succ n => simp [State.sendTiles, ho, hq]

/-- R361: an operation with nothing to send waits for what it has still to produce or to be acknowledged. -/
theorem State.drainOut_waits {s : State} {o : Op} {opid : W32} (ho : s.op opid = some o) (hq : o.outq = [])
    (hw : o.fin = false ∨ o.unacked ≠ []) : s.drainOut opid = s := by
  have hsend := State.sendTiles_nil ho hq (o.outq.length + 1)
  have hmore : (o.fin && o.unacked.isEmpty) = false := by
    obtain hfin | hun := hw
    · simp [hfin]
    · simp [hun]
  simp only [State.drainOut, ho, hsend]
  refine if_neg (fun h => ?_)
  simp only [Bool.and_eq_true] at h
  obtain ⟨⟨⟨⟨⟨⟨⟨⟨hfin, -⟩, -⟩, hun⟩, -⟩, -⟩, -⟩, -⟩, -⟩ := h
  rw [hfin, hun] at hmore
  exact absurd hmore (by decide)

/-- R364: the slot of the one operation's only partial is acknowledged. -/
theorem State.partialAcked_last {s : State} {o : Op} {h : PeerHdr} (hops : s.hw.ops = [o]) (hu : o.unacked = [(h.window, h.slot.toNat)])
    (hq : o.outq = []) (hfin : o.fin = false) :
    s.partialAcked h = { s with hw := { s.hw with ops := [{ o with unacked := [] }] } } := by
  have hset : s.setOp { o with unacked := [] } = { s with hw := { s.hw with ops := [{ o with unacked := [] }] } } := by
    simp [State.setOp, State.modHw, hops]
  have hop : (s.setOp { o with unacked := [] }).op o.opid = some { o with unacked := [] } := by simp [State.op, hset]
  have hfind : s.hw.ops.find? (fun o => o.unacked.contains (h.window, h.slot.toNat)) = some o := by simp [hops, hu]
  have herase : o.unacked.erase (h.window, h.slot.toNat) = [] := by simp [hu]
  rw [State.partialAcked, hfind]
  dsimp only
  rw [herase, State.drainOut_waits hop hq (Or.inl hfin), hset]

/-- R343: an ACK where no stream stands in a queue is for a partial. -/
theorem State.takeAck_partial {s : State} (hq : ∀ k ∈ s.clusters, k.2.queue = []) (h : PeerHdr) : s.takeAck h = s.partialAcked h := by
  have hnone (f : QEnt → Bool) : s.clusters.findSome? (fun c => (c.2.queue.find? f).map (fun e => (c.1, e))) = none :=
    List.findSome?_eq_none_iff.2 (fun k hk => by simp [hq k hk])
  simp only [State.takeAck, hnone]

/-- R153: a slot that has room for all the rows takes a partial whole. -/
theorem cutTile_whole {t : PTile} {bytes : Nat} (hone : 40 + 4 * t.dim ≤ bytes) (hrows : t.rows.length ≤ 64)
    (hall : 32 + t.rows.length * (8 + 4 * t.dim) ≤ bytes) : cutTile t bytes = some (t, []) := by
  have hdiv : 1 ≤ (bytes - 32) / (8 + 4 * t.dim) := (Nat.one_le_div_iff (by omega)).2 (by omega)
  have hfit : t.rows.length ≤ (bytes - 32) / (8 + 4 * t.dim) := (Nat.le_div_iff_mul_le (by omega)).2 (by omega)
  obtain ⟨k, hk⟩ : ∃ k, k = Nat.min 64 ((bytes - 32) / (8 + 4 * t.dim)) := ⟨_, rfl⟩
  have hk0 : k ≠ 0 := by rw [hk]; exact Nat.ne_of_gt (Nat.lt_min.2 ⟨by decide, hdiv⟩)
  have hlen : t.rows.length ≤ k := by rw [hk]; exact Nat.le_min.2 ⟨hrows, hfit⟩
  rw [cutTile, ← hk]
  simp [hk0, hlen, List.take_of_length_le hlen]

/-- R154, R364: the one partial of the one operation leaves against the one credit of its peer. -/
theorem State.sendPartials_one {s : State} {o : Op} {x : PTile} {c : PeerCredit} (hops : s.hw.ops = [o]) (hq : o.sendq = [x]) (hun : o.unacked = [])
    (hheld : s.peer.held = [c]) (hpeer : c.peer = Config.freePeer o.opid.toNat) (hcut : cutTile x c.bytes = some (x, [])) :
    ∃ a, s.sendPartials 2 o.opid = { s with
        hw := { s.hw with ops := [{ o with sendq := [], unacked := [(c.window, c.slot)] }] }
        peer := { s.peer with held := [], sent := s.peer.sent ++ [(2, a, tileBytes { x with opid := c.opid })] } }
      ∧ a.dstId = c.peer ∧ a.window = c.window ∧ a.slot = BitVec.ofNat 4 c.slot ∧ a.epoch = c.epoch ∧ a.opid = c.opid := by
  refine ⟨{ s.peerHdr 0 c.peer c.window c.slot o.part (tileBytes { x with opid := c.opid }).length with opid := c.opid, epoch := c.epoch }, ?_,
    rfl, rfl, rfl, rfl, rfl⟩
  simp [State.sendPartials, hq, hun, hheld, hpeer, hcut, State.setOp, State.modHw, State.modPeer, State.peerSend, State.op, hops, State.peerHdr,
    State.cluster]

/-- R154, R364: a credit that arrives while the one operation's one partial waits takes it out. -/
theorem State.takeCredit_sends {s : State} {h : PeerHdr} {o : Op} {x : PTile} (hops : s.hw.ops = [o]) (hsends : o.sends = true) (hout : o.outq = [])
    (hq : o.sendq = [x]) (hun : o.unacked = []) (hheld : s.peer.held = []) (hpeer : h.srcId = Config.freePeer o.opid.toNat)
    (hcut : cutTile x h.bytes.toNat = some (x, [])) :
    ∃ a, (s.takeCredit h).sendOut = { s with
        hw := { s.hw with ops := [{ o with sendq := [], unacked := [(h.window, h.slot.toNat)] }] }
        peer := { s.peer with sent := s.peer.sent ++ [(2, a, tileBytes { x with opid := h.opid })] } }
      ∧ a.dstId = h.srcId ∧ a.window = h.window ∧ a.slot = h.slot ∧ a.epoch = h.epoch ∧ a.opid = h.opid := by
  obtain ⟨c, hc⟩ : ∃ c : PeerCredit, c = ⟨h.window, h.slot.toNat, h.bytes.toNat, h.srcId, h.epoch, h.opid⟩ := ⟨_, rfl⟩
  have htake : s.takeCredit h = { s with peer := { s.peer with held := [c] } } := by
    simp [State.takeCredit, State.modPeer, hheld, hc]
  obtain ⟨a, hsent, hdst, hwin, hslot, hepoch, hopid⟩ := State.sendPartials_one (s := { s with peer := { s.peer with held := [c] } }) hops hq hun rfl
    (by rw [hc]; exact hpeer) (by rw [hc]; exact hcut)
  subst hc
  refine ⟨a, ?_, hdst, hwin, hslot.trans (by simp), hepoch, hopid⟩
  have hmine : s.hw.ops.filter Op.sends = [o] := by simp [hops, hsends]
  rw [htake, State.sendOut]
  dsimp only
  rw [hmine, List.map_singleton, List.foldl_cons, List.foldl_nil]
  change State.drainOut (State.sendPartials 2 _ _) _ = _
  rw [hsent, State.drainOut_waits (o := { o with sendq := [], unacked := [(h.window, h.slot.toNat)] }) (by simp [State.op]) hout (Or.inr (by simp))]
  simp [hheld]

/-! Streams and windows (R343, R364, R365) -/

/-- R343: the ACK of the one slot that the one stream to a window fills. -/
theorem State.takeAck_stream {s : State} {h : PeerHdr} {k : Nat} {x : Cluster} {e : QEnt} {v : BitVec 512} {fl : Fill} (hcs : s.clusters = [(k, x)])
    (hq : x.queue = [e]) (hw : e.work = .sx v) (hkind : (SDesc.ofBits v).kind = 5) (hdst : (SDesc.ofBits v).dstAddr = h.window.toNat)
    (hfills : e.fills = [fl]) (hslot : fl.slot = h.slot.toNat) :
    s.takeAck h = s.setCluster k { x with queue := [{ e with landed := s.clk.tick, fills := [] }] } := by
  have hx : s.cluster k = x := by simp [State.cluster, hcs, Tab.get]
  simp [State.takeAck, hcs, hq, hw, hkind, hdst, hfills, hslot, State.modCluster, hx, Cluster.modEnt]

/-- R325: a WRITE under another role epoch, or to a cluster that is being cleared, goes back. -/
theorem State.takeWrite_stale {s : State} {h : PeerHdr}
    (hold : h.epoch ≠ (s.cluster (windowCluster h.window)).roleEpoch ∨ (s.cluster (windowCluster h.window)).clearing = true) (t : PTile) :
    s.takeWrite h t = (s.setCluster (windowCluster h.window)
        { s.cluster (windowCluster h.window) with stale := bump (s.cluster (windowCluster h.window)).stale }).peerSend 5
        { h with srcId := s.glob.peerId, dstId := h.srcId } (tileBytes t) := by
  have hcond : (h.epoch != (s.cluster (windowCluster h.window)).roleEpoch || (s.cluster (windowCluster h.window)).clearing) = true := by
    simpa using hold
  simp only [State.takeWrite, hcond, if_true]
  rfl

section
variable {s : State} {h : PeerHdr} (hnow : h.epoch = (s.cluster (windowCluster h.window)).roleEpoch)
  (hclear : (s.cluster (windowCluster h.window)).clearing = false)
include hnow hclear

/-- R364: a WRITE to no window of this block is refused. -/
theorem State.takeWrite_noWindow (hno : ∀ x ∈ s.peer.windows, x.window ≠ h.window) (t : PTile) : s.takeWrite h t = s.refuseWrite h 4 := by
  have hnone : s.peer.windows.find? (fun x => x.window = h.window) = none := List.find?_eq_none.2 (fun x hx => by simpa using hno x hx)
  simp [State.takeWrite, ← hnow, hclear, hnone]

/-- R364, R365: what becomes of a WRITE to the one window, in the order of the reasons to refuse it. -/
theorem State.takeWrite_window {x : Win} (hws : s.peer.windows = [x]) (hx : x.window = h.window) (t : PTile) :
    s.takeWrite h t = if x.sender != h.srcId then s.refuseWrite h 4 else if x.withdrawing then s.refuseWrite h 5
      else if !x.credited.contains h.slot.toNat then s.refuseWrite h 1 else if x.slotBytes < h.bytes.toNat then s.refuseWrite h 2
      else s.landWrite h t x := by
  simp [State.takeWrite, ← hnow, hclear, hws, hx]

end

/-! How a WRITE lands (R176, R364) -/

/-- `t` is `s` after slots of the rings of cluster `n` have changed hands, and the messages `rest` have gone out. -/
structure State.SlotsMoved (s t : State) (n : Nat) (rest : List (Nat × PeerHdr × List Byte)) : Prop where
  spm : (t.cluster n).spm = (s.cluster n).spm
  other : ∀ j, j ≠ n → t.cluster j = s.cluster j
  sent : t.peer.sent = s.peer.sent ++ rest
  glob : t.glob = s.glob
  hw : t.hw = s.hw
  mem : t.mem = s.mem

theorem State.SlotsMoved.refl (s : State) (n : Nat) : s.SlotsMoved s n [] := ⟨rfl, fun _ _ => rfl, by simp, rfl, rfl, rfl⟩

theorem State.SlotsMoved.trans {r s t : State} {n : Nat} {l m : List (Nat × PeerHdr × List Byte)} (a : r.SlotsMoved s n l) (b : s.SlotsMoved t n m) :
    r.SlotsMoved t n (l ++ m) :=
  ⟨b.spm.trans a.spm, fun j hj => (b.other j hj).trans (a.other j hj), by rw [b.sent, a.sent, List.append_assoc], b.glob.trans a.glob, b.hw.trans a.hw,
    b.mem.trans a.mem⟩

theorem State.setHandle_moved (s : State) (n h : Nat) (w : W64) : s.SlotsMoved (s.modCluster n (fun c => c.setHandle h w)) n [] :=
  ⟨by rw [State.cluster_modCluster_self]; rfl, fun j hj => State.cluster_modCluster_ne s hj _, by simp, rfl, rfl, rfl⟩

theorem State.windows_moved (s : State) (n : Nat) (f : List Win → List Win) :
    s.SlotsMoved (s.modPeer (fun p => { p with windows := f p.windows })) n [] := ⟨rfl, fun _ _ => rfl, by simp, rfl, rfl, rfl⟩

theorem State.peerSend_moved (s : State) (n type : Nat) (h : PeerHdr) (data : List Byte) : s.SlotsMoved (s.peerSend type h data) n [(type, h, data)] :=
  ⟨rfl, fun _ _ => rfl, rfl, rfl, rfl, rfl⟩

theorem State.landSlots_moved (fuel : Nat) (s : State) (n h : Nat) : s.SlotsMoved (State.landSlots fuel s n h) n [] := by
  induction fuel generalizing s with
  | zero => exact State.SlotsMoved.refl s n
  | succ fuel ih =>
    unfold State.landSlots
    dsimp only
    split
    · split
      · exact ((s.windows_moved n _).trans (State.setHandle_moved _ n h _)).trans (ih _)
      · exact State.SlotsMoved.refl s n
    · exact State.SlotsMoved.refl s n

theorem State.giveCredit_moved (s : State) (n : Nat) (w : W16) (slot : Nat) : ∃ rest, s.SlotsMoved (s.giveCredit w slot) n rest := by
  unfold State.giveCredit
  split
  · exact ⟨[], State.SlotsMoved.refl s n⟩
  · exact ⟨_, (s.windows_moved n _).trans (State.peerSend_moved _ n _ _ _)⟩

/-- R176, R196: a released slot may go back to its sender as a credit. -/
theorem State.release_moved (s : State) (n h : Nat) : ∃ rest, s.SlotsMoved (s.release n h) n rest := by
  unfold State.release
  dsimp only
  split
  · exact ⟨[], State.SlotsMoved.refl s n⟩
  · split
    · obtain ⟨rest, hrest⟩ := State.giveCredit_moved (s.modCluster n (fun c => c.setHandle h (releaseSlot ((s.cluster n).handle h)))) n (windowOf n h)
        (hTail ((s.cluster n).handle h))
      exact ⟨_, (s.setHandle_moved n h _).trans hrest⟩
    · exact ⟨_, s.setHandle_moved n h _⟩

/-- R155, R364: a partial of no live operation is discarded, and its slot released. -/
theorem State.consume_none {s : State} {t : PTile} (hop : s.op t.opid = none) (n h : Nat) (epoch : W16) : s.consume n h epoch t = s.release n h := by
  rw [State.consume, hop]

/-- R364: the bytes of a WRITE stand in its slot, ACK goes back, and the slot of a partial of no live operation is released. -/
theorem State.landWrite_lands {s : State} {h : PeerHdr} {t : PTile} (x : Win) (hop : s.op t.opid = none) {n base : Nat} (hn : n = windowCluster h.window)
    (hbase : base = hStart ((s.cluster n).handle (h.window.toNat % 256)) + h.slot.toNat * hSlotBytes ((s.cluster n).handle (h.window.toNat % 256))) :
    ∃ a rest, (s.setCluster n { s.cluster n with spm := writeBytes (s.cluster n).spm base ((tileBytes t).take h.bytes.toNat) }).SlotsMoved
        (s.landWrite h t x) n ((3, a, []) :: rest)
      ∧ a.dstId = h.srcId ∧ a.window = h.window ∧ a.slot = h.slot ∧ a.opid = h.opid := by
  subst hn hbase
  unfold State.landWrite
  extract_lets _ n k c slot base s1 s2 _ a
  have hmoved : s1.SlotsMoved ((State.landSlots 17 s2 n k).peerSend 3 a) n [(3, a, [])] :=
    ((s1.windows_moved n _).trans (State.landSlots_moved 17 s2 n k)).trans (State.peerSend_moved _ n 3 a [])
  have hnone : ((State.landSlots 17 s2 n k).peerSend 3 a).op t.opid = none := by
    rw [State.op_of_hw hmoved.hw]
    exact hop
  obtain ⟨rest, hrel⟩ := ((State.landSlots 17 s2 n k).peerSend 3 a).release_moved n k
  rw [State.consume_none hnone]
  exact ⟨a, rest, hmoved.trans hrel, rfl, rfl, (BitVec.ofNat_toNat (m := 4) h.slot).trans (BitVec.setWidth_eq h.slot), rfl⟩

/-! The rows (R363 to R366) -/

/-- R366: what the row of a message does in service. -/
theorem State.exec_peer {s : State} (hf : s.fast = true) (hp : s.part.optP = true ∧ s.glob.peerEnable = true) {h : PeerHdr} {n : Nat} {w : Bool}
    {f : State → State} {m : Instr} (hm : exec m s = .next (s.peerMsg h n w f)) {u : State} (hu : f s = u) : exec m s = .next u := by
  rw [hm, State.peerMsg_here hf hp, hu]

/-- R17, R366: what it does without option P. -/
theorem State.exec_peer_refused {s : State} (hf : s.fast = true) (hp : s.part.optP = false) {h : PeerHdr} {n : Nat} {w : Bool}
    {f : State → State} {m : Instr} (hm : exec m s = .next (s.peerMsg h n w f)) : ∃ u, exec m s = .next u ∧ s.Refused u h 3 := by
  rw [hm, State.peerMsg_absent hf hp]
  cases w
  · exact ⟨_, rfl, s.nack_refused h 3⟩
  · exact ⟨_, rfl, s.refuseWrite_refused h 3⟩

/-- R325: a partial that comes back while no operation waits for an acknowledgement is sent again to its home, or is of no operation. -/
theorem State.returned_quiet {s : State} (hq : ∀ o ∈ s.hw.ops, o.unacked = []) (h : PeerHdr) (t : PTile) : s.returned h t = s.resend t := by
  have hnone : s.hw.ops.find? (fun o => o.unacked.contains (h.window, h.slot.toNat)) = none :=
    List.find?_eq_none.2 (fun o ho => by simp [hq o ho])
  rw [State.returned, hnone]

theorem State.resend_none {s : State} {t : PTile} (h : s.op t.opid = none) : s.resend t = s := by rw [State.resend, h]

theorem State.resend_some {s : State} {t : PTile} {o : Op} (h : s.op t.opid = some o) :
    s.resend t = s.modPeer (fun p => { p with resent := p.resent ++ [(o.homeOf t.level t.node, t)] }) := by rw [State.resend, h]

/-- Settles O54: without option P every message is refused; in service each message by what its row does, a WRITE by what its window makes of it. -/
theorem peerMessages : Obligations.PeerMessages := by
  unfold Obligations.PeerMessages
  intro s h t w hf n c credit held answer nacks here quiet bytes
  have hnacks {m : Instr} {reason : Byte} (hm : ∃ u, exec m s = .next u ∧ s.Refused u h reason) : nacks m reason := by
    obtain ⟨u, hu, hr⟩ := hm
    exact ⟨u, hu, hr.sent, hr.count, hr.clusters, hr.hw, hr.windows, hr.held⟩
  have hwrite (hh : here) {reason : Nat} (hu : s.takeWrite h t = s.refuseWrite h reason) : nacks (.write h t) (BitVec.ofNat 8 reason) :=
    hnacks ⟨_, State.exec_peer hf hh rfl hu, s.refuseWrite_refused h reason⟩
  refine ⟨fun hp => ?_, fun hq => ?_, fun o x hh hops hsends hout hsq hun hheld hpeer hone hlen hall => ?_,
    fun o hh hops hun hout hfin hqueues => ?_, fun hq => ?_, fun hq => ?_, fun hh => ?_, fun hh => State.exec_peer hf hh rfl rfl, ?_,
    fun hh k x e v fl hcs hqueue hw hk hdst hfills hslot => ?_, fun hh hold => ?_, fun hh hnow hclear hno => ?_, fun x hh hnow hclear hws hx => ?_⟩
  · exact ⟨hnacks (State.exec_peer_refused hf hp rfl), hnacks (State.exec_peer_refused hf hp rfl), hnacks (State.exec_peer_refused hf hp rfl),
      hnacks (State.exec_peer_refused hf hp rfl), hnacks (State.exec_peer_refused hf hp rfl), hnacks (State.exec_peer_refused hf hp rfl),
      hnacks (State.exec_peer_refused hf hp rfl)⟩
  · exact State.exec_peer hf hq.1 rfl (State.sendOut_quiet (s := s.takeCredit h) (fun o ho => (hq.2 o ho).1))
  · obtain ⟨a, hsent, hdst, hwin, hsl, hepoch, hopid⟩ := State.takeCredit_sends hops hsends hout hsq hun hheld hpeer (cutTile_whole hone hlen hall)
    have hexec := State.exec_peer (m := .credit h) hf hh rfl hsent
    exact ⟨_, a, hexec, rfl, hdst, hwin, hsl, hepoch, hopid, rfl, rfl, rfl⟩
  · refine ⟨State.exec_peer hf hh rfl ((State.takeAck_partial hqueues h).trans (State.partialAcked_last hops hun hout hfin)), _,
      State.exec_peer hf hh rfl ?_, toNat_bump s.glob.nackRcvd 1⟩
    exact State.partialAcked_last (s := s.modGlob (fun g => { g with nackRcvd := bump g.nackRcvd })) hops hun hout hfin
  · refine ⟨s.modGlob (fun g => { g with nackRcvd := bump g.nackRcvd }), State.exec_peer hf hq.1 rfl ?_, rfl, toNat_bump s.glob.nackRcvd 1⟩
    exact State.partialAcked_quiet (s := s.modGlob (fun g => { g with nackRcvd := bump g.nackRcvd })) (fun o ho => (hq.2 o ho).2) h
  · have hret := State.returned_quiet (s := s.takeCredit h) (fun o ho => (hq.2 o ho).2) h t
    exact ⟨fun ho => State.exec_peer hf hq.1 rfl (hret.trans (State.resend_none ho)),
      fun o ho => ⟨_, State.exec_peer hf hq.1 rfl (hret.trans (State.resend_some ho))⟩⟩
  · exact ⟨s.takeWithdraw h, State.exec_peer hf hh rfl rfl, rfl, ⟨_, rfl, rfl, rfl, rfl, rfl⟩, rfl⟩
  · exact congrArg Host.Outcome.next (if_pos (State.fast_creditable hf))
  · exact ⟨_, State.exec_peer hf hh rfl (State.takeAck_stream hcs hqueue hw hk hdst hfills hslot), State.setCluster_only _ _ _⟩
  · have hself := State.cluster_setCluster_self s n { c with stale := bump c.stale }
    have hexec := State.exec_peer (m := .write h t) hf hh rfl (State.takeWrite_stale hold t)
    refine ⟨_, _, hexec, rfl, rfl, rfl, rfl, rfl, ?_, ?_,
      fun j hj => State.cluster_setCluster_ne s hj _, rfl, rfl⟩
    · exact (congrArg (fun x => x.stale.toNat) hself).trans (toNat_bump c.stale 1)
    · exact congrArg (fun x : Cluster => { x with stale := c.stale }) hself
  · exact hwrite hh (State.takeWrite_noWindow hnow hclear hno t)
  · have htake := State.takeWrite_window hnow hclear hws hx t
    refine ⟨fun hs => hwrite hh (reason := 4) ?_, fun hs hwd => hwrite hh (reason := 5) ?_, fun hs hwd hcr => hwrite hh (reason := 1) ?_,
      fun hs hwd hcr hbig => hwrite hh (reason := 2) ?_, fun hs hwd hcr hfit hop => ?_⟩
    · simp [htake, hs]
    · simp [htake, hs, hwd]
    · simp [htake, hs, hwd, hcr]
    · simp [htake, hs, hwd, hcr, hbig]
    · have hland : s.takeWrite h t = s.landWrite h t x := by simp [htake, hs, hwd, hcr, Nat.not_lt.2 hfit]
      obtain ⟨a, rest, hm, hdst, hwin, hsl, hopid⟩ := State.landWrite_lands (h := h) x hop rfl rfl
      have hspm := hm.spm.trans (congrArg Cluster.spm (State.cluster_setCluster_self s _ _))
      exact ⟨_, a, rest, State.exec_peer hf hh rfl hland, hm.sent, hdst, hwin, hsl, hopid,
        fun i hi => (congrArg (byteAt · _) hspm).trans ((byteAt_writeBytes_in _ hi).trans (List.getD_eq_getElem _ _ hi).symm),
        fun i hi => (congrArg (byteAt · i) hspm).trans (byteAt_writeBytes_out _ hi),
        fun j hj => (hm.other j hj).trans (State.cluster_setCluster_ne s hj _), congrArg Glob.nackSent hm.glob, hm.hw, hm.mem⟩

end Sys2Proof.Machine
end

section
/-! SUPPORT. What reports leave alone (R315, R411, R413, R428, R433): memory writes of structures, log entries, trace records, interrupts and
event records; and what a class P fault does to its partition. -/

namespace Sys2Proof.Machine

/-! Reports: log entries, trace records, event records and interrupts -/

/-- `t` with the memory, messages, log, recorder and trace unit of `s`. -/
def State.unreported (t s : State) : State :=
  { t with mem := s.mem, out := s.out, glob := s.glob, ras := s.ras, recorder := s.recorder, trc := s.trc, hw := { t.hw with light := s.hw.light } }

/-- `t` is `s` after at most `j` log entries, with trace records, event records, interrupts and writes of structures to memory. -/
structure State.Told (s t : State) (j : Nat) : Prop where
  rest : t.unreported s = s
  pstop : t.ras.pstop = s.ras.pstop
  total : ∃ i, i ≤ j ∧ t.ras.total = s.ras.total + BitVec.ofNat 32 i
  logged : ∀ n e i, s.Logged n e → s.ras.total = n + BitVec.ofNat 32 i → 1 ≤ i → i + j ≤ 8192 → t.Logged n e

/-- What is written to memory, to the trace unit or as a message, with the log as it was. -/
theorem State.Told.of_log {s t : State} (h : t.unreported s = s) (hras : t.ras = s.ras) : s.Told t 0 :=
  ⟨h, by rw [hras], ⟨0, Nat.le_refl 0, by rw [hras]; simp⟩, fun n e i he _ _ _ => by rw [State.Logged, hras]; exact he⟩

theorem State.Told.refl (s : State) : s.Told s 0 := State.Told.of_log rfl rfl

theorem State.Told.trans {r s t : State} {j k : Nat} (a : r.Told s j) (b : s.Told t k) : r.Told t (j + k) := by
  obtain ⟨i, hi, hsi⟩ := a.total
  obtain ⟨m, hm, htm⟩ := b.total
  have hsum (n : W32) (x y : Nat) : n + BitVec.ofNat 32 x + BitVec.ofNat 32 y = n + BitVec.ofNat 32 (x + y) := by
    rw [BitVec.add_assoc, ← BitVec.ofNat_add]
  refine ⟨?_, b.pstop.trans a.pstop, ⟨i + m, Nat.add_le_add hi hm, by rw [htm, hsi, hsum]⟩, fun n e x he hx hx1 hle => ?_⟩
  · exact (congrArg (State.unreported · r) b.rest).trans a.rest
  · exact b.logged n e (x + i) (a.logged n e x he hx hx1 (by omega)) (by rw [hsi, hx, hsum]) (by omega) (by omega)

theorem State.Told.mono {s t : State} {j k : Nat} (h : s.Told t j) (hle : j ≤ k) : s.Told t k := by
  obtain ⟨i, hi, hti⟩ := h.total
  exact ⟨h.rest, h.pstop, ⟨i, Nat.le_trans hi hle, hti⟩, fun n e x he hx hx1 hk => h.logged n e x he hx hx1 (by omega)⟩

theorem State.out_told (s : State) (x : Out) : s.Told { s with out := x } 0 := State.Told.of_log rfl rfl
theorem State.modGlob_told (s : State) (f : Glob → Glob) : s.Told (s.modGlob f) 0 := State.Told.of_log rfl rfl
theorem State.modRecorder_told (s : State) (f : Recorder → Recorder) : s.Told (s.modRecorder f) 0 := State.Told.of_log rfl rfl

theorem State.vaWrite_eq (s : State) (space va : Nat) (bs : List Byte) : ∃ m, s.vaWrite space va bs = { s with mem := m } := by
  have hfold (ps : List (Nat × Nat)) : ∀ a : State × List Byte, ∃ m, (ps.foldl (fun (a : State × List Byte) p =>
      ((match a.1.paOf space p.1 with
        | some pa => { a.1 with mem := writeBytes a.1.mem pa (a.2.take p.2) }
        | none => a.1), a.2.drop p.2)) a).1 = { a.1 with mem := m } := by
    induction ps with
    | nil => exact fun a => ⟨a.1.mem, rfl⟩
    | cons p ps ih =>
      intro a
      rw [List.foldl_cons]
      obtain ⟨m, hm⟩ := ih ((match a.1.paOf space p.1 with
        | some pa => { a.1 with mem := writeBytes a.1.mem pa (a.2.take p.2) }
        | none => a.1), a.2.drop p.2)
      refine ⟨m, hm.trans ?_⟩
      dsimp only
      split <;> rfl
  exact hfold _ (s, bs)

theorem State.vaWrite_told (s : State) (space va : Nat) (bs : List Byte) : s.Told (s.vaWrite space va bs) 0 := by
  obtain ⟨m, hm⟩ := s.vaWrite_eq space va bs
  rw [hm]
  exact State.Told.of_log rfl rfl

theorem State.light_told (s : State) (k : LightCls) (aim : Aim) (wr : Bool) (space va n : Nat) : s.Told (s.light k aim wr space va n) 0 :=
  State.Told.of_log rfl rfl

theorem State.lightWrite_told (s : State) (k : LightCls) (aim : Aim) (space va : Nat) (bs : List Byte) : s.Told (s.lightWrite k aim space va bs) 0 :=
  (s.vaWrite_told space va bs).trans (State.light_told _ k aim true space va bs.length)

theorem State.trace_told (s : State) (type part : Nat) (unit : Byte) (opid : W32) (a0 a1 : Nat) : s.Told (s.trace type part unit opid a0 a1) 0 := by
  obtain ⟨x, hx⟩ := s.trace_eq type part unit opid a0 a1
  rw [hx]
  exact State.Told.of_log rfl rfl

theorem State.log_told (s : State) (e : Tlog) : s.Told (s.log e) 1 := by
  refine ⟨rfl, rfl, ⟨1, Nat.le_refl 1, rfl⟩, fun n x i hx hi h1 hle => ?_⟩
  have hne : n.toNat % 8192 ≠ s.ras.total.toNat % Config.tlogMax := by
    rw [hi, BitVec.toNat_add, BitVec.toNat_ofNat]
    change _ ≠ _ % 8192
    omega
  exact (Tab.get_set_ne none s.ras.log hne (some e)).trans hx

theorem State.note_told (s : State) (kind : W16) (part : Option Nat) (host : Bool) (cls : BitVec 3) (unit : Byte) (opid : W32) (a0 a1 : Nat) :
    s.Told (s.note kind part host cls unit opid a0 a1) 1 := s.log_told _

theorem State.sendIrq_told (s : State) (vec cause part info : Nat) : s.Told (s.sendIrq vec cause part info) 1 := by
  unfold State.sendIrq
  split
  · exact (State.Told.refl s).mono (Nat.zero_le 1)
  · dsimp only
    split
    · exact ((s.lightWrite_told .other .nothing 16 _ _).trans (State.out_told _ _)).mono (Nat.zero_le 1)
    · exact s.note_told _ _ _ _ _ _ _ _

theorem State.irqPending_told (s : State) (b vec cause part info : Nat) : s.Told (s.irqPending b vec cause part info) 1 := by
  unfold State.irqPending
  split
  · exact (State.Told.refl s).mono (Nat.zero_le 1)
  · exact (s.modGlob_told (fun g => { g with irqPend := g.irqPend ||| oneHot 64 b })).trans (State.sendIrq_told _ vec cause part info)

theorem State.rasIrq_told (s : State) (cls n : Nat) : s.Told (s.rasIrq cls n) 1 := s.irqPending_told _ _ _ _ _

theorem State.evRecord_told (s : State) (r : Rec) : s.Told (s.evRecord r) 2 := by
  unfold State.evRecord
  split
  · exact (State.Told.refl s).mono (Nat.zero_le 2)
  · split
    · exact (s.modRecorder_told _).mono (Nat.zero_le 2)
    · exact ((s.modRecorder_told _).trans (State.note_told _ _ _ _ _ _ _ _ _)).trans (State.rasIrq_told _ _ _)

theorem State.event_told (s : State) (type : W16) (cls : BitVec 3) (part : Option Nat) (opid : W32) (fs : List (Nat × Nat × Nat)) :
    s.Told (s.event type cls part opid fs) 2 := s.evRecord_told _

/-! Class P (R411, R415) -/

/-- `t` is `s` after a class P fault of partition `p`: its stop bit is set and its log entry stands. -/
structure State.Faulted (s t : State) (p : Nat) : Prop where
  rest : t.unreported s = s
  pstop : t.ras.pstop = s.ras.pstop ||| oneHot 16 p
  logged : ∃ e, t.Logged s.ras.total e ∧ e.kind = 0x15 ∧ e.part = some p ∧ e.cls = 3

theorem State.classP_faulted (s : State) (p cause addr : Nat) : s.Faulted (s.classP p cause addr) p := by
  have hnote := s.note_told 0x15 (some p) false 3 0xFF 0 cause addr
  have hlog := s.note_logged 0x15 (some p) false 3 0xFF 0 cause addr
  obtain ⟨u, hu⟩ : ∃ u, u = (s.note 0x15 (some p) false 3 0xFF 0 cause addr).modRas
      (fun r => { r with pstop := r.pstop ||| oneHot 16 p, p := bumpTo 0xFF r.p }) := ⟨_, rfl⟩
  have htold : u.Told (s.classP p cause addr) 3 := by
    rw [hu]
    exact (State.event_told _ _ _ _ _ _).trans (State.rasIrq_told _ _ _)
  have hul : u.Logged s.ras.total ⟨s.clk.tick, 0x15, some p, false, 3, 0xFF, 0, BitVec.ofNat 32 cause, BitVec.ofNat 64 addr⟩ := by
    rw [hu]
    exact hlog
  refine ⟨?_, ?_, _, htold.logged _ _ 1 hul (by rw [hu]; rfl) (Nat.le_refl 1) (by decide), rfl, rfl, rfl⟩
  · refine (congrArg (State.unreported · s) htold.rest).trans ?_
    rw [hu]
    exact hnote.rest
  · rw [htold.pstop, hu]
    exact congrArg (· ||| oneHot 16 p) hnote.pstop

theorem State.Faulted.staged {s t : State} {p : Nat} (h : s.Faulted t p) : t.hw.staged = s.hw.staged := congrArg (·.hw.staged) h.rest
theorem State.Faulted.ops {s t : State} {p : Nat} (h : s.Faulted t p) : t.hw.ops = s.hw.ops := congrArg (·.hw.ops) h.rest
theorem State.Faulted.rings {s t : State} {p : Nat} (h : s.Faulted t p) : t.hw.rings = s.hw.rings := congrArg (·.hw.rings) h.rest
theorem State.Faulted.pt {s t : State} {p : Nat} (h : s.Faulted t p) : t.pt = s.pt := congrArg (·.pt) h.rest

end Sys2Proof.Machine
end

section
/-! SUPPORT. What a completion leaves alone (R279, R292, R346): the operations in flight, the tags, the staged commands, the sequences' lengths and
the pairs that wait for a page. -/

namespace Sys2Proof.Machine

/-- `t` has the operations, the next tag and the lengths of the sequences of `s`. -/
structure State.Calm (s t : State) : Prop where
  ops : t.hw.ops = s.hw.ops
  nextOpid : t.hw.nextOpid = s.hw.nextOpid
  lens : ∀ k l, (Tab.get Seq.free t.hw.seqs k).lenOf l = (Tab.get Seq.free s.hw.seqs k).lenOf l

theorem State.Calm.refl (s : State) : s.Calm s := ⟨rfl, rfl, fun _ _ => rfl⟩

theorem State.Calm.trans {r s t : State} (a : r.Calm s) (b : s.Calm t) : r.Calm t :=
  ⟨b.ops.trans a.ops, b.nextOpid.trans a.nextOpid, fun k l => (b.lens k l).trans (a.lens k l)⟩

theorem State.Calm.op {s t : State} (h : s.Calm t) (i : W32) : t.op i = s.op i := by rw [State.op, State.op, h.ops]

theorem State.Calm.of_hw {s t : State} (h : t.hw = s.hw) : s.Calm t := ⟨by rw [h], by rw [h], fun _ _ => by rw [h]⟩

theorem State.Calm.foldl {α : Type} {f : State → α → State} (hf : ∀ (s : State) (x : α), s.Calm (f s x)) (xs : List α) (s : State) :
    s.Calm (xs.foldl f s) := by
  induction xs generalizing s with
  | nil => exact State.Calm.refl s
  | cons x xs ih => exact (hf s x).trans (ih _)

/-- A record of a sequence that keeps its lengths. -/
theorem State.putSeq_calm {s : State} {p q : Nat} {c : Seq} (hc : ∀ l, c.lenOf l = (s.seq p q).lenOf l) : s.Calm (s.putSeq p q c) := by
  refine ⟨rfl, rfl, fun k l => ?_⟩
  change (Tab.get Seq.free (Tab.set Seq.free s.hw.seqs (seqKey p q) c) k).lenOf l = _
  rw [Tab.get_set]
  split
  · rw [hc, ‹k = _›, State.seq]
  · rfl

/-- `t` is `s` after reports and records: staged commands stay, and pairs that wait for a page still do. -/
structure State.Reports (s t : State) : Prop extends State.Calm s t where
  staged : t.hw.staged.map (·.cmd) = s.hw.staged.map (·.cmd)
  dma : ∀ k, (s.pair k).st = .heldDma → (t.pair k).st = .heldDma

theorem State.Reports.refl (s : State) : s.Reports s := ⟨State.Calm.refl s, rfl, fun _ h => h⟩

theorem State.Reports.trans {r s t : State} (a : r.Reports s) (b : s.Reports t) : r.Reports t :=
  ⟨a.toCalm.trans b.toCalm, b.staged.trans a.staged, fun k h => b.dma k (a.dma k h)⟩

theorem State.Reports.foldl {α : Type} {f : State → α → State} (hf : ∀ (s : State) (x : α), s.Reports (f s x)) (xs : List α) (s : State) :
    s.Reports (xs.foldl f s) := by
  induction xs generalizing s with
  | nil => exact State.Reports.refl s
  | cons x xs ih => exact (hf s x).trans (ih _)

theorem State.Reports.of_hw_pairs {s t : State} (h : t.hw = s.hw) (hp : t.pairs = s.pairs) : s.Reports t :=
  ⟨State.Calm.of_hw h, by rw [h], fun k hk => by rw [State.pair, hp]; exact hk⟩

theorem State.Reports.of_unreported {s t : State} (h : t.unreported s = s) : s.Reports t := by
  have hops : t.hw.ops = s.hw.ops := congrArg (·.hw.ops) h
  have hnext : t.hw.nextOpid = s.hw.nextOpid := congrArg (·.hw.nextOpid) h
  have hseqs : t.hw.seqs = s.hw.seqs := congrArg (·.hw.seqs) h
  have hstaged : t.hw.staged = s.hw.staged := congrArg (·.hw.staged) h
  have hpairs : t.pairs = s.pairs := congrArg (·.pairs) h
  exact ⟨⟨hops, hnext, fun k l => by rw [hseqs]⟩, by rw [hstaged], fun k hk => by rw [State.pair, hpairs]; exact hk⟩

theorem State.Told.reports {s t : State} {j : Nat} (h : s.Told t j) : s.Reports t := State.Reports.of_unreported h.rest

theorem State.classP_reports (s : State) (p cause addr : Nat) : s.Reports (s.classP p cause addr) :=
  State.Reports.of_unreported (s.classP_faulted p cause addr).rest

theorem State.countL_reports (s : State) : s.Reports s.countL := State.Reports.of_hw_pairs rfl rfl

theorem State.setRing_reports (s : State) (r : Nat) (c : Ring) : s.Reports (s.setRing r c) :=
  ⟨⟨rfl, rfl, fun _ _ => rfl⟩, rfl, fun _ h => h⟩

/-- A pair that waits for a page still does when another state is written to it that keeps a page's wait. -/
theorem State.setPair_reports {s : State} {n : Nat} {c : Pair} (hc : (s.pair n).st = .heldDma → c.st = .heldDma) : s.Reports (s.setPair n c) := by
  refine ⟨State.Calm.of_hw rfl, rfl, fun k hk => ?_⟩
  by_cases hkn : k = n
  · rw [hkn, State.pair_setPair_self]
    exact hc (by rw [← hkn]; exact hk)
  · rw [State.pair_setPair_ne s hkn]
    exact hk

theorem State.endSwait_reports (s : State) (sp outcome : Nat) : s.Reports (s.endSwait sp outcome) := by
  unfold State.endSwait
  extract_lets x cnt
  split
  · exact State.Reports.refl s
  · extract_lets y z u v w
    have hz : x.st = .heldDma → z.st = .heldDma := fun hx => by
      change (if x.st = PairSt.waitSig then _ else x.st) = PairSt.heldDma
      rw [hx]
      rfl
    split
    · have hu : s.Reports u := State.setPair_reports hz
      have hw : v.Reports w := (v.trace_told _ _ _ _ _ _).reports
      exact ((hu.trans (State.Reports.of_hw_pairs (s := u) (t := v) rfl rfl)).trans hw).trans (State.Reports.of_hw_pairs rfl rfl)
    · exact State.setPair_reports hz

theorem State.releaseWaiter_reports (s : State) (w : Waiter) : s.Reports (s.releaseWaiter w) := by
  cases w with
  | pair sp => exact s.endSwait_reports sp 0
  | command r i =>
    refine ⟨⟨rfl, rfl, fun _ _ => rfl⟩, ?_, fun _ h => h⟩
    refine (List.map_map ..).trans (List.map_congr_left fun x _ => ?_)
    dsimp only [Function.comp]
    split <;> rfl
  | stream n tag => exact State.Reports.of_hw_pairs rfl rfl

theorem State.raise_reports (s : State) (n : Nat) : s.Reports (s.raise n) := by
  unfold State.raise
  dsimp only
  split
  · exact State.Reports.of_hw_pairs rfl rfl
  · exact (State.Reports.of_hw_pairs (s := s) (t := s.modSig (fun g => { g with waiters := g.waiters.filter (fun w => w.1 != n) })) rfl rfl).trans
      (State.Reports.foldl State.releaseWaiter_reports _ _)

theorem State.recordWritten_reports (s : State) (ring : Nat) (idx : W32) (raise : Option Nat) (irq : Bool) :
    s.Reports (s.recordWritten ring idx raise irq) := by
  unfold State.recordWritten
  extract_lets r r' s1 s2
  have hs2 : s.Reports s2 := by
    refine State.Reports.trans (s := s1) (s.setRing_reports ring _) ?_
    cases raise with
    | none => exact State.Reports.refl s1
    | some n => exact s1.raise_reports n
  split
  · exact hs2.trans (s2.sendIrq_told _ _ _ _).reports
  · exact hs2

theorem State.writeRecord_reports (s : State) (ring : Nat) (idx : W32) (w : BitVec 256) (raise : Option Nat) (irq : Bool) :
    s.Reports (s.writeRecord ring idx w raise irq) := by
  unfold State.writeRecord
  dsimp only
  split
  · exact (s.lightWrite_told _ _ _ _ _).reports.trans (State.recordWritten_reports _ ring idx raise irq)
  · exact s.setRing_reports ring _
  · exact s.classP_reports _ _ _

/-- R279, R292: what a completion leaves. -/
theorem State.completeUnder_reports (s : State) (set : CfgSet) (part : Nat) (c : Cmd) (x : Compl) : s.Reports (s.completeUnder set part c x) := by
  unfold State.completeUnder
  extract_lets s1 s2
  have hs1 : s.Reports s1 := by
    dsimp only [s1]
    split
    · exact s.countL_reports
    · exact State.Reports.refl s
  exact (hs1.trans (s1.trace_told _ _ _ _ _ _).reports).trans (s2.writeRecord_reports _ _ _ _ _)

/-- A sequence's record and its words in memory, where the lengths stay. -/
theorem State.setSeq_reports {s : State} {p q : Nat} {c : Seq} (hc : ∀ l, c.lenOf l = (s.seq p q).lenOf l) : s.Reports (s.setSeq p q c) := by
  unfold State.setSeq
  exact (State.Reports.mk (State.putSeq_calm hc) rfl (fun _ h => h)).trans
    (State.Reports.foldl (fun s (w : Nat × List Byte) => (s.vaWrite_told p w.1 w.2).reports) _ _)

/-- R278: an operation counts in its sequence, whose lengths stay. -/
theorem State.countIn_reports (s : State) (o : Op) : s.Reports (s.countIn o) :=
  State.setSeq_reports (fun l => by dsimp only; split <;> rfl)

/-- Loans that go back change the supervisor's books and messages only. -/
theorem State.leaveLoans_rest (s : State) (o : Op) (m : BitVec 32) : (s.leaveLoans o m).hw = s.hw ∧ (s.leaveLoans o m).pairs = s.pairs := by
  unfold State.leaveLoans
  generalize List.range 8 = l
  induction l generalizing s with
  | nil => exact ⟨rfl, rfl⟩
  | cons sp l ih =>
    rw [List.foldl_cons]
    refine (ih _).imp (fun h => h.trans ?_) (fun h => h.trans ?_) <;>
    · dsimp only
      split
      · rfl
      · split
        · rfl
        · obtain ⟨x, hx⟩ := (s.pmOut 0xA o.part (popcount (o.lent &&& m &&& BitVec.ofNat 32 (15 * 2 ^ (4 * sp)))) 0).trace_eq 0x0B o.part
            (BitVec.ofNat 8 (0x40 + sp)) o.opid 1 (popcount (o.lent &&& m &&& BitVec.ofNat 32 (15 * 2 ^ (4 * sp))))
          rw [hx]
          rfl

/-! Holding an operation (R333, R337) -/

/-- The pairs of operation `opid` among `ns` wait for a page. -/
def State.holdPairs (opid : W32) (s : State) (ns : List Nat) : State :=
  ns.foldl (fun s k => if (s.pair k).op = some opid then s.modPair k (fun y => { y with st := .heldDma, lent := false, recalled := false }) else s) s

theorem State.holdPairs_spec (opid : W32) (ns : List Nat) (s : State) :
    let t := State.holdPairs opid s ns
    t.hw = s.hw ∧ (∀ k, (t.pair k).op = (s.pair k).op) ∧ (∀ k, (s.pair k).st = .heldDma → (t.pair k).st = .heldDma)
      ∧ ∀ k ∈ ns, (s.pair k).op = some opid → (t.pair k).st = .heldDma := by
  induction ns generalizing s with
  | nil => exact ⟨rfl, fun _ => rfl, fun _ h => h, fun _ h => absurd h List.not_mem_nil⟩
  | cons n ns ih =>
    obtain ⟨u, hu⟩ : ∃ u, u = if (s.pair n).op = some opid then s.modPair n (fun y => { y with st := .heldDma, lent := false, recalled := false })
      else s := ⟨_, rfl⟩
    have hpair (k : Nat) : (u.pair k).op = (s.pair k).op ∧ ((s.pair k).st = .heldDma → (u.pair k).st = .heldDma)
        ∧ (k = n → (s.pair k).op = some opid → (u.pair k).st = .heldDma) := by
      rw [hu]
      split
      · by_cases hk : k = n
        · subst hk
          simp
        · rw [State.pair_modPair_ne s hk]
          exact ⟨rfl, id, fun h => absurd h hk⟩
      · exact ⟨rfl, id, fun hk ho => absurd (hk ▸ ho) ‹_›⟩
    have hhw : u.hw = s.hw := by rw [hu]; split <;> rfl
    obtain ⟨thw, top, tst, tmem⟩ := ih u
    rw [State.holdPairs, List.foldl_cons, ← hu]
    refine ⟨thw.trans hhw, fun k => (top k).trans (hpair k).1, fun k hk => tst k ((hpair k).2.1 hk), fun k hk ho => ?_⟩
    obtain rfl | hk := List.mem_cons.1 hk
    · exact tst k ((hpair k).2.2 rfl ho)
    · exact tmem k hk ((hpair k).1.trans ho)

/-- `o` as it stands while it is held at `va`. -/
def Op.heldAt (o : Op) (va : Nat) : Op := { o with st := .held, shares := 0, lent := 0, faultVa := va, resumed := true }

theorem State.haltOp_eq {s : State} {opid : W32} {o : Op} (ho : s.op opid = some o) (hst : o.st ≠ .held) (hfull : s.heldFull o.part = false)
    (va : Nat) : ∃ x, s.haltOp opid va = (State.holdPairs opid ((s.leaveLoans o o.lent).setOp (o.heldAt va)) (List.range 8)).completeUnder
      o.set o.part o.cmd x := by
  unfold State.haltOp
  rw [ho]
  dsimp only
  rw [if_neg (by simp [hst, hfull])]
  exact ⟨_, rfl⟩

/-- `t` is `s` with the operation `o` held at `va`. -/
structure State.Held (s t : State) (o : Op) (va : Nat) : Prop where
  op : t.op o.opid = some (o.heldAt va)
  other : ∀ i, i ≠ o.opid → t.op i = s.op i
  pairs : ∀ k, k < 8 → (s.pair k).op = some o.opid → (t.pair k).st = .heldDma
  nextOpid : t.hw.nextOpid = s.hw.nextOpid
  staged : t.hw.staged.map (·.cmd) = s.hw.staged.map (·.cmd)

/-- R333, R337: an operation is held where its partition holds fewer than the block's limit. -/
theorem State.haltOp_held {s : State} {opid : W32} {o : Op} (ho : s.op opid = some o) (hst : o.st ≠ .held) (hfull : s.heldFull o.part = false)
    (va : Nat) : s.Held (s.haltOp opid va) o va := by
  obtain rfl := State.op_opid ho
  obtain ⟨x, hx⟩ := State.haltOp_eq ho hst hfull va
  obtain ⟨hhw, hpairs⟩ := s.leaveLoans_rest o o.lent
  obtain ⟨vhw, -, -, vdma⟩ := State.holdPairs_spec o.opid (List.range 8) ((s.leaveLoans o o.lent).setOp (o.heldAt va))
  obtain ⟨v, hv⟩ : ∃ v, v = State.holdPairs o.opid ((s.leaveLoans o o.lent).setOp (o.heldAt va)) (List.range 8) := ⟨_, rfl⟩
  rw [← hv] at vhw vdma hx
  have hrep := v.completeUnder_reports o.set o.part o.cmd x
  rw [hx]
  refine ⟨?_, fun i hi => ?_, fun k hk hop => hrep.dma k (vdma k (List.mem_range.2 hk) ?_), ?_, ?_⟩
  · rw [hrep.op, State.op_of_hw vhw]
    exact State.op_setOp (o := o.heldAt va) (s := s.leaveLoans o o.lent) ((State.op_of_hw hhw _).trans ho)
  · rw [hrep.op, State.op_of_hw vhw]
    exact (State.op_setOp_ne (o := o.heldAt va) (s.leaveLoans o o.lent) hi).trans (State.op_of_hw hhw i)
  · change (Tab.get Pair.reset (s.leaveLoans o o.lent).pairs k).op = _
    rw [hpairs]
    exact hop
  · rw [hrep.nextOpid, vhw]
    change (s.leaveLoans o o.lent).hw.nextOpid = _
    rw [hhw]
  · rw [hrep.staged, vhw]
    exact congrArg (fun h : Hw => h.staged.map (·.cmd)) hhw

end Sys2Proof.Machine
end

section
/-! SUPPORT. Waits for held pages that end (R158, R333, R337, R411). -/

namespace Sys2Proof.Machine

/-! A command that has waited too long -/

/-- R278: an operation that starts stands behind those in flight. -/
theorem State.startOp_spec (s : State) (o : Op) : (s.startOp o).hw.ops = s.hw.ops ++ [o] ∧ (s.startOp o).hw.nextOpid = s.hw.nextOpid
    ∧ (s.startOp o).hw.staged.map (·.cmd) = s.hw.staged.map (·.cmd) := by
  obtain ⟨u, hu⟩ : ∃ u, u = (s.modHw (fun h => { h with ops := h.ops ++ [o] })).modWeir (fun w => { w with order := w.order + 1 }) := ⟨_, rfl⟩
  have hrep : u.Reports (s.startOp o) := by
    have htrace : u.Reports (u.trace 0x01 o.part 0x80 o.opid (opcodeOf o.cmd + sqidOf o.cmd * 2 ^ 8) (layerOf o.cmd)) :=
      (u.trace_told _ _ _ _ _ _).reports
    subst hu
    unfold State.startOp State.startOpAt
    dsimp only
    split
    · exact htrace
    · exact htrace.trans (State.countIn_reports _ o)
  subst hu
  exact ⟨hrep.ops, hrep.nextOpid, hrep.staged⟩

theorem State.op_append {s t : State} {o : Op} (hops : t.hw.ops = s.hw.ops ++ [o]) (hnew : ∀ x ∈ s.hw.ops, x.opid ≠ o.opid) :
    t.op o.opid = some o ∧ ∀ i, i ≠ o.opid → t.op i = s.op i := by
  have hnone : s.hw.ops.find? (fun x => x.opid = o.opid) = none := List.find?_eq_none.2 (fun x hx => by simpa using hnew x hx)
  refine ⟨by rw [State.op, hops, List.find?_append, hnone]; simp, fun i hi => ?_⟩
  rw [State.op, hops, List.find?_append]
  simp [State.op, Ne.symm hi]

theorem State.heldFull_false {s : State} {p : Nat} (h : s.hw.ops.countP (fun o => o.part = p && o.st = .held) < 64) : s.heldFull p = false := by
  rw [State.heldFull]
  exact decide_eq_false (Nat.not_le.2 h)

/-- R333: the operation that a command becomes which waits for a page. -/
def State.haltedOp (s : State) (p : Nat) (c : Cmd) : Op :=
  { newOp s.hw.nextOpid p c s.cfg.active (s.seq p (sqidOf c)).epoch s.clk.tick.toNat s.weir.order with begun := false }

theorem State.haltCmd_eq {s : State} {p : Nat} (hfull : s.heldFull p = false) (c : Cmd) (va : Nat) :
    s.haltCmd p c va = ((s.takeOpid.2.unstage c).startOp (s.haltedOp p c)).haltOp s.hw.nextOpid va := by
  unfold State.haltCmd
  rw [hfull, if_neg (by decide)]
  rfl

/-- R333: a command that waits for a page becomes an operation that is held, with the next tag. -/
theorem State.haltCmd_held {s : State} {p : Nat} {c : Cmd} (hnew : ∀ o ∈ s.hw.ops, o.opid ≠ s.hw.nextOpid)
    (hroom : s.hw.ops.countP (fun o => o.part = p && o.st = .held) < 64) (va : Nat) :
    ∃ o : Op, o.opid = s.hw.nextOpid ∧ o.cmd = c ∧ o.part = p ∧ o.clusters = 0 ∧ (s.haltCmd p c va).op o.opid = some (o.heldAt va)
      ∧ (∀ y ∈ (s.haltCmd p c va).hw.staged, y.cmd ≠ c) ∧ (s.haltCmd p c va).hw.nextOpid = s.hw.nextOpid + 1
      ∧ ∀ i, i ≠ o.opid → (s.haltCmd p c va).op i = s.op i := by
  rw [State.haltCmd_eq (State.heldFull_false hroom)]
  obtain ⟨o, ho⟩ : ∃ o, o = s.haltedOp p c := ⟨_, rfl⟩
  rw [← ho]
  have hopid : o.opid = s.hw.nextOpid := by rw [ho]; rfl
  have hpart : o.part = p := by rw [ho]; rfl
  have hst : o.st = .running := by rw [ho]; rfl
  obtain ⟨u, hu⟩ : ∃ u, u = s.takeOpid.2.unstage c := ⟨_, rfl⟩
  have huops : u.hw.ops = s.hw.ops := by rw [hu]; rfl
  have hustaged : u.hw.staged = s.hw.staged.filter (fun x => x.cmd != c) := by rw [hu]; rfl
  have hunext : u.hw.nextOpid = s.hw.nextOpid + 1 := by rw [hu]; rfl
  rw [← hu]
  obtain ⟨hops, hnext, hstaged⟩ := u.startOp_spec o
  rw [huops] at hops
  obtain ⟨hop, hothers⟩ := State.op_append hops (fun x hx => by rw [hopid]; exact hnew x hx)
  have hfull : (u.startOp o).heldFull o.part = false := State.heldFull_false (by
    rw [hops, List.countP_append, hpart]
    simpa [hst] using hroom)
  have hheld := State.haltOp_held hop (by rw [hst]; decide) hfull va
  rw [← hopid]
  refine ⟨o, rfl, by rw [ho]; rfl, hpart, by rw [ho]; rfl, hheld.op, fun y hy => ?_, ?_, fun i hi => (hheld.other i hi).trans (hothers i hi)⟩
  · have hmem : y.cmd ∈ (s.hw.staged.filter (fun x => x.cmd != c)).map (·.cmd) := by
      rw [← hustaged, ← hstaged, ← hheld.staged]
      exact List.mem_map_of_mem hy
    obtain ⟨x, hx, hxc⟩ := List.mem_map.1 hmem
    rw [← hxc]
    simpa using (List.mem_filter.1 hx).2
  · rw [hheld.nextOpid, hnext, hunext, hopid]

/-! Rings that wait (R411, R415) -/

/-- R411: a partition that stopped fetches from no ring. -/
theorem State.ringOpen_stopped {s : State} {r : Ring} {m : BitVec 16} (h : s.ras.pstop = m ||| oneHot 16 r.part.toNat) : s.ringOpen r = false := by
  have hlt : r.part.toNat < 16 := r.part.isLt
  have hbit : bit s.ras.pstop r.part.toNat = true := by
    simp [bit, h, oneHot, hlt]
  simp [State.ringOpen, hbit]

/-- Settles O34: a wait that ends holds its operation, or is a class P fault of its partition. -/
theorem heldPages : Obligations.HeldPages := by
  unfold Obligations.HeldPages
  refine ⟨fun s hf => ⟨fun ring idx x hx hst hnew hroom => ?_, fun opid o va ho hva hst hroom => ?_⟩, fun s ring idx hf hnone => ?_,
    fun s ring idx x a hf hx hst hpart ha => ?_⟩
  · have hexec : exec (.heldTimeout ring idx) s = .next (s.haltCmd x.part x.cmd x.va) := by
      have hlong : exec (.heldTimeout ring idx) s = .next (s.heldTooLong x) := by
        simp only [exec, execHeldTimeout, hf, hx, hst]
        rfl
      rw [hlong, State.heldTooLong, State.heldFull_false hroom]
      rfl
    obtain ⟨o, hopid, hcmd, hpart, hclusters, hop, hstaged, hnext, hothers⟩ := State.haltCmd_held (c := x.cmd) hnew hroom x.va
    rw [hopid] at hop hothers
    exact ⟨_, _, hexec, hop, rfl, hcmd, hpart, rfl, rfl, hclusters, hstaged, hnext, hothers⟩
  · have hexec : exec (.holdTimeout opid) s = .next (s.haltOp opid va) := by
      simp [exec, execHoldTimeout, hf, ho, hva]
    obtain rfl := State.op_opid ho
    have hheld := State.haltOp_held ho hst (State.heldFull_false hroom) va
    exact ⟨_, hexec, hheld.op, hheld.other, hheld.pairs, hheld.nextOpid⟩
  · have hfind : s.hw.staged.find? (fun y => y.cmd.ring = ring.toNat && y.cmd.idx = idx) = none :=
      List.find?_eq_none.2 (fun y hy => by simpa using hnone y hy)
    intro r
    refine ⟨fun hw hidx => ?_, fun hw hun hres => ?_, fun hw hun a hres => ?_⟩
    · have hexec : exec (.heldTimeout ring idx) s = .next ((s.setRing ring.toNat { r with waits := false }).classP r.part.toNat 0x15
          (r.base.toNat + 64 * (idx.toNat % r.n))) := by
        simp [exec, execHeldTimeout, hf, hfind, r, hw, hidx]
      have hfault := (s.setRing ring.toNat { r with waits := false }).classP_faulted r.part.toNat 0x15 (r.base.toNat + 64 * (idx.toNat % r.n))
      have hring : ((s.setRing ring.toNat { r with waits := false }).classP r.part.toNat 0x15 (r.base.toNat + 64 * (idx.toNat % r.n))).ring ring.toNat
          = { r with waits := false } := by
        rw [State.ring, hfault.rings]
        exact State.ring_setRing_self s ring.toNat { r with waits := false }
      refine ⟨_, hexec, hring, hfault.pstop, ?_, hfault.staged, hfault.ops, hfault.logged⟩
      rw [hring]
      exact State.ringOpen_stopped hfault.pstop
    · simp [exec, execHeldTimeout, hf, hfind, r, hw, hun, hres]
    · have hexec : exec (.heldTimeout ring idx) s = .next ((s.modPt r.part.toNat (fun t => { t with rringWait := t.rringWait.drop 1 })).classP
          r.part.toNat 0x15 a) := by
        simp [exec, execHeldTimeout, hf, hfind, r, hw, hun, hres]
      have hfault := (s.modPt r.part.toNat (fun t => { t with rringWait := t.rringWait.drop 1 })).classP_faulted r.part.toNat 0x15 a
      refine ⟨_, hexec, hfault.pstop, ?_, hfault.logged⟩
      rw [State.ptReg, hfault.pt]
      exact congrArg Pt.rringWait (State.ptReg_modPt_self s r.part.toNat _)
  · have hexec : exec (.heldTimeout ring idx) s = .next (s.classP x.part 0x15 a) := by
      simp [exec, execHeldTimeout, hf, hx, hst, ha]
    have hfault := s.classP_faulted x.part 0x15 a
    exact ⟨_, hexec, hfault.pstop, hfault.staged, hfault.logged⟩

end Sys2Proof.Machine
end

section
/-! SUPPORT. The merge tree of an ATTEND (R143 to R147, R153 to R155): what a node that does not complete the root leaves, for the one operation in
flight and for one of several. -/

namespace Sys2Proof.Machine

/-! Nodes of the tree -/

/-- Nodes have keys of their own while their numbers stay below 2^32. -/
theorem nodeKey_ne {k j k' j' : Nat} (hj : j < 2 ^ 32) (hj' : j' < 2 ^ 32) (h : k ≠ k') : nodeKey k j ≠ nodeKey k' j' := by
  unfold nodeKey
  omega

theorem Op.node_setNode_self (o : Op) (k j : Nat) (x : Node) : (o.setNode k j x).node k j = some x :=
  Tab.get_set_self none o.nodes (nodeKey k j) (some x)

theorem Op.node_setNode_ne (o : Op) {k j k' j' : Nat} (h : nodeKey k' j' ≠ nodeKey k j) (x : Node) : (o.setNode k j x).node k' j' = o.node k' j' :=
  Tab.get_set_ne none o.nodes h (some x)

/-- R146: a node whose sibling covers a present segment stays where it is. -/
theorem Op.passUp_stays {o : Op} {k j : Nat} (hcov : o.covers k (if j % 2 = 0 then j + 1 else j - 1) = true) (fuel : Nat) :
    Op.passUp fuel o k j = o := by
  cases fuel with
  | zero => rfl
  | succ n =>
    rw [Op.passUp]
    split
    · rfl
    · exact if_pos hcov

/-- R146, R147: a node below the root, with a sibling present, joins its operation, and nothing is written. -/
theorem State.nodeDone_below {o : Op} {k j : Nat} (hcov : o.covers k (if j % 2 = 0 then j + 1 else j - 1) = true) (hk : k < o.depth)
    (hj : j < 2 ^ 32) (hroot : o.node o.depth 0 = none) (s : State) (x : Node) : s.nodeDone o k j x = s.setOp (o.setNode k j x) := by
  have hstay : Op.passUp 23 (o.setNode k j x) k j = o.setNode k j x := Op.passUp_stays (o := o.setNode k j x) hcov 23
  have hnone : (o.setNode k j x).node (o.setNode k j x).depth 0 = none :=
    (o.node_setNode_ne (nodeKey_ne (by decide) hj (Nat.ne_of_gt hk)) x).trans hroot
  unfold State.nodeDone
  dsimp only
  rw [hstay, hnone]

theorem segPartial_length (s : State) (o : Op) (gs : List Nat) (a : AttnPar) (n : Nat) (qs : List (List Fl)) (keys seg : Nat) (h : qs.length = n) :
    (s.segPartial o gs a qs keys seg).length = n := by
  rw [State.segPartial, List.length_mapIdx, h]

theorem State.queryRows_length (s : State) (o : Op) (inp : List Byte) (t0 n pos : Nat) :
    (s.queryRows o inp t0 n pos).length = n * (shapeOf o.desc o.cmd).hq := by
  unfold State.queryRows
  dsimp only
  split
  · rw [List.length_map, Op.fedRows, List.length_map, List.length_range]
  · rw [List.length_map, List.length_range]

theorem shapeOf_nq (d : PoolDesc) (c : Cmd) : (shapeOf d c).nq = nqOf c := by
  unfold shapeOf
  split <;> rfl

/-! A segment of the one operation in flight (R143) -/

/-- `y` is `o` but for its counts and its shares, and what a partial does not ask for. -/
structure Op.Alike (y o : Op) : Prop where
  opid : y.opid = o.opid
  part : y.part = o.part
  sends : y.sends = o.sends
  keys : y.keys = o.keys
  st : y.st = o.st
  place : y.place = o.place
  nodes : y.nodes = o.nodes

theorem Op.Alike.refl (o : Op) : o.Alike o := ⟨rfl, rfl, rfl, rfl, rfl, rfl, rfl⟩

theorem Op.Alike.depth {y o : Op} (h : y.Alike o) : y.depth = o.depth := by rw [Op.depth, Op.depth, h.keys]

theorem Op.Alike.covers {y o : Op} (h : y.Alike o) (k j : Nat) : y.covers k j = o.covers k j := by rw [Op.covers, Op.covers, h.place]

theorem Op.Alike.node {y o : Op} (h : y.Alike o) (k j : Nat) : y.node k j = o.node k j := by rw [Op.node, Op.node, h.nodes]

theorem Op.Alike.setNode {y o : Op} (h : y.Alike o) (k j : Nat) (x : Node) : (y.setNode k j x).Alike (o.setNode k j x) :=
  ⟨h.opid, h.part, h.sends, h.keys, h.st, h.place, congrArg (fun t => Tab.set none t (nodeKey k j) (some x)) h.nodes⟩

/-- `t` has the clusters and the memory of `s`, and one operation in flight, which is like `o`. -/
structure State.OneOp (s t : State) (o : Op) : Prop where
  ops : ∃ y : Op, t.hw.ops = [y] ∧ y.Alike o
  clusters : t.clusters = s.clusters
  mem : t.mem = s.mem

theorem State.op_one {t : State} {y : Op} (h : t.hw.ops = [y]) : t.op y.opid = some y := by simp [State.op, h]

theorem State.OneOp.op {s t : State} {o : Op} (h : s.OneOp t o) : ∃ y : Op, t.op o.opid = some y ∧ y.Alike o := by
  obtain ⟨y, hy, hlike⟩ := h.ops
  exact ⟨y, hlike.opid ▸ State.op_one hy, hlike⟩

theorem State.OneOp.setOp {s t : State} {o x z : Op} (h : s.OneOp t o) (hx : x.Alike z) (hz : z.opid = o.opid) : s.OneOp (t.setOp x) z := by
  obtain ⟨y, hy, hlike⟩ := h.ops
  exact ⟨⟨x, by simp [State.setOp, hy, hlike.opid, hx.opid, hz], hx⟩, h.clusters, h.mem⟩

theorem State.OneOp.of_rest {s t u : State} {o : Op} (h : s.OneOp t o) (hhw : u.hw = t.hw) (hc : u.clusters = t.clusters) (hm : u.mem = t.mem) :
    s.OneOp u o := ⟨by rw [hhw]; exact h.ops, hc.trans h.clusters, hm.trans h.mem⟩

theorem State.OneOp.builtinReads {s t : State} {o : Op} (h : s.OneOp t o) (p : Nat) : s.OneOp (t.builtinReads p) o := by
  unfold State.builtinReads State.meterEvent
  dsimp only
  split
  · exact h.of_rest rfl rfl rfl
  · split <;> exact h.of_rest rfl rfl rfl

theorem State.OneOp.firstMac {s t : State} {o : Op} (h : s.OneOp t o) (n : Nat) : s.OneOp (t.firstMac n o.opid) o := by
  obtain ⟨y, hop, hy⟩ := h.op
  unfold State.firstMac
  rw [hop]
  dsimp only
  split
  · exact h
  · have hset : s.OneOp (t.setOp { y with mac := true }) o := h.setOp ⟨hy.opid, hy.part, hy.sends, hy.keys, hy.st, hy.place, hy.nodes⟩ rfl
    obtain ⟨x, hx⟩ := (t.setOp { y with mac := true }).trace_eq 0x02 y.part (BitVec.ofNat 8 n) o.opid n 0
    rw [hx]
    exact hset.of_rest rfl rfl rfl

/-- R157: at a boundary the operation may give a share back. -/
theorem State.OneOp.yieldShare {s t : State} {o : Op} (h : s.OneOp t o) (n : Nat) : s.OneOp (t.yieldShare o.opid n) o := by
  obtain ⟨y, hop, hy⟩ := h.op
  unfold State.yieldShare
  rw [hop]
  dsimp only
  split
  · exact h.setOp ⟨hy.opid, hy.part, hy.sends, hy.keys, hy.st, hy.place, hy.nodes⟩ rfl
  · exact h

/-- R322: no segment of the operation waits for a cluster. -/
theorem State.OneOp.placeWaiting {s t : State} {o : Op} (h : s.OneOp t o) (hplace : ∀ x ∈ o.place, x.2 ≠ noCluster) (p : Nat) :
    s.OneOp (t.placeWaiting p) o := by
  obtain ⟨y, hops, hy⟩ := h.ops
  have hopen : y.open.any (fun x => x.2 = noCluster) = false :=
    List.any_eq_false.2 (fun x hx => by simpa using hplace x (hy.place ▸ (List.mem_filter.1 hx).1))
  unfold State.placeWaiting
  rw [hops, List.filter_cons_of_neg (by simp [hopen])]
  exact h

/-- The two segments of an operation of depth 1 are siblings. -/
theorem covers_sibling {o : Op} {seg home : Nat} (hplace : o.place = [(seg, home), (seg ^^^ 1, home)]) (hseg : seg < 2) :
    o.covers 0 (if seg % 2 = 0 then seg + 1 else seg - 1) = true := by
  rw [Op.covers, hplace]
  obtain rfl | rfl : seg = 0 ∨ seg = 1 := by omega
  · simp
  · simp

/-- R143: what a finished segment leaves of the one operation in flight, where another segment is still to come. -/
theorem State.finishSegment_one {s : State} {o : Op} {seg home : Nat} (hops : s.hw.ops = [o]) (hsends : o.sends = false)
    (hplace : o.place = [(seg, home), (seg ^^^ 1, home)]) (hdepth : o.depth = 1) (hnodes : o.nodes = []) (hseg : seg < 2) (hhome : home ≠ noCluster) :
    ∃ rows, rows.length = (shapeOf o.desc o.cmd).nq * (shapeOf o.desc o.cmd).hq
      ∧ s.OneOp (s.finishSegment o seg home) (o.setNode 0 seg ⟨rows, home⟩) := by
  unfold State.finishSegment
  extract_lets c a rs u z x
  have hu : s.OneOp u o :=
    (State.OneOp.builtinReads ⟨⟨o, hops, Op.Alike.refl o⟩, rfl, rfl⟩ o.part).firstMac home
  obtain ⟨y, hlive, hy⟩ := hu.op
  have hz : z.Alike o := by
    dsimp only [z]
    rw [State.live, hlive]
    exact ⟨hy.opid, hy.part, hy.sends, hy.keys, hy.st, hy.place, hy.nodes⟩
  have hdone : u.nodeDone z 0 seg x = u.setOp (z.setNode 0 seg x) := by
    refine State.nodeDone_below (by rw [hz.covers]; exact covers_sibling hplace hseg) (by rw [hz.depth, hdepth]; exact Nat.one_pos) (by omega) ?_ u x
    rw [hz.node, Op.node, hnodes]
    rfl
  rw [hz.sends, hsends, if_neg (by decide), hdone, hz.opid]
  have hset : s.OneOp (u.setOp (z.setNode 0 seg x)) (o.setNode 0 seg x) := hu.setOp (hz.setNode 0 seg x) rfl
  refine ⟨rs.map RowAcc.row, ?_, (hset.yieldShare home).placeWaiting (fun e he => ?_) _⟩
  · rw [List.length_map, shapeOf_nq]
    exact segPartial_length _ _ _ _ _ _ _ _ (State.queryRows_length _ _ _ _ _ _)
  · have he' : e ∈ [(seg, home), (seg ^^^ 1, home)] := hplace ▸ he
    obtain rfl | rfl := List.mem_pair.1 he' <;> exact hhome

/-! Partial tiles (R325) -/

theorem State.resend_peer (s : State) (t : PTile) : ∃ x, s.resend t = { s with peer := x } := by
  cases hop : s.op t.opid with
  | none => exact ⟨s.peer, State.resend_none hop⟩
  | some o => exact ⟨_, State.resend_some hop⟩

end Sys2Proof.Machine
end

section
/-! SUPPORT. What the operations on page groups leave alone (R249 to R270): the operations in flight and the lengths of the sequences. -/

namespace Sys2Proof.Machine

/-! Records, chains and frames -/

theorem State.Calm.modPool (s : State) (p : Nat) (f : Pool → Pool) : s.Calm (s.modPool p f) := State.Calm.of_hw rfl

theorem State.Calm.setPt (s : State) (p : Nat) (t : Pt) : s.Calm (s.setPt p t) := State.Calm.of_hw rfl

theorem State.vaWrite_calm (s : State) (space va : Nat) (bs : List Byte) : s.Calm (s.vaWrite space va bs) := (s.vaWrite_told space va bs).reports.toCalm

theorem State.setSeq_calm {s : State} {p q : Nat} {c : Seq} (hc : ∀ l, c.lenOf l = (s.seq p q).lenOf l) : s.Calm (s.setSeq p q c) :=
  (State.setSeq_reports hc).toCalm

theorem State.setPg_calm (s : State) (p g : Nat) (r : PgRec) : s.Calm (s.setPg p g r) :=
  (State.Calm.of_hw (s := s) (t := s.draw.2.modPool p (fun x => { x with recs := Tab.set PgRec.free x.recs g r })) rfl).trans
    (State.vaWrite_calm _ _ _ _)

theorem State.modPg_calm (s : State) (p g : Nat) (f : PgRec → PgRec) : s.Calm (s.modPg p g f) := s.setPg_calm p g _

theorem State.setBucket_calm (s : State) (p b g : Nat) : s.Calm (s.setBucket p b g) :=
  (State.Calm.modPool s p (fun x => { x with buckets := Tab.set noGroup x.buckets b g })).trans (State.vaWrite_calm _ _ _ _)

theorem State.unhash_calm (s : State) (p g : Nat) : s.Calm (s.unhash p g) := by
  unfold State.unhash
  extract_lets r b u
  split
  · exact State.Calm.refl s
  · have hu : s.Calm u := by
      dsimp only [u]
      split
      · exact s.setBucket_calm p b r.next
      · split
        · exact s.modPg_calm p _ _
        · exact State.Calm.refl s
    exact hu.trans (u.modPg_calm p g _)

theorem State.freeGroup_calm (s : State) (p g : Nat) : s.Calm (s.freeGroup p g) := by
  unfold State.freeGroup
  extract_lets u r v
  have hv : u.Calm v := by
    dsimp only [v]
    split
    · exact State.Calm.of_hw rfl
    · exact State.Calm.refl u
  exact ((s.unhash_calm p g).trans hv).trans (v.setPg_calm p g _)

/-- A change of every sequence that leaves their lengths leaves the length of each. -/
theorem lenOf_map {f : Nat × Seq → Nat × Seq} (hkey : ∀ e, (f e).1 = e.1) (hlen : ∀ e l, (f e).2.lenOf l = e.2.lenOf l) (t : Tab Seq)
    (k l : Nat) :
    (Tab.get Seq.free (t.map f) k).lenOf l = (Tab.get Seq.free t k).lenOf l := by
  induction t with
  | nil => rfl
  | cons e t ih =>
    simp only [List.map_cons, Tab.get, hkey]
    split
    · exact hlen e l
    · exact ih

theorem State.clearPaused_calm (s : State) (p : Nat) : s.Calm (s.clearPaused p) := by
  refine ⟨rfl, rfl, fun k l => lenOf_map (fun e => ?_) (fun e l => ?_) s.hw.seqs k l⟩
  · dsimp only
    split <;> rfl
  · dsimp only
    split <;> rfl

theorem State.judgeFamine_calm (s : State) (p : Nat) : s.Calm (s.judgeFamine p) := by
  unfold State.judgeFamine
  extract_lets d old f u
  have hu : s.Calm u := State.Calm.of_hw rfl
  split
  · exact State.Calm.refl s
  · split
    · exact (hu.trans (u.clearPaused_calm p)).trans (State.irqPending_told _ _ _ _ _ _).reports.toCalm
    · exact hu

theorem State.unreferenced_calm (s : State) (p g : Nat) : s.Calm (s.unreferenced p g) := by
  unfold State.unreferenced
  dsimp only
  split
  · exact State.Calm.refl s
  · exact State.Calm.refl s
  · split
    · exact State.Calm.refl s
    · exact s.setPg_calm p g _
  · exact s.freeGroup_calm p g
  · exact State.Calm.refl s
  · split
    · exact s.modPg_calm p g _
    · exact s.freeGroup_calm p g

theorem State.dropRef_calm (s : State) (p g : Nat) : s.Calm (s.dropRef p g) := by
  unfold State.dropRef
  extract_lets u
  have hu : s.Calm u := s.modPg_calm p g _
  split
  · exact (hu.trans (u.unreferenced_calm p g)).trans (State.judgeFamine_calm _ p)
  · exact hu.trans (u.judgeFamine_calm p)

theorem State.unpin_calm (s : State) (p g : Nat) : s.Calm (s.unpin p g) := by
  unfold State.unpin
  extract_lets u
  have hu : s.Calm u := s.modPg_calm p g _
  split
  · exact (hu.trans (State.Calm.modPool u p _)).trans (State.judgeFamine_calm _ p)
  · exact hu

/-! The end of an operation (R279, R333, R348) -/

theorem State.dropCopies_calm (s : State) (o : Op) : s.Calm (s.dropCopies o) :=
  State.Calm.foldl (fun s (r : Nat × PgRec) => (s.modPg_calm o.part r.1 _).trans (State.dropRef_calm _ o.part r.1)) _ s

theorem State.seqDone_calm (s : State) (p q : Nat) : s.Calm (s.seqDone p q) := by
  unfold State.seqDone
  dsimp only
  split
  · exact State.Calm.refl s
  · exact State.setSeq_calm (fun _ => rfl)

theorem State.showProgress_calm (s : State) (p q : Nat) : s.Calm (s.showProgress p q) := by
  unfold State.showProgress
  split
  · split
    · exact State.Calm.refl s
    · exact State.setSeq_calm (fun _ => rfl)
  · exact State.Calm.refl s

theorem State.freePairs_hw (s : State) (o : Op) : (s.freePairs o).hw = s.hw := by
  unfold State.freePairs
  generalize List.range 8 = ns
  induction ns generalizing s with
  | nil => rfl
  | cons k ns ih =>
    rw [List.foldl_cons, ih]
    dsimp only
    split
    · rfl
    · split <;> rfl

theorem State.servedBy_calm (s : State) (o : Op) : s.Calm (s.servedBy o) := by
  unfold State.servedBy
  exact State.Calm.foldl (fun s k => State.Calm.of_hw (t := s.modPair k _) rfl) _ s

theorem State.resumeRecord_calm (s : State) (p : Nat) (w : BitVec 256) (sig : Option Nat) : s.Calm (s.resumeRecord p w sig) := by
  unfold State.resumeRecord
  extract_lets t a w' u
  split
  · exact State.Calm.setPt s p _
  · split
    · have hu : s.Calm u := ((s.lightWrite_told _ _ _ _ _).reports.toCalm.trans (State.Calm.setPt _ p _)).trans
        (State.irqPending_told _ _ _ _ _ _).reports.toCalm
      cases sig with
      | none => exact hu
      | some n => exact hu.trans (u.raise_reports n).toCalm
    · exact State.Calm.setPt s p _
    · exact (s.classP_reports _ _ _).toCalm

/-- `t` has the operations of `s` but that of tag `i`, and the lengths of its sequences. -/
structure State.Ended (s t : State) (i : W32) : Prop where
  gone : t.op i = none
  other : ∀ j, j ≠ i → t.op j = s.op j
  lens : ∀ k l, (Tab.get Seq.free t.hw.seqs k).lenOf l = (Tab.get Seq.free s.hw.seqs k).lenOf l

theorem State.Ended.calm {s t u : State} {i : W32} (h : s.Ended t i) (hu : t.Calm u) : s.Ended u i :=
  ⟨(hu.op i).trans h.gone, fun j hj => (hu.op j).trans (h.other j hj), fun k l => (hu.lens k l).trans (h.lens k l)⟩

theorem State.dropOp_ended {s u : State} (hu : s.Calm u) (i : W32) : s.Ended (u.dropOp i) i := by
  refine ⟨List.find?_eq_none.2 fun o ho => ?_, fun j hj => ?_, fun k l => hu.lens k l⟩
  · simpa using (List.mem_filter.1 ho).2
  · refine Eq.trans ?_ (hu.op j)
    refine (List.find?_filter ..).trans (congrArg (fun f => u.hw.ops.find? f) (funext fun o => ?_))
    by_cases ho : o.opid = j
    · simp [ho, hj]
    · simp [ho]

theorem State.freeOp_ended (s : State) (o : Op) : s.Ended (s.freeOp o) o.opid := by
  unfold State.freeOp
  extract_lets u v w live
  have hu : s.Calm u := State.Calm.foldl (fun s g => s.unpin_calm o.part g) o.pins s
  have hloans : s.Calm (((u.dropCopies o).leaveLoans o o.lent).freePairs o) :=
    (hu.trans (u.dropCopies_calm o)).trans (State.Calm.of_hw ((State.freePairs_hw _ o).trans (State.leaveLoans_rest _ o o.lent).1))
  have hv : s.Ended v o.opid := State.dropOp_ended hloans o.opid
  have hw : s.Ended w o.opid := by
    dsimp only [w]
    split
    · exact hv
    · exact hv.calm ((v.seqDone_calm _ _).trans (State.showProgress_calm _ _ _))
  split
  · exact hw
  · exact hw.calm (State.Calm.of_hw rfl)

/-- R279, R333: an operation that ends leaves the others and the lengths. -/
theorem State.endOp_ended {s : State} {opid : W32} {o : Op} (ho : s.op opid = some o) (status detail : Nat) (result : BitVec 96) :
    s.Ended (s.endOp opid status detail result) opid := by
  obtain rfl := State.op_opid ho
  unfold State.endOp
  rw [ho]
  dsimp only
  have hserved := s.servedBy_calm o
  have hfree := (s.servedBy o).freeOp_ended o
  have hend : s.Ended ((s.servedBy o).freeOp o) o.opid :=
    ⟨hfree.gone, fun j hj => (hfree.other j hj).trans (hserved.op j), fun k l => (hfree.lens k l).trans (hserved.lens k l)⟩
  split
  · split
    · exact hend.calm (((State.countL_reports _).toCalm.trans (State.trace_told _ _ _ _ _ _ _).reports.toCalm).trans (State.resumeRecord_calm _ _ _ _))
    · exact hend.calm ((State.trace_told _ _ _ _ _ _ _).reports.toCalm.trans (State.resumeRecord_calm _ _ _ _))
  · exact hend.calm (State.completeUnder_reports _ _ _ _ _).toCalm

end Sys2Proof.Machine
end

section
/-! SUPPORT. What a chunk of a PREFILL does to the lengths of sequences (R254, R306): the groups it takes, the tokens it writes, its ATTEND step and
the famine measures after it leave them; its APPEND step alone changes one. -/

namespace Sys2Proof.Machine

/-! Groups taken and filled (R251, R254) -/

theorem State.modSeq_calm {s : State} {p q : Nat} {f : Seq → Seq} (hf : ∀ l, (f (s.seq p q)).lenOf l = (s.seq p q).lenOf l) :
    s.Calm (s.modSeq p q f) :=
  State.setSeq_calm hf

theorem State.pick_calm (s : State) (xs : List Nat) : s.Calm (s.pick xs).2 := by
  unfold State.pick
  split
  · exact State.Calm.refl s
  · exact State.Calm.refl s
  · exact State.Calm.of_hw rfl

theorem State.freeCold_calm (s : State) (p g : Nat) : s.Calm ((s.unhash p g).setPg p g PgRec.free) :=
  (s.unhash_calm p g).trans (State.setPg_calm _ p g _)

theorem State.reclaim_calm (s : State) (p g : Nat) : s.Calm (s.reclaim p g) := s.freeGroup_calm p g

theorem State.allocId_calm (s : State) (p : Nat) : s.Calm (s.allocId p).2 := by
  unfold State.allocId
  split
  · exact s.pick_calm _
  · split
    · dsimp only
      exact s.freeCold_calm p _
    · split
      · dsimp only
        exact s.reclaim_calm p _
      · exact State.Calm.refl s

theorem State.allocFrame_calm (s : State) (p : Nat) : s.Calm (s.allocFrame p).2 := by
  unfold State.allocFrame
  split
  · exact s.pick_calm _
  · split
    · dsimp only
      exact s.reclaim_calm p _
    · exact State.Calm.refl s

theorem State.allocSlot_calm (s : State) (p : Nat) : s.Calm (s.allocSlot p).2 := by
  unfold State.allocSlot
  split
  · exact s.pick_calm _
  · split
    · dsimp only
      exact s.freeCold_calm p _
    · exact State.Calm.refl s

theorem State.blankTrailer_calm (s : State) (p g : Nat) : s.Calm (s.blankTrailer p g) :=
  (s.vaWrite_calm _ _ _).trans (State.vaWrite_calm _ _ _ _)

theorem State.newGroup_calm (s : State) (p q : Nat) : s.Calm (s.newGroup p q).2 := by
  unfold State.newGroup
  split
  · exact State.Calm.refl s
  · have hid := s.allocId_calm p
    split
    · exact State.Calm.refl s
    · rename_i g u hu
      rw [hu] at hid
      have hframe := u.allocFrame_calm p
      split
      · exact State.Calm.refl s
      · rename_i f v hv
        rw [hv] at hframe
        refine (hid.trans (hframe.trans (State.Calm.of_hw (t := v.draw.2) rfl))).trans ?_
        exact ((State.setPg_calm _ p g _).trans (State.blankTrailer_calm _ p g)).trans (State.judgeFamine_calm _ p)

theorem State.takeBlocks_calm {t : State} {n : Nat} {s : State} {p q k : Nat} {opid : W32} (h : s.takeBlocks p q n k opid = .ok t) : s.Calm t := by
  induction n generalizing s k with
  | zero =>
    unfold State.takeBlocks at h
    split at h
    · exact Need.noConfusion h
    · obtain rfl := Need.ok.inj h
      exact State.Calm.refl s
  | succ n ih =>
    unfold State.takeBlocks at h
    have hnew := s.newGroup_calm p q
    split at h
    · split at h
      · exact ih h
      · split at h
        · rename_i g u hu
          rw [hu] at hnew
          exact (hnew.trans (u.modPg_calm p g _)).trans (ih h)
        · exact Need.noConfusion h
        · exact Need.noConfusion h
    · split at h
      · rename_i g u hu
        rw [hu] at hnew
        exact (hnew.trans (State.modSeq_calm (s := u) (p := p) (q := q) (fun _ => rfl))).trans (ih h)
      · exact Need.noConfusion h
      · exact Need.noConfusion h

theorem State.judgeNeed_ok {s t : State} {p q l : Nat} {ks : List Nat} {opid : W32} {r : Need} (h : s.judgeNeed p q l ks opid r = .ok t) :
    r = .ok t := by
  unfold State.judgeNeed at h
  dsimp only at h
  split at h
  · exact Need.noConfusion h
  · exact Need.noConfusion h
  · exact h

/-- R254: the blocks that a command needs are taken without a change of lengths. -/
theorem State.needBlocks_calm {s t : State} {p q l start n : Nat} {opid : W32} (h : s.needBlocks p q l start n opid = .ok t) : s.Calm t := by
  unfold State.needBlocks at h
  dsimp only at h
  split at h
  · exact Need.noConfusion h
  · split at h
    · exact Need.noConfusion h
    · split at h
      · exact Need.noConfusion h
      · split at h
        · rename_i u hu
          obtain rfl := Need.ok.inj (State.judgeNeed_ok h)
          exact State.takeBlocks_calm hu
        · exact Need.noConfusion (State.judgeNeed_ok h)
        · exact State.takeBlocks_calm h

theorem State.fillBlock_calm (s : State) (p q n k g : Nat) : s.Calm (s.fillBlock p q n k g) := by
  unfold State.fillBlock
  dsimp only
  split
  · exact State.Calm.refl s
  · split
    · exact s.setPg_calm p g _
    · exact (s.setPg_calm p g _).trans (State.Calm.modPool _ p _)

theorem State.refill_calm (s : State) (p q : Nat) : s.Calm (s.refill p q) := by
  unfold State.refill
  refine State.Calm.foldl (fun t e => ?_) _ s
  split
  · split
    · exact t.fillBlock_calm p q _ _ _
    · exact State.Calm.refl t
  · exact State.Calm.refl t

/-! Requests (R262, R307) -/

theorem State.askRun_calm (s : State) (o : Op) (n seg : Nat) (page : Option (Nat × Nat)) (va len : Nat) : s.Calm (s.askRun o n seg page va len) := by
  unfold State.askRun
  refine State.Calm.foldl (fun t x => ?_) _ s
  split
  · exact State.Calm.refl t
  · dsimp only
    split
    · split
      · exact State.Calm.of_hw rfl
      · exact State.Calm.of_hw rfl
    · exact State.Calm.of_hw rfl

theorem State.askKeys_calm (s : State) (o : Op) (n seg : Nat) (gs : List Nat) (lo hi : Nat) : s.Calm (s.askKeys o n seg gs lo hi) :=
  State.Calm.foldl (fun s (r : Option (Nat × Nat) × Nat × Nat) => s.askRun_calm o n seg r.1 r.2.1 r.2.2) _ s

theorem State.askCopy_calm (s : State) (p : Nat) (u : ReqUse) (src dst n : Nat) : s.Calm (s.askCopy p u src dst n) := by
  unfold State.askCopy
  have hask (wr : Bool) (va : Nat) (s : State) : s.Calm ((requestsOf (n / 512 + 2) va n).foldl (fun s q =>
      match s.paOf p q.1 with
      | some pa => s.pushReq ⟨wr, p, q.1, pa, q.2, u, false, []⟩
      | none => s) s) := by
    refine State.Calm.foldl (fun t x => ?_) _ s
    split
    · exact State.Calm.of_hw rfl
    · exact State.Calm.refl t
  exact (hask false src s).trans (hask true dst _)

theorem State.meterEvent_calm (s : State) (p q inc : Nat) : s.Calm (s.meterEvent p q inc) := by
  unfold State.meterEvent
  split
  · exact State.Calm.refl s
  · split <;> exact State.Calm.of_hw rfl

theorem State.builtinReads_calm (s : State) (p : Nat) : s.Calm (s.builtinReads p) :=
  (State.Calm.of_hw (s := s) (t := s.draw.2) rfl).trans (State.meterEvent_calm _ p 7 _)

/-! Pins and famine measures (R263, R264, R270) -/

theorem State.cancelEvict_calm (s : State) (p g : Nat) : s.Calm (s.cancelEvict p g) := by
  unfold State.cancelEvict
  extract_lets r u
  have hu : s.Calm u := s.setPg_calm p g _
  split
  · exact State.Calm.refl s
  · split
    · exact hu.trans (State.Calm.modPool u p _)
    · exact hu

theorem State.pin_calm (s : State) (p g : Nat) : s.Calm (s.pin p g) := (s.cancelEvict_calm p g).trans (State.modPg_calm _ p g _)

theorem State.clearFrom_calm (s : State) (p q k : Nat) : s.Calm (s.clearFrom p q k) := by
  unfold State.clearFrom
  extract_lets gs u
  have hu : s.Calm u := State.modSeq_calm (s := s) (p := p) (q := q) (fun _ => rfl)
  refine hu.trans (State.Calm.foldl (fun t e => ?_) gs u)
  split
  · exact t.dropRef_calm p _
  · exact State.Calm.refl t

/-- Lengths written as they were. -/
theorem get_foldl_same (x : Seq) (ls : List Nat) (t : Tab Nat) (h : ∀ l, Tab.get 0 t l = x.lenOf l) (l : Nat) :
    Tab.get 0 (ls.foldl (fun t l => Tab.set 0 t l (x.lenOf l + 0)) t) l = x.lenOf l := by
  induction ls generalizing t with
  | nil => exact h l
  | cons m ls ih =>
    refine ih _ (fun l => ?_)
    rw [Tab.get_set]
    split
    · rw [‹l = m›, Nat.add_zero]
    · exact h l

/-- R275: a tail that ends with none of its tokens committed leaves the lengths. -/
theorem State.endTail_calm (s : State) (p q : Nat) : s.Calm (s.endTail p q 0) := by
  unfold State.endTail
  extract_lets d layers u top
  have hu : s.Calm u := State.modSeq_calm (s := s) (p := p) (q := q) (fun l => get_foldl_same (s.seq p q) _ _ (fun _ => rfl) l)
  exact (hu.trans (u.clearFrom_calm p q _)).trans (State.refill_calm _ p q)

theorem State.startEvict_calm (s : State) (p g : Nat) (forCmd : Option W32) : s.Calm (s.startEvict p g forCmd).2 := by
  unfold State.startEvict
  have hslot := s.allocSlot_calm p
  split
  · exact State.Calm.refl s
  · rename_i c u hu
    rw [hu] at hslot
    dsimp only
    exact (hslot.trans (u.modPg_calm p g _)).trans (State.askCopy_calm _ _ _ _ _ _)

theorem State.famineEvict_calm (fuel : Nat) (s : State) (p : Nat) : s.Calm (State.famineEvict fuel s p) := by
  induction fuel generalizing s with
  | zero => exact State.Calm.refl s
  | succ n ih =>
    unfold State.famineEvict
    split
    · exact State.Calm.refl s
    · split
      · exact State.Calm.refl s
      · rename_i g _
        have hstart := s.startEvict_calm p g none
        split
        · rename_i u hu
          rw [hu] at hstart
          exact hstart.trans (ih u)
        · exact State.Calm.refl s

theorem State.famineTails_calm (fuel : Nat) (s : State) (p : Nat) : s.Calm (State.famineTails fuel s p) := by
  induction fuel generalizing s with
  | zero => exact State.Calm.refl s
  | succ n ih =>
    unfold State.famineTails
    split
    · exact State.Calm.refl s
    · split
      · exact State.Calm.refl s
      · exact ((s.endTail_calm p _).trans (State.Calm.modPool _ p _)).trans (ih _)

/-- R270: the measures against a famine leave the lengths. -/
theorem State.famineAct_calm (s : State) (p : Nat) : s.Calm (s.famineAct p) := by
  unfold State.famineAct
  split
  · exact State.Calm.refl s
  · exact (State.famineTails_calm _ s p).trans (State.famineEvict_calm _ _ p)

/-! Steps that change operations -/

/-- `t` has the lengths of the sequences of `s`. -/
def State.SameLens (s t : State) : Prop := ∀ k l, (Tab.get Seq.free t.hw.seqs k).lenOf l = (Tab.get Seq.free s.hw.seqs k).lenOf l

theorem State.SameLens.refl (s : State) : s.SameLens s := fun _ _ => rfl

theorem State.SameLens.trans {r s t : State} (a : r.SameLens s) (b : s.SameLens t) : r.SameLens t := fun k l => (b k l).trans (a k l)

theorem State.Calm.sameLens {s t : State} (h : s.Calm t) : s.SameLens t := h.lens

theorem State.SameLens.foldl {α : Type} {f : State → α → State} (hf : ∀ (s : State) (x : α), s.SameLens (f s x)) (xs : List α) (s : State) :
    s.SameLens (xs.foldl f s) := by
  induction xs generalizing s with
  | nil => exact State.SameLens.refl s
  | cons x xs ih => exact (hf s x).trans (ih _)

theorem State.SameLens.lenOf {s t : State} (h : s.SameLens t) (p q l : Nat) : (t.seq p q).lenOf l = (s.seq p q).lenOf l := h (seqKey p q) l

theorem State.setOp_sameLens (s : State) (o : Op) : s.SameLens (s.setOp o) := fun _ _ => rfl

theorem State.trace_sameLens (s : State) (type part : Nat) (unit : Byte) (opid : W32) (a0 a1 : Nat) : s.SameLens (s.trace type part unit opid a0 a1) :=
  (s.trace_told _ _ _ _ _ _).reports.lens

theorem State.endOp_sameLens (s : State) (opid : W32) (status detail : Nat) (result : BitVec 96) : s.SameLens (s.endOp opid status detail result) := by
  cases ho : s.op opid with
  | none =>
    rw [State.endOp, ho]
    exact State.SameLens.refl s
  | some o => exact (State.endOp_ended ho status detail result).lens

theorem State.settleJobs_sameLens (s : State) (p : Nat) : s.SameLens (s.settleJobs p) :=
  State.SameLens.foldl (fun s (_ : CopyJob) => (State.Calm.modPool s p _).sameLens.trans (State.endOp_sameLens _ _ _ _ _)) _ s

theorem State.firstMac_sameLens (s : State) (n : Nat) (opid : W32) : s.SameLens (s.firstMac n opid) := by
  unfold State.firstMac
  split
  · exact State.SameLens.refl s
  · split
    · exact State.SameLens.refl s
    · exact (s.setOp_sameLens _).trans (State.trace_sameLens _ _ _ _ _ _ _)

theorem State.flitsLeave_sameLens (s : State) (opid : W32) (k flits : Nat) (last : Bool) : s.SameLens (s.flitsLeave opid k flits last) := by
  unfold State.flitsLeave
  split
  · exact State.SameLens.refl s
  · dsimp only
    split
    · exact (s.setOp_sameLens _).trans (State.trace_sameLens _ _ _ _ _ _ _)
    · exact s.setOp_sameLens _

theorem State.sendTiles_sameLens (fuel : Nat) (s : State) (opid : W32) : s.SameLens (State.sendTiles fuel s opid) := by
  induction fuel generalizing s with
  | zero => exact State.SameLens.refl s
  | succ n ih =>
    unfold State.sendTiles
    split
    · exact State.SameLens.refl s
    · split
      · exact State.SameLens.refl s
      · extract_lets k m room u
        have hu : s.SameLens u := fun _ _ => rfl
        split
        · exact State.SameLens.refl s
        · exact (hu.trans (u.flitsLeave_sameLens _ _ _ _)).trans (ih _)

theorem State.meterAttn_calm (s : State) (o : Op) : s.Calm (s.meterAttn o) := by
  unfold State.meterAttn
  extract_lets c p n reads u v
  split
  · exact State.Calm.refl s
  · split
    · have hu : s.Calm u := by
        dsimp only [u]
        split
        · exact s.meterEvent_calm _ _ _
        · exact State.Calm.refl s
      have hv : s.Calm v := hu.trans (u.meterEvent_calm _ _ _)
      split
      · exact hv.trans (v.meterEvent_calm _ _ _)
      · exact hv
    · exact s.meterEvent_calm _ _ _
    · exact State.Calm.refl s

theorem State.closeOp_sameLens (s : State) (opid : W32) : s.SameLens (s.closeOp opid) := by
  unfold State.closeOp
  split
  · exact State.SameLens.refl s
  · exact ((s.setOp_sameLens _).trans (State.meterAttn_calm _ _).sameLens).trans (State.endOp_sameLens _ _ _ _ _)

theorem State.drainOut_sameLens (s : State) (opid : W32) : s.SameLens (s.drainOut opid) := by
  unfold State.drainOut
  split
  · exact State.SameLens.refl s
  · have hsend := State.sendTiles_sameLens
    dsimp only
    split
    · exact hsend _ s opid
    · split
      · exact (hsend _ s opid).trans (State.closeOp_sameLens _ opid)
      · exact hsend _ s opid

theorem State.putRows_calm (s : State) (o : Op) (addr row0 total dim : Nat) (x : OutParts) : s.Calm (s.putRows o addr row0 total dim x) := by
  unfold State.putRows
  dsimp only
  split
  · exact s.vaWrite_calm _ _ _
  · exact (s.vaWrite_calm _ _ _).trans (State.vaWrite_calm _ _ _ _)

theorem State.writeRoot_sameLens (s : State) (o : Op) (t0 n : Nat) (root : Option (List PRow)) (last : Bool) :
    s.SameLens (s.writeRoot o t0 n root last) := by
  unfold State.writeRoot
  extract_lets o' x b rows zs out row0 total o'' y u
  have hu : s.SameLens u := by
    dsimp only [u]
    split
    · exact State.SameLens.refl s
    · exact (s.vaWrite_calm _ _ _).sameLens
  split
  · exact (hu.trans (u.setOp_sameLens _)).trans (State.drainOut_sameLens _ _)
  · exact ((hu.trans (u.putRows_calm _ _ _ _ _ _).sameLens).trans (State.setOp_sameLens _ _)).trans (State.drainOut_sameLens _ _)

theorem State.progressOf_sameLens (s : State) (o : Op) (permille unit pos : Nat) : s.SameLens (s.progressOf o permille unit pos) :=
  (s.setOp_sameLens _).trans (State.showProgress_calm _ _ _).sameLens

theorem State.yieldShare_sameLens (s : State) (opid : W32) (n : Nat) : s.SameLens (s.yieldShare opid n) := by
  unfold State.yieldShare
  split
  · exact State.SameLens.refl s
  · split
    · exact s.setOp_sameLens _
    · exact State.SameLens.refl s

theorem State.yieldShares_sameLens (s : State) (opid : W32) : s.SameLens (s.yieldShares opid) :=
  State.SameLens.foldl (fun s n => s.yieldShare_sameLens opid n) _ s

/-- R306: the ATTEND step of a chunk leaves the lengths. -/
theorem State.chunkAttend_sameLens (s : State) (o : Op) (inp : List Byte) (t0 n pos keys : Nat) : s.SameLens (s.chunkAttend o inp t0 n pos keys) := by
  unfold State.chunkAttend
  refine State.SameLens.trans ?_ (State.writeRoot_sameLens _ _ _ _ _ _)
  refine State.SameLens.trans ?_ (State.progressOf_sameLens _ _ _ _ _)
  refine State.SameLens.trans ?_ (State.Calm.foldl (fun s g => s.unpin_calm o.part g) _ _).sameLens
  exact (State.Calm.foldl (fun s g => s.pin_calm o.part g) _ s).sameLens.trans (State.settleJobs_sameLens _ o.part)

/-- R254: the new length of a sequence's layer. -/
theorem State.lenOf_modSeq (s : State) (p q l n : Nat) :
    ((s.modSeq p q (fun x => { x with len := Tab.set 0 x.len l n })).seq p q).lenOf l = n := by
  obtain ⟨c, hc⟩ : ∃ c : Seq, c = { s.seq p q with len := Tab.set 0 (s.seq p q).len l n } := ⟨_, rfl⟩
  have hwrites : (s.putSeq p q c).SameLens (s.setSeq p q c) := by
    unfold State.setSeq
    exact (State.Calm.foldl (fun s (w : Nat × List Byte) => s.vaWrite_calm p w.1 w.2) _ _).sameLens
  change ((s.setSeq p q { s.seq p q with len := Tab.set 0 (s.seq p q).len l n }).seq p q).lenOf l = n
  rw [← hc, hwrites.lenOf, State.seq_putSeq_self, hc]
  exact Tab.get_set_self 0 (s.seq p q).len l n

/-- R254, R306: a chunk appends its tokens at its layer. -/
theorem State.chunkRun_lenOf (s : State) (o : Op) (t0 n : Nat) :
    ((s.chunkRun o t0 n).seq o.part (sqidOf o.cmd)).lenOf (layerOf o.cmd) = (s.seq o.part (sqidOf o.cmd)).lenOf (layerOf o.cmd) + n := by
  unfold State.chunkRun
  extract_lets c p q l d b f start kv off src ids n0
  generalize s.writeToks o.training p q l start ids (s.kvToks o.set p src f start n) = r
  obtain ⟨v, cnt⟩ := r
  dsimp only
  refine ((State.famineAct_calm _ _).sameLens.lenOf _ _ _).trans ?_
  refine ((State.yieldShares_sameLens _ _).lenOf _ _ _).trans ?_
  refine ((State.chunkAttend_sameLens _ _ _ _ _ _ _).lenOf _ _ _).trans ?_
  refine ((State.firstMac_sameLens _ _ _).lenOf _ _ _).trans ?_
  refine ((State.askKeys_calm _ _ _ _ _ _ _).sameLens.lenOf _ _ _).trans ?_
  refine ((State.builtinReads_calm _ _).sameLens.lenOf _ _ _).trans ?_
  refine ((State.refill_calm _ _ _).sameLens.lenOf _ _ _).trans ?_
  exact State.lenOf_modSeq v p q l (start + n)

end Sys2Proof.Machine
end

section
/-! SUPPORT. Attention at work (R143 to R155, R306, R361): the rows of segments, merges, partial tiles, time-outs, chunks and firing. -/

namespace Sys2Proof.Machine

/-! Segments, merges and partial tiles -/

theorem State.modStaged_one {s : State} {x : Staged} (h : s.hw.staged = [x]) (f : Staged → Staged) :
    s.modStaged x.cmd f = { s with hw := { s.hw with staged := [f x] } } := by
  simp [State.modStaged, State.modHw, h]

theorem State.mayWork_cluster {s : State} {n : Nat} {opid : W32} (h : s.mayWork n opid = true) : n ≠ noCluster := by
  rintro rfl
  simp [State.mayWork, bit, noCluster] at h

theorem State.mayWork_running {s : State} {n : Nat} {o : Op} (ho : s.op o.opid = some o) (h : s.mayWork n o.opid = true) : o.st = .running := by
  simp only [State.mayWork, ho, Bool.and_eq_true, decide_eq_true_eq] at h
  exact h.2.1.2

/-- R143: the segment of a running ATTEND whose keys are all there. -/
theorem State.exec_segmentDone {s : State} {o : Op} {seg home : Nat} (ho : s.op o.opid = some o) (hop : opcodeOf o.cmd = 0x05) (hfin : o.fin = false)
    (hlink : s.linkFull = false) (hremote : o.remote = []) (hrerun : s.rerunning o home = false) (hread : s.readingSeg o.opid seg home = false)
    (hplace : o.place = [(seg, home), (seg ^^^ 1, home)]) (hnodes : o.nodes = []) (hwork : s.mayWork home o.opid = true) (hin : s.inputFull o = true)
    (hpages : (s.judgePages o (1024 * seg) (Nat.min o.keys (1024 * seg + 1024))).1 = .ok) :
    exec (.segmentDone o.opid seg) s = .next (s.finishSegment o seg home) := by
  have hfind : o.place.find? (fun x => x.1 = seg) = some (seg, home) := by simp [hplace]
  have hnode : o.node 0 seg = none := by
    rw [Op.node, hnodes]
    rfl
  have hguard : (opcodeOf o.cmd != 0x05 || o.fin || o.remote.contains seg || (o.node 0 seg).isSome || !s.mayWork home o.opid || s.linkFull
      || !s.inputFull o || s.rerunning o home || s.readingSeg o.opid seg home) = false := by
    simp [hop, hfin, hremote, hnode, hwork, hlink, hin, hrerun, hread]
  obtain ⟨⟨v, va⟩, hj⟩ : ∃ r, r = s.judgePages o (1024 * seg) (Nat.min o.keys (1024 * seg + 1024)) := ⟨_, rfl⟩
  rw [← hj] at hpages
  obtain rfl : v = .ok := hpages
  simp only [exec, execSegmentDone, ho, hfind, hguard, ← hj]
  rfl

/-- R147, R151: the home of a node merges its children. -/
theorem State.exec_merge {s : State} {o : Op} {k j : Nat} {a b : Node} (ho : s.op o.opid = some o) (hfin : o.fin = false) (hsends : o.sends = false)
    (hlink : s.linkFull = false) (ha : o.node k (2 * j) = some a) (hb : o.node k (2 * j + 1) = some b) (hnone : o.node (k + 1) j = none)
    (hk : k + 1 < o.depth) (hwork : s.mayWork a.home o.opid = true) (hrerun : s.rerunning o a.home = false) :
    exec (.merge o.opid (k + 1) j) s = .next (s.nodeDone o (k + 1) j ⟨List.zipWith (mergeRow o.training) a.rows b.rows, a.home⟩) := by
  simp [exec, execMerge, ho, ha, hb, hfin, hsends, Nat.not_le.2 (Nat.lt_of_succ_lt hk), hnone, hwork, hlink, hrerun]

/-- R325: a partial of another role epoch, or at a cluster that is being cleared. -/
theorem State.partialAt_stale {s : State} {n : Nat} {epoch : W16} (hold : epoch ≠ (s.cluster n).roleEpoch ∨ (s.cluster n).clearing = true)
    (p : PTile) :
    s.partialAt n epoch p = (s.setCluster n { s.cluster n with stale := bump (s.cluster n).stale }).resend p := by
  have hcond : (epoch != (s.cluster n).roleEpoch || (s.cluster n).clearing) = true := by simpa using hold
  simp only [State.partialAt, hcond, if_true]

/-- R154, R155: a partial of the present epoch for a node of a running ATTEND. -/
theorem State.partialAt_node {s : State} {o : Op} {n : Nat} {p : PTile} (ho : s.op o.opid = some o) (hop : opcodeOf o.cmd = 0x05) (hfin : o.fin = false)
    (hsends : o.sends = false) (hclear : (s.cluster n).clearing = false) (hopid : p.opid = o.opid) (hpart : s.clPart n = o.part)
    (hlevel : p.level ≤ o.depth) (hcov : o.covers p.level p.node = true) : s.partialAt n (s.cluster n).roleEpoch p
      = if o.tileDisagrees p then (s.note 0x0C (some o.part) false 2 (BitVec.ofNat 8 n) o.opid 1 (p.level + 16 * p.node)).endOp o.opid 0x22 0x07 0
        else if o.hasRows p then s.note 0x0C (some o.part) false 0 (BitVec.ofNat 8 n) o.opid 0 (p.level + 16 * p.node)
        else s.takeRows o p n := by
  simp [State.partialAt, hclear, hopid, ho, hop, hfin, hsends, hpart, Nat.not_lt.2 hlevel, hcov]

theorem State.exec_partialTile {s : State} (hf : s.fast = true) (hlink : s.linkFull = false) (n : Fin 32) (epoch : W16) (p : PTile) :
    exec (.partialTile n epoch p) s = .next (s.partialAt n.val epoch p) := by
  simp [exec, execPartialTile, hf, hlink]

/-- The rows of `p` behind those that came for its node. -/
def Op.partsWith (o : Op) (p : PTile) : Tab (List (Nat × PRow)) :=
  let key := nodeKey p.level p.node
  Tab.set [] o.parts key (Tab.get [] o.parts key ++ p.rows.mapIdx (fun i r => (p.rowBase + i, r)))

/-- R154: rows that do not complete a node wait for the others. -/
theorem State.takeRows_more {o : Op} {p : PTile} (hmore : (Tab.get [] o.parts (nodeKey p.level p.node)).length + p.rows.length
    < (shapeOf o.desc o.cmd).nq * (shapeOf o.desc o.cmd).hq) (s : State) (n : Nat) :
    s.takeRows o p n = s.setOp { o with parts := o.partsWith p } := by
  rw [State.takeRows]
  exact if_neg (by simpa using hmore)

/-! Time-outs and chunks (R155, R306) -/

theorem State.exec_peerTmo {s : State} {o : Op} (ho : s.op o.opid = some o) (hf : s.fast = true) (hop : opcodeOf o.cmd = 0x05) (hfin : o.fin = false)
    {g : Nat} (hg : g ∈ o.remote) (harr : o.arrived g = false) : exec (.peerTmo o.opid) s = .next (s.endOp o.opid 0x22 0x06 0) := by
  have hany : o.remote.any (fun g => !o.arrived g) = true := List.any_eq_true.2 ⟨g, hg, by simp [harr]⟩
  simp [exec, execPeerTmo, ho, hf, hop, hfin, hany]

theorem State.exec_peerTmo_idle {s : State} {o : Op} (ho : s.op o.opid = some o) (hall : ∀ g ∈ o.remote, o.arrived g = true) :
    exec (.peerTmo o.opid) s = .next s := by
  have hany : o.remote.any (fun g => !o.arrived g) = false := List.any_eq_false.2 (fun g hg => by simp [hall g hg])
  simp [exec, execPeerTmo, ho, hany]

/-- R306: the next chunk of an admitted PREFILL has its groups. -/
theorem State.nextChunk_run {s u : State} {o : Op} (hst : o.st = .running)
    (hcover : s.cover o.part (sqidOf o.cmd) (List.range (((s.seq o.part (sqidOf o.cmd)).lenOf (layerOf o.cmd) + (s.desc o.part).tok - 1)
      / (s.desc o.part).tok)) = .ready)
    (hslot : s.slotRead o.part o.cmd ((s.seq o.part (sqidOf o.cmd)).lenOf (layerOf o.cmd)) = false) (hcopy : s.copying o.part o.opid = false)
    (hneed : s.needBlocks o.part (sqidOf o.cmd) (layerOf o.cmd) ((s.seq o.part (sqidOf o.cmd)).lenOf (layerOf o.cmd))
      (Nat.min (chunkOf o.cmd) (nqOf o.cmd - o.pos)) o.opid = .ok u) :
    s.nextChunk o = u.chunkRun o o.pos (Nat.min (chunkOf o.cmd) (nqOf o.cmd - o.pos)) := by
  have ho : ({ o with st := .running } : Op) = o := by rw [← hst]
  have hcover' : s.cover o.part (sqidOf o.cmd) (List.range (ceilDiv ((s.seq o.part (sqidOf o.cmd)).lenOf (layerOf o.cmd)) (s.desc o.part).tok))
      = .ready := hcover
  simp [State.nextChunk, hcover', hslot, hcopy, hneed, ho]

/-! Firing (R361) -/

/-- R361: the first tile of the one staged command leaves its in-port and joins the command's input. -/
theorem State.takeFirst_one {s : State} {x : Staged} {y : FTile × Nat} (h : s.hw.staged = [x]) (hop : opcodeOf x.cmd ≠ 0x0F) :
    ∃ f : Fab, s.takeFirst x y = { s with fab := f, hw := { s.hw with staged := [{ x with input := x.input ++ y.1.data }] } }
      ∧ Tab.get [] f.stagedT (fiOf x.cmd) = (Tab.get [] s.fab.stagedT (fiOf x.cmd)).erase y := by
  obtain ⟨ts, hts⟩ : ∃ ts, ts = (Tab.get [] s.fab.stagedT (fiOf x.cmd)).erase y := ⟨_, rfl⟩
  obtain ⟨u, hu⟩ : ∃ u, u = (s.modFab (fun f => { f with stagedT := Tab.set [] f.stagedT (fiOf x.cmd) ts })).giveFlits (fiOf x.cmd)
      y.2 := ⟨_, rfl⟩
  have hstaged : u.hw.staged = [x] := by rw [hu]; exact h
  have htake : s.takeFirst x y = u.modStaged x.cmd (fun z => { z with input := z.input ++ y.1.data }) := by
    rw [hu, hts]
    exact if_neg hop
  rw [htake, State.modStaged_one hstaged, hu, ← hts]
  exact ⟨_, rfl, Tab.get_set_self _ _ _ _⟩

section
variable {s : State} {x : Staged} {ring : BitVec 14} (hserve : s.serving = true) (hstaged : s.hw.staged = [x]) (hfired : x.fired = false)
  (hweir : s.upToWeir x = (true, s)) (hring : ring.toNat = x.cmd.ring)
include hserve hstaged hfired hweir hring

/-- R361: a command bound to the fabric that has come to its turn. -/
theorem State.exec_fire (hfab : fiEn x.cmd = true ∨ foEn x.cmd = true) : exec (.fire ring x.cmd.idx) s = .next (s.fireCmd x) := by
  have hbound : (fiEn x.cmd || foEn x.cmd) = true := by simpa using hfab
  simp [exec, execFire, hstaged, hserve, hfired, hring, hbound, hweir]

/-- R361: without room for its first output it waits. -/
theorem State.exec_fire_noRoom (hroom : ¬ (foEn x.cmd = true → firstFlits (s.desc x.part) x.cmd ≤ s.outFree (foOf x.cmd))) :
    exec (.fire ring x.cmd.idx) s = .next s := by
  obtain ⟨hfo, hfew⟩ := Classical.not_imp.1 hroom
  rw [State.exec_fire hserve hstaged hfired hweir hring (Or.inr hfo)]
  simp [State.fireCmd, hfo, hfew]

/-- R361: without its first tile it waits. -/
theorem State.exec_fire_noTile (hfi : fiEn x.cmd = true) (hnone : s.firstTile x = none) : exec (.fire ring x.cmd.idx) s = .next s := by
  rw [State.exec_fire hserve hstaged hfired hweir hring (Or.inl hfi)]
  simp [State.fireCmd, hfi, hnone]

/-- R361: a command without fabric input fires with room for its first output. -/
theorem State.exec_fire_output (hfi : fiEn x.cmd = false) (hfo : foEn x.cmd = true)
    (hroom : foEn x.cmd = true → firstFlits (s.desc x.part) x.cmd ≤ s.outFree (foOf x.cmd)) :
    exec (.fire ring x.cmd.idx) s
      = .next (s.modStaged x.cmd (fun y => { y with fired := true, firedFc := s.clk.fc, firedTick := s.clk.tick })) := by
  rw [State.exec_fire hserve hstaged hfired hweir hring (Or.inr hfo)]
  simp [State.fireCmd, hfi, hfo, hroom hfo]

/-- R361: a command with fabric input fires with its first tile and that room. -/
theorem State.exec_fire_tile {y : FTile × Nat} (hfi : fiEn x.cmd = true)
    (hroom : foEn x.cmd = true → firstFlits (s.desc x.part) x.cmd ≤ s.outFree (foOf x.cmd)) (hy : s.firstTile x = some y) :
    exec (.fire ring x.cmd.idx) s = .next ((s.takeFirst x y).modStaged x.cmd
      (fun z => { z with fired := true, firedFc := (s.takeFirst x y).clk.fc, firedTick := (s.takeFirst x y).clk.tick })) := by
  have hroomy : (!foEn x.cmd || decide (firstFlits (s.desc x.part) x.cmd ≤ s.outFree (foOf x.cmd))) = true := by
    cases hfo : foEn x.cmd with
    | false => rfl
    | true => simp [hroom hfo]
  rw [State.exec_fire hserve hstaged hfired hweir hring (Or.inl hfi)]
  simp [State.fireCmd, hroomy, hfi, hy]

end

/-- Settles O60: each of the rows of attention at work does what its clause says of the operation, its sequence or the staged command. -/
theorem attentionRuns : Obligations.AttentionRuns := by
  unfold Obligations.AttentionRuns
  refine ⟨fun s o n p ho => ?_, fun s x hserve hstaged hfired hweir ring hring => ?_⟩
  · intro node attends rows
    refine ⟨fun seg home hatt hops hremote hrerun hread hplace hdepth hnodes hseg hwork hin hpages => ?_,
      fun k j a b hatt ha hb hnone hk hcov hwork hrerun hroot hj => ?_, fun epoch hf hlink hold => ?_,
      fun epoch hatt hepoch hclear hopid hpart hlevel hcov => ?_, fun hall => State.exec_peerTmo_idle ho hall,
      fun g hg harr hop hfin hf => ?_, fun hop hpause => ?_,
      fun s1 hop hf hpause hlink hst hhold hshares hpos hready hread hrerun => ?_⟩
    · obtain ⟨hop, hfin, hsends, -, hlink⟩ := hatt
      obtain ⟨rs, hlen, hone⟩ := State.finishSegment_one hops hsends hplace hdepth hnodes hseg (State.mayWork_cluster hwork)
      obtain ⟨y, hy, hlike⟩ := hone.op
      have hst := State.mayWork_running ho hwork
      refine ⟨_, State.exec_segmentDone ho hop hfin hlink hremote hrerun hread hplace hnodes hwork hin hpages, ⟨⟨rs, home⟩, ?_, rfl, hlen⟩,
        fun z hz => ?_, hone.clusters, hone.mem⟩
      · change ((State.finishSegment s o seg home).op o.opid).bind (fun x => x.node 0 seg) = _
        rw [show (State.finishSegment s o seg home).op o.opid = some y from hy, Option.bind_some, hlike.node]
        exact Op.node_setNode_self o 0 seg _
      · obtain rfl : y = z := Option.some.inj (hy.symm.trans hz)
        exact ⟨hlike.place, hlike.keys, hlike.st.trans hst⟩
    · obtain ⟨hop, hfin, hsends, -, hlink⟩ := hatt
      have hexec := State.exec_merge ho hfin hsends hlink ha hb hnone hk hwork hrerun
      rw [State.nodeDone_below hcov hk hj hroot] at hexec
      obtain ⟨x, hx⟩ : ∃ x : Node, x = ⟨List.zipWith (mergeRow o.training) a.rows b.rows, a.home⟩ := ⟨_, rfl⟩
      rw [← hx] at hexec ⊢
      refine ⟨_, hexec, ?_, rfl, rfl, fun i hi => State.op_setOp_ne (o := o.setNode (k + 1) j x) s hi⟩
      change ((s.setOp (o.setNode (k + 1) j x)).op o.opid).bind (fun x => x.node (k + 1) j) = _
      rw [show (s.setOp (o.setNode (k + 1) j x)).op o.opid = _ from State.op_setOp (o := o.setNode (k + 1) j x) ho]
      exact o.node_setNode_self (k + 1) j x
    · have hexec := State.exec_partialTile hf hlink n epoch p
      rw [State.partialAt_stale hold] at hexec
      obtain ⟨x, hx⟩ := State.resend_peer (s.setCluster n.val { s.cluster n.val with stale := bump (s.cluster n.val).stale }) p
      refine ⟨_, bump (s.cluster n.val).stale, hexec, ?_, toNat_bump _ 1, fun j hj => ?_, ?_, fun hopid => ?_⟩
      · rw [hx]
        exact State.cluster_setCluster_self s n.val _
      · rw [hx]
        exact State.cluster_setCluster_ne s hj _
      · rw [hx]
        rfl
      · rw [← hopid] at ho
        exact congrArg State.peer (State.resend_some (s := s.setCluster n.val { s.cluster n.val with stale := bump (s.cluster n.val).stale }) ho)
    · obtain ⟨hop, hfin, hsends, hf, hlink⟩ := hatt
      have hexec := State.exec_partialTile hf hlink n epoch p
      rw [hepoch, State.partialAt_node ho hop hfin hsends hclear hopid hpart hlevel hcov] at hexec
      rw [hepoch]
      refine ⟨fun hdis => ?_, fun hdis hhas => ?_, fun hdis hhas hmore => ?_⟩
      · rw [if_pos hdis] at hexec
        have hnote : (s.note 0x0C (some o.part) false 2 (BitVec.ofNat 8 n.val) o.opid 1 (p.level + 16 * p.node)).op o.opid = some o := ho
        exact ⟨_, hexec, (State.endOp_ended hnote 0x22 0x07 0).gone⟩
      · rw [if_neg (by simp [hdis]), if_pos hhas] at hexec
        exact ⟨_, hexec, rfl⟩
      · rw [if_neg (by simp [hdis]), if_neg (by simp [hhas]), State.takeRows_more hmore] at hexec
        exact ⟨_, o.partsWith p, hexec, State.op_setOp (o := { o with parts := o.partsWith p }) ho,
          fun i hi => State.op_setOp_ne (o := { o with parts := o.partsWith p }) s hi, rfl, Tab.get_set_self _ _ _ _⟩
    · have hend := State.endOp_ended ho 0x22 0x06 0
      exact ⟨_, State.exec_peerTmo ho hf hop hfin hg harr, hend.gone, hend.other⟩
    · simp [exec, execPrefillChunk, ho, hpause]
    · intro start k hcover hslot hcopy hneed
      have hguard : (setList o.shares).any (s.rerunning o) = false := List.any_eq_false.2 (fun m _ => by simp [hrerun m])
      have hexec : exec (.prefillChunk o.opid) s = .next (s.nextChunk o) := by
        simp only [exec, execPrefillChunk, ho, hop, hf, hpause, hst, hhold, hpos, hlink, hready, hread, hguard]
        exact congrArg Host.Outcome.next (if_pos (by simpa using hshares))
      rw [State.nextChunk_run hst hcover hslot hcopy hneed] at hexec
      refine ⟨_, hexec, ?_⟩
      rw [State.chunkRun_lenOf, (State.needBlocks_calm hneed).sameLens.lenOf]
  · intro roomy x' fired
    have hmod (f : Staged → Staged) : s.modStaged x.cmd f = { s with hw := { s.hw with staged := [f x] } } := State.modStaged_one hstaged f
    refine ⟨fun hfi hfo hroom => ?_, State.exec_fire_noRoom hserve hstaged hfired hweir hring,
      State.exec_fire_noTile hserve hstaged hfired hweir hring, fun y hfi hroom hy hrun => ?_, fun y hfi hroom hy hrun => ?_⟩
    · rw [State.exec_fire_output hserve hstaged hfired hweir hring hfi hfo hroom, hmod]
    · have htake : s.takeFirst x y = s := if_pos hrun
      rw [State.exec_fire_tile hserve hstaged hfired hweir hring hfi hroom hy, htake, hmod]
    · have hexec := State.exec_fire_tile hserve hstaged hfired hweir hring hfi hroom hy
      obtain ⟨f, hf, htab⟩ := State.takeFirst_one (y := y) hstaged hrun
      have hstaged' : (s.takeFirst x y).hw.staged = [{ x with input := x.input ++ y.1.data }] := by rw [hf]
      have hmod' := State.modStaged_one hstaged'
        (fun z => { z with fired := true, firedFc := (s.takeFirst x y).clk.fc, firedTick := (s.takeFirst x y).clk.tick })
      rw [show (s.takeFirst x y).modStaged x.cmd _ = _ from hmod', hf] at hexec
      exact ⟨_, hexec, rfl, htab, rfl⟩

end Sys2Proof.Machine
end

section
/-! SUPPORT. States that refute O51 and O55, and what the model answers in them. -/

namespace Sys2Proof.Machine

/-! A request that is marked as a write, under a read tag (R356, R357) -/

/-- A stream of cluster 0 and, under its read tag 33 at port 1, a request that is marked as a write. -/
def writeUnderReadTag : State :=
  { State.reset with
    ports := [(1, { Port.reset with reads := [(33, some ⟨true, 0, 0x1000, 0x1000, 64, .stream 0 3 0, false, []⟩)] })]
    clusters := [(0, { Cluster.reset with queue := [newEnt 3 5 0 0 .stream (.sx 0) 0 []] })] }

/-- R357: the error of a request that is marked as a write is logged with code 5, though it comes back as a read. -/
theorem readReturn_writeUnderReadTag : ∃ t, exec (.readReturn 1 33 1) writeUnderReadTag = .next t
    ∧ (Tab.get none t.ras.log 0).map Tlog.arg0 = some 5 :=
  ⟨_, rfl, by decide +kernel⟩

/-- Refutes O51: the clause of a read that returns with an error wants log code 1, but it does not say that the request is a read, and the log follows
the request's own mark: in `writeUnderReadTag` the code is 5. -/
theorem not_memoryPorts : ¬ Obligations.MemoryPorts := by
  intro h
  obtain ⟨-, -, -, -, -, -, -, -, hread, -, -⟩ := h writeUnderReadTag 1 rfl rfl
  obtain ⟨t, ht, -, -, hlog⟩ := hread ⟨true, 0, 0x1000, 0x1000, 64, .stream 0 3 0, false, []⟩ 33 0 3 0 1 rfl rfl (by decide)
  have hlogged := hlog (newEnt 3 5 0 0 .stream (.sx 0) 0 []) rfl rfl
  obtain ⟨u, hu, hcode⟩ := readReturn_writeUnderReadTag
  obtain rfl : t = u := Host.Outcome.next.inj (ht.symm.trans hu)
  rw [show Tab.get none t.ras.log 0 = _ from hlogged] at hcode
  exact absurd (Option.some.inj hcode) (by decide)

/-! A recorder whose queue is full (R414, R433) -/

/-- The recorder's queue is full, and interrupts have an address and a page. -/
def fullRecorder : State :=
  { State.reset with
    glob := { State.reset.glob with irqAddr := 0x8000000000000000 }
    tr := { State.reset.tr with tlbs := [(0, [⟨16, 0, 0, true, true, false⟩])] }
    recorder := { State.reset.recorder with queue := List.replicate 64 ⟨0, 0, none, 0, 0, false, false, 0, 0⟩ } }

/-- R414: the double-bit error's record is lost, and the interrupt that says so is one more light-weight write. -/
theorem sramScrub_fullRecorder : ∃ t, exec (.sramScrub (.double (.scratchpad 0 0 0) 0)) fullRecorder = .next t ∧ t.hw.light.length = 1 :=
  ⟨_, rfl, by decide +kernel⟩

/-- Refutes O55: the clause of a double-bit scratchpad error keeps the units of the block even where the recorder has no room, but with a full
recorder (`fullRecorder`) the lost record is announced, and the interrupt's write waits in the units' light-weight queue. -/
theorem not_sramErrors : ¬ Obligations.SramErrors := by
  intro h
  obtain ⟨-, -, -, -, -, hdouble, -⟩ := h fullRecorder .other 0 0 0 0 rfl rfl
  obtain ⟨t, x, ht, -, ⟨-, -, -, -, hhw, -⟩, -⟩ := hdouble (by decide)
  obtain ⟨u, hu, hlight⟩ := sramScrub_fullRecorder
  obtain rfl : t = u := Host.Outcome.next.inj (ht.symm.trans hu)
  rw [hhw] at hlight
  exact absurd hlight (by decide)

end Sys2Proof.Machine
end

section
/-! SUPPORT. What the end of a command leaves alone (R181, R279, R292, R320): the configuration, the role epochs and queue tags of the clusters, and
which pairs serve an operation; no partition's stop is lifted and no ring opens. -/

namespace Sys2Proof.Machine

/-! What stays steady -/

/-- `t` has the configuration of `s`, its clusters' role epochs, clearing marks and queue tags, and the partitions of its rings; no pair has taken an
operation, no partition's stop is lifted, no ring is enabled. -/
structure State.Steady (s t : State) : Prop where
  cfg : t.cfg = s.cfg
  clusters : ∀ n, (t.cluster n).roleEpoch = (s.cluster n).roleEpoch ∧ (t.cluster n).clearing = (s.cluster n).clearing
    ∧ (t.cluster n).queue.map QEnt.tag = (s.cluster n).queue.map QEnt.tag
  pairs : ∀ k i, (t.pair k).op = some i → (s.pair k).op = some i
  pstop : ∀ p, s.ras.pstop.getLsbD p = true → t.ras.pstop.getLsbD p = true
  rings : ∀ r, (t.ring r).part = (s.ring r).part ∧ ((t.ring r).enable = true → (s.ring r).enable = true)

theorem State.Steady.of_rest {s t : State} (hcfg : t.cfg = s.cfg) (hc : t.clusters = s.clusters) (hp : t.pairs = s.pairs)
    (hstop : t.ras.pstop = s.ras.pstop) (hr : t.hw.rings = s.hw.rings) : s.Steady t :=
  ⟨hcfg, fun n => by simp [State.cluster, hc], fun k i h => by rwa [State.pair, hp] at h, fun p h => by rwa [hstop],
    fun r => by simp [State.ring, hr]⟩

theorem State.Steady.refl (s : State) : s.Steady s := .of_rest rfl rfl rfl rfl rfl

theorem State.Steady.trans {r s t : State} (a : r.Steady s) (b : s.Steady t) : r.Steady t := by
  refine ⟨b.cfg.trans a.cfg, fun n => ?_, fun k i h => a.pairs k i (b.pairs k i h), fun p h => b.pstop p (a.pstop p h), fun i => ?_⟩
  · obtain ⟨h1, h2, h3⟩ := a.clusters n
    obtain ⟨k1, k2, k3⟩ := b.clusters n
    exact ⟨k1.trans h1, k2.trans h2, k3.trans h3⟩
  · obtain ⟨hp, he⟩ := a.rings i
    obtain ⟨kp, ke⟩ := b.rings i
    exact ⟨kp.trans hp, fun h => he (ke h)⟩

theorem State.Steady.foldl {α : Type} {f : State → α → State} (hf : ∀ (s : State) (x : α), s.Steady (f s x)) (xs : List α) (s : State) :
    s.Steady (xs.foldl f s) := by
  induction xs generalizing s with
  | nil => exact State.Steady.refl s
  | cons x xs ih => exact (hf s x).trans (ih _)

/-- A change of the configuration made before steady work or after it. -/
theorem State.Steady.modCfg {s t : State} (h : s.Steady t) (f : Cfg → Cfg) : (s.modCfg f).Steady (t.modCfg f) :=
  ⟨congrArg f h.cfg, h.clusters, h.pairs, h.pstop, h.rings⟩

theorem State.Steady.of_unreported {s t : State} (h : t.unreported s = s) (hstop : t.ras.pstop = s.ras.pstop) : s.Steady t :=
  .of_rest (congrArg (·.cfg) h) (congrArg (·.clusters) h) (congrArg (·.pairs) h) hstop (congrArg (·.hw.rings) h)

theorem State.Told.steady {s t : State} {j : Nat} (h : s.Told t j) : s.Steady t := .of_unreported h.rest h.pstop

theorem State.classP_steady (s : State) (p cause addr : Nat) : s.Steady (s.classP p cause addr) := by
  have h := s.classP_faulted p cause addr
  refine ⟨congrArg (·.cfg) h.rest, fun n => ?_, fun k i hk => ?_, fun q hq => ?_, fun r => ?_⟩
  · simp [State.cluster, show (s.classP p cause addr).clusters = s.clusters from congrArg (·.clusters) h.rest]
  · rwa [State.pair, show (s.classP p cause addr).pairs = s.pairs from congrArg (·.pairs) h.rest] at hk
  · rw [h.pstop, BitVec.getLsbD_or, hq, Bool.true_or]
  · simp [State.ring, h.rings]

theorem State.setPair_steady {s : State} {n : Nat} {c : Pair} (hc : ∀ i, c.op = some i → (s.pair n).op = some i) : s.Steady (s.setPair n c) := by
  refine ⟨rfl, fun _ => ⟨rfl, rfl, rfl⟩, fun k i hk => ?_, fun _ h => h, fun _ => ⟨rfl, id⟩⟩
  by_cases hkn : k = n
  · subst hkn
    rw [State.pair_setPair_self] at hk
    exact hc i hk
  · rwa [State.pair_setPair_ne s hkn] at hk

theorem State.modPair_steady (s : State) (n : Nat) {f : Pair → Pair} (hf : ∀ x, (f x).op = x.op) : s.Steady (s.modPair n f) :=
  State.setPair_steady (fun _ h => hf _ ▸ h)

theorem State.setCluster_steady {s : State} {n : Nat} {c : Cluster} (he : c.roleEpoch = (s.cluster n).roleEpoch)
    (hc : c.clearing = (s.cluster n).clearing) (hq : c.queue.map QEnt.tag = (s.cluster n).queue.map QEnt.tag) : s.Steady (s.setCluster n c) := by
  refine ⟨rfl, fun k => ?_, fun _ _ h => h, fun _ h => h, fun _ => ⟨rfl, id⟩⟩
  by_cases hkn : k = n
  · subst hkn
    rw [State.cluster_setCluster_self]
    exact ⟨he, hc, hq⟩
  · rw [State.cluster_setCluster_ne s hkn]
    exact ⟨rfl, rfl, rfl⟩

theorem State.setRing_steady {s : State} {n : Nat} {c : Ring} (hp : c.part = (s.ring n).part) (he : c.enable = true → (s.ring n).enable = true) :
    s.Steady (s.setRing n c) := by
  refine ⟨rfl, fun _ => ⟨rfl, rfl, rfl⟩, fun _ _ h => h, fun _ h => h, fun k => ?_⟩
  by_cases hkn : k = n
  · subst hkn
    rw [State.ring_setRing_self]
    exact ⟨hp, he⟩
  · rw [State.ring_setRing_ne s hkn]
    exact ⟨rfl, id⟩

theorem State.modSig_steady (s : State) (f : Sig → Sig) : s.Steady (s.modSig f) := .of_rest rfl rfl rfl rfl rfl
theorem State.modWeir_steady (s : State) (f : Weir → Weir) : s.Steady (s.modWeir f) := .of_rest rfl rfl rfl rfl rfl
theorem State.modOut_steady (s : State) (f : Out → Out) : s.Steady (s.modOut f) := .of_rest rfl rfl rfl rfl rfl
theorem State.modPool_steady (s : State) (p : Nat) (f : Pool → Pool) : s.Steady (s.modPool p f) := .of_rest rfl rfl rfl rfl rfl
theorem State.setPt_steady (s : State) (p : Nat) (t : Pt) : s.Steady (s.setPt p t) := .of_rest rfl rfl rfl rfl rfl
theorem State.modHw_steady {s : State} {f : Hw → Hw} (h : (f s.hw).rings = s.hw.rings) : s.Steady (s.modHw f) := .of_rest rfl rfl rfl rfl h

/-! Signals and completion records (R287, R292, R342, R345) -/

theorem Pair.writeG_op (x : Pair) (i : Nat) (v : W64) : (x.writeG i v).op = x.op := by
  obtain ⟨t, ht⟩ := x.writeG_eq i v
  rw [ht]

theorem Pair.writeP_op (x : Pair) (i : Nat) (v : Bool) : (x.writeP i v).op = x.op := by
  obtain ⟨t, ht⟩ := x.writeP_eq i v
  rw [ht]

theorem State.endSwait_steady (s : State) (sp outcome : Nat) : s.Steady (s.endSwait sp outcome) := by
  unfold State.endSwait
  extract_lets x cnt
  split
  · exact State.Steady.refl s
  · extract_lets y z u v w
    have hz : z.op = x.op := (Pair.writeP_op _ _ _).trans (Pair.writeG_op x _ _)
    split
    · have hu : s.Steady u := State.setPair_steady (fun i h => hz ▸ h)
      have hv : u.Steady v := u.modOut_steady _
      have hw : v.Steady w := (v.trace_told _ _ _ _ _ _).steady
      exact ((hu.trans hv).trans hw).trans (w.modWeir_steady _)
    · exact State.setPair_steady (fun i h => hz ▸ h)

theorem Cluster.takeSig_tags (c : Cluster) (tag : Nat) (bad : Option Byte) : (c.takeSig tag bad).queue.map QEnt.tag = c.queue.map QEnt.tag := by
  rw [Cluster.takeSig, List.map_map]
  refine List.map_congr_left fun e _ => ?_
  dsimp only [Function.comp]
  split <;> rfl

theorem State.takeSig_steady (s : State) (n tag : Nat) (bad : Option Byte) : s.Steady (s.modCluster n (fun c => c.takeSig tag bad)) :=
  State.setCluster_steady rfl rfl (Cluster.takeSig_tags _ tag bad)

theorem State.releaseWaiter_steady (s : State) (w : Waiter) : s.Steady (s.releaseWaiter w) := by
  cases w with
  | pair sp => exact s.endSwait_steady sp 0
  | command r i => exact .of_rest rfl rfl rfl rfl rfl
  | stream n tag => exact s.takeSig_steady n tag none

theorem State.raise_steady (s : State) (n : Nat) : s.Steady (s.raise n) := by
  unfold State.raise
  dsimp only
  split
  · exact s.modSig_steady _
  · exact (s.modSig_steady _).trans (State.Steady.foldl State.releaseWaiter_steady _ _)

theorem Ring.advance_keeps (fuel : Nat) (r : Ring) : (Ring.advance fuel r).part = r.part ∧ (Ring.advance fuel r).enable = r.enable := by
  induction fuel generalizing r with
  | zero => exact ⟨rfl, rfl⟩
  | succ fuel ih =>
    unfold Ring.advance
    split
    · exact ih { r with done := r.done + 1, written := r.written.filter (· != r.done.toNat) }
    · exact ⟨rfl, rfl⟩

theorem Ring.settle_keeps (r : Ring) : r.settle.part = r.part ∧ (r.settle.enable = true → r.enable = true) := by
  unfold Ring.settle
  split
  · exact ⟨rfl, fun h => Bool.noConfusion h⟩
  · exact ⟨rfl, id⟩

theorem State.recordWritten_steady (s : State) (ring : Nat) (idx : W32) (raise : Option Nat) (irq : Bool) :
    s.Steady (s.recordWritten ring idx raise irq) := by
  unfold State.recordWritten
  extract_lets r r' s1 s2
  have hs1 : s.Steady s1 := by
    obtain ⟨hap, hae⟩ := Ring.advance_keeps (r'.written.length + 1) r'
    obtain ⟨hsp, hse⟩ := Ring.settle_keeps (Ring.advance (r'.written.length + 1) r')
    exact State.setRing_steady (hsp.trans hap) (fun h => (hae ▸ hse h : r'.enable = true))
  have hs2 : s.Steady s2 := by
    refine hs1.trans ?_
    cases raise with
    | none => exact State.Steady.refl s1
    | some n => exact s1.raise_steady n
  split
  · exact hs2.trans (s2.sendIrq_told _ _ _ _).steady
  · exact hs2

theorem State.writeRecord_steady (s : State) (ring : Nat) (idx : W32) (w : BitVec 256) (raise : Option Nat) (irq : Bool) :
    s.Steady (s.writeRecord ring idx w raise irq) := by
  unfold State.writeRecord
  dsimp only
  split
  · exact (s.lightWrite_told _ _ _ _ _).steady.trans (State.recordWritten_steady _ ring idx raise irq)
  · exact State.setRing_steady rfl id
  · exact s.classP_steady _ _ _

theorem State.countL_steady (s : State) : s.Steady s.countL := .of_rest rfl rfl rfl rfl rfl

/-- R292: what a completion leaves. -/
theorem State.completeUnder_steady (s : State) (set : CfgSet) (part : Nat) (c : Cmd) (x : Compl) : s.Steady (s.completeUnder set part c x) := by
  unfold State.completeUnder
  extract_lets s1 s2
  have hs1 : s.Steady s1 := by
    dsimp only [s1]
    split
    · exact s.countL_steady
    · exact State.Steady.refl s
  exact (hs1.trans (s1.trace_told _ _ _ _ _ _).steady).trans (s2.writeRecord_steady _ _ _ _ _)

theorem State.finish_steady (s : State) (p : Nat) (c : Cmd) (x : Compl) : s.Steady (s.finish p c x) :=
  (State.Steady.of_rest (s := s) (t := s.unstage c) rfl rfl rfl rfl rfl).trans (State.completeUnder_steady _ _ p c x)

/-! Page groups and sequences (R249 to R270, R279) -/

theorem State.vaWrite_steady (s : State) (space va : Nat) (bs : List Byte) : s.Steady (s.vaWrite space va bs) := (s.vaWrite_told space va bs).steady

theorem State.setSeq_steady (s : State) (p q : Nat) (c : Seq) : s.Steady (s.setSeq p q c) :=
  (State.Steady.of_rest (s := s) (t := s.putSeq p q c) rfl rfl rfl rfl rfl).trans
    (State.Steady.foldl (fun s (w : Nat × List Byte) => s.vaWrite_steady p w.1 w.2) _ _)

theorem State.setPg_steady (s : State) (p g : Nat) (r : PgRec) : s.Steady (s.setPg p g r) :=
  (State.Steady.of_rest (s := s) (t := s.draw.2.modPool p (fun x => { x with recs := Tab.set PgRec.free x.recs g r })) rfl rfl rfl rfl rfl).trans
    (State.vaWrite_steady _ _ _ _)

theorem State.modPg_steady (s : State) (p g : Nat) (f : PgRec → PgRec) : s.Steady (s.modPg p g f) := s.setPg_steady p g _

theorem State.unhash_steady (s : State) (p g : Nat) : s.Steady (s.unhash p g) := by
  unfold State.unhash
  extract_lets r b u
  split
  · exact State.Steady.refl s
  · refine State.Steady.trans (s := u) ?_ (u.modPg_steady p g _)
    dsimp only [u]
    split
    · exact (s.modPool_steady p _).trans (State.vaWrite_steady _ _ _ _)
    · split
      · exact s.modPg_steady p _ _
      · exact State.Steady.refl s

theorem State.freeGroup_steady (s : State) (p g : Nat) : s.Steady (s.freeGroup p g) := by
  unfold State.freeGroup
  extract_lets u r v
  have hv : u.Steady v := by
    dsimp only [v]
    split
    · exact u.modPool_steady p _
    · exact State.Steady.refl u
  exact ((s.unhash_steady p g).trans hv).trans (v.setPg_steady p g _)

theorem State.judgeFamine_steady (s : State) (p : Nat) : s.Steady (s.judgeFamine p) := by
  unfold State.judgeFamine
  extract_lets d old f u
  have hu : s.Steady u := s.modPool_steady p _
  split
  · exact State.Steady.refl s
  · split
    · exact (hu.trans (State.Steady.of_rest (s := u) (t := u.clearPaused p) rfl rfl rfl rfl rfl)).trans (State.irqPending_told _ _ _ _ _ _).steady
    · exact hu

theorem State.unreferenced_steady (s : State) (p g : Nat) : s.Steady (s.unreferenced p g) := by
  unfold State.unreferenced
  dsimp only
  split
  · exact State.Steady.refl s
  · exact State.Steady.refl s
  · split
    · exact State.Steady.refl s
    · exact s.setPg_steady p g _
  · exact s.freeGroup_steady p g
  · exact State.Steady.refl s
  · split
    · exact s.modPg_steady p g _
    · exact s.freeGroup_steady p g

theorem State.dropRef_steady (s : State) (p g : Nat) : s.Steady (s.dropRef p g) := by
  unfold State.dropRef
  extract_lets u
  have hu : s.Steady u := s.modPg_steady p g _
  split
  · exact (hu.trans (u.unreferenced_steady p g)).trans (State.judgeFamine_steady _ p)
  · exact hu.trans (u.judgeFamine_steady p)

theorem State.unpin_steady (s : State) (p g : Nat) : s.Steady (s.unpin p g) := by
  unfold State.unpin
  extract_lets u
  have hu : s.Steady u := s.modPg_steady p g _
  split
  · exact (hu.trans (u.modPool_steady p _)).trans (State.judgeFamine_steady _ p)
  · exact hu

theorem State.dropCopies_steady (s : State) (o : Op) : s.Steady (s.dropCopies o) :=
  State.Steady.foldl (fun s (r : Nat × PgRec) => (s.modPg_steady o.part r.1 _).trans (State.dropRef_steady _ o.part r.1)) _ s

theorem State.seqDone_steady (s : State) (p q : Nat) : s.Steady (s.seqDone p q) := by
  unfold State.seqDone
  dsimp only
  split
  · exact State.Steady.refl s
  · exact s.setSeq_steady p q _

theorem State.showProgress_steady (s : State) (p q : Nat) : s.Steady (s.showProgress p q) := by
  unfold State.showProgress
  split
  · split
    · exact State.Steady.refl s
    · exact s.setSeq_steady p q _
  · exact State.Steady.refl s

/-! The end of an operation (R202, R279, R347) -/

theorem State.servedBy_steady (s : State) (o : Op) : s.Steady (s.servedBy o) := by
  unfold State.servedBy
  extract_lets e f
  exact State.Steady.foldl (fun s k => s.modPair_steady k (f := f) (fun _ => rfl)) _ s

theorem State.leaveLoans_steady (s : State) (o : Op) (m : BitVec 32) : s.Steady (s.leaveLoans o m) := by
  refine State.Steady.foldl (fun s sp => ?_) _ s
  dsimp only
  split
  · exact State.Steady.refl s
  · refine State.Steady.trans ?_ (State.modWeir_steady _ _)
    split
    · exact State.Steady.refl s
    · exact (s.modOut_steady _).trans (State.trace_told _ _ _ _ _ _ _).steady

/-- R202: pair `k` after an operation has let go of it, where it served the operation. -/
def State.freePair (s : State) (o : Op) (k : Nat) : State :=
  if (s.pair k).op = some o.opid then (s.setPair k ((s.pair k).freed o.part)).unwait (.pair k)
  else if (pairsOf o.clusters).contains k then s.setPair k { s.pair k with lastPart := some o.part }
  else s

theorem State.freePairs_eq (s : State) (o : Op) : s.freePairs o = (List.range 8).foldl (fun s k => s.freePair o k) s := rfl

theorem State.freePair_steady (s : State) (o : Op) (k : Nat) : s.Steady (s.freePair o k) := by
  unfold State.freePair
  split
  · exact (State.setPair_steady (fun i h => absurd h (by simp [Pair.freed]))).trans (State.modSig_steady _ _)
  · split
    · exact State.setPair_steady (fun _ h => h)
    · exact State.Steady.refl s

theorem State.freePairs_steady (s : State) (o : Op) : s.Steady (s.freePairs o) :=
  State.Steady.foldl (fun s k => s.freePair_steady o k) _ s

theorem State.freePair_freed (s : State) (o : Op) (k : Nat) : ((s.freePair o k).pair k).op ≠ some o.opid := by
  unfold State.freePair
  split
  · change ((s.setPair k _).pair k).op ≠ _
    rw [State.pair_setPair_self]
    simp [Pair.freed]
  · split
    · rw [State.pair_setPair_self]
      assumption
    · assumption

/-- R202: no pair of the block serves an operation that has let go of its pairs. -/
theorem State.freePairs_freed (s : State) (o : Op) {k : Nat} (hk : k < 8) : ((s.freePairs o).pair k).op ≠ some o.opid := by
  have hfold (ks : List Nat) : ∀ (s : State), k ∈ ks → ((ks.foldl (fun s k => s.freePair o k) s).pair k).op ≠ some o.opid := by
    induction ks with
    | nil => exact fun s h => absurd h List.not_mem_nil
    | cons j ks ih =>
      intro s h
      obtain rfl | h := List.mem_cons.1 h
      · exact fun hop => s.freePair_freed o k ((State.Steady.foldl (fun s k => s.freePair_steady o k) ks _).pairs k _ hop)
      · exact ih _ h
  exact hfold _ s (List.mem_range.2 hk)

theorem State.dropOp_steady (s : State) (i : W32) : s.Steady (s.dropOp i) := .of_rest rfl rfl rfl rfl rfl

/-- R202, R279: an operation gives up what it holds, its pairs among it. -/
theorem State.freeOp_steady (s : State) (o : Op) : s.Steady (s.freeOp o) ∧ ∀ k, k < 8 → ((s.freeOp o).pair k).op ≠ some o.opid := by
  unfold State.freeOp
  extract_lets u v w live
  have hu : s.Steady u := State.Steady.foldl (fun s g => s.unpin_steady o.part g) o.pins s
  have hloans : s.Steady ((u.dropCopies o).leaveLoans o o.lent) := (hu.trans (u.dropCopies_steady o)).trans (State.leaveLoans_steady _ o o.lent)
  have hv : (((u.dropCopies o).leaveLoans o o.lent).freePairs o).Steady v := State.dropOp_steady _ o.opid
  have hw : v.Steady w := by
    dsimp only [w]
    split
    · exact State.Steady.refl v
    · exact (v.seqDone_steady _ _).trans (State.showProgress_steady _ _ _)
  have hend : w.Steady (if live then w else w.modPt o.part (fun t => { t with killGo := false })) := by
    split
    · exact State.Steady.refl w
    · exact w.setPt_steady o.part _
  have hafter := (hv.trans hw).trans hend
  exact ⟨(hloans.trans (State.freePairs_steady _ o)).trans hafter, fun k hk hop => State.freePairs_freed _ o hk (hafter.pairs k _ hop)⟩

theorem State.resumeRecord_steady (s : State) (p : Nat) (w : BitVec 256) (sig : Option Nat) : s.Steady (s.resumeRecord p w sig) := by
  unfold State.resumeRecord
  extract_lets t a w' u
  split
  · exact s.setPt_steady p _
  · split
    · have hu : s.Steady u := ((s.lightWrite_told _ _ _ _ _).steady.trans (State.setPt_steady _ p _)).trans (State.irqPending_told _ _ _ _ _ _).steady
      cases sig with
      | none => exact hu
      | some n => exact hu.trans (u.raise_steady n)
    · exact s.setPt_steady p _
    · exact s.classP_steady _ _ _

/-- R202, R292: the end of an operation is steady, and no pair serves it any more. -/
theorem State.endOp_freed {s : State} {opid : W32} {o : Op} (ho : s.op opid = some o) (status detail : Nat) (result : BitVec 96) :
    s.Steady (s.endOp opid status detail result) ∧ ∀ k, k < 8 → ((s.endOp opid status detail result).pair k).op ≠ some opid := by
  obtain rfl := State.op_opid ho
  unfold State.endOp
  rw [ho]
  dsimp only
  obtain ⟨hfree, hfreed⟩ := (s.servedBy o).freeOp_steady o
  have hafter {t : State} (h : ((s.servedBy o).freeOp o).Steady t) : s.Steady t ∧ ∀ k, k < 8 → (t.pair k).op ≠ some o.opid :=
    ⟨((s.servedBy_steady o).trans hfree).trans h, fun k hk hop => hfreed k hk (h.pairs k _ hop)⟩
  split
  · split
    · exact hafter (((State.countL_steady _).trans (State.trace_told _ _ _ _ _ _ _).steady).trans (State.resumeRecord_steady _ _ _ _))
    · exact hafter ((State.trace_told _ _ _ _ _ _ _).steady.trans (State.resumeRecord_steady _ _ _ _))
  · exact hafter (State.completeUnder_steady _ _ _ _ _)

theorem State.endOp_steady (s : State) (opid : W32) (status detail : Nat) (result : BitVec 96) : s.Steady (s.endOp opid status detail result) := by
  cases ho : s.op opid with
  | none =>
    unfold State.endOp
    rw [ho]
    exact State.Steady.refl s
  | some o => exact (State.endOp_freed ho status detail result).1

end Sys2Proof.Machine
end

section
/-! SUPPORT. Entries that stall and operations whose time runs out (R175, R233, R239). -/

namespace Sys2Proof.Machine

/-! Operations that stop (R232, R233, R238) -/

theorem State.progCheck_cases (s : State) (i : W32) : s.progCheck i = s ∨ s.progCheck i = s.endOp i 0 0 0 := by
  unfold State.progCheck
  split
  · exact .inl rfl
  · split
    · exact .inr rfl
    · exact .inl rfl

theorem State.progCheck_steady (s : State) (i : W32) : s.Steady (s.progCheck i) := by
  obtain h | h := s.progCheck_cases i
  · rw [h]
    exact State.Steady.refl s
  · rw [h]
    exact s.endOp_steady i 0 0 0

theorem State.endOp_gone (s : State) (i : W32) (status detail : Nat) (result : BitVec 96) : (s.endOp i status detail result).op i = none := by
  cases ho : s.op i with
  | none =>
    unfold State.endOp
    rw [ho]
    exact ho
  | some o => exact (State.endOp_ended ho status detail result).gone

/-- R238: an operation that is still there has not ended at its check. -/
theorem State.progCheck_stays {s : State} {i : W32} (h : (s.progCheck i).op i ≠ none) : s.progCheck i = s := by
  obtain hs | hs := s.progCheck_cases i
  · exact hs
  · exact absurd (by rw [hs]; exact s.endOp_gone i 0 0 0) h

theorem State.progCheck_other (s : State) {i j : W32} (hj : j ≠ i) : (s.progCheck i).op j = s.op j := by
  obtain h | h := s.progCheck_cases i
  · rw [h]
  · rw [h]
    cases ho : s.op i with
    | none =>
      unfold State.endOp
      rw [ho]
    | some o => exact (State.endOp_ended ho 0 0 0).other j hj

/-- An operation as it stands once it has stopped with a status. -/
def Op.stopped (o : Op) (status detail : Nat) (result : BitVec 96) : Op := { o.fault status detail result with ended := 0xFF }

theorem Op.stopped_opid (o : Op) (status detail : Nat) (result : BitVec 96) : (o.stopped status detail result).opid = o.opid :=
  o.fault_opid status detail result

/-- R233: the status of an operation that stops is at least that with which it does. -/
theorem Op.le_stopped_status (o : Op) {status : Nat} (h : status < 256) (detail : Nat) (result : BitVec 96) :
    status ≤ (o.stopped status detail result).status.toNat :=
  (o.fault_status h detail result).symm ▸ Nat.le_max_right _ _

theorem State.stopOp_eq {s : State} {i : W32} {o : Op} (ho : s.op i = some o) (status detail : Nat) (result : BitVec 96) :
    s.stopOp i status detail result = (s.setOp (o.stopped status detail result)).progCheck i := by
  unfold State.stopOp
  rw [ho]
  rfl

theorem State.op_setStopped {s : State} {i : W32} {o : Op} (ho : s.op i = some o) (status detail : Nat) (result : BitVec 96) :
    (s.setOp (o.stopped status detail result)).op i = some (o.stopped status detail result) := by
  have hid : (o.stopped status detail result).opid = i := (o.stopped_opid status detail result).trans (State.op_opid ho)
  rw [← hid] at ho ⊢
  exact State.op_setOp ho

/-- R232, R233: an operation that stops is gone or shows its status, and the others stay. -/
theorem State.stopOp_stopped {s : State} {i : W32} {o : Op} (ho : s.op i = some o) (status detail : Nat) (result : BitVec 96) :
    (∀ x, (s.stopOp i status detail result).op i = some x → x = o.stopped status detail result)
      ∧ ∀ j, j ≠ i → (s.stopOp i status detail result).op j = s.op j := by
  rw [State.stopOp_eq ho]
  have hid : (o.stopped status detail result).opid = i := (o.stopped_opid status detail result).trans (State.op_opid ho)
  refine ⟨fun x hx => ?_, fun j hj => ?_⟩
  · rw [State.progCheck_stays (by rw [hx]; exact Option.some_ne_none x), State.op_setStopped ho] at hx
    exact (Option.some.inj hx).symm
  · rw [State.progCheck_other _ hj]
    exact State.op_setOp_ne s (by rw [hid]; exact hj)

/-! Entries that stall (R175) -/

section
variable {s : State} {n : Fin 32} {e : Engine}

theorem exec_stallTimeout_none (h : ∀ q ∈ (s.cluster n.val).queue, q.eng = e → s.stalled n.val q = false) : exec (.stallTimeout n e) s = .next s := by
  have hnone : (s.cluster n.val).firstOf e (s.stalled n.val) = none :=
    List.find?_eq_none.2 (fun q hq hs => by
      obtain ⟨heng, hstall⟩ := Bool.and_eq_true_iff.1 hs
      exact absurd hstall (by rw [h q hq (of_decide_eq_true heng)]; decide))
  change execStallTimeout n e s = _
  simp [execStallTimeout, hnone]

/-- R303: an entry stalls only while its operation is in flight. -/
theorem State.op_of_stalled {n : Nat} {q : QEnt} (h : s.stalled n q = true) : ∃ o, s.op q.opid = some o := by
  cases ho : s.op q.opid with
  | none => simp [State.stalled, State.mayWork, ho] at h
  | some o => exact ⟨o, rfl⟩

/-- R175, R233: a stalled entry is logged, stops its operation ABORTED and leaves its queue; the operation's end is then judged. -/
theorem exec_stallTimeout_some {q : QEnt} (hf : s.fast = true)
    (hq : (s.cluster n.val).queue.find? (fun x => x.eng = e && s.stalled n.val x) = some q) :
    ∃ a u v, s.Told u 1 ∧ u.Logged s.ras.total ⟨s.clk.tick, 0x04, some q.part, false, 2, BitVec.ofNat 8 n.val, q.opid, BitVec.ofNat 32 (enginePort e), a⟩
      ∧ v = u.setCluster n.val (((u.cluster n.val).cutAfter q).modEnt q.tag (fun x => { x with bad := some 0x22 }))
      ∧ exec (.stallTimeout n e) s = .next (((v.stopOp q.opid 0x22 0x08 0).modCluster n.val (fun c =>
        { c with queue := c.queue.filter (fun x => x.tag != q.tag), sb := c.sb.filter (fun x => x.tag != q.tag) })).progCheck q.opid) := by
  have hfirst : (s.cluster n.val).firstOf e (s.stalled n.val) = some q := hq
  obtain ⟨a, ha⟩ : ∃ a, a = ((((s.cluster n.val).blocker ((s.cluster n.val).planned q)).map SbEnt.word).getD 0).toNat := ⟨_, rfl⟩
  refine ⟨_, _, _, s.note_told 0x04 (some q.part) false 2 (BitVec.ofNat 8 n.val) q.opid (enginePort e) a, s.note_logged _ _ _ _ _ _ _ _, rfl, ?_⟩
  change execStallTimeout n e s = _
  simp only [execStallTimeout, hfirst, hf]
  rw [← ha]
  rfl

end

/-! Time budgets (R239) -/

theorem State.builtinBudget_calm (s : State) (o : Op) (sp : Nat) : s.Calm (s.builtinBudget o sp) := by
  refine State.Calm.of_hw ?_
  unfold State.builtinBudget
  dsimp only [State.draw]
  split <;> rfl

theorem State.markExc_calm (s : State) (sp code pc : Nat) : s.Calm (s.markExc sp code pc) := by
  refine State.Calm.of_hw ?_
  unfold State.markExc
  extract_lets x opid u
  dsimp only [u]
  split <;> rfl

/-- R239, R337: an operation that is held or built in ends when its time runs out. -/
theorem State.expire_ends {s : State} {o : Op} (h : opcodeOf o.cmd ≠ 0x0F ∨ o.st = .held) :
    ∃ u status detail result, s.expire o = u.endOp o.opid status detail result ∧ s.Calm u := by
  unfold State.expire
  split
  · exact ⟨s, _, _, _, rfl, State.Calm.refl s⟩
  · have hop : opcodeOf o.cmd ≠ 0x0F := h.resolve_right ‹_›
    split
    · refine ⟨_, _, _, _, rfl, State.modSeq_calm (fun l => ?_)⟩
      split <;> rfl
    · dsimp only
      split
      · exact ⟨s, _, _, _, if_neg hop, State.Calm.refl s⟩
      · rw [if_neg hop]
        exact ⟨_, _, _, _, rfl, State.Calm.foldl (fun s k => s.builtinBudget_calm o k) _ s⟩

/-- R232, R239: a program stops ABORTED when its time runs out. -/
theorem State.expire_stops {s : State} {o : Op} (hop : opcodeOf o.cmd = 0x0F) (hst : o.st ≠ .held) :
    ∃ u detail result, s.expire o = u.stopOp o.opid 0x22 detail result ∧ s.Calm u := by
  unfold State.expire
  rw [if_neg hst, if_neg (by rw [hop]; decide)]
  dsimp only
  split
  · exact ⟨s, _, _, if_pos hop, State.Calm.refl s⟩
  · rw [if_pos hop]
    exact ⟨_, _, _, rfl, State.Calm.foldl (fun s k => s.markExc_calm k _ _) _ s⟩

theorem exec_budgetExpiry {s : State} {opid : W32} {o : Op} (hr : s.boot.inReset = false) (hf : s.boot.fatal = false) (ho : s.op opid = some o) :
    exec (.budgetExpiry opid) s = .next (s.expire o) := by
  change execBudgetExpiry opid s = _
  simp [execBudgetExpiry, ho, State.creditable, State.on, hr, hf]

/-- Settles O35: an entry that stalls stops its operation and leaves; an operation out of time ends, or stops where it is a program. -/
theorem operationTimeouts : Obligations.OperationTimeouts := by
  unfold Obligations.OperationTimeouts
  intro s
  refine ⟨fun n e h => exec_stallTimeout_none h, fun n e q hf hq => ?_, fun opid o hr hf ho => ?_⟩
  · have hstalled : s.stalled n.val q = true := (Bool.and_eq_true_iff.1 (List.find?_some (p := fun x => x.eng = e && s.stalled n.val x) hq)).2
    obtain ⟨o, ho⟩ := State.op_of_stalled hstalled
    obtain ⟨a, u, v, htold, hlog, hv, hexec⟩ := exec_stallTimeout_some hf hq
    have hvo : v.op q.opid = some o := by
      rw [hv]
      exact (htold.reports.op q.opid).trans ho
    obtain ⟨w, hw⟩ : ∃ w, w = (v.stopOp q.opid 0x22 0x08 0).modCluster n.val (fun c =>
        { c with queue := c.queue.filter (fun x => x.tag != q.tag), sb := c.sb.filter (fun x => x.tag != q.tag) }) := ⟨_, rfl⟩
    rw [← hw] at hexec
    have hwop : w.op q.opid = (v.stopOp q.opid 0x22 0x08 0).op q.opid := by rw [hw]; rfl
    refine ⟨_, hexec, fun x hx htag => ?_,
      fun hop => ⟨⟨s.clk.tick, 0x04, some q.part, false, 2, BitVec.ofNat 8 n.val, q.opid, BitVec.ofNat 32 (enginePort e), a⟩, ?_, rfl, rfl, rfl, rfl, rfl⟩, fun y hy => ?_⟩
    · have htags : ((w.progCheck q.opid).cluster n.val).queue.map QEnt.tag = (w.cluster n.val).queue.map QEnt.tag :=
        ((w.progCheck_steady q.opid).clusters n.val).2.2
      have hmem : q.tag ∈ (w.cluster n.val).queue.map QEnt.tag := htags ▸ htag ▸ List.mem_map_of_mem hx
      rw [hw, State.cluster_modCluster_self] at hmem
      obtain ⟨z, hz, hzq⟩ := List.mem_map.1 hmem
      exact absurd hzq (by simpa using (List.mem_filter.1 hz).2)
    · have hstay := State.progCheck_stays hop
      rw [hstay, hwop, State.stopOp_eq hvo] at hop
      rw [hstay, hw, State.stopOp_eq hvo, State.progCheck_stays hop, hv]
      exact hlog
    · rw [State.progCheck_stays (by rw [hy]; exact Option.some_ne_none y), hwop] at hy
      rw [(State.stopOp_stopped hvo 0x22 0x08 0).1 y hy]
      exact o.le_stopped_status (by decide) 0x08 0
  · obtain rfl := State.op_opid ho
    refine ⟨s.expire o, exec_budgetExpiry hr hf ho, ?_⟩
    by_cases h : opcodeOf o.cmd ≠ 0x0F ∨ o.st = .held
    · obtain ⟨u, status, detail, result, he, hcalm⟩ := State.expire_ends (s := s) h
      have huo : u.op o.opid = some o := (hcalm.op o.opid).trans ho
      have hend := State.endOp_ended huo status detail result
      rw [he]
      exact ⟨fun _ => ⟨hend.gone, (State.endOp_freed huo status detail result).2⟩, fun x hx => absurd (hend.gone.symm.trans hx) (by simp),
        fun i hi => (hend.other i hi).trans (hcalm.op i)⟩
    · obtain ⟨hop, hst⟩ := not_or.1 h
      obtain ⟨u, detail, result, he, hcalm⟩ := State.expire_stops (s := s) (not_not.1 hop) hst
      obtain ⟨hself, hother⟩ := State.stopOp_stopped ((hcalm.op o.opid).trans ho) 0x22 detail result
      rw [he]
      refine ⟨fun h' => absurd h' h, fun x hx => ?_, fun i hi => (hother i hi).trans (hcalm.op i)⟩
      rw [hself x hx]
      exact ⟨o.le_stopped_status (by decide) detail result, rfl⟩

end Sys2Proof.Machine
end

section
/-! SUPPORT. The reset of a partition (R181, R329, R345, R411): what each of its steps does to the rings, the commands, the contexts and the clusters. -/

namespace Sys2Proof.Machine

/-! Windows that are withdrawn (R365) -/

theorem State.foldl_peer {α : Type} {f : State → α → State} (hf : ∀ s x, ∃ y, f s x = { s with peer := y }) (xs : List α) (s : State) :
    ∃ y, xs.foldl f s = { s with peer := y } := by
  induction xs generalizing s with
  | nil => exact ⟨s.peer, rfl⟩
  | cons x xs ih =>
    obtain ⟨y, hy⟩ := hf s x
    obtain ⟨z, hz⟩ := ih (f s x)
    exact ⟨z, by rw [List.foldl_cons, hz, hy]⟩

/-- R365: WITHDRAW changes the peer unit alone. -/
theorem State.withdraw_eq (s : State) (n : Nat) : ∃ x, s.withdraw n = { s with peer := x } := by
  unfold State.withdraw
  exact State.foldl_peer (fun _ _ => ⟨_, rfl⟩) _ _

theorem State.withdraws_eq (ns : List Nat) (s : State) : ∃ x, ns.foldl State.withdraw s = { s with peer := x } :=
  State.foldl_peer State.withdraw_eq ns s

/-! Operations that are dropped (R202, R329, R347) -/

/-- `t` with the pairs, waits, loans, messages, trace records and operations of `s`. -/
def State.regained (t s : State) : State :=
  { t with pairs := s.pairs, sig := { t.sig with waiters := s.sig.waiters }, weir := s.weir, out := s.out, trc := s.trc, hw := { t.hw with ops := s.hw.ops } }

theorem State.regained_trans {r s t : State} (a : s.regained r = r) (b : t.regained s = s) : t.regained r = r :=
  (congrArg (State.regained · r) b).trans a

theorem State.regained_foldl {α : Type} {f : State → α → State} (hf : ∀ s x, (f s x).regained s = s) (xs : List α) (s : State) :
    (xs.foldl f s).regained s = s := by
  induction xs generalizing s with
  | nil => rfl
  | cons x xs ih => exact State.regained_trans (hf s x) (ih _)

theorem State.leaveLoans_regained (s : State) (o : Op) (m : BitVec 32) : (s.leaveLoans o m).regained s = s := by
  refine State.regained_foldl (fun s sp => ?_) _ s
  dsimp only
  split
  · rfl
  · split
    · rfl
    · obtain ⟨x, hx⟩ := (s.pmOut 0xA o.part (popcount (o.lent &&& m &&& BitVec.ofNat 32 (15 * 2 ^ (4 * sp)))) 0).trace_eq 0x0B o.part
        (BitVec.ofNat 8 (0x40 + sp)) o.opid 1 (popcount (o.lent &&& m &&& BitVec.ofNat 32 (15 * 2 ^ (4 * sp))))
      rw [hx]
      rfl

theorem State.freePairs_regained (s : State) (o : Op) : (s.freePairs o).regained s = s := by
  refine State.regained_foldl (fun s k => ?_) _ s
  dsimp only
  split
  · rfl
  · split <;> rfl

/-- R329: an operation of the partition leaves with what it held. -/
def State.letGo (s : State) (o : Op) : State := ((s.leaveLoans o o.lent).freePairs o).dropOp o.opid

theorem State.dropOp_regained (s : State) (i : W32) : (s.dropOp i).regained s = s := rfl
theorem State.dropOp_ops (s : State) (i : W32) : (s.dropOp i).hw.ops = s.hw.ops.filter (fun x => x.opid != i) := rfl
theorem State.pair_dropOp (s : State) (i : W32) (k : Nat) : (s.dropOp i).pair k = s.pair k := rfl

theorem State.letGo_regained (s : State) (o : Op) : (s.letGo o).regained s = s := by
  unfold State.letGo
  exact State.regained_trans (State.regained_trans (s.leaveLoans_regained o o.lent) (State.freePairs_regained _ o)) (State.dropOp_regained _ o.opid)

theorem State.letGo_ops (s : State) (o : Op) : (s.letGo o).hw.ops = s.hw.ops.filter (fun x => x.opid != o.opid) := by
  rw [State.letGo, State.dropOp_ops, State.freePairs_hw, (s.leaveLoans_rest o o.lent).1]

/-- R329: no operation that is dropped is left. -/
theorem State.mem_letGoes {os : List Op} {s : State} {x : Op} (hx : x ∈ (os.foldl State.letGo s).hw.ops) : x ∈ s.hw.ops ∧ x ∉ os := by
  induction os generalizing s with
  | nil => exact ⟨hx, List.not_mem_nil⟩
  | cons o os ih =>
    rw [List.foldl_cons] at hx
    obtain ⟨hmem, hos⟩ := ih hx
    rw [State.letGo_ops] at hmem
    obtain ⟨hs, hne⟩ := List.mem_filter.1 hmem
    refine ⟨hs, fun h => ?_⟩
    obtain rfl | h := List.mem_cons.1 h
    · simp at hne
    · exact hos h

/-- `y` has the registers of `x`, and waits for no signal where `x` does not. -/
def Pair.SameRegs (x y : Pair) : Prop := y.g = x.g ∧ y.p = x.p ∧ (x.swait = none → y.swait = none)

theorem State.freePair_regs (s : State) (o : Op) (k j : Nat) : (s.pair j).SameRegs ((s.freePair o k).pair j) := by
  unfold State.freePair
  by_cases hj : j = k
  · subst hj
    split
    · change (s.pair j).SameRegs ((s.setPair j _).pair j)
      rw [State.pair_setPair_self]
      exact ⟨rfl, rfl, fun _ => rfl⟩
    · split
      · rw [State.pair_setPair_self]
        exact ⟨rfl, rfl, id⟩
      · exact ⟨rfl, rfl, id⟩
  · split
    · change (s.pair j).SameRegs ((s.setPair k _).pair j)
      rw [State.pair_setPair_ne s hj]
      exact ⟨rfl, rfl, id⟩
    · split
      · rw [State.pair_setPair_ne s hj]
        exact ⟨rfl, rfl, id⟩
      · exact ⟨rfl, rfl, id⟩

theorem Pair.SameRegs.trans {x y z : Pair} (a : x.SameRegs y) (b : y.SameRegs z) : x.SameRegs z := by
  obtain ⟨ag, ap, aw⟩ := a
  obtain ⟨bg, bp, bw⟩ := b
  exact ⟨bg.trans ag, bp.trans ap, fun h => bw (aw h)⟩

theorem State.foldl_regs {α : Type} {f : State → α → State} (j : Nat) (hf : ∀ (s : State) x, (s.pair j).SameRegs ((f s x).pair j)) (xs : List α) (s : State) :
    (s.pair j).SameRegs ((xs.foldl f s).pair j) := by
  induction xs generalizing s with
  | nil => exact ⟨rfl, rfl, id⟩
  | cons x xs ih => exact (hf s x).trans (ih _)

theorem State.letGo_regs (s : State) (o : Op) (j : Nat) : (s.pair j).SameRegs ((s.letGo o).pair j) := by
  have hloans : (s.leaveLoans o o.lent).pair j = s.pair j := by rw [State.pair, State.pair, (s.leaveLoans_rest o o.lent).2]
  rw [State.letGo, State.pair_dropOp, State.freePairs_eq, ← hloans]
  exact State.foldl_regs j (fun s k => s.freePair_regs o k j) (List.range 8) (s.leaveLoans o o.lent)

/-! The steps of a partition reset (R329, R411) -/

/-- R411: a stopped partition is marked as stopped, and the rest is reports. -/
theorem State.classPMark_faulted (s : State) (p kind addr n : Nat) :
    (s.classPMark p kind addr n).unreported s = s ∧ (s.classPMark p kind addr n).ras.pstop = s.ras.pstop ||| oneHot 16 p := by
  obtain ⟨u, hu⟩ : ∃ u, u = s.modRas (fun r => { r with pstop := r.pstop ||| oneHot 16 p, p := bumpTo 0xFF r.p }) := ⟨_, rfl⟩
  have htold : u.Told (s.classPMark p kind addr n) 3 := by
    rw [hu]
    exact (State.event_told _ _ _ _ _ _).trans (State.rasIrq_told _ _ _)
  refine ⟨(congrArg (State.unreported · s) htold.rest).trans ?_, htold.pstop.trans ?_⟩ <;> rw [hu] <;> rfl

/-- A ring once partition `p` has left service. -/
def Ring.stoppedFor (r : Ring) (p : Nat) : Ring :=
  if r.part.toNat = p then { r with enable := false, draining := false, waits := false, unwritten := [] } else r

/-- R329 step 1: the rings of the partition are out of service. -/
theorem State.stopRings_ring (s : State) (p n : Nat) : (s.stopRings p).ring n = (s.ring n).stoppedFor p :=
  Tab.get_map Ring.reset (f := fun r => r.stoppedFor p) (ite_self _) s.hw.rings n

theorem Ring.stoppedFor_keeps (r : Ring) (p : Nat) : (r.stoppedFor p).part = r.part ∧ (r.stoppedFor p).fetched = r.fetched
    ∧ (r.stoppedFor p).done = r.done ∧ (r.part.toNat = p → (r.stoppedFor p).enable = false) := by
  unfold Ring.stoppedFor
  split
  · exact ⟨rfl, rfl, rfl, fun _ => rfl⟩
  · exact ⟨rfl, rfl, rfl, fun h => absurd h ‹_›⟩

theorem State.ownerLost_steady (s : State) (w : Waiter) : s.Steady (s.ownerLost w) := by
  unfold State.ownerLost
  split
  · exact s.endSwait_steady _ 2
  · split
    · exact s.finish_steady _ _ _
    · exact State.Steady.refl s
  · exact s.takeSig_steady _ _ _

/-- R329 step 2: the queues lose the entries of the partition. -/
theorem State.dropOps_queue (s : State) (p n : Nat) : ∀ e ∈ ((s.dropOps p).cluster n).queue, e.part ≠ p := by
  intro e he
  obtain ⟨u, hu⟩ : ∃ u : State, ((s.dropOps p).cluster n) = Tab.get Cluster.reset (u.clusters.map (fun (c : Nat × Cluster) => (c.1, c.2.dropPart p))) n := ⟨_, rfl⟩
  rw [hu, Tab.get_map Cluster.reset (f := fun c => c.dropPart p) rfl] at he
  simpa using (List.mem_filter.1 he).2

theorem State.trace_pairs (s : State) (type part : Nat) (unit : Byte) (opid : W32) (a0 a1 : Nat) : (s.trace type part unit opid a0 a1).pairs = s.pairs := by
  obtain ⟨x, hx⟩ := s.trace_eq type part unit opid a0 a1
  rw [hx]
  rfl

/-- R223, R345: what a pair reads whose wait has ended. -/
theorem State.endSwait_pair {s : State} {sp : Nat} {w : SwaitSt} (hw : (s.pair sp).swait = some w) (hd : w.d ≠ 0) (hpd : w.pd ≠ 0) (outcome : Nat) :
    ((s.endSwait sp outcome).pair sp).readG w.d.val = BitVec.ofNat 64 outcome
      ∧ ((s.endSwait sp outcome).pair sp).readP w.pd.val = decide (outcome = 0) ∧ ((s.endSwait sp outcome).pair sp).swait = none := by
  obtain ⟨x, hx⟩ : ∃ x, x = ((s.pair sp).writeG w.d.val (BitVec.ofNat 64 outcome)).writeP w.pd.val (outcome = 0) := ⟨_, rfl⟩
  have hg : x.readG w.d.val = BitVec.ofNat 64 outcome := by
    obtain ⟨t, ht⟩ := ((s.pair sp).writeG w.d.val (BitVec.ofNat 64 outcome)).writeP_eq w.pd.val (outcome = 0)
    rw [hx, ht]
    exact (Pair.readG_writeG _ _ _ _).trans (if_pos ⟨rfl, fun h => hd (Fin.ext h)⟩)
  have hp : x.readP w.pd.val = decide (outcome = 0) := by
    rw [hx, Pair.readP_writeP, if_pos ⟨rfl, fun h => hpd (Fin.ext h)⟩]
  have hpair : ∃ st r, (s.endSwait sp outcome).pair sp = { x with swait := none, st := st, recalled := r } := by
    unfold State.endSwait
    extract_lets y
    split
    · exact absurd hw (by rw [show (s.pair sp).swait = none from ‹_›]; exact (Option.some_ne_none w).symm)
    · next w' hw' =>
      obtain rfl : w' = w := Option.some.inj (hw'.symm.trans hw)
      extract_lets z z' cnt
      split
      · refine ⟨z'.st, true, ?_⟩
        rw [State.pair, State.modWeir_pairs, State.trace_pairs, hx]
        exact State.pair_setPair_self s sp _
      · refine ⟨z'.st, z'.recalled, ?_⟩
        rw [hx]
        exact State.pair_setPair_self s sp _
  obtain ⟨st, r, hpair⟩ := hpair
  rw [hpair]
  exact ⟨hg, hp, rfl⟩

/-! The states of a partition reset (R329) -/

/-- R329, R411: the reset of partition `p` is logged and the partition stopped. -/
def State.resetMarked (s : State) (p : Nat) : State :=
  ((s.note 0x11 (some p) true 3 0xFF 0 0 0).classPMark p 0x11 0 s.entryNo).modCfg (fun c => { c with resetting := c.resetting ||| oneHot 16 p })

/-- R329: its rings are out of service and none of its own waits for a signal. -/
def State.resetQuiet (s : State) (p : Nat) : State := ((s.resetMarked p).stopRings p).dropWaiters p

/-- R329: the reset of a partition that is not being reset, up to the windows that it withdraws. -/
theorem State.startPartReset_eq {s : State} {p : Nat} (h : s.cfg.resetting.getLsbD p = false) :
    ∃ x, s.startPartReset p = { (((((s.resetQuiet p).resetSignals p).dropOps p).dropStaged p).dropContexts p) with peer := x } := by
  unfold State.startPartReset
  rw [bit, h, if_neg (by decide)]
  exact State.withdraws_eq _ _

theorem State.resetMarked_spec (s : State) (p : Nat) (hp : p < 16) :
    (s.resetMarked p).cfg = { s.cfg with resetting := s.cfg.resetting ||| oneHot 16 p } ∧ (s.resetMarked p).pairs = s.pairs
      ∧ (s.resetMarked p).sig = s.sig ∧ (s.resetMarked p).hw.rings = s.hw.rings ∧ (s.resetMarked p).ras.pstop.getLsbD p = true := by
  obtain ⟨hmark, hstop⟩ := State.classPMark_faulted (s.note 0x11 (some p) true 3 0xFF 0 0 0) p 0x11 0 s.entryNo
  have hrest := (congrArg (State.unreported · s) hmark).trans (s.note_told 0x11 (some p) true 3 0xFF 0 0 0).rest
  refine ⟨congrArg (fun t : State => { t.cfg with resetting := t.cfg.resetting ||| oneHot 16 p }) hrest, congrArg (·.pairs) hrest,
    congrArg (·.sig) hrest, congrArg (·.hw.rings) hrest, ?_⟩
  change ((s.note _ _ _ _ _ _ _ _).classPMark p 0x11 0 s.entryNo).ras.pstop.getLsbD p = true
  rw [hstop, BitVec.getLsbD_or, getLsbD_oneHot p hp, decide_eq_true rfl, Bool.or_true]

theorem State.resetSignals_steady (s : State) (p : Nat) : s.Steady (s.resetSignals p) :=
  (s.modSig_steady _).trans (State.Steady.foldl State.ownerLost_steady _ _)

/-- R329 step 2: the operations of the partition are gone, and what else the step leaves. -/
theorem State.dropOps_spec (s : State) (p : Nat) :
    (s.dropOps p).cfg = s.cfg ∧ (s.dropOps p).ras = s.ras ∧ (s.dropOps p).sig.raised = s.sig.raised ∧ (s.dropOps p).hw.rings = s.hw.rings
      ∧ (∀ o ∈ (s.dropOps p).hw.ops, o.part ≠ p) ∧ ∀ j, (s.pair j).SameRegs ((s.dropOps p).pair j) := by
  obtain ⟨u, hu⟩ : ∃ u, u = (s.hw.ops.filter (fun o => o.part = p)).foldl State.letGo s := ⟨_, rfl⟩
  have hrest : u.regained s = s := hu ▸ State.regained_foldl State.letGo_regained _ s
  have hops : ∀ o ∈ u.hw.ops, o.part ≠ p := fun o ho hop => by
    rw [hu] at ho
    obtain ⟨hmem, hnot⟩ := State.mem_letGoes ho
    exact hnot (List.mem_filter.2 ⟨hmem, decide_eq_true hop⟩)
  have hregs (j : Nat) : (s.pair j).SameRegs (u.pair j) := hu ▸ State.foldl_regs j (fun s o => s.letGo_regs o j) _ s
  have hdrop : s.dropOps p = ({ u with
      clusters := u.clusters.map (fun (c : Nat × Cluster) => (c.1, c.2.dropPart p)),
      ports := u.ports.map (fun (k : Nat × Port) => (k.1, { k.2 with waiting := k.2.waiting.filter (fun r => r.part != p) })) } : State).modPt p
        (fun t => { t with killGo := false, rringWait := [] }) := by rw [hu]; rfl
  rw [hdrop]
  exact ⟨congrArg (·.cfg) hrest, congrArg (·.ras) hrest, congrArg (·.sig.raised) hrest, congrArg (·.hw.rings) hrest, hops, hregs⟩

/-- R329: no staged command of the partition is left. -/
theorem State.dropStaged_spec (s : State) (p : Nat) :
    (s.dropStaged p).cfg = { s.cfg with busy := (s.dropStaged p).cfg.busy, swapping := (s.dropStaged p).cfg.swapping }
      ∧ (s.dropStaged p).ras = s.ras ∧ (s.dropStaged p).sig = s.sig ∧ (s.dropStaged p).hw.rings = s.hw.rings ∧ (s.dropStaged p).hw.ops = s.hw.ops
      ∧ (∀ x ∈ (s.dropStaged p).hw.staged, x.part ≠ p) ∧ (s.dropStaged p).pairs = s.pairs ∧ (s.dropStaged p).clusters = s.clusters := by
  have hstaged : ∀ x ∈ s.hw.staged.filter (fun x => x.part != p), x.part ≠ p := fun x hx => by simpa using (List.mem_filter.1 hx).2
  unfold State.dropStaged
  extract_lets u v
  split
  · split <;> exact ⟨rfl, rfl, rfl, rfl, rfl, hstaged, rfl, rfl⟩
  · exact ⟨rfl, rfl, rfl, rfl, rfl, hstaged, rfl, rfl⟩

/-- R329 step 4: the contexts of the partition are FREE. -/
theorem State.dropContexts_seq (s : State) (p : Nat) {q : Nat} (hq : q < 16384) : (s.dropContexts p).seq p q = Seq.free := by
  refine Tab.get_absent Seq.free (t := s.hw.seqs.filter (fun e => e.1 / 16384 != p)) (fun e he hk => ?_)
  have hne : e.1 / 16384 ≠ p := by simpa using (List.mem_filter.1 he).2
  rw [hk, seqKey] at hne
  omega

/-- R329: no command waits in the partition's backlog and its pool is not held. -/
theorem State.dropContexts_pool (s : State) (p : Nat) :
    (s.dropContexts p).backlog p = [] ∧ ((s.dropContexts p).pool p).taken = false ∧ ((s.dropContexts p).pool p).recs = [] :=
  ⟨Tab.get_set_self [] s.hw.backlogs p [], congrArg Pool.taken (State.pool_modPool_self _ p _), congrArg Pool.recs (State.pool_modPool_self _ p _)⟩

/-- R329 step 3: where nothing waits on the partition's signals, they become clear and nothing else happens. -/
theorem State.resetSignals_quiet {s : State} {p : Nat} (h : ∀ w ∈ s.sig.waiters, s.cfg.active.holds p w.1 = false) :
    s.resetSignals p = s.modSig (fun g =>
      { g with waiters := g.waiters.filter (fun w => !s.cfg.active.holds p w.1), raised := g.raised.filter (fun r => !s.cfg.active.holds p r.1) }) := by
  have hnone : s.sig.waiters.filter (fun w => s.cfg.active.holds p w.1) = [] := List.filter_eq_nil_iff.2 (fun w hw => by simp [h w hw])
  unfold State.resetSignals
  rw [hnone]
  rfl

theorem State.dropWaiters_subset (s : State) (p : Nat) : (s.dropWaiters p).sig.waiters ⊆ s.sig.waiters := List.filter_subset_self _

/-- R345: the wait of a pair of another partition stands. -/
theorem State.dropWaiters_pair {s : State} {p n sp : Nat} (hw : s.sig.waiters = [(n, .pair sp)]) (hp : (s.pair sp).part ≠ p) :
    (s.dropWaiters p).sig.waiters = [(n, .pair sp)] := by
  simp [State.dropWaiters, hw, hp]

/-- R345: the one pair that waits on a signal of the partition is told that its owner is lost. -/
theorem State.resetSignals_pair {s : State} {p n sp : Nat} (hw : s.sig.waiters = [(n, .pair sp)]) (hn : s.cfg.active.holds p n = true) :
    ∃ f, s.resetSignals p = (s.modSig f).endSwait sp 2 := by
  have hone : [(n, Waiter.pair sp)].filter (fun w => s.cfg.active.holds p w.1) = [(n, .pair sp)] := List.filter_cons_of_pos (p := fun w => _) hn
  unfold State.resetSignals
  rw [hw, hone]
  exact ⟨_, rfl⟩

section
variable {s : State} {p : Nat} (hp : p < 16)
include hp

theorem State.resetQuiet_spec : (s.resetQuiet p).cfg = { s.cfg with resetting := s.cfg.resetting ||| oneHot 16 p } ∧ (s.resetQuiet p).pairs = s.pairs
    ∧ (s.resetQuiet p).sig.waiters ⊆ s.sig.waiters ∧ (s.resetQuiet p).ras.pstop.getLsbD p = true
    ∧ ∀ n, (s.resetQuiet p).ring n = (s.ring n).stoppedFor p := by
  obtain ⟨hcfg, hpairs, hsig, hrings, hstop⟩ := s.resetMarked_spec p hp
  refine ⟨hcfg, hpairs, fun w hw => ?_, hstop, fun n => ?_⟩
  · rw [← hsig]
    exact State.dropWaiters_subset ((s.resetMarked p).stopRings p) p hw
  · have hring : (s.resetMarked p).ring n = s.ring n := by rw [State.ring, State.ring, hrings]
    rw [← hring]
    exact (s.resetMarked p).stopRings_ring p n

variable (h : s.cfg.resetting.getLsbD p = false)
include h

/-- R329, R411: what the reset of a partition does to its rings, commands, contexts and queues. -/
theorem State.startPartReset_spec :
    ∃ t, t = s.startPartReset p ∧ t.cfg.keepWarm = s.cfg.keepWarm ∧ t.cfg.resetting = s.cfg.resetting ||| oneHot 16 p
      ∧ (∀ n, (t.ring n).part.toNat = p → (t.ring n).enable = false) ∧ (∀ o ∈ t.hw.ops, o.part ≠ p) ∧ (∀ x ∈ t.hw.staged, x.part ≠ p)
      ∧ t.backlog p = [] ∧ (∀ q, q < 16384 → t.seq p q = Seq.free) ∧ (t.pool p).taken = false ∧ (t.pool p).recs = []
      ∧ t.ras.pstop.getLsbD p = true ∧ ∀ n, ∀ e ∈ (t.cluster n).queue, e.part ≠ p := by
  obtain ⟨hcfg, -, -, hstop, hrings⟩ := State.resetQuiet_spec (s := s) hp
  obtain ⟨u, hu⟩ : ∃ u, u = (s.resetQuiet p).resetSignals p := ⟨_, rfl⟩
  have hsteady : (s.resetQuiet p).Steady u := hu ▸ State.resetSignals_steady _ p
  obtain ⟨ucfg, uras, -, urings, uops, -⟩ := u.dropOps_spec p
  obtain ⟨vcfg, vras, -, vrings, vops, vstaged, -, vclusters⟩ := (u.dropOps p).dropStaged_spec p
  obtain ⟨x, hx⟩ := State.startPartReset_eq h
  rw [← hu] at hx
  have hall : ((u.dropOps p).dropStaged p).cfg = { s.cfg with
      resetting := s.cfg.resetting ||| oneHot 16 p, busy := ((u.dropOps p).dropStaged p).cfg.busy, swapping := ((u.dropOps p).dropStaged p).cfg.swapping } := by
    rw [vcfg, ucfg, hsteady.cfg, hcfg]
  obtain ⟨hbacklog, htaken, hrecs⟩ := ((u.dropOps p).dropStaged p).dropContexts_pool p
  refine ⟨_, rfl, ?_, ?_, fun n hn => ?_, fun o ho => ?_, fun y hy => ?_, ?_, fun q hq => ?_, ?_, ?_, ?_, fun n e he => ?_⟩
  · rw [hx]
    change ((u.dropOps p).dropStaged p).cfg.keepWarm = _
    rw [hall]
  · rw [hx]
    change ((u.dropOps p).dropStaged p).cfg.resetting = _
    rw [hall]
  · have hring : (s.startPartReset p).ring n = u.ring n := by
      rw [hx]
      change Tab.get Ring.reset ((u.dropOps p).dropStaged p).hw.rings n = _
      rw [vrings, urings]
      rfl
    obtain ⟨hpart, henable⟩ := hsteady.rings n
    rw [hrings] at hpart henable
    obtain ⟨kpart, -, -, kenable⟩ := (s.ring n).stoppedFor_keeps p
    rw [hring, hpart, kpart] at hn
    rw [hring]
    exact Bool.eq_false_iff.2 (fun he => absurd (henable he) (by rw [kenable hn]; decide))
  · rw [hx] at ho
    exact uops o (vops ▸ ho)
  · rw [hx] at hy
    exact vstaged y hy
  · rw [hx]
    exact hbacklog
  · rw [hx]
    exact State.dropContexts_seq _ p hq
  · rw [hx]
    exact htaken
  · rw [hx]
    exact hrecs
  · rw [hx]
    change ((u.dropOps p).dropStaged p).ras.pstop.getLsbD p = true
    rw [vras, uras]
    exact hsteady.pstop p hstop
  · have hcluster : (s.startPartReset p).cluster n = (u.dropOps p).cluster n := by
      rw [hx]
      change Tab.get Cluster.reset ((u.dropOps p).dropStaged p).clusters n = _
      rw [vclusters]
      rfl
    rw [hcluster] at he
    exact State.dropOps_queue u p n e he

/-- R329 step 3: where nothing waits on the partition's signals they are clear, and the rings keep their counts. -/
theorem State.startPartReset_signals (hw : ∀ w ∈ s.sig.waiters, s.cfg.active.holds p w.1 = false) :
    (∀ n, s.cfg.active.holds p n = true → (s.startPartReset p).isRaised n = false)
      ∧ ∀ n, ((s.startPartReset p).ring n).fetched = (s.ring n).fetched ∧ ((s.startPartReset p).ring n).done = (s.ring n).done := by
  obtain ⟨hcfg, -, hwaiters, -, hrings⟩ := State.resetQuiet_spec (s := s) hp
  have hquiet : ∀ w ∈ (s.resetQuiet p).sig.waiters, (s.resetQuiet p).cfg.active.holds p w.1 = false := fun w hmem => by
    rw [hcfg]
    exact hw w (hwaiters hmem)
  obtain ⟨u, hu⟩ : ∃ u, u = (s.resetQuiet p).resetSignals p := ⟨_, rfl⟩
  obtain ⟨-, -, uraised, urings, -, -⟩ := u.dropOps_spec p
  obtain ⟨-, -, vsig, vrings, -, -, -, -⟩ := (u.dropOps p).dropStaged_spec p
  obtain ⟨x, hx⟩ := State.startPartReset_eq h
  rw [← hu] at hx
  have hraised : u.sig.raised = (s.resetQuiet p).sig.raised.filter (fun r => !s.cfg.active.holds p r.1) := by
    rw [hu, State.resetSignals_quiet hquiet, hcfg]
    rfl
  have hring (n : Nat) : (s.startPartReset p).ring n = (s.ring n).stoppedFor p := by
    rw [← hrings n, hx]
    change Tab.get Ring.reset ((u.dropOps p).dropStaged p).hw.rings n = _
    rw [vrings, urings, hu, State.resetSignals_quiet hquiet]
    rfl
  refine ⟨fun n hn => ?_, fun n => ?_⟩
  · rw [hx]
    change Tab.get false ((u.dropOps p).dropStaged p).sig.raised n = false
    rw [vsig, uraised, hraised]
    refine Tab.get_absent false (fun r hr hrn => ?_)
    have hnot : s.cfg.active.holds p r.1 = false := by simpa using (List.mem_filter.1 hr).2
    rw [hrn, hn] at hnot
    exact absurd hnot (by decide)
  · obtain ⟨-, hfetched, hdone, -⟩ := (s.ring n).stoppedFor_keeps p
    rw [hring]
    exact ⟨hfetched, hdone⟩

/-- R345: a pair of another partition returns with outcome 2. -/
theorem State.startPartReset_pair {n sp : Nat} {w : SwaitSt} (hwait : s.sig.waiters = [(n, .pair sp)]) (hn : s.cfg.active.holds p n = true)
    (hpart : (s.pair sp).part ≠ p) (hw : (s.pair sp).swait = some w) (hd : w.d ≠ 0) (hpd : w.pd ≠ 0) :
    ((s.startPartReset p).pair sp).readG w.d.val = 2 ∧ ((s.startPartReset p).pair sp).readP w.pd.val = false
      ∧ ((s.startPartReset p).pair sp).swait = none := by
  obtain ⟨mcfg, mpairs, msig, -, -⟩ := s.resetMarked_spec p hp
  obtain ⟨hcfg, hpairs, -, -, -⟩ := State.resetQuiet_spec (s := s) hp
  have hpair : (s.resetQuiet p).pair sp = s.pair sp := by rw [State.pair, State.pair, hpairs]
  have hwait' : (s.resetQuiet p).sig.waiters = [(n, .pair sp)] :=
    State.dropWaiters_pair (s := (s.resetMarked p).stopRings p) ((congrArg Sig.waiters msig).trans hwait)
      (by change (Tab.get Pair.reset (s.resetMarked p).pairs sp).part ≠ p; rw [mpairs]; exact hpart)
  obtain ⟨f, hf⟩ := State.resetSignals_pair (s := s.resetQuiet p) (p := p) hwait' (by rw [hcfg]; exact hn)
  obtain ⟨hg, hpr, hnone⟩ := State.endSwait_pair (s := (s.resetQuiet p).modSig f) (sp := sp) (w := w)
    ((congrArg Pair.swait hpair).trans hw) hd hpd 2
  rw [← hf] at hg hpr hnone
  obtain ⟨u, hu⟩ : ∃ u, u = (s.resetQuiet p).resetSignals p := ⟨_, rfl⟩
  rw [← hu] at hg hpr hnone
  obtain ⟨-, -, -, -, -, uregs⟩ := u.dropOps_spec p
  obtain ⟨-, -, -, -, -, -, vpairs, -⟩ := (u.dropOps p).dropStaged_spec p
  obtain ⟨x, hx⟩ := State.startPartReset_eq h
  rw [← hu] at hx
  have hlast : (s.startPartReset p).pair sp = (u.dropOps p).pair sp := by
    rw [hx]
    change Tab.get Pair.reset ((u.dropOps p).dropStaged p).pairs sp = _
    rw [vpairs]
    rfl
  obtain ⟨rg, rp, rw'⟩ := uregs sp
  rw [hlast, Pair.readG, rg, Pair.readP, rp]
  exact ⟨hg, hpr, rw' hnone⟩

end

/-! The host's write, and the end of the reset (R181, R328, R329) -/

theorem setList_oneHot : ∀ p : Fin 16, setList (oneHot 16 p.val) = [p.val] := by decide

/-- R328: the fields of a write of `AX_PART_CTL` with `KEEP_WARM` as given and one partition to reset. -/
theorem partCtl_fields (keep : W16) (p : Fin 16) :
    (keep.setWidth 64 <<< 16 ||| 1 <<< p.val : W64).setWidth 16 = oneHot 16 p.val
      ∧ (keep.setWidth 64 <<< 16 ||| 1 <<< p.val : W64).extractLsb' 16 16 = keep := by
  have hone : (1 <<< p.val : W64) = oneHot 64 p.val := rfl
  rw [hone]
  refine ⟨BitVec.eq_of_getLsbD_eq fun i hi => ?_, BitVec.eq_of_getLsbD_eq fun i hi => ?_⟩
  · rw [getLsbD_oneHot p.val hi, BitVec.getLsbD_setWidth, BitVec.getLsbD_or, BitVec.getLsbD_shiftLeft, getLsbD_oneHot p.val (by omega)]
    simp [hi]
  · rw [BitVec.getLsbD_extractLsb', BitVec.getLsbD_or, BitVec.getLsbD_shiftLeft, getLsbD_oneHot p.val (by omega), BitVec.getLsbD_setWidth]
    have hp : 16 + i ≠ p.val := by omega
    have hi64 : i < 64 ∧ 16 + i < 64 := by omega
    simp [hi, hp, hi64]

/-- R328: the host's write keeps the clusters warm that it names and resets the one partition. -/
theorem exec_partitionReset {s : State} (h : s.HostOpen) (p : Fin 16) (keep : W16) :
    exec (.partitionReset (keep.setWidth 64 <<< 16 ||| 1 <<< p.val)) s = .next ((s.modCfg (fun c => { c with keepWarm := keep })).startPartReset p.val) := by
  obtain ⟨hreset, hkeep⟩ := partCtl_fields keep p
  obtain ⟨v, hv⟩ : ∃ v : W64, v = keep.setWidth 64 <<< 16 ||| 1 <<< p.val := ⟨_, rfl⟩
  rw [← hv] at hreset hkeep ⊢
  have hbits : bits v 0 16 ≠ 0 := fun hzero => by
    have hlow : v.setWidth 16 = 0 := BitVec.eq_of_toNat_eq (by simpa [bits, BitVec.extractLsb'] using hzero)
    exact absurd ((setList_oneHot p).symm.trans (congrArg setList (hreset.symm.trans hlow))) (List.cons_ne_nil _ _)
  change execPartitionReset v s = _
  unfold execPartitionReset
  rw [if_neg hbits, State.hostWrite_open h]
  change Host.Outcome.next (s.writePartCtl v) = _
  rw [State.writePartCtl, hreset, hkeep, setList_oneHot]
  rfl

theorem State.swapCheck_none {s : State} (h : s.cfg.swapping = none) : s.swapCheck = s := by
  unfold State.swapCheck
  rw [h]

/-- R181, R329 step 5: what the end of a partition reset leaves of the clusters and of the partitions under reset. -/
theorem State.finishPartReset_spec {s : State} {p : Nat} (h : s.cfg.swapping = none) :
    (∀ n, (s.finishPartReset p).cluster n = if n ∈ s.assignedTo p then { (s.cluster n).cleared with roleEpoch := (s.cluster n).roleEpoch + 1 } else s.cluster n)
      ∧ (s.finishPartReset p).cfg = { s.cfg with resetting := putBit s.cfg.resetting p false }
      ∧ (s.finishPartReset p).ras = { s.ras with pstop := putBit s.ras.pstop p false }
      ∧ (s.finishPartReset p).hw = s.hw ∧ (s.finishPartReset p).mem = s.mem ∧ (s.finishPartReset p).smu = s.smu := by
  have hnodup : (s.assignedTo p).Nodup := List.nodup_range.filter _
  obtain ⟨hself, hrest⟩ := State.foldl_modCluster (fun _ _ c => { c.cleared with roleEpoch := c.roleEpoch + 1 }) (fun _ _ _ => rfl) (s.assignedTo p) hnodup s
  obtain ⟨u, hu⟩ : ∃ u : State, u = (s.assignedTo p).foldl (fun s n => s.modCluster n (fun c => { c.cleared with roleEpoch := c.roleEpoch + 1 })) s := ⟨_, rfl⟩
  rw [← hu] at hself hrest
  have hcfg : u.cfg = s.cfg := congrArg (·.cfg) hrest
  have hswap : u.cfg.swapping = none := by rw [hcfg, h]
  have hfinish : ∃ x, s.finishPartReset p =
      (State.modCfg { u with pairs := x } (fun c => { c with resetting := putBit c.resetting p false })).modRas (fun r => { r with pstop := putBit r.pstop p false }) := by
    unfold State.finishPartReset
    dsimp only
    rw [← hu]
    exact ⟨_, State.swapCheck_none hswap⟩
  obtain ⟨x, hfinish⟩ := hfinish
  rw [hfinish]
  refine ⟨hself, ?_, ?_, congrArg (·.hw) hrest, congrArg (·.mem) hrest, congrArg (·.smu) hrest⟩
  · exact congrArg (fun c : Cfg => { c with resetting := putBit c.resetting p false }) hcfg
  · exact congrArg (fun t : State => { t.ras with pstop := putBit t.ras.pstop p false }) hrest

/-- Settles O31: each step of a partition's reset is followed through the steps after it, and the end clears exactly the clusters assigned to it. -/
theorem partitionReset : Obligations.PartitionReset := by
  unfold Obligations.PartitionReset
  refine ⟨fun s p keep ho hreset => ?_, fun s p hr hf hswap => ⟨fun hno => ?_, fun hyes hdrain hwd => ?_⟩⟩
  · dsimp only
    rw [exec_partitionReset ho]
    obtain ⟨u, hu⟩ : ∃ u, u = s.modCfg (fun c => { c with keepWarm := keep }) := ⟨_, rfl⟩
    have hureset : u.cfg.resetting.getLsbD p.val = false := hu ▸ hreset
    obtain ⟨t, ht, hkeep, hresetting, hrings, hops, hstaged, hbacklog, hseqs, htaken, hrecs, hstop, hqueues⟩ := State.startPartReset_spec p.isLt hureset
    rw [← hu]
    refine ⟨t, by rw [ht], by rw [hkeep, hu]; rfl, by rw [hresetting, hu]; rfl, fun n hn => hrings n ?_, hops, hstaged, hbacklog, hseqs, htaken, hrecs, hstop,
      hqueues, fun hw => ?_, fun n sp w hwait hn hpart hw hd hpd => ?_⟩
    · rw [hn, BitVec.toNat_ofNat]
      exact Nat.mod_eq_of_lt p.isLt
    · subst hu ht
      exact State.startPartReset_signals p.isLt hureset hw
    · subst hu ht
      exact State.startPartReset_pair p.isLt hureset hwait hn hpart hw hd hpd
  · exact congrArg Host.Outcome.next (if_neg (fun hall => by
      have hb : bit s.cfg.resetting p.val = false := hno
      simp [hb] at hall))
  · have hall : (s.clustersOf s.cfg.active p.val).all (fun n => !s.withdrawing n) = true := List.all_eq_true.2 (fun n hn => by simp [hwd n hn])
    have hexec : exec (.partitionResetDone p) s = .next (s.finishPartReset p.val) := by
      change execPartitionResetDone p s = _
      simp [execPartitionResetDone, bit, hyes, hdrain, hall, State.creditable, State.on, hr, hf]
    obtain ⟨hclusters, hcfg, hras, hhw, hmem, hsmu⟩ := State.finishPartReset_spec (p := p.val) hswap
    refine ⟨_, hexec, fun n hn => ?_, fun n hn => ?_, by rw [hcfg], by rw [hras], fun q hq => ?_, hhw, hmem, hsmu⟩
    · rw [hclusters, if_pos hn]
      exact ⟨rfl, rfl, rfl, rfl, rfl, rfl, rfl, rfl⟩
    · rw [hclusters, if_neg hn]
    · rw [hcfg, hras]
      exact ⟨getLsbD_putBit_false _ _ hq, getLsbD_putBit_false _ _ hq⟩

end Sys2Proof.Machine
end

section
/-! SUPPORT. SWAP (R315, R320, R321): its judgement, the switch point and the clearing of the clusters that move. -/

namespace Sys2Proof.Machine

/-! The judgement (R315, R320) -/

/-- A SWAP that is admissible is judged. -/
theorem exec_swap {s : State} {c : Cmd} {x : Staged} (h : s.Admits 0x0E c x) : exec (.swap c) s = .next (s.judgeSwap x.part c) := by
  obtain ⟨hserving, hop, hstaged, hadm, hseq, hres⟩ := h
  have hpresent : s.present c = s := by
    unfold State.present
    rw [hstaged]
    rfl
  change Host.Outcome.next (s.ringRow 0x0E c State.judgeSwap) = _
  unfold State.ringRow
  rw [if_neg (by simp [hserving, hop])]
  dsimp only
  rw [hpresent, hstaged]
  dsimp only
  rw [hadm]
  dsimp only
  rw [hseq]
  dsimp only
  rw [hres]

theorem State.stagedFor_unstaged {s t : State} {c : Cmd} (h : t.hw.staged.map (·.cmd) = (s.unstage c).hw.staged.map (·.cmd)) : t.stagedFor c = none := by
  refine List.find?_eq_none.2 (fun x hx hc => ?_)
  have hmem : x.cmd ∈ (s.unstage c).hw.staged.map (·.cmd) := h ▸ List.mem_map_of_mem hx
  obtain ⟨y, hy, hyx⟩ := List.mem_map.1 hmem
  have hne : y.cmd ≠ c := by simpa using (List.mem_filter.1 hy).2
  exact hne (hyx.trans (of_decide_eq_true hc))

/-- R320: a SWAP that ends in the step of its judgement leaves staging and changes no set. -/
theorem State.swapEnds_spec (s : State) (p : Nat) (c : Cmd) (status detail : Nat) :
    s.Took (s.swapEnds p c status detail) c ∧ (s.swapEnds p c status detail).cfg = s.cfg := by
  obtain ⟨u, hu⟩ : ∃ u : State, u = s.takeOpid.2 := ⟨_, rfl⟩
  obtain ⟨x, hx⟩ : ∃ x, s.swapEnds p c status detail = u.finish p c x := ⟨_, by rw [hu]; rfl⟩
  have hreports : (u.unstage c).Reports (u.finish p c x) := State.completeUnder_reports _ _ p c x
  rw [hx]
  refine ⟨⟨State.stagedFor_unstaged hreports.staged, hreports.nextOpid.trans ?_⟩, (u.finish_steady p c x).cfg.trans ?_⟩ <;> rw [hu] <;> rfl

theorem State.judgeSwap_refused {s : State} {p : Nat} {c : Cmd} (hbusy : s.cfg.busy = false)
    (h : BitVec.ofNat 32 (expectEpochOf c) ≠ s.cfg.epoch.setWidth 32 ∨ s.cfg.shadow.unfitted s.part = true ∨ s.shadowValid = false) :
    ∃ status detail, s.judgeSwap p c = s.swapEnds p c status detail := by
  unfold State.judgeSwap
  rw [if_neg (by simp [hbusy])]
  split
  · exact ⟨_, _, rfl⟩
  · next hepoch =>
    split
    · exact ⟨_, _, rfl⟩
    · next hfit =>
      obtain hne | hunfit | hinvalid := h
      · exact absurd (bne_iff_ne.2 hne) hepoch
      · exact absurd hunfit hfit
      · exact ⟨_, _, if_pos (by rw [hinvalid]; rfl)⟩

/-- R315: a locked partition whose fields a SWAP would change is marked, and the SWAP changes nothing else of the configuration. -/
theorem State.swapLocked_unreported (s : State) (w p : Nat) :
    (s.swapLocked w p).unreported s = s.modCfg (fun c => { c with lockViolP := c.lockViolP ||| oneHot 16 p }) := by
  obtain ⟨u, hu⟩ : ∃ u, u = (s.modCfg (fun c => { c with lockViolP := c.lockViolP ||| oneHot 16 p })).note 0x01 (some w) false 0 0xFF 0 (0x100000 + p * 0x40000) 0 :=
    ⟨_, rfl⟩
  have hnote : u.unreported s = s.modCfg (fun c => { c with lockViolP := c.lockViolP ||| oneHot 16 p }) := by
    rw [hu]
    exact (State.note_told _ _ _ _ _ _ _ _ _).rest
  unfold State.swapLocked
  dsimp only
  rw [← hu]
  split
  · exact (congrArg (State.unreported · s) (State.event_told _ _ _ _ _ _).rest).trans hnote
  · exact hnote

theorem State.swapLocks_unreported (ps : List Nat) (w : Nat) (s : State) :
    (ps.foldl (fun s q => s.swapLocked w q) s).unreported s
      = s.modCfg (fun c => { c with lockViolP := ps.foldl (fun m q => m ||| oneHot 16 q) c.lockViolP }) := by
  induction ps generalizing s with
  | nil => rfl
  | cons p ps ih =>
    exact (congrArg (State.unreported · s) (ih (s.swapLocked w p))).trans
      (congrArg (State.modCfg · (fun c => { c with lockViolP := ps.foldl (fun m q => m ||| oneHot 16 q) c.lockViolP })) (s.swapLocked_unreported w p))

section
variable {s : State} {p : Nat} {c : Cmd} (hbusy : s.cfg.busy = false) (hepoch : BitVec.ofNat 32 (expectEpochOf c) = s.cfg.epoch.setWidth 32)
  (hfit : s.cfg.shadow.unfitted s.part = false) (hvalid : s.shadowValid = true)
include hbusy hepoch hfit hvalid

/-- R320: a SWAP that passes sets `BUSY`. -/
theorem State.judgeSwap_passed (hlocks : s.lockHits = []) :
    s.judgeSwap p c = ((s.takeOpid.2.copyTables).unstage c).modCfg (fun f => { f with busy := true, swapping := some ⟨c, s.hw.nextOpid, s.movingOf, false⟩ }) := by
  unfold State.judgeSwap
  rw [if_neg (by simp [hbusy]), if_neg (by simp [hepoch]), if_neg (by simp [hfit]), if_neg (by simp [hvalid]), hlocks]
  rfl

theorem State.judgeSwap_locked (hlocks : s.lockHits ≠ []) :
    s.judgeSwap p c = (s.lockHits.foldl (fun s q => s.swapLocked p q) s).swapEnds p c 0x40 0 := by
  unfold State.judgeSwap
  rw [if_neg (by simp [hbusy]), if_neg (by simp [hepoch]), if_neg (by simp [hfit]), if_neg (by simp [hvalid])]
  split
  · exact absurd ‹_› hlocks
  · rfl

/-- R315: a SWAP that meets a lock ends, and of the configuration only the marks of the partitions whose locks it met change. -/
theorem State.judgeSwap_locked_spec (hlocks : s.lockHits ≠ []) :
    s.Took (s.judgeSwap p c) c ∧ (s.judgeSwap p c).cfg = { s.cfg with lockViolP := s.lockHits.foldl (fun m q => m ||| oneHot 16 q) s.cfg.lockViolP } := by
  rw [State.judgeSwap_locked hbusy hepoch hfit hvalid hlocks]
  have hrest := State.swapLocks_unreported s.lockHits p s
  obtain ⟨u, hu⟩ : ∃ u, u = s.lockHits.foldl (fun s q => s.swapLocked p q) s := ⟨_, rfl⟩
  rw [← hu] at hrest ⊢
  have hnext : u.hw.nextOpid = s.hw.nextOpid := congrArg (·.hw.nextOpid) hrest
  obtain ⟨⟨hgone, htag⟩, hcfg⟩ := u.swapEnds_spec p c 0x40 0
  exact ⟨⟨hgone, by rw [htag, hnext]⟩, hcfg.trans (congrArg (·.cfg) hrest)⟩

end

/-! The switch point (R321) -/

theorem State.Steady.of_peer {s t : State} {x : Peer} (h : t = { s with peer := x }) : s.Steady t := by
  rw [h]
  exact .of_rest rfl rfl rfl rfl rfl

theorem State.withdraw_steady (s : State) (n : Nat) : s.Steady (s.withdraw n) := by
  obtain ⟨x, hx⟩ := s.withdraw_eq n
  exact .of_peer hx

theorem State.walkRead_steady (s : State) (space page k : Nat) : s.Steady (s.walkRead space page k) := by
  unfold State.walkRead
  split
  · exact .of_rest rfl rfl rfl rfl rfl
  · exact State.Steady.refl s

theorem State.modTr_steady (s : State) (f : Tr → Tr) : s.Steady (s.modTr f) := .of_rest rfl rfl rfl rfl rfl

theorem State.startWalks_steady (fuel : Nat) (s : State) : s.Steady (s.startWalks fuel) := by
  induction fuel generalizing s with
  | zero => exact State.Steady.refl s
  | succ fuel ih =>
    unfold State.startWalks
    split
    · exact ((s.modTr_steady _).trans (State.walkRead_steady _ _ _ 0)).trans (ih _)
    · exact State.Steady.refl s

theorem State.queueMiss_steady (s : State) (p : Nat) (m : Miss) : s.Steady (s.queueMiss p m) := by
  unfold State.queueMiss
  extract_lets l same
  split
  · exact s.modTr_steady _
  · split
    · exact s.modTr_steady _
    · exact State.Steady.refl s

theorem State.modStaged_steady (s : State) (c : Cmd) (f : Staged → Staged) : s.Steady (s.modStaged c f) := .of_rest rfl rfl rfl rfl rfl

theorem State.awaitWalk_steady (s : State) (p : Nat) (c : Cmd) (va : Nat) : s.Steady (s.awaitWalk p c va) := by
  unfold State.awaitWalk
  extract_lets u
  have hu : s.Steady u := s.modStaged_steady c _
  split
  · exact hu
  · exact (hu.trans (u.queueMiss_steady p _)).trans (State.startWalks_steady 16 _)

theorem State.queueMisses_steady (s : State) (p : Nat) : s.Steady (s.queueMisses p) :=
  (State.Steady.foldl (fun s (x : Staged) => s.awaitWalk_steady p x.cmd x.va) _ s).trans (State.startWalks_steady 16 _)

/-- R321: a root comes into use; the rest is steady. -/
theorem State.takeRoot_steady (s : State) (p : Nat) :
    (s.modCfg (fun c => { c with rootInUse := Tab.set 0 c.rootInUse p (c.active.trRoot p) })).Steady (s.takeRoot p) :=
  (((State.Steady.refl _).trans (State.modHw_steady rfl)).trans (State.modTr_steady _ _)).trans (State.queueMisses_steady _ p)

theorem State.takeRoots_steady (ps : List Nat) (s : State) : ∃ b, (s.modCfg (fun c => { c with rootInUse := b })).Steady (ps.foldl State.takeRoot s) := by
  induction ps generalizing s with
  | nil => exact ⟨s.cfg.rootInUse, State.Steady.refl s⟩
  | cons p ps ih =>
    obtain ⟨b, hb⟩ := ih (s.takeRoot p)
    exact ⟨b, ((s.takeRoot_steady p).modCfg (fun c => { c with rootInUse := b })).trans hb⟩

/-- A cluster once it moves (R181, R321). -/
def Cluster.moved (c : Cluster) : Cluster := { c with roleEpoch := c.roleEpoch + 1, clearing := true }

theorem State.moveCluster_cluster (s : State) (n k : Nat) : (s.moveCluster n).cluster k = if k = n then (s.cluster n).moved else s.cluster k := by
  obtain ⟨x, hx⟩ := (s.modCluster n Cluster.moved).withdraw_eq n
  have hmove : s.moveCluster n = { s.modCluster n Cluster.moved with peer := x } := hx
  rw [hmove]
  split
  · next h => exact h ▸ State.cluster_modCluster_self s n _
  · next h => exact State.cluster_modCluster_ne s h _

theorem State.moveCluster_cfg (s : State) (n : Nat) : (s.moveCluster n).cfg = s.cfg := ((s.modCluster n Cluster.moved).withdraw_steady n).cfg

/-- R321: of a list without repetition, each cluster moves once, and no other does. -/
theorem State.moveClusters_spec {ns : List Nat} (hn : ns.Nodup) (s : State) :
    (ns.foldl State.moveCluster s).cfg = s.cfg
      ∧ ∀ k, (ns.foldl State.moveCluster s).cluster k = if k ∈ ns then (s.cluster k).moved else s.cluster k := by
  induction ns generalizing s with
  | nil => exact ⟨rfl, fun k => (if_neg List.not_mem_nil).symm⟩
  | cons n ns ih =>
    obtain ⟨hmem, hrest⟩ := List.nodup_cons.1 hn
    obtain ⟨hcfg, hcluster⟩ := ih hrest (s.moveCluster n)
    refine ⟨hcfg.trans (s.moveCluster_cfg n), fun k => (hcluster k).trans ?_⟩
    rw [State.moveCluster_cluster]
    by_cases hk : k = n
    · subst hk
      simp [hmem]
    · simp [hk]

/-- R179: the cache size of a cluster's next clear is no part of what stays steady. -/
theorem State.resize_steady (s : State) (n : Nat) : s.Steady (s.resize n) := by
  unfold State.resize
  extract_lets k c u
  have hu : s.Steady u := State.setCluster_steady rfl rfl rfl
  split
  · exact hu
  · exact hu.trans (u.withdraw_steady n)

theorem Cluster.cacheIn_eq (c : Cluster) (part block : Nat) : ∃ l, c.cacheIn part block = { c with cache := l } := by
  unfold Cluster.cacheIn
  dsimp only
  split
  · exact ⟨c.cache, rfl⟩
  · exact ⟨_, rfl⟩

theorem Cluster.cacheLook_eq (c : Cluster) (part block : Nat) : ∃ l h m, (c.cacheLook part block).2 = { c with cache := l, hits := h, misses := m } := by
  unfold Cluster.cacheLook
  split
  · exact ⟨c.cache, c.hits, c.misses, rfl⟩
  · split
    · obtain ⟨l, hl⟩ := c.cacheIn_eq part block
      exact ⟨l, _, c.misses, by rw [hl]⟩
    · exact ⟨c.cache, c.hits, _, rfl⟩

theorem State.cacheLook_steady (s : State) (n part block : Nat) : s.Steady (s.setCluster n ((s.cluster n).cacheLook part block).2) := by
  obtain ⟨l, h, m, hlook⟩ := (s.cluster n).cacheLook_eq part block
  rw [hlook]
  exact State.setCluster_steady rfl rfl rfl

theorem State.pushReq_steady (s : State) (r : Req) : s.Steady (s.pushReq r) := .of_rest rfl rfl rfl rfl rfl

theorem State.askRun_steady (s : State) (o : Op) (n seg : Nat) (page : Option (Nat × Nat)) (va len : Nat) : s.Steady (s.askRun o n seg page va len) := by
  refine State.Steady.foldl (fun s q => ?_) _ s
  split
  · exact State.Steady.refl s
  · extract_lets r x
    have hlook : s.Steady (s.setCluster n x.2) := s.cacheLook_steady n _ _
    split
    · split
      · exact hlook
      · exact hlook.trans (State.pushReq_steady _ r)
    · exact s.pushReq_steady r

theorem State.askKeys_steady (s : State) (o : Op) (n seg : Nat) (gs : List Nat) (lo hi : Nat) : s.Steady (s.askKeys o n seg gs lo hi) :=
  State.Steady.foldl (fun s (r : Option (Nat × Nat) × Nat × Nat) => s.askRun_steady o n seg r.1 r.2.1 r.2.2) _ s

theorem State.askSegs_steady (s : State) (o : Op) (ps : List (Nat × Nat)) : s.Steady (s.askSegs o ps) :=
  State.Steady.foldl (fun s (p : Nat × Nat) => s.askKeys_steady o p.2 p.1 o.pins (1024 * p.1) (Nat.min o.keys (1024 * p.1 + 1024))) _ s

theorem State.setOp_steady (s : State) (o : Op) : s.Steady (s.setOp o) := .of_rest rfl rfl rfl rfl rfl

theorem State.placeWaiting_steady (s : State) (p : Nat) : s.Steady (s.placeWaiting p) := by
  refine State.Steady.foldl (fun s i => ?_) _ s
  split
  · exact State.Steady.refl s
  · exact (s.setOp_steady _).trans (State.askSegs_steady _ _ _)

theorem State.replaceAll_steady (s : State) (m : BitVec 32) (p : Nat) : s.Steady (s.replaceAll m p) :=
  (State.modHw_steady (s := s) rfl).trans (State.placeWaiting_steady _ p)

theorem State.renewPool_steady (s : State) (old : CfgSet) (p : Nat) : s.Steady (s.renewPool old p) := by
  unfold State.renewPool
  split
  · exact State.Steady.refl s
  · exact s.modPool_steady p _

/-- R321 step 6: the SWAP that completes leaves `BUSY` clear; the rest is steady. -/
theorem State.completeSwap_steady (s : State) (x : SwapInProgress) :
    (s.modCfg (fun c => { c with busy := false, swapping := none })).Steady (s.completeSwap x) := by
  unfold State.completeSwap
  extract_lets drop u v
  have hu : s.Steady u := State.Steady.foldl (fun s k =>
    s.modPair_steady k (f := fun y => { y with tag0 := drop y.tag0, tag1 := drop y.tag1 }) (fun _ => rfl)) _ s
  exact (hu.modCfg _).trans (State.completeUnder_steady v _ _ _ _)

/-- The work at the switch point after the moving clusters have their new epochs (R321 step 4). -/
def State.afterMoves (s : State) (x : SwapInProgress) (old : CfgSet) : State :=
  let s := (List.range s.nClusters).foldl State.resize s
  let s := (s.hw.ops.filter (fun o => opcodeOf o.cmd = 0x0F)).foldl (fun s o => s.leaveLoans o x.moving) s
  let s := s.modHw (fun h => { h with ops := h.ops.map (fun (o : Op) => o.cut x.moving) })
  let s := (List.range 16).foldl (fun s p => s.replaceAll x.moving p) s
  let s := (List.range 16).foldl (fun s p => s.renewPool old p) s
  let s := (List.range 16).foldl State.judgeFamine s
  s.trace 0x0A 0 0xFF x.opid s.cfg.epoch.toNat 0

theorem State.afterMoves_steady (s : State) (x : SwapInProgress) (old : CfgSet) : s.Steady (s.afterMoves x old) := by
  unfold State.afterMoves
  extract_lets s1 s2 s3 s4 s5 s6
  have h1 : s.Steady s1 := State.Steady.foldl State.resize_steady _ s
  have h2 : s1.Steady s2 := State.Steady.foldl (fun s (o : Op) => s.leaveLoans_steady o x.moving) _ s1
  have h3 : s2.Steady s3 := State.modHw_steady rfl
  have h4 : s3.Steady s4 := State.Steady.foldl (fun s p => s.replaceAll_steady x.moving p) _ s3
  have h5 : s4.Steady s5 := State.Steady.foldl (fun s p => s.renewPool_steady old p) _ s4
  have h6 : s5.Steady s6 := State.Steady.foldl State.judgeFamine_steady _ s5
  exact (((((h1.trans h2).trans h3).trans h4).trans h5).trans h6).trans (s6.trace_told _ _ _ _ _ _).steady

theorem mem_setList_iff {w : Nat} {m : BitVec w} {k : Nat} : k ∈ setList m ↔ m.getLsbD k = true := by
  refine ⟨fun h => (List.mem_filter.1 h).2, fun h => (mem_setList (BitVec.lt_of_getLsbD h)).2 h⟩

/-- R321: the configuration right after the sets are exchanged. -/
def Cfg.exchanged (c : Cfg) (x : SwapInProgress) : Cfg :=
  { c with active := c.shadow, shadow := c.active, epoch := c.epoch + 1, swapping := some { x with switched := true } }

/-- R321 step 4: the switch up to the question whether the SWAP is complete. -/
theorem State.switch_eq (s : State) (x : SwapInProgress) :
    ∃ (t : State) (b : Tab W64), s.switch x = t.swapCheck ∧ t.cfg = { s.cfg.exchanged x with rootInUse := b }
      ∧ ∀ n, (t.cluster n).roleEpoch = (s.cluster n).roleEpoch + (if x.moving.getLsbD n then 1 else 0)
        ∧ (x.moving.getLsbD n = true → (t.cluster n).clearing = true) := by
  obtain ⟨u, hu⟩ : ∃ u, u = s.rootChanges.foldl State.takeRoot (s.modCfg (·.exchanged x)) := ⟨_, rfl⟩
  obtain ⟨b, hroots⟩ := State.takeRoots_steady s.rootChanges (s.modCfg (·.exchanged x))
  rw [← hu] at hroots
  obtain ⟨hcfg, hmoves⟩ := State.moveClusters_spec (nodup_setList x.moving) u
  have hafter := ((setList x.moving).foldl State.moveCluster u).afterMoves_steady x s.cfg.active
  refine ⟨_, b, by rw [hu]; rfl, hafter.cfg.trans (hcfg.trans hroots.cfg), fun n => ?_⟩
  obtain ⟨hepoch, hclearing, -⟩ := hafter.clusters n
  obtain ⟨uepoch, -, -⟩ := hroots.clusters n
  rw [hepoch, hclearing, hmoves]
  by_cases hn : x.moving.getLsbD n = true
  · rw [if_pos (mem_setList_iff.2 hn), if_pos hn]
    exact ⟨congrArg (· + 1) uepoch, fun _ => rfl⟩
  · rw [if_neg (fun h => hn (mem_setList_iff.1 h)), if_neg hn]
    exact ⟨uepoch.trans (BitVec.add_zero _).symm, fun h => absurd h hn⟩

/-- R321: while a moving cluster is not clear the SWAP goes on. -/
theorem State.swapCheck_clearing {s : State} {x : SwapInProgress} (h : s.cfg.swapping = some x) {n : Nat} (hn : x.moving.getLsbD n = true)
    (hc : (s.cluster n).clearing = true) : s.swapCheck = s := by
  unfold State.swapCheck
  rw [h]
  refine if_neg (fun hall => ?_)
  have hclear := List.all_eq_true.1 (Bool.and_eq_true_iff.1 hall).2 n (mem_setList_iff.2 hn)
  simp [hc] at hclear

/-- R321: a SWAP that moves no cluster is complete at its switch point. -/
theorem State.swapCheck_still {s : State} {x : SwapInProgress} (h : s.cfg.swapping = some x) (hswitched : x.switched = true) (hx : x.moving = 0) :
    s.swapCheck = s.completeSwap x := by
  unfold State.swapCheck
  rw [h]
  exact if_pos (by rw [hswitched, hx]; rfl)

theorem exists_getLsbD_of_ne_zero {w : Nat} {m : BitVec w} (h : m ≠ 0) : ∃ n, m.getLsbD n = true := by
  by_contra hno
  exact h (BitVec.eq_of_getLsbD_eq (fun i _ => by simpa using fun hi => hno ⟨i, hi⟩))

/-- R321: the switch point is reached once the moving clusters are at their boundaries. -/
theorem exec_swapSwitchPoint {s : State} {x : SwapInProgress} (hf : s.fast = true) (hx : s.cfg.swapping = some x) (hs : x.switched = false)
    (hb : s.atBoundary x.moving = true) : exec .swapSwitchPoint s = .next (s.switch x) := by
  change execSwapSwitchPoint s = _
  unfold execSwapSwitchPoint
  rw [hx, hf]
  exact congrArg Host.Outcome.next (if_pos (by rw [hs, hb]; rfl))

/-! Clearing (R181) -/

/-- R181: a cluster that is clearing is clear once its queue, its streams and its windows are done with. -/
theorem exec_clusterClearDone {s : State} {n : Fin 32} (hf : s.fast = true) (hc : (s.cluster n.val).clearing = true) (hq : (s.cluster n.val).queue = [])
    (ho : s.streamOut n.val = false) (hw : s.withdrawing n.val = false) :
    exec (.clusterClearDone n) s = .next (s.setCluster n.val (s.cluster n.val).cleared).swapCheck := by
  change execClusterClearDone n s = _
  simp [execClusterClearDone, hf, hc, hq, ho, hw]

/-- Settles O44: a SWAP is judged in one step; at its switch point all but the exchange and the moves is steady, and a cleared cluster changes alone. -/
theorem configurationSwap : Obligations.ConfigurationSwap := by
  unfold Obligations.ConfigurationSwap
  refine fun s => ⟨fun c x hadm hbusy => ?_, fun x hf hx hs hb => ?_, fun n hf hswap hc hq ho hw => ?_⟩
  · rw [exec_swap hadm]
    refine ⟨fun h => ?_, fun hepoch hfit hvalid hlocks => ?_, fun hepoch hfit hvalid hlocks => ?_⟩
    · obtain ⟨status, detail, hj⟩ := State.judgeSwap_refused (p := x.part) hbusy h
      obtain ⟨htook, hcfg⟩ := s.swapEnds_spec x.part c status detail
      exact ⟨_, rfl, hj ▸ htook, hj ▸ hcfg⟩
    · rw [State.judgeSwap_passed hbusy hepoch hfit hvalid hlocks]
      exact ⟨_, rfl, ⟨State.stagedFor_unstaged (s := s.takeOpid.2.copyTables) rfl, rfl⟩, rfl, rfl, rfl, rfl, rfl, rfl⟩
    · obtain ⟨htook, hcfg⟩ := State.judgeSwap_locked_spec (p := x.part) hbusy hepoch hfit hvalid hlocks
      refine ⟨_, rfl, htook, by rw [hcfg], fun p hp => ?_⟩
      have hlt : p < 16 := List.mem_range.1 (List.mem_filter.1 hp).1
      rw [hcfg]
      exact (getLsbD_foldl_oneHot _ _ hlt).trans (by simp [hp])
  · rw [exec_swapSwitchPoint hf hx hs hb]
    obtain ⟨t, b, ht, hcfg, hclusters⟩ := s.switch_eq x
    have hswapping : t.cfg.swapping = some { x with switched := true } := congrArg Cfg.swapping hcfg
    rw [ht]
    by_cases hm : x.moving = 0
    · rw [State.swapCheck_still hswapping rfl hm]
      have hdone := t.completeSwap_steady { x with switched := true }
      have hend : (t.completeSwap { x with switched := true }).cfg
          = { s.cfg.exchanged x with rootInUse := b, busy := false, swapping := none } :=
        hdone.cfg.trans (congrArg (fun c : Cfg => { c with busy := false, swapping := none }) hcfg)
      refine ⟨_, rfl, congrArg Cfg.active hend, congrArg Cfg.shadow hend, congrArg Cfg.epoch hend, fun h => absurd hm h,
        fun _ => ⟨congrArg Cfg.busy hend, congrArg Cfg.swapping hend⟩, fun n => ?_, fun n hn => ?_⟩
      · exact (hdone.clusters n).1.trans (hclusters n).1
      · exact (hdone.clusters n).2.1.trans ((hclusters n).2 hn)
    · obtain ⟨n, hn⟩ := exists_getLsbD_of_ne_zero hm
      rw [State.swapCheck_clearing hswapping hn ((hclusters n).2 hn)]
      exact ⟨_, rfl, congrArg Cfg.active hcfg, congrArg Cfg.shadow hcfg, congrArg Cfg.epoch hcfg, fun _ => ⟨(congrArg Cfg.busy hcfg).trans rfl, hswapping⟩,
        fun h => absurd h hm, fun n => (hclusters n).1, fun n => (hclusters n).2⟩
  · rw [exec_clusterClearDone hf hc hq ho hw, State.swapCheck_none (s := s.setCluster n.val _) hswap]
    exact ⟨_, _, rfl, s.setCluster_only n.val _, rfl, rfl, rfl, rfl, rfl, rfl, rfl, rfl, rfl, rfl, rfl⟩

end Sys2Proof.Machine
end

section
/-! SUPPORT. The scalar classes of Lefiza (R204 to R209): the values of the model's operators in the statements' words, and each shared form of
an instruction as what becomes of its pair. -/

namespace Sys2Proof.Machine

/-! Values (R206, R207) -/

theorem sarB_eq (a b : W64) : sarB a b = BitVec.ofInt 64 (a.toInt / 2 ^ (b.toNat % 64)) := by
  rw [← BitVec.ofInt_toInt (x := sarB a b), sarB, BitVec.toInt_sshiftRight, Int.shiftRight_eq_div_pow]
  rfl

theorem minS_eq (a b : W64) : minS a b = if b.slt a then b else a := by
  by_cases h : a.toInt ≤ b.toInt
  · simp [minS, BitVec.slt, h]
  · simp [minS, BitVec.slt, h, Int.not_le.1 h]

theorem maxS_eq (a b : W64) : maxS a b = if a.slt b then b else a := by
  obtain h | h | h := Int.lt_trichotomy a.toInt b.toInt
  · simp [maxS, BitVec.slt, h, Int.le_of_lt h]
  · obtain rfl := BitVec.eq_of_toInt_eq h
    simp [maxS]
  · simp [maxS, BitVec.slt, Int.not_le.2 h, Int.not_lt.2 (Int.le_of_lt h)]

theorem minU_eq (a b : W64) : minU a b = if b < a then b else a := by
  by_cases h : a.toNat ≤ b.toNat
  · simp [minU, BitVec.lt_def, h]
  · simp [minU, BitVec.lt_def, h, Nat.not_le.1 h]

theorem maxU_eq (a b : W64) : maxU a b = if a < b then b else a := by
  obtain h | h | h := Nat.lt_trichotomy a.toNat b.toNat
  · simp [maxU, BitVec.lt_def, h, Nat.le_of_lt h]
  · obtain rfl := BitVec.eq_of_toNat_eq h
    simp [maxU]
  · simp [maxU, BitVec.lt_def, Nat.not_le.2 h, Nat.not_lt.2 (Nat.le_of_lt h)]

/-- The leading zeros of a word are the bits, from the highest down, before its highest set bit. -/
theorem clzOf_eq (a : W64) : clzOf a = BitVec.ofNat 64 ((List.range 64).takeWhile (fun k => !a.getLsbD (63 - k))).length := by
  unfold clzOf
  congr 1
  by_cases ha : a = 0
  · subst ha
    rw [if_pos rfl, List.takeWhile_eq_self_iff.2 (fun k _ => by simp), List.length_range]
  · have hne : a.toNat ≠ 0 := fun h => ha (BitVec.eq_of_toNat_eq h)
    have hlog : a.toNat.log2 < 64 := (Nat.log2_lt hne).2 a.isLt
    have hidx : (List.range 64).findIdx (fun k => !!a.getLsbD (63 - k)) = 63 - a.toNat.log2 := by
      rw [List.findIdx_eq (by simp; omega)]
      refine ⟨?_, fun j hj => ?_⟩
      · have hsub : 63 - (63 - a.toNat.log2) = a.toNat.log2 := by omega
        simp [hsub, BitVec.getLsbD, Nat.testBit_log2 hne]
      · have hpow : a.toNat < 2 ^ (63 - j) := (Nat.log2_lt hne).1 (by omega)
        simp [BitVec.getLsbD, Nat.testBit_lt_two_pow hpow]
    rw [if_neg ha, List.takeWhile_eq_take_findIdx_not, hidx, List.length_take, List.length_range]
    omega

theorem popOf_eq (a : W64) : popOf a = BitVec.ofNat 64 ((List.range 64).countP (fun k => a.getLsbD k)) := by
  rw [popOf, popcount, setList, List.countP_eq_length_filter]

theorem movHi_eq (g : W64) (imm : W32) : movHi g imm = imm ++ g.setWidth 32 := by
  rw [movHi, BitVec.setWidth_eq_extractLsb' (by decide)]

/-! What becomes of the pair that issues an instruction -/

section
variable {s : State} {u : Issue} (h : s.Runs u) {c : Instr} {f : State → Nat → Pair → Lz}
include h

theorem State.givesG {d : Fin 64} {v : W64} (e : exec c s = .next (s.issue u f))
    (hf : f s u.sp.val (s.issuer u) = .done (s.setPair u.sp.val ((s.issuer u).writeG d.val v))) :
    s.PairBecomes c u (fun x y => x.WroteG y (x.pc + 1) d v) :=
  .of e (State.issue_pair h hf) (Pair.wroteG _ _ _ _)

theorem State.givesP {d : Fin 16} {v : Bool} (e : exec c s = .next (s.issue u f))
    (hf : f s u.sp.val (s.issuer u) = .done (s.setPair u.sp.val ((s.issuer u).writeP d.val v))) :
    s.PairBecomes c u (fun x y => x.WroteP y (x.pc + 1) d v) :=
  .of e (State.issue_pair h hf) (Pair.wroteP _ _ _ _)

theorem State.givesD {d : Fin 32} {v : DReg} (e : exec c s = .next (s.issue u f))
    (hf : f s u.sp.val (s.issuer u) = .done (s.setPair u.sp.val ((s.issuer u).writeD d.val v))) :
    s.PairBecomes c u (fun x y => x.WroteD y (x.pc + 1) d v) :=
  .of e (State.issue_pair h hf) (Pair.wroteD _ _ _ _)

theorem State.givesMem {a n v : Nat} (e : exec c s = .next (s.issue u f))
    (hf : f s u.sp.val (s.issuer u) = .done (s.setPair u.sp.val { s.issuer u with dmem := writeLe (s.issuer u).dmem a n v })) :
    s.PairBecomes c u (fun x y => x.Stored y (x.pc + 1) a n v) :=
  .of e (State.issue_pair h hf) (Pair.stored _ _ _ _ _)

theorem State.goesOn (e : exec c s = .next (s.issue u f)) (hf : f s u.sp.val (s.issuer u) = .done s) :
    s.PairBecomes c u (fun x y => x.Retires y (x.pc + 1)) :=
  .of e ((State.issue_runs h f).trans (by rw [← State.issuer, hf]; rfl)) (Pair.retires _ _)

theorem State.goesTo {pc : BitVec 14} (e : exec c s = .next (s.issue u f)) (hf : f s u.sp.val (s.issuer u) = .jump s pc) :
    s.PairBecomes c u (fun x y => x.Retires y pc) :=
  .of e ((State.issue_runs h f).trans (by rw [← State.issuer, hf]; rfl)) (Pair.retires _ _)

theorem State.alu_gives {d a : Fin 64} {b : SrcB} {g : W64 → W64 → W64} (e : exec c s = .next (s.alu u d a b g)) {v : W64}
    (hv : g ((s.issuer u).readG a.val) ((s.issuer u).srcB b) = v) : s.PairBecomes c u (fun x y => x.WroteG y (x.pc + 1) d v) :=
  State.givesG h e (hv ▸ rfl)

theorem State.compare_gives {pd : Fin 16} {a : Fin 64} {b : SrcB} {g : W64 → W64 → Bool} (e : exec c s = .next (s.compare u pd a b g)) {v : Bool}
    (hv : g ((s.issuer u).readG a.val) ((s.issuer u).srcB b) = v) : s.PairBecomes c u (fun x y => x.WroteP y (x.pc + 1) pd v) :=
  State.givesP h e (hv ▸ rfl)

end

/-- Settles O5: each operation is `State.alu` of an operator of the model, whose value the lemmas above say in the statement's words. -/
theorem scalarResults : Obligations.ScalarResults := by
  intro s u d a b imm h
  exact ⟨State.alu_gives h rfl rfl, State.alu_gives h rfl rfl, State.alu_gives h rfl rfl, State.alu_gives h rfl rfl, State.alu_gives h rfl rfl,
    State.alu_gives h rfl rfl, State.alu_gives h rfl rfl, State.alu_gives h rfl rfl, State.alu_gives h rfl rfl, State.alu_gives h rfl rfl,
    State.alu_gives h rfl rfl, State.alu_gives h rfl (sarB_eq _ _), State.alu_gives h rfl (minS_eq _ _), State.alu_gives h rfl (maxS_eq _ _),
    State.alu_gives h rfl (minU_eq _ _), State.alu_gives h rfl (maxU_eq _ _), State.alu_gives h rfl (clzOf_eq _), State.alu_gives h rfl (popOf_eq _),
    State.alu_gives h rfl rfl, State.alu_gives h rfl (movHi_eq _ _)⟩

/-! Branches (R209) -/

theorem Pair.target_inside {x : Pair} {tgt : BitVec 14} (h : tgt.toNat < x.codeLen) (s : State) : x.target s tgt = .jump s tgt := if_pos h

/-- Settles O6: comparisons and predicate operations by their operators, branches by `Pair.target_inside`. -/
theorem predicatesAndBranches : Obligations.PredicatesAndBranches := by
  refine ⟨fun s u pd p q a d b h => ?_, fun s u d a tgt h => ⟨fun ht => ⟨?_, ?_⟩, fun ht => ?_, ?_⟩⟩
  · exact ⟨State.compare_gives h rfl rfl, State.compare_gives h rfl rfl, State.compare_gives h rfl rfl, State.compare_gives h rfl rfl,
      State.compare_gives h rfl rfl, State.compare_gives h rfl rfl, State.givesP h rfl rfl, State.givesP h rfl rfl, State.givesP h rfl rfl,
      State.givesP h rfl rfl, State.givesG h rfl rfl⟩
  · exact State.goesTo h rfl (Pair.target_inside ht s)
  · exact .of rfl (State.issue_jump h (Pair.target_inside ht _)) (Pair.wroteG _ _ _ _)
  · exact State.goesTo h rfl (Pair.target_inside ht s)
  · exact State.goesOn h rfl rfl

/-! Loads and stores (R201, R208) -/

theorem Tab.get_filter_key {α : Type} (d : α) (p : Nat → Bool) (t : Tab α) (i : Nat) :
    Tab.get d (t.filter (fun e => p e.1)) i = if p i then Tab.get d t i else d := by
  induction t with
  | nil => simp [Tab.get]
  | cons e t ih =>
    obtain ⟨k, v⟩ := e
    by_cases hk : i = k
    · subst hk
      by_cases hp : p i = true
      · simp [hp, Tab.get]
      · simpa [List.filter_cons, hp] using ih
    · by_cases hp : p k = true
      · simpa [List.filter_cons, hp, Tab.get, hk] using ih
      · simpa [List.filter_cons, hp, Tab.get, hk] using ih

theorem Pair.byteAt_data (x : Pair) (a : Nat) : byteAt x.data a = if 0x40 ≤ a ∧ a < 0x100 then 0 else byteAt x.dmem a := by
  rw [byteAt, Pair.data, Tab.get_filter_key 0 (fun k => !decide (0x40 ≤ k ∧ k < 0x100))]
  by_cases h : 0x40 ≤ a ∧ a < 0x100 <;> simp [h, byteAt]

/-- A number of bytes is its highest ones followed by its lowest. -/
theorem toNat_append_byte {w : Nat} (x : BitVec w) (b : Byte) : (x ++ b).toNat = b.toNat + 256 * x.toNat := by
  have hb := b.isLt
  rw [BitVec.toNat_append, Nat.shiftLeft_eq, Nat.mul_comm, ← Nat.two_pow_add_eq_or_of_lt hb]
  omega

theorem readLe_one (m : Tab Byte) (a : Nat) : readLe m a 1 = (byteAt m (a + 0)).toNat := rfl

theorem readLe_two (m : Tab Byte) (a : Nat) : readLe m a 2 = (byteAt m (a + 1) ++ byteAt m (a + 0)).toNat := by
  rw [toNat_append_byte]
  rfl

theorem readLe_four (m : Tab Byte) (a : Nat) :
    readLe m a 4 = (byteAt m (a + 3) ++ byteAt m (a + 2) ++ byteAt m (a + 1) ++ byteAt m (a + 0)).toNat := by
  simp only [toNat_append_byte]
  rfl

theorem readLe_eight (m : Tab Byte) (a : Nat) :
    readLe m a 8 = (byteAt m (a + 7) ++ byteAt m (a + 6) ++ byteAt m (a + 5) ++ byteAt m (a + 4) ++ byteAt m (a + 3) ++ byteAt m (a + 2)
      ++ byteAt m (a + 1) ++ byteAt m (a + 0)).toNat := by
  simp only [toNat_append_byte]
  rfl

theorem loadExt_unsigned (n : Nat) {w : Nat} (x : BitVec w) : loadExt false n x.toNat = x.setWidth 64 :=
  BitVec.eq_of_toNat_eq (by simp [loadExt])

theorem loadExt_signed {n : Nat} (hn : 0 < n) (hle : n ≤ 8) (x : BitVec (8 * n)) : loadExt true n x.toNat = x.signExtend 64 := by
  have hmsb : x.msb = decide (x.toNat / 2 ^ (8 * n - 1) % 2 = 1) := by
    rw [BitVec.msb_eq_getLsbD_last, BitVec.getLsbD, Nat.testBit_eq_decide_div_mod_eq]
  have hpow : (2 : Nat) ^ (8 * n) ≤ 2 ^ 64 := Nat.pow_le_pow_right (by decide) (by omega)
  have hx := x.isLt
  apply BitVec.eq_of_toNat_eq
  rw [BitVec.toNat_signExtend, BitVec.toNat_setWidth, hmsb]
  by_cases h : x.toNat / 2 ^ (8 * n - 1) % 2 = 1
  · simp only [loadExt, h, decide_true, Bool.and_self, if_true, BitVec.toNat_ofNat]
    rw [Nat.mod_eq_of_lt (by omega), Nat.mod_eq_of_lt (by omega)]
    omega
  · simp [loadExt, h]

section
variable {s : State} {u : Issue} (h : s.Runs u) {c : Instr} {d a : Fin 64} {imm : W32} {n : Nat}
  (halign : ((s.issuer u).readG a.val + imm.signExtend 64).toNat % n = 0)
  (hin : ((s.issuer u).readG a.val + imm.signExtend 64).toNat + n ≤ 0x20000)
include h halign hin

theorem State.load_gives {signed : Bool} (e : exec c s = .next (s.load u d a imm n signed)) {v : W64}
    (hv : loadExt signed n (readLe (s.issuer u).data ((s.issuer u).readG a.val + imm.signExtend 64).toNat n) = v) :
    s.PairBecomes c u (fun x y => x.WroteG y (x.pc + 1) d v) :=
  .of e (State.load_runs h d a imm n signed (Pair.dataAddr_ok halign hin)) (hv ▸ Pair.wroteG _ _ _ _)

theorem State.store_gives (e : exec c s = .next (s.store u d a imm n)) :
    s.PairBecomes c u (fun x y => x.Stored y (x.pc + 1) ((s.issuer u).readG a.val + imm.signExtend 64).toNat n ((s.issuer u).readG d.val).toNat) :=
  .of e (State.store_runs h d a imm n (Pair.dataAddr_ok halign hin)) (Pair.stored _ _ _ _ _)

end

/-- Settles O7: the loads by the value of the bytes they read, the stores by `Pair.stored`. -/
theorem loadsAndStores : Obligations.LoadsAndStores := by
  refine ⟨Pair.byteAt_data, fun s u d a imm n h => ?_, fun s u d a imm n h => ?_⟩
  · refine fun halign hin => ⟨?_, ?_, ?_, ?_⟩
    · rintro rfl
      exact ⟨State.load_gives h halign hin rfl (by rw [readLe_one, loadExt_unsigned]),
        State.load_gives h halign hin rfl (by rw [readLe_one, loadExt_signed (by decide) (by decide)])⟩
    · rintro rfl
      exact ⟨State.load_gives h halign hin rfl (by rw [readLe_two, loadExt_unsigned]),
        State.load_gives h halign hin rfl (by rw [readLe_two, loadExt_signed (by decide) (by decide)])⟩
    · rintro rfl
      exact ⟨State.load_gives h halign hin rfl (by rw [readLe_four, loadExt_unsigned]),
        State.load_gives h halign hin rfl (by rw [readLe_four, loadExt_signed (by decide) (by decide)])⟩
    · rintro rfl
      exact State.load_gives h halign hin rfl (by rw [readLe_eight, loadExt_unsigned]; exact BitVec.setWidth_eq _)
  · refine fun halign hin => ⟨?_, ?_, ?_, ?_⟩ <;>
    · rintro rfl
      exact State.store_gives h halign hin rfl

/-! Issue conditions (R204) -/

/-- An instruction that is not executed, its pair being stopped or its guard false, is an issue like any other: END too ends nothing then. -/
theorem exec_issued {c : Instr} {u : Issue} {s : State} (hc : c.issueOf = some u)
    (h : s.canIssue u.sp.val = false ∨ xor ((s.pair u.sp.val).readP u.pg.val) u.pn = false) : ∃ f, exec c s = .next (s.issue u f) := by
  cases c
  case endProg v a =>
    obtain rfl : v = u := Option.some.inj hc
    have hguard : (!s.canIssue v.sp.val || !(s.pair v.sp.val).guards v) = true := by
      obtain h | h := h
      · simp [h]
      · simp [Pair.guards, guardOf, h]
    exact ⟨_, congrArg Host.Outcome.next (if_pos hguard)⟩
  all_goals cases hc
  all_goals exact ⟨_, rfl⟩

/-- Settles O8: `exec_issued`, and the two ways in which an issue does nothing. -/
theorem issueConditions : Obligations.IssueConditions := by
  refine ⟨fun c u s hc hcan hguard => ?_, fun c u s hc hcan => ?_⟩
  · obtain ⟨f, e⟩ := exec_issued hc (.inr hguard)
    exact .of e (State.issue_guarded hcan hguard f) (Pair.retires _ _)
  · obtain ⟨f, e⟩ := exec_issued hc (.inl hcan)
    rw [e, State.issue_stopped hcan]

end Sys2Proof.Machine
end

section
/-! SUPPORT. Descriptors (R210) and exceptions (R231, R232): what each descriptor instruction leaves in its register, and the instructions that
raise an exception in place of their effect. -/

namespace Sys2Proof.Machine

/-! Fields of words -/

theorem bits_low {n : Nat} (w : BitVec n) (len : Nat) : bits w 0 len = w.toNat % 2 ^ len := by
  rw [bits_eq, Nat.pow_zero, Nat.div_one]

/-- A field that grows by `x`, modulo its width. -/
theorem extract_setBits_add {n : Nat} (w : BitVec n) {lo len : Nat} (x : W64) (h : lo + len ≤ n) :
    (setBits w lo len (bits w lo len + x.toNat)).extractLsb' lo len = w.extractLsb' lo len + x.setWidth len := by
  rw [extract_setBits_self w _ h, bits]
  exact BitVec.eq_of_toNat_eq (by simp [BitVec.toNat_add])

/-! Descriptor instructions (R210) -/

/-- A descriptor whose field of `len` bits from `lo` has grown by `g`. -/
def DReg.growField (r : DReg) (lo len : Nat) (g : W64) : DReg := { r with v := setBits r.v lo len (bits r.v lo len + g.toNat) }

section
variable {s : State} {u : Issue} (h : s.Runs u) {dd : Fin 32} {a : Fin 64} {imm : W32}
include h

theorem State.loadD_gives {c : Instr} {kind : BitVec 2} (halign : ((s.issuer u).readG a.val + imm.signExtend 64).toNat % 64 = 0)
    (hin : ((s.issuer u).readG a.val + imm.signExtend 64).toNat + 64 ≤ 0x20000) (e : exec c s = .next (s.loadD u dd a imm kind)) :
    s.PairBecomes c u (fun x y => x.WroteD y (x.pc + 1) dd
      ⟨kind, BitVec.ofNat 512 (readLe (s.issuer u).data ((s.issuer u).readG a.val + imm.signExtend 64).toNat 64), 0⟩) := by
  refine State.givesD h e ?_
  rw [Pair.dataAddr_ok halign hin]
  rfl

theorem exec_dst_inside (hin : ((s.issuer u).readG a.val + imm.signExtend 64).toNat + 64 ≤ 0x20000) :
    s.PairBecomes (.dst u dd a imm) u (fun x y => x.Stored y (x.pc + 1) ((s.issuer u).readG a.val + imm.signExtend 64).toNat 64
      ((s.issuer u).readD dd.val).v.toNat) := by
  refine State.givesMem h rfl ?_
  rw [Pair.dataAddr_ok (Nat.mod_one _) hin]
  rfl

theorem exec_dldl : ∃ t y v, exec (.dldl u dd a) s = .next t ∧ t.pair u.sp.val = y
    ∧ (s.issuer u).WroteD y ((s.issuer u).pc + 1) dd ⟨3, v, ((s.issuer u).readG a.val).toNat % 64⟩
    ∧ (∀ j, j ≠ u.sp.val → t.pair j = s.pair j) ∧ { t with pairs := s.pairs, freeCtr := s.freeCtr } = s := by
  have e : exec (.dldl u dd a) s = .next (({ s with freeCtr := s.freeCtr + 1 } : State).setPair u.sp.val
      (((s.issuer u).writeD dd.val ⟨3, Config.freeRef s.freeCtr, bits ((s.issuer u).readG a.val) 0 6⟩).retire ((s.issuer u).pc + 1))) :=
    congrArg Host.Outcome.next ((State.issue_runs h _).trans (State.modPair_setPair _ _ _ _))
  rw [bits_low] at e
  exact ⟨_, _, _, e, State.pair_setPair_self _ _ _, Pair.wroteD _ _ _ _, fun j hj => State.pair_setPair_ne _ hj _, rfl⟩

theorem exec_dsetw : ∃ v : BitVec 512, s.PairBecomes (.dsetw u dd a imm) u
      (fun x y => x.WroteD y (x.pc + 1) dd { (s.issuer u).readD dd.val with v := v })
    ∧ ∀ j, j < 16 → v.extractLsb' (32 * j) 32
        = if j = imm.toNat % 16 then ((s.issuer u).readG a.val).setWidth 32 else ((s.issuer u).readD dd.val).v.extractLsb' (32 * j) 32 := by
  refine ⟨_, State.givesD h rfl rfl, fun j hj => ?_⟩
  rw [show bits imm 0 4 = imm.toNat % 16 from bits_low imm 4, bits_low]
  by_cases hk : j = imm.toNat % 16
  · subst hk
    rw [if_pos rfl, extract_setBits_self _ _ (by omega)]
    exact BitVec.eq_of_toNat_eq (by simp)
  · rw [if_neg hk, extract_setBits_out _ _ (by omega)]

theorem exec_dgetw : s.PairBecomes (.dgetw u dd a imm) u (fun x y => x.WroteG y (x.pc + 1) a
    ((((s.issuer u).readD dd.val).v.extractLsb' (32 * (imm.toNat % 16)) 32).setWidth 64)) := by
  have hword (v : BitVec 512) (k : Nat) : BitVec.ofNat 64 (bits v k 32) = (v.extractLsb' k 32).setWidth 64 := BitVec.eq_of_toNat_eq (by simp [bits])
  rw [← hword, ← show bits imm 0 4 = imm.toNat % 16 from bits_low imm 4]
  exact State.givesG h rfl rfl

/-- DADDA of a descriptor whose address field is the `len` bits from `lo`. -/
theorem exec_dadda_field {lo len : Nat} (hle : lo + len ≤ 512)
    (hr : ((s.issuer u).readD dd.val).addAddr ((s.issuer u).readG a.val) = some (((s.issuer u).readD dd.val).growField lo len ((s.issuer u).readG a.val))) :
    ∃ v : BitVec 512, s.PairBecomes (.dadda u dd a) u (fun x y => x.WroteD y (x.pc + 1) dd { (s.issuer u).readD dd.val with v := v })
      ∧ v.extractLsb' lo len = ((s.issuer u).readD dd.val).v.extractLsb' lo len + ((s.issuer u).readG a.val).setWidth len
      ∧ ∀ b k, b + k ≤ lo ∨ lo + len ≤ b → v.extractLsb' b k = ((s.issuer u).readD dd.val).v.extractLsb' b k := by
  refine ⟨_, State.givesD h rfl ?_, extract_setBits_add _ _ hle, fun b k hbk => extract_setBits_out _ _ hbk⟩
  rw [hr]
  rfl

end

/-- Settles O9, instruction by instruction. What DCLR leaves and what a loop reference holds are the model's (log entry 52). -/
theorem descriptorResults : Obligations.DescriptorResults := by
  intro s u dd a imm h
  refine ⟨fun halign hin => ⟨State.loadD_gives h halign hin rfl, State.loadD_gives h halign hin rfl⟩, exec_dst_inside h, exec_dldl h, exec_dsetw h,
    exec_dgetw h, fun hk => ?_, fun hk => ?_, State.givesD h rfl rfl⟩
  · obtain ⟨v, hv, hfield, hout⟩ := exec_dadda_field h (lo := 8) (len := 23) (by decide) (if_pos hk)
    exact ⟨v, hv, hfield, hout 0 8 (by decide), hout 31 481 (by decide)⟩
  · have hne : ((s.issuer u).readD dd.val).kind ≠ 1 := by rw [hk]; decide
    obtain ⟨v, hv, hfield, hout⟩ := exec_dadda_field h (a := a) (lo := 0) (len := 64) (by decide) ((if_neg hne).trans (if_pos hk))
    exact ⟨v, hv, by simpa using hfield, hout 64 448 (by decide)⟩

/-! Exceptions (R231, R232) -/

/-- The instruction raises exception `code` and does nothing else; the operation that the pair serves, where there is one, stops. -/
def State.Raises (s : State) (u : Issue) (c : Instr) (code : Nat) : Prop :=
  ∃ t, exec c s = .next t ∧ s.Raised t u.sp.val code
    ∧ ∀ opid o, (s.issuer u).op = some opid → s.op opid = some o → ∃ o', t.op opid = some o' ∧ o'.ended = 0xFF
      ∧ o'.status.toNat = Nat.max o.status.toNat (if opcodeOf o.cmd = 0x0F then 0x22 else 0xF0)

theorem Pair.dataAddr_bad {x : Pair} {a : Fin 64} {imm : W32} {align n : Nat}
    (h : (x.readG a.val + imm.signExtend 64).toNat % align ≠ 0 ∨ 0x20000 < (x.readG a.val + imm.signExtend 64).toNat + n) :
    x.dataAddr a imm align n = none :=
  if_neg fun ⟨halign, hin⟩ => h.elim (fun h => h halign) (fun h => Nat.not_lt.2 hin h)

theorem Pair.target_outside {x : Pair} {tgt : BitVec 14} (h : x.codeLen ≤ tgt.toNat) (s : State) : x.target s tgt = .exc 0x03 :=
  if_neg (Nat.not_lt.2 h)

section
variable {s : State} {u : Issue} (h : s.Runs u)
  (hop : ∀ opid o, (s.issuer u).op = some opid → s.op opid = some o → opcodeOf o.cmd ≠ 0x0F ∨ s.opQueued opid = true)
include h hop

theorem State.raises_of_exc {c : Instr} {code : Nat} {f : State → Nat → Pair → Lz} (e : exec c s = .next (s.issue u f))
    (hf : f s u.sp.val (s.issuer u) = .exc code) : s.Raises u c code := by
  have hexc : s.issue u f = s.raiseExc u.sp.val code := (State.issue_runs h f).trans (by rw [← State.issuer, hf])
  exact ⟨_, e.trans (congrArg _ hexc), State.raiseExc_raised s u.sp.val code hop⟩

theorem State.load_raises {c : Instr} {d a : Fin 64} {imm : W32} {n : Nat} {signed : Bool}
    (hbad : ((s.issuer u).readG a.val + imm.signExtend 64).toNat % n ≠ 0 ∨ 0x20000 < ((s.issuer u).readG a.val + imm.signExtend 64).toNat + n)
    (e : exec c s = .next (s.load u d a imm n signed)) : s.Raises u c 0x02 :=
  State.raises_of_exc h hop e (by rw [Pair.dataAddr_bad hbad])

theorem State.store_raises {c : Instr} {d a : Fin 64} {imm : W32} {n : Nat}
    (hbad : ((s.issuer u).readG a.val + imm.signExtend 64).toNat % n ≠ 0 ∨ 0x20000 < ((s.issuer u).readG a.val + imm.signExtend 64).toNat + n)
    (e : exec c s = .next (s.store u d a imm n)) : s.Raises u c 0x02 :=
  State.raises_of_exc h hop e (by rw [Pair.dataAddr_bad hbad])

theorem State.loadD_raises {c : Instr} {dd : Fin 32} {a : Fin 64} {imm : W32} {kind : BitVec 2}
    (hbad : ((s.issuer u).readG a.val + imm.signExtend 64).toNat % 64 ≠ 0 ∨ 0x20000 < ((s.issuer u).readG a.val + imm.signExtend 64).toNat + 64)
    (e : exec c s = .next (s.loadD u dd a imm kind)) : s.Raises u c 0x02 :=
  State.raises_of_exc h hop e (by rw [Pair.dataAddr_bad hbad])

theorem exec_dst_raises {dd : Fin 32} {a : Fin 64} {imm : W32} (hbad : 0x20000 < ((s.issuer u).readG a.val + imm.signExtend 64).toNat + 64) :
    s.Raises u (.dst u dd a imm) 0x02 :=
  State.raises_of_exc h hop rfl (by rw [Pair.dataAddr_bad (.inr hbad)])

theorem exec_dadda_raises {dd : Fin 32} {a : Fin 64} (h1 : ((s.issuer u).readD dd.val).kind ≠ 1) (h2 : ((s.issuer u).readD dd.val).kind ≠ 2) :
    s.Raises u (.dadda u dd a) 0x05 := by
  have hnone : ((s.issuer u).readD dd.val).addAddr ((s.issuer u).readG a.val) = none := (if_neg h1).trans (if_neg h2)
  exact State.raises_of_exc h hop rfl (by rw [hnone])

theorem exec_csrr_raises {d : Fin 64} {csr : BitVec 12}
    (hcsr : csr.toNat ∉ [0x000, 0x001, 0x002, 0x010, 0x011, 0x012, 0x013, 0x014, 0x015, 0x016, 0x020, 0x030]) :
    s.Raises u (.csrr u d csr) 0x01 := by
  have hnone : s.csr u.sp.val csr = none := by
    unfold State.csr
    split <;> simp_all
  exact State.raises_of_exc h hop rfl (by rw [hnone])

theorem exec_illegalInstruction_raises {w : W64} (hw : illegalWord w = true) (hg : xor ((s.issuer u).readP (bits w 56 4)) (bit w 55) = true) :
    s.Raises u (.illegalInstruction u.sp w) 0x01 := by
  have hguard : (s.pair u.sp.val).guardsWord w = true := hg
  have e : exec (.illegalInstruction u.sp w) s = .next (s.raiseExc u.sp.val 0x01) :=
    congrArg Host.Outcome.next (by simp [h.canIssue, hw, hguard])
  exact ⟨_, e, State.raiseExc_raised s u.sp.val 0x01 hop⟩

end

/-- Settles O10: in each clause the issue function answers `.exc`, and `State.raiseExc_raised` says what that does. -/
theorem exceptions : Obligations.Exceptions := by
  intro s u d a imm tgt csr dd h x hop
  refine ⟨fun hb => ⟨State.load_raises h hop hb rfl, State.load_raises h hop hb rfl, State.store_raises h hop hb rfl⟩,
    fun hb => ⟨State.load_raises h hop hb rfl, State.load_raises h hop hb rfl, State.store_raises h hop hb rfl⟩,
    fun hb => ⟨State.load_raises h hop hb rfl, State.load_raises h hop hb rfl, State.store_raises h hop hb rfl⟩,
    fun hb => ⟨State.load_raises h hop hb rfl, State.store_raises h hop hb rfl⟩,
    fun hb => ⟨State.loadD_raises h hop hb rfl, State.loadD_raises h hop hb rfl⟩, exec_dst_raises h hop,
    fun ht => ⟨State.raises_of_exc h hop rfl (Pair.target_outside ht _), State.raises_of_exc h hop rfl (Pair.target_outside ht _)⟩,
    fun ht => State.raises_of_exc h hop rfl (Pair.target_outside ht _), exec_dadda_raises h hop, fun hc => ?_, exec_csrr_raises h hop,
    State.raises_of_exc h hop rfl rfl, fun w => exec_illegalInstruction_raises h hop⟩
  exact State.raises_of_exc h hop rfl (if_pos (by simp [show (s.issuer u).claimed = false from hc]))

end Sys2Proof.Machine
end

section
/-! SUPPORT. Signals as a program uses them (R222, R223, R342): polls, raises, the beginning of a wait and its two ends. -/

namespace Sys2Proof.Machine

theorem Pair.readG_writeP (x : Pair) (i : Nat) (v : Bool) (k : Nat) : (x.writeP i v).readG k = x.readG k := by
  obtain ⟨t, e⟩ := x.writeP_eq i v
  rw [e]
  rfl

theorem Pair.readP_writeG (x : Pair) (i : Nat) (v : W64) (k : Nat) : (x.writeG i v).readP k = x.readP k := by
  obtain ⟨t, e⟩ := x.writeG_eq i v
  rw [e]
  rfl

/-- A pair that has written one register of each of its two files. -/
theorem Pair.writeG_writeP_spec (x : Pair) (d : Fin 64) (v : W64) (pd : Fin 16) (b : Bool) :
    (∀ k : Fin 64, ((x.writeG d.val v).writeP pd.val b).readG k.val = if k = 0 then 0 else if k = d then v else x.readG k.val)
      ∧ (∀ k : Fin 16, ((x.writeG d.val v).writeP pd.val b).readP k.val = if k = 0 then true else if k = pd then b else x.readP k.val)
      ∧ ∃ g p, (x.writeG d.val v).writeP pd.val b = { x with g := g, p := p } := by
  refine ⟨fun k => (Pair.readG_writeP _ _ _ _).trans ((x.wroteG 0 d v).regs k), fun k => ?_, ?_⟩
  · rw [show ((x.writeG d.val v).writeP pd.val b).readP k.val = _ from ((x.writeG d.val v).wroteP 0 pd b).preds k, Pair.readP_writeG]
  · obtain ⟨g, hg⟩ := x.writeG_eq d.val v
    obtain ⟨p, hp⟩ := (x.writeG d.val v).writeP_eq pd.val b
    exact ⟨g, p, by rw [hp, hg]⟩

theorem signalOf_some {w : W64} (h : w.toNat < 65536) : signalOf w = some w.toNat := if_pos h

theorem State.isRaised_setRaised (s : State) (n m : Nat) (b : Bool) : (s.setRaised n b).isRaised m = if m = n then b else s.isRaised m :=
  Tab.get_set _ _ _ _ _

theorem State.raise_alone {s : State} {n : Nat} (h : ∀ w ∈ s.sig.waiters, w.1 ≠ n) : s.raise n = s.setRaised n true := by
  have hnil : s.sig.waiters.filter (fun w => w.1 = n) = [] := List.filter_eq_nil_iff.2 (fun w hw => by simpa using h w hw)
  rw [State.raise, hnil]
  rfl

/-! The end of a wait (R223) -/

/-- The pair whose SWAIT `w` has returned with `outcome`. -/
def Pair.returned (x : Pair) (w : SwaitSt) (outcome : Nat) : Pair :=
  { (x.writeG w.d.val (BitVec.ofNat 64 outcome)).writeP w.pd.val (outcome = 0) with
    swait := none, st := if x.st = .waitSig then (if x.op.isNone then .idle else .running) else x.st }

theorem State.endSwait_kept {s : State} {sp : Nat} {w : SwaitSt} (hw : (s.pair sp).swait = some w) (hl : w.lent = false) (outcome : Nat) :
    s.endSwait sp outcome = s.setPair sp ((s.pair sp).returned w outcome) := by
  rw [State.endSwait, hw]
  simp only [hl, Bool.false_and, Bool.false_eq_true, if_false]
  rfl

theorem Pair.returned_spec {x : Pair} {w : SwaitSt} (hst : x.st = .waitSig) (hw : x.swait = some w) (outcome : Nat) :
    (∀ k : Fin 64, (x.returned w outcome).readG k.val = if k = 0 then 0 else if k = w.d then BitVec.ofNat 64 outcome else x.readG k.val)
      ∧ (∀ k : Fin 16, (x.returned w outcome).readP k.val = if k = 0 then true else if k = w.pd then decide (outcome = 0) else x.readP k.val)
      ∧ { x.returned w outcome with g := x.g, p := x.p, swait := some w, st := .waitSig } = x ∧ (x.returned w outcome).swait = none
      ∧ (x.returned w outcome).st = (if x.op.isNone then .idle else .running) := by
  obtain ⟨hg, hp, g, p, e⟩ := x.writeG_writeP_spec w.d (BitVec.ofNat 64 outcome) w.pd (outcome = 0)
  refine ⟨hg, hp, ?_, rfl, if_pos hst⟩
  rw [Pair.returned, e, ← hw, ← hst]

section
variable {s : State} {sp : Nat} {w : SwaitSt} (hw : (s.pair sp).swait = some w) (hl : w.lent = false)
include hw hl

theorem exec_signalTimeout {k : Fin 8} (hk : k.val = sp) (hf : s.fast = true) (ht : w.timeout ≠ 0) :
    exec (.signalTimeout k) s = .next ((s.unwait (.pair sp)).setPair sp ((s.pair sp).returned w 1)) := by
  subst hk
  refine congrArg Host.Outcome.next ?_
  rw [hw, hf]
  exact (if_neg ht).trans (State.endSwait_kept (s := s.unwait (.pair k.val)) hw hl 1)

/-- The raise of a signal on which one pair waits. -/
theorem State.raise_waiter (hwait : s.sig.waiters = [(w.sig, .pair sp)]) :
    s.raise w.sig = (s.modSig (fun g => { g with waiters := [] })).setPair sp ((s.pair sp).returned w 0) := by
  have hraise : s.raise w.sig = (s.modSig (fun g => { g with waiters := g.waiters.filter (fun y => y.1 != w.sig) })).endSwait sp 0 := by
    simp [State.raise, hwait, State.releaseWaiter]
  rw [hraise, State.endSwait_kept (s := s.modSig _) hw hl]
  simp [State.modSig, State.pair, hwait]

end

/-- An instruction that changes more than its pair. -/
theorem State.issue_done {s t : State} {u : Issue} (h : s.Runs u) {f : State → Nat → Pair → Lz} (hf : f s u.sp.val (s.issuer u) = .done t) :
    s.issue u f = t.setPair u.sp.val ((t.pair u.sp.val).retire ((s.issuer u).pc + 1)) := by
  rw [State.issue_runs h, ← State.issuer, hf]
  rfl

/-- The same for one that writes its pair last. -/
theorem State.issue_setPair {s t : State} {u : Issue} (h : s.Runs u) {f : State → Nat → Pair → Lz} {y : Pair}
    (hf : f s u.sp.val (s.issuer u) = .done (t.setPair u.sp.val y)) : s.issue u f = t.setPair u.sp.val (y.retire ((s.issuer u).pc + 1)) := by
  rw [State.issue_done h hf, State.pair_setPair_self, State.setPair_setPair]

/-- An instruction that waits at issue. -/
theorem State.issue_waits {s t : State} {u : Issue} (h : s.Runs u) {f : State → Nat → Pair → Lz} (hf : f s u.sp.val (s.issuer u) = .wait t) :
    s.issue u f = t := by
  rw [State.issue_runs h, ← State.issuer, hf]

section
variable {s : State} {u : Issue} (h : s.Runs u) {a : Fin 64} (hn : ((s.issuer u).readG a.val).toNat < 65536)
include h hn

theorem exec_spoll {pd : Fin 16} (hmay : (s.setOf (s.issuer u)).mayWait (s.issuer u).part ((s.issuer u).readG a.val).toNat = true) :
    s.PairBecomes (.spoll u pd a) u (fun x y => x.WroteP y (x.pc + 1) pd (s.isRaised ((s.issuer u).readG a.val).toNat)) := by
  refine State.givesP h rfl ?_
  rw [signalOf_some hn]
  exact if_pos hmay

theorem exec_sraise (hown : (s.setOf (s.issuer u)).owns (s.issuer u).part ((s.issuer u).readG a.val).toNat = true) :
    exec (.sraise u a) s = .next ((s.raise ((s.issuer u).readG a.val).toNat).setPair u.sp.val
      (((s.raise ((s.issuer u).readG a.val).toNat).pair u.sp.val).retire ((s.issuer u).pc + 1))) := by
  refine congrArg Host.Outcome.next (State.issue_done h ?_)
  rw [signalOf_some hn]
  exact if_pos hown

variable {pd : Fin 16} {b d : Fin 64} (hmay : (s.setOf (s.issuer u)).mayWait (s.issuer u).part ((s.issuer u).readG a.val).toNat = true)
include hmay

theorem exec_swait_raised (hr : s.isRaised ((s.issuer u).readG a.val).toNat = true) :
    exec (.swait u pd a b d) s = .next ((s.setRaised ((s.issuer u).readG a.val).toNat false).setPair u.sp.val
      ((((s.issuer u).writeG d.val 0).writeP pd.val true).retire ((s.issuer u).pc + 1))) := by
  refine congrArg Host.Outcome.next (State.issue_setPair h ?_)
  rw [signalOf_some hn]
  simp [hmay, State.await, hr]

theorem exec_swait_waits (hr : s.isRaised ((s.issuer u).readG a.val).toNat = false) :
    exec (.swait u pd a b d) s = .next ((s.modSig (fun g => { g with waiters := g.waiters ++ [(((s.issuer u).readG a.val).toNat, .pair u.sp.val)] })).setPair
      u.sp.val (((s.issuer u).startSwait ((s.issuer u).readG a.val).toNat d pd ((s.issuer u).readG b.val) s.clk.tick).retire ((s.issuer u).pc + 1))) := by
  refine congrArg Host.Outcome.next (State.issue_setPair h ?_)
  rw [signalOf_some hn]
  simp [hmay, State.await, hr]

end

/-- A pair that retires has counted for any pair with its counts. -/
theorem Pair.counted_retire {x y : Pair} (hr : y.retired = x.retired) (hi : y.instret = x.instret) (pc : BitVec 14) : x.Counted (y.retire pc) pc := by
  have hc := y.retire_counted pc
  exact ⟨hc.pc, by rw [hc.retired, hr], by rw [hc.instret, hi]⟩

/-- Settles O11: `exec_spoll`, `exec_sraise` with `State.raise_alone`, and the two outcomes of `exec_swait`. -/
theorem signalInstructions : Obligations.SignalInstructions := by
  intro s u pd a b d h x n hn
  refine ⟨exec_spoll h hn, fun hown halone => ?_, fun hmay hr => ?_, fun hmay hr => ?_⟩
  · rw [exec_sraise h hn hown, State.raise_alone halone]
    refine ⟨_, rfl, ?_, fun k hk => State.pair_setPair_ne _ hk _, fun m => State.isRaised_setRaised s n m true, rfl, rfl⟩
    rw [State.pair_setPair_self]
    exact Pair.retires _ _
  · obtain ⟨hg, hp, g, p, e⟩ := x.writeG_writeP_spec d 0 pd true
    refine ⟨_, exec_swait_raised h hn hmay hr, ?_, fun k => ?_, fun k => ?_, ?_, fun k hk => State.pair_setPair_ne _ hk _,
      fun m => State.isRaised_setRaised s n m false, rfl, rfl⟩ <;> rw [State.pair_setPair_self]
    · exact Pair.counted_retire (by rw [e]) (by rw [e]) _
    · refine (hg k).trans ?_
      by_cases hk : k = 0
      · subst hk
        simp
      · rw [if_neg hk]
    · refine (hp k).trans ?_
      by_cases hk : k = 0
      · subst hk
        simp
      · rw [if_neg hk]
    · rw [e]
      rfl
  · refine ⟨_, exec_swait_waits h hn hmay hr, ?_, ?_, ?_, ?_, fun k hk => State.pair_setPair_ne _ hk _, rfl, rfl, rfl⟩ <;>
      rw [State.pair_setPair_self]
    · exact Pair.counted_retire (x := x) (y := x.startSwait n d pd (x.readG b.val) s.clk.tick) rfl rfl _
    · rfl
    · rfl
    · rfl

/-- Settles O12: both ends of a wait leave the pair as `Pair.returned` does. -/
theorem waitsEnd : Obligations.WaitsEnd := by
  intro s sp w hf x hw hl hst
  obtain ⟨hg, hp, hrest, hswait, hstate⟩ := Pair.returned_spec hst hw 1
  refine ⟨fun ht => ?_, fun u a h hn hsig hown hwait hne => ?_⟩
  · refine ⟨_, exec_signalTimeout hw hl rfl hf ht, ?_, rfl, ?_, rfl⟩
    · beta_reduce
      rw [State.pair_setPair_self]
      exact ⟨hg, hp, hrest, hswait, hstate, fun k hk => State.pair_setPair_ne _ hk _⟩
    · exact List.filter_congr (fun y _ => by by_cases hy : y.2 = .pair sp.val <;> simp [hy])
  · obtain ⟨hg, hp, -, hswait, hstate⟩ := Pair.returned_spec hst hw 0
    have hpair (y : Pair) : (((s.modSig (fun g => { g with waiters := [] })).setPair sp.val (x.returned w 0)).setPair u.sp.val y).pair sp.val = x.returned w 0 := by
      rw [State.pair_setPair_ne _ (fun e => hne (Fin.ext e.symm)), State.pair_setPair_self]
    rw [hsig] at hown
    rw [exec_sraise h hn hown, ← hsig, State.raise_waiter hw hl hwait]
    refine ⟨_, rfl, ?_⟩
    rw [hpair]
    exact ⟨hswait, hstate, hg, hp, rfl, rfl⟩

end Sys2Proof.Machine
end

section
/-! SUPPORT. Instruction memory and fences (R222, R226 to R230): TFENCE, the beginning and the end of a TMOV, IFENCE.SWAP. -/

namespace Sys2Proof.Machine

/-! Reads of a space (R330) -/

theorem pieces_zero (fuel va : Nat) : pieces fuel va 0 = [] := by
  cases fuel <;> rfl

theorem sum_pieces (fuel : Nat) {va n : Nat} (h : n + va % 2 ^ 25 ≤ fuel * 2 ^ 25) : ((pieces fuel va n).map Prod.snd).sum = n := by
  induction fuel generalizing va n with
  | zero =>
    rw [show n = 0 by omega]
    rfl
  | succ fuel ih =>
    unfold pieces
    by_cases hn : n = 0
    · simp [hn]
    · rw [if_neg hn]
      dsimp only
      rw [List.map_cons, List.sum_cons]
      obtain hle | hle := Nat.le_total n (2 ^ 25 - va % 2 ^ 25)
      · rw [show Nat.min n (2 ^ 25 - va % 2 ^ 25) = n from Nat.min_eq_left hle, Nat.sub_self, pieces_zero]
        simp
      · rw [show Nat.min n (2 ^ 25 - va % 2 ^ 25) = 2 ^ 25 - va % 2 ^ 25 from Nat.min_eq_right hle, ih (by omega)]
        omega

theorem length_readBytes (m : Tab Byte) (a n : Nat) : (readBytes m a n).length = n := by simp [readBytes]

theorem State.length_vaRead (s : State) (space va n : Nat) : (s.vaRead space va n).length = n := by
  have hlen : ∀ q : Nat × Nat, (match s.paOf space q.1 with
      | some pa => readBytes s.mem pa q.2
      | none => List.replicate q.2 0).length = q.2 := by
    intro q
    split
    · exact length_readBytes _ _ _
    · exact List.length_replicate
  rw [State.vaRead, List.length_flatMap]
  exact (congrArg List.sum (List.map_congr_left (fun q _ => hlen q))).trans (sum_pieces (n / 2 ^ 25 + 2) (by omega))

/-- A use of translations changes the translation units alone. -/
theorem State.touchOpd_eq (s : State) (o : Opd) : ∃ t, s.touchOpd o = { s with tr := t } := by
  have htouch : ∀ (s : State) (space va : Nat), ∃ t, s.tlbTouch space va = { s with tr := t } := by
    intro s space va
    unfold State.tlbTouch
    dsimp only
    split <;> exact ⟨_, rfl⟩
  unfold State.touchOpd
  induction o.pages generalizing s with
  | nil => exact ⟨s.tr, rfl⟩
  | cons pg pgs ih =>
    rw [List.foldl_cons]
    split
    · obtain ⟨t, ht⟩ := htouch s o.space (o.at pg)
      rw [ht]
      exact ih _
    · exact ih s

/-! TFENCE (R222) -/

/-- An entry that pair `sp` issued stands in a cluster of `cmask`. -/
def State.fenced (s : State) (sp : Nat) (cmask : BitVec 4) : Bool :=
  (maskClusters sp cmask).any (fun n => (s.cluster n).queue.any (fun e => e.sp = sp))

theorem State.fenced_iff (s : State) (sp : Nat) (cmask : BitVec 4) : s.fenced sp cmask = true
    ↔ ∃ k : Fin 4, cmask.getLsbD k.val = true ∧ ∃ e ∈ (s.cluster (4 * sp + k.val)).queue, e.sp = sp := by
  simp only [State.fenced, List.any_eq_true, mem_maskClusters, decide_eq_true_eq]
  constructor
  · rintro ⟨n, ⟨hn, hk⟩, he⟩
    refine ⟨⟨n % 4, by omega⟩, hk, ?_⟩
    rwa [show 4 * sp + n % 4 = n by omega]
  · rintro ⟨k, hk, he⟩
    have hmod : (4 * sp + k.val) % 4 = k.val := by omega
    exact ⟨_, ⟨by omega, by rwa [hmod]⟩, he⟩

/-! The beginning of a TMOV (R226, R230) -/

/-- `y` is `x` after the issue of a TMOV of the `n` bytes `bs` to bank and index `dst`. -/
structure Pair.StartsTmov (x y : Pair) (dst : W64) (n : Nat) (bs : List Byte) : Prop where
  counted : x.Counted y (x.pc + 1)
  words : ∃ ws, y.tmovs = x.tmovs ++ [⟨dst.getLsbD 14, dst.toNat % 16384, ws⟩] ∧ ws.length = n / 8
    ∧ ∀ k, k < n / 8 → ws[k]? = some (BitVec.ofNat 64 (leNat ((bs.drop (8 * k)).take 8)))
  claimed : y.claimed = true
  tags : x.claimed = false → y.tag0 = (if dst.getLsbD 14 then x.tag0 else 0) ∧ y.tag1 = (if dst.getLsbD 14 then 0 else x.tag1)
  tagsKept : x.claimed = true → y.tag0 = x.tag0 ∧ y.tag1 = x.tag1
  rest : { y with tmovs := x.tmovs, claimed := x.claimed, tag0 := x.tag0, tag1 := x.tag1, pc := x.pc, retired := x.retired, instret := x.instret } = x

theorem Pair.startTmov_starts (x : Pair) (dst : W64) {n : Nat} {bs : List Byte} (hbs : bs.length = n) :
    x.StartsTmov ((x.startTmov dst bs).retire (x.pc + 1)) dst n bs := by
  have hdst : tmovDst dst = (dst.getLsbD 14, dst.toNat % 16384) := congrArg (Prod.mk _) (bits_low dst 14)
  have hwords : ∃ ws : List W64, ws = (List.range (bs.length / 8)).map (fun k => BitVec.ofNat 64 (leNat ((bs.drop (8 * k)).take 8)))
      ∧ ws.length = n / 8 ∧ ∀ k, k < n / 8 → ws[k]? = some (BitVec.ofNat 64 (leNat ((bs.drop (8 * k)).take 8))) :=
    ⟨_, rfl, by simp [hbs], fun k hk => by simp [hbs, hk]⟩
  obtain ⟨ws, hws, hlen, hget⟩ := hwords
  have e : x.startTmov dst bs = if x.claimed then { x with tmovs := x.tmovs ++ [⟨dst.getLsbD 14, dst.toNat % 16384, ws⟩] }
      else { x with tmovs := x.tmovs ++ [⟨dst.getLsbD 14, dst.toNat % 16384, ws⟩], claimed := true, tag0 := if dst.getLsbD 14 then x.tag0 else 0,
                    tag1 := if dst.getLsbD 14 then 0 else x.tag1 } := by
    rw [Pair.startTmov, hdst, hws]
  by_cases hc : x.claimed = true
  · rw [e, if_pos hc]
    exact ⟨Pair.counted_retire (x := x) (by rfl) (by rfl) _, ⟨ws, rfl, hlen, hget⟩, hc, by simp [hc], fun _ => ⟨rfl, rfl⟩, rfl⟩
  · rw [e, if_neg hc]
    exact ⟨Pair.counted_retire (x := x) (by rfl) (by rfl) _, ⟨ws, rfl, hlen, hget⟩, rfl, fun _ => ⟨rfl, rfl⟩, fun h => absurd h hc, rfl⟩

theorem tmovBad_none {x : Pair} {dst : W64} {src n align : Nat} (hbank : dst.getLsbD 14 ≠ x.bank) (hn : n ≠ 0) (h8 : n % 8 = 0)
    (hidx : dst.toNat % 16384 + n / 8 ≤ 16384) (hsrc : src % align = 0) : tmovBad x dst src n align = none := by
  have hdst : tmovDst dst = (dst.getLsbD 14, dst.toNat % 16384) := congrArg (Prod.mk _) (bits_low dst 14)
  have hceil : ¬ 16384 < dst.toNat % 16384 + ceilDiv n 8 := by
    rw [ceilDiv]
    omega
  rw [tmovBad, hdst]
  dsimp only
  rw [if_neg (by simp only [decide_eq_false hbank, decide_eq_false hceil, Bool.or_self, Bool.false_eq_true, not_false_eq_true]), if_neg (by simp [hn, h8, hsrc])]

section
variable {s : State} {u : Issue} (h : s.Runs u) {d a b : Fin 64} {n : Nat} (hlen : n = ((s.issuer u).readG b.val).toNat)
include h hlen

theorem exec_tmovd (hok : tmovBad (s.issuer u) ((s.issuer u).readG d.val) ((s.issuer u).readG a.val).toNat n 8 = none)
    (hin : ((s.issuer u).readG a.val).toNat + n ≤ 0x20000) :
    s.PairBecomes (.tmovd u d a b) u
      (fun x y => x.StartsTmov y ((s.issuer u).readG d.val) n (readBytes (s.issuer u).data ((s.issuer u).readG a.val).toNat n)) := by
  subst hlen
  refine .of rfl (State.issue_setPair h ?_) (Pair.startTmov_starts _ _ (length_readBytes _ _ _))
  dsimp only
  rw [hok]
  exact if_neg (Nat.not_lt.2 hin)

theorem exec_tmovm (hok : tmovBad (s.issuer u) ((s.issuer u).readG d.val) ((s.issuer u).readG a.val).toNat n 64 = none)
    (hj : (s.judgeOpd ⟨(s.issuer u).part, .other, false, ((s.issuer u).readG a.val).toNat, n⟩).1 = .ok) :
    ∃ t, exec (.tmovm u d a b) s = .next t
      ∧ (s.issuer u).StartsTmov (t.pair u.sp.val) ((s.issuer u).readG d.val) n (s.vaRead (s.issuer u).part ((s.issuer u).readG a.val).toNat n)
      ∧ (∀ k, k ≠ u.sp.val → t.pair k = s.pair k) ∧ { t with pairs := s.pairs, tr := s.tr } = s := by
  subst hlen
  obtain ⟨tr, htr⟩ := s.touchOpd_eq ⟨(s.issuer u).part, .other, false, ((s.issuer u).readG a.val).toNat, ((s.issuer u).readG b.val).toNat⟩
  have hf : exec (.tmovm u d a b) s = .next (({ s with tr := tr } : State).setPair u.sp.val (((s.issuer u).startTmov ((s.issuer u).readG d.val)
      (s.vaRead (s.issuer u).part ((s.issuer u).readG a.val).toNat ((s.issuer u).readG b.val).toNat)).retire ((s.issuer u).pc + 1))) := by
    refine congrArg Host.Outcome.next (State.issue_setPair h ?_)
    dsimp only
    rw [hok, ← htr]
    dsimp only
    split <;> simp_all
  refine ⟨_, hf, ?_, fun k hk => State.pair_setPair_ne _ hk _, rfl⟩
  rw [State.pair_setPair_self]
  exact Pair.startTmov_starts _ _ (s.length_vaRead _ _ _)

end

/-! The end of a TMOV (R226, R228) -/

theorem TmovSt.get_put (m : TmovSt) (old : Tab W64) (i : Nat) :
    Tab.get 0 ((m.words.zipIdx).foldl (fun t w => Tab.set 0 t (m.idx + w.2) w.1) old) i
      = if m.idx ≤ i ∧ i < m.idx + m.words.length then m.words.getD (i - m.idx) 0 else Tab.get 0 old i := by
  refine (Tab.get_foldl_zipIdx 0 (fun w _ => w) m.idx m.words 0 old i).trans ?_
  by_cases hi : m.idx ≤ i ∧ i < m.idx + m.words.length
  · rw [dif_pos ⟨hi.1, by omega⟩, if_pos hi, List.getD_eq_getElem _ _ (by omega)]
    rfl
  · rw [dif_neg (by omega), if_neg hi]

theorem exec_tmovDone {s : State} {sp : Fin 8} {m : TmovSt} {ms : List TmovSt} (hf : s.fast = true) (hm : (s.pair sp.val).tmovs = m :: ms) :
    exec (.tmovDone sp) s = .next (s.setPair sp.val { (s.pair sp.val).finishTmov m with tmovs := ms }) := by
  refine congrArg Host.Outcome.next ?_
  rw [hf, hm]
  rfl

/-! IFENCE.SWAP (R228, R230) -/

section
variable {s : State} {u : Issue} (h : s.Runs u) (hc : (s.issuer u).claimed = true) {tgt : BitVec 14}
include h hc

theorem exec_ifenceSwap_swaps (ht : (s.issuer u).tmovs = []) : exec (.ifenceSwap u tgt) s
    = .next (s.setPair u.sp.val (({ s.issuer u with bank := !(s.issuer u).bank, claimed := false, codeLen := 16384 } : Pair).retire tgt)) := by
  rw [State.issuer] at hc ht
  exact congrArg Host.Outcome.next (State.issue_jump h ((if_neg (by simp [hc])).trans (if_neg (by simp [ht]))))

theorem exec_ifenceSwap_waits (ht : (s.issuer u).tmovs ≠ []) : exec (.ifenceSwap u tgt) s = .next s := by
  exact congrArg Host.Outcome.next (State.issue_waits h ((if_neg (by simp [hc])).trans (if_pos (by simp [ht]))))

end

/-- Settles O13: the fence by `State.fenced_iff`, a TMOV by `Pair.startTmov_starts` and `TmovSt.get_put`, the swap by its two outcomes. -/
theorem programMemory : Obligations.ProgramMemory := by
  refine ⟨fun s u cmask h => ⟨fun hb => ?_, fun hb => ?_⟩, fun s u d a b h hbank hn h8 hidx => ⟨fun hsrc hin => ?_, fun hsrc hj => ?_⟩,
    fun s sp m ms hf hm => ?_, fun s u tgt h hc => ⟨fun ht => ?_, fun ht => exec_ifenceSwap_waits h hc ht⟩⟩
  · rw [← State.fenced_iff, Bool.not_eq_true] at hb
    exact State.goesOn h rfl (if_neg (ne_true_of_eq_false hb))
  · rw [← State.fenced_iff] at hb
    exact congrArg Host.Outcome.next (State.issue_waits h (if_pos hb))
  · obtain ⟨t, y, e, ho, hy⟩ := exec_tmovd h rfl (tmovBad_none (x := s.issuer u) hbank hn h8 hidx hsrc) hin
    exact ⟨t, y, e, ho, hy.counted, hy.words, hy.claimed, hy.tags, hy.tagsKept, hy.rest⟩
  · obtain ⟨t, e, hy, ho, hrest⟩ := exec_tmovm h rfl (tmovBad_none (x := s.issuer u) hbank hn h8 hidx hsrc) hj
    exact ⟨t, e, ⟨hy.counted, hy.words, hy.claimed, hy.tags, hy.tagsKept, hy.rest⟩, ho, hrest⟩
  · refine ⟨_, _, exec_tmovDone hf hm, State.setPair_only _ _ _, rfl, fun i => ?_, fun i => ?_, ?_⟩ <;> unfold Pair.finishTmov
    · cases hb : m.bank
      · exact m.get_put _ _
      · rfl
    · cases hb : m.bank
      · rfl
      · exact m.get_put _ _
    · cases hb : m.bank <;> rfl
  · exact .of (exec_ifenceSwap_swaps h hc ht) rfl ⟨Pair.counted_retire (by rfl) (by rfl) _, rfl, rfl, rfl, rfl⟩

end Sys2Proof.Machine
end

section
/-! SUPPORT. CSRs and the end of a program (R240, R241). -/

namespace Sys2Proof.Machine

/-! CSRs (R241) -/

section
variable {s : State} {u : Issue} (h : s.Runs u)
include h

theorem exec_csrr_listed (d : Fin 64) {k : BitVec 12} {v : Nat} (hv : s.csr u.sp.val k = some (BitVec.ofNat 64 v)) :
    s.PairBecomes (.csrr u d k) u (fun x y => x.WroteG y (x.pc + 1) d (BitVec.ofNat 64 v)) :=
  State.givesG h rfl (by rw [hv])

end

theorem State.pairOp_some {s : State} {sp : Nat} {opid : W32} {o : Op} (hopid : (s.pair sp).op = some opid) (ho : s.op opid = some o) :
    s.pairOp sp = some o := by
  rw [State.pairOp, hopid]
  exact ho

/-- A CSR that holds a 64-bit counter. -/
theorem some_counter (w : W64) : some w = some (BitVec.ofNat 64 w.toNat) := by simp

/-! END (R240) -/

theorem getLsbD_putBit_true {w : Nat} (m : BitVec w) (i : Nat) {k : Nat} (hk : k < w) : (putBit m i true).getLsbD k = (decide (k = i) || m.getLsbD k) := by
  rw [putBit, if_pos rfl, BitVec.getLsbD_or, getLsbD_oneHot i hk, Bool.or_comm]

/-- What END writes of the operation apart from its status: the pair's part has ended. -/
theorem Op.endPair_spec (o : Op) (sp code : Nat) :
    (o.endPair sp code).opid = o.opid ∧ (o.endPair sp code).cmd = o.cmd ∧ (o.endPair sp code).clusters = o.clusters
      ∧ (o.endPair sp code).ended = putBit o.ended sp true := by
  unfold Op.endPair Op.fault
  dsimp only
  split
  · exact ⟨rfl, rfl, rfl, rfl⟩
  · split <;> exact ⟨rfl, rfl, rfl, rfl⟩

/-- An END with code 0 leaves the operation's status. -/
theorem Op.endPair_zero (o : Op) (sp : Nat) {code : Nat} (hc : code % 256 = 0) : { o.endPair sp code with ended := o.ended } = o := by
  rw [Op.endPair, if_pos hc]

theorem Op.endPair_status (o : Op) (sp : Nat) {code : Nat} (hc : code % 256 ≠ 0) : (o.endPair sp code).status.toNat = Nat.max o.status.toNat 0x22 := by
  rw [Op.endPair, if_neg hc]
  exact Op.fault_status { o with ended := putBit o.ended sp true } (by decide) _ _

theorem Op.endPair_result (o : Op) (sp : Nat) {code : Nat} (hc : code % 256 ≠ 0) (hs : o.status.toNat < 0x22) :
    (o.endPair sp code).result.toNat / 2 ^ 32 % 65536 = code % 65536 := by
  have hres : (o.endPair sp code).result = BitVec.ofNat 96 (code % 65536 * 2 ^ 32) := by
    rw [Op.endPair, if_neg hc, Op.fault, if_pos hs]
  have hlt : code % 65536 < 65536 := Nat.mod_lt _ (by decide)
  rw [hres, BitVec.toNat_ofNat, Nat.mod_eq_of_lt (by omega)]
  omega

theorem State.op_endPair {s : State} {opid : W32} {o : Op} (ho : s.op opid = some o) (sp code : Nat) :
    (s.setOp (o.endPair sp code)).op opid = some (o.endPair sp code) := by
  have hid : (o.endPair sp code).opid = opid := (o.endPair_spec sp code).1.trans (State.op_opid ho)
  conv_lhs => rw [← hid]
  exact State.op_setOp (hid ▸ ho)

/-- The operation goes on: another pair has not ended its part, or entries are queued. -/
theorem State.progCheck_endPair {s : State} {sp : Nat} {opid : W32} {o : Op} {code : Nat} (ho : s.op opid = some (o.endPair sp code))
    (hgoes : (∃ k, k < 8 ∧ k ∈ pairsOf o.clusters ∧ k ≠ sp ∧ o.ended.getLsbD k = false) ∨ s.opQueued opid = true) : s.progCheck opid = s := by
  obtain ⟨-, -, hclusters, hended⟩ := o.endPair_spec sp code
  obtain ⟨k, hk, hmem, hne, hon⟩ | hq := hgoes
  · refine State.progCheck_on (fun o' ho' => .inr (.inr ?_))
    obtain rfl : o.endPair sp code = o' := Option.some.inj (ho.symm.trans ho')
    rw [hclusters, hended, List.all_eq_false]
    exact ⟨k, hmem, by rw [getLsbD_putBit_true _ _ hk]; simp [hne, hon]⟩
  · exact State.progCheck_waits ho (.inr hq)

section
variable {s : State} {u : Issue} (h : s.Runs u) {opid : W32} {o : Op} (hopid : (s.issuer u).op = some opid) (ho : s.op opid = some o)
include h hopid ho

theorem exec_endProg_goes (a : Fin 64)
    (hgoes : (∃ k, k < 8 ∧ k ∈ pairsOf o.clusters ∧ k ≠ u.sp.val ∧ o.ended.getLsbD k = false) ∨ s.opQueued opid = true) :
    exec (.endProg u a) s = .next ((s.setOp (o.endPair u.sp.val ((s.issuer u).readG a.val).toNat)).setPair u.sp.val
      ((s.issuer u).retire ((s.issuer u).pc + 1))) := by
  have hpop := State.pairOp_some hopid ho
  have hguard : (s.pair u.sp.val).guards u = true := h.guard
  refine congrArg Host.Outcome.next ?_
  rw [State.issue_done h (t := s.setOp (o.endPair u.sp.val ((s.issuer u).readG a.val).toNat)) (by rw [hpop])]
  rw [if_neg (by simp [h.canIssue, hguard]), show (s.pair u.sp.val).op = some opid from hopid]
  exact State.progCheck_endPair (s := (s.setOp _).setPair u.sp.val _) (State.op_endPair ho _ _) hgoes

end

/-- Settles O14: the CSRs by their values, END by `exec_endProg_goes` and what `Op.endPair` writes. -/
theorem csrsAndEnd : Obligations.CsrsAndEnd := by
  intro s u d a h
  have hnum {k : BitVec 12} {v : Nat} (hv : s.csr u.sp.val k = some (BitVec.ofNat 64 v)) := exec_csrr_listed h d hv
  refine ⟨hnum rfl, hnum (some_counter _), hnum (some_counter _), hnum rfl, hnum rfl, hnum rfl, hnum rfl, fun opid o hopid ho => ?_⟩
  have hpop := State.pairOp_some hopid ho
  have hpairs : pairsOf o.clusters = (List.range 8).filter (fun k => (o.clusters.toNat / 2 ^ (4 * k)) % 16 ≠ 0) :=
    List.filter_congr (fun k _ => by simp [bne, beq_eq_decide])
  refine ⟨hnum ?_, hnum ?_, hnum ?_, hnum ?_, hnum ?_, fun hgoes => ?_⟩
  · simp [State.csr, State.cmaskOp, hpop]
  · simp [State.csr, hpop]
  · rw [← hpairs]
    simp [State.csr, hpop]
  · rw [← hpairs]
    simp [State.csr, hpop]
  · simp [State.csr, hpop]
  · rw [← hpairs] at hgoes
    have hgoes' : (∃ k, k < 8 ∧ k ∈ pairsOf o.clusters ∧ k ≠ u.sp.val ∧ o.ended.getLsbD k = false) ∨ s.opQueued opid = true :=
      hgoes.imp_left (fun ⟨k, hk, hne, hon⟩ => ⟨k, List.mem_range.1 (List.mem_filter.1 hk).1, hk, hne, hon⟩)
    obtain ⟨-, -, -, hended⟩ := o.endPair_spec u.sp.val ((s.issuer u).readG a.val).toNat
    refine ⟨_, o.endPair u.sp.val ((s.issuer u).readG a.val).toNat, exec_endProg_goes h hopid ho a hgoes', ?_, State.op_endPair ho _ _, fun k => ?_, o.endPair_zero _, fun hc => ⟨o.endPair_status _ hc, o.endPair_result _ hc⟩, rfl⟩
    · rw [State.pair_setPair_self]
      exact Pair.retires _ _
    · rw [hended, getLsbD_putBit_true _ _ k.isLt]
      simp only [Fin.ext_iff]
      by_cases hk : k.val = u.sp.val <;> simp [hk]

end Sys2Proof.Machine
end

section
/-! SUPPORT. Handle writes at their start (R218, R220): HSET, HCLR and RCLR leave their cluster with one handle written, its ring's scoreboard
entry renewed and the queue entry done; what they do to peer windows stays with the peer unit. -/

namespace Sys2Proof.Machine

/-! Peer windows (R196, R364) -/

theorem State.giveCredit_peer (s : State) (w : W16) (slot : Nat) : ∃ x, s.giveCredit w slot = { s with peer := x } := by
  unfold State.giveCredit
  split
  · exact ⟨s.peer, rfl⟩
  · exact ⟨_, rfl⟩

theorem State.openWindow_eq (s : State) (n h part : Nat) (opid : W32) : ∃ x k, s.openWindow n h part opid = { s with peer := x, freeCtr := k } := by
  unfold State.openWindow
  dsimp only
  split
  · exact ⟨s.peer, s.freeCtr, rfl⟩
  · obtain ⟨x, hx⟩ := State.foldl_peer (f := fun s i => s.giveCredit (windowOf n h) i) (fun s _ => s.giveCredit_peer _ _)
      (List.range (hSlots ((s.cluster n).handle h))) (s.draw.2.modPeer (fun p => { p with windows := p.windows.filter (fun y => y.window != windowOf n h)
        ++ [⟨windowOf n h, Config.freePeer s.draw.1, part, opid, [], [], hSlotBytes ((s.cluster n).handle h), false⟩] }))
    exact ⟨x, s.freeCtr + 1, hx⟩

/-- R218: a handle written in its table, and the scoreboard entry of the ring that it is or was. -/
theorem Cluster.setHandle_ringEntry (c : Cluster) (h : Nat) (w : W64) : ∃ sb, (c.setHandle h w).ringEntry h = { c.setHandle h w with sb := sb } := ⟨_, rfl⟩

theorem State.putHandle_eq (s : State) (n h part : Nat) (opid : W32) (w : W64) :
    ∃ x k sb, s.putHandle n h part opid w = { s.setCluster n { (s.cluster n).setHandle h w with sb := sb } with peer := x, freeCtr := k } := by
  obtain ⟨x, k, hopen⟩ := ((s.closeWindow n h).modCluster n (fun c => (c.setHandle h w).ringEntry h)).openWindow_eq n h part opid
  exact ⟨x, k, _, hopen⟩

theorem State.clearRing_eq (s : State) (n h : Nat) : ∃ x, s.clearRing n h
    = { s.setCluster n ((s.cluster n).setHandle h (setBits ((s.cluster n).handle h) 4 18 0)) with peer := x } := by
  unfold State.clearRing
  dsimp only
  split
  · exact ⟨s.peer, rfl⟩
  · obtain ⟨x, hx⟩ := State.foldl_peer (f := fun s i => s.giveCredit (windowOf n h) i) (fun s _ => s.giveCredit_peer _ _)
      ((List.range (hSlots ((s.cluster n).handle h))).filter (fun i => slotState ((s.cluster n).handle h) i != .empty))
      ((s.modCluster n (fun c => c.setHandle h (setBits ((s.cluster n).handle h) 4 18 0))).modPeer
        (fun p => { p with windows := p.windows.map (fun x => if x.window = windowOf n h then { x with landed := [] } else x) }))
    exact ⟨x, hx⟩

/-! The start of a handle write -/

/-- No free scoreboard entry for the ring that `w` makes of handle `h`. -/
def Cluster.ringHasNoEntry (c : Cluster) (h : Nat) (w : W64) : Prop := hRing w = true ∧ 64 ≤ (c.sb.filter (fun x => x.tag != ringTag h)).length

theorem Cluster.ringHasNoEntry_iff (c : Cluster) (h : Nat) (w : W64) : c.ringHasNoEntry h w
    ↔ (hRing w && decide (Config.scoreboardMax ≤ (c.sb.filter (fun x => x.tag != ringTag h)).length)) = true := by
  simp [Cluster.ringHasNoEntry, Config.scoreboardMax]

/-- The entry `q` of cluster `n` starts, writes handle `h` as `bit` says and is done. -/
def State.StartWrites (s : State) (n : Fin 32) (q : QEnt) (h : Nat) (bit : Nat → Bool) : Prop :=
  ∃ t, exec (.entryStart n .control) s = .next t
    ∧ (∀ i, i < 64 → ((t.cluster n.val).handle h).getLsbD i = bit i)
    ∧ (∀ k, k ≠ h → (t.cluster n.val).handle k = (s.cluster n.val).handle k)
    ∧ (∃ sb, let qs := (s.cluster n.val).queue.map (fun x => if x.tag = q.tag then { x with st := .doneWork } else x)
        t.cluster n.val = { s.cluster n.val with handles := (t.cluster n.val).handles, sb := sb, queue := qs })
    ∧ (∀ k, k ≠ n.val → t.cluster k = s.cluster k) ∧ { t with clusters := s.clusters, peer := s.peer, freeCtr := s.freeCtr } = s

section
variable {s : State} {n : Fin 32} {q : QEnt}

theorem State.startWrites_of {h : Nat} {w : W64} {sb : List SbEnt} {x : Peer} {k : Nat} {bit : Nat → Bool} {r : State}
    (hr : r = { s.setCluster n.val { (s.cluster n.val).setHandle h w with sb := sb } with peer := x, freeCtr := k })
    (e : exec (.entryStart n .control) s = .next (r.modCluster n.val (fun c => c.modEnt q.tag (fun x => { x with st := .doneWork }))))
    (hbit : ∀ i, i < 64 → w.getLsbD i = bit i) : s.StartWrites n q h bit := by
  have ht : r.modCluster n.val (fun c => c.modEnt q.tag (fun x => { x with st := .doneWork }))
      = { s.setCluster n.val ({ (s.cluster n.val).setHandle h w with sb := sb }.modEnt q.tag (fun x => { x with st := .doneWork })) with
          peer := x, freeCtr := k } := by
    subst hr
    simp [State.modCluster, State.setCluster, State.cluster]
  rw [ht] at e
  refine ⟨_, e, fun i hi => ?_, fun j hj => ?_, ⟨sb, ?_⟩, fun j hj => State.cluster_setCluster_ne s hj _, rfl⟩
  all_goals rw [show State.cluster { s.setCluster n.val _ with peer := x, freeCtr := k } n.val = _ from State.cluster_setCluster_self s n.val _]
  · rw [← hbit i hi]
    exact congrArg (fun v : W64 => v.getLsbD i) (Tab.get_set_self _ _ _ _)
  · exact Tab.get_set_ne _ _ hj _
  · rfl

section
variable (hs : (s.cluster n.val).starting .control = some q) (hm : s.mayWork n.val q.opid = true)
include hs hm

theorem exec_entryStart_handle (hw : (∃ h w, q.work = .hset h w) ∨ (∃ h, q.work = .hclr h) ∨ ∃ h, q.work = .rclr h) :
    exec (.entryStart n .control) s = .next (s.startHandle n.val q) := by
  refine congrArg Host.Outcome.next ?_
  rw [hs]
  dsimp only
  rw [if_neg (by simp [hm])]
  obtain ⟨h, w, hw⟩ | ⟨h, hw⟩ | ⟨h, hw⟩ := hw <;> rw [hw]

theorem exec_entryStart_hset_waits {h : Nat} {w : W64} (hw : q.work = .hset h w) (hfull : (s.cluster n.val).ringHasNoEntry h w) :
    exec (.entryStart n .control) s = .next s := by
  rw [exec_entryStart_handle hs hm (.inl ⟨h, w, hw⟩), State.startHandle, hw]
  exact congrArg Host.Outcome.next (if_pos ((Cluster.ringHasNoEntry_iff _ _ _).1 hfull))

theorem startWrites_hset {h : Nat} {w : W64} (hw : q.work = .hset h w) (hroom : ¬ (s.cluster n.val).ringHasNoEntry h w) :
    s.StartWrites n q h (fun i => w.getLsbD i) := by
  obtain ⟨x, k, sb, hput⟩ := s.putHandle_eq n.val h q.part q.opid w
  refine State.startWrites_of hput ?_ (fun _ _ => rfl)
  rw [exec_entryStart_handle hs hm (.inl ⟨h, w, hw⟩), State.startHandle, hw]
  exact congrArg Host.Outcome.next (if_neg (fun hc => hroom ((Cluster.ringHasNoEntry_iff _ _ _).2 hc)))

theorem startWrites_hclr {h : Nat} (hw : q.work = .hclr h) :
    s.StartWrites n q h (fun i => decide (i ≠ 63) && ((s.cluster n.val).handle h).getLsbD i) := by
  obtain ⟨x, k, sb, hput⟩ := s.putHandle_eq n.val h q.part q.opid (putBit ((s.cluster n.val).handle h) 63 false)
  refine State.startWrites_of hput ?_ (fun i hi => ?_)
  · rw [exec_entryStart_handle hs hm (.inr (.inl ⟨h, hw⟩)), State.startHandle, hw]
  · rw [getLsbD_putBit_false _ _ hi, Bool.and_comm]

theorem startWrites_rclr {h : Nat} (hw : q.work = .rclr h) :
    s.StartWrites n q h (fun i => !decide (4 ≤ i ∧ i < 22) && ((s.cluster n.val).handle h).getLsbD i) := by
  obtain ⟨x, hclear⟩ := s.clearRing_eq n.val h
  refine State.startWrites_of (sb := (s.cluster n.val).sb) (k := s.freeCtr) hclear ?_ (fun i hi => ?_)
  · rw [exec_entryStart_handle hs hm (.inr (.inr ⟨h, hw⟩)), State.startHandle, hw]
  · rw [getLsbD_setBits]
    by_cases hc : 4 ≤ i ∧ i < 22
    · rw [if_pos (by omega)]
      simp [hc]
    · rw [if_neg (by omega)]
      simp [hc]

end
end

/-- Settles O16: `startWrites_hset`, `startWrites_hclr`, `startWrites_rclr`. That a ring waits for a scoreboard entry is the model's (log entry 121). -/
theorem handleWrites : Obligations.HandleWrites := by
  intro s n q hs hm
  refine ⟨fun h w hw => ⟨fun hroom => startWrites_hset hs hm hw ?_, fun hring hfull => exec_entryStart_hset_waits hs hm hw ⟨hring, hfull⟩⟩,
    fun h hw => startWrites_hclr hs hm hw, fun h hw => startWrites_rclr hs hm hw⟩
  rintro ⟨hring, hfull⟩
  exact hroom.elim (fun hno => Bool.noConfusion (hno.symm.trans hring)) (fun hno => hno hfull)

end Sys2Proof.Machine
end

section
/-! SUPPORT. Tensor instructions at issue (R212, R214, R216 to R219): one whose checks pass joins the queues of `CMASK`. -/

namespace Sys2Proof.Machine

/-! The queues -/

/-- The cluster with one more entry in its queue. -/
def Cluster.takes (c : Cluster) (sp : Nat) (x : Pair) (eng : Engine) (work : QWork) (tick : W64) (xl : List TlbEnt) : Cluster :=
  { c with queue := c.queue ++ [newEnt c.nextTag (x.op.getD 0) sp x.part eng work tick xl], nextTag := (c.nextTag + 1) % 65536 }

theorem State.enqueue_clusters (s : State) (sp : Nat) (x : Pair) (cmask : BitVec 4) (eng : Engine) (work : QWork) (xl : List TlbEnt) :
    ∃ cs, s.enqueue sp x cmask eng work xl = { s with clusters := cs }
      ∧ ∀ n, ({ s with clusters := cs } : State).cluster n
        = if n / 4 = sp ∧ cmask.getLsbD (n % 4) = true then (s.cluster n).takes sp x eng work s.clk.tick xl else s.cluster n := by
  obtain ⟨hcl, hrest⟩ := State.foldl_modCluster (fun s _ c => c.takes sp x eng work s.clk.tick xl) (fun s t h => by rw [h])
    (maskClusters sp cmask) (nodup_maskClusters sp cmask) s
  have e : s.enqueue sp x cmask eng work xl = { s with clusters := (s.enqueue sp x cmask eng work xl).clusters } :=
    congrArg (fun z : State => { z with clusters := (s.enqueue sp x cmask eng work xl).clusters }) hrest
  refine ⟨_, e, fun n => ?_⟩
  rw [← e]
  exact (hcl n).trans (if_congr (mem_maskClusters sp cmask n) rfl rfl)

/-- The translations of several operands touch the TLBs and nothing else. -/
theorem State.foldl_touchOpd (s : State) (os : List Opd) : ∃ t, os.foldl State.touchOpd s = { s with tr := t } := by
  induction os generalizing s with
  | nil => exact ⟨s.tr, rfl⟩
  | cons o os ih =>
    obtain ⟨t, ht⟩ := s.touchOpd_eq o
    obtain ⟨t', ht'⟩ := ih ({ s with tr := t })
    exact ⟨t', by rw [List.foldl_cons, ht, ht']⟩

theorem State.modPair_eq {s : State} {k : Nat} {x : Pair} (h : s.pair k = x) (f : Pair → Pair) : s.modPair k f = s.setPair k (f x) := by
  rw [← h]
  rfl

/-! What a tensor instruction leaves -/

/-- The pair after a tensor instruction. -/
def Pair.wentOn (x : Pair) (vruns : Nat) : Pair := ({ x with vruns := x.vruns + vruns } : Pair).retire (x.pc + 1)

section
variable {s : State} {u : Issue} {cmask : BitVec 4} {eng : Engine} {work : QWork} {xl : List TlbEnt} {tr : Tr}

/-- The state after a tensor instruction whose translations left the TLBs as `tr`. -/
theorem State.joined (vruns : Nat) (htr : eng ≠ .stream → tr = s.tr) :
    s.Joined ((({ s with tr := tr } : State).enqueue u.sp.val (s.issuer u) cmask eng work xl).setPair u.sp.val ((s.issuer u).wentOn vruns))
      u cmask eng work vruns xl := by
  obtain ⟨cs, e, hcl⟩ := ({ s with tr := tr } : State).enqueue_clusters u.sp.val (s.issuer u) cmask eng work xl
  rw [e]
  have hcl' (n : Nat) : ((({ s with tr := tr, clusters := cs } : State)).setPair u.sp.val ((s.issuer u).wentOn vruns)).cluster n = _ := hcl n
  refine ⟨fun n hn hm => ?_, fun n hn => ?_, fun n => ?_, ?_, ?_, ?_, fun k hk => State.pair_setPair_ne _ hk _, htr, rfl⟩
  · rw [hcl' n, if_pos ⟨hn, hm⟩]
    rfl
  · rw [hcl' n, if_neg hn]
    rfl
  · rw [hcl' n]
    split <;> rfl
  · rw [State.pair_setPair_self]
    exact Pair.counted_retire (x := s.issuer u) (y := { s.issuer u with vruns := (s.issuer u).vruns + vruns }) rfl rfl _
  · rw [State.pair_setPair_self]
    rfl
  · rintro x rfl
    rw [State.pair_setPair_self]
    rfl

/-- R213, R219, R225: what `TensorReady` is for. -/
theorem State.TensorReady.issues (h : s.TensorReady u cmask) :
    ({ s with tr := tr } : State).issueTensor u.sp.val (s.issuer u) cmask eng work xl
      = .done (({ s with tr := tr } : State).enqueue u.sp.val (s.issuer u) cmask eng work xl) := by
  obtain ⟨hclusters, hlent, hqueues, hlink⟩ := h
  have hc : ({ s with tr := tr } : State).clusterBad u.sp.val cmask = false := hclusters
  have hl : ((s.issuer u).recalled && ({ s with tr := tr } : State).namesLent u.sp.val cmask) = false := Bool.and_eq_false_iff.2 hlent
  have hq : (({ s with tr := tr } : State).queueFull u.sp.val cmask || ({ s with tr := tr } : State).linkFull) = false := Bool.or_eq_false_iff.2 ⟨hqueues, hlink⟩
  rw [State.issueTensor, hc, hl, hq]
  rfl

variable (hruns : s.Runs u) (hready : s.TensorReady u cmask) {c : Instr} {f : State → Nat → Pair → Lz} (hc : exec c s = .next (s.issue u f))
include hruns hready hc

/-- A tensor instruction that comes to `issueTensor`. -/
theorem State.joins_of_issueTensor (htr : eng ≠ .stream → tr = s.tr)
    (hf : f s u.sp.val (s.issuer u) = ({ s with tr := tr } : State).issueTensor u.sp.val (s.issuer u) cmask eng work xl) :
    ∃ t, exec c s = .next t ∧ s.Joined t u cmask eng work 0 xl := by
  obtain ⟨cs, e, -⟩ := ({ s with tr := tr } : State).enqueue_clusters u.sp.val (s.issuer u) cmask eng work xl
  have hpair : (({ s with tr := tr } : State).enqueue u.sp.val (s.issuer u) cmask eng work xl).pair u.sp.val = s.issuer u := by
    rw [e]
    rfl
  have hissue := State.issue_done hruns (hf.trans hready.issues)
  rw [hpair] at hissue
  exact ⟨_, hc.trans (congrArg _ hissue), State.joined 0 htr⟩

end

section
variable {s : State} {u : Issue} (hruns : s.Runs u)
include hruns

/-- R214: MXRUN and MXEW. -/
theorem exec_mx (ew : Bool) {f : MxF} {lt : Option Nat} (hready : s.TensorReady u f.cmask) (hlt : (s.issuer u).loopRef f.lt = some lt)
    (hbad : mxBad s.part ew f ((s.issuer u).readD f.ds.val) ((s.issuer u).readD f.db.val) ((s.issuer u).readD f.dout.val) lt = none)
    (hloop : s.loopBadIn (maskClusters u.sp.val f.cmask) lt = false)
    (hhandle : ∀ n ∈ maskClusters u.sp.val f.cmask, mxHandleBad (s.cluster n).seen ew f (TDesc.ofBits ((s.issuer u).readD f.ds.val).v)
      (TDesc.ofBits ((s.issuer u).readD f.db.val).v) lt.isSome = false) :
    ∃ t, exec (if ew then .mxew u f else .mxrun u f) s = .next t
      ∧ s.Joined t u f.cmask .array (.mx ew ((s.issuer u).readD f.ds.val).v ((s.issuer u).readD f.db.val).v ((s.issuer u).readD f.dout.val).v lt
        f.gang.toNat f.pm.toNat f.acc.toNat f.rlb f.rls) 0 [] := by
  have hmx : exec (if ew then .mxew u f else .mxrun u f) s = .next (s.mx u f ew) := by cases ew <;> rfl
  refine State.joins_of_issueTensor (tr := s.tr) hruns hready hmx (fun _ => rfl) ?_
  dsimp only
  rw [hlt]
  dsimp only
  rw [hbad]
  dsimp only
  rw [hloop, hready.clusters, List.any_eq_false.2 (fun n hn => ne_true_of_eq_false (hhandle n hn))]
  rfl

/-- R216: VRUN. -/
theorem exec_vrun {f : VxF} {lt : Option Nat} (hready : s.TensorReady u f.cmask) (hlt : (s.issuer u).loopRef f.lt = some lt)
    (hin : 8 * f.chain.toNat + 40 ≤ 0x20000) {chain : BitVec 320} (hchain : chain = BitVec.ofNat 320 (readLe (s.issuer u).data (8 * f.chain.toNat) 40))
    {vb vc : Option (BitVec 512)} (hvb : vb = if f.ben then some ((s.issuer u).readD f.ib.val).v else none)
    (hvc : vc = if f.cen then some ((s.issuer u).readD f.ic.val).v else none)
    (hbad : vxBad s.part f chain ((s.issuer u).readD f.ia.val) ((s.issuer u).readD f.io.val) ((s.issuer u).readD f.ib.val)
      ((s.issuer u).readD f.ic.val) = none)
    (hloop : s.loopBadIn (maskClusters u.sp.val f.cmask) lt = false)
    (hhandle : ∀ n ∈ maskClusters u.sp.val f.cmask, vxHandleBad (s.cluster n).seen f.rla lt.isSome
      (VxOpds.of chain ((s.issuer u).readD f.ia.val).v ((s.issuer u).readD f.io.val).v vb vc (s.issuer u).latchG 0) = false) :
    ∃ tile t, exec (.vrun u f) s = .next t ∧ s.Joined t u f.cmask .vector (.vx chain ((s.issuer u).readD f.ia.val).v
      ((s.issuer u).readD f.io.val).v vb vc lt f.rla (s.issuer u).latchG tile) 1 [] := by
  subst hchain hvb hvc
  obtain ⟨tile, htile⟩ : ∃ tile, tile = (((s.csr u.sp.val 0x015).getD 0).toNat % 256 * 2 ^ 24 + (s.issuer u).vruns % 2 ^ 24) := ⟨_, rfl⟩
  obtain ⟨work, hwork⟩ : ∃ work : QWork, work = .vx (BitVec.ofNat 320 (readLe (s.issuer u).data (8 * f.chain.toNat) 40))
    ((s.issuer u).readD f.ia.val).v ((s.issuer u).readD f.io.val).v (if f.ben then some ((s.issuer u).readD f.ib.val).v else none)
    (if f.cen then some ((s.issuer u).readD f.ic.val).v else none) lt f.rla (s.issuer u).latchG tile := ⟨_, rfl⟩
  obtain ⟨t, ht⟩ : ∃ t, t = s.enqueue u.sp.val (s.issuer u) f.cmask .vector work := ⟨_, rfl⟩
  have hpair : t.pair u.sp.val = s.issuer u := by
    obtain ⟨cs, e, -⟩ := s.enqueue_clusters u.sp.val (s.issuer u) f.cmask .vector work []
    rw [ht, e]
    rfl
  have hissues : s.issueTensor u.sp.val (s.issuer u) f.cmask .vector work = .done t := ht ▸ hready.issues (tr := s.tr)
  have e : exec (.vrun u f) s = .next (t.setPair u.sp.val ((s.issuer u).wentOn 1)) := by
    refine congrArg Host.Outcome.next (State.issue_setPair (y := { s.issuer u with vruns := (s.issuer u).vruns + 1 }) hruns ?_)
    dsimp only
    rw [if_neg (Nat.not_lt.2 hin), hlt]
    dsimp only
    rw [hbad]
    dsimp only
    rw [hloop, hready.clusters, List.any_eq_false.2 (fun n hn => ne_true_of_eq_false (hhandle n hn)), ← htile, ← hwork, hissues]
    exact congrArg Lz.done (State.modPair_eq hpair _)
  refine ⟨tile, _, e, ?_⟩
  rw [ht, ← hwork]
  exact State.joined (tr := s.tr) 1 (fun _ => rfl)

variable {cmask : BitVec 4} (hready : s.TensorReady u cmask)
include hready

/-- R217: SXQ; the gather's bases are translated when they are used (R186). -/
theorem exec_sxq {dd : Fin 32} {d : SDesc} (hd : d = SDesc.ofBits ((s.issuer u).readD dd.val).v) (hkind : ((s.issuer u).readD dd.val).kind = 2)
    (hbad : s.sxBad (s.setOf (s.issuer u)) (s.issuer u).part ((s.issuer u).readD dd.val).v = none)
    (hlist : ∀ n ∈ maskClusters u.sp.val cmask, (s.cluster n).seen.listOk d = true)
    (hpages : d.gather = true ∨ (s.judgeStream (maskClusters u.sp.val cmask) (s.issuer u).part d).1 = .ok) :
    ∃ t, exec (.sxq u dd cmask) s = .next t ∧ s.Joined t u cmask .stream (.sx ((s.issuer u).readD dd.val).v) 0
      (s.streamXl (s.cluster ((maskClusters u.sp.val cmask).headD 0)) (s.issuer u).part d) := by
  obtain ⟨tr, htr⟩ : ∃ tr, (if d.gather then s else
      (d.memRuns (s.cluster ((maskClusters u.sp.val cmask).headD 0)) (s.issuer u).part).foldl State.touchOpd s) = { s with tr := tr } := by
    split
    · exact ⟨s.tr, rfl⟩
    · exact s.foldl_touchOpd _
  obtain ⟨va, hjudge⟩ : ∃ va, (if d.gather then (.ok, 0) else s.judgeStream (maskClusters u.sp.val cmask) (s.issuer u).part d) = (Verdict.ok, va) := by
    by_cases hg : d.gather = true
    · exact ⟨0, if_pos hg⟩
    · exact ⟨_, (if_neg hg).trans (Prod.ext (hpages.resolve_left hg) rfl)⟩
  refine State.joins_of_issueTensor (tr := tr) hruns hready rfl (fun h => absurd rfl h) ?_
  dsimp only
  rw [if_neg (by simp [hkind]), hbad]
  dsimp only
  rw [hready.clusters, ← hd, List.any_eq_false.2 (fun n hn => by simp [hlist n hn]), hjudge, ← htr]
  rfl

/-- R218: LTW. -/
theorem exec_ltw {dd : Fin 32} {a : Fin 64} (hkind : ((s.issuer u).readD dd.val).kind = 3) (halign : ((s.issuer u).readG a.val).toNat % 128 = 0)
    (hin : ((s.issuer u).readG a.val).toNat + 128 ≤ 0x20000) :
    ∃ t, exec (.ltw u dd a cmask) s = .next t ∧ s.Joined t u cmask .control
      (.ltw ((s.issuer u).readD dd.val).tab (BitVec.ofNat 1024 (readLe (s.issuer u).data ((s.issuer u).readG a.val).toNat 128))) 0 [] := by
  have hzero : (s.issuer u).readG a.val + immVal 0 = (s.issuer u).readG a.val := BitVec.add_zero _
  have haddr : (s.issuer u).dataAddr a 0 128 128 = some ((s.issuer u).readG a.val).toNat := by
    rw [Pair.dataAddr_ok (hzero.symm ▸ halign) (hzero.symm ▸ hin), hzero]
  refine State.joins_of_issueTensor (tr := s.tr) hruns hready rfl (fun _ => rfl) ?_
  dsimp only
  rw [haddr]
  dsimp only
  rw [if_neg (by simp [hkind])]

/-- R218: HSET. -/
theorem exec_hset {h : Byte} {a : Fin 64} (hkind : hKind ((s.issuer u).readG a.val) ≠ 2 ∨ s.part.optP = true)
    (hhandle : ∀ n ∈ maskClusters u.sp.val cmask,
      handleBad (s.cluster n) h.toNat (handleWord ((s.issuer u).readG a.val) ||| ((s.issuer u).readG a.val &&& 15)) = false) :
    ∃ t, exec (.hset u h a cmask) s = .next t ∧ s.Joined t u cmask .control (.hset h.toNat (handleWord ((s.issuer u).readG a.val))) 0 [] := by
  have hpart : (decide (hKind ((s.issuer u).readG a.val) = 2) && !s.part.optP) = false := by
    obtain hk | hp := hkind
    · simp [hk]
    · simp [hp]
  refine State.joins_of_issueTensor (tr := s.tr) hruns hready rfl (fun _ => rfl) ?_
  dsimp only
  rw [hready.clusters, hpart, List.any_eq_false.2 (fun n hn => ne_true_of_eq_false (hhandle n hn))]
  rfl

/-- R218: HCLR. -/
theorem exec_hclr {h : Byte} (hfree : ∀ n ∈ maskClusters u.sp.val cmask, (s.cluster n).names h.toNat = false) :
    ∃ t, exec (.hclr u h cmask) s = .next t ∧ s.Joined t u cmask .control (.hclr h.toNat) 0 [] := by
  refine State.joins_of_issueTensor (tr := s.tr) hruns hready rfl (fun _ => rfl) ?_
  rw [hready.clusters, List.any_eq_false.2 (fun n hn => ne_true_of_eq_false (hfree n hn))]
  rfl

/-- R218: RCLR. -/
theorem exec_rclr {h : Byte} (hring : ∀ n ∈ maskClusters u.sp.val cmask, (s.cluster n).names h.toNat = false ∧ hRing ((s.cluster n).handle h.toNat) = true) :
    ∃ t, exec (.rclr u h cmask) s = .next t ∧ s.Joined t u cmask .control (.rclr h.toNat) 0 [] := by
  refine State.joins_of_issueTensor (tr := s.tr) hruns hready rfl (fun _ => rfl) ?_
  rw [hready.clusters, List.any_eq_false.2 (fun n hn => by simp [hring n hn])]
  rfl

end

/-- Settles O15, instruction by instruction: each comes to `issueTensor`, and `State.joined` says what that leaves. -/
theorem tensorIssue : Obligations.TensorIssue := by
  intro s u cmask h hready
  refine ⟨fun f ew lt hcm hlt => ?_, fun f lt hcm hlt hin => ?_, fun dd hkind hbad => exec_sxq h hready rfl hkind hbad,
    fun dd a => exec_ltw h hready, fun b a => exec_hset h hready, fun b => exec_hclr h hready, fun b => exec_rclr h hready⟩
  · subst hcm
    exact exec_mx h ew hready hlt
  · subst hcm
    exact exec_vrun h hready hlt hin rfl rfl rfl

end Sys2Proof.Machine
end

section
/-! SUPPORT. RUN_PROGRAM (R237, R238): its admission takes the pairs of its clusters, and the end of the load starts them. -/

namespace Sys2Proof.Machine

/-! Pairs changed one by one -/

/-- A fold that changes each pair of a list once. -/
theorem State.foldl_modPair (f : Pair → Pair) {ks : List Nat} (hks : ks.Nodup) (s : State) :
    ∃ t, ks.foldl (fun s k => s.modPair k f) s = { s with pairs := t }
      ∧ ∀ k, (ks.foldl (fun s k => s.modPair k f) s).pair k = if k ∈ ks then f (s.pair k) else s.pair k := by
  induction ks generalizing s with
  | nil => exact ⟨s.pairs, rfl, fun k => by simp⟩
  | cons m ks ih =>
    obtain ⟨hm, hks⟩ := List.nodup_cons.1 hks
    obtain ⟨t, ht, hpair⟩ := ih hks (s.modPair m f)
    refine ⟨t, ht, fun k => (hpair k).trans ?_⟩
    by_cases hk : k = m
    · subst hk
      simp [hm]
    · simp [hk, State.pair_modPair_ne s hk]

theorem nodup_pairsOf (m : BitVec 32) : (pairsOf m).Nodup := List.nodup_range.filter _

/-! Admission (R296, R303, R443) -/

/-- A command that nothing holds back takes its effect in the state as it is. -/
theorem State.ringRow_admits {s : State} {op : Nat} {c : Cmd} {x : Staged} (h : s.Admits op c x) (effect : State → Nat → Cmd → State) :
    s.ringRow op c effect = effect s x.part c := by
  obtain ⟨hserving, hop, hstaged, hadm, hseq, hres⟩ := h
  have hpresent : s.present c = s := if_pos (by rw [hstaged]; rfl)
  unfold State.ringRow
  rw [if_neg (by simp [hserving, hop])]
  dsimp only
  rw [hpresent, hstaged]
  dsimp only
  rw [hadm]
  dsimp only
  rw [hseq]
  dsimp only
  rw [hres]

theorem State.traceAt_eq (s : State) (fc : BitVec 48) (tick : W64) (type part : Nat) (unit : Byte) (opid : W32) (a0 a1 : Nat) :
    ∃ tr, s.traceAt fc tick type part unit opid a0 a1 = { s with trc := tr } := by
  unfold State.traceAt
  dsimp only
  split
  · exact ⟨s.trc, rfl⟩
  · split <;> exact ⟨_, rfl⟩

/-- The state after the admission of an operation that counts for no sequence. -/
def State.tookOp (s : State) (c : Cmd) (o : Op) (tr : Trc) : State :=
  { (s.takeOpid.2.unstage c).modWeir (fun w => { w with order := w.order + 1 }) with
    trc := tr
    hw := { (s.takeOpid.2.unstage c).hw with ops := s.hw.ops ++ [o] } }

theorem State.tookOp_ops (s : State) (c : Cmd) (o : Op) (tr : Trc) : (s.tookOp c o tr).hw.ops = s.hw.ops ++ [o] := rfl

theorem State.tookOp_pairs (s : State) (c : Cmd) (o : Op) (tr : Trc) : (s.tookOp c o tr).pairs = s.pairs := by
  dsimp only [State.tookOp, State.modWeir, State.unstage, State.unwait, State.modSig, State.modHw, State.takeOpid]

theorem State.tookOp_clusters (s : State) (c : Cmd) (o : Op) (tr : Trc) : (s.tookOp c o tr).clusters = s.clusters := by
  dsimp only [State.tookOp, State.modWeir, State.unstage, State.unwait, State.modSig, State.modHw, State.takeOpid]

theorem State.admitOp_program (s : State) (p : Nat) {c : Cmd} (hop : opcodeOf c = 0x0F) :
    ∃ o tr, s.admitOp p c = (o, s.tookOp c o tr) ∧ o.opid = s.hw.nextOpid ∧ o.cmd = c ∧ o.part = p ∧ o.loaded = false := by
  obtain ⟨o, fc, tick, e, hopid, hcmd, hpart, hloaded⟩ : ∃ o fc tick, s.admitOp p c = (o, (s.takeOpid.2.unstage c).startOpAt o fc tick)
      ∧ o.opid = s.hw.nextOpid ∧ o.cmd = c ∧ o.part = p ∧ o.loaded = false := ⟨_, _, _, rfl, rfl, rfl, rfl, rfl⟩
  obtain ⟨tr, htr⟩ := (((s.takeOpid.2.unstage c).modHw (fun h => { h with ops := h.ops ++ [o] })).modWeir (fun w => { w with order := w.order + 1 })).traceAt_eq
    fc tick 0x01 o.part 0x80 o.opid (opcodeOf o.cmd + sqidOf o.cmd * 2 ^ 8) (layerOf o.cmd)
  refine ⟨o, tr, ?_, hopid, hcmd, hpart, hloaded⟩
  rw [e, State.startOpAt, htr, if_pos (by simp [hcmd, hop])]
  rfl

/-- Shares change the operation's record, the requested clocks and Weir. -/
theorem State.grantShares_eq (s : State) (o : Op) (k : Nat) :
    ∃ sh c w, s.grantShares o k = ((s.setOp { o with shares := sh }).modClk (fun _ => c)).modWeir (fun _ => w) := by
  obtain ⟨ks, hks⟩ : ∃ ks, ks = ((setList (o.clusters &&& ~~~o.shares &&& ~~~o.lent)).filter s.inService).take k := ⟨_, rfl⟩
  obtain ⟨sh, hsh⟩ : ∃ sh, sh = ks.foldl (fun w n => w ||| oneHot 32 n) o.shares := ⟨_, rfl⟩
  obtain ⟨c, hc⟩ := State.requestClocks_eq ks (s.setOp { o with shares := sh })
  refine ⟨sh, c, { s.weir with prewoken := s.weir.prewoken &&& ~~~sh }, ?_⟩
  rw [State.grantShares]
  dsimp only
  rw [← hks, ← hsh, hc]
  rfl

/-- R238: a RUN_PROGRAM whose image passes its checks. -/
theorem State.runProgram_starts {s : State} {p a : Nat} {c : Cmd} (ha : s.cfg.active.imageVa c = some a) (hj : s.judgeImage a = .ok)
    (hfit : imageUnfitted s.part (BitVec.ofNat 512 (s.vaNat 16 a 64)) = false) (hhead : imageHeaderBad (BitVec.ofNat 512 (s.vaNat 16 a 64)) = false)
    (hcrc : s.imageCrcBad a (BitVec.ofNat 512 (s.vaNat 16 a 64)) = false) : s.runProgram p c = s.startProgram p c := by
  unfold State.runProgram
  dsimp only
  rw [ha]
  dsimp only
  rw [hj]
  dsimp only
  rw [hfit, hhead, hcrc]
  rfl

/-- The pair that loads the image of operation `opid`. -/
def Pair.loads (x : Pair) (opid : W32) (p : Nat) : Pair := { x with op := some opid, part := p, st := .loading }

theorem State.startProgram_spec {s : State} {p : Nat} {c : Cmd} (hop : opcodeOf c = 0x0F) (hfresh : s.Fresh)
    (hidle : s.pairsIdle (s.programClusters p c) = true) :
    s.Took (s.startProgram p c) c
      ∧ (∃ o, (s.startProgram p c).op s.hw.nextOpid = some o ∧ o.cmd = c ∧ o.part = p ∧ o.clusters = s.programClusters p c ∧ o.loaded = false)
      ∧ (∀ k, (s.startProgram p c).pair k
          = if k ∈ pairsOf (s.programClusters p c) then (s.pair k).loads s.hw.nextOpid p else s.pair k)
      ∧ (s.startProgram p c).clusters = s.clusters := by
  obtain ⟨o, tr, hadmit, hopid, hcmd, hpart, hloaded⟩ := s.admitOp_program p hop
  obtain ⟨o', ho'⟩ : ∃ o', o' = { o with clusters := s.programClusters p c } := ⟨_, rfl⟩
  have hopid' : o'.opid = s.hw.nextOpid := by rw [ho', ← hopid]
  obtain ⟨u, hu⟩ : ∃ u, u = (s.tookOp c o tr).setOp o' := ⟨_, rfl⟩
  have huop : u.op o'.opid = some o' := by
    have hnew : (s.tookOp c o tr).op o.opid = some o := (State.op_append (s.tookOp_ops c o tr) (fun x hx => hopid ▸ hfresh.1 x hx)).1
    rw [hu]
    exact State.op_setOp (y := o) (by rw [ho']; exact hnew)
  have hupairs : u.pairs = s.pairs := hu ▸ s.tookOp_pairs c o tr
  have huclusters : u.clusters = s.clusters := hu ▸ s.tookOp_clusters c o tr
  obtain ⟨t, ht, hpair⟩ := State.foldl_modPair (·.loads o.opid p) (nodup_pairsOf (s.programClusters p c)) u
  obtain ⟨sh, ck, w, hshare⟩ := ({ u with pairs := t } : State).grantShares_eq o' (({ u with pairs := t } : State).sharesFree o'.part (workClass o'.cmd))
  have e : s.startProgram p c = ((({ u with pairs := t } : State).setOp { o' with shares := sh }).modClk (fun _ => ck)).modWeir (fun _ => w) := by
    rw [← hshare, State.startProgram]
    dsimp only
    rw [if_neg (by simp [hidle]), hadmit]
    dsimp only
    rw [← ho', ← hu]
    have hfold : (pairsOf (s.programClusters p c)).foldl (fun s k => s.modPair k (fun x => { x with op := some o.opid, part := p, st := .loading })) u
        = { u with pairs := t } := ht
    rw [hfold, State.share, show ({ u with pairs := t } : State).op o.opid = some o' from by rw [hopid, ← hopid']; exact huop]
  have hop' : ((({ u with pairs := t } : State).setOp { o' with shares := sh }).modClk (fun _ => ck)).op o'.opid = some { o' with shares := sh } :=
    State.op_setOp (s := { u with pairs := t }) (o := { o' with shares := sh }) huop
  rw [e]
  refine ⟨⟨State.stagedFor_unstaged (s := s.takeOpid.2) ?_, ?_⟩, ⟨{ o' with shares := sh }, ?_, ?_, ?_, ?_, ?_⟩, fun k => ?_, ?_⟩
  · subst hu
    rfl
  · subst hu
    rfl
  · rw [← hopid']
    exact hop'
  · rw [ho']
    exact hcmd
  · rw [ho']
    exact hpart
  · rw [ho']
  · rw [ho']
    exact hloaded
  · have hk : ({ u with pairs := t } : State).pair k = _ := (congrArg (State.pair · k) ht.symm).trans (hpair k)
    have huk : u.pair k = s.pair k := congrArg (Tab.get Pair.reset · k) hupairs
    refine hk.trans ?_
    rw [huk, hopid]
  · exact huclusters

/-! The end of the load (R201, R202, R237, R238) -/

theorem State.vaRead_zero (s : State) (space va : Nat) : s.vaRead space va 0 = [] := List.eq_nil_of_length_eq_zero (s.length_vaRead _ _ _)

/-- The pair of operation `o` once its image, with header `h`, is loaded. -/
def State.loadedPair (s : State) (o : Op) (a : Nat) (x : Pair) : Pair :=
  let h := BitVec.ofNat 512 (s.vaNat 16 a 64)
  let code := (List.range (bits h 64 32)).map (fun i => BitVec.ofNat 64 (s.vaNat 16 (a + 64 + 8 * i) 8))
  let y := if x.shows (imageOf o.cmd) then x else x.loadCode code (imageTag s.cfg.epoch (imageOf o.cmd))
  (y.loadData o.part (leBytes 64 o.cmd.w.toNat) (s.vaRead o.part (argsOf o.cmd) (argLenOf o.cmd))
    (s.vaRead 16 (a + 64 + 8 * bits h 64 32) (bits h 128 32))).enterProgram (bits h 96 32) (bits h 64 32)

theorem State.loadedPair_bank (s : State) (o : Op) (a : Nat) (x : Pair) : (s.loadedPair o a x).bank = !x.bank := by
  have hcode (code : List W64) (tag : W32) : (x.loadCode code tag).bank = x.bank := by
    unfold Pair.loadCode
    dsimp only
    split <;> rfl
  unfold State.loadedPair
  dsimp only
  split
  · rfl
  · exact congrArg not (hcode _ _)

/-- R201: the command stands at the start of data memory. -/
theorem Pair.loadData_cmd (x : Pair) (p : Nat) {cmd : List Byte} (hlen : cmd.length = 64) {i : Nat} (hi : i < 64) :
    byteAt (x.loadData p cmd [] []).dmem i = cmd[i] := by
  unfold Pair.loadData
  dsimp only
  rw [writeBytes, writeBytes, byteAt_writeBytes_out _ (by omega)]
  have hin := byteAt_writeBytes_in (if x.lastPart.any (fun q => q != p) then [] else x.dmem) (a := 0) (i := i) (bs := cmd) (by omega)
  rwa [Nat.zero_add] at hin

theorem State.loadedPair_cmd (s : State) (o : Op) {a : Nat} (x : Pair) (hargs : argLenOf o.cmd = 0)
    (hdata : bits (BitVec.ofNat 512 (s.vaNat 16 a 64)) 128 32 = 0) {i : Nat} (hi : i < 64) :
    byteAt (s.loadedPair o a x).dmem i = BitVec.ofNat 8 (o.cmd.w.toNat / 256 ^ i) := by
  have hlen := length_leBytes 64 o.cmd.w.toNat
  have hdmem (y : Pair) : (y.enterProgram (bits (BitVec.ofNat 512 (s.vaNat 16 a 64)) 96 32) (bits (BitVec.ofNat 512 (s.vaNat 16 a 64)) 64 32)).dmem
      = y.dmem := rfl
  unfold State.loadedPair
  dsimp only
  rw [hargs, hdata, State.vaRead_zero, State.vaRead_zero, hdmem]
  exact (Pair.loadData_cmd _ o.part hlen hi).trans (leBytes_getElem (hlen.symm ▸ hi))

theorem exec_imageLoadDone {s : State} {o : Op} {a k : Nat} (hf : s.fast = true) (ho : s.op o.opid = some o) (hop : opcodeOf o.cmd = 0x0F)
    (hl : o.loaded = false) (hst : o.st = .running) (ha : o.set.imageVa o.cmd = some a) (hk : k ∈ pairsOf o.clusters) (hended : o.ended = 0) :
    ∃ t, exec (.imageLoadDone o.opid) s = .next (({ s with pairs := t } : State).setOp { o with loaded := true })
      ∧ ∀ j, ({ s with pairs := t } : State).pair j = if j ∈ pairsOf o.clusters then s.loadedPair o a (s.pair j) else s.pair j := by
  obtain ⟨t, ht, hpair⟩ := State.foldl_modPair (s.loadedPair o a) (nodup_pairsOf o.clusters) s
  have hstays : (({ s with pairs := t } : State).setOp { o with loaded := true }).progCheck o.opid
      = ({ s with pairs := t } : State).setOp { o with loaded := true } := by
    refine State.progCheck_on (fun y hy => .inr (.inr ?_))
    have hself : (({ s with pairs := t } : State).setOp { o with loaded := true }).op o.opid = some { o with loaded := true } :=
      State.op_setOp (s := { s with pairs := t }) (o := { o with loaded := true }) ho
    obtain rfl := Option.some.inj (hself.symm.trans hy)
    rw [List.all_eq_false]
    exact ⟨k, hk, by simp [hended]⟩
  refine ⟨t, congrArg Host.Outcome.next ?_, fun j => ht ▸ hpair j⟩
  rw [ho, hf]
  dsimp only
  rw [if_neg (by simp [hop, hl, hst]), ha]
  exact (congrArg (fun r : State => (r.setOp { o with loaded := true }).progCheck o.opid) ht).trans hstays

/-- Settles O41: the admission by `State.startProgram_spec`, the start of the pairs by `exec_imageLoadDone`. -/
theorem programLoads : Obligations.ProgramLoads := by
  refine ⟨fun s c x a hadm hfresh ha hj hfit hhead hcrc hidle => ?_, fun s o a k hf ho hop hl hst ha hk hended => ?_⟩
  · have e : exec (.runProgram c) s = .next (s.startProgram x.part c) :=
      congrArg Host.Outcome.next ((State.ringRow_admits hadm _).trans (State.runProgram_starts ha hj hfit hhead hcrc))
    obtain ⟨htook, ⟨o, ho, hcmd, hpart, hclusters, hloaded⟩, hpair, hcl⟩ := State.startProgram_spec (p := x.part) hadm.opcode hfresh hidle
    refine ⟨_, o, e, htook, ho, hcmd, hpart, hclusters, hloaded, fun k hk => ?_, fun k hk => (hpair k).trans (if_neg hk), hcl⟩
    rw [hpair k, if_pos hk]
    exact ⟨rfl, rfl, rfl, rfl⟩
  · obtain ⟨t, e, hpair⟩ := exec_imageLoadDone hf ho hop hl hst ha hk hended
    refine ⟨_, e, State.op_setOp (s := { s with pairs := t }) (o := { o with loaded := true }) ho, ?_⟩
    have hk' : (({ s with pairs := t } : State).setOp { o with loaded := true }).pair k = s.loadedPair o a (s.pair k) := (hpair k).trans (if_pos hk)
    rw [hk']
    exact ⟨rfl, rfl, rfl, s.loadedPair_bank o a _, rfl, rfl, rfl, fun hargs hdata i hi => s.loadedPair_cmd o _ hargs hdata hi,
      fun j hj => (hpair j).trans (if_neg hj), rfl, rfl⟩

end Sys2Proof.Machine
end

section
/-! SUPPORT. A tick (R370, R371, R432, R443): what the always-on clock, the trace unit and the fast domain count and leave. -/

namespace Sys2Proof.Machine

/-! The trace unit's tick (R443, R444) -/

/-- A fold of steps that leave what `g` reads leaves it. -/
theorem foldl_reads {σ α β : Type} {f : σ → α → σ} {g : σ → β} (hf : ∀ s x, g (f s x) = g s) (xs : List α) (s : σ) : g (xs.foldl f s) = g s := by
  induction xs generalizing s with
  | nil => rfl
  | cons x xs ih => exact (ih _).trans (hf s x)

theorem Trc.store_dropped (t : Trc) (r : BitVec 256) : (t.store r).dropped = t.dropped := by
  unfold Trc.store
  split <;> rfl

theorem State.drainTrace_eq (s : State) : ∃ tr, s.drainTrace = { s with trc := tr } := by
  unfold State.drainTrace
  dsimp only
  split
  · exact ⟨s.trc, rfl⟩
  · split <;> exact ⟨_, rfl⟩

/-- R443: four records leave the staging queue where the trace streams to no ring and no record was lost. -/
theorem State.drainTrace_staging {s : State} (hm : s.trc.mode ≠ 2) (hd : s.trc.dropped = 0) :
    s.drainTrace.trc.staging = s.trc.staging.drop 4 := by
  have hdrop := foldl_reads (g := Trc.dropped) Trc.store_dropped (s.trc.staging.take 4) s.trc
  unfold State.drainTrace
  dsimp only
  rw [if_neg (fun h => hm (of_decide_eq_true (Bool.and_eq_true_iff.1 h).1)), if_neg (by simp [hdrop, hd])]

theorem State.drainTrace_idle {s : State} (hq : s.trc.staging = []) (hu : s.trc.unstreamed = []) (hd : s.trc.dropped = 0) : s.drainTrace = s := by
  have hkeep : ({ s.trc with staging := [] } : Trc) = s.trc := by rw [← hq]
  unfold State.drainTrace
  dsimp only
  rw [if_neg (by simp [hu, Config.traceMax]), hq, List.take_nil, List.drop_nil, List.foldl_nil, if_neg (by simp [hd]), hkeep]

/-- R444: the stream writes to memory and leaves the staging queue. -/
theorem State.streamTick_eq (s : State) : ∃ tr m, s.streamTick = { s with trc := tr, mem := m } ∧ tr.staging = s.trc.staging := by
  unfold State.streamTick
  dsimp only
  split
  · exact ⟨{ s.trc with flush := false }, s.mem, rfl, rfl⟩
  · split
    · unfold State.streamBlock
      dsimp only
      split
      · exact ⟨s.trc, s.mem, rfl, rfl⟩
      · obtain ⟨m, hm⟩ := s.vaWrite_eq 16 (bits s.trc.stream 12 40 * 4096 + 4096 * (s.trc.sTail.toNat % 2 ^ bits s.trc.stream 0 5))
          ((s.trc.unstreamed.take 128).flatMap (fun r => leBytes 32 r.toNat) ++ List.replicate (4096 - 32 * (s.trc.unstreamed.take 128).length) 0)
        rw [hm]
        exact ⟨_, m, rfl, rfl⟩
    · exact ⟨s.trc, s.mem, rfl, rfl⟩

theorem State.streamTick_idle {s : State} (hu : s.trc.unstreamed = []) (hf : s.trc.flush = false) : s.streamTick = s := by
  unfold State.streamTick
  dsimp only
  rw [if_neg (by simp [hf]), if_neg (by simp [hu, hf])]

theorem State.traceTick_eq (s : State) : ∃ tr m, s.traceTick = { s with trc := tr, mem := m } := by
  unfold State.traceTick
  split
  · obtain ⟨tr, htr⟩ := s.drainTrace_eq
    obtain ⟨tr', m, hm, -⟩ := s.drainTrace.streamTick_eq
    exact ⟨tr', m, by rw [hm, htr]⟩
  · exact ⟨s.trc, s.mem, rfl⟩

theorem State.traceTick_staging {s : State} (hr : s.boot.inReset = false) (hm : s.trc.mode ≠ 2) (hd : s.trc.dropped = 0) :
    s.traceTick.trc.staging = s.trc.staging.drop 4 := by
  obtain ⟨tr, m, e, hq⟩ := s.drainTrace.streamTick_eq
  rw [State.traceTick, if_pos (by simp [State.on, hr]), e]
  exact hq.trans (State.drainTrace_staging hm hd)

/-- R370, R443: in reset, or with nothing to write, the trace unit stands. -/
theorem State.traceTick_idle {s : State} (h : s.boot.inReset = true
    ∨ (s.trc.staging = [] ∧ s.trc.unstreamed = [] ∧ s.trc.dropped = 0 ∧ s.trc.flush = false)) : s.traceTick = s := by
  unfold State.traceTick
  split
  · obtain hr | ⟨hq, hu, hd, hf⟩ := h
    · exact absurd ‹s.on = true› (by simp [State.on, hr])
    · rw [State.drainTrace_idle hq hu hd, State.streamTick_idle hu hf]
  · rfl

/-! The fast domain's tick (R376, R388, R396) -/

/-- `s` without the counts of activity and waiting, Weir's words and the messages. -/
def State.uncounted (s : State) : State := { s with pt := [], weir := Weir.reset, ports := [], out := State.reset.out }

theorem State.countActive_uncounted (s : State) : s.countActive.uncounted = s.uncounted := by
  refine foldl_reads (fun s n => ?_) _ s
  dsimp only
  split <;> rfl

theorem State.countWaits_uncounted (s : State) : s.countWaits.uncounted = s.uncounted := by
  refine foldl_reads (fun s p => ?_) _ s
  rfl

theorem State.countFull_uncounted (s : State) : s.countFull.uncounted = s.uncounted := by
  refine foldl_reads (fun s k => ?_) _ s
  rfl

theorem State.sendDemand_uncounted (s : State) : s.sendDemand.uncounted = s.uncounted := by
  unfold State.sendDemand
  dsimp only
  split <;> rfl

theorem State.progressAll_quiet {s : State} (h : s.hw.ops = []) : s.progressAll = s := by rw [State.progressAll, h]; rfl

/-- R270: with every pool in NORMAL no measure is taken. -/
theorem State.famineActs_normal {s : State} {ps : List Nat} (h : ∀ p ∈ ps, (s.pool p).fstate = .normal) : ps.foldl State.famineAct s = s := by
  induction ps with
  | nil => rfl
  | cons p ps ih =>
    rw [List.foldl_cons, State.famineAct, if_pos (h p List.mem_cons_self)]
    exact ih (fun q hq => h q (List.mem_cons_of_mem p hq))

/-- R371: with no operation in flight and every pool in NORMAL the fast domain's tick counts. -/
theorem State.fastTick_quiet {s : State} (hops : s.hw.ops = []) (hpool : ∀ p, p < 16 → (s.pool p).fstate = .normal) :
    ∃ (u : State) (idle : Nat), s.fastTick = u.modClk (fun c => { c with idle := idle })
      ∧ u.uncounted = (s.modClk (fun c => { c with fc := c.fc + c.freq.setWidth 48 })).uncounted := by
  obtain ⟨r, hr⟩ : ∃ r, r = s.modClk (fun c => { c with fc := c.fc + c.freq.setWidth 48 }) := ⟨_, rfl⟩
  obtain ⟨u, hu⟩ : ∃ u, u = r.countActive.countWaits.countFull.sendDemand := ⟨_, rfl⟩
  have hun : u.uncounted = r.uncounted := by
    rw [hu, State.sendDemand_uncounted, State.countFull_uncounted, State.countWaits_uncounted, State.countActive_uncounted]
  have huops : u.hw.ops = [] := (congrArg (·.hw.ops) hun).trans (hr ▸ hops)
  have hupools : u.pools = s.pools := (congrArg (·.pools) hun).trans (hr ▸ rfl)
  have hgo : (if u.linkFull then u else u.progressAll) = u := by rw [State.progressAll_quiet huops, ite_self]
  have hfamine : (List.range 16).foldl State.famineAct u = u := State.famineActs_normal (fun p hp => by
    rw [State.pool, hupools]
    exact hpool p (List.mem_range.1 hp))
  refine ⟨u, if u.blockIdle then u.clk.idle + 1 else 0, ?_, hr ▸ hun⟩
  rw [State.fastTick]
  rw [← hr, ← hu, hgo, hfamine]
  rfl

/-! The tick (R432) -/

/-- The state after the always-on clock and the meter have counted a tick. -/
def State.ticked (s : State) : State := (s.modClk Clk.count).meterTick

theorem State.ticked_eq (s : State) : s.ticked = { s with clk := s.clk.count, smu := { s.smu with time :=
    (if s.part.optM && s.link.powered && decide ((s.clk.tick + 1).toNat % 6250000 = 0) then s.smu.time + 1 else s.smu.time) } } := by
  by_cases h : (s.part.optM && s.link.powered && decide ((s.clk.tick + 1).toNat % 6250000 = 0)) = true
  · rw [if_pos h]
    exact if_pos h
  · rw [if_neg h]
    exact if_neg h

theorem State.tickOnce_eq (s : State) : s.tickOnce = if s.fast then s.ticked.traceTick.fastTick else s.ticked.traceTick := by
  obtain ⟨tr, m, htrace⟩ := s.ticked.traceTick_eq
  have hfast : s.ticked.traceTick.fast = s.fast := by rw [htrace, s.ticked_eq]; rfl
  exact congrArg (fun b : Bool => if b then s.ticked.traceTick.fastTick else s.ticked.traceTick) hfast

/-- Settles O26: the tick by `State.ticked_eq` and the trace unit's own lemmas, the fast domain by `State.fastTick_quiet`. That a step on an empty
queue is a tick is the model's choice (log entry 3). -/
theorem idleTicks : Obligations.IdleTicks := by
  intro s hq clk
  have hstep : step s = .next s.tickOnce := step_nil hq
  obtain ⟨u, hu⟩ : ∃ u, u = s.ticked := ⟨_, rfl⟩
  have hueq := hu.trans s.ticked_eq
  obtain ⟨tr, m, htrace⟩ := u.traceTick_eq
  refine ⟨fun hf => ⟨u.traceTick, ?_, ?_, fun hidle => ?_, fun hr hm hd => ?_, ?_⟩, fun hf hops hpool => ?_⟩
  · rw [hstep, s.tickOnce_eq, if_neg (by simp [hf]), hu]
  · rw [htrace, hueq]
    rfl
  · rw [State.traceTick_idle (s := u) (by rw [hueq]; exact hidle), hueq]
    exact ⟨rfl, rfl⟩
  · rw [State.traceTick_staging (s := u) (by rw [hueq]; exact hr) (by rw [hueq]; exact hm) (by rw [hueq]; exact hd), hueq]
  · rw [htrace, hueq]
  · have huops : u.traceTick.hw.ops = [] := by rw [htrace, hueq]; exact hops
    have hupool (p : Nat) : u.traceTick.pool p = s.pool p := by rw [htrace, hueq]; rfl
    obtain ⟨v, idle, hv, hvn⟩ := State.fastTick_quiet huops (fun p hp => hupool p ▸ hpool p hp)
    rw [htrace, hueq] at hvn
    refine ⟨_, by rw [hstep, s.tickOnce_eq, if_pos hf, ← hu], ?_⟩
    rw [hv]
    exact ⟨congrArg (·.clk.tick) hvn, congrArg (·.clk.opTime) hvn, congrArg (·.clk.fc) hvn, congrArg (·.hw) hvn, congrArg (·.clusters) hvn,
      congrArg (·.pairs) hvn, congrArg (·.cfg) hvn, congrArg (·.sig) hvn⟩

end Sys2Proof.Machine
end

section
/-! SUPPORT. A state that refutes O40, and what the model answers in it. -/

namespace Sys2Proof.Machine

/-! An ATTEND of no query token (R140, R150) -/

/-- An ATTEND of sequence 3 over 5 keys of dense tensors whose NQ is 0. -/
def attendNoQuery : Cmd := ⟨0, 0, 0x05 ||| 3#512 <<< 16 ||| 2#512 <<< 312 ||| 5#512 <<< 320⟩

def attendNoQueryStaged : Staged := ⟨0, attendNoQuery, .ready, 0, [], false, false, 0, 0, none, []⟩

/-- The block of `attendBesideHeld` with that ATTEND alone in staging, no operation in flight and no copy job. -/
def attendNoQueryReady : State :=
  { attendBesideHeld with
    hw := { attendBesideHeld.hw with staged := [attendNoQueryStaged], ops := [] }
    pools := [] }

theorem attendNoQueryReady_admits : attendNoQueryReady.Admits 0x05 attendNoQuery attendNoQueryStaged :=
  ⟨by decide +kernel, by decide +kernel, by decide +kernel, by decide +kernel, by decide +kernel, by decide +kernel⟩

theorem attendNoQueryReady_fresh : attendNoQueryReady.Fresh := ⟨by decide +kernel, fun _ _ hj => absurd hj List.not_mem_nil⟩

/-- The command has keys, and nothing masks them. -/
theorem attendNoQueryReady_keys : attendNoQueryReady.linkFull = false
    ∧ attendNoQueryReady.cover attendNoQueryStaged.part (sqidOf attendNoQuery)
      (attendNoQueryReady.keyBlocks attendNoQueryStaged.part attendNoQuery (attendNoQueryReady.keyCount attendNoQueryStaged.part attendNoQuery)) = .ready
    ∧ causalOf attendNoQuery = false ∧ winOf attendNoQuery = false ∧ bmOf attendNoQuery = false
    ∧ namesPeer (attendNoQueryReady.blockOf attendNoQueryStaged.part attendNoQuery) = false
    ∧ 1 ≤ attendNoQueryReady.keyCount attendNoQueryStaged.part attendNoQuery := by decide +kernel

/-- Every segment is skipped for want of a query token, and the operation completes in the step of its admission. -/
theorem attend_attendNoQueryReady : ∃ t, exec (.attend attendNoQuery) attendNoQueryReady = .next t
    ∧ (t.op attendNoQueryReady.hw.nextOpid).isNone = true :=
  ⟨_, rfl, by decide +kernel⟩

/-- Refutes O40: it ranges over staged ATTENDs with NQ 0, which the front end refuses as malformed (R291) and the clause does not exclude. An ATTEND of
no query token skips every segment, so that it completes in the step that admits it and is not in flight. -/
theorem not_ringCommandsTaken : ¬ Obligations.RingCommandsTaken := by
  intro h
  obtain ⟨hlink, hcover, hcausal, hwin, hbm, hpeer, hkeys⟩ := attendNoQueryReady_keys
  obtain ⟨-, -, -, hattend, -⟩ := h attendNoQueryReady attendNoQuery attendNoQueryStaged hlink
  obtain ⟨t, ht, -, -, o, ho, -⟩ := hattend attendNoQueryReady_admits attendNoQueryReady_fresh hcover hcausal hwin hbm hpeer hkeys
  obtain ⟨u, hu, hnone⟩ := attend_attendNoQueryReady
  obtain rfl : t = u := Host.Outcome.next.inj (ht.symm.trans hu)
  rw [ho] at hnone
  exact Bool.noConfusion hnone

end Sys2Proof.Machine
end

section
/-! SUPPORT. States that refute O42 and O43, and what the model answers in them: OPEN groups that are marked as copies for an operation that moves
groups (R256, R263). -/

namespace Sys2Proof.Machine

/-! An EVICT whose tag marks a group (R256, R263) -/

/-- An EVICT of the first block of sequence 3. -/
def evictOne : Cmd := ⟨0, 0, 0x0A ||| 3#512 <<< 16 ||| 1#512 <<< 160⟩

def evictOneStaged : Staged := ⟨0, evictOne, .ready, 0, [], false, false, 0, 0, none, []⟩

/-- The block of `attendBesideHeld` without operations and copy jobs: the EVICT is in staging, and the group that it names is OPEN and marked as a
copy for the next tag. -/
def markedNext : State :=
  { attendBesideHeld with
    hw := { attendBesideHeld.hw with staged := [evictOneStaged], ops := [], seqs := [(3, { Seq.free with st := .idle, table := [(0, some 0)] })] }
    pools := [(0, { Pool.reset with
      recs := [(0, { PgRec.free with st := .opened, refcnt := 1, copyTo := some 1, forCmd := some attendBesideHeld.hw.nextOpid })] })] }

theorem markedNext_admits : markedNext.Admits 0x0A evictOne evictOneStaged :=
  ⟨by decide +kernel, by decide +kernel, by decide +kernel, by decide +kernel, by decide +kernel, by decide +kernel⟩

theorem markedNext_jobs (p : Nat) : (markedNext.pool p).copyJobs = [] := by
  simp only [State.pool, markedNext, Tab.get]
  split <;> rfl

theorem markedNext_fresh : markedNext.Fresh := ⟨by decide +kernel, fun p j hj => absurd (markedNext_jobs p ▸ hj) List.not_mem_nil⟩

theorem markedNext_names : ((markedNext.seq 0 (sqidOf evictOne)).range (firstOf evictOne) (nentOf evictOne)).map Prod.snd = [0]
    ∧ (markedNext.pg 0 0).evictable = false ∧ (markedNext.pg 0 0).refcnt = 1 := by decide +kernel

/-- The EVICT skips its group and ends, and what was to be a copy for its tag loses its reference. -/
theorem evict_markedNext : ∃ t, exec (.evict evictOne) markedNext = .next t ∧ (t.pg 0 0).refcnt = 0 := ⟨_, rfl, by decide +kernel⟩

/-- Refutes O42: it ranges over states in which a group is marked as a copy for the tag that no operation has yet. An EVICT that skips its only group
takes that tag and ends at once, and with it goes the group: in `markedNext` it loses its reference. -/
theorem not_copyCommands : ¬ Obligations.CopyCommands := by
  intro h
  obtain ⟨hnamed, hkept, hone⟩ := markedNext_names
  obtain ⟨-, hskip, -⟩ := h markedNext evictOne evictOneStaged 0 markedNext_fresh (fun j hj => absurd (markedNext_jobs _ ▸ hj) List.not_mem_nil)
  obtain ⟨t, ht, -, -, hpg, -⟩ := hskip markedNext_admits hnamed hkept
  obtain ⟨u, hu, hzero⟩ := evict_markedNext
  obtain rfl : t = u := Host.Outcome.next.inj (ht.symm.trans hu)
  rw [show t.pg 0 0 = _ from hpg, show (markedNext.pg evictOneStaged.part 0).refcnt = _ from hone] at hzero
  exact absurd hzero (by decide)

/-! The last copy of an EVICT whose tag marks a group (R256, R263) -/

def evictRunning : Op := newOp 9 0 evictOne onePartition 0 0 0

/-- An EVICT in flight whose one copy, of group 0, has ended, while group 1 is OPEN and marked as a copy for it. -/
def markedBeside : State :=
  { attendBesideHeld with
    hw := { attendBesideHeld.hw with staged := [], ops := [evictRunning] }
    pools := [(0, { Pool.reset with
      recs := [(0, { PgRec.free with st := .evicting, refcnt := 1, copyTo := some 0, forCmd := some 9 }),
               (1, { PgRec.free with st := .opened, refcnt := 1, copyTo := some 2, forCmd := some 9 })]
      copyJobs := [⟨9, evictOne, 1, 0, 0⟩] })] }

theorem markedBeside_ready : markedBeside.fast = true ∧ (markedBeside.pg 0 0).st = .evicting ∧ (markedBeside.pg 0 0).copyTo = some 0
    ∧ markedBeside.copyOut 0 0 = false ∧ (markedBeside.pg 0 0).refcnt ≠ 0 ∧ (markedBeside.pg 0 1).refcnt = 1 := by decide +kernel

theorem markedBeside_ample : (markedBeside.pool 0).fstate = .normal ∧ Tab.wf PgRec.free (markedBeside.pool 0).recs
    ∧ (markedBeside.desc 0).lowWm ≤ markedBeside.avail 0 := by decide +kernel

/-- The operation of the one copy job pins no group. -/
theorem markedBeside_pins : ∀ j ∈ (markedBeside.pool 0).copyJobs, ∀ x, markedBeside.op j.opid = some x → x.pins = [] := by
  intro j hj x hx
  obtain rfl : j = ⟨9, evictOne, 1, 0, 0⟩ := List.mem_singleton.1 hj
  obtain rfl : evictRunning = x := Option.some.inj hx
  rfl

/-- The EVICT completes, and what was to be a copy for it loses its reference. -/
theorem evictCopyDone_markedBeside : ∃ t, exec (.evictCopyDone 0 0 .ok) markedBeside = .next t ∧ (t.pg 0 1).refcnt = 0 := ⟨_, rfl, by decide +kernel⟩

/-- Refutes O43: it ranges over states in which a group is marked as a copy for an EVICT. The end of the last copy of that EVICT completes it, and with
it goes the group: in `markedBeside` group 1 loses its reference at the end of the copy of group 0. -/
theorem not_copiesEnd : ¬ Obligations.CopiesEnd := by
  intro h
  obtain ⟨hfast, hst, hto, hout, href, hone⟩ := markedBeside_ready
  obtain ⟨-, hevict, -⟩ := h markedBeside 0 0 9 evictRunning hfast
  obtain ⟨t, ht, -, hothers⟩ := hevict 0 hst hto hout href markedBeside_ample markedBeside_pins
  obtain ⟨u, hu, hzero⟩ := evictCopyDone_markedBeside
  obtain rfl : t = u := Host.Outcome.next.inj (ht.symm.trans hu)
  rw [show t.pg 0 1 = _ from hothers 1 (by decide), show (markedBeside.pg (0 : Fin 16).val 1).refcnt = _ from hone] at hzero
  exact absurd hzero (by decide)

end Sys2Proof.Machine
end

section
/-! SUPPORT. What the operations on page groups leave of Headwater (R249 to R270): its operations, tags, staged commands and sequences, but for marks
of famine that they clear; and what they change of the records. -/

namespace Sys2Proof.Machine

/-! Words in host memory -/

@[simp] theorem State.vaWrite_hw (s : State) (space va : Nat) (bs : List Byte) : (s.vaWrite space va bs).hw = s.hw := by
  obtain ⟨m, hm⟩ := s.vaWrite_eq space va bs
  rw [hm]

/-- A fold of steps that leave Headwater's state leaves it. -/
theorem State.foldl_hw {α : Type} {f : State → α → State} (hf : ∀ (s : State) (x : α), (f s x).hw = s.hw) (xs : List α) (s : State) :
    (xs.foldl f s).hw = s.hw :=
  foldl_reads (g := State.hw) hf xs s

/-- R252: a sequence is written, and its map in memory follows. -/
theorem State.setSeq_eq (s : State) (p q : Nat) (c : Seq) : ∃ m, s.setSeq p q c = { s.putSeq p q c with mem := m } := by
  have hfold (ws : List (Nat × List Byte)) (u : State) : ∃ m, ws.foldl (fun s w => s.vaWrite p w.1 w.2) u = { u with mem := m } := by
    induction ws generalizing u with
    | nil => exact ⟨u.mem, rfl⟩
    | cons w ws ih =>
      obtain ⟨m, hm⟩ := u.vaWrite_eq p w.1 w.2
      obtain ⟨m', hm'⟩ := ih (u.vaWrite p w.1 w.2)
      exact ⟨m', by rw [List.foldl_cons, hm', hm]⟩
  exact hfold _ _

@[simp] theorem State.setSeq_hw (s : State) (p q : Nat) (c : Seq) : (s.setSeq p q c).hw = (s.putSeq p q c).hw := by
  obtain ⟨m, hm⟩ := s.setSeq_eq p q c
  rw [hm]

@[simp] theorem State.setSeq_pools (s : State) (p q : Nat) (c : Seq) : (s.setSeq p q c).pools = s.pools := by
  obtain ⟨m, hm⟩ := s.setSeq_eq p q c
  rw [hm]
  rfl

theorem State.seq_of_seqs {s t : State} (h : t.hw.seqs = s.hw.seqs) (p q : Nat) : t.seq p q = s.seq p q := by rw [State.seq, State.seq, h]

@[simp] theorem State.seq_setSeq_self (s : State) (p q : Nat) (c : Seq) : (s.setSeq p q c).seq p q = c := by
  rw [State.seq, State.setSeq_hw]
  exact s.seq_putSeq_self p q c

theorem State.seq_setSeq_ne (s : State) {p q r : Nat} (h : r ≠ q) (c : Seq) : (s.setSeq p q c).seq p r = s.seq p r := by
  rw [State.seq, State.setSeq_hw]
  exact Tab.get_set_ne _ _ (fun he => h (Nat.add_left_cancel he)) _

@[simp] theorem State.seq_modSeq_self (s : State) (p q : Nat) (f : Seq → Seq) : (s.modSeq p q f).seq p q = f (s.seq p q) := s.seq_setSeq_self p q _

theorem State.seq_modSeq_ne (s : State) {p q r : Nat} (h : r ≠ q) (f : Seq → Seq) : (s.modSeq p q f).seq p r = s.seq p r := s.seq_setSeq_ne h _

/-! Records (R249) -/

theorem State.setPg_eq (s : State) (p g : Nat) (r : PgRec) : ∃ k m,
    s.setPg p g r = { s.modPool p (fun x => { x with recs := Tab.set PgRec.free x.recs g r }) with freeCtr := k, mem := m } := by
  obtain ⟨m, hm⟩ := (s.draw.2.modPool p (fun x => { x with recs := Tab.set PgRec.free x.recs g r })).vaWrite_eq p ((s.desc p).metaBase + 32 * g)
    (pgBytes (Config.freeRecord s.draw.1) r)
  exact ⟨s.freeCtr + 1, m, hm⟩

@[simp] theorem State.setPg_hw (s : State) (p g : Nat) (r : PgRec) : (s.setPg p g r).hw = s.hw := by
  obtain ⟨k, m, e⟩ := s.setPg_eq p g r
  rw [e]
  rfl

@[simp] theorem State.modPg_hw (s : State) (p g : Nat) (f : PgRec → PgRec) : (s.modPg p g f).hw = s.hw := s.setPg_hw p g _

@[simp] theorem State.setBucket_hw (s : State) (p b g : Nat) : (s.setBucket p b g).hw = s.hw := State.vaWrite_hw _ _ _ _

theorem State.pg_of_pools {s t : State} (h : t.pools = s.pools) (p g : Nat) : t.pg p g = s.pg p g := by rw [State.pg, State.pg, State.pool, State.pool, h]

theorem State.pg_setPg (s : State) (p g : Nat) (r : PgRec) (h : Nat) : (s.setPg p g r).pg p h = if h = g then r else s.pg p h := by
  obtain ⟨k, m, e⟩ := s.setPg_eq p g r
  rw [e]
  change Tab.get PgRec.free ((s.modPool p fun x => { x with recs := Tab.set PgRec.free x.recs g r }).pool p).recs h = _
  rw [State.pool_modPool_self]
  exact Tab.get_set PgRec.free (s.pool p).recs g h r

/-- A change of the pool that keeps its records keeps them. -/
theorem State.pg_modPool (s : State) (p : Nat) {f : Pool → Pool} (hf : ∀ x, (f x).recs = x.recs) (h : Nat) : (s.modPool p f).pg p h = s.pg p h := by
  rw [State.pg, State.pool_modPool_self, hf]
  rfl

/-! Marks of famine (R270) -/

/-- `y` is `x`, or `x` with its mark cleared. -/
def Seq.Unmarked (x y : Seq) : Prop := y = x ∨ y = { x with paused := false }

theorem Seq.Unmarked.trans {x y z : Seq} (a : x.Unmarked y) (b : y.Unmarked z) : x.Unmarked z := by
  obtain rfl | rfl := a
  · exact b
  · obtain rfl | rfl := b
    · exact .inr rfl
    · exact .inr rfl

theorem Seq.Unmarked.len {x y : Seq} (h : x.Unmarked y) : y.len = x.len := by obtain rfl | rfl := h <;> rfl
theorem Seq.Unmarked.tlen {x y : Seq} (h : x.Unmarked y) : y.tlen = x.tlen := by obtain rfl | rfl := h <;> rfl
theorem Seq.Unmarked.table {x y : Seq} (h : x.Unmarked y) : y.table = x.table := by obtain rfl | rfl := h <;> rfl
theorem Seq.Unmarked.epoch {x y : Seq} (h : x.Unmarked y) : y.epoch = x.epoch := by obtain rfl | rfl := h <;> rfl

theorem Seq.Unmarked.free {y : Seq} (h : Seq.free.Unmarked y) : y = Seq.free := h.elim id id

/-- `t` has Headwater's state as `s` has it, but for light-weight requests, records in the rings, signals that staged commands took and marks of
famine that were cleared. -/
structure State.Unmarks (s t : State) : Prop where
  rest : { t.hw with seqs := s.hw.seqs, light := s.hw.light, rings := s.hw.rings, staged := s.hw.staged } = s.hw
  cmds : t.hw.staged.map (·.cmd) = s.hw.staged.map (·.cmd)
  seqs : ∀ k, (Tab.get Seq.free s.hw.seqs k).Unmarked (Tab.get Seq.free t.hw.seqs k)

theorem State.Unmarks.of_hw {s t : State} (h : t.hw = s.hw) : s.Unmarks t := ⟨by rw [h], by rw [h], fun k => .inl (by rw [h])⟩

theorem State.Unmarks.refl (s : State) : s.Unmarks s := .of_hw rfl

theorem State.Unmarks.trans {r s t : State} (a : r.Unmarks s) (b : s.Unmarks t) : r.Unmarks t :=
  ⟨(congrArg (fun h : Hw => { h with seqs := r.hw.seqs, light := r.hw.light, rings := r.hw.rings, staged := r.hw.staged }) b.rest).trans a.rest,
    b.cmds.trans a.cmds, fun k => (a.seqs k).trans (b.seqs k)⟩

theorem State.Unmarks.foldl {α : Type} {f : State → α → State} (hf : ∀ (s : State) (x : α), s.Unmarks (f s x)) (xs : List α) (s : State) :
    s.Unmarks (xs.foldl f s) := by
  induction xs generalizing s with
  | nil => exact State.Unmarks.refl s
  | cons x xs ih => exact (hf s x).trans (ih _)

theorem State.Unmarks.of_unreported {s t : State} (h : t.unreported s = s) : s.Unmarks t := by
  have hseqs : t.hw.seqs = s.hw.seqs := congrArg (·.hw.seqs) h
  have hstaged : t.hw.staged = s.hw.staged := congrArg (·.hw.staged) h
  exact ⟨(congrArg (fun u : State => { u.hw with seqs := s.hw.seqs, rings := s.hw.rings, staged := s.hw.staged }) h :), by rw [hstaged],
    fun k => .inl (by rw [hseqs])⟩

theorem State.Unmarks.ops {s t : State} (h : s.Unmarks t) : t.hw.ops = s.hw.ops := (congrArg (fun x : Hw => x.ops) h.rest :)
theorem State.Unmarks.nextOpid {s t : State} (h : s.Unmarks t) : t.hw.nextOpid = s.hw.nextOpid := (congrArg (fun x : Hw => x.nextOpid) h.rest :)
theorem State.Unmarks.seq {s t : State} (h : s.Unmarks t) (p q : Nat) : (s.seq p q).Unmarked (t.seq p q) := h.seqs (seqKey p q)

theorem unmarked_map {f : Nat × Seq → Nat × Seq} (hkey : ∀ e, (f e).1 = e.1) (hf : ∀ e : Nat × Seq, e.2.Unmarked (f e).2) (t : Tab Seq) (k : Nat) :
    (Tab.get Seq.free t k).Unmarked (Tab.get Seq.free (t.map f) k) := by
  induction t with
  | nil => exact .inl rfl
  | cons e t ih =>
    simp only [List.map_cons, Tab.get, hkey]
    split
    · exact hf e
    · exact ih

theorem State.clearPaused_unmarks (s : State) (p : Nat) : s.Unmarks (s.clearPaused p) := by
  refine ⟨rfl, rfl, unmarked_map (f := fun (e : Nat × Seq) => if e.1 / 16384 = p then (e.1, { e.2 with paused := false }) else e)
    (fun e => ?_) (fun e => ?_) s.hw.seqs⟩
  · dsimp only
    split <;> rfl
  · dsimp only
    split
    · exact .inr rfl
    · exact .inl rfl

theorem State.judgeFamine_unmarks (s : State) (p : Nat) : s.Unmarks (s.judgeFamine p) := by
  unfold State.judgeFamine
  extract_lets d old f u
  have hu : s.Unmarks u := State.Unmarks.of_hw rfl
  split
  · exact State.Unmarks.refl s
  · split
    · exact (hu.trans (u.clearPaused_unmarks p)).trans (State.Unmarks.of_unreported (State.irqPending_told _ _ _ _ _ _).rest)
    · exact hu

/-- The judgement of a famine leaves the records. -/
theorem State.pg_judgeFamine (s : State) (p g : Nat) : (s.judgeFamine p).pg p g = s.pg p g := by
  unfold State.judgeFamine
  extract_lets d old f u
  have hu : u.pg p g = s.pg p g := s.pg_modPool p (f := fun x => { x with fstate := f, floorSeen := x.floorSeen || f = .floor }) (fun _ => rfl) g
  split
  · rfl
  · split
    · exact (State.pg_of_pools (congrArg State.pools (State.irqPending_told _ _ _ _ _ _).rest) p g).trans hu
    · exact hu

/-! References and chains (R251, R257, R259) -/

@[simp] theorem State.unhash_hw (s : State) (p g : Nat) : (s.unhash p g).hw = s.hw := by
  unfold State.unhash
  extract_lets r b u
  split
  · rfl
  · rw [State.modPg_hw]
    dsimp only [u]
    split
    · exact s.setBucket_hw p b r.next
    · split
      · exact s.modPg_hw p _ _
      · rfl

@[simp] theorem State.freeGroup_hw (s : State) (p g : Nat) : (s.freeGroup p g).hw = s.hw := by
  unfold State.freeGroup
  extract_lets u r v
  rw [State.setPg_hw]
  refine Eq.trans ?_ (s.unhash_hw p g)
  dsimp only [v]
  split <;> rfl

@[simp] theorem State.unreferenced_hw (s : State) (p g : Nat) : (s.unreferenced p g).hw = s.hw := by
  unfold State.unreferenced
  dsimp only
  split
  · rfl
  · rfl
  · split
    · rfl
    · exact s.setPg_hw p g _
  · exact s.freeGroup_hw p g
  · rfl
  · split
    · exact s.modPg_hw p g _
    · exact s.freeGroup_hw p g

theorem State.dropRef_unmarks (s : State) (p g : Nat) : s.Unmarks (s.dropRef p g) := by
  unfold State.dropRef
  extract_lets u
  refine State.Unmarks.trans (.of_hw ?_) (State.judgeFamine_unmarks _ p)
  split
  · exact (u.unreferenced_hw p g).trans (s.modPg_hw p g _)
  · exact s.modPg_hw p g _

theorem State.unpin_unmarks (s : State) (p g : Nat) : s.Unmarks (s.unpin p g) := by
  unfold State.unpin
  extract_lets u
  have hu : s.Unmarks u := .of_hw (s.modPg_hw p g _)
  split
  · exact (hu.trans (.of_hw (u.modPool_hw p _))).trans (State.judgeFamine_unmarks _ p)
  · exact hu

theorem State.dropCopies_unmarks (s : State) (o : Op) : s.Unmarks (s.dropCopies o) :=
  State.Unmarks.foldl (fun s (r : Nat × PgRec) => (State.Unmarks.of_hw (s.modPg_hw o.part r.1 _)).trans (State.dropRef_unmarks _ o.part r.1)) _ s

/-! References gained (R261) -/

theorem State.addRef_unmarks (s : State) (p g : Nat) : s.Unmarks (s.addRef p g) :=
  (State.Unmarks.of_hw (s.modPg_hw p g _)).trans (State.judgeFamine_unmarks _ p)

theorem State.addRef_refcnt (s : State) (p g h : Nat) : ((s.addRef p g).pg p h).refcnt = (s.pg p h).refcnt + if g = h then 1 else 0 := by
  rw [State.addRef, State.pg_judgeFamine, State.modPg, State.pg_setPg]
  split
  · next heq => rw [if_pos heq.symm, heq]
  · next hne => rw [if_neg (Ne.symm hne), Nat.add_zero]

/-- Each of the groups gains a reference for each time that it is named. -/
theorem State.addRefs_refcnt (p h : Nat) (gs : List Nat) (s : State) :
    ((gs.foldl (fun s g => s.addRef p g) s).pg p h).refcnt = (s.pg p h).refcnt + gs.count h := by
  induction gs generalizing s with
  | nil => rw [List.foldl_nil, List.count_nil, Nat.add_zero]
  | cons g gs ih =>
    rw [List.foldl_cons, ih, State.addRef_refcnt, List.count_cons, Nat.add_assoc, Nat.add_comm (gs.count h)]
    simp only [beq_iff_eq]

theorem State.addRefs_unmarks (p : Nat) (gs : List Nat) (s : State) : s.Unmarks (gs.foldl (fun s g => s.addRef p g) s) :=
  State.Unmarks.foldl (fun s g => s.addRef_unmarks p g) gs s

end Sys2Proof.Machine
end

section
/-! SUPPORT. What a completion leaves (R279, R292, R333, R346): Headwater's state but for its rings, light-weight requests and signals taken; the
pools; the sequences, where the ended operation counted for none. -/

namespace Sys2Proof.Machine

/-! Records, interrupts and signals -/

/-- `t` with all that records, interrupts, signals and loans may change as in `s`. -/
def State.unanswered (t s : State) : State :=
  { t with mem := s.mem, out := s.out, glob := s.glob, ras := s.ras, recorder := s.recorder, trc := s.trc, sig := s.sig, pt := s.pt, pairs := s.pairs,
           clusters := s.clusters, weir := s.weir, hw := { t.hw with light := s.hw.light, rings := s.hw.rings, staged := s.hw.staged } }

/-- `t` is `s` after records, interrupts, signals and loans: the same commands are staged. -/
structure State.Answers (s t : State) : Prop where
  rest : t.unanswered s = s
  cmds : t.hw.staged.map (·.cmd) = s.hw.staged.map (·.cmd)

theorem State.Answers.refl (s : State) : s.Answers s := ⟨rfl, rfl⟩

theorem State.Answers.trans {r s t : State} (a : r.Answers s) (b : s.Answers t) : r.Answers t :=
  ⟨(congrArg (State.unanswered · r) b.rest).trans a.rest, b.cmds.trans a.cmds⟩

theorem State.Answers.foldl {α : Type} {f : State → α → State} (hf : ∀ (s : State) (x : α), s.Answers (f s x)) (xs : List α) (s : State) :
    s.Answers (xs.foldl f s) := by
  induction xs generalizing s with
  | nil => exact State.Answers.refl s
  | cons x xs ih => exact (hf s x).trans (ih _)

theorem State.Answers.of_unreported {s t : State} (h : t.unreported s = s) : s.Answers t :=
  ⟨(congrArg (State.unanswered · s) h :), congrArg (fun u : State => u.hw.staged.map (·.cmd)) h⟩

theorem State.Told.answers {s t : State} {j : Nat} (h : s.Told t j) : s.Answers t := .of_unreported h.rest

theorem State.Answers.pools {s t : State} (h : s.Answers t) : t.pools = s.pools := congrArg (·.pools) h.rest

theorem State.Answers.unmarks {s t : State} (h : s.Answers t) : s.Unmarks t := by
  have hseqs : t.hw.seqs = s.hw.seqs := congrArg (·.hw.seqs) h.rest
  exact ⟨(congrArg (fun u : State => { u.hw with seqs := s.hw.seqs }) h.rest :), h.cmds, fun k => .inl (by rw [hseqs])⟩

theorem State.endSwait_answers (s : State) (sp outcome : Nat) : s.Answers (s.endSwait sp outcome) := by
  unfold State.endSwait
  extract_lets x cnt
  split
  · exact State.Answers.refl s
  · extract_lets y z u v w
    split
    · have hv : s.Answers v := ⟨rfl, rfl⟩
      have hw : v.Answers w := (v.trace_told _ _ _ _ _ _).answers
      exact (hv.trans hw).trans ⟨rfl, rfl⟩
    · exact ⟨rfl, rfl⟩

theorem State.releaseWaiter_answers (s : State) (w : Waiter) : s.Answers (s.releaseWaiter w) := by
  cases w with
  | pair sp => exact s.endSwait_answers sp 0
  | command r i => exact ⟨rfl, (s.releaseWaiter_reports (.command r i)).staged⟩
  | stream n tag => exact ⟨rfl, rfl⟩

theorem State.raise_answers (s : State) (n : Nat) : s.Answers (s.raise n) := by
  unfold State.raise
  dsimp only
  split
  · exact ⟨rfl, rfl⟩
  · exact State.Answers.trans (s := s.modSig (fun g => { g with waiters := g.waiters.filter (fun w => w.1 != n) })) ⟨rfl, rfl⟩
      (State.Answers.foldl State.releaseWaiter_answers _ _)

theorem State.recordWritten_answers (s : State) (ring : Nat) (idx : W32) (raise : Option Nat) (irq : Bool) :
    s.Answers (s.recordWritten ring idx raise irq) := by
  unfold State.recordWritten
  extract_lets r r' s1 s2
  have hs2 : s.Answers s2 := by
    refine State.Answers.trans (s := s1) ⟨rfl, rfl⟩ ?_
    cases raise with
    | none => exact State.Answers.refl s1
    | some n => exact s1.raise_answers n
  split
  · exact hs2.trans (s2.sendIrq_told _ _ _ _).answers
  · exact hs2

theorem State.writeRecord_answers (s : State) (ring : Nat) (idx : W32) (w : BitVec 256) (raise : Option Nat) (irq : Bool) :
    s.Answers (s.writeRecord ring idx w raise irq) := by
  unfold State.writeRecord
  dsimp only
  split
  · exact (s.lightWrite_told _ _ _ _ _).answers.trans (State.recordWritten_answers _ ring idx raise irq)
  · exact ⟨rfl, rfl⟩
  · exact .of_unreported (s.classP_faulted _ _ _).rest

/-- A class L status is counted. -/
theorem State.countIf_answers (s : State) (b : Bool) : s.Answers (if b then s.countL else s) := by
  split
  · exact ⟨rfl, rfl⟩
  · exact State.Answers.refl s

theorem State.completeUnder_answers (s : State) (set : CfgSet) (part : Nat) (c : Cmd) (x : Compl) : s.Answers (s.completeUnder set part c x) := by
  unfold State.completeUnder
  extract_lets s1 s2
  have hs1 : s.Answers s1 := s.countIf_answers _
  have hs2 : s1.Answers s2 := (s1.trace_told _ _ _ _ _ _).answers
  exact (hs1.trans hs2).trans (s2.writeRecord_answers _ _ _ _ _)

theorem State.setPt_answers (s : State) (p : Nat) (c : Pt) : s.Answers (s.setPt p c) := ⟨rfl, rfl⟩

theorem State.resumeRecord_answers (s : State) (p : Nat) (w : BitVec 256) (sig : Option Nat) : s.Answers (s.resumeRecord p w sig) := by
  unfold State.resumeRecord
  extract_lets t a w' u
  split
  · exact s.setPt_answers p _
  · split
    · have hu : s.Answers u := ((s.lightWrite_told _ _ _ _ _).answers.trans (State.setPt_answers _ p _)).trans
        (State.irqPending_told _ _ _ _ _ _).answers
      cases sig with
      | none => exact hu
      | some n => exact hu.trans (u.raise_answers n)
    · exact s.setPt_answers p _
    · exact .of_unreported (s.classP_faulted _ _ _).rest

/-- The record of an operation that was held, with its count and its trace record. -/
theorem State.resumed_answers (s : State) (o : Op) (b : Bool) (status detail : Nat) (w : BitVec 256) (sig : Option Nat) :
    s.Answers (((if b then s.countL else s).trace 0x04 o.part 0x80 o.opid status detail).resumeRecord o.part w sig) :=
  ((s.countIf_answers b).trans (State.trace_told _ _ _ _ _ _ _).answers).trans (State.resumeRecord_answers _ _ _ _)

/-! A command that ends in the step that takes it (R279) -/

/-- R278: a sequence in use knows the last operation that touched it. -/
def Seq.touched (x : Seq) (use : W32) (opid : W32) (ring : Nat) : Seq :=
  if x.st = .free then x else { x with lastUse := use, lastOpid := opid, lastRing := ring }

/-- `t` is `s` with the command `c` ended: it has left staging with the next tag; its sequence was touched, if any. -/
structure State.Finished (s t : State) (p : Nat) (c : Cmd) : Prop where
  took : s.Took t c
  ops : t.hw.ops = s.hw.ops
  pools : t.pools = s.pools
  seq : ∃ use, t.seq p (sqidOf c) = (s.seq p (sqidOf c)).touched use s.hw.nextOpid c.ring
  others : ∀ q, q ≠ sqidOf c → t.seq p q = s.seq p q

theorem State.touchSeq_hw (s : State) (p q : Nat) (opid : W32) (ring : Nat) : (s.touchSeq p q opid ring).hw.ops = s.hw.ops
    ∧ (s.touchSeq p q opid ring).hw.nextOpid = s.hw.nextOpid ∧ (s.touchSeq p q opid ring).hw.staged = s.hw.staged
    ∧ (s.touchSeq p q opid ring).pools = s.pools := by
  unfold State.touchSeq
  split
  · exact ⟨rfl, rfl, rfl, rfl⟩
  · simp [State.modSeq, State.putSeq]

theorem State.touchSeq_seq (s : State) (p q : Nat) (opid : W32) (ring : Nat) :
    (∃ use, (s.touchSeq p q opid ring).seq p q = (s.seq p q).touched use opid ring)
      ∧ ∀ r, r ≠ q → (s.touchSeq p q opid ring).seq p r = s.seq p r := by
  unfold State.touchSeq Seq.touched
  split
  · exact ⟨⟨0, rfl⟩, fun _ _ => rfl⟩
  · exact ⟨⟨_, s.seq_modSeq_self p q _⟩, fun r hr => s.seq_modSeq_ne hr _⟩

theorem State.finishNow_spec (s : State) (p : Nat) (c : Cmd) (epoch : W16) (x : Compl) : s.Finished (s.finishNow p c epoch x) p c := by
  obtain ⟨u, hu⟩ : ∃ u, u = s.takeOpid.2.touchSeq p (sqidOf c) s.hw.nextOpid c.ring := ⟨_, rfl⟩
  obtain ⟨y, hy⟩ : ∃ y, s.finishNow p c epoch x = (u.unstage c).completeCmd p c y := ⟨_, by rw [hu]; rfl⟩
  obtain ⟨hops, hnext, -, hpools⟩ := s.takeOpid.2.touchSeq_hw p (sqidOf c) s.hw.nextOpid c.ring
  obtain ⟨⟨use, hself⟩, hother⟩ := s.takeOpid.2.touchSeq_seq p (sqidOf c) s.hw.nextOpid c.ring
  have hans := (u.unstage c).completeUnder_answers (u.unstage c).cfg.active p c y
  have hseqs : (s.finishNow p c epoch x).hw.seqs = u.hw.seqs := by rw [hy]; exact congrArg (·.hw.seqs) hans.rest
  rw [← hu] at hops hnext hpools hself hother
  refine ⟨⟨State.stagedFor_unstaged (s := u) (by rw [hy]; exact hans.cmds), ?_⟩, ?_, ?_, ⟨use, ?_⟩, fun q hq => ?_⟩
  · rw [hy]
    exact hans.unmarks.nextOpid.trans hnext
  · rw [hy]
    exact hans.unmarks.ops.trans hops
  · rw [hy]
    exact hans.pools.trans hpools
  · exact (State.seq_of_seqs hseqs p _).trans hself
  · exact (State.seq_of_seqs hseqs p _).trans (hother q hq)

theorem Seq.touched_used {x : Seq} (h : x.st ≠ .free) (use opid : W32) (ring : Nat) :
    x.touched use opid ring = { x with lastUse := use, lastOpid := opid, lastRing := ring } := if_neg h

/-- What a touch leaves. -/
theorem Seq.touched_eq (x : Seq) (use opid : W32) (ring : Nat) :
    ∃ u i r, x.touched use opid ring = { x with lastUse := u, lastOpid := i, lastRing := r } := by
  unfold Seq.touched
  split
  · exact ⟨x.lastUse, x.lastOpid, x.lastRing, rfl⟩
  · exact ⟨_, _, _, rfl⟩

/-! The end of an operation (R333, R348) -/

theorem State.servedBy_answers (s : State) (o : Op) : s.Answers (s.servedBy o) := by
  unfold State.servedBy
  extract_lets e f
  exact State.Answers.foldl (f := fun (s : State) k => s.modPair k f) (fun _ _ => ⟨rfl, rfl⟩) _ s

theorem State.leaveLoans_unmarks (s : State) (o : Op) (m : BitVec 32) : s.Unmarks (s.leaveLoans o m) := .of_hw (s.leaveLoans_rest o m).1

theorem State.freePairs_unmarks (s : State) (o : Op) : s.Unmarks (s.freePairs o) := .of_hw (s.freePairs_hw o)

/-- `t` is `s` without the operation of tag `i`, which counted for no sequence. -/
structure State.Leaves (s t : State) (i : W32) : Prop where
  ops : t.hw.ops = s.hw.ops.filter (fun x => x.opid != i)
  nextOpid : t.hw.nextOpid = s.hw.nextOpid
  cmds : t.hw.staged.map (·.cmd) = s.hw.staged.map (·.cmd)
  seqs : ∀ p q, (s.seq p q).Unmarked (t.seq p q)

theorem State.Leaves.unmarks {s t u : State} {i : W32} (h : s.Leaves t i) (hu : t.Unmarks u) : s.Leaves u i :=
  ⟨hu.ops.trans h.ops, hu.nextOpid.trans h.nextOpid, hu.cmds.trans h.cmds, fun p q => (h.seqs p q).trans (hu.seq p q)⟩

theorem State.Unmarks.leaves {s t u : State} {i : W32} (h : s.Unmarks t) (hu : t.Leaves u i) : s.Leaves u i :=
  ⟨by rw [hu.ops, h.ops], hu.nextOpid.trans h.nextOpid, hu.cmds.trans h.cmds, fun p q => (h.seq p q).trans (hu.seqs p q)⟩

theorem State.seqDone_free {s : State} {p q : Nat} (h : s.seq p q = Seq.free) : s.seqDone p q = s := by
  unfold State.seqDone
  dsimp only
  rw [h]
  exact if_pos rfl

theorem State.showProgress_free {s : State} {p q : Nat} (h : s.seq p q = Seq.free) : s.showProgress p q = s := by
  unfold State.showProgress
  split
  · rw [h]
    exact if_pos rfl
  · rfl

theorem State.dropOp_leaves (s : State) (i : W32) : s.Leaves (s.dropOp i) i := ⟨rfl, rfl, rfl, fun _ _ => .inl rfl⟩

/-- The pins, copies, loans and pairs of an operation go. -/
theorem State.freed_unmarks (s : State) (o : Op) :
    s.Unmarks ((((o.pins.foldl (fun s g => s.unpin o.part g) s).dropCopies o).leaveLoans o o.lent).freePairs o) := by
  obtain ⟨u, hu⟩ : ∃ u, u = o.pins.foldl (fun s g => s.unpin o.part g) s := ⟨_, rfl⟩
  have hpins : s.Unmarks u := hu ▸ State.Unmarks.foldl (fun s g => s.unpin_unmarks o.part g) o.pins s
  have hloans : u.Unmarks ((u.dropCopies o).leaveLoans o o.lent) := (u.dropCopies_unmarks o).trans ((u.dropCopies o).leaveLoans_unmarks o o.lent)
  rw [← hu]
  exact (hpins.trans hloans).trans (State.freePairs_unmarks _ o)

theorem State.freeOp_leaves {s : State} {o : Op} (hfree : s.seq o.part (sqidOf o.cmd) = Seq.free) : s.Leaves (s.freeOp o) o.opid := by
  unfold State.freeOp
  extract_lets u v w live
  have hv : s.Leaves v o.opid := (s.freed_unmarks o).leaves (State.dropOp_leaves _ o.opid)
  have hvfree : v.seq o.part (sqidOf o.cmd) = Seq.free := Seq.Unmarked.free (hfree ▸ hv.seqs _ _)
  have hw : w = v := by
    dsimp only [w]
    rw [State.seqDone_free hvfree, State.showProgress_free hvfree, ite_self]
  rw [hw]
  split
  · exact hv
  · exact hv.unmarks (.of_hw rfl)

/-- An operation of a sequence that is FREE leaves the others, the tags, the staged commands and, but for marks, the sequences. -/
theorem State.endOp_leaves {s : State} {opid : W32} {o : Op} (ho : s.op opid = some o) (hfree : s.seq o.part (sqidOf o.cmd) = Seq.free)
    (status detail : Nat) (result : BitVec 96) : s.Leaves (s.endOp opid status detail result) opid := by
  obtain rfl := State.op_opid ho
  unfold State.endOp
  rw [ho]
  dsimp only
  have hserved := (s.servedBy_answers o).unmarks
  have hend : s.Leaves ((s.servedBy o).freeOp o) o.opid :=
    hserved.leaves (State.freeOp_leaves (Seq.Unmarked.free (hfree ▸ hserved.seq _ _)))
  split
  · exact hend.unmarks (State.resumed_answers _ o _ _ _ _ _).unmarks
  · exact hend.unmarks (State.completeUnder_answers _ _ _ _ _).unmarks

/-! The start of an operation (R278, R296) -/

/-- R296: a command that is admitted becomes an operation under the next tag, which counts for its sequence. -/
theorem State.admitOp_counted (s : State) (p : Nat) {c : Cmd} (hop : opcodeOf c ≠ 0x0F) :
    ∃ o tr, s.admitOp p c = (o, (s.tookOp c o tr).countIn o) ∧ o.opid = s.hw.nextOpid ∧ o.cmd = c ∧ o.part = p ∧ o.pins = [] ∧ o.set = s.cfg.active := by
  obtain ⟨o, fc, tick, e, hopid, hcmd, hpart, hpins, hset, hbegun⟩ : ∃ o fc tick, s.admitOp p c = (o, (s.takeOpid.2.unstage c).startOpAt o fc tick)
      ∧ o.opid = s.hw.nextOpid ∧ o.cmd = c ∧ o.part = p ∧ o.pins = [] ∧ o.set = s.cfg.active ∧ o.begun = true :=
    ⟨_, _, _, rfl, rfl, rfl, rfl, rfl, rfl, rfl⟩
  obtain ⟨tr, htr⟩ := (((s.takeOpid.2.unstage c).modHw (fun h => { h with ops := h.ops ++ [o] })).modWeir (fun w => { w with order := w.order + 1 })).traceAt_eq
    fc tick 0x01 o.part 0x80 o.opid (opcodeOf o.cmd + sqidOf o.cmd * 2 ^ 8) (layerOf o.cmd)
  refine ⟨o, tr, ?_, hopid, hcmd, hpart, hpins, hset⟩
  rw [e, State.startOpAt, htr, if_neg (by simp [hcmd, hop, Op.unborn, hbegun])]
  rfl

theorem State.tookOp_seq (s : State) (c : Cmd) (o : Op) (tr : Trc) (p q : Nat) : (s.tookOp c o tr).seq p q = s.seq p q := by
  dsimp only [State.tookOp, State.modWeir, State.unstage, State.unwait, State.modSig, State.modHw, State.takeOpid, State.seq]

end Sys2Proof.Machine
end

section
/-! SUPPORT. ADMIT, RELEASE and FORK (R255, R257, R258, R260, R261): the sequences that they create or free and the references they take. -/

namespace Sys2Proof.Machine

/-! Sequences written and groups dropped -/

theorem State.setSeq_ops (s : State) (p q : Nat) (x : Seq) : (s.setSeq p q x).hw.ops = s.hw.ops := by
  rw [State.setSeq_hw]
  rfl

theorem State.setSeq_nextOpid (s : State) (p q : Nat) (x : Seq) : (s.setSeq p q x).hw.nextOpid = s.hw.nextOpid := by
  rw [State.setSeq_hw]
  rfl

theorem State.setSeq_staged (s : State) (p q : Nat) (x : Seq) : (s.setSeq p q x).hw.staged = s.hw.staged := by
  rw [State.setSeq_hw]
  rfl

/-- R253: entries that are cleared drop their references, in the state where the table is cut. -/
theorem State.clearFrom_unmarks (s : State) (p q k : Nat) :
    (s.modSeq p q (fun x => { x with table := x.table.filter (fun e => e.1 < k) })).Unmarks (s.clearFrom p q k) :=
  State.Unmarks.foldl (fun t (e : Nat × Option Nat) => by
    split
    · exact t.dropRef_unmarks p _
    · exact State.Unmarks.refl t) _ _

/-- `t` has the operations, the next tag and the staged commands of `s`, and sequence `q` of partition `p` is `x`. -/
structure State.Holds (s t : State) (p q : Nat) (x : Seq) : Prop where
  ops : t.hw.ops = s.hw.ops
  nextOpid : t.hw.nextOpid = s.hw.nextOpid
  cmds : t.hw.staged.map (·.cmd) = s.hw.staged.map (·.cmd)
  seq : t.seq p q = x

theorem State.setSeq_holds (s : State) (p q : Nat) (x : Seq) : s.Holds (s.setSeq p q x) p q x :=
  ⟨s.setSeq_ops p q x, s.setSeq_nextOpid p q x, by rw [State.setSeq_staged], s.seq_setSeq_self p q x⟩

/-- R257: the sequence of a RELEASE is FREE. -/
theorem State.releaseNow_holds (s : State) (p q : Nat) : s.Holds (s.releaseNow p q) p q Seq.free := by
  obtain ⟨hops, hnext, hcmds, -⟩ := s.setSeq_holds p q { s.seq p q with table := (s.seq p q).table.filter (fun e => e.1 < 0) }
  have hclear := s.clearFrom_unmarks p q 0
  have hfree := (s.clearFrom p q 0).setSeq_holds p q Seq.free
  exact ⟨hfree.ops.trans (hclear.ops.trans hops), hfree.nextOpid.trans (hclear.nextOpid.trans hnext), hfree.cmds.trans (hclear.cmds.trans hcmds), hfree.seq⟩

theorem State.meterEvent_hw (s : State) (p q inc : Nat) : (s.meterEvent p q inc).hw = s.hw ∧ (s.meterEvent p q inc).pools = s.pools := by
  unfold State.meterEvent
  split
  · exact ⟨rfl, rfl⟩
  · split <;> exact ⟨rfl, rfl⟩

theorem State.obtainSlot_room {s : State} (h : s.resident < 16384) (p keep : Nat) : s.obtainSlot p keep = (true, s) := if_pos h

/-! ADMIT (R258, R260, R261) -/

theorem State.matchPrefix_length (s : State) (p : Nat) (toks : List Nat) (n : Nat) (prev : W64) (parent : Nat) :
    (s.matchPrefix p toks n prev parent).length ≤ n := by
  induction n generalizing toks prev parent with
  | zero => exact Nat.le_refl 0
  | succ n ih =>
    unfold State.matchPrefix
    dsimp only
    split
    · exact Nat.zero_le _
    · exact Nat.succ_le_succ (ih _ _ _)

/-- R261: the reused tokens are fewer than the prompt's. -/
theorem State.matchPrefix_tokens (s : State) (p : Nat) (toks : List Nat) (tok n cap : Nat) (prev : W64) (parent : Nat) :
    (s.matchPrefix p toks (Nat.min ((n - 1) / tok) cap) prev parent).length * tok ≤ n - 1 :=
  calc _ ≤ (n - 1) / tok * tok := Nat.mul_le_mul_right tok ((s.matchPrefix_length ..).trans (Nat.min_le_left ..))
    _ ≤ n - 1 := Nat.div_mul_le_self ..

theorem get_blocks (gs : List Nat) (n k : Nat) : Tab.get none (gs.mapIdx (fun i g => (n + i, some g))) (n + k) = gs[k]? := by
  induction gs generalizing n k with
  | nil => rfl
  | cons g gs ih =>
    rw [List.mapIdx_cons, Tab.get]
    cases k with
    | zero => exact if_pos rfl
    | succ k =>
      have hshift : gs.mapIdx (fun i g => (n + (i + 1), some g)) = gs.mapIdx (fun i g => (n + 1 + i, some g)) := by
        simp only [Nat.add_assoc, Nat.add_comm 1]
      rw [if_neg (by omega), hshift, show n + (k + 1) = n + 1 + k by omega]
      exact ih (n + 1) k

theorem get_setAll {v layers l : Nat} (hl : l < layers) : Tab.get 0 (setAll v layers) l = v := by
  have hmap (ls : List Nat) (h : l ∈ ls) : Tab.get 0 (ls.map (fun l => (l, v))) l = v := by
    induction ls with
    | nil => exact absurd h List.not_mem_nil
    | cons m ls ih =>
      rw [List.map_cons, Tab.get]
      split
      · rfl
      · next hne => exact ih ((List.mem_cons.1 h).resolve_left hne)
  unfold setAll
  split
  · next h => exact h.symm
  · exact hmap _ (List.mem_range.2 hl)

/-- R261, R280: the sequence that an ADMIT or a FORK creates while no backlog entry names it. -/
structure Seq.New (x : Seq) (c : Cmd) : Prop where
  st : x.st = .idle
  prio : x.prio = BitVec.ofNat 4 (prioOf c)
  map : x.map = mapOf c
  btLog2 : x.btLog2 = btLog2Of c
  epoch : x.epoch = 0
  tlen : x.tlen = []
  inflight : x.inflight = 0

theorem State.newSeq_spec {s : State} {p q : Nat} (c : Cmd) (hb : s.backlogCount p q = 0) (n reused : Nat) :
    ∃ x, s.newSeq p q c (mapOf c) (prioOf c) (btLog2Of c) n reused 0 = (x, s.draw.2) ∧ x.New c ∧ x.reused = BitVec.ofNat 32 reused := by
  have hst : (if s.draw.2.backlogCount p q = 0 then SeqSt.idle else .active) = .idle := if_pos hb
  exact ⟨_, rfl, ⟨hst, rfl, rfl, rfl, rfl, rfl, rfl⟩, rfl⟩

/-- The groups `gs` of partition `p` gain references and sequence `q` becomes `x`. -/
def State.creates (s : State) (p q : Nat) (gs : List Nat) (x : Seq) : State := (gs.foldl (fun s g => s.addRef p g) s.draw.2).setSeq p q x

/-- R255, R261: a created sequence stands, its groups have their references, and the others stay but for marks of famine. -/
theorem State.creates_spec (s : State) (p q : Nat) (gs : List Nat) (x : Seq) :
    s.Holds (s.creates p q gs x) p q x ∧ (∀ r, r ≠ q → (s.seq p r).Unmarked ((s.creates p q gs x).seq p r))
      ∧ ∀ g, ((s.creates p q gs x).pg p g).refcnt = (s.pg p g).refcnt + gs.count g := by
  have hrefs := State.addRefs_unmarks p gs s.draw.2
  obtain ⟨hops, hnext, hcmds, hseq⟩ := (gs.foldl (fun s g => s.addRef p g) s.draw.2).setSeq_holds p q x
  refine ⟨⟨hops.trans hrefs.ops, hnext.trans hrefs.nextOpid, hcmds.trans hrefs.cmds, hseq⟩, fun r hr => ?_, fun g => ?_⟩
  · rw [State.creates, State.seq_setSeq_ne _ hr]
    exact hrefs.seq p r
  · rw [State.creates, State.pg_of_pools (State.setSeq_pools _ p q x)]
    exact State.addRefs_refcnt p g gs s.draw.2

/-- R261: the state in which an ADMIT completes. -/
theorem State.admitSeq_eq {s : State} {p : Nat} {c : Cmd} (hlink : s.linkFull = false) (hn : (s.pool p).fstate = .normal) (hroom : s.resident < 16384)
    (hb : s.backlogCount p (sqidOf c) = 0) {gs : List Nat}
    (hgs : gs = s.matchPrefix p ((List.range (promptLenOf c)).map (fun i => s.vaNat p (argsOf c + 4 * i) 4))
      (Nat.min ((promptLenOf c - 1) / (s.desc p).tok) (2 ^ btLog2Of c)) (s.desc p).seed noGroup) :
    ∃ (x : Seq) (y : Compl), x.New c ∧ x.reused = BitVec.ofNat 32 (gs.length * (s.desc p).tok)
      ∧ s.admitSeq p c = (((s.creates p (sqidOf c) gs
          { x with len := setAll (gs.length * (s.desc p).tok) ((s.desc p).layersM1 + 1), table := gs.mapIdx (fun k g => (k, some g)) }).modPool p
            (fun x => { x with hashHits := bumpTo 0xFFFFFFFF x.hashHits gs.length })).meterEvent p 9 1).finishNow p c 0 y := by
  obtain ⟨x, hx, hnew, hreused⟩ := State.newSeq_spec c hb (promptLenOf c) (gs.length * (s.desc p).tok)
  refine ⟨x, { Compl.plain 0 0 with result := res20 (gs.length * (s.desc p).tok) }, hnew, hreused, ?_⟩
  rw [State.admitSeq, hlink, State.obtainSlot_room hroom]
  dsimp only
  rw [if_neg Bool.false_ne_true, if_neg (by simp [hn]), State.admitMap]
  dsimp only
  rw [← hgs, hx]
  rfl

/-- A command that completes on its own sequence, which is in use: what it leaves of the sequence's record. -/
theorem State.Finished.seq_used {s t : State} {p : Nat} {c : Cmd} (h : s.Finished t p c) {x : Seq} (hx : s.seq p (sqidOf c) = x) (hst : x.st ≠ .free) :
    ∃ use, t.seq p (sqidOf c) = { x with lastUse := use, lastOpid := s.hw.nextOpid, lastRing := c.ring } := by
  obtain ⟨use, hself⟩ := h.seq
  exact ⟨use, by rw [hself, hx, Seq.touched_used hst]⟩

theorem admitSeq_spec {s : State} {c : Cmd} {x : Staged} (hadm : s.Admits 0x01 c x) (hlink : s.linkFull = false)
    (hn : (s.pool x.part).fstate = .normal) (hroom : s.resident < 16384) (hb : s.backlogCount x.part (sqidOf c) = 0) {gs : List Nat}
    (hgs : gs = s.matchPrefix x.part ((List.range (promptLenOf c)).map (fun i => s.vaNat x.part (argsOf c + 4 * i) 4))
      (Nat.min ((promptLenOf c - 1) / (s.desc x.part).tok) (2 ^ btLog2Of c)) (s.desc x.part).seed noGroup) :
    ∃ t y use, exec (.admitSeq c) s = .next t ∧ s.Took t c ∧ Seq.New y c ∧ y.reused = BitVec.ofNat 32 (gs.length * (s.desc x.part).tok)
      ∧ t.seq x.part (sqidOf c) = { y with len := setAll (gs.length * (s.desc x.part).tok) ((s.desc x.part).layersM1 + 1)
                                           table := gs.mapIdx (fun k g => (k, some g)), lastUse := use, lastOpid := s.hw.nextOpid, lastRing := c.ring }
      ∧ ∀ g, (t.pg x.part g).refcnt = (s.pg x.part g).refcnt + gs.count g := by
  obtain ⟨y, z, hnew, hreused, e⟩ := State.admitSeq_eq hlink hn hroom hb hgs
  obtain ⟨w, hw⟩ : ∃ w, w = { y with len := setAll (gs.length * (s.desc x.part).tok) ((s.desc x.part).layersM1 + 1)
                                     table := gs.mapIdx (fun k g => (k, some g)) } := ⟨_, rfl⟩
  rw [← hw] at e
  obtain ⟨hholds, -, hrefs⟩ := s.creates_spec x.part (sqidOf c) gs w
  obtain ⟨u, hu⟩ : ∃ u, u = (s.creates x.part (sqidOf c) gs w).modPool x.part (fun x => { x with hashHits := bumpTo 0xFFFFFFFF x.hashHits gs.length }) :=
    ⟨_, rfl⟩
  obtain ⟨hvhw, hvpools⟩ := u.meterEvent_hw x.part 9 1
  have huhw : u.hw = (s.creates x.part (sqidOf c) gs w).hw := by rw [hu]; rfl
  have hupg (g : Nat) : u.pg x.part g = (s.creates x.part (sqidOf c) gs w).pg x.part g := by
    rw [hu]
    exact State.pg_modPool _ x.part (f := fun x => { x with hashHits := bumpTo 0xFFFFFFFF x.hashHits gs.length }) (fun _ => rfl) g
  rw [← hu] at e
  have hfin := (u.meterEvent x.part 9 1).finishNow_spec x.part c 0 z
  have hvhw' := hvhw.trans huhw
  have hseq : (u.meterEvent x.part 9 1).seq x.part (sqidOf c) = w := (State.seq_of_seqs (congrArg Hw.seqs hvhw') _ _).trans hholds.seq
  have hnext : (u.meterEvent x.part 9 1).hw.nextOpid = s.hw.nextOpid := (congrArg Hw.nextOpid hvhw').trans hholds.nextOpid
  obtain ⟨use, ht⟩ := hfin.seq_used hseq (by rw [hw]; exact hnew.st ▸ SeqSt.noConfusion)
  refine ⟨_, y, use, congrArg Host.Outcome.next ((State.ringRow_admits hadm _).trans e), ⟨hfin.took.gone, hfin.took.tag.trans (congrArg (· + 1) hnext)⟩,
    hnew, hreused, ?_, fun g => ?_⟩
  · rw [ht, hnext, hw]
  · rw [State.pg_of_pools hfin.pools, State.pg_of_pools hvpools, hupg, hrefs]

/-! RELEASE (R257) -/

/-- An admitted RELEASE does not count for `seqBusy`. -/
theorem seqBusy_append {s t : State} {o : Op} (hops : t.hw.ops = s.hw.ops ++ [o]) (hop : opcodeOf o.cmd = 0x02) (p q : Nat) :
    t.seqBusy p q = s.seqBusy p q := by
  rw [State.seqBusy, State.seqBusy, hops, List.any_append]
  simp [hop]

/-- R257: the groups go, the sequence is FREE and the RELEASE ends. -/
theorem State.releaseSeq_spec {s : State} {o : Op} (ho : s.op o.opid = some o) :
    (s.releaseSeq o).seq o.part (sqidOf o.cmd) = Seq.free ∧ (s.releaseSeq o).hw.ops = s.hw.ops.filter (fun y => y.opid != o.opid)
      ∧ (s.releaseSeq o).hw.nextOpid = s.hw.nextOpid ∧ (s.releaseSeq o).hw.staged.map (·.cmd) = s.hw.staged.map (·.cmd) := by
  obtain ⟨hops, hnext, hcmds, hseq⟩ := s.releaseNow_holds o.part (sqidOf o.cmd)
  have ho' : (s.releaseNow o.part (sqidOf o.cmd)).op o.opid = some o := by rw [State.op, hops]; exact ho
  have hend := State.endOp_leaves ho' hseq 0 0 0
  exact ⟨Seq.Unmarked.free (hseq ▸ hend.seqs _ _), by rw [State.releaseSeq, hend.ops, hops], hend.nextOpid.trans hnext, hend.cmds.trans hcmds⟩

theorem releaseReady_spec {s : State} {c : Cmd} {o : Op} (hserving : s.serving = true) (hop : opcodeOf c = 0x02)
    (hfind : s.hw.ops.find? (fun o => o.cmd = c) = some o) (ho : s.op o.opid = some o) :
    (s.seqBusy o.part (sqidOf c) = false → ∃ t, exec (.release c) s = .next t ∧ t.seq o.part (sqidOf c) = Seq.free ∧ t.op o.opid = none)
      ∧ (s.seqBusy o.part (sqidOf c) = true → exec (.release c) s = .next s) := by
  have hc : o.cmd = c := by simpa using List.find?_some hfind
  have e : exec (.release c) s = .next (s.releaseReady o) := by
    refine congrArg Host.Outcome.next ?_
    have hfind' : s.hw.ops.find? (fun o => o.cmd = c && opcodeOf c = 0x02) = some o := by simpa [hop] using hfind
    rw [hfind']
  subst hc
  refine ⟨fun hbusy => ⟨_, e, ?_⟩, fun hbusy => e.trans (congrArg Host.Outcome.next ?_)⟩
  · rw [State.releaseReady, if_pos (by rw [hserving, hbusy]; rfl)]
    exact ⟨(State.releaseSeq_spec ho).1, State.endOp_gone _ _ _ _ _⟩
  · rw [State.releaseReady, if_neg (by rw [hserving, hbusy]; simp)]

/-- The state in which an admitted operation counts for its sequence. -/
theorem State.countIn_took (s : State) (c : Cmd) (o : Op) (tr : Trc) :
    let t := (s.tookOp c o tr).countIn o
    t.hw.ops = s.hw.ops ++ [o] ∧ t.hw.nextOpid = s.hw.nextOpid + 1 ∧ t.hw.staged.map (·.cmd) = (s.unstage c).hw.staged.map (·.cmd) := by
  have h := (s.tookOp c o tr).countIn_reports o
  exact ⟨h.ops, h.nextOpid, h.staged⟩

theorem filter_append_fresh {ops : List Op} {o : Op} (h : ∀ x ∈ ops, x.opid ≠ o.opid) : (ops ++ [o]).filter (fun y => y.opid != o.opid) = ops := by
  rw [List.filter_append, List.filter_eq_self.2 (fun x hx => by simpa using h x hx)]
  simp

theorem release_spec {s : State} {c : Cmd} {x : Staged} (hadm : s.Admits 0x02 c x) (hfresh : s.Fresh) (hnew : ∀ o ∈ s.hw.ops, o.cmd ≠ c)
    (hst : (s.seq x.part (sqidOf c)).st ≠ .spilled) :
    (s.seqBusy x.part (sqidOf c) = false → ∃ t, exec (.release c) s = .next t ∧ s.Took t c ∧ t.seq x.part (sqidOf c) = Seq.free ∧ t.hw.ops = s.hw.ops)
      ∧ (s.seqBusy x.part (sqidOf c) = true → ∃ t o, exec (.release c) s = .next t ∧ s.Took t c ∧ (t.seq x.part (sqidOf c)).st = .releasing
        ∧ t.op s.hw.nextOpid = some o ∧ o.cmd = c ∧ o.part = x.part ∧ (t.seq x.part (sqidOf c)).table = (s.seq x.part (sqidOf c)).table) := by
  obtain ⟨o, tr, hadmit, hopid, hcmd, hpart, -, -⟩ := s.admitOp_counted x.part (c := c) (by rw [hadm.opcode]; decide)
  obtain ⟨u, hu⟩ : ∃ u, u = (s.tookOp c o tr).countIn o := ⟨_, rfl⟩
  obtain ⟨hops, hnext, hcmds⟩ := s.countIn_took c o tr
  rw [← hu] at hops hnext hcmds hadmit
  obtain ⟨hop, hothers⟩ := State.op_append hops (fun y hy => hopid ▸ hfresh.1 y hy)
  have hbusy : u.seqBusy x.part (sqidOf c) = s.seqBusy x.part (sqidOf c) := seqBusy_append hops (hcmd ▸ hadm.opcode) _ _
  have htook {t : State} (hc : t.hw.staged.map (·.cmd) = u.hw.staged.map (·.cmd)) (hn : t.hw.nextOpid = u.hw.nextOpid) : s.Took t c :=
    ⟨State.stagedFor_unstaged (hc.trans hcmds), hn.trans hnext⟩
  have hfind : s.hw.ops.find? (fun o => o.cmd = c && opcodeOf c = 0x02) = none :=
    List.find?_eq_none.2 (fun y hy => by simp [hnew y hy])
  have e : exec (.release c) s = .next (if u.seqBusy x.part (sqidOf c) then u.modSeq x.part (sqidOf c) (fun x => { x with st := .releasing })
      else u.releaseSeq o) := by
    refine congrArg Host.Outcome.next ?_
    rw [hfind]
    dsimp only
    rw [State.ringRow_admits hadm, State.admitRelease, State.recordAccess, if_neg hst]
    dsimp only
    rw [hadmit]
  rw [hbusy] at e
  refine ⟨fun hb => ?_, fun hb => ?_⟩
  · rw [hb, if_neg Bool.false_ne_true] at e
    obtain ⟨hfree, hleft, hn, hc⟩ := State.releaseSeq_spec (s := u) hop
    rw [hpart, hcmd] at hfree
    exact ⟨_, e, htook hc hn, hfree, by rw [hleft, hops, filter_append_fresh (fun y hy => hopid ▸ hfresh.1 y hy)]⟩
  · rw [hb, if_pos rfl] at e
    obtain ⟨hops', hnext', hcmds', hseq⟩ := u.setSeq_holds x.part (sqidOf c) { u.seq x.part (sqidOf c) with st := .releasing }
    refine ⟨_, o, e, htook hcmds' hnext', congrArg Seq.st hseq, ?_, hcmd, hpart, (congrArg Seq.table hseq).trans ?_⟩
    · rw [State.op, State.modSeq, hops', ← hopid]
      exact hop
    · rw [hu, State.countIn, hpart, hcmd, State.seq_modSeq_self, State.tookOp_seq]
      dsimp only
      split <;> rfl

/-! FORK (R255) -/

/-- The groups that the entries `es` name, each as often as it is named. -/
theorem count_groups (es : List (Nat × Option Nat)) (g : Nat) : (es.filterMap (fun e => e.2)).count g = es.countP (fun e => e.2 = some g) := by
  rw [List.count, List.countP_filterMap]
  refine List.countP_congr (fun e _ => ?_)
  cases e.2 <;> simp

/-- R279: the child that a FORK names is another sequence, which is in no use. -/
theorem State.seqCheck_fork {s : State} {p : Nat} {c : Cmd} (hop : opcodeOf c = 0x03) (h : s.seqCheck p c = none) :
    (s.seq p (sqidOf c)).st ≠ .free ∧ childOf c ≠ sqidOf c := by
  unfold State.seqCheck at h
  dsimp only at h
  rw [hop, if_neg (by decide), if_neg (by decide)] at h
  split at h
  · cases h
  · next hparent =>
    split at h
    · cases h
    · split at h
      · cases h
      · next hchild =>
        have hused : (s.seq p (sqidOf c)).st ≠ .free := fun hf => hparent (by rw [hf]; rfl)
        have hfree : (s.seq p (childOf c)).st = .free := by simpa using hchild
        exact ⟨hused, fun he => hused (he ▸ hfree)⟩

theorem State.forkSeq_eq {s : State} {p : Nat} {c : Cmd} (hlink : s.linkFull = false) (hroom : s.resident < 16384)
    (hb : s.backlogCount p (childOf c) = 0) {es : List (Nat × Option Nat)}
    (hes : es = (s.seq p (sqidOf c)).table.filter (fun e => e.1 * (s.desc p).tok < (s.seq p (sqidOf c)).maxLen ((s.desc p).layersM1 + 1)))
    (hcap : ∀ e ∈ es, e.1 < 2 ^ btLog2Of c) (hrefs : ∀ e ∈ es, ∀ g, e.2 = some g → (s.pg p g).refcnt < 65535) :
    ∃ x : Seq, x.New c ∧ s.forkSeq p c = ((s.creates p (childOf c) (es.filterMap (fun e => e.2))
      { x with len := (s.seq p (sqidOf c)).len, table := es }).meterEvent p 9 1).finishNow p c (s.seq p (sqidOf c)).epoch (Compl.plain 0 0) := by
  obtain ⟨x, hx, hnew, -⟩ := State.newSeq_spec c hb 0 0
  refine ⟨x, hnew, ?_⟩
  have hfits : ((es.filterMap (fun e => e.2)).any (fun g => 65535 ≤ (s.pg p g).refcnt) || es.any (fun e => 2 ^ btLog2Of c ≤ e.1)) = false := by
    rw [Bool.or_eq_false_iff, List.any_eq_false, List.any_eq_false]
    refine ⟨fun g hg => ?_, fun e he => by simpa using hcap e he⟩
    obtain ⟨e, he, heg⟩ := List.mem_filterMap.1 hg
    simpa using hrefs e he g heg
  rw [State.forkSeq, hlink, if_neg Bool.false_ne_true]
  dsimp only
  rw [← hes, hfits, if_neg Bool.false_ne_true, State.obtainSlot_room hroom]
  dsimp only
  rw [hx]
  rfl

theorem fork_spec {s : State} {c : Cmd} {x : Staged} (hadm : s.Admits 0x03 c x) (hlink : s.linkFull = false) (hroom : s.resident < 16384)
    (hb : s.backlogCount x.part (childOf c) = 0) {es : List (Nat × Option Nat)}
    (hes : es = (s.seq x.part (sqidOf c)).table.filter
      (fun e => e.1 * (s.desc x.part).tok < (s.seq x.part (sqidOf c)).maxLen ((s.desc x.part).layersM1 + 1)))
    (hcap : ∀ e ∈ es, e.1 < 2 ^ btLog2Of c) (hrefs : ∀ e ∈ es, ∀ g, e.2 = some g → (s.pg x.part g).refcnt < 65535) :
    ∃ t y, exec (.fork c) s = .next t ∧ s.Took t c ∧ Seq.New y c
      ∧ t.seq x.part (childOf c) = { y with len := (s.seq x.part (sqidOf c)).len, table := es }
      ∧ (∀ g, (t.pg x.part g).refcnt = (s.pg x.part g).refcnt + es.countP (fun e => e.2 = some g))
      ∧ (∃ z use i r, (s.seq x.part (sqidOf c)).Unmarked z ∧ t.seq x.part (sqidOf c) = { z with lastUse := use, lastOpid := i, lastRing := r })
      ∧ t.hw.ops = s.hw.ops := by
  obtain ⟨hused, hne⟩ := State.seqCheck_fork hadm.opcode hadm.found
  obtain ⟨y, hnew, e⟩ := State.forkSeq_eq hlink hroom hb hes hcap hrefs
  obtain ⟨u, hu⟩ : ∃ u, u = s.creates x.part (childOf c) (es.filterMap (fun e => e.2)) { y with len := (s.seq x.part (sqidOf c)).len, table := es } :=
    ⟨_, rfl⟩
  obtain ⟨⟨hops, hnext, -, hseq⟩, hothers, hcount⟩ := s.creates_spec x.part (childOf c) (es.filterMap (fun e => e.2))
    { y with len := (s.seq x.part (sqidOf c)).len, table := es }
  rw [← hu] at e hops hnext hseq hothers hcount
  obtain ⟨hvhw, hvpools⟩ := u.meterEvent_hw x.part 9 1
  have hvseq (q : Nat) : (u.meterEvent x.part 9 1).seq x.part q = u.seq x.part q := State.seq_of_seqs (congrArg Hw.seqs hvhw) _ _
  have hfin := (u.meterEvent x.part 9 1).finishNow_spec x.part c (s.seq x.part (sqidOf c)).epoch (Compl.plain 0 0)
  obtain ⟨use, hself⟩ := hfin.seq
  obtain ⟨use', i, r, htouch⟩ := Seq.touched_eq ((u.meterEvent x.part 9 1).seq x.part (sqidOf c)) use (u.meterEvent x.part 9 1).hw.nextOpid c.ring
  refine ⟨_, y, congrArg Host.Outcome.next ((State.ringRow_admits hadm _).trans e), ⟨hfin.took.gone, hfin.took.tag.trans ?_⟩, hnew, ?_, fun g => ?_,
    ⟨u.seq x.part (sqidOf c), use', i, r, hothers _ (Ne.symm hne), ?_⟩, ?_⟩
  · rw [hvhw, hnext]
  · rw [hfin.others _ hne, hvseq, hseq]
  · rw [State.pg_of_pools hfin.pools, State.pg_of_pools hvpools, hcount, count_groups]
  · rw [hself, htouch, hvseq]
  · rw [hfin.ops, hvhw, hops]

/-- Settles O37: `admitSeq_spec`, `release_spec` and `releaseReady_spec`, and `fork_spec`, each through the state in which the command completes. -/
theorem sequencesAdmittedAndForked : Obligations.SequencesAdmittedAndForked := by
  refine ⟨fun s c x hadm hlink hn hroom hb => ?_, fun s c x hadm hfresh hnew hst => release_spec hadm hfresh hnew hst,
    fun s c o hserving hop hfind ho => releaseReady_spec hserving hop hfind ho, fun s c x hadm hlink hroom hb => ?_⟩
  · intro p q d n toks gs
    obtain ⟨t, y, use, e, htook, hnew, hreused, hseq, hrefs⟩ := admitSeq_spec hadm hlink hn hroom hb (gs := gs) rfl
    refine ⟨t, e, htook, State.matchPrefix_tokens .., ?_⟩
    rw [show t.seq p q = _ from hseq]
    exact ⟨hnew.st, hnew.prio, hnew.map, hnew.btLog2, hnew.epoch, hnew.tlen, hnew.inflight, rfl, hreused,
      fun l hl => get_setAll (Nat.lt_succ_of_le hl), fun k => by simpa [Seq.entry] using get_blocks gs 0 k, hrefs⟩
  · intro p parent top es hcap hrefs
    obtain ⟨t, y, e, htook, hnew, hchild, hcount, ⟨z, use, i, r, hz, hparent⟩, hops⟩ := fork_spec hadm hlink hroom hb (es := es) rfl hcap hrefs
    refine ⟨t, e, htook, ?_⟩
    rw [hchild, hparent]
    exact ⟨hnew.st, rfl, hnew.tlen, rfl, hnew.epoch, hnew.map, hcount, hz.len, hz.tlen, hz.table, hz.epoch, hops⟩

end Sys2Proof.Machine
end

section
/-! SUPPORT. APPEND_KV, SPEC_COMMIT and SPEC_ABORT (R254, R274, R275): lengths, tails and epochs, and that no other command is taken meanwhile. -/

namespace Sys2Proof.Machine

/-! What takes no command -/

/-- `t` has the next tag and the staged commands of `s`. -/
structure State.Untaken (s t : State) : Prop where
  nextOpid : t.hw.nextOpid = s.hw.nextOpid
  cmds : t.hw.staged.map (·.cmd) = s.hw.staged.map (·.cmd)

theorem State.Untaken.refl (s : State) : s.Untaken s := ⟨rfl, rfl⟩

theorem State.Untaken.trans {r s t : State} (a : r.Untaken s) (b : s.Untaken t) : r.Untaken t :=
  ⟨b.nextOpid.trans a.nextOpid, b.cmds.trans a.cmds⟩

theorem State.Untaken.of_hw {s t : State} (h : t.hw = s.hw) : s.Untaken t := ⟨by rw [h], by rw [h]⟩

theorem State.Unmarks.untaken {s t : State} (h : s.Unmarks t) : s.Untaken t := ⟨h.nextOpid, h.cmds⟩

theorem State.setSeq_untaken (s : State) (p q : Nat) (x : Seq) : s.Untaken (s.setSeq p q x) :=
  ⟨s.setSeq_nextOpid p q x, by rw [State.setSeq_staged]⟩

theorem State.modSeq_untaken (s : State) (p q : Nat) (f : Seq → Seq) : s.Untaken (s.modSeq p q f) := s.setSeq_untaken p q _

/-! Groups evicted (R251, R263, R270) -/

theorem State.pick_hw (s : State) (xs : List Nat) : (s.pick xs).2.hw = s.hw := by
  unfold State.pick
  split <;> rfl

/-- A group that goes to be used again. -/
theorem State.unhash_setPg_hw (s : State) (p g : Nat) (r : PgRec) : ((s.unhash p g).setPg p g r).hw = s.hw :=
  (State.setPg_hw _ p g r).trans (s.unhash_hw p g)

theorem State.allocSlot_hw (s : State) (p : Nat) : (s.allocSlot p).2.hw = s.hw := by
  unfold State.allocSlot
  split
  · exact s.pick_hw _
  · split
    · dsimp only
      exact s.unhash_setPg_hw p _ _
    · rfl

theorem State.pushReq_hw (s : State) (r : Req) : (s.pushReq r).hw = s.hw := rfl

theorem State.askCopy_hw (s : State) (p : Nat) (u : ReqUse) (src dst n : Nat) : (s.askCopy p u src dst n).hw = s.hw := by
  unfold State.askCopy
  have hask (wr : Bool) (va : Nat) (s : State) : ((requestsOf (n / 512 + 2) va n).foldl (fun s q =>
      match s.paOf p q.1 with
      | some pa => s.pushReq ⟨wr, p, q.1, pa, q.2, u, false, []⟩
      | none => s) s).hw = s.hw := by
    refine State.foldl_hw (fun t x => ?_) _ s
    split
    · exact t.pushReq_hw _
    · rfl
  exact (hask true dst _).trans (hask false src s)

theorem State.startEvict_hw (s : State) (p g : Nat) (forCmd : Option W32) : (s.startEvict p g forCmd).2.hw = s.hw := by
  unfold State.startEvict
  have hslot := s.allocSlot_hw p
  split
  · rfl
  · next c u hu =>
    rw [hu] at hslot
    exact (State.askCopy_hw _ _ _ _ _ _).trans ((u.modPg_hw p g _).trans hslot)

theorem State.famineEvict_hw (fuel : Nat) (s : State) (p : Nat) : (State.famineEvict fuel s p).hw = s.hw := by
  induction fuel generalizing s with
  | zero => rfl
  | succ n ih =>
    unfold State.famineEvict
    split
    · rfl
    · split
      · rfl
      · next g _ =>
        have hstart := s.startEvict_hw p g none
        split
        · next u hu =>
          rw [hu] at hstart
          exact (ih u).trans hstart
        · rfl

/-! The end of a tail (R254, R274, R275) -/

theorem State.fillBlock_hw (s : State) (p q n k g : Nat) : (s.fillBlock p q n k g).hw = s.hw := by
  unfold State.fillBlock
  dsimp only
  split
  · rfl
  · split
    · exact s.setPg_hw p g _
    · exact (State.modPool_hw _ p _).trans (s.setPg_hw p g _)

theorem State.refill_hw (s : State) (p q : Nat) : (s.refill p q).hw = s.hw := by
  unfold State.refill
  refine State.foldl_hw (fun t e => ?_) _ s
  split
  · split
    · exact t.fillBlock_hw p q _ _ _
    · rfl
  · rfl

/-- R274, R275: the tail goes, `n` tokens of each layer are kept, and the epoch rises. -/
def Seq.untail (x : Seq) (layers n : Nat) : Seq :=
  { x with len := (List.range layers).foldl (fun t l => Tab.set 0 t l (x.lenOf l + n)) x.len, tlen := [], epoch := x.epoch + 1 }

theorem Seq.untail_lenOf (x : Seq) (layers n l : Nat) : (x.untail layers n).lenOf l = x.lenOf l + if l < layers then n else 0 := by
  rw [Seq.lenOf, Seq.untail, Tab.get_setAll 0 (fun l => x.lenOf l + n)]
  simp only [List.mem_range]
  split <;> rfl

/-- `t` is `s` with the tail of sequence `q` of partition `p` ended. -/
structure State.Untails (s t : State) (p q layers n : Nat) : Prop extends State.Untaken s t where
  ops : t.hw.ops = s.hw.ops
  epoch : (t.seq p q).epoch = (s.seq p q).epoch + 1
  tlen : (t.seq p q).tlen = []
  lens : ∀ l, (t.seq p q).lenOf l = (s.seq p q).lenOf l + if l < layers then n else 0

theorem State.endTail_untails (s : State) (p q n : Nat) : s.Untails (s.endTail p q n) p q ((s.desc p).layersM1 + 1) n := by
  obtain ⟨u, hu⟩ : ∃ u, u = s.setSeq p q ((s.seq p q).untail ((s.desc p).layersM1 + 1) n) := ⟨_, rfl⟩
  obtain ⟨k, hk⟩ : ∃ k, s.endTail p q n = (u.clearFrom p q k).refill p q := ⟨_, by rw [hu]; rfl⟩
  obtain ⟨v, hv⟩ : ∃ v, v = u.modSeq p q (fun x => { x with table := x.table.filter (fun e => e.1 < k) }) := ⟨_, rfl⟩
  have hclear : v.Unmarks (u.clearFrom p q k) := hv ▸ u.clearFrom_unmarks p q k
  have hend : v.Unmarks (s.endTail p q n) := hk ▸ hclear.trans (.of_hw (State.refill_hw _ p q))
  have huntaken : s.Untaken v := (hu ▸ s.setSeq_untaken p q _ : s.Untaken u).trans (hv ▸ u.modSeq_untaken p q _)
  have hops : v.hw.ops = s.hw.ops := by rw [hv, State.modSeq, State.setSeq_ops, hu, State.setSeq_ops]
  have hseq : ∃ tb, v.seq p q = { (s.seq p q).untail ((s.desc p).layersM1 + 1) n with table := tb } :=
    ⟨_, by rw [hv, State.seq_modSeq_self, hu, State.seq_setSeq_self]⟩
  obtain ⟨tb, hseq⟩ := hseq
  have hmark := hend.seq p q
  rw [hseq] at hmark
  refine ⟨huntaken.trans hend.untaken, hend.ops.trans hops, hmark.epoch, hmark.tlen, fun l => ?_⟩
  rw [Seq.lenOf, hmark.len]
  exact Seq.untail_lenOf (s.seq p q) _ n l

theorem State.famineTails_untaken (fuel : Nat) (s : State) (p : Nat) : s.Untaken (State.famineTails fuel s p) := by
  induction fuel generalizing s with
  | zero => exact State.Untaken.refl s
  | succ n ih =>
    unfold State.famineTails
    split
    · exact State.Untaken.refl s
    · split
      · exact State.Untaken.refl s
      · exact ((s.endTail_untails p _ 0).toUntaken.trans (.of_hw (State.modPool_hw _ p _))).trans (ih _)

theorem State.famineAct_untaken (s : State) (p : Nat) : s.Untaken (s.famineAct p) := by
  unfold State.famineAct
  split
  · exact State.Untaken.refl s
  · exact (s.famineTails_untaken _ p).trans (.of_hw (State.famineEvict_hw _ _ p))

/-! SPEC_COMMIT and SPEC_ABORT (R274, R275) -/

/-- A commit or an abort that completes: its tail has ended and its record is written. -/
theorem State.Untails.finished {s u t : State} {p layers n : Nat} {c : Cmd} (hu : s.Untails u p (sqidOf c) layers n) (ht : u.Finished t p c) :
    s.Took t c ∧ (t.seq p (sqidOf c)).epoch = (s.seq p (sqidOf c)).epoch + 1 ∧ (t.seq p (sqidOf c)).tlen = []
      ∧ (∀ l, (t.seq p (sqidOf c)).lenOf l = (s.seq p (sqidOf c)).lenOf l + if l < layers then n else 0) ∧ t.hw.ops = s.hw.ops := by
  obtain ⟨use, hself⟩ := ht.seq
  obtain ⟨a, i, r, htouch⟩ := Seq.touched_eq (u.seq p (sqidOf c)) use u.hw.nextOpid c.ring
  rw [hself, htouch]
  exact ⟨⟨ht.took.gone, ht.took.tag.trans (congrArg (· + 1) hu.nextOpid)⟩, hu.epoch, hu.tlen, hu.lens, ht.ops.trans hu.ops⟩

theorem State.Untails.of_hw {s u v : State} {p q layers n : Nat} (h : s.Untails u p q layers n) (hv : v.hw = u.hw) : s.Untails v p q layers n := by
  have hseq : v.seq p q = u.seq p q := State.seq_of_seqs (congrArg Hw.seqs hv) p q
  exact ⟨h.toUntaken.trans (.of_hw hv), (congrArg Hw.ops hv).trans h.ops, hseq ▸ h.epoch, hseq ▸ h.tlen, fun l => hseq ▸ h.lens l⟩

theorem commit_spec {s : State} {c : Cmd} {x : Staged} (hadm : s.Admits 0x08 c x) (hlink : s.linkFull = false)
    (hep : (s.seq x.part (sqidOf c)).epoch.toNat = specEpochOf c)
    (hn : ncommitOf c ≤ (s.seq x.part (sqidOf c)).minTlen ((s.desc x.part).layersM1 + 1)) :
    ∃ t u, exec (.specCommit c) s = .next t ∧ s.Untails u x.part (sqidOf c) ((s.desc x.part).layersM1 + 1) (ncommitOf c) ∧ u.Finished t x.part c := by
  have hfin := ((s.endTail x.part (sqidOf c) (ncommitOf c)).meterEvent x.part 4 (ncommitOf c)).finishNow_spec x.part c
    ((s.seq x.part (sqidOf c)).epoch + 1) (Compl.plain 0 0)
  refine ⟨_, _, congrArg Host.Outcome.next ((State.ringRow_admits hadm _).trans ?_),
    (s.endTail_untails x.part (sqidOf c) (ncommitOf c)).of_hw (State.meterEvent_hw _ x.part 4 _).1, hfin⟩
  rw [State.commit, hlink, if_neg Bool.false_ne_true, if_neg (by simp [hep]), if_neg (Nat.not_lt.2 hn)]

theorem commit_stale {s : State} {c : Cmd} {x : Staged} (hadm : s.Admits 0x08 c x) (hlink : s.linkFull = false)
    (hep : (s.seq x.part (sqidOf c)).epoch.toNat ≠ specEpochOf c) : ∃ t, exec (.specCommit c) s = .next t ∧ s.Finished t x.part c := by
  refine ⟨_, congrArg Host.Outcome.next ((State.ringRow_admits hadm _).trans ?_),
    s.finishNow_spec x.part c (s.seq x.part (sqidOf c)).epoch (Compl.plain 0x22 0x04)⟩
  rw [State.commit, hlink, if_neg Bool.false_ne_true, if_pos (by simp [hep])]

theorem abort_spec {s : State} {c : Cmd} {x : Staged} (hadm : s.Admits 0x09 c x) :
    ∃ t u, exec (.specAbort c) s = .next t ∧ s.Untails u x.part (sqidOf c) ((s.desc x.part).layersM1 + 1) 0 ∧ u.Finished t x.part c :=
  ⟨_, _, congrArg Host.Outcome.next (State.ringRow_admits hadm _), s.endTail_untails x.part (sqidOf c) 0,
    State.finishNow_spec _ x.part c ((s.seq x.part (sqidOf c)).epoch + 1) (Compl.plain 0 0)⟩

/-! APPEND_KV (R254) -/

theorem State.writeTok_hw (s : State) (training : Bool) (p q l pos tok : Nat) (x : KvTok) : (s.writeTok training p q l pos tok x).1.hw = s.hw := by
  unfold State.writeTok
  dsimp only
  split
  · rfl
  · dsimp only
    split
    · rw [State.vaWrite_hw, State.vaWrite_hw]
    · exact s.vaWrite_hw _ _ _

theorem State.writeToks_hw (s : State) (training : Bool) (p q l start : Nat) (toks : List Nat) (xs : List KvTok) :
    (s.writeToks training p q l start toks xs).1.hw = s.hw := by
  unfold State.writeToks
  refine foldl_reads (g := fun a : State × Counts => a.1.hw) (fun a (x : KvTok × Nat) => ?_) xs.zipIdx (s, Counts.zero)
  exact a.1.writeTok_hw training p q l (start + x.2) (toks.getD x.2 0) x.1

theorem State.dropOp_untaken (s : State) (i : W32) : s.Untaken (s.dropOp i) := ⟨rfl, rfl⟩

theorem State.freeOp_untaken (s : State) (o : Op) : s.Untaken (s.freeOp o) := by
  unfold State.freeOp
  extract_lets u v w live
  have hv : s.Untaken v := (s.freed_unmarks o).untaken.trans (State.dropOp_untaken _ o.opid)
  have hdone : v.Untaken (v.seqDone o.part (sqidOf o.cmd)) := by
    unfold State.seqDone
    dsimp only
    split
    · exact State.Untaken.refl v
    · exact v.setSeq_untaken _ _ _
  have hshow (z : State) : z.Untaken (z.showProgress o.part (sqidOf o.cmd)) := by
    unfold State.showProgress
    split
    · split
      · exact State.Untaken.refl z
      · exact z.modSeq_untaken _ _ _
    · exact State.Untaken.refl z
  have hw : s.Untaken w := by
    dsimp only [w]
    split
    · exact hv
    · exact (hv.trans hdone).trans (hshow _)
  split
  · exact hw
  · exact hw.trans (.of_hw rfl)

/-- R279: an operation that ends takes no command. -/
theorem State.endOp_untaken (s : State) (opid : W32) (status detail : Nat) (result : BitVec 96) : s.Untaken (s.endOp opid status detail result) := by
  unfold State.endOp
  split
  · exact State.Untaken.refl s
  · next o _ =>
    dsimp only
    have hend : s.Untaken ((s.servedBy o).freeOp o) := (s.servedBy_answers o).unmarks.untaken.trans (State.freeOp_untaken _ o)
    split
    · exact hend.trans (State.resumed_answers _ o _ _ _ _ _).unmarks.untaken
    · exact hend.trans (State.completeUnder_answers _ _ _ _ _).unmarks.untaken

/-- `t` is `s` after the operation `opid` of an APPEND_KV wrote its `n` tokens at layer `l`. -/
structure State.Appended (s t : State) (p q l n : Nat) (opid : W32) : Prop extends State.Untaken s t where
  gone : t.op opid = none
  self : (t.seq p q).lenOf l = (s.seq p q).lenOf l + n
  others : ∀ m, m ≠ l → (t.seq p q).lenOf m = (s.seq p q).lenOf m

/-- R254: the sequence with `n` more tokens at layer `l`. -/
def Seq.grown (x : Seq) (l n : Nat) : Seq := { x with len := Tab.set 0 x.len l (x.lenOf l + n) }

theorem Seq.grown_lenOf (x : Seq) (l n m : Nat) : (x.grown l n).lenOf m = if m = l then x.lenOf l + n else x.lenOf m := Tab.get_set 0 x.len l m _

theorem State.appendWrite_eq {s : State} {o : Op} (ho : s.op o.opid = some o) (hspec : specBit o.cmd = false) :
    ∃ (v : State) (o' : Op), v.hw = s.hw ∧ s.appendWrite o.opid = ((((v.modSeq o.part (sqidOf o.cmd) (·.grown (layerOf o.cmd) (countOf o.cmd))).refill o.part
      (sqidOf o.cmd)).setOp o').endOp o.opid 0 0 0).famineAct o.part := by
  unfold State.appendWrite
  rw [ho]
  dsimp only
  simp only [hspec, Bool.false_eq_true, if_false, Bool.false_and]
  exact ⟨_, _, State.writeToks_hw .., rfl⟩

theorem State.setOp_untaken (s : State) (o : Op) : s.Untaken (s.setOp o) := ⟨rfl, rfl⟩

theorem State.appendWrite_spec {s : State} {o : Op} (ho : s.op o.opid = some o) (hspec : specBit o.cmd = false) :
    s.Appended (s.appendWrite o.opid) o.part (sqidOf o.cmd) (layerOf o.cmd) (countOf o.cmd) o.opid := by
  obtain ⟨v, o', hv, e⟩ := State.appendWrite_eq ho hspec
  obtain ⟨u, hu⟩ : ∃ u, u = v.modSeq o.part (sqidOf o.cmd) (·.grown (layerOf o.cmd) (countOf o.cmd)) := ⟨_, rfl⟩
  rw [← hu] at e
  have hvu : s.Untaken u := (State.Untaken.of_hw hv).trans (hu ▸ v.modSeq_untaken _ _ _)
  have hlens : u.SameLens (s.appendWrite o.opid) := by
    rw [e]
    exact (((u.refill_calm _ _).sameLens.trans (State.setOp_sameLens _ o')).trans (State.endOp_sameLens _ o.opid 0 0 0)).trans
      (State.famineAct_calm _ o.part).sameLens
  have huntaken : u.Untaken (s.appendWrite o.opid) := by
    rw [e]
    exact (((State.Untaken.of_hw (u.refill_hw _ _)).trans (State.setOp_untaken _ o')).trans (State.endOp_untaken _ o.opid 0 0 0)).trans
      (State.famineAct_untaken _ o.part)
  have hself (m : Nat) : ((s.appendWrite o.opid).seq o.part (sqidOf o.cmd)).lenOf m
      = if m = layerOf o.cmd then (s.seq o.part (sqidOf o.cmd)).lenOf (layerOf o.cmd) + countOf o.cmd
        else (s.seq o.part (sqidOf o.cmd)).lenOf m := by
    rw [hlens.lenOf, hu, State.seq_modSeq_self, Seq.grown_lenOf, State.seq_of_seqs (congrArg Hw.seqs hv)]
  refine ⟨hvu.trans huntaken, ?_, (hself _).trans (if_pos rfl), fun m hm => (hself m).trans (if_neg hm)⟩
  rw [e, (State.famineAct_calm _ o.part).op]
  exact State.endOp_gone _ _ _ _ _

/-- R254: an APPEND_KV from memory whose groups are there. -/
theorem appendKv_eq {s s1 : State} {c : Cmd} {x : Staged} (hadm : s.Admits 0x04 c x) (hspec : specBit c = false) (hfi : fiEn c = false)
    (htail : (s.seq x.part (sqidOf c)).hasTail ((s.desc x.part).layersM1 + 1) = false)
    (hread : s.slotRead x.part c ((s.seq x.part (sqidOf c)).lenOf (layerOf c)) = false)
    (hneed : s.needBlocks x.part (sqidOf c) (layerOf c) ((s.seq x.part (sqidOf c)).lenOf (layerOf c)) (countOf c) s.hw.nextOpid = .ok s1)
    {o : Op} {u : State} (hadmit : s1.admitOp x.part c = (o, u)) (hcmd : o.cmd = c) : exec (.appendKv c) s = .next (u.appendWrite o.opid) := by
  have hstart : s.appendStart x.part c = (s.seq x.part (sqidOf c)).lenOf (layerOf c) := by
    rw [State.appendStart, hspec]
    rfl
  have hfull : u.inputFull o = true := by
    rw [State.inputFull, inputBytes, hcmd, hfi]
    exact decide_eq_true (Nat.zero_le _)
  refine congrArg Host.Outcome.next ((State.ringRow_admits hadm _).trans ?_)
  rw [State.appendKv, hstart]
  dsimp only
  rw [htail, hspec, hread, hneed]
  simp only [Bool.and_false, Bool.false_and, Bool.false_eq_true, if_false, hadmit]
  exact if_pos hfull

theorem appendKv_spec {s s1 : State} {c : Cmd} {x : Staged} (hadm : s.Admits 0x04 c x) (hfresh : s.Fresh) (hspec : specBit c = false)
    (hfi : fiEn c = false) (htail : (s.seq x.part (sqidOf c)).hasTail ((s.desc x.part).layersM1 + 1) = false)
    (hread : s.slotRead x.part c ((s.seq x.part (sqidOf c)).lenOf (layerOf c)) = false)
    (hneed : s.needBlocks x.part (sqidOf c) (layerOf c) ((s.seq x.part (sqidOf c)).lenOf (layerOf c)) (countOf c) s.hw.nextOpid = .ok s1) :
    ∃ t, exec (.appendKv c) s = .next t ∧ s.Took t c
      ∧ (t.seq x.part (sqidOf c)).lenOf (layerOf c) = (s.seq x.part (sqidOf c)).lenOf (layerOf c) + countOf c
      ∧ (∀ l, l ≠ layerOf c → (t.seq x.part (sqidOf c)).lenOf l = (s.seq x.part (sqidOf c)).lenOf l) ∧ t.op s.hw.nextOpid = none := by
  obtain ⟨o, tr, hadmit, hopid, hcmd, hpart, -, -⟩ := s1.admitOp_counted x.part (c := c) (by rw [hadm.opcode]; decide)
  obtain ⟨u, hu⟩ : ∃ u, u = (s1.tookOp c o tr).countIn o := ⟨_, rfl⟩
  obtain ⟨hops, hnext, hcmds⟩ := s1.countIn_took c o tr
  have hlens : s1.SameLens u := hu ▸ ((s1.tookOp c o tr).countIn_reports o).lens
  rw [← hu] at hadmit hops hnext hcmds
  have hcalm := State.needBlocks_calm hneed
  have hopid' : o.opid = s.hw.nextOpid := hopid.trans hcalm.nextOpid
  have hop : u.op o.opid = some o := (State.op_append hops (fun y hy => hopid' ▸ hfresh.1 y (hcalm.ops ▸ hy))).1
  have happ := State.appendWrite_spec hop (hcmd ▸ hspec)
  obtain ⟨⟨htag, hstaged⟩, hgone, hself, hothers⟩ := happ
  have hbefore (l : Nat) : (u.seq x.part (sqidOf c)).lenOf l = (s.seq x.part (sqidOf c)).lenOf l :=
    (hlens.lenOf _ _ l).trans (hcalm.sameLens.lenOf _ _ l)
  rw [hcmd, hpart] at hself hothers
  exact ⟨_, appendKv_eq hadm hspec hfi htail hread hneed hadmit hcmd,
    ⟨State.stagedFor_unstaged (hstaged.trans hcmds), (htag.trans hnext).trans (congrArg (· + 1) hcalm.nextOpid)⟩,
    hself.trans (congrArg (· + countOf c) (hbefore _)), fun l hl => (hothers l hl).trans (hbefore l), hopid' ▸ hgone⟩

/-- Settles O38: `State.appendWrite_spec` for the admitted APPEND_KV, `commit_spec`, `commit_stale` and `abort_spec`. -/
theorem tokensAppendedAndCommitted : Obligations.TokensAppendedAndCommitted := by
  refine ⟨fun s s1 c x hadm hfresh hspec hfi => ?_, fun s c x => ⟨fun hadm hlink hep hn => ?_, fun hadm hlink hep => ?_, fun hadm => ?_⟩⟩
  · intro p q htail hread hneed
    exact appendKv_spec hadm hfresh hspec hfi htail hread hneed
  · obtain ⟨t, u, e, hu, ht⟩ := commit_spec hadm hlink hep hn
    exact ⟨t, e, hu.finished ht⟩
  · obtain ⟨t, e, ht⟩ := commit_stale hadm hlink hep
    obtain ⟨use, hself⟩ := ht.seq
    obtain ⟨a, i, r, htouch⟩ := Seq.touched_eq (s.seq x.part (sqidOf c)) use s.hw.nextOpid c.ring
    refine ⟨t, e, ht.took, ?_⟩
    rw [hself, htouch]
    exact ⟨rfl, rfl, rfl, rfl⟩
  · obtain ⟨t, u, e, hu, ht⟩ := abort_spec hadm
    exact ⟨t, e, hu.finished ht⟩

end Sys2Proof.Machine
end

section
/-! SUPPORT. A state that refutes O46, and what the model answers in it. -/

namespace Sys2Proof.Machine

/-- R422, R434: with no room for the record of the fatal event its loss is announced, and the interrupt is one more light-weight write. -/
theorem refClkAbsent_fullRecorder : ∃ t, exec .refClkAbsent fullRecorder = .next t ∧ t.hw.light.length = 1 :=
  ⟨_, rfl, by decide +kernel⟩

/-- Refutes O46: the fatal clauses keep Headwater's state even where the recorder has no room, but with a full recorder (`fullRecorder`) the lost
record of an absent `REF_CLK` is announced, and the interrupt's write waits in Headwater's light-weight queue. -/
theorem not_clocksAndPlls : ¬ Obligations.ClocksAndPlls := by
  intro h
  obtain ⟨-, -, -, -, -, -, -, -, hfatal, -⟩ := h fullRecorder 0
  obtain ⟨⟨t, ht, -, -, -, -, -, -, hhw, -⟩, -⟩ := hfatal rfl rfl
  obtain ⟨u, hu, hlight⟩ := refClkAbsent_fullRecorder
  obtain rfl : t = u := Host.Outcome.next.inj (ht.symm.trans hu)
  rw [hhw] at hlight
  exact absurd hlight (by decide)

end Sys2Proof.Machine
end

section
/-! SUPPORT. Rings and their doorbells (R245, R284, R285): what `ENABLE` does to the selected ring, what a doorbell does to its own, and what taking
up a pool leaves alone. -/

namespace Sys2Proof.Machine

/-! Writes of Headwater's registers (R283, R458) -/

theorem State.hostWrite_hw {s : State} (ho : s.HostOpen) {off : Nat} (h : 0x50000 ≤ off ∧ off < 0x100000) (ha : off % 8 = 0) (v : W64) :
    s.hostWrite off v = s.writeHw off v := by
  rw [State.hostWrite_open ho, s.applyWrite_unit (by omega) (by omega) (by omega) ha, if_neg (by omega), if_neg (by omega), if_neg (by omega),
    if_neg (by omega), if_neg (by omega), if_pos h.2]

theorem State.writeHw_bell (s : State) {n : Nat} (hn : n < 2 ^ 14) (v : W64) : s.writeHw (0x80000 + 8 * n) v = s.ringBell n v := by
  unfold State.writeHw
  split
  any_goals omega
  rw [if_pos (by omega), show (0x80000 + 8 * n - 0x80000) / 8 = n by omega]

theorem exec_ringEnable {s : State} (ho : s.HostOpen) {v : W64} (hv : v.getLsbD 63 = true) : exec (.ringEnable v) s = .next (s.enableRing v) :=
  congrArg Host.Outcome.next ((if_pos hv).trans ((State.hostWrite_hw ho (by decide) rfl v).trans (if_pos hv)))

theorem exec_ringDisable {s : State} (ho : s.HostOpen) {v : W64} (hv : v.getLsbD 63 = false) : exec (.ringDisable v) s = .next (s.disableRing v) := by
  have hv' : ¬ bit v 63 = true := by rw [bit, hv]; exact Bool.false_ne_true
  exact congrArg Host.Outcome.next ((if_neg hv').trans ((State.hostWrite_hw ho (by decide) rfl v).trans (if_neg hv')))

/-- R285: the two spellings of a doorbell. -/
theorem exec_bell {s : State} (ho : s.HostOpen) (n : BitVec 14) (v : W64) {c : Instr}
    (hc : c ∈ [Instr.doorbell n v, .regWrite (BitVec.ofNat 24 (0x80000 + 8 * n.toNat)) v]) : exec c s = .next (s.ringBell n.toNat v) := by
  have hbell : s.hostWrite (0x80000 + 8 * n.toNat) v = s.ringBell n.toNat v :=
    (State.hostWrite_hw ho (by omega) (by omega) v).trans (s.writeHw_bell n.isLt v)
  obtain rfl | hc := List.mem_cons.1 hc
  · exact congrArg Host.Outcome.next hbell
  · obtain rfl := List.mem_singleton.1 hc
    refine congrArg Host.Outcome.next (Eq.trans ?_ hbell)
    rw [BitVec.toNat_ofNat, Nat.mod_eq_of_lt (by omega)]

/-! Taking up a pool (R245) -/

/-- `t` has the rings, clusters, pairs and configuration of `s`. -/
structure State.SameUnits (s t : State) : Prop where
  rings : t.hw.rings = s.hw.rings
  clusters : t.clusters = s.clusters
  pairs : t.pairs = s.pairs
  cfg : t.cfg = s.cfg

theorem State.SameUnits.refl (s : State) : s.SameUnits s := ⟨rfl, rfl, rfl, rfl⟩

theorem State.SameUnits.trans {r s t : State} (a : r.SameUnits s) (b : s.SameUnits t) : r.SameUnits t :=
  ⟨b.rings.trans a.rings, b.clusters.trans a.clusters, b.pairs.trans a.pairs, b.cfg.trans a.cfg⟩

theorem State.SameUnits.foldl {α : Type} {f : State → α → State} (hf : ∀ (s : State) (x : α), s.SameUnits (f s x)) (xs : List α) (s : State) :
    s.SameUnits (xs.foldl f s) := by
  induction xs generalizing s with
  | nil => exact State.SameUnits.refl s
  | cons x xs ih => exact (hf s x).trans (ih _)

theorem State.SameUnits.ring {s t : State} (h : s.SameUnits t) (k : Nat) : t.ring k = s.ring k := by rw [State.ring, State.ring, h.rings]

theorem State.Told.sameUnits {s t : State} {j : Nat} (h : s.Told t j) : s.SameUnits t :=
  ⟨congrArg (·.hw.rings) h.rest, congrArg (·.clusters) h.rest, congrArg (·.pairs) h.rest, congrArg (·.cfg) h.rest⟩

theorem State.judgeFamine_sameUnits (s : State) (p : Nat) : s.SameUnits (s.judgeFamine p) := by
  unfold State.judgeFamine
  extract_lets d old f u
  have hu : s.SameUnits u := ⟨rfl, rfl, rfl, rfl⟩
  split
  · exact State.SameUnits.refl s
  · split
    · have hclear : u.SameUnits (u.clearPaused p) := ⟨rfl, rfl, rfl, rfl⟩
      exact (hu.trans hclear).trans (State.irqPending_told _ _ _ _ _ _).sameUnits
    · exact hu

theorem State.setPg_sameUnits (s : State) (p g : Nat) (r : PgRec) : s.SameUnits (s.setPg p g r) := by
  obtain ⟨k, m, e⟩ := s.setPg_eq p g r
  rw [e]
  exact ⟨rfl, rfl, rfl, rfl⟩

/-- R245: taking up a pool changes its records and sequences' marks, and no unit besides. -/
theorem State.takeUpPool_sameUnits (s : State) (p : Nat) : s.SameUnits (s.takeUpPool p) := by
  unfold State.takeUpPool
  extract_lets d rs bs u
  split
  · exact State.SameUnits.refl s
  · have hu : s.SameUnits u := State.SameUnits.trans (s := s.modPool p _) ⟨rfl, rfl, rfl, rfl⟩ (State.judgeFamine_sameUnits _ p)
    refine hu.trans (State.SameUnits.foldl (fun s e => ?_) _ _)
    split
    · exact State.SameUnits.refl s
    · exact s.setPg_sameUnits p _ _

/-! Enabling and disabling (R284) -/

theorem Ring.configured_irqVec (r : Ring) (v : W64) : (r.configured v).irqVec = v.setWidth 16 := by
  simp [Ring.configured, BitVec.setWidth_eq_extractLsb']

/-- R284: a ring out of service enters service. -/
theorem State.enableRing_spec {s : State} (h : (s.ring s.hw.ringSel.toNat).enable = false) (v : W64) :
    (s.setRing s.hw.ringSel.toNat ((s.ring s.hw.ringSel.toNat).configured v).started).SameUnits (s.enableRing v) := by
  unfold State.enableRing
  dsimp only
  rw [h]
  exact State.takeUpPool_sameUnits _ _

theorem Ring.settle_draining (r : Ring) : ({ r with draining := true } : Ring).settle
    = { r with enable := r.enable && (r.done != r.fetched), draining := r.done != r.fetched } := by
  unfold Ring.settle
  by_cases h : r.done = r.fetched <;> simp [h]

/-- R284: a ring in service that is told to stop stops at once where every fetched command has completed. -/
theorem State.disableRing_on {s : State} {r : Ring} (hr : s.ring s.hw.ringSel.toNat = r) (h : r.enable = true) (v : W64) :
    s.disableRing v = s.setRing s.hw.ringSel.toNat { r with enable := r.done != r.fetched, draining := r.done != r.fetched } := by
  unfold State.disableRing
  dsimp only
  rw [hr, if_pos h, Ring.settle_draining, h, Bool.true_and]

theorem State.disableRing_off {s : State} {r : Ring} (hr : s.ring s.hw.ringSel.toNat = r) (h : r.enable = false) (v : W64) :
    s.disableRing v = s.setRing s.hw.ringSel.toNat (r.configured v) := by
  unfold State.disableRing
  dsimp only
  rw [hr, if_neg (by rw [h]; decide)]

/-! Doorbells (R285) -/

theorem State.ringBell_off {s : State} {n : Nat} (h : (s.ring n).enable = false) (v : W64) :
    s.ringBell n v = (s.setRing n { s.ring n with offBell := true }).note 0x02 (some (s.ring n).part.toNat) true 0 0x80 0 (n + 2 ^ 31) v.toNat := by
  unfold State.ringBell
  dsimp only
  rw [h]
  rfl

/-- R285: whether ring `r` in service takes the index `tail`. -/
def Ring.Takes (r : Ring) (tail : W32) : Prop := (tail - r.fetched).toNat < 2 ^ 31 ∧ (tail - r.done).toNat ≤ r.n

theorem State.ringBell_taken {s : State} {n : Nat} (h : (s.ring n).enable = true) {v : W64} (ht : (s.ring n).Takes (v.setWidth 32)) :
    s.ringBell n v = s.setRing n { s.ring n with tail := v.setWidth 32 } := by
  unfold State.ringBell
  dsimp only
  rw [h, if_neg (by decide), if_pos (Bool.and_eq_true_iff.2 ⟨decide_eq_true ht.1, decide_eq_true ht.2⟩)]

theorem State.ringBell_bad {s : State} {n : Nat} (h : (s.ring n).enable = true) {v : W64} (ht : ¬ (s.ring n).Takes (v.setWidth 32)) :
    s.ringBell n v = (s.setRing n { s.ring n with badBell := true }).note 0x02 (some (s.ring n).part.toNat) true 0 0x80 0 n v.toNat := by
  unfold State.ringBell
  dsimp only
  rw [h, if_neg (by decide), if_neg]
  intro hand
  obtain ⟨hfetched, hdone⟩ := Bool.and_eq_true_iff.1 hand
  exact ht ⟨of_decide_eq_true hfetched, of_decide_eq_true hdone⟩

/-- R285: a refused doorbell marks its ring and is logged. -/
theorem State.refused_bell (s : State) (n a : Nat) (x : Ring) (p : Nat) (v : W64) :
    let t := (s.setRing n x).note 0x02 (some p) true 0 0x80 0 a v.toNat
    t.ring n = x ∧ (∀ k, k ≠ n → t.ring k = s.ring k)
      ∧ t.Logged s.ras.total ⟨s.clk.tick, 0x02, some p, true, 0, 0x80, 0, BitVec.ofNat 32 a, v⟩
      ∧ { t with hw := { t.hw with rings := s.hw.rings }, ras := s.ras } = s := by
  have hlog := (s.setRing n x).note_logged 0x02 (some p) true 0 0x80 0 a v.toNat
  rw [BitVec.ofNat_toNat, BitVec.setWidth_eq] at hlog
  exact ⟨s.ring_setRing_self n x, fun k hk => s.ring_setRing_ne hk x, hlog, rfl⟩

/-- Settles O21: `State.enableRing_spec` and `Ring.settle_draining` for `ENABLE`, and the three ends of a doorbell. -/
theorem ringsAndDoorbells : Obligations.RingsAndDoorbells := by
  refine ⟨fun s v ho => ?_, fun s n v ho => ?_⟩
  · intro n r fields kept only
    refine ⟨fun hv hr => ?_, fun hv => ?_⟩
    · have hsame := State.enableRing_spec hr v
      have hself : (s.enableRing v).ring n = (r.configured v).started := (hsame.ring n).trans (s.ring_setRing_self n _)
      refine ⟨_, exec_ringEnable ho hv, ?_⟩
      rw [hself]
      exact ⟨⟨rfl, rfl, rfl, rfl, r.configured_irqVec v⟩, ⟨rfl, rfl, rfl, rfl, rfl⟩, rfl, rfl, rfl, rfl, rfl,
        fun k hk => (hsame.ring k).trans (s.ring_setRing_ne hk _), hsame.clusters, hsame.pairs, hsame.cfg⟩
    · have hset (x : Ring) : (s.setRing n x).ring n = x ∧ only (s.setRing n x) :=
        ⟨s.ring_setRing_self n x, fun k hk => s.ring_setRing_ne hk x, rfl, rfl, rfl⟩
      cases hr : r.enable with
      | false =>
        obtain ⟨hself, honly⟩ := hset (r.configured v)
        refine ⟨_, (exec_ringDisable ho hv).trans (congrArg Host.Outcome.next (State.disableRing_off rfl hr v)), ?_⟩
        rw [hself]
        exact ⟨⟨rfl, rfl, rfl, rfl, rfl⟩, honly, fun _ => ⟨⟨rfl, rfl, rfl, rfl, r.configured_irqVec v⟩, hr⟩,
          fun h => Bool.noConfusion h, rfl⟩
      | true =>
        obtain ⟨hself, honly⟩ := hset { r with enable := r.done != r.fetched, draining := r.done != r.fetched }
        refine ⟨_, (exec_ringDisable ho hv).trans (congrArg Host.Outcome.next (State.disableRing_on rfl hr v)), ?_⟩
        rw [hself]
        exact ⟨⟨rfl, rfl, rfl, rfl, rfl⟩, honly, fun h => Bool.noConfusion h, fun _ => ⟨rfl, rfl, rfl, rfl, rfl, rfl⟩, rfl⟩
  · intro r tail good ends
    have hrefused {u : State} {x : Ring} {a : Nat} (hu : s.ringBell n.toNat v = u)
        (he : u = (s.setRing n.toNat x).note 0x02 (some r.part.toNat) true 0 0x80 0 a v.toNat) : ends x (some (BitVec.ofNat 32 a)) := by
      obtain ⟨hself, hothers, hlog, hrest⟩ := s.refused_bell n.toNat a x r.part.toNat v
      intro c hc
      refine ⟨u, (exec_bell ho n v hc).trans (congrArg Host.Outcome.next hu), ?_⟩
      rw [he]
      exact ⟨hself, hothers, fun b hb => Option.some.inj hb ▸ hlog, hrest, fun h => absurd h (Option.some_ne_none _)⟩
    refine ⟨fun hr hgood c hc => ?_, fun hr hbad => hrefused rfl (State.ringBell_bad hr hbad), fun hr => hrefused rfl (State.ringBell_off hr v)⟩
    refine ⟨_, (exec_bell ho n v hc).trans (congrArg Host.Outcome.next (State.ringBell_taken hr hgood)), s.ring_setRing_self _ _,
      fun k hk => s.ring_setRing_ne hk _, fun a ha => absurd ha (Option.some_ne_none a).symm, rfl, fun _ => rfl⟩

end Sys2Proof.Machine
end

section
/-! SUPPORT. Completion records (R287, R292): their bytes, the slot they lie in, and what the completion of a command that its sequence does not allow
leaves. -/

namespace Sys2Proof.Machine

/-! Bytes of a word -/

theorem getLsbD_putBit {w : Nat} (m : BitVec w) (i : Nat) (b : Bool) {k : Nat} (hk : k < w) :
    (putBit m i b).getLsbD k = if k = i then b else m.getLsbD k := by
  cases b with
  | false =>
    rw [getLsbD_putBit_false m i hk]
    split <;> simp [*]
  | true =>
    rw [getLsbD_putBit_true m i hk]
    split <;> simp [*]

theorem leNat_lt (bs : List Byte) : leNat bs < 2 ^ (8 * bs.length) := by
  induction bs with
  | nil => exact Nat.one_pos
  | cons b bs ih =>
    have hb := b.isLt
    rw [leNat, List.length_cons, Nat.mul_succ, Nat.pow_add]
    omega

theorem leBytes_leNat (bs : List Byte) : leBytes bs.length (leNat bs) = bs := by
  induction bs with
  | nil => rfl
  | cons b bs ih =>
    have hb := b.isLt
    have hlow : BitVec.ofNat 8 (b.toNat + 256 * leNat bs) = b := BitVec.eq_of_toNat_eq (by rw [BitVec.toNat_ofNat]; omega)
    have hhigh : (b.toNat + 256 * leNat bs) / 256 = leNat bs := by omega
    rw [List.length_cons, leBytes, leNat, hlow, hhigh, ih]

/-- Bit `k` of a little-endian number is bit `k % 8` of byte `k / 8`. -/
theorem testBit_leNat (bs : List Byte) (k : Nat) : (leNat bs).testBit k = (bs.getD (k / 8) 0).getLsbD (k % 8) := by
  induction bs generalizing k with
  | nil => simp [leNat]
  | cons b bs ih =>
    rw [leNat, Nat.add_comm, show 256 = 2 ^ 8 from rfl, Nat.testBit_two_pow_mul_add _ b.isLt]
    split
    · next h => rw [Nat.div_eq_of_lt h, Nat.mod_eq_of_lt h, List.getD_cons_zero]; rfl
    · next h => rw [ih, show k / 8 = (k - 8) / 8 + 1 by omega, List.getD_cons_succ, show (k - 8) % 8 = k % 8 by omega]

/-- Replacing a bit of a little-endian number replaces it in its byte. -/
theorem putBit_leNat (w : Nat) {bs : List Byte} {i j : Nat} (hi : i < bs.length) (hj : j < 8) (b : Bool) :
    putBit (BitVec.ofNat w (leNat bs)) (8 * i + j) b = BitVec.ofNat w (leNat (bs.set i (putBit (bs.getD i 0) j b))) := by
  apply BitVec.eq_of_getLsbD_eq
  intro k hk
  rw [getLsbD_putBit _ _ _ hk, BitVec.getLsbD_ofNat, BitVec.getLsbD_ofNat, testBit_leNat, testBit_leNat]
  simp only [List.getD_eq_getElem?_getD, List.getElem?_set]
  by_cases h : i = k / 8
  · subst h
    rw [if_pos rfl, if_pos hi, Option.getD_some, getLsbD_putBit _ _ _ (Nat.mod_lt k (by decide))]
    by_cases hkj : k % 8 = j
    · rw [if_pos (by omega), if_pos hkj, decide_eq_true hk, Bool.true_and]
    · rw [if_neg (by omega), if_neg hkj]
  · rw [if_neg h, if_neg (by omega)]

/-- Part of the bytes written, read back. -/
theorem readBytes_writeBytes_slice (m : Tab Byte) (a : Nat) {bs : List Byte} {i n : Nat} (h : i + n ≤ bs.length) :
    readBytes (writeBytes m a bs) (a + i) n = (bs.drop i).take n := by
  apply List.ext_getElem
  · simp [readBytes]
    omega
  · intro k hk _
    have hkn : k < n := by simpa [readBytes] using hk
    simp only [readBytes, List.getElem_map, List.getElem_range, List.getElem_take, List.getElem_drop, Nat.add_assoc]
    exact byteAt_writeBytes_in m (by omega)

/-! Completion records (R292) -/

/-- R287, R292: the 32 bytes of a completion record; `phase` is PHASE. -/
def recordBytes (op sqid : Nat) (c : Compl) (phase : Bool) : List Byte :=
  BitVec.ofNat 8 c.status :: BitVec.ofNat 8 op :: putBit (if c.naninf then 2 else 0) 0 phase :: BitVec.ofNat 8 c.detail ::
    (leBytes 4 c.opid.toNat ++ (leBytes 2 (sqid % 16384) ++ (leBytes 2 c.epoch ++ (leBytes 2 c.sat ++ (leBytes 2 c.flush
      ++ (leBytes 2 c.nansc ++ (leBytes 2 c.masked ++ leBytes 12 c.result.toNat)))))))

theorem length_recordBytes (op sqid : Nat) (c : Compl) (phase : Bool) : (recordBytes op sqid c phase).length = 32 := by
  simp [recordBytes]

theorem leBytes_recordOf (op sqid : Nat) (c : Compl) (phase : Bool) :
    leBytes 32 (putBit (recordOf op sqid c) 16 phase).toNat = recordBytes op sqid c phase := by
  have hrec : putBit (recordOf op sqid c) 16 phase = BitVec.ofNat 256 (leNat (recordBytes op sqid c phase)) :=
    (putBit_leNat 256 (bs := leBytes 1 c.status ++ leBytes 1 op ++ [if c.naninf then 2 else 0] ++ leBytes 1 c.detail
      ++ leBytes 4 c.opid.toNat ++ leBytes 2 (sqid % 16384) ++ leBytes 2 c.epoch ++ leBytes 2 c.sat ++ leBytes 2 c.flush
      ++ leBytes 2 c.nansc ++ leBytes 2 c.masked ++ leBytes 12 c.result.toNat) (i := 2) (j := 0) (by simp) (by decide) phase).trans
      (congrArg (fun bs => BitVec.ofNat 256 (leNat bs)) (by simp [recordBytes, leBytes]))
  have hlt := leNat_lt (recordBytes op sqid c phase)
  have hbytes := leBytes_leNat (recordBytes op sqid c phase)
  rw [length_recordBytes] at hlt hbytes
  rw [hrec, BitVec.toNat_ofNat, Nat.mod_eq_of_lt hlt, hbytes]

/-! Where a record lies (R287, R330) -/

/-- Bytes that stand in one page lie one after the other in memory. -/
theorem State.vaWrite_within {s : State} {space va pa : Nat} {bs : List Byte} (h0 : bs.length ≠ 0) (hin : va % 2 ^ 25 + bs.length ≤ 2 ^ 25)
    (hpa : s.paOf space va = some pa) : s.vaWrite space va bs = { s with mem := writeBytes s.mem pa bs } := by
  have hpiece : pieces (bs.length / 2 ^ 25 + 2) va bs.length = [(va, bs.length)] := by
    unfold pieces
    rw [if_neg h0]
    dsimp only
    rw [show Nat.min bs.length (2 ^ 25 - va % 2 ^ 25) = bs.length from Nat.min_eq_left (by omega), Nat.sub_self, pieces_zero]
  rw [State.vaWrite, hpiece, List.foldl_cons, List.foldl_nil]
  dsimp only
  rw [hpa, List.take_length]

/-- `r` once the record of index `idx` is written. -/
def Ring.recorded (r : Ring) (idx : W32) : Ring :=
  (Ring.advance (r.written.length + 2) { r with written := r.written ++ [idx.toNat] }).settle

theorem Ring.settle_done (r : Ring) : r.settle.done = r.done := by
  unfold Ring.settle
  split <;> rfl

/-- R284: `DONE` passes the oldest command of a ring in which no later one has completed. -/
theorem Ring.recorded_done {r : Ring} (hw : r.written = []) : (r.recorded r.done).done = r.done + 1 := by
  rw [Ring.recorded, Ring.settle_done, hw]
  simp [Ring.advance]

theorem State.recordWritten_quiet (s : State) (ring : Nat) (idx : W32) :
    s.recordWritten ring idx none false = s.setRing ring ((s.ring ring).recorded idx) := by
  unfold State.recordWritten Ring.recorded
  simp

/-- Where the record of index `idx` lies. -/
def Ring.slotVa (r : Ring) (idx : W32) : Nat := r.cbase.toNat + 32 * (idx.toNat % r.n)

theorem State.writeRecord_ok {s : State} {ring : Nat} {r : Ring} (hr : s.ring ring = r) {idx : W32}
    (hj : s.judgeStruct r.space true (r.slotVa idx) 32 = .ok) (w : BitVec 256) (raise : Option Nat) (irq : Bool) :
    s.writeRecord ring idx w raise irq = (s.lightWrite .record (.partition r.part.toNat) r.space (r.slotVa idx)
      (leBytes 32 (putBit w 16 (phaseOf idx.toNat r.n)).toNat)).recordWritten ring idx raise irq := by
  subst hr
  unfold State.writeRecord
  dsimp only
  rw [show s.judgeStruct (s.ring ring).space true ((s.ring ring).cbase.toNat + 32 * (idx.toNat % (s.ring ring).n)) 32 = .ok from hj]
  rfl

/-- `t` is `s` with the command `c` completed: the bytes `bs` at `pa` are its record and its ring is `x`. -/
structure State.Recorded (s t : State) (c : Cmd) (pa : Nat) (bs : List Byte) (x : Ring) : Prop where
  gone : t.stagedFor c = none
  mem : t.mem = writeBytes s.mem pa bs
  ring : t.ring c.ring = x
  seqs : t.hw.seqs = s.hw.seqs
  clusters : t.clusters = s.clusters
  pairs : t.pairs = s.pairs

/-- R287, R292: a command that asks for no signal and no interrupt completes with its record in its slot. -/
theorem State.finish_recorded {s : State} {p : Nat} {c : Cmd} {y : Compl} {r : Ring} {pa : Nat} (hraise : raiseEn c = false) (hirq : irqBit c = false)
    (hl : isClassL y.status y.detail = false) (hr : s.ring c.ring = r) (hin : r.slotVa c.idx % 2 ^ 25 + 32 ≤ 2 ^ 25)
    (hj : s.judgeStruct r.space true (r.slotVa c.idx) 32 = .ok) (hpa : s.paOf r.space (r.slotVa c.idx) = some pa) :
    s.Recorded (s.finish p c y) c pa (recordBytes (opcodeOf c) (sqidOf c) y (phaseOf c.idx.toNat r.n)) (r.recorded c.idx) := by
  obtain ⟨tr, htr⟩ := (s.unstage c).trace_eq 0x04 p 0x80 y.opid y.status y.detail
  obtain ⟨u, hu⟩ : ∃ u, u = (s.unstage c).modTrc (fun _ => tr) := ⟨_, rfl⟩
  have hur : u.ring c.ring = r := by rw [hu]; exact hr
  have huj : u.judgeStruct r.space true (r.slotVa c.idx) 32 = .ok := by rw [hu]; exact hj
  have hupa : u.paOf r.space (r.slotVa c.idx) = some pa := by rw [hu]; exact hpa
  have e : s.finish p c y = (u.lightWrite .record (.partition r.part.toNat) r.space (r.slotVa c.idx)
      (recordBytes (opcodeOf c) (sqidOf c) y (phaseOf c.idx.toNat r.n))).recordWritten c.ring c.idx none false := by
    rw [State.finish, State.completeCmd, State.completeUnder, hl, if_neg Bool.false_ne_true, htr, ← hu, State.writeRecord_ok hur huj,
      leBytes_recordOf, hraise, hirq]
    rfl
  have hlen := length_recordBytes (opcodeOf c) (sqidOf c) y (phaseOf c.idx.toNat r.n)
  generalize recordBytes (opcodeOf c) (sqidOf c) y (phaseOf c.idx.toNat r.n) = bs at e hlen ⊢
  rw [State.lightWrite, State.vaWrite_within (by rw [hlen]; decide) (hlen ▸ hin) hupa, State.recordWritten_quiet] at e
  obtain ⟨v, hv⟩ : ∃ v, v = ({ u with mem := writeBytes u.mem pa bs } : State).light .record (.partition r.part.toNat) true r.space
    (r.slotVa c.idx) bs.length := ⟨_, rfl⟩
  have hvhw : v.ring c.ring = r ∧ v.hw.staged = (s.unstage c).hw.staged ∧ v.hw.seqs = s.hw.seqs := by
    rw [hv]
    exact ⟨hur, by rw [hu]; rfl, by rw [hu]; rfl⟩
  rw [← hv, hvhw.1] at e
  rw [e]
  refine ⟨State.stagedFor_unstaged (s := s) (congrArg (List.map _) hvhw.2.1), ?_, State.ring_setRing_self _ _ _, hvhw.2.2, ?_, ?_⟩
  · rw [State.setRing_mem, hv, State.light_mem, hu]
    rfl
  · rw [State.setRing_clusters, hv, State.light_clusters, hu]
    rfl
  · rw [State.setRing_pairs, hv, State.light_pairs, hu]
    rfl

/-- A command that its sequence does not allow completes in the step that takes it up (R279, R294). -/
theorem State.ringRow_denied {s : State} {op : Nat} {c : Cmd} {x : Staged} {y : Compl} (hserving : s.serving = true) (hop : opcodeOf c = op)
    (hstaged : s.stagedFor c = some x) (hadm : s.admissible x = (true, s)) (hseq : s.seqCheck x.part c = some y)
    (effect : State → Nat → Cmd → State) : s.ringRow op c effect = s.finish x.part c y := by
  have hpresent : s.present c = s := if_pos (by rw [hstaged]; rfl)
  unfold State.ringRow
  rw [if_neg (by simp [hserving, hop])]
  dsimp only
  rw [hpresent, hstaged]
  dsimp only
  rw [hadm]
  dsimp only
  rw [hseq]

/-- R279: a RELEASE of a sequence that is FREE. -/
theorem State.seqCheck_release {s : State} {p : Nat} {c : Cmd} (hop : opcodeOf c = 0x02) (hfree : (s.seq p (sqidOf c)).st = .free) :
    s.seqCheck p c = some (Compl.plain 0x22 0x03) := by
  unfold State.seqCheck
  dsimp only
  rw [hop, hfree]
  rfl

/-- Settles O36: the RELEASE is denied by `State.seqCheck_release`, and `State.finish_recorded` says what its completion leaves. -/
theorem completionRecord : Obligations.CompletionRecord := by
  intro s c x pa hserving hop hstaged hnew hadm hfree hraise hirq r slot hpage hj hpa
  have hfind : s.hw.ops.find? (fun o => o.cmd = c && opcodeOf c = 0x02) = none := List.find?_eq_none.2 (fun y hy => by simp [hnew y hy])
  have e : exec (.release c) s = .next (s.finish x.part c (Compl.plain 0x22 0x03)) := by
    refine congrArg Host.Outcome.next ?_
    rw [hfind]
    exact State.ringRow_denied hserving hop hstaged hadm (State.seqCheck_release hop hfree) _
  have hin : r.slotVa c.idx % 2 ^ 25 + 32 ≤ 2 ^ 25 := by
    rw [Ring.slotVa]
    omega
  have hrec := State.finish_recorded (p := x.part) (y := Compl.plain 0x22 0x03) hraise hirq rfl rfl hin hj hpa
  generalize s.finish x.part c (Compl.plain 0x22 0x03) = t at e hrec
  obtain ⟨hgone, hmem, hring, hseqs, hclusters, hpairs⟩ := hrec
  have hbyte {i : Nat} (hi : i < 32) : byteAt t.mem (pa + i)
      = (recordBytes (opcodeOf c) (sqidOf c) (Compl.plain 0x22 0x03) (phaseOf c.idx.toNat r.n))[i] := by
    rw [hmem]
    exact byteAt_writeBytes_in s.mem hi
  have hnat {i n : Nat} (h : i + n ≤ 32) : readLe t.mem (pa + i) n
      = leNat (((recordBytes (opcodeOf c) (sqidOf c) (Compl.plain 0x22 0x03) (phaseOf c.idx.toNat r.n)).drop i).take n) := by
    rw [hmem, readLe, readBytes_writeBytes_slice s.mem pa h]
  refine ⟨_, e, hgone, hbyte (i := 0) (by decide), (hbyte (i := 1) (by decide)).trans ?_, hbyte (i := 3) (by decide),
    (hbyte (i := 2) (by decide)).trans ?_, (hnat (i := 8) (n := 2) (by decide)).trans ?_, (hnat (i := 20) (n := 12) (by decide)).trans ?_,
    fun a ha => ?_, fun hdone hwritten => ?_, hseqs, hclusters, hpairs⟩
  · exact congrArg (BitVec.ofNat 8) hop
  · change putBit 0 0 (decide (c.idx.toNat / r.n % 2 = 0)) = if c.idx.toNat / r.n % 2 = 0 then 1 else 0
    split
    · next h => rw [decide_eq_true h]; rfl
    · next h => rw [decide_eq_false h]; rfl
  · refine (leNat_leBytes 2 (sqidOf c % 16384)).trans (Nat.mod_eq_of_lt ?_)
    omega
  · exact leNat_leBytes 12 0
  · rw [hmem]
    exact byteAt_writeBytes_out s.mem ha
  · rw [hring, ← hdone]
    exact Ring.recorded_done hwritten

end Sys2Proof.Machine
end

section
/-! SUPPORT. What fetches no command (R286): completions, the ends of operations, contexts, the backlog, walks and the front end leave the `FETCHED`
index of every ring and the turn of the partitions. -/

namespace Sys2Proof.Machine

/-! What fetches no command -/

/-- `t` has the `FETCHED` index of every ring and the turn of the partitions as `s` has them. -/
structure State.Unfetched (s t : State) : Prop where
  fetched : ∀ k, (t.ring k).fetched = (s.ring k).fetched
  turn : t.hw.turnPart = s.hw.turnPart

theorem State.Unfetched.of_rings {s t : State} (hr : t.hw.rings = s.hw.rings) (ht : t.hw.turnPart = s.hw.turnPart) : s.Unfetched t :=
  ⟨fun k => by rw [State.ring, State.ring, hr], ht⟩

theorem State.Unfetched.of_hw {s t : State} (h : t.hw = s.hw) : s.Unfetched t := .of_rings (by rw [h]) (by rw [h])

theorem State.Unfetched.refl (s : State) : s.Unfetched s := .of_hw rfl

theorem State.Unfetched.trans {r s t : State} (a : r.Unfetched s) (b : s.Unfetched t) : r.Unfetched t :=
  ⟨fun k => (b.fetched k).trans (a.fetched k), b.turn.trans a.turn⟩

theorem State.Unfetched.foldl {α : Type} {f : State → α → State} (hf : ∀ (s : State) (x : α), s.Unfetched (f s x)) (xs : List α) (s : State) :
    s.Unfetched (xs.foldl f s) := by
  induction xs generalizing s with
  | nil => exact State.Unfetched.refl s
  | cons x xs ih => exact (hf s x).trans (ih _)

theorem State.Unfetched.of_unreported {s t : State} (h : t.unreported s = s) : s.Unfetched t :=
  .of_rings (congrArg (·.hw.rings) h) (congrArg (·.hw.turnPart) h)

theorem State.Told.unfetched {s t : State} {j : Nat} (h : s.Told t j) : s.Unfetched t := .of_unreported h.rest

theorem State.classP_unfetched (s : State) (p cause addr : Nat) : s.Unfetched (s.classP p cause addr) :=
  .of_unreported (s.classP_faulted p cause addr).rest

theorem State.setRing_unfetched {s : State} {n : Nat} {c : Ring} (h : c.fetched = (s.ring n).fetched) : s.Unfetched (s.setRing n c) := by
  refine ⟨fun k => ?_, rfl⟩
  by_cases hk : k = n
  · rw [hk, State.ring_setRing_self, h]
  · rw [State.ring_setRing_ne s hk]

/-! Signals and completion records (R287, R292, R342) -/

theorem State.endSwait_hw (s : State) (sp outcome : Nat) : (s.endSwait sp outcome).hw = s.hw := by
  unfold State.endSwait
  extract_lets x cnt
  split
  · rfl
  · extract_lets y z u v w
    split
    · have hv : v.hw = s.hw := (State.modOut_hw u _).trans (s.setPair_hw sp _)
      have hw : w.hw = v.hw := by
        obtain ⟨tr, htr⟩ := v.trace_eq 0x0B x.part (BitVec.ofNat 8 (0x40 + sp)) (x.op.getD 0) 1 cnt
        exact (congrArg State.hw htr).trans (v.modTrc_hw _)
      exact (w.modWeir_hw _).trans (hw.trans hv)
    · exact s.setPair_hw sp _

theorem State.releaseWaiter_unfetched (s : State) (w : Waiter) : s.Unfetched (s.releaseWaiter w) := by
  cases w with
  | pair sp => exact .of_hw (s.endSwait_hw sp 0)
  | command r i => exact .of_rings rfl rfl
  | stream n tag => exact .of_hw rfl

theorem State.raise_unfetched (s : State) (n : Nat) : s.Unfetched (s.raise n) := by
  unfold State.raise
  dsimp only
  split
  · exact .of_hw rfl
  · exact (State.Unfetched.of_hw (s := s) (t := s.modSig (fun g => { g with waiters := g.waiters.filter (fun w => w.1 != n) })) rfl).trans
      (State.Unfetched.foldl State.releaseWaiter_unfetched _ _)

theorem Ring.advance_fetched (fuel : Nat) (r : Ring) : (Ring.advance fuel r).fetched = r.fetched := by
  induction fuel generalizing r with
  | zero => rfl
  | succ fuel ih =>
    unfold Ring.advance
    split
    · exact ih { r with done := r.done + 1, written := r.written.filter (· != r.done.toNat) }
    · rfl

theorem Ring.settle_fetched (r : Ring) : r.settle.fetched = r.fetched := by
  unfold Ring.settle
  split <;> rfl

theorem State.recordWritten_unfetched (s : State) (ring : Nat) (idx : W32) (raise : Option Nat) (irq : Bool) :
    s.Unfetched (s.recordWritten ring idx raise irq) := by
  unfold State.recordWritten
  extract_lets r r' s1 s2
  have hs1 : s.Unfetched s1 := State.setRing_unfetched ((Ring.settle_fetched _).trans (Ring.advance_fetched _ r'))
  have hs2 : s.Unfetched s2 := by
    refine hs1.trans ?_
    cases raise with
    | none => exact State.Unfetched.refl s1
    | some n => exact s1.raise_unfetched n
  split
  · exact hs2.trans (s2.sendIrq_told _ _ _ _).unfetched
  · exact hs2

theorem State.writeRecord_unfetched (s : State) (ring : Nat) (idx : W32) (w : BitVec 256) (raise : Option Nat) (irq : Bool) :
    s.Unfetched (s.writeRecord ring idx w raise irq) := by
  unfold State.writeRecord
  dsimp only
  split
  · exact (s.lightWrite_told _ _ _ _ _).unfetched.trans (State.recordWritten_unfetched _ ring idx raise irq)
  · exact State.setRing_unfetched rfl
  · exact s.classP_unfetched _ _ _

theorem State.completeUnder_unfetched (s : State) (set : CfgSet) (part : Nat) (c : Cmd) (x : Compl) : s.Unfetched (s.completeUnder set part c x) := by
  unfold State.completeUnder
  extract_lets s1 s2
  have hs1 : s.Unfetched s1 := by
    dsimp only [s1]
    split
    · exact .of_hw rfl
    · exact State.Unfetched.refl s
  exact (hs1.trans (s1.trace_told _ _ _ _ _ _).unfetched).trans (s2.writeRecord_unfetched _ _ _ _ _)

theorem State.finish_unfetched (s : State) (p : Nat) (c : Cmd) (x : Compl) : s.Unfetched (s.finish p c x) :=
  (State.Unfetched.of_rings (s := s) (t := s.unstage c) rfl rfl).trans (State.completeUnder_unfetched _ _ p c x)

/-! Page groups and sequences (R249 to R270, R279) -/

theorem State.setSeq_unfetched (s : State) (p q : Nat) (c : Seq) : s.Unfetched (s.setSeq p q c) :=
  .of_rings (by rw [State.setSeq_hw]; rfl) (by rw [State.setSeq_hw]; rfl)

theorem State.judgeFamine_unfetched (s : State) (p : Nat) : s.Unfetched (s.judgeFamine p) :=
  .of_rings (s.judgeFamine_sameUnits p).rings (congrArg (fun h : Hw => h.turnPart) (s.judgeFamine_unmarks p).rest :)

theorem State.dropRef_unfetched (s : State) (p g : Nat) : s.Unfetched (s.dropRef p g) := by
  unfold State.dropRef
  extract_lets u
  refine State.Unfetched.trans (.of_hw ?_) (State.judgeFamine_unfetched _ p)
  split
  · exact (u.unreferenced_hw p g).trans (s.modPg_hw p g _)
  · exact s.modPg_hw p g _

theorem State.unpin_unfetched (s : State) (p g : Nat) : s.Unfetched (s.unpin p g) := by
  unfold State.unpin
  extract_lets u
  have hu : s.Unfetched u := .of_hw (s.modPg_hw p g _)
  split
  · exact (hu.trans (.of_hw (u.modPool_hw p _))).trans (State.judgeFamine_unfetched _ p)
  · exact hu

theorem State.dropCopies_unfetched (s : State) (o : Op) : s.Unfetched (s.dropCopies o) :=
  State.Unfetched.foldl (fun s (r : Nat × PgRec) => (State.Unfetched.of_hw (s.modPg_hw o.part r.1 _)).trans (State.dropRef_unfetched _ o.part r.1)) _ s

theorem State.seqDone_unfetched (s : State) (p q : Nat) : s.Unfetched (s.seqDone p q) := by
  unfold State.seqDone
  dsimp only
  split
  · exact State.Unfetched.refl s
  · exact s.setSeq_unfetched p q _

theorem State.showProgress_unfetched (s : State) (p q : Nat) : s.Unfetched (s.showProgress p q) := by
  unfold State.showProgress
  split
  · split
    · exact State.Unfetched.refl s
    · exact s.setSeq_unfetched p q _
  · exact State.Unfetched.refl s

/-! The end and the halt of an operation (R202, R279, R333, R337) -/

theorem State.leaveLoans_unfetched (s : State) (o : Op) (m : BitVec 32) : s.Unfetched (s.leaveLoans o m) := .of_hw (s.leaveLoans_rest o m).1

theorem State.dropOp_unfetched (s : State) (i : W32) : s.Unfetched (s.dropOp i) := .of_rings rfl rfl

theorem State.freeOp_unfetched (s : State) (o : Op) : s.Unfetched (s.freeOp o) := by
  unfold State.freeOp
  extract_lets u v w live
  have hu : s.Unfetched u := State.Unfetched.foldl (fun s g => s.unpin_unfetched o.part g) o.pins s
  have hloans : u.Unfetched ((u.dropCopies o).leaveLoans o o.lent) := (u.dropCopies_unfetched o).trans (State.leaveLoans_unfetched _ o o.lent)
  have hpairs : u.Unfetched (((u.dropCopies o).leaveLoans o o.lent).freePairs o) := hloans.trans (.of_hw (State.freePairs_hw _ o))
  have hv : s.Unfetched v := (hu.trans hpairs).trans (State.dropOp_unfetched _ o.opid)
  have hw : s.Unfetched w := by
    dsimp only [w]
    split
    · exact hv
    · exact hv.trans ((v.seqDone_unfetched _ _).trans (State.showProgress_unfetched _ _ _))
  split
  · exact hw
  · exact hw.trans (.of_hw rfl)

theorem State.resumeRecord_unfetched (s : State) (p : Nat) (w : BitVec 256) (sig : Option Nat) : s.Unfetched (s.resumeRecord p w sig) := by
  unfold State.resumeRecord
  extract_lets t a w' u
  split
  · exact .of_hw rfl
  · split
    · have hset : (s.lightWrite .record (.partition p) p a (leBytes 32 w'.toNat)).Unfetched
          ((s.lightWrite .record (.partition p) p a (leBytes 32 w'.toNat)).setPt p { t with rringTail := t.rringTail + 1 }) := .of_hw rfl
      have hu : s.Unfetched u := ((s.lightWrite_told _ _ _ _ _).unfetched.trans hset).trans (State.irqPending_told _ _ _ _ _ _).unfetched
      cases sig with
      | none => exact hu
      | some n => exact hu.trans (u.raise_unfetched n)
    · exact .of_hw rfl
    · exact s.classP_unfetched _ _ _

theorem State.servedBy_unfetched (s : State) (o : Op) : s.Unfetched (s.servedBy o) := by
  unfold State.servedBy
  extract_lets e f
  exact State.Unfetched.foldl (fun s k => .of_hw (t := s.modPair k f) rfl) _ s

theorem State.endOp_unfetched (s : State) (opid : W32) (status detail : Nat) (result : BitVec 96) : s.Unfetched (s.endOp opid status detail result) := by
  unfold State.endOp
  split
  · exact State.Unfetched.refl s
  · next o _ =>
    extract_lets x u v w
    have hu : s.Unfetched u := (s.servedBy_unfetched o).trans (State.freeOp_unfetched _ o)
    split
    · have hv : u.Unfetched v := by
        dsimp only [v]
        split
        · exact .of_hw rfl
        · exact State.Unfetched.refl u
      exact ((hu.trans hv).trans (v.trace_told _ _ _ _ _ _).unfetched).trans (w.resumeRecord_unfetched _ _ _)
    · exact hu.trans (u.completeUnder_unfetched _ _ _ _)

theorem State.haltOp_unfetched (s : State) (opid : W32) (va : Nat) : s.Unfetched (s.haltOp opid va) := by
  unfold State.haltOp
  split
  · exact State.Unfetched.refl s
  · next o _ =>
    split
    · exact State.Unfetched.refl s
    · extract_lets src x u v
      have hu : s.Unfetched u := (s.leaveLoans_unfetched o o.lent).trans (.of_rings rfl rfl)
      have hv : u.Unfetched v := .of_hw (State.holdPairs_spec opid (List.range 8) u).1
      exact (hu.trans hv).trans (v.completeUnder_unfetched _ _ _ _)

theorem State.kill_unfetched (s : State) (p q va : Nat) : s.Unfetched (s.kill p q va) := by
  unfold State.kill
  extract_lets u v
  have hu : s.Unfetched u := by
    dsimp only [u]
    split
    · exact State.Unfetched.refl s
    · exact s.setSeq_unfetched p q _
  have hv : u.Unfetched v := State.Unfetched.foldl (fun s (o : Op) => s.endOp_unfetched o.opid _ _ _) _ u
  exact (hu.trans hv).trans (State.Unfetched.foldl (fun s (x : Staged) => s.finish_unfetched p x.cmd _) _ v)

theorem State.Unfetched.of_snd {α : Type} {s t : State} {x : α × State} {a : α} (h : s.Unfetched x.2) (e : x = (a, t)) : s.Unfetched t := by
  rw [e] at h
  exact h

/-! Contexts and the backlog (R282, R298 to R300) -/

theorem State.oxbowAccess_unfetched (s : State) (p q : Nat) (write : Bool) : s.Unfetched (s.oxbowAccess p q write).2 := by
  unfold State.oxbowAccess
  dsimp only
  split
  · exact s.classP_unfetched _ _ _
  · split
    · exact State.Unfetched.refl s
    · exact State.Unfetched.refl s
    · exact s.classP_unfetched _ _ _

theorem State.recordAccess_unfetched (s : State) (p q : Nat) : s.Unfetched (s.recordAccess p q).2 := by
  unfold State.recordAccess
  have h := s.oxbowAccess_unfetched p q false
  split
  · split
    · next heq => exact (h.of_snd heq).trans (State.light_told _ _ _ _ _ _ _).unfetched
    · next heq => exact h.of_snd heq
  · exact State.Unfetched.refl s

theorem State.spill_unfetched (s : State) (p q : Nat) : s.Unfetched (s.spill p q) := by
  unfold State.spill
  exact (s.lightWrite_told _ _ _ _ _).unfetched.trans (State.setSeq_unfetched _ p q _)

theorem State.obtainSlot_unfetched (s : State) (p keep : Nat) : s.Unfetched (s.obtainSlot p keep).2 := by
  unfold State.obtainSlot
  split
  · exact State.Unfetched.refl s
  · split
    · exact State.Unfetched.refl s
    · next vp _ =>
      split
      · exact State.Unfetched.refl s
      · next q _ =>
        have h := s.oxbowAccess_unfetched vp q true
        split
        · next u heq =>
          have hu : s.Unfetched u := h.of_snd heq
          dsimp only
          exact hu.trans (u.spill_unfetched vp q)
        · next heq => exact h.of_snd heq

theorem State.residency_unfetched (s : State) (p : Nat) (c : Cmd) : s.Unfetched (s.residency p c).2 := by
  unfold State.residency
  extract_lets op x
  split
  · exact State.Unfetched.refl s
  · split
    · exact State.Unfetched.refl s
    · split
      · exact State.Unfetched.refl s
      · have hslot := s.obtainSlot_unfetched p (seqKey p (sqidOf c))
        split
        · next heq => exact hslot.of_snd heq
        · next u heq =>
          have hrec := u.recordAccess_unfetched p (sqidOf c)
          have hu : s.Unfetched u := hslot.of_snd heq
          split
          · next heq' => exact hu.trans (hrec.of_snd heq')
          · next v heq' =>
            have hv : s.Unfetched v := hu.trans (hrec.of_snd heq')
            dsimp only
            split
            · exact hv.trans (v.setSeq_unfetched p _ _)
            · exact hv

theorem State.unreported_unreported (r s t : State) : (r.unreported s).unreported t = r.unreported t := rfl

/-- A write of the backlog's entries changes nothing but what reports change. -/
theorem State.setBacklog_rest (s : State) (p : Nat) (l : List Blog) :
    (s.setBacklog p l).unreported (s.modHw (fun h => { h with backlogs := Tab.set [] h.backlogs p l }))
      = s.modHw (fun h => { h with backlogs := Tab.set [] h.backlogs p l }) := by
  unfold State.setBacklog
  extract_lets u
  rw [show s.modHw (fun h => { h with backlogs := Tab.set [] h.backlogs p l }) = u from rfl]
  clear_value u
  split
  · rfl
  · extract_lets a
    split
    · rfl
    · split
      · exact (u.classP_faulted _ _ _).rest
      · rfl
      · refine foldl_reads (g := fun t : State => t.unreported u) (fun t e => ?_) _ u
        exact (State.unreported_unreported _ t u).symm.trans (congrArg (fun v : State => v.unreported u) (t.lightWrite_told _ _ _ _ _).rest)

theorem State.setBacklog_unfetched (s : State) (p : Nat) (l : List Blog) : s.Unfetched (s.setBacklog p l) :=
  (State.Unfetched.of_rings (s := s) (t := s.modHw (fun h => { h with backlogs := Tab.set [] h.backlogs p l })) rfl rfl).trans
    (.of_unreported (s.setBacklog_rest p l))

/-- `BACKLOGGED` and the state of a sequence are written with its map. -/
theorem State.recount_eq (s : State) (p q : Nat) : ∃ t m, s.recount p q = { s.modHw (fun h => { h with seqs := t }) with mem := m } := by
  unfold State.recount
  dsimp only
  split
  · exact ⟨s.hw.seqs, s.mem, rfl⟩
  · obtain ⟨m, hm⟩ := s.setSeq_eq p q _
    exact ⟨_, m, hm⟩

theorem State.recountFor_eq (s : State) (p : Nat) (c : Cmd) : ∃ t m, s.recountFor p c = { s.modHw (fun h => { h with seqs := t }) with mem := m } := by
  obtain ⟨t, m, h⟩ := s.recount_eq p (sqidOf c)
  unfold State.recountFor
  rw [h]
  dsimp only
  split
  · obtain ⟨t', m', h'⟩ := State.recount_eq ({ s.modHw (fun h => { h with seqs := t }) with mem := m } : State) p (childOf c)
    exact ⟨t', m', h'⟩
  · exact ⟨t, m, rfl⟩

theorem State.recountFor_unfetched (s : State) (p : Nat) (c : Cmd) : s.Unfetched (s.recountFor p c) := by
  obtain ⟨t, m, h⟩ := s.recountFor_eq p c
  rw [h]
  exact .of_rings rfl rfl

theorem State.modStaged_unfetched (s : State) (c : Cmd) (f : Staged → Staged) : s.Unfetched (s.modStaged c f) := .of_rings rfl rfl

theorem State.defer_unfetched (s : State) (p : Nat) (c : Cmd) : s.Unfetched (s.defer p c) := by
  have hjoin (l : List Blog) (f : Staged → Staged) : s.Unfetched (((s.setBacklog p l).modStaged c f).recountFor p c) :=
    ((s.setBacklog_unfetched p l).trans (State.modStaged_unfetched _ c f)).trans (State.recountFor_unfetched _ p c)
  unfold State.defer
  split
  · exact hjoin _ _
  · generalize (if (s.retriedHead p).isSome then 1 else 0) = k
    split
    · exact (State.Unfetched.of_rings (s := s) (t := s.modHw _) rfl rfl).trans (State.finish_unfetched _ p c _)
    · exact hjoin _ _

/-! Translation (R333, R334) -/

theorem State.translate_unfetched (s : State) (p : Nat) (c : Cmd) : s.Unfetched (s.translate p c).2 := by
  obtain ⟨t, ht⟩ := s.foldl_touchOpd (s.cmdOpds p c)
  have hs : (s.translate p c).2 = (s.cmdOpds p c).foldl State.touchOpd s := by
    unfold State.translate
    dsimp only
    split <;> rfl
  rw [hs, ht]
  exact .of_hw rfl

theorem State.walkRead_unfetched (s : State) (space page k : Nat) : s.Unfetched (s.walkRead space page k) := by
  unfold State.walkRead
  split
  · exact .of_rings rfl rfl
  · exact State.Unfetched.refl s

theorem State.modTr_unfetched (s : State) (f : Tr → Tr) : s.Unfetched (s.modTr f) := .of_hw rfl

theorem State.startWalks_unfetched (fuel : Nat) (s : State) : s.Unfetched (s.startWalks fuel) := by
  induction fuel generalizing s with
  | zero => exact State.Unfetched.refl s
  | succ fuel ih =>
    unfold State.startWalks
    split
    · exact ((s.modTr_unfetched _).trans (State.walkRead_unfetched _ _ _ 0)).trans (ih _)
    · exact State.Unfetched.refl s

theorem State.queueMiss_unfetched (s : State) (p : Nat) (m : Miss) : s.Unfetched (s.queueMiss p m) := by
  unfold State.queueMiss
  dsimp only
  split
  · exact s.modTr_unfetched _
  · split
    · exact s.modTr_unfetched _
    · exact State.Unfetched.refl s

theorem State.awaitWalk_unfetched (s : State) (p : Nat) (c : Cmd) (va : Nat) : s.Unfetched (s.awaitWalk p c va) := by
  unfold State.awaitWalk
  extract_lets u
  have hu : s.Unfetched u := s.modStaged_unfetched c _
  split
  · exact hu
  · exact (hu.trans (u.queueMiss_unfetched p _)).trans (State.startWalks_unfetched 16 _)

/-! The front end (R296) -/

theorem State.startOp_unfetched (s : State) (o : Op) : s.Unfetched (s.startOp o) := by
  unfold State.startOp State.startOpAt
  extract_lets u v w
  have hv : s.Unfetched v := .of_rings rfl rfl
  have hw : s.Unfetched w := hv.trans (v.trace_told _ _ _ _ _ _).unfetched
  split
  · exact hw
  · exact hw.trans (w.setSeq_unfetched _ _ _)

theorem State.haltCmd_unfetched (s : State) (p : Nat) (c : Cmd) (va : Nat) : s.Unfetched (s.haltCmd p c va) := by
  cases h : s.heldFull p with
  | true =>
    rw [State.haltCmd, h]
    exact s.modStaged_unfetched c _
  | false =>
    have htake : s.Unfetched (s.takeOpid.2.unstage c) := .of_rings rfl rfl
    rw [State.haltCmd_eq h]
    exact (htake.trans (State.startOp_unfetched _ _)).trans (State.haltOp_unfetched _ _ va)

theorem State.killCmd_unfetched (s : State) (p : Nat) (c : Cmd) (va : Nat) : s.Unfetched (s.killCmd p c va) := by
  unfold State.killCmd
  extract_lets op y u
  have hu : s.Unfetched u := s.finish_unfetched p c _
  split
  · exact hu
  · exact hu.trans (u.kill_unfetched p _ va)

theorem State.killFaulting_unfetched (s : State) (p : Nat) (c : Cmd) (va : Nat) : s.Unfetched (s.killFaulting p c va) := by
  unfold State.killFaulting
  have h := s.residency_unfetched p c
  split
  · split
    · next heq => exact (h.of_snd heq).trans (State.defer_unfetched _ p c)
    · next heq => exact (h.of_snd heq).trans (State.killCmd_unfetched _ p c va)
  · exact s.killCmd_unfetched p c va

/-- R286, R296: the front end's work on a command fetches no other. -/
theorem State.frontEnd_unfetched (s : State) (p : Nat) (c : Cmd) : s.Unfetched (s.frontEnd p c) := by
  unfold State.frontEnd
  split
  · exact s.finish_unfetched p c _
  · have htr := s.translate_unfetched p c
    split
    · next heq => exact (htr.of_snd heq).trans (State.awaitWalk_unfetched _ p c _)
    · next heq => exact (htr.of_snd heq).trans (State.killFaulting_unfetched _ p c _)
    · next heq => exact (htr.of_snd heq).trans (State.haltCmd_unfetched _ p c _)
    · next heq => exact (htr.of_snd heq).trans (State.modStaged_unfetched _ c _)
    · next u heq =>
      have hu : s.Unfetched u := htr.of_snd heq
      split
      · exact hu.trans (u.defer_unfetched p c)
      · split
        · exact hu.trans (u.finish_unfetched p c _)
        · have hres := u.residency_unfetched p c
          split
          · next heq' => exact (hu.trans (hres.of_snd heq')).trans (State.defer_unfetched _ p c)
          · next heq' => exact (hu.trans (hres.of_snd heq')).trans (State.modStaged_unfetched _ c _)

end Sys2Proof.Machine
end

section
/-! SUPPORT. A fetch and the admission backlog (R286, R299): the ring whose turn it is, and the head of a backlog that is staged again. -/

namespace Sys2Proof.Machine

/-! A fetch (R286) -/

/-- R286: a turn among one candidate goes to it, wherever the turn stands. -/
theorem nextTurn_single (start x : Nat) : nextTurn start [x] = some x := by
  unfold nextTurn
  by_cases h : start ≤ x <;> simp [h]

/-- Of the numbers below `n` one alone has the value `x`. -/
theorem filter_range_eq {n x : Nat} (hx : x < n) : (List.range n).filter (fun p => decide (x = p)) = [x] := by
  have hsymm : (fun p => decide (x = p)) = fun p => decide (p = x) := funext fun p => decide_eq_decide.2 eq_comm
  rw [hsymm, List.filter_eq, List.count_range, if_pos hx]
  rfl

theorem State.tlbTouch_hw (s : State) (space va : Nat) : (s.tlbTouch space va).hw = s.hw := by
  unfold State.tlbTouch
  dsimp only
  split <;> rfl

theorem State.fetchBlock_unfetched (s : State) (p : Nat) (c : Cmd) : s.Unfetched (s.fetchBlock p c) := by
  unfold State.fetchBlock
  split
  · exact (s.light_told _ _ _ _ _ _).unfetched
  · exact State.Unfetched.refl s

theorem State.prewake_unfetched (s : State) (p : Nat) (c : Cmd) : s.Unfetched (s.prewake p c) := by
  unfold State.prewake
  split
  · exact State.Unfetched.refl s
  · extract_lets ns
    obtain ⟨k, hk⟩ := State.requestClocks_eq ns s
    rw [hk]
    exact .of_hw rfl

theorem State.stage_unfetched (s : State) (p : Nat) (c : Cmd) : s.Unfetched (s.stage p c) :=
  (State.Unfetched.of_rings (s := s) (t := s.modHw (fun h => { h with staged := h.staged ++ [⟨p, c, .ready, 0, [], false, false, 0, 0, none, []⟩] }))
    rfl rfl).trans (State.frontEnd_unfetched _ p c)

/-- R286: a fetch raises the `FETCHED` of its ring, and whatever becomes of the command fetches no other. -/
theorem State.fetchFrom_unfetched {s : State} {n : Nat} {r : Ring} (hr : s.ring n = r)
    (hj : s.judgeStruct r.space false (r.base.toNat + 64 * (r.fetched.toNat % r.n)) 64 = .ok) :
    (s.setRing n { r with fetched := r.fetched + 1 }).Unfetched (s.fetchFrom n) := by
  subst hr
  unfold State.fetchFrom
  extract_lets r p a c u
  rw [show s.judgeStruct r.space false a 64 = .ok from hj]
  dsimp only
  have htouch : (s.setRing n { r with fetched := r.fetched + 1 }).Unfetched ((s.tlbTouch r.space a).setRing n { r with fetched := r.fetched + 1 }) := by
    refine .of_hw ?_
    rw [State.setRing_hw, State.setRing_hw, State.tlbTouch_hw]
  refine ((htouch.trans (State.light_told _ .fetch (.partition p) false r.space a 64).unfetched).trans ?_).trans (State.stage_unfetched _ p c)
  exact (State.fetchBlock_unfetched _ p c).trans (State.prewake_unfetched _ p c)

theorem State.fetchNext_none {s : State} (h : ∀ e ∈ s.hw.rings, s.fetchable e.2 = false) : s.fetchNext = s := by
  have hrs : s.hw.rings.filter (fun r => s.fetchable r.2) = [] := List.filter_eq_nil_iff.2 (fun e he => by rw [h e he]; decide)
  unfold State.fetchNext
  rw [hrs]
  rfl

/-- `s` with the turn given to the partition after `p`, and in `p` to the ring after `n` (R286). -/
def State.turned (s : State) (p n : Nat) : State :=
  s.modHw (fun h => { h with turnPart := (p + 1) % 16, turnRing := Tab.set 0 h.turnRing p ((n + 1) % 16384) })

theorem State.fetchNext_single {s : State} {n : Nat} {r : Ring} (hrings : s.hw.rings = [(n, r)]) (hf : s.fetchable r = true) :
    s.fetchNext = (s.turned r.part.toNat n).fetchFrom n := by
  have hrs : s.hw.rings.filter (fun r => s.fetchable r.2) = [(n, r)] := by simp [hrings, hf]
  have hparts : (List.range 16).filter (fun p => [(n, r)].any (fun r => r.2.part.toNat = p)) = [r.part.toNat] := by
    simpa using filter_range_eq (n := 16) r.part.isLt
  unfold State.fetchNext
  dsimp only
  rw [hrs, hparts, nextTurn_single]
  simp [nextTurn_single, State.turned]

/-! The backlog (R299) -/

theorem State.retryBacklog_empty {s : State} {p : Nat} (h : s.backlog p = []) : s.retryBacklog p = s := by
  unfold State.retryBacklog
  rw [h]

/-- `s` with the head of `p`'s backlog, the command `c` that joined it at `tick`, staged again before the front end has seen it. -/
def State.takenBack (s : State) (p : Nat) (rest : List Blog) (c : Cmd) (tick : W64) : State :=
  ((s.setBacklog p rest).modStaged c (fun y => { y with st := .ready, retried := some tick })).recountFor p c

/-- R299: the head of the backlog is staged again where it can have a context slot and nothing stands before it. -/
theorem State.retryBacklog_takes {s : State} {p : Nat} {e : Blog} {rest : List Blog} {x : Staged} (hb : s.backlog p = e :: rest)
    (hfind : s.hw.staged.find? (fun y => y.part = p && y.st = .backlog && y.cmd.ring = e.ring && y.cmd.idx = e.idx) = some x)
    (hnew : ∀ y ∈ s.hw.staged, y.st ≠ .ready ∧ y.retried = none) (hroom : s.stagedCount p < 256) (hres : s.residency p x.cmd = (true, s)) :
    s.retryBacklog p = (s.takenBack p rest x.cmd e.tick).frontEnd p x.cmd := by
  have hhead : s.retriedHead p = none := List.find?_eq_none.2 (fun y hy => by simp [(hnew y hy).2])
  have hmakes : s.hw.staged.any (fun y => y.st = .ready && y.part = p && makesSeq y.cmd x.cmd) = false :=
    List.any_eq_false.2 (fun y hy => by simp [(hnew y hy).1])
  unfold State.retryBacklog
  rw [hb]
  dsimp only
  rw [hfind]
  dsimp only
  rw [hhead, hmakes, decide_eq_false (show ¬ 256 ≤ s.stagedCount p by omega), if_neg (by decide), hres]
  rfl

/-- What staging the head again changes: the backlog, the head's entry, and what reports and sequences' maps change. -/
theorem State.takenBack_eq (s : State) (p : Nat) (rest : List Blog) (c : Cmd) (tick : W64) :
    let t := s.takenBack p rest c tick
    t.hw.backlogs = Tab.set [] s.hw.backlogs p rest
      ∧ t.hw.staged = s.hw.staged.map (fun y => if y.cmd = c then { y with st := .ready, retried := some tick } else y)
      ∧ t.hw.rings = s.hw.rings ∧ t.hw.ops = s.hw.ops ∧ t.clusters = s.clusters ∧ t.pairs = s.pairs := by
  have hset := s.setBacklog_rest p rest
  obtain ⟨u, hu⟩ : ∃ u, u = s.setBacklog p rest := ⟨_, rfl⟩
  rw [← hu] at hset
  have hstaged : u.hw.staged = s.hw.staged := congrArg (·.hw.staged) hset
  obtain ⟨q, m, e⟩ := (u.modStaged c (fun y => { y with st := .ready, retried := some tick })).recountFor_eq p c
  rw [State.takenBack, ← hu, e]
  exact ⟨congrArg (·.hw.backlogs) hset, congrArg (List.map _) hstaged, congrArg (·.hw.rings) hset, congrArg (·.hw.ops) hset,
    congrArg (·.clusters) hset, congrArg (·.pairs) hset⟩

theorem State.modStaged_self {s : State} {c : Cmd} {f : Staged → Staged} (h : ∀ z ∈ s.hw.staged, z.cmd = c → f z = z) :
    s.modStaged c f = s := by
  have hmap : s.hw.staged.map (fun x => if x.cmd = c then f x else x) = s.hw.staged :=
    (List.map_congr_left (fun z hz => by split; exacts [h z hz ‹_›, rfl])).trans (List.map_id _)
  unfold State.modStaged State.modHw
  dsimp only
  rw [hmap]

/-- R299: an entry whose command was staged again is ready, and keeps its place. -/
theorem restaged_of_cmd {l : List Staged} {c : Cmd} {tick : W64} {y : Staged}
    (hy : y ∈ l.map (fun y => if y.cmd = c then { y with st := .ready, retried := some tick } else y)) (hc : y.cmd = c) :
    y.st = .ready ∧ y.retried = some tick := by
  obtain ⟨z, -, rfl⟩ := List.mem_map.1 hy
  by_cases hz : z.cmd = c
  · rw [if_pos hz]
    exact ⟨rfl, rfl⟩
  · rw [if_neg hz] at hc
    exact absurd hc hz

/-- A command at the head of the backlog that passes every check again stands as it stood (R299). -/
theorem State.frontEnd_passed {s : State} {p : Nat} {c : Cmd} {y : Staged} (hy : s.stagedFor c = some y) (hret : y.retried.isSome = true)
    (hready : ∀ z ∈ s.hw.staged, z.cmd = c → z.st = .ready) (hearly : s.earlyCheck p c = none) (htr : s.translate p c = (.ok, s))
    (hseq : s.seqCheck p c = none) (hres : s.residency p c = (true, s)) : s.frontEnd p c = s := by
  have hstay : s.modStaged c (fun x => { x with st := .ready }) = s := State.modStaged_self (fun z hz hc => by rw [← hready z hz hc])
  unfold State.frontEnd
  rw [hearly, htr]
  dsimp only
  rw [if_neg (by simp [hy, Option.isSome_iff_ne_none.1 hret]), hseq]
  dsimp only
  rw [hres]
  exact hstay

/-- Settles O22: `State.fetchFrom_unfetched` for a fetch, `State.retryBacklog_takes` and `State.frontEnd_passed` for the head of a backlog. The order
of the turns and the moment of a retry are the model's (log entries 20, 35). -/
theorem fetchAndBacklog : Obligations.FetchAndBacklog := by
  refine ⟨fun s hs => ⟨fun h => ?_, fun n r hrings hf hj => ?_⟩, fun s p hs => ⟨fun h => ?_, fun e rest x hb hfind hnew hroom hres => ?_⟩⟩
  · exact congrArg Host.Outcome.next ((if_pos hs).trans (State.fetchNext_none h))
  · have hring : (s.turned r.part.toNat n).ring n = r := by
      change Tab.get Ring.reset s.hw.rings n = r
      rw [hrings]
      exact if_pos rfl
    have hfetch := State.fetchFrom_unfetched hring hj
    refine ⟨_, congrArg Host.Outcome.next ((if_pos hs).trans (State.fetchNext_single hrings hf)), ?_, fun k hk => ?_, hfetch.turn⟩
    · rw [hfetch.fetched, State.ring_setRing_self]
    · rw [hfetch.fetched, State.ring_setRing_ne _ hk]
      rfl
  · exact congrArg Host.Outcome.next ((if_pos hs).trans (State.retryBacklog_empty h))
  · have he : exec (.backlogRetry p) s = .next ((s.takenBack p.val rest x.cmd e.tick).frontEnd p.val x.cmd) :=
      congrArg Host.Outcome.next ((if_pos hs).trans (State.retryBacklog_takes hb hfind hnew hroom hres))
    obtain ⟨hback, hstaged, hrings, hops, hclusters, hpairs⟩ := s.takenBack_eq p.val rest x.cmd e.tick
    generalize s.takenBack p.val rest x.cmd e.tick = t at he hback hstaged hrings hops hclusters hpairs
    refine ⟨t, he, ?_, fun q hq => ?_, hstaged, hrings, hops, hclusters, hpairs, fun hearly htr hseq hres' => ?_⟩
    · rw [State.backlog, hback, Tab.get_set_self]
    · rw [State.backlog, hback, Tab.get_set_ne _ _ hq]
      rfl
    · have hmem : ({ x with st := .ready, retried := some e.tick } : Staged) ∈ t.hw.staged :=
        hstaged ▸ List.mem_map.2 ⟨x, List.mem_of_find?_eq_some hfind, if_pos rfl⟩
      have hagain {y : Staged} (hy : y ∈ t.hw.staged) (hc : y.cmd = x.cmd) := restaged_of_cmd (hstaged ▸ hy) hc
      obtain ⟨y, hy⟩ := Option.isSome_iff_exists.1 (List.find?_isSome.2 ⟨_, hmem, decide_eq_true rfl⟩ : (t.stagedFor x.cmd).isSome = true)
      have hyc : y.cmd = x.cmd := by simpa using List.find?_some hy
      obtain ⟨-, hret⟩ := hagain (List.mem_of_find?_eq_some hy) hyc
      have hpass := State.frontEnd_passed hy (by rw [hret]; rfl) (fun z hz hc => (hagain hz hc).1) hearly htr hseq hres'
      exact he.trans (congrArg Host.Outcome.next hpass)

end Sys2Proof.Machine
end

section
/-! SUPPORT. A state that refutes O19, and what the model answers in it. -/

namespace Sys2Proof.Machine

/-! A locked write while the recorder's queue is full (R315, R433) -/

/-- Partition 0's lock bit is set, the recorder's queue is full, and interrupts have an address and a page. -/
def lockedFullRecorder : State :=
  { fullRecorder with
    clk := { fullRecorder.clk with awake := true }
    cfg := { fullRecorder.cfg with partLock := 1 } }

theorem lockedFullRecorder_hostOpen : lockedFullRecorder.HostOpen := ⟨rfl, rfl, rfl⟩

/-- R433: the event record of the locked write is lost, and the interrupt that says so is one more light-weight write. -/
theorem axPartLock_lockedFullRecorder : ∃ t, exec (.axPartLock 1) lockedFullRecorder = .next t ∧ t.hw.light.length = 1 :=
  ⟨_, rfl, by decide +kernel⟩

/-- Refutes O19: a locked write of `AX_PART_LOCK` is to leave Headwater as it is even where the recorder has no room, but with a full recorder
(`lockedFullRecorder`) the lost record is announced, and the interrupt's write waits in Headwater's light-weight queue. -/
theorem not_lockedRegisters : ¬ Obligations.LockedRegisters := by
  rintro ⟨-, hlock⟩
  obtain ⟨t, ht, -, -, hset⟩ := hlock lockedFullRecorder 1 lockedFullRecorder_hostOpen
  obtain ⟨-, hhw, -⟩ := hset (by decide)
  obtain ⟨u, hu, hlight⟩ := axPartLock_lockedFullRecorder
  obtain rfl : t = u := Host.Outcome.next.inj (ht.symm.trans hu)
  rw [hhw] at hlight
  exact absurd hlight (by decide)

end Sys2Proof.Machine
end

section
/-! SUPPORT. Host writes of the configuration set (R317, R318): the mask of each of its registers, and what a write of one leaves of the shadow set. -/

namespace Sys2Proof.Machine

/-! Registers of the configuration set (R317) -/

theorem partWindow_at {p o : Nat} (hp : p < 16) (ho : o < 0x40000) : partWindow (0x100000 + 0x40000 * p + o) = some (p, o) := by
  rw [partWindow, if_pos (by omega)]
  exact congrArg some (Prod.ext (by dsimp only; omega) (by dsimp only; omega))

/-- In a partition window the register's own offset decides. -/
theorem cfgMask_window (s32 : Bool) {p o : Nat} (hp : p < 16) (ho : o < 0x40000) (ha : o % 8 = 0) :
    cfgMask s32 (0x100000 + 0x40000 * p + o) =
      if o = 0 then some 0xFEFFFFFFFFF00000
      else if o = 8 then some 0x0000FFFF0000FFFF
      else if o = 0x10 then some 0x800FFFFFFFFFF01F
      else if o = 0x18 then some 0x0003FFFFFFFFFFFF
      else if o = 0x20 || o = 0x28 then some 0x000FFFFFFFFFFFFF
      else if 0x80 ≤ o && o ≤ 0xF8 then some (BitVec.allOnes 64)
      else none := by
  rw [cfgMask, if_neg (by simp; omega), if_neg (by omega), if_neg (by omega), if_neg (by omega), if_neg (by simp; omega), partWindow_at hp ho]

/-- R317: the registers of the global range and of partition `p`'s window, `AX_IMG` `n` and scale vector `k` among them, with their writable bits. -/
def cfgRegisters (p n k : Nat) : List (Nat × W64) :=
  let window := 0x100000 + 0x40000 * p
  [(0x200, BitVec.allOnes 64), (0x210, 0xFFFFFFFF), (0x1000 + 8 * n, 0x800FFFFFFFFFFFFF),
    (window, 0xFEFFFFFFFFF00000), (window + 8, 0x0000FFFF0000FFFF), (window + 0x10, 0x800FFFFFFFFFF01F), (window + 0x18, 0x0003FFFFFFFFFFFF),
    (window + 0x20, 0x000FFFFFFFFFFFFF), (window + 0x28, 0x000FFFFFFFFFFFFF), (window + 0x80 + 8 * k, BitVec.allOnes 64)]

theorem cfgMask_registers (s32 : Bool) {p n k : Nat} (hp : p < 16) (hn : n < 32) (hk : k < 16) {r : Nat × W64} (hr : r ∈ cfgRegisters p n k) :
    cfgMask s32 r.1 = some r.2 ∧ r.1 < 2 ^ 24 := by
  have hwindow {o : Nat} {m : W64} (ho : o ≤ 0xF8) (ha : o % 8 = 0) (hm : cfgMask s32 (0x100000 + 0x40000 * p + o) = some m) :
      cfgMask s32 (0x100000 + 0x40000 * p + o) = some m ∧ 0x100000 + 0x40000 * p + o < 2 ^ 24 := ⟨hm, by omega⟩
  simp only [cfgRegisters, List.mem_cons, List.not_mem_nil, or_false] at hr
  obtain rfl | rfl | rfl | rfl | rfl | rfl | rfl | rfl | rfl | rfl := hr
  · exact ⟨rfl, by decide⟩
  · exact ⟨rfl, by decide⟩
  · refine ⟨?_, by dsimp only; omega⟩
    rw [cfgMask, if_neg (by simp), if_neg (by omega), if_neg (by omega), if_neg (by omega), if_pos (by simp; omega)]
  · exact hwindow (o := 0) (by decide) rfl (cfgMask_window s32 hp (by decide) rfl)
  iterate 5 exact hwindow (by decide) rfl (cfgMask_window s32 hp (by decide) rfl)
  · dsimp only
    rw [Nat.add_assoc]
    refine hwindow (by omega) (by omega) ?_
    rw [cfgMask_window s32 hp (by omega) (by omega), if_neg (by omega), if_neg (by omega), if_neg (by omega), if_neg (by omega),
      if_neg (by simp; omega), if_pos (by simp; omega)]

/-! Writes and reads (R317, R318) -/

theorem CfgSet.read_write_self (cs : CfgSet) (off : Nat) (v : W64) : (cs.write off v).read off = v := by
  rw [CfgSet.read, CfgSet.write, CfgSet.word, Tab.get_set_self, BitVec.xor_assoc, BitVec.xor_self, BitVec.xor_zero]

theorem CfgSet.read_write_ne (cs : CfgSet) {off i : Nat} (h : i ≠ off) (v : W64) : (cs.write off v).read i = cs.read i := by
  rw [CfgSet.read, CfgSet.write, CfgSet.word, Tab.get_set_ne _ _ h]
  rfl

/-- R318: a register of the configuration set reads as `VIEW` says. -/
theorem State.readReg_config {s : State} {off : Nat} {m : W64} (h : cfgMask s.part.s32 off = some m) : s.readReg off = s.readConfig off := by
  have ha : off % 8 = 0 := Decidable.byContradiction (fun ha => by simp [cfgMask_unaligned _ ha] at h)
  rw [State.readReg, if_neg (by simp [ha]), h]
  rfl

theorem exec_configWrite_open {s : State} (ho : s.HostOpen) {off : Nat} (hoff : off < 2 ^ 24) {m : W64} (hm : cfgMask s.part.s32 off = some m)
    (v : W64) : exec (.configWrite (BitVec.ofNat 24 off) v) s = .next (s.writeConfig off m v) := by
  have hn : (BitVec.ofNat 24 off).toNat = off := Nat.mod_eq_of_lt hoff
  refine congrArg Host.Outcome.next ?_
  rw [hn, hm, State.hostWrite_open ho, State.applyWrite, hm]
  rfl

/-- Settles O20: `cfgMask_registers` gives each register's bits, `CfgSet.read_write_self` and `CfgSet.read_write_ne` what the shadow set reads. -/
theorem configurationWrites : Obligations.ConfigurationWrites := by
  intro s v p n k ho window registers r hr
  obtain ⟨hm, hoff⟩ := cfgMask_registers s.part.s32 p.isLt n.isLt k.isLt hr
  have hexec := exec_configWrite_open ho hoff hm v
  refine ⟨fun hb => ?_, fun hb => ?_⟩
  · obtain ⟨t, ht⟩ : ∃ t, t = s.modCfg (fun c => { c with shadow := c.shadow.write r.1 (v &&& r.2) }) := ⟨_, rfl⟩
    have hself : t.cfg.shadow.read r.1 = v &&& r.2 := by rw [ht]; exact CfgSet.read_write_self _ _ _
    have hread : t.readReg r.1 = t.readConfig r.1 := State.readReg_config (by rw [ht]; exact hm)
    refine ⟨t, ?_, hself, fun off h => ?_, by rw [ht]; rfl, fun hv => ?_, fun hv => ?_⟩
    · rw [hexec, State.writeConfig, hb, ht]
      rfl
    · rw [ht]
      exact CfgSet.read_write_ne _ h _
    · have hview : t.cfg.view = true := by rw [ht]; exact hv
      rw [hread, State.readConfig, hview]
      exact hself
    · have hview : t.cfg.view = false := by rw [ht]; exact hv
      have hactive : t.cfg.active = s.cfg.active := by rw [ht]; rfl
      rw [hread, State.readReg_config hm, State.readConfig, State.readConfig, hview, hv, hactive]
      rfl
  · rw [hexec, State.writeConfig, hb]
    rfl

end Sys2Proof.Machine
end

section
/-! SUPPORT. Writes of the partition windows (R346, R348, R458), and `PT_SIG`: what it selects, shows and does to its signal. -/

namespace Sys2Proof.Machine

/-! The windows (R458) -/

theorem ptOff_eq (p o : Nat) : ptOff p o = 0x100000 + 0x40000 * p + o := by rw [ptOff, Nat.mul_comm]

/-- Past the configuration registers a window holds none of the configuration set. -/
theorem cfgMask_window_none (s32 : Bool) {p o : Nat} (hp : p < 16) (ho : o < 0x40000) (ha : o % 8 = 0) (h : 0x100 ≤ o) :
    cfgMask s32 (0x100000 + 0x40000 * p + o) = none := by
  rw [cfgMask_window s32 hp ho ha, if_neg (by omega), if_neg (by omega), if_neg (by omega), if_neg (by omega), if_neg (by simp; omega),
    if_neg (by simp; omega)]

theorem State.hostWrite_window {s : State} (hs : s.HostOpen) {p o : Nat} (hp : p < 16) (ho : o < 0x40000) (ha : o % 8 = 0) (h : 0x100 ≤ o) (v : W64) :
    s.hostWrite (ptOff p o) v = s.writePt p o v := by
  rw [State.hostWrite_open hs, ptOff_eq, State.applyWrite, cfgMask_window_none _ hp ho ha h, partWindow_at hp ho]
  exact if_neg (by simp; omega)

theorem State.readReg_window (s : State) {p o : Nat} (hp : p < 16) (ho : o < 0x40000) (ha : o % 8 = 0) (h : 0x100 ≤ o) :
    s.readReg (0x100000 + 0x40000 * p + o) = s.readPt p o := by
  rw [State.readReg, if_neg (by simp; omega), cfgMask_window_none _ hp ho ha h, partWindow_at hp ho]
  rfl

/-- A write that is ignored leaves one entry in the trouble log (R438). -/
theorem State.ignored_notes (s : State) (p : Nat) (v : W64) (o : Nat) : s.Notes (s.note 0x0F (some p) true 0 0xFF 0 (ptOff p o) v.toNat)
    ⟨s.clk.tick, 0x0F, some p, true, 0, 0xFF, 0, BitVec.ofNat 32 (0x100000 + 0x40000 * p + o), v⟩ := by
  rw [State.Notes, State.note, ptOff_eq, BitVec.ofNat_toNat, BitVec.setWidth_eq]
  rfl

/-! `PT_SIG` (R346) -/

/-- `PT_SIG` of partition `p` names the signal of `v`, and the raised signals are `x`. -/
def State.signalled (s : State) (p : Nat) (v : W64) (x : Tab Bool) : State :=
  { s with sig := { s.sig with ptNum := Tab.set 0 s.sig.ptNum p (v.setWidth 16), ptOp := Tab.set 0 s.sig.ptOp p (bits v 16 2), raised := x } }

theorem State.readPt_sig (s : State) (p : Nat) : s.readPt p 0x200 = word [(63, flag64 (s.isRaised (Tab.get 0 s.sig.ptNum p).toNat)),
    (62, flag64 (s.sig.waiters.any (fun w => w.1 = (Tab.get 0 s.sig.ptNum p).toNat))), (16, Tab.get 0 s.sig.ptOp p),
    (0, (Tab.get 0 s.sig.ptNum p).toNat)] := rfl

/-- `PT_SIG`'s `NUM` and `OP` lie as they were written, below the bits of the state. -/
theorem ptSigWord (n : Nat) (b c : Bool) : word [(63, flag64 b), (62, flag64 c), (16, n / 2 ^ 16 % 2 ^ 2), (0, n % 65536)]
    = BitVec.ofNat 64 (n % 2 ^ 18 + (if b then 2 ^ 63 else 0) + (if c then 2 ^ 62 else 0)) := by
  have hlow : n % 2 ^ 18 = n / 2 ^ 16 % 2 ^ 2 * 2 ^ 16 + n % 65536 := by omega
  refine congrArg (BitVec.ofNat 64) ?_
  simp only [List.map_cons, List.map_nil, List.sum_cons, List.sum_nil, flag64, ite_mul, one_mul, zero_mul, pow_zero, mul_one, add_zero, hlow]
  ac_rfl

/-- R346: what `PT_SIG` shows of a signal that it names. -/
theorem State.readReg_signalled (s : State) {p : Nat} (hp : p < 16) (v : W64) (x : Tab Bool) :
    (s.signalled p v x).readReg (0x100000 + 0x40000 * p + 0x200) = BitVec.ofNat 64 (v.toNat % 2 ^ 18 + (if Tab.get false x (v.toNat % 65536) then 2 ^ 63 else 0)
      + (if s.sig.waiters.any (fun w => w.1 == v.toNat % 65536) then 2 ^ 62 else 0)) := by
  have hn : (Tab.get 0 (s.signalled p v x).sig.ptNum p).toNat = v.toNat % 65536 := by
    rw [State.signalled, Tab.get_set_self, BitVec.toNat_setWidth]
  have hop : Tab.get 0 (s.signalled p v x).sig.ptOp p = v.toNat / 2 ^ 16 % 2 ^ 2 := by rw [State.signalled, Tab.get_set_self, bits_eq]
  have hraised : (s.signalled p v x).isRaised (v.toNat % 65536) = Tab.get false x (v.toNat % 65536) := rfl
  have hwaits : (s.signalled p v x).sig.waiters.any (fun w => w.1 = v.toNat % 65536) = s.sig.waiters.any (fun w => w.1 == v.toNat % 65536) := rfl
  rw [State.readReg_window _ hp (by decide) (by decide) (by decide), State.readPt_sig, hn, hop, hraised, hwaits, ptSigWord]

/-- R346: a write that names a signal of the partition. -/
theorem State.writeSig_owned {s : State} {p : Nat} {v : W64} (hop : bits v 16 2 ≠ 3) (hown : s.cfg.active.owns p (v.toNat % 65536) = true) :
    s.writeSig p v = if bits v 16 2 = 1 then (s.signalled p v s.sig.raised).raise (v.toNat % 65536)
      else if bits v 16 2 = 2 then (s.signalled p v s.sig.raised).setRaised (v.toNat % 65536) false else s.signalled p v s.sig.raised := by
  unfold State.writeSig
  dsimp only
  rw [bits_low, if_neg (by simp [hop, hown])]
  rfl

/-- R342: a signal that nothing waits on stays raised. -/
theorem State.raise_unawaited {s : State} {n : Nat} (h : ∀ w ∈ s.sig.waiters, w.1 ≠ n) : s.raise n = s.setRaised n true := by
  have hnone : s.sig.waiters.filter (fun w => w.1 = n) = [] := List.filter_eq_nil_iff.2 (fun w hw => by simpa using h w hw)
  rw [State.raise, hnone]
  rfl

/-- Settles O23: `State.writeSig_owned` for the partition's own signals, `State.readReg_signalled` for what the register shows. -/
theorem signalRegister : Obligations.SignalRegister := by
  intro s p v ho n off act ignored
  have hbits {k : BitVec 2} (h : v.extractLsb' 16 2 = k) : bits v 16 2 = k.toNat := congrArg BitVec.toNat h
  have hwrite : s.hostWrite (ptOff p.val 0x200) v = s.writeSig p.val v := State.hostWrite_window ho p.isLt (by decide) (by decide) (by decide) v
  have hact {c : Instr} {x : Tab Bool} (hexec : exec c s = .next (s.signalled p.val v x)) (hothers : ∀ k, k ≠ n → Tab.get false x k = s.isRaised k) :
      act c (Tab.get false x n) :=
    ⟨_, hexec, rfl, s.readReg_signalled p.isLt v x, hothers, rfl, rfl⟩
  have hset (b : Bool) {k : Nat} (hk : k ≠ n) : Tab.get false (Tab.set false s.sig.raised n b) k = s.isRaised k := Tab.get_set_ne _ _ hk b
  have hself (b : Bool) : Tab.get false (Tab.set false s.sig.raised n b) n = b := Tab.get_set_self _ _ n b
  have hignored {c : Instr} (hexec : exec c s = .next (s.writeSig p.val v)) (h : bits v 16 2 = 3 ∨ s.cfg.active.owns p.val n = false) : ignored c := by
    refine ⟨_, hexec, ?_⟩
    unfold State.writeSig
    dsimp only
    rw [bits_low, if_pos (by simpa using h)]
    exact s.ignored_notes p.val v 0x200
  refine ⟨?_, fun h => ?_, fun h => ?_, fun h => ?_, fun h => ?_⟩
  · rw [State.readReg_window _ p.isLt (by decide) (by decide) (by decide), State.readPt_sig]
    change word [(63, 0), (62, 0), (16, 0), (0, 0)] = 0
    decide
  · have hop : bits v 16 2 = 0 := hbits h
    have hexec : exec (.ptSigSelect p v) s = .next (s.writeSig p.val v) := congrArg Host.Outcome.next ((if_pos hop).trans hwrite)
    refine ⟨fun hown => hact (x := s.sig.raised) (hexec.trans ?_) (fun _ _ => rfl), fun hown => hignored hexec (.inr hown)⟩
    rw [State.writeSig_owned (by rw [hop]; decide) hown, hop]
    rfl
  · have hop : bits v 16 2 = 1 := hbits h
    have hexec : exec (.ptSigRaise p v) s = .next (s.writeSig p.val v) := congrArg Host.Outcome.next ((if_pos hop).trans hwrite)
    refine ⟨fun hown hfree => hself true ▸ hact (hexec.trans ?_) (fun _ hk => hset true hk), fun hown => hignored hexec (.inr hown)⟩
    rw [State.writeSig_owned (by rw [hop]; decide) hown, hop, if_pos rfl, State.raise_unawaited (s := s.signalled p.val v s.sig.raised) hfree]
    rfl
  · have hop : bits v 16 2 = 2 := hbits h
    have hexec : exec (.ptSigClear p v) s = .next (s.writeSig p.val v) := congrArg Host.Outcome.next ((if_pos hop).trans hwrite)
    refine ⟨fun hown => hself false ▸ hact (hexec.trans ?_) (fun _ hk => hset false hk), fun hown => hignored hexec (.inr hown)⟩
    rw [State.writeSig_owned (by rw [hop]; decide) hown, hop]
    rfl
  · refine hignored ?_ (.inl (hbits h))
    have hoff : (BitVec.ofNat 24 off).toNat = ptOff p.val 0x200 := by
      rw [ptOff_eq, BitVec.toNat_ofNat]
      exact Nat.mod_eq_of_lt (by omega)
    refine congrArg Host.Outcome.next (Eq.trans ?_ hwrite)
    rw [hoff]

end Sys2Proof.Machine
end

section
/-! SUPPORT. What page groups, sequences and the end of an operation leave beside them (R202, R249 to R270, R279): the rings, the partitions' own
registers and the translation unit. -/

namespace Sys2Proof.Machine

/-- The rings, the partitions' own registers and the translation unit. -/
def State.beside (s : State) : Tab Ring × Tab Pt × Tr := (s.hw.rings, s.pt, s.tr)

theorem State.Told.beside {s t : State} {j : Nat} (h : s.Told t j) : t.beside = s.beside := (congrArg State.beside h.rest :)

/-! Page groups and sequences (R249 to R270, R279) -/

@[simp] theorem State.vaWrite_beside (s : State) (space va : Nat) (bs : List Byte) : (s.vaWrite space va bs).beside = s.beside :=
  (s.vaWrite_told space va bs).beside

@[simp] theorem State.modPool_beside (s : State) (p : Nat) (f : Pool → Pool) : (s.modPool p f).beside = s.beside := rfl

@[simp] theorem State.setSeq_beside (s : State) (p q : Nat) (c : Seq) : (s.setSeq p q c).beside = s.beside := by
  obtain ⟨m, hm⟩ := s.setSeq_eq p q c
  rw [hm]
  rfl

@[simp] theorem State.setPg_beside (s : State) (p g : Nat) (r : PgRec) : (s.setPg p g r).beside = s.beside := by
  obtain ⟨k, m, h⟩ := s.setPg_eq p g r
  rw [h]
  rfl

@[simp] theorem State.modPg_beside (s : State) (p g : Nat) (f : PgRec → PgRec) : (s.modPg p g f).beside = s.beside := s.setPg_beside p g _

@[simp] theorem State.setBucket_beside (s : State) (p b g : Nat) : (s.setBucket p b g).beside = s.beside := State.vaWrite_beside _ _ _ _

@[simp] theorem State.unhash_beside (s : State) (p g : Nat) : (s.unhash p g).beside = s.beside := by
  unfold State.unhash
  extract_lets r b u
  split
  · rfl
  · rw [State.modPg_beside]
    dsimp only [u]
    split
    · exact s.setBucket_beside p b r.next
    · split
      · exact s.modPg_beside p _ _
      · rfl

@[simp] theorem State.freeGroup_beside (s : State) (p g : Nat) : (s.freeGroup p g).beside = s.beside := by
  unfold State.freeGroup
  extract_lets u r v
  rw [State.setPg_beside]
  refine Eq.trans ?_ (s.unhash_beside p g)
  dsimp only [v]
  split <;> rfl

@[simp] theorem State.judgeFamine_beside (s : State) (p : Nat) : (s.judgeFamine p).beside = s.beside := by
  unfold State.judgeFamine
  extract_lets d old f u
  split
  · rfl
  · split
    · exact (State.irqPending_told (u.clearPaused p) _ _ _ _ _).beside
    · rfl

@[simp] theorem State.unreferenced_beside (s : State) (p g : Nat) : (s.unreferenced p g).beside = s.beside := by
  unfold State.unreferenced
  dsimp only
  split
  · rfl
  · rfl
  · split
    · rfl
    · exact s.setPg_beside p g _
  · exact s.freeGroup_beside p g
  · rfl
  · split
    · exact s.modPg_beside p g _
    · exact s.freeGroup_beside p g

@[simp] theorem State.dropRef_beside (s : State) (p g : Nat) : (s.dropRef p g).beside = s.beside := by
  unfold State.dropRef
  dsimp only
  rw [State.judgeFamine_beside]
  split
  · rw [State.unreferenced_beside, State.modPg_beside]
  · exact s.modPg_beside p g _

@[simp] theorem State.unpin_beside (s : State) (p g : Nat) : (s.unpin p g).beside = s.beside := by
  unfold State.unpin
  dsimp only
  split
  · rw [State.judgeFamine_beside, State.modPool_beside, State.modPg_beside]
  · exact s.modPg_beside p g _

@[simp] theorem State.dropCopies_beside (s : State) (o : Op) : (s.dropCopies o).beside = s.beside :=
  foldl_reads (g := State.beside) (fun s (r : Nat × PgRec) => (State.dropRef_beside _ o.part r.1).trans (s.modPg_beside o.part r.1 _)) _ s

@[simp] theorem State.seqDone_beside (s : State) (p q : Nat) : (s.seqDone p q).beside = s.beside := by
  unfold State.seqDone
  dsimp only
  split
  · rfl
  · exact s.setSeq_beside p q _

@[simp] theorem State.showProgress_beside (s : State) (p q : Nat) : (s.showProgress p q).beside = s.beside := by
  unfold State.showProgress
  split
  · split
    · rfl
    · exact s.setSeq_beside p q _
  · rfl

/-! The end of an operation (R202, R347) -/

@[simp] theorem State.leaveLoans_beside (s : State) (o : Op) (m : BitVec 32) : (s.leaveLoans o m).beside = s.beside := by
  refine foldl_reads (g := State.beside) (fun s sp => ?_) _ s
  dsimp only
  split
  · rfl
  · split
    · rfl
    · exact (State.trace_told (s.pmOut _ _ _ _) _ _ _ _ _ _).beside

@[simp] theorem State.freePairs_beside (s : State) (o : Op) : (s.freePairs o).beside = s.beside := by
  rw [State.freePairs_eq]
  refine foldl_reads (g := State.beside) (fun s k => ?_) _ s
  unfold State.freePair
  split
  · rfl
  · split <;> rfl

@[simp] theorem State.dropOp_beside (s : State) (i : W32) : (s.dropOp i).beside = s.beside := rfl

/-- What an operation held goes; of the partitions' registers, `GO` of `PT_KILL` may fall (R380). -/
theorem State.freeOp_beside (s : State) (o : Op) : ∃ u : State, u.beside = s.beside
    ∧ (s.freeOp o = u ∨ s.freeOp o = u.modPt o.part (fun t => { t with killGo := false })) := by
  unfold State.freeOp
  extract_lets u v w live
  have hv : v.beside = s.beside := by
    dsimp only [v]
    rw [State.dropOp_beside, State.freePairs_beside, State.leaveLoans_beside, State.dropCopies_beside]
    exact foldl_reads (g := State.beside) (fun s g => s.unpin_beside o.part g) o.pins s
  refine ⟨w, ?_, ?_⟩
  · dsimp only [w]
    split
    · exact hv
    · rw [State.showProgress_beside, State.seqDone_beside, hv]
  · split
    · exact .inl rfl
    · exact .inr rfl

end Sys2Proof.Machine
end

section
/-! SUPPORT. `PT_RESUME` (R337, R348): a held operation is released or goes on. -/

namespace Sys2Proof.Machine

theorem State.heldOp_spec {s : State} {p : Nat} {i : W32} {o : Op} (h : s.heldOp p i = some o) : o ∈ s.hw.ops ∧ o.part = p ∧ o.opid = i := by
  have hp := List.find?_some h
  simp only [Bool.and_eq_true, decide_eq_true_eq] at hp
  obtain ⟨⟨hpart, hopid⟩, -⟩ := hp
  exact ⟨List.mem_of_find?_eq_some h, hpart, hopid⟩

theorem State.op_of_mem {s : State} {o : Op} (h : o ∈ s.hw.ops) : ∃ y, s.op o.opid = some y :=
  Option.isSome_iff_exists.1 (List.find?_isSome.2 ⟨o, h, decide_eq_true rfl⟩)

/-! Releasing (R337) -/

/-- `t` is `s` without operation `o`, which no pair serves, and with the rings and the partitions' registers as they were but for `GO` of `PT_KILL`. -/
structure State.Released (s t : State) (o : Op) : Prop where
  gone : t.op o.opid = none
  other : ∀ i, i ≠ o.opid → t.op i = s.op i
  pairs : ∀ k, k < 8 → (t.pair k).op ≠ some o.opid
  rings : t.hw.rings = s.hw.rings
  pt : ∃ b, t.ptReg o.part = { s.ptReg o.part with killGo := b }

theorem State.freeOp_released (s : State) (o : Op) : s.Released (s.freeOp o) o := by
  obtain ⟨hgone, hother, -⟩ := s.freeOp_ended o
  obtain ⟨u, hu, hend⟩ := s.freeOp_beside o
  obtain ⟨hrings, hpt, -⟩ : u.hw.rings = s.hw.rings ∧ u.pt = s.pt ∧ u.tr = s.tr := by simpa [State.beside] using hu
  have hreg : u.ptReg o.part = s.ptReg o.part := by rw [State.ptReg, State.ptReg, hpt]
  refine ⟨hgone, hother, (s.freeOp_steady o).2, ?_, ?_⟩
  · obtain h | h := hend <;> rw [h]
    · exact hrings
    · exact hrings
  · obtain h | h := hend <;> rw [h]
    · exact ⟨(s.ptReg o.part).killGo, hreg⟩
    · exact ⟨false, by rw [State.ptReg_modPt_self, hreg]⟩

theorem State.releaseHeld_released (s : State) (o : Op) : s.Released (s.releaseHeld o) o := by
  unfold State.releaseHeld
  extract_lets cut
  obtain ⟨hgone, hother, hpairs, hrings, hpt⟩ := State.freeOp_released { s with clusters := s.clusters.map (fun c => (c.1, cut c.2)) } o
  exact ⟨hgone, hother, hpairs, hrings, hpt⟩

/-! Resuming (R337) -/

/-- Operation `o` at work again. -/
def Op.goesOn (o : Op) : Op := { o with st := .running, hold := [] }

theorem State.pairsGoOn_rest (s : State) (opid : W32) : (s.pairsGoOn opid).hw = s.hw ∧ (s.pairsGoOn opid).mem = s.mem := by
  unfold State.pairsGoOn
  generalize List.range 8 = ks
  exact ⟨foldl_reads (g := State.hw) (fun s k => by split <;> rfl) ks s,
    foldl_reads (g := State.mem) (fun s k => by split <;> rfl) ks s⟩

/-- R337: an operation that needs no cluster goes on where its page has come. -/
theorem State.resumeOp_goesOn {s : State} {o : Op} (hring : (s.ptReg o.part).rring.getLsbD 63 = true)
    (hpage : (s.judgeOpd ⟨o.part, .other, false, o.faultVa, 1⟩).1 = .ok) (hadmit : opcodeOf o.cmd ≠ 0x01) (hcl : usesClusters o.cmd = false) :
    s.resumeOp o = ((s.setOp o.goesOn).clearHolds o.opid).pairsGoOn o.opid := by
  unfold State.resumeOp
  rw [bit, hring, if_neg (by decide)]
  obtain ⟨va, hva⟩ : ∃ va, s.judgeOpd ⟨o.part, .other, false, o.faultVa, 1⟩ = (.ok, va) := ⟨_, Prod.ext hpage rfl⟩
  rw [hva]
  dsimp only
  rw [if_neg hadmit, if_pos (by simp [hcl])]
  rfl

theorem State.resumeOp_refused {s : State} {o : Op} (hring : (s.ptReg o.part).rring.getLsbD 63 = false) :
    s.resumeOp o = s.note 0x0F (some o.part) true 0 0xFF o.opid (0x100000 + o.part * 0x40000 + 0x300) o.opid.toNat := by
  unfold State.resumeOp
  rw [bit, hring, if_pos (by decide)]

/-- R348: the register shows what was written to it. -/
def State.resumeShown (s : State) (p : Nat) (v : W64) : State := s.modPt p (fun t => { t with resume := v &&& 0x1FFFFFFFF })

theorem State.writeResume_held {s : State} {p : Nat} {v : W64} {o : Op} (h : s.heldOp p (v.setWidth 32) = some o) :
    s.writeResume p v = if v.getLsbD 32 then (s.resumeShown p v).releaseHeld o else (s.resumeShown p v).resumeOp o := by
  unfold State.writeResume
  rw [h]
  rfl

/-- The commands of R348's clause need no cluster and create no sequence at once. -/
theorem copies_useNoCluster {c : Cmd} (h : [0x0A, 0x0B, 0x0C, 0x0D].contains (opcodeOf c) = true) : opcodeOf c ≠ 0x01 ∧ usesClusters c = false := by
  unfold usesClusters
  generalize opcodeOf c = n at h
  simp only [List.contains_iff_mem, List.mem_cons, List.not_mem_nil, or_false] at h
  obtain rfl | rfl | rfl | rfl := h <;> decide

/-- Settles O24: `State.releaseHeld_released` for a release, `State.resumeOp_goesOn` and `State.resumeOp_refused` for an operation that is to go on. -/
theorem resumeRegister : Obligations.ResumeRegister := by
  intro s p v ho off c
  have hexec {rel : Bool} (h : v.getLsbD 32 = rel) : exec (c rel) s = .next (s.writeResume p.val v) := by
    have hwrite : s.hostWrite (ptOff p.val 0x300) v = s.writeResume p.val v :=
      State.hostWrite_window ho p.isLt (by decide) (by decide) (by decide) v
    cases rel with
    | true => exact congrArg Host.Outcome.next ((if_pos h).trans hwrite)
    | false => exact congrArg Host.Outcome.next ((if_neg (by rw [bit, h]; decide)).trans hwrite)
  refine ⟨fun rel hrel hnone => ⟨_, hexec hrel, ?_⟩, fun o hheld => ?_⟩
  · unfold State.writeResume
    rw [hnone]
    exact s.ignored_notes p.val v 0x300
  · obtain ⟨hmem, hpart, -⟩ := State.heldOp_spec hheld
    obtain ⟨u, hu⟩ : ∃ u, u = s.resumeShown p.val v := ⟨_, rfl⟩
    have hreg : u.ptReg o.part = { s.ptReg p.val with resume := v &&& 0x1FFFFFFFF } := by rw [hu, hpart]; exact s.ptReg_modPt_self p.val _
    have hheld' := State.writeResume_held hheld
    rw [← hu] at hheld'
    refine ⟨fun hv => ?_, fun hv hring hpage hop => ?_, fun hv hring => ?_⟩
    · obtain ⟨hgone, hother, hpairs, hrings, b, hpt⟩ := u.releaseHeld_released o
      refine ⟨u.releaseHeld o, by rw [hexec hv, hheld', if_pos hv], hgone, fun i hi => (hother i hi).trans ?_, hpairs, hrings.trans ?_, ?_, ?_⟩
      · rw [hu]; rfl
      · rw [hu]; rfl
      · rw [← hpart, hpt, hreg, hpart]
      · rw [← hpart, hpt, hreg]
    · obtain ⟨hadmit, hcl⟩ := copies_useNoCluster hop
      have hgo := State.resumeOp_goesOn (s := u) (by rw [hreg]; exact hring) (by rw [hpart, hu]; exact hpage) hadmit hcl
      obtain ⟨hhw, hm⟩ := ((u.setOp o.goesOn).clearHolds o.opid).pairsGoOn_rest o.opid
      obtain ⟨y, hy⟩ : ∃ y, u.op o.opid = some y := State.op_of_mem (by rw [hu]; exact hmem)
      refine ⟨_, by rw [hexec hv, hheld', if_neg (by rw [hv]; decide)], ?_⟩
      rw [hgo]
      refine ⟨(State.op_of_hw hhw _).trans (State.op_setOp (o := o.goesOn) (y := y) hy), fun i hi => (State.op_of_hw hhw i).trans ?_, ?_, hm.trans ?_⟩
      · exact (State.op_setOp_ne (o := o.goesOn) u hi).trans (by rw [hu]; rfl)
      · rw [hhw, hu]; rfl
      · rw [hu]; rfl
    · have hno := State.resumeOp_refused (s := u) (o := o) (by rw [hreg]; exact hring)
      refine ⟨_, by rw [hexec hv, hheld', if_neg (by rw [hv]; decide)], ?_⟩
      rw [hno, hu]
      exact ⟨rfl, rfl, rfl, rfl, rfl⟩

end Sys2Proof.Machine
end

section
/-! SUPPORT. What invalidation leaves of the translation unit (R334 to R337, R339): the queue of requests, its counts and the TLBs, while commands end,
operations halt and resume, and misses queue. -/

namespace Sys2Proof.Machine

/-- The translation unit but for its misses and walks. -/
def State.still (s : State) : Tr := { s.tr with misses := [], walkers := [], walkTurn := 0 }

theorem State.still_of_beside {s t : State} (h : t.beside = s.beside) : t.still = s.still :=
  congrArg (fun b : Tab Ring × Tab Pt × Tr => ({ b.2.2 with misses := [], walkers := [], walkTurn := 0 } : Tr)) h

theorem State.Answers.still {s t : State} (h : s.Answers t) : t.still = s.still := (congrArg State.still h.rest :)

theorem State.foldl_still {α : Type} {f : State → α → State} (hf : ∀ (s : State) (x : α), (f s x).still = s.still) (xs : List α) (s : State) :
    (xs.foldl f s).still = s.still :=
  foldl_reads (g := State.still) hf xs s

/-! Misses (R334, R335) -/

theorem State.walkRead_still (s : State) (space page k : Nat) : (s.walkRead space page k).still = s.still := by
  unfold State.walkRead
  split <;> rfl

theorem State.startWalks_still (fuel : Nat) (s : State) : (s.startWalks fuel).still = s.still := by
  induction fuel generalizing s with
  | zero => rfl
  | succ fuel ih =>
    unfold State.startWalks
    split
    · exact (ih _).trans (State.walkRead_still _ _ _ 0)
    · rfl

theorem State.queueMiss_still (s : State) (p : Nat) (m : Miss) : (s.queueMiss p m).still = s.still := by
  unfold State.queueMiss
  dsimp only
  split
  · rfl
  · split <;> rfl

theorem State.awaitWalk_still (s : State) (p : Nat) (c : Cmd) (va : Nat) : (s.awaitWalk p c va).still = s.still := by
  unfold State.awaitWalk
  extract_lets u
  split
  · rfl
  · exact (State.startWalks_still 16 _).trans (u.queueMiss_still p _)

theorem State.queueMisses_still (s : State) (p : Nat) : (s.queueMisses p).still = s.still :=
  (State.startWalks_still 16 _).trans (State.foldl_still (fun s (x : Staged) => s.awaitWalk_still p x.cmd x.va) _ s)

/-! The end and the halt of an operation (R279, R333, R337) -/

theorem State.freeOp_still (s : State) (o : Op) : (s.freeOp o).still = s.still := by
  obtain ⟨u, hu, hend⟩ := s.freeOp_beside o
  have hstill : u.still = s.still := State.still_of_beside hu
  obtain h | h := hend <;> rw [h]
  · exact hstill
  · exact hstill

theorem State.endOp_still (s : State) (opid : W32) (status detail : Nat) (result : BitVec 96) : (s.endOp opid status detail result).still = s.still := by
  unfold State.endOp
  split
  · rfl
  · next o _ =>
    have hfree : ((s.servedBy o).freeOp o).still = s.still := (State.freeOp_still _ o).trans (s.servedBy_answers o).still
    dsimp only
    split
    · exact (State.resumed_answers _ o _ _ _ _ _).still.trans hfree
    · exact (State.completeUnder_answers _ _ _ _ _).still.trans hfree

theorem State.finish_still (s : State) (p : Nat) (c : Cmd) (x : Compl) : (s.finish p c x).still = s.still :=
  (State.completeUnder_answers (s.unstage c) _ p c x).still

theorem State.holdPairs_still (opid : W32) (ns : List Nat) (s : State) : (State.holdPairs opid s ns).still = s.still :=
  State.foldl_still (fun s k => by split <;> rfl) ns s

theorem State.haltOp_still (s : State) (opid : W32) (va : Nat) : (s.haltOp opid va).still = s.still := by
  unfold State.haltOp
  split
  · rfl
  · next o _ =>
    split
    · rfl
    · extract_lets src x u v
      have hu : u.still = s.still := State.still_of_beside (s.leaveLoans_beside o o.lent)
      have hv : v.still = u.still := State.holdPairs_still opid (List.range 8) u
      exact (v.completeUnder_answers _ _ _ _).still.trans (hv.trans hu)

theorem State.setSeq_still (s : State) (p q : Nat) (c : Seq) : (s.setSeq p q c).still = s.still := State.still_of_beside (s.setSeq_beside p q c)

theorem State.kill_still (s : State) (p q va : Nat) : (s.kill p q va).still = s.still := by
  unfold State.kill
  extract_lets u v
  have hu : u.still = s.still := by
    dsimp only [u]
    split
    · rfl
    · exact s.setSeq_still p q _
  have hv : v.still = u.still := State.foldl_still (fun s (o : Op) => s.endOp_still o.opid _ _ _) _ u
  exact (State.foldl_still (fun s (x : Staged) => s.finish_still p x.cmd _) _ v).trans (hv.trans hu)

theorem State.stopOp_still (s : State) (opid : W32) (status detail : Nat) (result : BitVec 96) : (s.stopOp opid status detail result).still = s.still := by
  unfold State.stopOp
  split
  · rfl
  · next o _ =>
    obtain h | h := (s.setOp { o.fault status detail result with ended := 0xFF }).progCheck_cases opid <;> rw [h]
    · rfl
    · exact State.endOp_still _ opid 0 0 0

theorem State.entryFault_still (s : State) (n : Nat) (e : QEnt) (status detail : Nat) (result : BitVec 96) :
    (s.entryFault n e status detail result).still = s.still :=
  State.stopOp_still _ e.opid status detail result

/-! Held operations that go on (R337) -/

theorem State.oxbowAccess_still (s : State) (p q : Nat) (write : Bool) : (s.oxbowAccess p q write).2.still = s.still := by
  have hfault (a : Nat) : (s.classP p 0x15 a).still = s.still := (State.Answers.of_unreported (s.classP_faulted p 0x15 a).rest).still
  unfold State.oxbowAccess
  dsimp only
  split
  · exact hfault _
  · split
    · rfl
    · rfl
    · exact hfault _

theorem State.spill_still (s : State) (p q : Nat) : (s.spill p q).still = s.still := by
  unfold State.spill
  exact (State.setSeq_still _ p q _).trans (State.still_of_beside (s.lightWrite_told _ _ _ _ _).beside)

theorem State.obtainSlot_still (s : State) (p keep : Nat) : (s.obtainSlot p keep).2.still = s.still := by
  unfold State.obtainSlot
  split
  · rfl
  · split
    · rfl
    · next vp _ =>
      split
      · rfl
      · next q _ =>
        have h := s.oxbowAccess_still vp q true
        split
        · next u heq =>
          rw [heq] at h
          dsimp only
          rw [State.spill_still]
          exact h
        · next heq =>
          rw [heq] at h
          exact h

theorem State.addRef_beside (s : State) (p g : Nat) : (s.addRef p g).beside = s.beside := (State.judgeFamine_beside _ p).trans (s.modPg_beside p g _)

theorem State.meterEvent_still (s : State) (p q inc : Nat) : (s.meterEvent p q inc).still = s.still := by
  unfold State.meterEvent
  split
  · rfl
  · split <;> rfl

theorem State.admitMap_still (s : State) (p : Nat) (c : Cmd) : (s.admitMap p c).2.still = s.still := by
  unfold State.admitMap
  dsimp only
  rw [State.meterEvent_still]
  refine State.still_of_beside ?_
  rw [State.modPool_beside, State.setSeq_beside]
  exact foldl_reads (g := State.beside) (fun s g => s.addRef_beside p g) _ (s.newSeq _ _ _ _ _ _ _ _ _).2

theorem State.touchSeq_still (s : State) (p q : Nat) (opid : W32) (ring : Nat) : (s.touchSeq p q opid ring).still = s.still := by
  unfold State.touchSeq
  split
  · rfl
  · exact s.setSeq_still p q _

theorem State.resumeAdmit_still (s : State) (o : Op) : (s.resumeAdmit o).still = s.still := by
  unfold State.resumeAdmit
  dsimp only
  split
  · exact s.endOp_still _ _ _ _
  · split
    · rfl
    · have h := s.obtainSlot_still o.part (seqKey o.part (sqidOf o.cmd))
      split
      · next heq =>
        rw [heq] at h
        exact h
      · next u heq =>
        rw [heq] at h
        exact (State.endOp_still _ _ _ _ _).trans ((State.touchSeq_still _ _ _ _ _).trans ((u.admitMap_still o.part o.cmd).trans h))

theorem State.pairsGoOn_still (s : State) (opid : W32) : (s.pairsGoOn opid).still = s.still := by
  unfold State.pairsGoOn
  generalize List.range 8 = ks
  exact State.foldl_still (fun s k => by split <;> rfl) ks s

theorem State.share_still (s : State) (opid : W32) : (s.share opid).still = s.still := by
  unfold State.share
  split
  · rfl
  · next o _ =>
    obtain ⟨sh, c, w, h⟩ := s.grantShares_eq o (s.sharesFree o.part (workClass o.cmd))
    rw [h]
    rfl

theorem State.askRun_still (s : State) (o : Op) (n seg : Nat) (page : Option (Nat × Nat)) (va len : Nat) : (s.askRun o n seg page va len).still = s.still := by
  unfold State.askRun
  refine State.foldl_still (fun s q => ?_) _ s
  dsimp only
  split
  · rfl
  · split
    · split <;> rfl
    · rfl

theorem State.askSegs_still (s : State) (o : Op) (ps : List (Nat × Nat)) : (s.askSegs o ps).still = s.still := by
  unfold State.askSegs State.askKeys
  exact State.foldl_still (fun s (p : Nat × Nat) =>
    State.foldl_still (fun s (r : Option (Nat × Nat) × Nat × Nat) => s.askRun_still o p.2 p.1 r.1 r.2.1 r.2.2) _ s) _ s

theorem State.resumeOp_still (s : State) (o : Op) : (s.resumeOp o).still = s.still := by
  unfold State.resumeOp
  split
  · rfl
  · split
    · split
      · exact s.resumeAdmit_still o
      · extract_lets u
        have hu : u.still = s.still := State.pairsGoOn_still _ o.opid
        split
        · exact hu
        · exact (State.askSegs_still _ o _).trans ((u.share_still o.opid).trans hu)
    · rfl

/-! Requests carried out (R336) -/

theorem State.rewalkOp_still (s : State) (o : Op) (va : Nat) : (s.rewalkOp o va).still = s.still := by
  unfold State.rewalkOp
  extract_lets k
  split
  · rfl
  · rfl
  · split
    · exact s.kill_still _ _ _
    · exact s.haltOp_still _ _

theorem State.rewalkStream_still (s : State) (n : Nat) (e : QEnt) (va : Nat) : (s.rewalkStream n e va).still = s.still := by
  unfold State.rewalkStream
  split
  · rfl
  · rfl
  · exact s.entryFault_still n e _ _ _

theorem State.retryRecords_answers (s : State) (ring : Nat) : s.Answers (s.retryRecords ring) :=
  State.Answers.trans (s := s.modRing ring (fun r => { r with unwritten := [] })) ⟨rfl, rfl⟩
    (State.Answers.foldl (fun s (e : W32 × BitVec 256 × Option Nat × Bool) => s.writeRecord_answers ring e.1 e.2.1 e.2.2.1 e.2.2.2) _ _)

theorem State.retryResume_answers (s : State) (p : Nat) : s.Answers (s.retryResume p) :=
  (s.setPt_answers p _).trans (State.Answers.foldl (fun s (w : BitVec 256 × Option Nat) => s.resumeRecord_answers p w.1 w.2) _ _)

theorem State.ringGoesOn_still (s : State) (n : Nat) : (s.ringGoesOn n).still = s.still := by
  unfold State.ringGoesOn
  dsimp only
  split
  · exact (State.retryRecords_answers _ n).still
  · rfl

theorem State.rewalkRing_still (s : State) (n : Nat) : (s.rewalkRing n).still = s.still := by
  unfold State.rewalkRing
  dsimp only
  split
  · exact s.ringGoesOn_still n
  · exact (State.startWalks_still 16 _).trans (s.queueMiss_still _ _)

theorem State.setBacklog_still (s : State) (p : Nat) (l : List Blog) : (s.setBacklog p l).still = s.still :=
  (congrArg State.still (s.setBacklog_rest p l) :)

theorem State.unstageTranslations_still (s : State) (r : InvReq) : (s.unstageTranslations r).still = s.still := by
  unfold State.unstageTranslations
  exact State.queueMisses_still _ r.space

theorem State.carryUnmap_still (s : State) (r : InvReq) : (s.carryUnmap r).still = s.still := by
  unfold State.carryUnmap
  extract_lets u
  have hu : u.still = s.still := State.foldl_still (fun s (x : Nat × QEnt × List Nat) => s.entryFault_still x.1 x.2.1 _ _ _) _ s
  refine (State.foldl_still (fun s i => ?_) _ u).trans hu
  split
  · rfl
  · split
    · exact s.haltOp_still _ _
    · split
      · exact s.stopOp_still _ _ _ _
      · exact s.kill_still _ _ _
    · rfl

theorem State.carryHold_still (s : State) (r : InvReq) : (s.carryHold r).still = s.still := by
  unfold State.carryHold
  exact State.foldl_still (f := fun s (x : Nat × QEnt × List Nat) => s.modCluster x.1 _) (fun _ _ => rfl) _ s

theorem State.carryResolve_still (s : State) (r : InvReq) : (s.carryResolve r).still = s.still := by
  unfold State.carryResolve
  extract_lets inR s1 s2 again s3 s4 s5 s6
  have h1 : s1.still = s.still := State.foldl_still (fun s (x : Nat × QEnt × Nat) => s.rewalkStream_still x.1 x.2.1 x.2.2) _ s
  have h2 : s2.still = s1.still := State.foldl_still (fun s (x : W32 × Nat) => by split; exacts [s.rewalkOp_still _ _, rfl]) _ s1
  have h4 : s4.still = s2.still := s3.queueMisses_still r.space
  have h5 : s5.still = s4.still := State.foldl_still State.rewalkRing_still _ s4
  have h6 : s6.still = s5.still := by
    dsimp only [s6]
    split
    · exact (s5.retryResume_answers r.space).still
    · exact State.foldl_still (fun s p => s.setBacklog_still p _) _ s5
  exact (State.foldl_still State.resumeOp_still _ s6).trans (h6.trans (h5.trans (h4.trans (h2.trans h1))))

/-- R336: a request carried out drops what it drops of the TLBs, and changes nothing of the translation unit besides but its misses and walks. -/
theorem State.carryOut_still (s : State) (r : InvReq) :
    (s.carryOut r).still = if r.kind.toNat = 0 ∨ r.kind.toNat = 1 then (s.dropTlb r).still else s.still := by
  unfold State.carryOut
  split
  · next h => rw [if_pos (.inl h), State.carryUnmap_still, State.unstageTranslations_still]
  · next h => rw [if_pos (.inr h), State.carryHold_still, State.unstageTranslations_still]
  · next h0 h1 => rw [if_neg (by rintro (h | h); exacts [h0 h, h1 h]), State.carryResolve_still]

/-- R336: no TLB holds an entry of the range. -/
theorem State.dropTlb_uncovered (s : State) (r : InvReq) (k : Nat) {e : TlbEnt} (he : e ∈ Tab.get [] (s.dropTlb r).tr.tlbs k) :
    r.covers e.space e.page = false := by
  have hdrop : (s.dropTlb r).tr.tlbs = Tab.mapAll [] (fun l => l.filter (fun x => !r.covers x.space x.page)) s.tr.tlbs := rfl
  rw [hdrop, Tab.get_mapAll [] rfl] at he
  simpa using (List.mem_filter.1 he).2

end Sys2Proof.Machine
end

section
/-! SUPPORT. `TR_INV` and the queue of invalidation requests (R336, R339). -/

namespace Sys2Proof.Machine

/-! What a write of `TR_INV` makes (R339) -/

/-- The bits of `TR_INV` that a read shows. -/
theorem invWord_eq (v : W64) : setBits (setBits v 63 1 0) 52 4 0 = v &&& 0x7F0FFFFFFFFFFFFF := by
  have hzero (n : Nat) : (BitVec.ofNat 64 (0 % 2 ^ n) : W64) = 0#64 := by rw [Nat.zero_mod]
  simp only [setBits, hzero, BitVec.zero_shiftLeft, BitVec.or_zero, BitVec.and_assoc]
  exact congrArg (v &&& ·) (by decide)

/-- A field that the mask `m` keeps whole. -/
theorem extractLsb'_and_kept (v : W64) {m : W64} {lo len : Nat} (h : m.extractLsb' lo len = BitVec.allOnes len) :
    (v &&& m).extractLsb' lo len = v.extractLsb' lo len := by
  rw [BitVec.extractLsb'_and, h, BitVec.and_allOnes]

theorem invOf_masked (v : W64) : invOf (v &&& 0x7F0FFFFFFFFFFFFF) = ⟨v.extractLsb' 60 2, if v.getLsbD 62 then 16 else (v.extractLsb' 56 4).toNat,
    (v.extractLsb' 25 27).toNat, (v.extractLsb' 0 25).toNat + 1⟩ := by
  have hg : (v &&& 0x7F0FFFFFFFFFFFFF).getLsbD 62 = v.getLsbD 62 := by
    rw [BitVec.getLsbD_and, show (0x7F0FFFFFFFFFFFFF : W64).getLsbD 62 = true by decide, Bool.and_true]
  rw [invOf, bits, bits, bits, bit, hg, extractLsb'_and_kept v (by decide), extractLsb'_and_kept v (by decide), extractLsb'_and_kept v (by decide),
    extractLsb'_and_kept v (by decide)]

/-- A request that is no RESOLVE is an UNMAP or a HOLD; `KIND` 3 names none. -/
theorem unmapOrHold {k : BitVec 2} (h3 : k ≠ 3) (h2 : k ≠ 2) : k = 0 ∨ k = 1 := by
  revert k
  decide

/-- R336: the host's write of `TR_INV`, by its `KIND`. -/
theorem exec_invWrite {s : State} (ho : s.HostOpen) {v : W64} (h : v.extractLsb' 60 2 ≠ 3) :
    exec (if v.extractLsb' 60 2 = 0 then .unmap v else if v.extractLsb' 60 2 = 1 then .hold v else .resolve v) s = .next (s.writeInv v) := by
  have hwrite : s.hostWrite 0x40008 v = s.writeInv v := State.hostWrite_open ho 0x40008 v
  split
  · next h0 => exact congrArg Host.Outcome.next ((if_pos (congrArg BitVec.toNat h0)).trans hwrite)
  · next h0 =>
    split
    · next h1 => exact congrArg Host.Outcome.next ((if_pos (congrArg BitVec.toNat h1)).trans hwrite)
    · next h1 =>
      have h2 : v.extractLsb' 60 2 = 2 := Decidable.byContradiction (fun h2 => (unmapOrHold h h2).elim h0 h1)
      exact congrArg Host.Outcome.next ((if_pos (congrArg BitVec.toNat h2)).trans hwrite)

/-- R339: request `r`, written as `w`, has joined the queue. -/
def State.invJoined (s : State) (w : W64) (r : InvReq) : State :=
  s.modTr (fun t => { t with invWord := w, invQ := t.invQ ++ [r], invIssued := t.invIssued + 1 })

theorem State.writeInv_full {s : State} (h : 8 ≤ s.tr.invQ.length) (v : W64) : s.writeInv v = s.modTr (fun t => { t with invOvf := true }) := if_pos h

theorem State.writeInv_joins {s : State} (h : s.tr.invQ.length < 8) {v : W64} (hk : v.extractLsb' 60 2 ≠ 3) :
    s.writeInv v = if s.tr.invQ = [] then
        (s.invJoined (v &&& 0x7F0FFFFFFFFFFFFF) (invOf (v &&& 0x7F0FFFFFFFFFFFFF))).carryOut (invOf (v &&& 0x7F0FFFFFFFFFFFFF))
      else s.invJoined (v &&& 0x7F0FFFFFFFFFFFFF) (invOf (v &&& 0x7F0FFFFFFFFFFFFF)) := by
  have hkind : ¬ bits (v &&& 0x7F0FFFFFFFFFFFFF) 60 2 = 3 := fun he =>
    hk (BitVec.eq_of_toNat_eq ((congrArg BitVec.toNat (extractLsb'_and_kept v (by decide))).symm.trans he))
  unfold State.writeInv
  dsimp only
  rw [if_neg (by exact Nat.not_le.2 h), invWord_eq, if_neg hkind]
  simp only [List.isEmpty_iff]
  rfl

theorem InvReq.covers_iff (r : InvReq) (space page : Nat) : r.covers space page = true ↔ space = r.space ∧ r.page ≤ page ∧ page < r.page + r.npg := by
  simp [InvReq.covers, and_assoc, eq_comm (a := r.space)]

/-! The head of the queue (R336) -/

/-- `t` is `s` with the request `r` carried out: of the translation unit it has changed the TLBs, misses and walks. -/
structure State.Carried (s t : State) (r : InvReq) : Prop where
  queue : t.tr.invQ = s.tr.invQ
  done : t.tr.invDone = s.tr.invDone
  issued : t.tr.invIssued = s.tr.invIssued
  word : t.tr.invWord = s.tr.invWord
  dropped : r.kind = 0 ∨ r.kind = 1 → ∀ k, ∀ e ∈ Tab.get [] t.tr.tlbs k, r.covers e.space e.page = false
  resolved : r.kind = 2 → t.tr.tlbs = s.tr.tlbs

theorem State.carryOut_carried (s : State) (r : InvReq) : s.Carried (s.carryOut r) r := by
  have hstill := s.carryOut_still r
  have hof {u : State} (h : (s.carryOut r).still = u.still) : (s.carryOut r).tr.invQ = u.tr.invQ ∧ (s.carryOut r).tr.invDone = u.tr.invDone
      ∧ (s.carryOut r).tr.invIssued = u.tr.invIssued ∧ (s.carryOut r).tr.invWord = u.tr.invWord ∧ (s.carryOut r).tr.tlbs = u.tr.tlbs :=
    ⟨(congrArg Tr.invQ h :), (congrArg Tr.invDone h :), (congrArg Tr.invIssued h :), (congrArg Tr.invWord h :), (congrArg Tr.tlbs h :)⟩
  have hkind {k : BitVec 2} (h : r.kind = k) : r.kind.toNat = k.toNat := congrArg BitVec.toNat h
  split at hstill
  · next h =>
    obtain ⟨hq, hd, hi, hw, ht⟩ := hof hstill
    refine ⟨hq, hd, hi, hw, fun _ k e he => s.dropTlb_uncovered r k (ht ▸ he), fun h2 => ?_⟩
    rw [h2] at h
    exact absurd h (by decide)
  · next h =>
    obtain ⟨hq, hd, hi, hw, ht⟩ := hof hstill
    exact ⟨hq, hd, hi, hw, fun h' => absurd (h'.imp hkind hkind) h, fun _ => ht⟩

/-- R336: the requests that are left, once the one at the head is done. -/
def State.invTaken (s : State) (rs : List InvReq) : State := s.modTr (fun t => { t with invQ := rs, invDone := t.invDone + 1 })

/-- The next request takes its place. -/
def State.carryNext (s : State) : List InvReq → State
  | [] => s
  | next :: _ => s.carryOut next

theorem exec_invalidationDone {s : State} {r : InvReq} {rs : List InvReq} (hf : s.fast = true) (hq : s.tr.invQ = r :: rs) :
    exec .invalidationDone s = .next (if r.kind != 2 && s.outstanding r then s else (s.invTaken rs).carryNext rs) := by
  change execInvalidationDone s = _
  unfold execInvalidationDone
  rw [hq, hf]
  cases rs <;> rfl

end Sys2Proof.Machine
end

section
/-! SUPPORT. The end of a walk for a ring that waits for its page (R333 to R335). -/

namespace Sys2Proof.Machine

theorem State.startWalks_unasked {s : State} (h : ∀ q, q < 17 → Tab.get [] s.tr.misses q = []) (fuel : Nat) : s.startWalks fuel = s := by
  have hnone : (List.range 17).filter (fun p => !(Tab.get [] s.tr.misses p).isEmpty) = [] :=
    List.filter_eq_nil_iff.2 (fun q hq => by simp [h q (List.mem_range.1 hq)])
  have hnext : s.nextWalk = none := by
    rw [State.nextWalk, hnone]
    rfl
  cases fuel with
  | zero => rfl
  | succ fuel =>
    unfold State.startWalks
    rw [hnext]

theorem State.queueMisses_unasked {s : State} (hw : ∀ x ∈ s.hw.staged, x.st ≠ .rewalk) (h : ∀ q, q < 17 → Tab.get [] s.tr.misses q = []) (p : Nat) :
    s.queueMisses p = s := by
  have hnone : s.hw.staged.filter (fun x => x.part = p && x.st = .rewalk) = [] :=
    List.filter_eq_nil_iff.2 (fun x hx => by simp [hw x hx])
  rw [State.queueMisses, hnone]
  exact State.startWalks_unasked h 16

/-- R334: a page that its TLB does not hold is walked to a leaf, which becomes the newest entry. -/
theorem State.tlbTouch_walked {s : State} {space page : Nat} {e : TlbEnt} (hnew : ∀ x ∈ s.tlb page, ¬ (x.space = space ∧ x.page = page))
    (hwalk : walk s.mem (s.rootOf space) space (page * 2 ^ 25) = .ok e) :
    s.tlbTouch space (page * 2 ^ 25)
      = s.modTr (fun t => { t with tlbs := Tab.set [] t.tlbs (page % 16) ((e :: s.tlb page).take 512), walks := bump t.walks }) := by
  have hpage : page * 2 ^ 25 / 2 ^ 25 = page := Nat.mul_div_cancel page (by decide)
  have hmiss (x : TlbEnt) (hx : x ∈ s.tlb page) : (decide (x.space = space) && decide (x.page = page)) = false := by
    simpa using hnew x hx
  have hx : s.xlate space (page * 2 ^ 25) = .ok e := by
    rw [State.xlate, hpage, List.find?_eq_none.2 (fun x hx => by rw [hmiss x hx]; decide)]
    exact hwalk
  have hany : (s.tlb page).any (fun x => x.space = space && x.page = page) = false :=
    List.any_eq_false.2 (fun x hx => by rw [hmiss x hx]; decide)
  have hall : (s.tlb page).filter (fun x => !(x.space = space && x.page = page)) = s.tlb page :=
    List.filter_eq_self.2 (fun x hx => by rw [hmiss x hx]; rfl)
  unfold State.tlbTouch
  dsimp only
  rw [hx, hpage, hany, hall]
  rfl

/-- A ring that waits for its page, and has no record to write, goes on. -/
theorem State.ringGoesOn_waits {s : State} {n : Nat} (hw : (s.ring n).waits = true) (hu : (s.ring n).unwritten = []) :
    s.ringGoesOn n = s.setRing n { s.ring n with waits := false } := by
  have hring : (s.modRing n (fun r => { r with waits := false })).ring n = { s.ring n with waits := false } := s.ring_setRing_self n _
  have hkeep : ({ s.ring n with waits := false, unwritten := [] } : Ring) = { s.ring n with waits := false } := by rw [← hu]
  unfold State.ringGoesOn
  dsimp only
  rw [if_pos (by rw [hw]; rfl), State.retryRecords, hring]
  dsimp only
  rw [hu, List.foldl_nil, State.modRing, hring]
  dsimp only
  rw [hkeep]
  exact congrArg (fun x => { s with hw := { s.hw with rings := x } }) (Tab.set_set _ _ _ _ _)

theorem State.judgeMiss_ring {s : State} (hw : ∀ x ∈ s.hw.staged, x.st ≠ .rewalk) (m : Miss) : s.judgeMiss m = s.ringGoesOn m.ring := by
  unfold State.judgeMiss
  rw [List.find?_eq_none.2 (fun x hx => by simp [hw x hx])]

/-- R335, R339: no walk is left, and the wait for the one that has ended is counted. -/
def State.walkCounted (s : State) (m : Miss) : State :=
  s.modTr (fun t => { t with walkers := [], walkMax := BitVec.ofNat 16 (Nat.min 0xFFFF (Nat.max t.walkMax.toNat ((s.clk.tick - m.tick).toNat / 16))) })

theorem State.walkEnds_alone {s : State} {p : Nat} {m : Miss} (h : s.tr.walkers = [⟨p, [m], false⟩]) :
    s.walkEnds ⟨p, [m], false⟩ = ((s.walkCounted m).tlbTouch p (m.page * 2 ^ 25)).judgeMiss m := by
  have hcount : (s.modTr (fun t => { t with walkers := t.walkers.erase ⟨p, [m], false⟩ })).walkWait [m] = s.walkCounted m := by
    have hmax (x : Nat) : Nat.max 0 x = x := Nat.zero_max x
    have herase : s.tr.walkers.erase ⟨p, [m], false⟩ = [] := by rw [h]; exact List.erase_cons_head _ _
    simp only [State.walkWait, State.walkCounted, State.modTr, herase, List.map_cons, List.map_nil, maxOf, List.foldl_cons, List.foldl_nil, hmax]
  unfold State.walkEnds
  dsimp only
  rw [hcount]
  rfl

/-- R335: with no walk of the partition whose reads are back, nothing ends. -/
theorem exec_walkDone_none {s : State} {p : Fin 17} (h : ∀ w ∈ s.tr.walkers, w.space ≠ p.val ∨ s.flying (fun r => r.ofWalk p.val w.page) = true) :
    exec (.walkDone p) s = .next s := by
  have hnone : s.tr.walkers.find? (fun w => w.space = p.val && !s.flying (fun r => r.ofWalk p.val w.page)) = none :=
    List.find?_eq_none.2 (fun w hw => by obtain h | h := h w hw <;> simp [h])
  change execWalkDone p s = _
  unfold execWalkDone
  rw [hnone]

theorem exec_walkDone {s : State} {p : Fin 17} (hf : s.fast = true) {w : Walker} (hw : s.tr.walkers = [w]) (hp : w.space = p.val)
    (hback : s.flying (fun r => r.ofWalk p.val w.page) = false) :
    exec (.walkDone p) s = .next (((s.walkEnds w).queueMisses p.val).startWalks 16) := by
  have hfind : s.tr.walkers.find? (fun w => w.space = p.val && !s.flying (fun r => r.ofWalk p.val w.page)) = some w := by
    rw [hw]
    exact List.find?_cons_of_pos (by simp [hp, hback])
  change execWalkDone p s = _
  unfold execWalkDone
  rw [hfind, hf]

/-- The walk for miss `m` has found `e`: the wait is counted, the entry is its TLB's newest. -/
def State.walkFound (s : State) (m : Miss) (e : TlbEnt) : State :=
  (s.walkCounted m).modTr (fun t => { t with tlbs := Tab.set [] t.tlbs (m.page % 16) ((e :: s.tlb m.page).take 512), walks := bump t.walks })

/-- The ring that waited goes on. -/
def State.walkLanded (s : State) (m : Miss) (e : TlbEnt) : State := (s.walkFound m e).setRing m.ring { s.ring m.ring with waits := false }

/-- R334, R335: the one walk under way ends, with no miss and no staged command that asks for another. -/
theorem exec_walkDone_alone {s : State} {p : Fin 17} (hf : s.fast = true) {m : Miss} {e : TlbEnt} (hw : s.tr.walkers = [⟨p.val, [m], false⟩])
    (hback : s.flying (fun r => r.ofWalk p.val m.page) = false) (hmisses : ∀ q, q < 17 → Tab.get [] s.tr.misses q = [])
    (hstaged : ∀ x ∈ s.hw.staged, x.st ≠ .rewalk) (hwaits : (s.ring m.ring).waits = true) (hunw : (s.ring m.ring).unwritten = [])
    (hwalk : walk s.mem (s.rootOf p.val) p.val (m.page * 2 ^ 25) = .ok e) (hnew : ∀ x ∈ s.tlb m.page, ¬ (x.space = p.val ∧ x.page = m.page)) :
    exec (.walkDone p) s = .next (s.walkLanded m e) := by
  have hland : s.walkEnds ⟨p.val, [m], false⟩ = s.walkLanded m e := by
    have hfound : (s.walkCounted m).tlbTouch p.val (m.page * 2 ^ 25) = s.walkFound m e := State.tlbTouch_walked (s := s.walkCounted m) hnew hwalk
    rw [State.walkEnds_alone hw, hfound, State.judgeMiss_ring (s := s.walkFound m e) hstaged]
    exact State.ringGoesOn_waits (s := s.walkFound m e) hwaits hunw
  rw [exec_walkDone hf hw rfl hback, hland, State.queueMisses_unasked (s := s.walkLanded m e) hstaged hmisses,
    State.startWalks_unasked (s := s.walkLanded m e) hmisses]

theorem State.walkLanded_walkMax (s : State) (m : Miss) (e : TlbEnt) :
    (s.walkLanded m e).tr.walkMax.toNat = Nat.min 0xFFFF (Nat.max s.tr.walkMax.toNat ((s.clk.tick - m.tick).toNat / 16)) :=
  Nat.mod_eq_of_lt (Nat.lt_of_le_of_lt (Nat.min_le_left _ _) (by decide))

theorem State.tlb_walkLanded (s : State) (m : Miss) (e : TlbEnt) : (s.walkLanded m e).tlb m.page = (e :: s.tlb m.page).take 512 :=
  Tab.get_set_self [] s.tr.tlbs (m.page % 16) ((e :: s.tlb m.page).take 512)

/-- Of the block but its translation unit and its rings nothing changes. -/
theorem State.walkLanded_rest (s : State) (m : Miss) (e : TlbEnt) :
    { s.walkLanded m e with tr := s.tr, hw := { (s.walkLanded m e).hw with rings := s.hw.rings } } = s := by
  obtain ⟨t, h⟩ : ∃ t, s.walkFound m e = { s with tr := t } := ⟨_, rfl⟩
  rw [State.walkLanded, h]
  rfl

/-- Settles O33: `State.writeInv_joins` for a write of `TR_INV`, `exec_invalidationDone` and `State.carryOut_carried` for the
head of the queue, `exec_walkDone_alone` for a walk. When a request acts is the model's choice (log entry 71), and so is what counts as a walk's wait
(log entry 16). -/
theorem translationQueues : Obligations.TranslationQueues := by
  refine ⟨⟨fun s v ho => ?_, fun s r rs hf hq => ⟨fun h => ?_, fun hk hout => ?_⟩⟩, fun s p hf => ⟨fun h => exec_walkDone_none h, ?_⟩⟩
  · intro c space page npg r hk
    have hexec : exec c s = .next (s.writeInv v) := exec_invWrite ho hk
    have hr : invOf (v &&& 0x7F0FFFFFFFFFFFFF) = r := invOf_masked v
    refine ⟨fun hfull => hexec.trans (congrArg Host.Outcome.next (State.writeInv_full hfull v)), fun hne hlt => ?_, fun hempty => ?_⟩
    · rw [hexec, State.writeInv_joins hlt hk, if_neg hne, hr]
      rfl
    · obtain ⟨hq, hd, hi, hw, hdrop, hres⟩ := (s.invJoined (v &&& 0x7F0FFFFFFFFFFFFF) r).carryOut_carried r
      refine ⟨_, ?_, hq.trans ?_, hi, hd, hw, fun h2 k e he hin => ?_, hres⟩
      · rw [hexec, State.writeInv_joins (by rw [hempty]; decide) hk, if_pos hempty, hr]
      · exact congrArg (· ++ [r]) hempty
      · have hout := hdrop (unmapOrHold hk h2) k e he
        rw [(InvReq.covers_iff r e.space e.page).2 hin] at hout
        exact Bool.noConfusion hout
  · rw [exec_invalidationDone hf hq, if_neg (by obtain h | h := h <;> simp [h])]
    cases rs with
    | nil => exact ⟨_, rfl, rfl, rfl, rfl, fun _ => rfl⟩
    | cons next rest =>
      obtain ⟨hq', hd, hi, -, -, -⟩ := (s.invTaken (next :: rest)).carryOut_carried next
      exact ⟨_, rfl, hq', hd, hi, fun h => absurd h (List.cons_ne_nil _ _)⟩
  · rw [exec_invalidationDone hf hq, if_pos (by rw [hout, Bool.and_true]; exact bne_iff_ne.2 hk)]
  · intro m e hw hback hmisses hstaged hwaits hunw hwalk hnew
    exact ⟨s.walkLanded m e, exec_walkDone_alone hf hw hback hmisses hstaged hwaits hunw hwalk hnew, rfl, rfl, s.walkLanded_walkMax m e,
      s.tlb_walkLanded m e, toNat_bump s.tr.walks 1, State.ring_setRing_self _ _ _, fun k hk => State.ring_setRing_ne _ hk _, s.walkLanded_rest m e⟩

end Sys2Proof.Machine
end

section
/-! SUPPORT. Cold reset and block reset (R379 to R381, R387, R453): what the recorder, the clusters, the pairs and the ports keep. -/

namespace Sys2Proof.Machine

/-! Cold reset -/

/-- R435: `PORST_N` finds nothing to complete where no record waits. -/
theorem Recorder.lastWrite_idle {x : Recorder} (hq : x.queue = []) (hs : x.seals = []) : x.lastWrite = x := by
  unfold Recorder.lastWrite
  rw [hq, hs]
  exact ite_self x

/-- Settles O28: each part of `State.cold` is written out in it; the device is left where no record was being programmed. -/
theorem coldReset : Obligations.ColdReset := by
  intro s
  refine ⟨s.cold, rfl, rfl, rfl, rfl, rfl, rfl, rfl, rfl, rfl, rfl, rfl, rfl, rfl, rfl, rfl, rfl, rfl, rfl, rfl, rfl, rfl, rfl, rfl, rfl,
    fun hq hs => ?_⟩
  have hdevice : s.cold.recorder = s.recorder.cold := rfl
  rw [hdevice, Recorder.cold, Recorder.lastWrite_idle hq hs]
  exact ⟨rfl, rfl, rfl, rfl⟩

/-! Block reset -/

theorem State.cluster_blockReset (s : State) (kind : ResetKind) (last : BitVec 2) (n : Nat) :
    (s.blockReset kind last).cluster n = (s.cluster n).blockReset := Tab.get_mapAll Cluster.reset rfl s.clusters n

theorem State.pair_blockReset (s : State) (kind : ResetKind) (last : BitVec 2) (n : Nat) :
    (s.blockReset kind last).pair n = (s.pair n).blockReset := Tab.get_mapAll Pair.reset rfl s.pairs n

theorem State.port_blockReset (s : State) (kind : ResetKind) (last : BitVec 2) (k : Nat) :
    (s.blockReset kind last).port k = (s.port k).blockReset := Tab.get_mapAll Port.reset rfl s.ports k

/-- R381: whatever a tag of the port still stands for is abandoned. -/
theorem Port.abandoned_of_blockReset {p : Port} {e : Nat × Option Req} (he : e ∈ p.blockReset.reads ++ p.blockReset.writes) {q : Req}
    (hq : e.2 = some q) : q.use = .abandoned := by
  have habandon : ∃ r : Nat × Option Req, e = (r.1, r.2.map Req.abandon) := by
    obtain h | h := List.mem_append.1 he
    · obtain ⟨r, -, rfl⟩ := List.mem_map.1 h
      exact ⟨r, rfl⟩
    · obtain ⟨r, -, rfl⟩ := List.mem_map.1 h
      exact ⟨r, rfl⟩
  obtain ⟨r, rfl⟩ := habandon
  obtain ⟨x, -, rfl⟩ := Option.map_eq_some_iff.1 hq
  rfl

/-- R387: the field that orders a block reset, under the reset's key or without it. -/
theorem exec_rstCtlBlock {s : State} (hr : s.boot.inReset = false) {v : W64} (hv : v.getLsbD 0 = true) :
    exec (.rstCtlBlock v) s
      = .next (if v.extractLsb' 48 16 = 0xB10C then s.startBlockReset .rstCtl 2 else s.ignoredWrite none 0x10020 v) := by
  have hkey : bits v 48 16 = 0xB10C ↔ v.extractLsb' 48 16 = 0xB10C := ⟨fun h => BitVec.eq_of_toNat_eq h, fun h => congrArg BitVec.toNat h⟩
  have hwrite : s.hostWrite 0x10020 v = s.writePower 0x10020 v := by
    rw [State.hostWrite, hr, if_neg (by decide), if_pos (by decide),
      State.applyWrite_unit s (by decide) (by decide) (by decide) (by decide), if_neg (by decide), if_pos (by decide)]
  refine congrArg Host.Outcome.next ((if_pos hv).trans (hwrite.trans ?_))
  rw [State.writePower, bit, hv, if_neg (by decide)]
  exact if_congr hkey rfl rfl

/-- Settles O29: the pin and the register under its key start `State.blockReset`, whose tables are read off by `State.cluster_blockReset`,
`State.pair_blockReset` and `State.port_blockReset`. -/
theorem blockReset : Obligations.BlockReset := by
  intro s v resets
  have hresets {c : Instr} {kind : ResetKind} {last : BitVec 2} (hc : exec c s = .next (s.blockReset kind last)) : resets c last := by
    refine ⟨_, hc, rfl, rfl, rfl, toNat_bump s.clk.blockResets 1, rfl, rfl, rfl, rfl, rfl, rfl, rfl, rfl, rfl, rfl, rfl, rfl, rfl, rfl, rfl, rfl,
      rfl, rfl, rfl, rfl, fun n => ?_, fun n => ?_, fun k => ?_⟩
    · rw [State.cluster_blockReset]
      exact ⟨rfl, rfl, rfl, rfl, rfl, rfl, rfl, rfl⟩
    · rw [State.pair_blockReset]
      exact ⟨rfl, rfl, rfl, rfl, rfl⟩
    · rw [State.port_blockReset]
      exact ⟨rfl, rfl, rfl, rfl, fun e he q hq => Port.abandoned_of_blockReset he hq⟩
  have hstart (kind : ResetKind) (last : BitVec 2) (h : ¬ (s.boot.inReset = true ∧ s.boot.kind = .cold)) :
      s.startBlockReset kind last = s.blockReset kind last := if_neg (by simpa using h)
  refine ⟨fun h => hresets (congrArg Host.Outcome.next (hstart .blkPin 1 h)), fun hr hv hkey => ?_, fun hr hv hkey => ?_⟩
  · refine hresets (kind := .rstCtl) ?_
    rw [exec_rstCtlBlock hr hv, if_pos hkey, hstart _ _ (by simp [hr])]
  · refine ⟨_, exec_rstCtlBlock hr hv, ?_⟩
    rw [if_neg hkey, State.Notes, State.ignoredWrite, State.note, BitVec.ofNat_toNat, BitVec.setWidth_eq]
    rfl

end Sys2Proof.Machine
end

section
/-! SUPPORT. A state that refutes O45, and what the model answers in it. -/

namespace Sys2Proof.Machine

/-! A grant below the floors (R304, R377) -/

/-- Partition 0 is enabled with a `DEC_FLOOR` of one share, and the clusters are assigned to it. -/
def flooredSet : CfgSet := ⟨[(0x210, 0xFFFFFFFF), (0x100000, 0x8000000800000000)], [], []⟩

/-- Partition 0 has a floor of one share and one cluster in service, and interrupts have an address and a page. -/
def flooredPartition : State :=
  { fullRecorder with
    boot := { fullRecorder.boot with svc := 1 }
    cfg := { fullRecorder.cfg with active := flooredSet } }

theorem flooredPartition_floorSum : flooredPartition.floorSum = 1 := by decide +kernel

/-- R369, R377: a GRANT of no share raises `FLOOR_OVER`, and its interrupt is one more light-weight write. -/
theorem grant_flooredPartition : ∃ t, exec (.grant 0x10000000) flooredPartition = .next t ∧ t.hw.light.length = 1 :=
  ⟨_, rfl, by decide +kernel⟩

/-- Refutes O45: the clause of a GRANT below the floors keeps Headwater's state, but where interrupts have an address and a page
(`flooredPartition`) the interrupt of `FLOOR_OVER` goes out as a write that waits in Headwater's light-weight queue. -/
theorem not_powerMessages : ¬ Obligations.PowerMessages := by
  intro h
  obtain ⟨hgrant, -⟩ := h flooredPartition 0x10000000 rfl rfl
  obtain ⟨-, hover⟩ := hgrant (by decide) (by decide) (by decide)
  obtain ⟨t, ht, -, -, hhw, -⟩ := hover (by rw [flooredPartition_floorSum]; decide)
  obtain ⟨u, hu, hlight⟩ := grant_flooredPartition
  obtain rfl : t = u := Host.Outcome.next.inj (ht.symm.trans hu)
  rw [hhw] at hlight
  exact absurd hlight (by decide)

end Sys2Proof.Machine
end

section
/-! SUPPORT. The event recorder's device (R429 to R434): the fields of a slot that has been programmed, and what programming a record does to
the areas. -/

namespace Sys2Proof.Machine

/-! The fields of a slot (R430, R431) -/

/-- A field that fills whole bytes of a little-endian number. -/
theorem extract_leNat {bs : List Byte} (pre : List Byte) {w lo len : Nat} (n : Nat) (x : BitVec len) (post : List Byte)
    (hbs : bs = pre ++ (leBytes n x.toNat ++ post)) (hlo : lo = 8 * pre.length) (hlen : len = 8 * n) (hw : lo + len ≤ w) :
    (BitVec.ofNat w (leNat bs)).extractLsb' lo len = x := by
  subst hbs hlo hlen
  apply BitVec.eq_of_getLsbD_eq
  intro i hi
  have hbyte : (pre ++ (leBytes n x.toNat ++ post)).getD ((8 * pre.length + i) / 8) 0 = (leBytes n x.toNat).getD (i / 8) 0 := by
    rw [show (8 * pre.length + i) / 8 = pre.length + i / 8 by omega, List.getD_append_right _ _ _ _ (by omega), Nat.add_sub_cancel_left,
      List.getD_append _ _ _ _ (by rw [length_leBytes]; omega)]
  rw [BitVec.getLsbD_extractLsb', BitVec.getLsbD_ofNat, testBit_leNat, hbyte,
    show (8 * pre.length + i) % 8 = i % 8 by omega, ← testBit_leNat, leNat_leBytes, Nat.mod_eq_of_lt x.isLt,
    decide_eq_true (show 8 * pre.length + i < w by omega), Bool.true_and]
  exact (congrArg (· && x.toNat.testBit i) (decide_eq_true hi)).trans (Bool.true_and _)

/-- The bytes of a slot: between the type and the data stand cls, partition, time and power cycle, behind the operation the reserved word,
the CRC and the bytes before `VMARK`. -/
theorem slotOf_bytes (rseq : W32) (pcycle : W16) (r : Rec) : ∃ mid tail : List Byte, mid.length = 10 ∧ tail.length = 11
    ∧ slotOf rseq pcycle r = BitVec.ofNat 512 (leNat (leBytes 4 rseq.toNat ++ (leBytes 2 r.type.toNat ++ (mid ++ (leBytes 32 r.data.toNat
        ++ (leBytes 4 r.opid.toNat ++ (tail ++ (leBytes 1 0x5A ++ [])))))))) := by
  unfold slotOf
  extract_lets b
  obtain ⟨cls, part, hb⟩ : ∃ cls part : Byte, b = leBytes 4 rseq.toNat ++ leBytes 2 r.type.toNat ++ [cls, part] ++ leBytes 6 r.time.toNat
      ++ leBytes 2 pcycle.toNat ++ leBytes 32 r.data.toNat ++ leBytes 4 r.opid.toNat ++ leBytes 4 0 := ⟨_, _, rfl⟩
  generalize crc32c b = crc
  refine ⟨[cls, part] ++ (leBytes 6 r.time.toNat ++ leBytes 2 pcycle.toNat), leBytes 4 0 ++ (leBytes 4 crc.toNat ++ [0xFF, 0xFF, 0xFF]),
    by simp, by simp, ?_⟩
  rw [hb, show leBytes 1 0x5A ++ [] = [(0x5A : Byte)] from rfl]
  simp only [List.append_assoc, List.cons_append, List.nil_append]

/-- R430, R431: `RSEQ`, the type, DATA, the operation and `VMARK` as they stand in a slot. -/
theorem slotOf_fields (rseq : W32) (pcycle : W16) (r : Rec) :
    (slotOf rseq pcycle r).extractLsb' 0 32 = rseq ∧ (slotOf rseq pcycle r).extractLsb' 32 16 = r.type
      ∧ (slotOf rseq pcycle r).extractLsb' 128 256 = r.data ∧ (slotOf rseq pcycle r).extractLsb' 384 32 = r.opid
      ∧ (slotOf rseq pcycle r).extractLsb' 504 8 = 0x5A := by
  obtain ⟨mid, tail, hmid, htail, hslot⟩ := slotOf_bytes rseq pcycle r
  rw [hslot]
  refine ⟨extract_leNat [] 4 rseq _ rfl rfl rfl (by decide), extract_leNat (leBytes 4 rseq.toNat) 2 r.type _ rfl (by simp) rfl (by decide),
    extract_leNat (leBytes 4 rseq.toNat ++ (leBytes 2 r.type.toNat ++ mid)) 32 r.data
      (leBytes 4 r.opid.toNat ++ (tail ++ (leBytes 1 0x5A ++ []))) ?_ ?_ rfl (by decide),
    extract_leNat (leBytes 4 rseq.toNat ++ (leBytes 2 r.type.toNat ++ (mid ++ leBytes 32 r.data.toNat))) 4 r.opid
      (tail ++ (leBytes 1 0x5A ++ [])) ?_ ?_ rfl (by decide),
    extract_leNat (leBytes 4 rseq.toNat ++ (leBytes 2 r.type.toNat ++ (mid ++ (leBytes 32 r.data.toNat ++ (leBytes 4 r.opid.toNat ++ tail))))) 1
      (0x5A : Byte) [] ?_ ?_ rfl (by decide)⟩
  · simp only [List.append_assoc]
  · simp [hmid]
  · simp only [List.append_assoc]
  · simp [hmid]
  · simp only [List.append_assoc]
    rfl
  · simp [hmid, htail]

/-! Programming (R429, R434) -/

/-- `y` is the recorder `x` with slot `w` programmed in the circulating area and, while it has room, in the permanent area. -/
structure Recorder.Programmed (x y : Recorder) (w : BitVec 512) : Prop where
  rseq : y.rseq = x.rseq + 1
  circulating : Tab.get erasedSlot y.circulating x.nextCirc = w
  nextCirc : y.nextCirc = (x.nextCirc + 1) % 65600
  permanent : x.nextPerm < 4096 → Tab.get erasedSlot y.permanent x.nextPerm = w ∧ y.nextPerm = x.nextPerm + 1
  full : 4096 ≤ x.nextPerm → y.permanent = x.permanent
  repairFull : y.repairFull = x.repairFull
  queue : y.queue = x.queue

theorem Recorder.get_circulate (x : Recorder) (w : BitVec 512) : Tab.get erasedSlot (x.circulate w).circulating x.nextCirc = w :=
  Tab.get_set_self _ _ _ _

theorem Recorder.program_programmed (x : Recorder) (r : Rec) : x.Programmed (x.program r) (slotOf x.rseq x.pcycle r) := by
  unfold Recorder.program
  generalize slotOf x.rseq x.pcycle r = slot
  extract_lets w y z
  have hz : x.Programmed z w := by
    have hcirc : Tab.get erasedSlot y.circulating x.nextCirc = w := Recorder.get_circulate _ w
    dsimp only [z]
    split
    · next h =>
      refine ⟨rfl, ?_, rfl, fun _ => ⟨?_, rfl⟩, fun h' => absurd h (Nat.not_lt.2 h'), rfl, rfl⟩
      · exact hcirc
      · exact Tab.get_set_self _ _ _ _
    · next h => exact ⟨rfl, hcirc, rfl, fun h' => absurd h' h, fun _ => rfl, rfl, rfl⟩
  split
  · exact ⟨hz.rseq, hz.circulating, hz.nextCirc, hz.permanent, hz.full, hz.repairFull, hz.queue⟩
  · exact hz

variable {s : State}

/-- R434: the first record of the queue is programmed. -/
theorem exec_recordProgramDone_queue {x : Rec} {q : List Rec} (hr : s.boot.inReset = false) (hdev : s.recorder.nodev = false)
    (hseals : s.recorder.seals = []) (hq : s.recorder.queue = x :: q) (hfull : s.recorder.repairFull = true) :
    exec .recordProgramDone s = .next (s.modRecorder (fun y => { y.program x with queue := q })) := by
  have hkept : (s.recorder.program x).repairFull = true := (s.recorder.program_programmed x).repairFull.trans hfull
  refine congrArg Host.Outcome.next ?_
  rw [State.on, hr, hdev, if_neg (by decide), hseals, hq]
  exact if_pos (by rw [Bool.or_eq_true]; exact .inl hkept)

/-- R434: a SEAL record goes before the queue. -/
theorem exec_recordProgramDone_seal {slot : Nat} {x : Rec} {rnum : W16} {l : List (Nat × Rec × W16)} (hr : s.boot.inReset = false)
    (hdev : s.recorder.nodev = false) (hseals : s.recorder.seals = (slot, x, rnum) :: l) (hlink : s.linkFull = false) :
    exec .recordProgramDone s = .next (s.programSeal slot x rnum) := by
  refine congrArg Host.Outcome.next ?_
  rw [State.on, hr, hdev, if_neg (by decide), hseals]
  exact if_neg (by rw [hlink]; decide)

theorem State.programSeal_permanent (s : State) (slot : Nat) (x : Rec) (rnum : W16) : (s.programSeal slot x rnum).recorder.permanent
    = Tab.set erasedSlot (s.recorder.program x).permanent (4096 + slot) (slotOf s.recorder.rseq s.recorder.pcycle x) := by
  dsimp only [State.programSeal, State.ackReport, State.modLink, State.modRecorder]

/-- R393: an event goes out at once where the link is open and nothing waits. -/
theorem Link.push_open {l : Link} (hhold : l.hold = false) (hpower : l.powered = true) (hbuf : l.buffer = []) (part q inc : Nat) :
    ∃ e, (l.push part q inc).wire = l.wire ++ [e] ∧ e.q = BitVec.ofNat 4 q ∧ e.inc = BitVec.ofNat 48 inc := by
  unfold Link.push
  extract_lets p k i e
  rw [Link.blocked, hhold, hpower, hbuf]
  exact ⟨e, rfl, rfl, rfl⟩

/-- R430, R432: a record joins the queue while it has room. -/
theorem State.event_joins (hdev : s.recorder.nodev = false) (hroom : s.recorder.queue.length < 64) (type : W16) (cls : BitVec 3) (part : Option Nat)
    (opid : W32) (fs : List (Nat × Nat × Nat)) : s.event type cls part opid fs
      = s.modRecorder (fun r => { r with queue := r.queue ++ [s.stamped type cls part opid (recData fs)] }) := by
  rw [State.event, State.evRecord, hdev, if_neg (by decide), if_pos hroom]

/-- Settles O57: `slotOf_fields` for what stands in a programmed slot, `Recorder.program_programmed` for the areas, `Link.push_open` for the
acknowledgement of a SEAL record; the rows of the TAP are their own equations. -/
theorem recordsAndTestAccess : Obligations.RecordsAndTestAccess := by
  intro s k r selects boundary
  refine ⟨fun hr hdev hroom => ?_, fun hr => ?_, fun x q hr hdev hseals hq hfull => ?_, fun slot x rnum l hr hdev hseals hopt hhold hpower hbuf => ?_,
    rfl, rfl, rfl, ⟨_, _, rfl, rfl, rfl, State.note_logged _ _ _ _ _ _ _ _ _, rfl, rfl, rfl, rfl, rfl, rfl⟩,
    ⟨_, _, rfl, rfl, rfl, State.note_logged _ _ _ _ _ _ _ _ _, rfl, rfl, rfl, rfl, rfl, rfl⟩, fun hir => ?_,
    fun hir => congrArg Host.Outcome.next (if_neg hir)⟩
  · refine ⟨_, s.stamped 0x04 0 none 0 (recData [(0, 8, s.recorder.utc.toNat)]), ?_, rfl, rfl, rfl, ?_, ?_⟩
    · refine congrArg Host.Outcome.next ?_
      rw [if_pos (by rw [State.on, hr]; rfl)]
      exact State.event_joins hdev hroom _ _ _ _ _
    · exact (extract_setBits_self (0 : BitVec 256) s.recorder.utc.toNat (by decide)).trans (BitVec.ofNat_toNat ..)
    · show s.calendar = _
      rw [State.calendar, hr, Bool.false_or]
  · exact congrArg Host.Outcome.next (if_pos (by rw [State.on, hr]; rfl))
  · obtain ⟨hrseq, hcirc, hnext, hperm, hpermFull, -, -⟩ := r.program_programmed x
    exact ⟨_, slotOf r.rseq r.pcycle x, exec_recordProgramDone_queue hr hdev hseals hq hfull, rfl, rfl, hrseq, hcirc, hnext, hperm, hpermFull,
      slotOf_fields r.rseq r.pcycle x⟩
  · have hlink : s.linkFull = false := by rw [State.linkFull, hopt, hbuf]; rfl
    obtain ⟨e, hwire, hquantity, hinc⟩ := Link.push_open hhold hpower hbuf 0 14 rnum.toNat
    refine ⟨_, e, exec_recordProgramDone_seal hr hdev hseals hlink, congrArg (List.drop 1) hseals, (r.program_programmed x).queue, ?_, hwire, hquantity,
      hinc.trans (by simp)⟩
    rw [State.programSeal_permanent, Tab.get_set_self]
    obtain ⟨-, htype, -⟩ := slotOf_fields r.rseq r.pcycle x
    exact htype
  · exact ⟨_, congrArg Host.Outcome.next (if_pos hir), rfl, rfl, State.note_logged _ _ _ _ _ _ _ _ _, rfl, rfl, rfl⟩

end Sys2Proof.Machine
end

section
/-! SUPPORT. The rows of a memory port (R307, R353, R355, R357, R396): whose request goes out where one waits, and that neither the counts of a
request nor the data of a stream change a port. -/

namespace Sys2Proof.Machine

theorem State.port_of_ports {s t : State} (h : t.ports = s.ports) (k : Nat) : t.port k = s.port k := by rw [State.port, State.port, h]

theorem State.creditable_of_alive {s : State} (hr : s.boot.inReset = false) (hf : s.boot.fatal = false) : s.creditable = true := by
  rw [State.creditable, State.on, hr, hf]
  rfl

/-! The one request that waits (R307, R338) -/

theorem Port.heads_single {p : Port} {r : Req} (hw : p.waiting = [r]) (hr : r.part < 16) : p.heads = [(r.part, r)] := by
  have hone (q : Nat) : (p.waiting.find? (fun x => x.part = q)).map (fun x => (q, x))
      = (Option.guard (fun q => decide (r.part = q)) q).map (fun q => (q, r)) := by
    rw [hw, List.find?_singleton, Option.guard]
    split <;> rfl
  rw [Port.heads, funext hone, ← List.map_filterMap, List.filterMap_eq_filter, filter_range_eq hr]
  rfl

/-- R307: the request of the only partition that waits is served, whatever its share, its turn and its deficit. -/
theorem State.serve_single (s : State) {p : Port} {r : Req} (hw : p.waiting = [r]) (hr : r.part < 16) :
    ∃ a d, s.serve p = some (r, { p with rr := a, deficit := d }) := by
  unfold State.serve
  extract_lets hs rich req
  have hhs : hs = [(r.part, r)] := Port.heads_single hw hr
  have hreq (q : Nat) : req q = if r.part = q then some r else none := by
    dsimp only [req]
    rw [hhs, List.find?_singleton]
    split <;> simp_all
  have hrich : rich = if s.cfg.active.bwMin r.part = 0 then [] else [r.part] := by
    dsimp only [rich]
    rw [hhs]
    simp [List.filter_singleton]
  have hvisit (d : Tab Nat) :
      ∃ a d', s.visit { p with deficit := d } [r.part] req = some (r, { p with rr := a, deficit := d' }) := by
    rw [State.visit, nextTurn_single]
    dsimp only
    rw [hreq, if_pos rfl]
    exact ⟨_, _, rfl⟩
  by_cases h0 : s.cfg.active.bwMin r.part = 0
  · rw [hrich.trans (if_pos h0)]
    dsimp only
    rw [hhs, List.map_singleton, nextTurn_single]
    dsimp only
    rw [hreq, if_pos rfl]
    exact ⟨_, _, rfl⟩
  · have hone : rich = [r.part] := hrich.trans (if_neg h0)
    rw [hone]
    dsimp only
    rw [hreq]
    by_cases hturn : r.part = p.rr
    · rw [if_pos hturn]
      dsimp only
      split
      · exact ⟨_, _, rfl⟩
      · exact hvisit p.deficit
    · rw [if_neg hturn]
      exact hvisit _

theorem State.countAccess_ports (s : State) (r : Req) : (s.countAccess r).ports = s.ports := by
  unfold State.countAccess
  extract_lets t acc page n rest thr u size a v w
  split
  · rfl
  · split
    · rfl
    · split
      · rfl
      · exact (congrArg State.ports (State.sendIrq_told w _ _ _ _).rest :).trans (congrArg State.ports (State.lightWrite_told u _ _ _ _ _).rest :)

/-- R307, R353, R355: the one request that waits goes out with its tag. -/
theorem exec_memoryRequestIssue {s : State} {k : Fin 16} {r : Req} {tag : Nat} (hf : s.fast = true) (hlink : s.linkFull = false)
    (hlight : s.lightNext k.val = none) (hw : (s.port k.val).waiting = [r]) (hr : r.part < 16) (htag : (s.port k.val).canSend r = some tag) :
    ∃ a d t, exec (.memoryRequestIssue k) s = .next t
      ∧ t.ports = (s.setPort k.val (Port.sent { s.port k.val with rr := a, deficit := d, waiting := [] } r tag)).ports := by
  obtain ⟨a, d, hserve⟩ := s.serve_single hw hr
  refine ⟨a, d, _, congrArg Host.Outcome.next ?_, State.countAccess_ports _ r⟩
  rw [hf, hlink, if_pos (by decide), hlight]
  dsimp only
  rw [State.sendBulk, hserve]
  dsimp only
  rw [htag, hw, List.erase_cons_head]

theorem Port.sent_spec (p : Port) (r : Req) (tag : Nat) : (p.sent r tag).waiting = p.waiting
    ∧ (if r.wr then Tab.get none (p.sent r tag).writes tag else Tab.get none (p.sent r tag).reads tag) = some r := by
  unfold Port.sent
  split
  · next h => exact ⟨rfl, Tab.get_set_self none p.writes tag (some r)⟩
  · next h => exact ⟨rfl, Tab.get_set_self none p.reads tag (some r)⟩

/-! What a response changes (R357, R396) -/

theorem State.readCounts_ports (s : State) (r : Req) : (s.readCounts r).ports = s.ports := by
  unfold State.readCounts State.meterEvent
  split
  · split
    · rfl
    · split <;> rfl
  · rfl

theorem State.readCached_ports (s : State) (n : Nat) (r : Req) : (s.readCached n r).ports = s.ports := by
  unfold State.readCached
  split <;> rfl

theorem State.land_ports (s : State) (n : Nat) (e : QEnt) (d : SDesc) (k slot : Nat) (inp : List Byte) : (s.land n e d k slot inp).ports = s.ports := by
  unfold State.land
  extract_lets c xs r codes a c'
  obtain ⟨h, hh⟩ := (s.setCluster n (c'.partLanded e d k slot s.clk.tick)).modOp_eq e.opid (fun o => o.count r.sat r.flush 0)
  rw [hh]
  rfl

theorem State.readBack_ports (s : State) (n tag k : Nat) (err : Bool) : (s.readBack n tag k err).ports = s.ports := by
  unfold State.readBack
  split
  · rfl
  · split
    · dsimp only
      split
      · rfl
      · split
        · rfl
        · exact State.land_ports _ _ _ _ _ _ _
    · rfl

/-- R357: the tag of a stream's read is given back, and no other port changes. -/
theorem exec_readReturn_stream {s : State} {k : Fin 16} {tag : BitVec 10} {r : Req} {n e part : Nat}
    (hreq : Tab.get none (s.port k.val).reads tag.toNat = some r) (huse : r.use = .stream n e part) :
    ∃ t, exec (.readReturn k tag 0) s = .next t
      ∧ t.ports = (s.modPort k.val (fun p => { p with reads := Tab.set none p.reads tag.toNat none })).ports := by
  obtain ⟨u, hu⟩ : ∃ u, u = s.modPort k.val (fun p => { p with reads := Tab.set none p.reads tag.toNat none }) := ⟨_, rfl⟩
  refine ⟨((u.readCounts r).readCached n r).readBack n e part false, ?_, ?_⟩
  · refine congrArg Host.Outcome.next ?_
    rw [hreq]
    dsimp only
    rw [huse, hu]
    rfl
  · rw [State.readBack_ports, State.readCached_ports, State.readCounts_ports, hu]

theorem exec_writeCompletion_stream {s : State} {k : Fin 16} {tag : BitVec 9} {r : Req} {n e part : Nat}
    (hreq : Tab.get none (s.port k.val).writes tag.toNat = some r) (huse : r.use = .stream n e part) :
    ∃ t, exec (.writeCompletion k tag 0) s = .next t
      ∧ t.ports = (s.modPort k.val (fun p => { p with writes := Tab.set none p.writes tag.toNat none })).ports := by
  obtain ⟨u, hu⟩ : ∃ u, u = s.modPort k.val (fun p => { p with writes := Tab.set none p.writes tag.toNat none }) := ⟨_, rfl⟩
  refine ⟨(u.settleWrite r 0).modCluster n (fun c => c.modEnt e (fun x => { x with left := x.left - 1, landed := s.clk.tick })), ?_, ?_⟩
  · refine congrArg Host.Outcome.next ?_
    rw [hreq]
    dsimp only
    rw [huse, hu]
    rfl
  · rw [hu]
    rfl

/-- Settles O52: each row writes its own port (`State.port_modPort_self`, `State.port_modPort_ne`); `exec_memoryRequestIssue`,
`exec_readReturn_stream` and `exec_writeCompletion_stream` say so for the three that also change other units. -/
theorem portRowsComplete : Obligations.PortRowsComplete := by
  intro s k hr hf p others
  have hcred := State.creditable_of_alive hr hf
  have hothers {t u : State} {f : Port → Port} (h : t.ports = (u.modPort k.val f).ports) (hu : u.ports = s.ports) : others t := fun j hj =>
    (State.port_of_ports h j).trans ((u.port_modPort_ne hj f).trans (State.port_of_ports hu j))
  have hself {t : State} {f : Port → Port} (h : t.ports = (s.modPort k.val f).ports) : t.port k.val = f p :=
    (State.port_of_ports h k.val).trans (s.port_modPort_self k.val f)
  refine ⟨⟨_, congrArg Host.Outcome.next (if_pos hcred), ?_, hothers rfl rfl⟩, ⟨_, congrArg Host.Outcome.next (if_pos hcred), ?_, hothers rfl rfl⟩,
    ⟨_, congrArg Host.Outcome.next (if_pos hcred), ?_, hothers rfl rfl⟩, fun r tag hfast hlink hlight hw hpart htag => ?_,
    fun r tag n e part hreq huse => ?_, fun r tag n e part hreq huse => ?_⟩
  · exact congrArg Port.rc (hself rfl)
  · exact congrArg Port.wc (hself rfl)
  · exact congrArg Port.wd (hself rfl)
  · obtain ⟨a, d, t, ht, hports⟩ := exec_memoryRequestIssue hfast hlink hlight hw hpart htag
    obtain ⟨hwait, htagged⟩ := Port.sent_spec { p with rr := a, deficit := d, waiting := [] } r tag
    have hport : t.port k.val = Port.sent { p with rr := a, deficit := d, waiting := [] } r tag := hself (f := fun _ => _) hports
    exact ⟨t, ht, by rw [hport]; exact hwait, hothers (f := fun _ => _) hports rfl, by rw [hport]; exact htagged⟩
  · obtain ⟨t, ht, hports⟩ := exec_readReturn_stream hreq huse
    exact ⟨t, ht, by rw [hself hports]; exact Tab.get_set_self none p.reads tag.toNat none, hothers hports rfl⟩
  · obtain ⟨t, ht, hports⟩ := exec_writeCompletion_stream hreq huse
    exact ⟨t, ht, by rw [hself hports]; exact Tab.get_set_self none p.writes tag.toNat none, hothers hports rfl⟩

end Sys2Proof.Machine
end

section
/-! SUPPORT. `PT_KILL` (R301, R380): the end of an operation takes the operations of its tag and no other, a killed sequence stays killed, and
the register keeps the sequence that it names. -/

namespace Sys2Proof.Machine

/-! What the end of an operation takes (R279, R333) -/

theorem State.freeOp_ops (s : State) (o : Op) : (s.freeOp o).hw.ops = s.hw.ops.filter (fun x => x.opid != o.opid) := by
  unfold State.freeOp
  extract_lets u v w live
  have hv : s.Leaves v o.opid := (s.freed_unmarks o).leaves (State.dropOp_leaves _ o.opid)
  have hw : w.hw.ops = v.hw.ops := by
    dsimp only [w]
    split
    · rfl
    · exact ((v.seqDone_calm _ _).trans (State.showProgress_calm _ _ _)).ops
  split <;> exact hw.trans hv.ops

theorem State.endOp_ops (s : State) (i : W32) (status detail : Nat) (result : BitVec 96) :
    (s.endOp i status detail result).hw.ops = s.hw.ops.filter (fun x => x.opid != i) := by
  unfold State.endOp
  cases ho : s.op i with
  | none =>
    have hother (x : Op) (hx : x ∈ s.hw.ops) : (x.opid != i) = true := by simpa using List.find?_eq_none.1 ho x hx
    exact (List.filter_eq_self.2 hother).symm
  | some o =>
    obtain rfl := State.op_opid ho
    have hfree : ((s.servedBy o).freeOp o).hw.ops = s.hw.ops.filter (fun x => x.opid != o.opid) := by
      rw [State.freeOp_ops, (s.servedBy_answers o).unmarks.ops]
    dsimp only
    split
    · exact (State.resumed_answers _ o _ _ _ _ _).unmarks.ops.trans hfree
    · exact (State.completeUnder_answers _ _ _ _ _).unmarks.ops.trans hfree

theorem State.endOps_ops (os : List Op) (s : State) (status detail : Nat) (result : BitVec 96) :
    (os.foldl (fun s o => s.endOp o.opid status detail result) s).hw.ops = s.hw.ops.filter (fun x => os.all (fun o => x.opid != o.opid)) := by
  induction os generalizing s with
  | nil => exact (List.filter_eq_self.2 fun _ _ => rfl).symm
  | cons o os ih =>
    rw [List.foldl_cons, ih, State.endOp_ops, List.filter_filter]
    exact congrArg (fun f => s.hw.ops.filter f) (funext fun x => Bool.and_comm _ _)

/-! What it leaves (R279, R380) -/

/-- In `t` the sequences that are killed in `s` are killed, and each `PT_KILL` names the sequence that it names in `s`. -/
structure State.StaysKilled (s t : State) : Prop where
  killed : ∀ k, (Tab.get Seq.free s.hw.seqs k).st = .killed → (Tab.get Seq.free t.hw.seqs k).st = .killed
  named : ∀ p, (t.ptReg p).killSqid = (s.ptReg p).killSqid

theorem State.StaysKilled.refl (s : State) : s.StaysKilled s := ⟨fun _ h => h, fun _ => rfl⟩

theorem State.StaysKilled.trans {r s t : State} (a : r.StaysKilled s) (b : s.StaysKilled t) : r.StaysKilled t :=
  ⟨fun k h => b.killed k (a.killed k h), fun p => (b.named p).trans (a.named p)⟩

theorem State.StaysKilled.foldl {α : Type} {f : State → α → State} (hf : ∀ (s : State) (x : α), s.StaysKilled (f s x)) (xs : List α) (s : State) :
    s.StaysKilled (xs.foldl f s) := by
  induction xs generalizing s with
  | nil => exact .refl s
  | cons x xs ih => exact (hf s x).trans (ih _)

theorem State.ptReg_of_pt {s t : State} (h : t.pt = s.pt) (p : Nat) : t.ptReg p = s.ptReg p := by rw [State.ptReg, State.ptReg, h]

theorem State.pt_of_beside {s t : State} (h : t.beside = s.beside) : t.pt = s.pt := congrArg (fun x => x.2.1) h

theorem Seq.Unmarked.st {x y : Seq} (h : x.Unmarked y) : y.st = x.st := by obtain rfl | rfl := h <;> rfl

theorem State.Unmarks.staysKilled {s t : State} (h : s.Unmarks t) (hpt : t.pt = s.pt) : s.StaysKilled t :=
  ⟨fun k hk => (h.seqs k).st.trans hk, fun p => congrArg Pt.killSqid (State.ptReg_of_pt hpt p)⟩

theorem State.Told.pt {s t : State} {j : Nat} (h : s.Told t j) : t.pt = s.pt := (congrArg State.pt h.rest :)

theorem State.Told.staysKilled {s t : State} {j : Nat} (h : s.Told t j) : s.StaysKilled t := h.answers.unmarks.staysKilled h.pt

theorem State.setPt_staysKilled (s : State) {p : Nat} {c : Pt} (h : c.killSqid = (s.ptReg p).killSqid) : s.StaysKilled (s.setPt p c) := by
  refine ⟨fun _ hk => hk, fun q => ?_⟩
  by_cases hq : q = p
  · rw [hq, State.ptReg_setPt_self, h]
  · rw [State.ptReg_setPt_ne s hq]

theorem State.setSeq_staysKilled (s : State) {p q : Nat} {c : Seq} (h : (s.seq p q).st = .killed → c.st = .killed) : s.StaysKilled (s.setSeq p q c) := by
  have hpt : (s.setSeq p q c).pt = s.pt := State.pt_of_beside (s.setSeq_beside p q c)
  refine ⟨fun k hk => ?_, fun r => congrArg Pt.killSqid (State.ptReg_of_pt hpt r)⟩
  rw [State.setSeq_hw]
  by_cases hkey : k = seqKey p q
  · subst hkey
    rw [State.putSeq, Tab.get_set_self]
    exact h hk
  · rw [State.putSeq, Tab.get_set_ne _ _ hkey]
    exact hk

/-! Records and signals leave the partitions' registers (R292, R342) -/

theorem State.endSwait_pt (s : State) (sp outcome : Nat) : (s.endSwait sp outcome).pt = s.pt := by
  unfold State.endSwait
  extract_lets x cnt
  split
  · rfl
  · extract_lets y z u v w
    split
    · exact (v.trace_told _ _ _ _ _ _).pt
    · rfl

theorem State.releaseWaiter_pt (s : State) (w : Waiter) : (s.releaseWaiter w).pt = s.pt := by
  cases w with
  | pair sp => exact s.endSwait_pt sp 0
  | command r i => rfl
  | stream n tag => rfl

theorem State.raise_pt (s : State) (n : Nat) : (s.raise n).pt = s.pt := by
  unfold State.raise
  dsimp only
  split
  · rfl
  · exact foldl_reads (g := State.pt) State.releaseWaiter_pt _ _

theorem State.raise_staysKilled (s : State) (n : Nat) : s.StaysKilled (s.raise n) := (s.raise_answers n).unmarks.staysKilled (s.raise_pt n)

theorem State.classP_staysKilled (s : State) (p cause addr : Nat) : s.StaysKilled (s.classP p cause addr) :=
  (State.Answers.of_unreported (s.classP_faulted p cause addr).rest).unmarks.staysKilled (congrArg State.pt (s.classP_faulted p cause addr).rest :)

theorem State.recordWritten_pt (s : State) (ring : Nat) (idx : W32) (raise : Option Nat) (irq : Bool) : (s.recordWritten ring idx raise irq).pt = s.pt := by
  unfold State.recordWritten
  extract_lets r r' s1 s2
  have hs2 : s2.pt = s.pt := by
    dsimp only [s2]
    cases raise with
    | none => rfl
    | some n => exact s1.raise_pt n
  split
  · exact (s2.sendIrq_told _ _ _ _).pt.trans hs2
  · exact hs2

theorem State.writeRecord_pt (s : State) (ring : Nat) (idx : W32) (w : BitVec 256) (raise : Option Nat) (irq : Bool) :
    (s.writeRecord ring idx w raise irq).pt = s.pt := by
  unfold State.writeRecord
  dsimp only
  split
  · exact (State.recordWritten_pt _ _ _ _ _).trans (s.lightWrite_told _ _ _ _ _).pt
  · rfl
  · exact (congrArg State.pt (s.classP_faulted _ _ _).rest :)

theorem State.countIf_pt (s : State) (b : Bool) : (if b then s.countL else s).pt = s.pt := by split <;> rfl

theorem State.completeUnder_staysKilled (s : State) (set : CfgSet) (part : Nat) (c : Cmd) (x : Compl) : s.StaysKilled (s.completeUnder set part c x) := by
  refine (s.completeUnder_answers set part c x).unmarks.staysKilled ?_
  unfold State.completeUnder
  extract_lets s1 s2
  exact (s2.writeRecord_pt _ _ _ _ _).trans ((s1.trace_told _ _ _ _ _ _).pt.trans (s.countIf_pt _))

theorem State.resumeRecordPut_staysKilled (s : State) (p a : Nat) (w : BitVec 256) :
    s.StaysKilled ((s.lightWrite .record (.partition p) p a (leBytes 32 w.toNat)).setPt p { s.ptReg p with rringTail := (s.ptReg p).rringTail + 1 }) :=
  have hlight := s.lightWrite_told .record (.partition p) p a (leBytes 32 w.toNat)
  hlight.staysKilled.trans (State.setPt_staysKilled _ (congrArg Pt.killSqid (State.ptReg_of_pt hlight.pt p)).symm)

theorem State.resumeRecord_staysKilled (s : State) (p : Nat) (w : BitVec 256) (sig : Option Nat) : s.StaysKilled (s.resumeRecord p w sig) := by
  unfold State.resumeRecord
  extract_lets t a w' u
  split
  · exact s.setPt_staysKilled rfl
  · split
    · have hu : s.StaysKilled u := (s.resumeRecordPut_staysKilled p a w').trans (State.irqPending_told _ _ _ _ _ _).staysKilled
      cases sig with
      | none => exact hu
      | some n => exact hu.trans (u.raise_staysKilled n)
    · exact s.setPt_staysKilled rfl
    · exact s.classP_staysKilled _ _ _

/-! The end of an operation and the kill (R301, R380) -/

theorem State.servedBy_staysKilled (s : State) (o : Op) : s.StaysKilled (s.servedBy o) := by
  refine (s.servedBy_answers o).unmarks.staysKilled ?_
  unfold State.servedBy
  extract_lets e f
  exact foldl_reads (f := fun (s : State) k => s.modPair k f) (g := State.pt) (fun _ _ => rfl) _ s

theorem State.seqDone_staysKilled (s : State) (p q : Nat) : s.StaysKilled (s.seqDone p q) := by
  unfold State.seqDone
  dsimp only
  split
  · exact .refl s
  · exact s.setSeq_staysKilled (fun h => by simp [h])

theorem State.showProgress_staysKilled (s : State) (p q : Nat) : s.StaysKilled (s.showProgress p q) := by
  unfold State.showProgress
  split
  · split
    · exact .refl s
    · exact s.setSeq_staysKilled id
  · exact .refl s

theorem State.freed_staysKilled (s : State) (o : Op) :
    s.StaysKilled ((((o.pins.foldl (fun s g => s.unpin o.part g) s).dropCopies o).leaveLoans o o.lent).freePairs o) := by
  refine (s.freed_unmarks o).staysKilled ?_
  have hpins : (o.pins.foldl (fun s g => s.unpin o.part g) s).beside = s.beside := foldl_reads (fun s g => s.unpin_beside o.part g) o.pins s
  generalize o.pins.foldl (fun s g => s.unpin o.part g) s = u at hpins
  have hbeside : (((u.dropCopies o).leaveLoans o o.lent).freePairs o).beside = s.beside := by
    rw [State.freePairs_beside, State.leaveLoans_beside, State.dropCopies_beside, hpins]
  exact State.pt_of_beside hbeside

theorem State.dropOp_staysKilled (s : State) (i : W32) : s.StaysKilled (s.dropOp i) := ⟨fun _ h => h, fun _ => rfl⟩

theorem State.freeOp_staysKilled (s : State) (o : Op) : s.StaysKilled (s.freeOp o) := by
  unfold State.freeOp
  extract_lets u v w live
  have hv : s.StaysKilled v := (s.freed_staysKilled o).trans (State.dropOp_staysKilled _ o.opid)
  have hw : s.StaysKilled w := by
    dsimp only [w]
    split
    · exact hv
    · exact hv.trans ((v.seqDone_staysKilled _ _).trans (State.showProgress_staysKilled _ _ _))
  split
  · exact hw
  · exact hw.trans (State.setPt_staysKilled _ rfl)

theorem State.endOp_staysKilled (s : State) (opid : W32) (status detail : Nat) (result : BitVec 96) : s.StaysKilled (s.endOp opid status detail result) := by
  unfold State.endOp
  split
  · exact .refl s
  · next o _ =>
    extract_lets x u v w
    have hu : s.StaysKilled u := (s.servedBy_staysKilled o).trans (State.freeOp_staysKilled _ o)
    split
    · have hw : u.StaysKilled w := ((u.countIf_answers _).unmarks.staysKilled (u.countIf_pt _)).trans (v.trace_told _ _ _ _ _ _).staysKilled
      exact (hu.trans hw).trans (w.resumeRecord_staysKilled _ _ _)
    · exact hu.trans (u.completeUnder_staysKilled _ _ _ _)

theorem State.finish_staysKilled (s : State) (p : Nat) (c : Cmd) (x : Compl) : s.StaysKilled (s.finish p c x) :=
  State.StaysKilled.trans (s := s.unstage c) ⟨fun _ h => h, fun _ => rfl⟩ (State.completeUnder_staysKilled _ _ _ _ _)

theorem State.finish_ops (s : State) (p : Nat) (c : Cmd) (x : Compl) : (s.finish p c x).hw.ops = s.hw.ops :=
  (State.completeUnder_answers (s.unstage c) _ p c x).unmarks.ops

/-- R380: a kill of sequence `q` of partition `p` takes operation `o`: one of the sequence that is neither a program nor a RELEASE. -/
def Op.killedWith (p q : Nat) (o : Op) : Bool := o.part = p && sqidOf o.cmd = q && !([0x02, 0x0F].contains (opcodeOf o.cmd))

theorem Op.killedWith_iff {p q : Nat} {o : Op} :
    o.killedWith p q = true ↔ o.part = p ∧ sqidOf o.cmd = q ∧ opcodeOf o.cmd ≠ 0x0F ∧ opcodeOf o.cmd ≠ 0x02 := by
  simp [Op.killedWith, and_assoc, and_comm (a := ¬ opcodeOf o.cmd = 2)]

/-- The sequence of a kill once it is marked. -/
def State.markKilled (s : State) (p q : Nat) : State := if (s.seq p q).st = .free then s else s.modSeq p q (fun x => { x with st := .killed })

theorem State.markKilled_used {s : State} {p q : Nat} (h : (s.seq p q).st ≠ .free) : s.markKilled p q = s.modSeq p q (fun x => { x with st := .killed }) :=
  if_neg h

theorem State.kill_ops (s : State) (p q va : Nat) :
    (s.kill p q va).hw.ops = s.hw.ops.filter (fun x => (s.hw.ops.filter (Op.killedWith p q)).all (fun o => x.opid != o.opid)) := by
  have hmark : (s.markKilled p q).hw.ops = s.hw.ops := by
    unfold State.markKilled
    split
    · rfl
    · exact (State.modSeq_calm (s := s) (fun _ => rfl)).ops
  have hend := State.endOps_ops ((s.markKilled p q).hw.ops.filter (Op.killedWith p q)) (s.markKilled p q) 0x30 0 (resVa va)
  rw (occs := .pos [2, 3]) [hmark] at hend
  exact (foldl_reads (g := fun s : State => s.hw.ops) (fun s (x : Staged) => s.finish_ops p x.cmd _) _ _).trans hend

theorem State.kill_staysKilled {s : State} {p q : Nat} (h : (s.seq p q).st ≠ .free) (va : Nat) :
    ((s.kill p q va).seq p q).st = .killed ∧ ((s.kill p q va).ptReg p).killSqid = (s.ptReg p).killSqid := by
  have hmark : s.StaysKilled (s.markKilled p q) := by
    rw [State.markKilled_used h]
    exact s.setSeq_staysKilled (fun _ => rfl)
  have hkilled : ((s.markKilled p q).seq p q).st = .killed := by rw [State.markKilled_used h, State.seq_modSeq_self]
  have hend : (s.markKilled p q).StaysKilled (s.kill p q va) :=
    (State.StaysKilled.foldl (fun s (o : Op) => s.endOp_staysKilled o.opid _ _ _) _ _).trans
      (State.StaysKilled.foldl (fun s (x : Staged) => s.finish_staysKilled p x.cmd _) _ _)
  exact ⟨hend.killed _ hkilled, (hmark.trans hend).named p⟩

/-! The register (R348, R380) -/

/-- `PT_KILL` of partition `p` names sequence `q`. -/
def State.killNamed (s : State) (p q : Nat) : State := s.modPt p (fun t => { t with killSqid := BitVec.ofNat 14 q })

theorem State.writeKill_kills {s : State} {p : Nat} {v : W64} (hgo : v.getLsbD 63 = true) (hfree : (s.seq p (bits v 0 14)).st ≠ .free)
    (hspilled : (s.seq p (bits v 0 14)).st ≠ .spilled) (off : Nat) :
    ∃ live, s.writeKill p off v = ((s.killNamed p (bits v 0 14)).kill p (bits v 0 14) 0).modPt p (fun t => { t with killGo := live })
      ∧ live = ((s.killNamed p (bits v 0 14)).kill p (bits v 0 14) 0).hw.ops.any (Op.killedWith p (bits v 0 14)) := by
  unfold State.writeKill
  dsimp only
  rw [bit, hgo, if_neg (by decide), if_neg (by simp [hfree, hspilled])]
  exact ⟨_, rfl, rfl⟩

/-- Settles O32: `State.kill_ops` says which operations end, `State.kill_staysKilled` that the sequence is killed and the register keeps it. -/
theorem sequenceKill : Obligations.SequenceKill := by
  intro s p v ho hgo q st
  have hq : bits v 0 14 = q := bits_low v 14
  have hexec : exec (.ptKill p v) s = .next (s.writeKill p.val (ptOff p.val 0x320) v) :=
    congrArg Host.Outcome.next ((if_pos hgo).trans (State.hostWrite_window ho p.isLt (by decide) (by decide) (by decide) v))
  refine ⟨fun hfree hspilled => ?_, fun h => ⟨_, hexec, ?_⟩⟩
  · obtain ⟨live, hkill, hlive⟩ := State.writeKill_kills (s := s) (p := p.val) hgo (by rw [hq]; exact hfree) (by rw [hq]; exact hspilled)
      (ptOff p.val 0x320)
    rw [hq] at hkill hlive
    obtain ⟨u, hu⟩ : ∃ u, u = s.killNamed p.val q := ⟨_, rfl⟩
    rw [← hu] at hkill hlive
    have hops := u.kill_ops p.val q 0
    have hsame : u.hw.ops = s.hw.ops := by rw [hu]; rfl
    rw [hsame] at hops
    obtain ⟨hst, hnamed⟩ := State.kill_staysKilled (s := u) (p := p.val) (q := q) (by rw [hu]; exact hfree) 0
    generalize u.kill p.val q 0 = w at hkill hlive hops hst hnamed
    have hended (o : Op) (h : o ∈ w.hw.ops) : o.killedWith p.val q = false := by
      rw [hops] at h
      obtain ⟨hmem, hall⟩ := List.mem_filter.1 h
      by_contra hkilled
      have hself := List.all_eq_true.1 hall o (List.mem_filter.2 ⟨hmem, by simpa using hkilled⟩)
      simp at hself
    refine ⟨_, hexec.trans (congrArg Host.Outcome.next hkill), hst, fun o hmem hbad => ?_, fun o hmem hkept hone => ?_, ?_, ?_⟩
    · exact absurd (hended o hmem) (by rw [Op.killedWith_iff.2 hbad]; decide)
    · rw [State.modPt_hw, hops]
      refine List.mem_filter.2 ⟨hmem, List.all_eq_true.2 fun x hx => ?_⟩
      obtain ⟨hx, hkilled⟩ := List.mem_filter.1 hx
      have hne : o.opid ≠ x.opid := fun e => hkept (Op.killedWith_iff.1 (hone x hx e.symm ▸ hkilled))
      exact bne_iff_ne.2 hne
    · rw [State.ptReg_modPt_self]
      refine hnamed.trans ?_
      rw [hu, State.killNamed, State.ptReg_modPt_self]
      exact BitVec.eq_of_toNat_eq (by rw [BitVec.toNat_ofNat, BitVec.toNat_setWidth]; exact Nat.mod_mod _ _)
    · rw [State.ptReg_modPt_self, hlive]
      exact List.any_eq_false.2 fun o hmem => by rw [hended o hmem]; decide
  · have hignored : s.writeKill p.val (ptOff p.val 0x320) v = s.ignoredWrite (some p.val) (ptOff p.val 0x320) v := by
      unfold State.writeKill
      dsimp only
      rw [bit, hgo, if_neg (by decide), hq, if_pos (by simpa using h)]
    rw [hignored]
    exact s.ignored_notes p.val v 0x320

end Sys2Proof.Machine
end

section
/-! SUPPORT. Flits and fabric credits (R358 to R362): a discarded flit gives its credit back and is counted and logged, and a tile in staging that
nobody asks for stays there. -/

namespace Sys2Proof.Machine

/-! The credit of a flit (R359) -/

/-- The flit that arrives at in-port `k` takes one credit. -/
def State.creditUsed (s : State) (k : Nat) : State := s.modFab (fun x => { x with inCred := Tab.set 0 x.inCred k (Tab.get 0 x.inCred k - 1) })

theorem State.creditUsed_inCred (s : State) (k j : Nat) :
    Tab.get 0 (s.creditUsed k).fab.inCred j = if j = k then Tab.get 0 s.fab.inCred k - 1 else Tab.get 0 s.fab.inCred j :=
  Tab.get_set 0 s.fab.inCred k j (Tab.get 0 s.fab.inCred k - 1)

theorem State.giveFlits_inCred (s : State) (k n j : Nat) :
    Tab.get 0 (s.giveFlits k n).fab.inCred j = if j = k then Nat.min 512 (Tab.get 0 s.fab.inCred k + n) else Tab.get 0 s.fab.inCred j :=
  Tab.get_set 0 s.fab.inCred k j (Nat.min 512 (Tab.get 0 s.fab.inCred k + n))

theorem State.discardFlit_eq (s : State) (k cause part arg : Nat) :
    s.discardFlit k cause part arg = ((s.modGlob (fun g => { g with
      fabLost := if cause = 4 then bump g.fabLost else g.fabLost
      fabBad := if cause = 4 then g.fabBad else bump g.fabBad })).giveFlits k 1).note 0x0D (some part) false 0 (BitVec.ofNat 8 (0xA0 + k)) 0 cause arg := by
  unfold State.discardFlit
  split <;> rfl

/-! A discarded flit (R362) -/

/-- From `s` to `t` one flit of in-port `k` has been discarded for `cause`: its credit is back, and it is counted and logged. -/
structure State.Discarded (s t : State) (k part cause : Nat) : Prop where
  others : ∀ j, j ≠ k → Tab.get 0 t.fab.inCred j = Tab.get 0 s.fab.inCred j
  back : Tab.get 0 t.fab.inCred k = Tab.get 0 s.fab.inCred k
  staged : t.fab.stagedT = s.fab.stagedT
  logged : ∃ e, t.Logged s.ras.total e ∧ e.kind = 0x0D ∧ e.unit = BitVec.ofNat 8 (0xA0 + k) ∧ e.arg0 = BitVec.ofNat 32 cause ∧ e.part = some part
  glob : t.glob = { s.glob with fabLost := t.glob.fabLost, fabBad := t.glob.fabBad }
  hw : t.hw = s.hw
  clusters : t.clusters = s.clusters
  mem : t.mem = s.mem
  lost : t.glob.fabLost = if cause = 4 then bump s.glob.fabLost else s.glob.fabLost
  bad : t.glob.fabBad = if cause = 4 then s.glob.fabBad else bump s.glob.fabBad

/-- A discard after the flit's credit is used and the tile being received has changed. -/
theorem State.discardFlit_discarded {s : State} {k : Nat} {fab : Fab} (hin : fab.inCred = (s.creditUsed k).fab.inCred)
    (hstaged : fab.stagedT = s.fab.stagedT) (hone : 1 ≤ Tab.get 0 s.fab.inCred k) (hmax : Tab.get 0 s.fab.inCred k ≤ 512) (cause part arg : Nat) :
    s.Discarded (State.discardFlit { s with fab } k cause part arg) k part cause := by
  have hcred (j : Nat) : Tab.get 0 fab.inCred j = if j = k then Tab.get 0 s.fab.inCred k - 1 else Tab.get 0 s.fab.inCred j := by
    rw [hin, State.creditUsed_inCred]
  rw [State.discardFlit_eq]
  refine ⟨fun j hj => ?_, ?_, hstaged, ⟨_, State.note_logged _ _ _ _ _ _ _ _ _, rfl, rfl, rfl, rfl⟩, rfl, rfl, rfl, rfl, rfl, rfl⟩
  · exact (State.giveFlits_inCred _ k 1 j).trans ((if_neg hj).trans ((hcred j).trans (if_neg hj)))
  · refine (State.giveFlits_inCred _ k 1 k).trans ((if_pos rfl).trans ?_)
    show Nat.min 512 (Tab.get 0 fab.inCred k + 1) = _
    rw [hcred, if_pos rfl, Nat.sub_add_cancel hone]
    exact Nat.min_eq_right hmax

/-- A wake that starts takes nothing of the discard away (R352). -/
theorem State.Discarded.startWake {s t : State} {k part cause : Nat} (h : s.Discarded t k part cause) : s.Discarded t.startWake k part cause := by
  obtain ⟨w, hw⟩ := t.startWake_eq
  rw [hw]
  exact { h with }

/-! What becomes of a flit (R360, R362) -/

theorem State.exec_flit {s : State} {f : Flit} (hr : s.boot.inReset = false) (hf : s.boot.fatal = false) (hk : f.kind ≠ 1)
    (hone : 1 ≤ Tab.get 0 s.fab.inCred f.port.val) : exec (.flit f) s = .next (s.takeFlit f) :=
  congrArg Host.Outcome.next (if_pos (by rw [State.creditable_of_alive hr hf, bne_iff_ne.2 hk, decide_eq_true hone]; rfl))

theorem State.exec_flit_uncredited {s : State} {f : Flit} (h : Tab.get 0 s.fab.inCred f.port.val = 0) : exec (.flit f) s = .next s :=
  congrArg Host.Outcome.next (if_neg (by simp [h]))

theorem State.setPartial_partialT (s : State) (k : Nat) (t : Option InTile) : Tab.get none (s.setPartial k t).fab.partialT k = t :=
  Tab.get_set_self none s.fab.partialT k t

theorem State.setPartial_inCred (s : State) (k : Nat) (t : Option InTile) : (s.setPartial k t).fab.inCred = s.fab.inCred := rfl

theorem State.setPartial_stagedT (s : State) (k : Nat) (t : Option InTile) : (s.setPartial k t).fab.stagedT = s.fab.stagedT := rfl

theorem State.setPartial_rest (s : State) (k j : Nat) (t : Option InTile) : { (s.creditUsed k).setPartial j t with fab := s.fab } = s := by
  cases s
  rfl

/-- What becomes of a tensor flit that belongs to tile `t`. -/
def State.sortFlit (s : State) (f : Flit) (t : InTile) : State :=
  if t.2.2 then (s.setPartial f.port.val (if f.eot then none else some t)).discardFlit f.port.val 3 f.part.val (flitArg f.part.val f.sqid f.layer)
  else if (s.seq t.1.part t.1.sqid.toNat).st = .free then
    (s.setPartial f.port.val (if f.eot then none else some (t.1, t.2.1, false))).discardFlit f.port.val 2 f.part.val (flitArg f.part.val f.sqid f.layer)
  else s.stageFlit f t

section
variable {s : State} {f : Flit}

theorem State.takeFlit_asleep (ha : s.clk.awake = false) :
    s.takeFlit f = ((s.creditUsed f.port.val).discardFlit f.port.val 4 f.part.val (flitArg f.part.val f.sqid f.layer)).startWake :=
  if_pos (by simpa using ha)

theorem State.takeFlit_reserved (ha : s.clk.awake = true) (hk : f.kind ≠ 0) :
    s.takeFlit f = (s.creditUsed f.port.val).discardFlit f.port.val 1 f.part.val (flitArg f.part.val f.sqid f.layer) :=
  (if_neg (by simpa using ha)).trans (if_pos (by simpa using hk))

/-- A tensor flit that no unfinished tile hinders goes on with the tile it belongs to. -/
theorem State.takeFlit_tile (ha : s.clk.awake = true) (hk : f.kind = 0) (hdrop : f.sot = true → Tab.get none s.fab.partialT f.port.val = none)
    {t : InTile} (ht : s.inTile f = t) (hgood : t.2.2 = false) :
    s.takeFlit f = if (s.seq t.1.part t.1.sqid.toNat).st = .free then
        ((s.creditUsed f.port.val).setPartial f.port.val (if f.eot then none else some (t.1, t.2.1, false))).discardFlit f.port.val 2 f.part.val
          (flitArg f.part.val f.sqid f.layer)
      else (s.creditUsed f.port.val).stageFlit f t := by
  have hwhole : (s.creditUsed f.port.val).dropUnfinished f = s.creditUsed f.port.val := by
    unfold State.dropUnfinished
    split
    · next x hx hsot => exact absurd ((hdrop hsot).symm.trans hx) (by simp)
    · rfl
  have htake : s.takeFlit f = ((s.creditUsed f.port.val).dropUnfinished f).sortFlit f (((s.creditUsed f.port.val).dropUnfinished f).inTile f) :=
    (if_neg (by simpa using ha)).trans (if_neg (by simp [hk]))
  have htile : (s.creditUsed f.port.val).inTile f = t := ht
  rw [htake, hwhole, htile]
  exact if_neg (by simp [hgood])

end

/-! Tiles in staging (R360) -/

theorem State.feed_unwanted {s : State} (hops : s.hw.ops = []) (hstaged : ∀ x ∈ s.hw.staged, fiEn x.cmd = false) (k : Nat) (t : FTile × Nat) :
    s.feed k t = s := by
  have howner : s.tileOwner k t.1 = none := by rw [State.tileOwner, hops]; rfl
  unfold State.feed
  dsimp only
  rw [howner]
  dsimp only
  rw [List.find?_eq_none.2 (fun x hx => by simp [hstaged x hx])]

theorem State.pullTiles_unwanted {s : State} (hops : s.hw.ops = []) (hstaged : ∀ x ∈ s.hw.staged, fiEn x.cmd = false) (k : Nat) : s.pullTiles k = s := by
  rw [State.pullTiles, List.foldl_fixed' (fun t => State.feed_unwanted hops hstaged k t)]
  exact State.progressAll_quiet hops

theorem flitBytes_eq (f : Flit) : flitBytes f = leBytes (if f.eot = true ∧ f.bytes ≠ 0 then f.bytes.toNat else 128) f.data.toNat := by
  simp [flitBytes]

theorem State.inTile_first {s : State} {f : Flit} (h : f.sot = true) : s.inTile f = (⟨f.part.val, f.sqid, f.layer, []⟩, 0, false) := if_pos h

theorem State.inTile_next {s : State} {f : Flit} {t : InTile} (h : f.sot = false) (ht : Tab.get none s.fab.partialT f.port.val = some t) : s.inTile f = t :=
  (if_neg (by simp [h])).trans (by rw [ht]; rfl)

/-- A complete tile joins the staging of in-port `k`. -/
def State.tileStaged (s : State) (k : Nat) (y : FTile × Nat) : State :=
  (s.setPartial k none).modFab (fun x => { x with stagedT := Tab.set [] x.stagedT k (Tab.get [] x.stagedT k ++ [y]) })

theorem State.tileStaged_stagedT (s : State) (k : Nat) (y : FTile × Nat) :
    Tab.get [] (s.tileStaged k y).fab.stagedT k = Tab.get [] s.fab.stagedT k ++ [y] := Tab.get_set_self [] s.fab.stagedT k _

theorem State.tileStaged_partialT (s : State) (k : Nat) (y : FTile × Nat) : Tab.get none (s.tileStaged k y).fab.partialT k = none :=
  s.setPartial_partialT k none

theorem State.tileStaged_inCred (s : State) (k : Nat) (y : FTile × Nat) : (s.tileStaged k y).fab.inCred = s.fab.inCred := rfl

theorem State.tileStaged_rest (s : State) (k j : Nat) (y : FTile × Nat) : { (s.creditUsed k).tileStaged j y with fab := s.fab } = s := by
  cases s
  rfl

/-- A flit that ends its tile, which nobody asks for: the tile is complete in staging. -/
theorem State.stageFlit_last {s : State} {f : Flit} (heot : f.eot = true) (hops : s.hw.ops = []) (hstaged : ∀ x ∈ s.hw.staged, fiEn x.cmd = false)
    (t : InTile) : s.stageFlit f t = s.tileStaged f.port.val ({ t.1 with data := t.1.data ++ flitBytes f }, t.2.1 + 1) :=
  (if_pos heot).trans (State.pullTiles_unwanted (s := s.tileStaged f.port.val _) hops hstaged f.port.val)

theorem State.stageFlit_more {s : State} {f : Flit} {t : InTile} (heot : f.eot = false) (h : t.2.1 < 511) :
    s.stageFlit f t = s.setPartial f.port.val (some ({ t.1 with data := t.1.data ++ flitBytes f }, t.2.1 + 1, false)) :=
  (if_neg (by simp [heot])).trans (if_neg (by omega))

/-! Credits of an out-port (R343, R359) -/

theorem State.flitAcked_outCred (s : State) (k : Nat) : (s.flitAcked k).fab.outCred = s.fab.outCred := by
  unfold State.flitAcked
  split
  · rfl
  · dsimp only
    split <;> rfl

theorem State.flitAcked_hw (s : State) (k : Nat) : (s.flitAcked k).hw = s.hw := by
  unfold State.flitAcked
  split
  · rfl
  · dsimp only
    split <;> rfl

theorem State.flitAcked_none {s : State} {k : Nat} (h : Tab.get [] s.fab.outWait k = []) : s.flitAcked k = s := by
  unfold State.flitAcked
  rw [h]

/-- The credits that a receiver returns to out-port `k` are counted. -/
def State.outCredited (s : State) (k n : Nat) : State :=
  s.modFab (fun f => { f with outCred := Tab.set 0 f.outCred k (Nat.min 4096 (Tab.get 0 f.outCred k + n)) })

theorem State.outCredited_outCred (s : State) (k n j : Nat) :
    Tab.get 0 (s.outCredited k n).fab.outCred j = if j = k then Nat.min 4096 (Tab.get 0 s.fab.outCred k + n) else Tab.get 0 s.fab.outCred j :=
  Tab.get_set 0 s.fab.outCred k j (Nat.min 4096 (Tab.get 0 s.fab.outCred k + n))

theorem State.exec_fabricCredit {s : State} (hr : s.boot.inReset = false) (hf : s.boot.fatal = false) (hops : s.hw.ops = []) {port : Fin 8} {cnt : BitVec 4}
    (hlow : 1 ≤ cnt.toNat) (hhigh : cnt.toNat ≤ 8) : exec (.fabricCredit port cnt) s
      = .next ((List.replicate cnt.toNat ()).foldl (fun s _ => s.flitAcked port.val) (s.outCredited port.val cnt.toNat)) := by
  have hhw : ((List.replicate cnt.toNat ()).foldl (fun s _ => s.flitAcked port.val) (s.outCredited port.val cnt.toNat)).hw.ops = [] :=
    (congrArg Hw.ops (foldl_reads (g := State.hw) (fun s _ => s.flitAcked_hw port.val) _ _)).trans hops
  have hgo : (s.creditable && decide (1 ≤ cnt.toNat ∧ cnt.toNat ≤ 8)) = true := by simp [State.creditable_of_alive hr hf, hlow, hhigh]
  exact congrArg Host.Outcome.next ((if_pos hgo).trans (State.progressAll_quiet hhw))

/-- Settles O53: `State.discardFlit_discarded` for each discarded flit, `State.stageFlit_last` and `State.stageFlit_more` for a tile that stands. -/
theorem fabricFlow : Obligations.FabricFlow := by
  intro s f port cnt hr hf hops k cred tile credited discards
  have hdiscards {cause : Nat} {lost : Bool} (hl : lost = decide (cause = 4)) {t : State} (hexec : exec (.flit f) s = .next t)
      (h : s.Discarded t k f.part.val cause) (hwake : lost = true → 2 ≤ s.boot.stage → t.clk.waking = true) : discards (BitVec.ofNat 32 cause) lost := by
    obtain ⟨e, hlog, hkind, hunit, harg, hpart⟩ := h.logged
    refine ⟨t, e, hexec, ⟨h.others, h.back⟩, h.staged, hlog, hkind, hunit, harg, hpart, h.glob, h.hw, h.clusters, h.mem, ?_, ?_, hwake⟩
    · rw [h.lost, hl]
      by_cases h4 : cause = 4 <;> simp [h4, toNat_bump]
    · rw [h.bad, hl]
      by_cases h4 : cause = 4 <;> simp [h4, toNat_bump]
  have hused {t : State} (h : t.fab.inCred = (s.creditUsed k).fab.inCred) : credited t (cred - 1) := by
    dsimp only [credited]
    rw [h]
    exact ⟨fun j hj => (s.creditUsed_inCred k j).trans (if_neg hj), (s.creditUsed_inCred k k).trans (if_pos rfl)⟩
  refine ⟨fun _ h0 => State.exec_flit_uncredited h0, fun hk hone hmax ha => ?_, fun hk hone hmax ha hkind => ?_,
    fun hkind hone hmax ha hsot hpart hfree => ?_, fun hkind hone ha hsot hpart hfree hstaged => ?_,
    fun hkind hone ha hsot heot x n hpart hn hfree => ?_, fun hlow hhigh => ?_⟩
  · have hlost := State.discardFlit_discarded (fab := (s.creditUsed k).fab) rfl rfl hone hmax 4 f.part.val (flitArg f.part.val f.sqid f.layer)
    exact hdiscards rfl ((State.exec_flit hr hf hk hone).trans (congrArg Host.Outcome.next (State.takeFlit_asleep ha))) hlost.startWake
      (fun _ hstage => State.startWake_waking hr hf ha hstage)
  · exact hdiscards rfl ((State.exec_flit hr hf hk hone).trans (congrArg Host.Outcome.next (State.takeFlit_reserved ha hkind)))
      (State.discardFlit_discarded (fab := (s.creditUsed k).fab) rfl rfl hone hmax 1 f.part.val _) (fun h => absurd h (by decide))
  · have htake := (State.takeFlit_tile ha hkind (fun _ => hpart) (State.inTile_first hsot) rfl).trans (if_pos hfree)
    exact hdiscards rfl ((State.exec_flit hr hf (by rw [hkind]; decide) hone).trans (congrArg Host.Outcome.next htake))
      (State.discardFlit_discarded (fab := ((s.creditUsed k).setPartial k _).fab) rfl rfl hone hmax 2 f.part.val _) (fun h => absurd h (by decide))
  · have htake := (State.takeFlit_tile ha hkind (fun _ => hpart) (State.inTile_first hsot) rfl).trans (if_neg hfree)
    refine ⟨_, (State.exec_flit hr hf (by rw [hkind]; decide) hone).trans (congrArg Host.Outcome.next htake), ?_⟩
    cases heot : f.eot with
    | true =>
      rw [State.stageFlit_last (s := s.creditUsed f.port.val) heot hops hstaged, flitBytes_eq]
      exact ⟨hused (State.tileStaged_inCred _ _ _), s.tileStaged_rest _ _ _,
        fun _ => ⟨State.tileStaged_stagedT _ _ _, State.tileStaged_partialT _ _ _⟩, fun h => absurd h (by decide)⟩
    | false =>
      rw [State.stageFlit_more heot (Nat.succ_pos 510), flitBytes_eq]
      exact ⟨hused (State.setPartial_inCred _ _ _), s.setPartial_rest _ _ _, fun h => absurd h (by decide),
        fun _ => ⟨State.setPartial_stagedT _ _ _, State.setPartial_partialT _ _ _⟩⟩
  · have htake := (State.takeFlit_tile ha hkind (fun h => absurd h (by simp [hsot])) (State.inTile_next hsot hpart) rfl).trans (if_neg hfree)
    refine ⟨_, (State.exec_flit hr hf (by rw [hkind]; decide) hone).trans (congrArg Host.Outcome.next htake), ?_⟩
    rw [State.stageFlit_more heot hn, flitBytes_eq]
    exact ⟨hused (State.setPartial_inCred _ _ _), s.setPartial_rest _ _ _, State.setPartial_partialT _ _ _⟩
  · refine ⟨_, State.exec_fabricCredit hr hf hops hlow hhigh, ?_⟩
    have hcred := foldl_reads (g := fun s : State => s.fab.outCred) (fun s _ => s.flitAcked_outCred port.val) (List.replicate cnt.toNat ())
      (s.outCredited port.val cnt.toNat)
    refine ⟨?_, fun j hj => ?_, fun hnone => ?_⟩
    · exact (congrArg (fun t => Tab.get 0 t port.val) hcred).trans ((s.outCredited_outCred _ _ _).trans (if_pos rfl))
    · exact (congrArg (fun t => Tab.get 0 t j) hcred).trans ((s.outCredited_outCred _ _ _).trans (if_neg hj))
    · rw [List.foldl_fixed' (fun _ => State.flitAcked_none (s := s.outCredited port.val cnt.toNat) (k := port.val) hnone)]
      rfl

end Sys2Proof.Machine
end
